-- ==== Sys2Proof/Word.lean ====
section
/-! DEFINITION. The words the spec treats as bits: the byte of a telegram (12.1) and the 32-bit tick of the timebase (R49). -/

namespace Sys2Proof

/-- A byte of a telegram or of the panel frame. -/
abbrev Byte := BitVec 8

/-- A tick of the timebase: a 32-bit count of milliseconds that wraps (R49). -/
abbrev Tick := BitVec 32

end Sys2Proof
end

