-- ==== Sys2Proof/Syntax.lean ====
section
/-! DEFINITION. The commands of the part: one constructor of Instr per row of spec/opcode_table.json, with the
names its operands use. -/

namespace Sys2Proof

/-- The seven input channels of Table 3-1. -/
inductive ChanId where
  | pressure | primary | secondary | tilt | drive | incline | tag
  deriving DecidableEq, Repr

/-- The four keys (8.2). -/
inductive Key where
  | mode | up | down | enter
  deriving DecidableEq, Repr

/-- The eight alarms of Table 7-1, in order of priority. -/
inductive Alarm where
  | lowSupply | stationConflict | inputFault | calInvalid | crossCheck | overload | passOver | noWeigher
  deriving DecidableEq, Repr

/-- The two input-loss timers of the cycle tracker (R40). -/
inductive LossSide where
  | pressure | angle
  deriving DecidableEq, Repr

/-- One character as the receiver takes it: its eight data bits, and whether its stop bit is recessive (R149, R150). -/
structure RxChar where
  data : Byte
  stopOk : Bool
  deriving DecidableEq, Repr

/-- The levels of the straps when a COLD or LINE start reads them (R148): STN0 to STN4 as one number, and RATE. -/
structure Straps where
  stn : BitVec 5
  rateClosed : Bool
  deriving DecidableEq, Repr

/-- The commands. A telegram's operands are its source, its destination and its data characters (12.1). -/
inductive Instr where
  | liftPressure (src dst : Byte) (data : List Byte)
  | boomAngle (src dst : Byte) (data : List Byte)
  | bucketTilt (src dst : Byte) (data : List Byte)
  | chassisIncline (src dst : Byte) (data : List Byte)
  | driveState (src dst : Byte) (data : List Byte)
  | truckTag (src dst : Byte) (data : List Byte)
  | weigherStatus (src dst : Byte) (data : List Byte)
  | truckStatus (src dst : Byte) (data : List Byte)
  | passRecord (src dst : Byte) (data : List Byte)
  | truckClosed (src dst : Byte) (data : List Byte)
  | counterRequest (src dst : Byte) (data : List Byte)
  | counterReport (src dst : Byte) (data : List Byte)
  | diagRequest (src dst : Byte) (data : List Byte)
  | diagReport (src dst : Byte) (data : List Byte)
  | configWrite (src dst : Byte) (data : List Byte)
  | configCommit (src dst : Byte) (data : List Byte)
  | configStatus (src dst : Byte) (data : List Byte)
  | receiveFailure (run : List RxChar)
  | settleGapComplete
  | dominantDuringDelay
  | accessDelayEnd
  | telegramSent
  | readbackMismatch (bit : Nat)
  | quietTimerExpiry
  | staleExpiry (c : ChanId)
  | lossTimerExpiry (c : ChanId)
  | rateTimerExpiry
  | fillEmptyTimerExpiry
  | carryTimerExpiry
  | inputLossTimerExpiry (side : LossSide)
  | truckStatusRefresh
  | counterPollTimer
  | keyLineChange (k : Key) (low : Bool)
  | keyDebounceExpiry (k : Key)
  | longPress
  | repeatStep
  | frameTimer
  | blinkTimer
  | historyViewTimer
  | messageTimer
  | buzzerPhaseEnd
  | maskTimerExpiry (a : Alarm)
  | statusTimerExpiry
  | peerRecordRemoval (station : Nat)
  | watchTimerExpiry
  | listenTimerExpiry
  | pairingTimerExpiry
  | storeWriteComplete
  | startWindowEnd
  | supplyFallsLow (volts : Nat)
  | supplyRisesOk (volts : Nat) (straps : Straps)
  | ignLineChange (high : Bool)
  | ignitionChange
  | peekTimerExpiry
  | regulatorFail (volts : Nat)
  | coldStart (volts : Nat) (straps : Straps)
  | resetAssert
  | resetRelease (straps : Straps)
  | ignitionOffAfterStart
  | unknownKindTelegram (kind src dst : Byte) (data : List Byte)
  | bklPeriodStart
  deriving DecidableEq, Repr

end Sys2Proof
end

