-- ==== Sys2Proof/Decode.lean ====
section
/-! DEFINITION. Reading bits. No row of spec/opcode_table.json gives bits, so no word spells a command. What the
part itself decodes is a run of link characters: the frame (12.1), the check (R151), the receive tests (R150),
and the other way round the characters of a telegram that is sent (R181). -/

namespace Sys2Proof

/-- The command a table word spells: no row of the table has bits. -/
def decodeTableWord (_nbits _w : Nat) : Option Instr := none

/-- The lead character of a telegram (Table 12-1). -/
def leadChar : Byte := 0xC3#8

/-- One bit of the check of R151: the register is shifted left, and exclusive-ORed with 1021h when its top bit
differs from the data bit. -/
def crcBit (r : BitVec 16) (b : Bool) : BitVec 16 :=
  if r.getLsbD 15 == b then r <<< 1 else (r <<< 1) ^^^ 0x1021#16

/-- One byte enters the check most significant bit first (R151). -/
def crcByte (r : BitVec 16) (d : Byte) : BitVec 16 :=
  let r := crcBit r (d.getLsbD 7)
  let r := crcBit r (d.getLsbD 6)
  let r := crcBit r (d.getLsbD 5)
  let r := crcBit r (d.getLsbD 4)
  let r := crcBit r (d.getLsbD 3)
  let r := crcBit r (d.getLsbD 2)
  let r := crcBit r (d.getLsbD 1)
  crcBit r (d.getLsbD 0)

/-- The check of a list of bytes: initial value FFFFh, no final inversion (R151). -/
def crc16 (ds : List Byte) : BitVec 16 := ds.foldl crcByte 0xFFFF#16

/-- The two check characters, high byte first (R151). -/
def crcChars (ds : List Byte) : List Byte :=
  [(crc16 ds).extractLsb' 8 8, (crc16 ds).extractLsb' 0 8]

/-- A whole telegram as received: kind, source, destination and data (Table 12-1). -/
structure WholeTelegram where
  kind : Byte
  src : Byte
  dst : Byte
  data : List Byte
  deriving DecidableEq, Repr

/-- The characters of a telegram on the bus, lead to check (R149, Table 12-1). -/
def frameChars (t : WholeTelegram) : List Byte :=
  let covered := t.kind :: t.src :: t.dst :: BitVec.ofNat 8 t.data.length :: t.data
  leadChar :: covered ++ crcChars covered

/-- The failures of Table 9-2, by the counter each is counted against. -/
inductive RxError where
  | form | length | check
  deriving DecidableEq, Repr

/-- What a run of characters is: a failure of Table 9-2, or a whole telegram. -/
inductive RxResult where
  | failed (e : RxError)
  | whole (t : WholeTelegram)
  deriving DecidableEq, Repr

/-- The length and check tests of Table 9-2 on a run whose characters passed the first two tests. -/
def testRun (bytes : List Byte) : RxResult :=
  match bytes with
  | _ :: kind :: src :: dst :: len :: rest =>
    if 12 < len.toNat ∨ rest.length ≠ len.toNat + 2 then .failed .length
    else
      let data := rest.take len.toNat
      if rest.drop len.toNat = crcChars (kind :: src :: dst :: len :: data) then .whole ⟨kind, src, dst, data⟩
      else .failed .check
  | _ => .failed .length

/-- The receive tests of R150 on the characters of one run: a dominant stop bit or a first character other than
the lead is FORM, found while the characters arrive; length and check are tested at the ending settle gap. -/
def receiveTests (run : List RxChar) : RxResult :=
  match run with
  | [] => .failed .length
  | c :: rest =>
    if !c.stopOk || c.data != leadChar then .failed .form
    else if rest.any (fun x => !x.stopOk) then .failed .form
    else testRun (run.map RxChar.data)

end Sys2Proof
end

