-- ==== Sys2Proof/Machine/State.lean ====
section
/-! DEFINITION. The state of the part: every item the spec's state tables give its twelve blocks, the pins, the
queue of waiting commands, and State.reset. Ranges are those of the tables; that every step keeps them is stated
in Certificates. -/

namespace Sys2Proof.Machine

/-! ## Stops -/

/-- What a command may be stopped by. The spec names no event that stops the part, so there is no fault. -/
inductive Fault where
  deriving DecidableEq, Repr

/-- Why a command has no meaning. -/
inductive Refusal where
  /-- Raised by exec's arm for a row without a meaning. Safe: nothing is claimed of it. -/
  | notModelled (mnemonic : String)
  deriving DecidableEq, Repr

/-! ## Names shared by several blocks -/

/-- The six role states (Table 6-1). -/
inductive RoleState where
  | listen | active | standby | calibrating | repeating | mute
  deriving DecidableEq, Repr

/-- The configured role (item 1 of Table 10-3). -/
inductive CfgRole where
  | weigher | repeater
  deriving DecidableEq, Repr

/-- The two latch modes of an alarm record (7.2). -/
inductive LatchMode where
  | edge | held
  deriving DecidableEq, Repr

/-- The grades of a window (R23). -/
inductive Grade where
  | good | fair | poor | reject
  deriving DecidableEq, Repr

/-- The kinds of pass (Table 2-3). -/
inductive PassKind where
  | normal | remainder
  deriving DecidableEq, Repr

/-- The close reasons of a truck record (R79). -/
inductive CloseReason where
  | newTruck | departed | operator | yielded
  deriving DecidableEq, Repr

/-- The start kinds (Table 11-1). -/
inductive StartKind where
  | cold | line | resume
  deriving DecidableEq, Repr

/-- One value for each of the four keys. -/
structure PerKey (α : Type) where
  mode : α
  up : α
  down : α
  enter : α
  deriving DecidableEq, Repr

/-! ## Pins and supply monitor -/

/-- The lines as they stand (Table 0-1). vsense is a count of 0.1 V; reset is true while RESET is held low; a key
line is true while it is low. -/
structure Pins where
  vsense : Nat
  ign : Bool
  reset : Bool
  stn : BitVec 5
  rateClosed : Bool
  keys : PerKey Bool
  deriving DecidableEq, Repr

/-- Whether the part takes events: regulator off (R174), held by the reset line, released with the LINE start pending (R176),
or running. -/
inductive Life where
  | off | held | linePending | up
  deriving DecidableEq, Repr

inductive SupplyStatus where
  | ok | low
  deriving DecidableEq, Repr

inductive Power where
  | run | hold | doze | peek
  deriving DecidableEq, Repr

/-- The supply monitor (Table 11-1). offAfterStart: the ignition test at the end of a COLD or LINE start found it
off and its event is still to come (R176). -/
structure Supply where
  life : Life
  status : SupplyStatus
  power : Power
  ignition : Bool
  ignTimer : Option Tick
  startKind : StartKind
  peekTimer : Option Tick
  offAfterStart : Bool
  deriving DecidableEq, Repr

/-! ## Configuration, curve sets, passes and truck records -/

/-- The 44 configuration items of Table 10-3, in its order. -/
structure Cfg where
  role : CfgRole
  srcPressure : Nat
  srcPrimary : Nat
  srcSecondary : Nat
  srcTilt : Nat
  srcDrive : Nat
  srcIncline : Nat
  srcTag : Nat
  cylinders : Nat
  headArea : Nat
  rodArea : Nat
  thetaS : Int
  thetaE : Int
  rmin : Int
  rmax : Int
  pitchLimit : Nat
  rollLimit : Nat
  speedLimit : Nat
  inclineReq : Bool
  driveReq : Bool
  disagreeLimit : Nat
  minBins : Nat
  spread : Int
  digPressure : Nat
  digAngle : Int
  rackAngle : Int
  dumpAngle : Int
  residual : Nat
  rated : Nat
  underTol : Nat
  overTol : Nat
  passOver : Nat
  defaultTarget : Nat
  defaultSet : Fin 4
  protect : Nat
  modeInputFault : LatchMode
  modeCrossCheck : LatchMode
  modeOverload : LatchMode
  modeNoWeigher : LatchMode
  mask : BitVec 8
  singleEnded : Bool
  keyWake : Bool
  busWake : Bool
  unlock : BitVec 32
  deriving DecidableEq, Repr

/-- The defaults of Table 10-3. -/
def Cfg.defaults : Cfg where
  role := .weigher
  srcPressure := 2
  srcPrimary := 5
  srcSecondary := 0
  srcTilt := 6
  srcDrive := 7
  srcIncline := 0
  srcTag := 0
  cylinders := 2
  headArea := 314
  rodArea := 165
  thetaS := 1000
  thetaE := 2500
  rmin := 500
  rmax := 2500
  pitchLimit := 800
  rollLimit := 800
  speedLimit := 120
  inclineReq := false
  driveReq := false
  disagreeLimit := 100
  minBins := 11
  spread := 3000
  digPressure := 12000
  digAngle := 0
  rackAngle := 3500
  dumpAngle := -3000
  residual := 60
  rated := 1200
  underTol := 5
  overTol := 5
  passOver := 110
  defaultTarget := 0
  defaultSet := 0
  protect := 4
  modeInputFault := .held
  modeCrossCheck := .edge
  modeOverload := .held
  modeNoWeigher := .edge
  mask := 0
  singleEnded := false
  keyWake := true
  busWake := true
  unlock := 0

/-- The configuration of a part whose record failed its check: the defaults with the role REPEATER (R167). -/
def Cfg.fallback : Cfg := { Cfg.defaults with role := .repeater }

/-- A curve set: reference mass, empty and loaded curve, valid marker (Table 10-1). -/
structure CurveSet where
  mref : Nat
  e : Vector Int 16
  l : Vector Int 16
  valid : Bool
  deriving DecidableEq, Repr, Inhabited

def CurveSet.blank : CurveSet := ⟨0, Vector.replicate 16 0, Vector.replicate 16 0, false⟩

/-- A pass record (Table 2-5). -/
structure PassRec where
  truckId : Nat
  number : Nat
  kind : PassKind
  payload : Option Nat
  grade : Grade
  bins : Nat
  reweigh : Nat
  cycleTime : Nat
  fill : Option Nat
  negative : Bool
  overFlag : Bool
  amended : Bool
  unamended : Bool
  deriving DecidableEq, Repr

/-- The flags of a truck record (Table 4-2). -/
structure RecFlags where
  reached : Bool
  last : Bool
  isPartial : Bool
  overload : Bool
  amendedAny : Bool
  deriving DecidableEq, Repr

def RecFlags.none : RecFlags := ⟨false, false, false, false, false⟩

/-- The open truck record (Table 4-2); passes is oldest first. -/
structure TruckRec where
  id : Nat
  target : Option Nat
  passes : List PassRec
  count : Nat
  unweighed : Nat
  total : Nat
  flags : RecFlags
  deriving DecidableEq, Repr

/-- A history summary (Table 4-5). -/
structure Summary where
  seq : BitVec 32
  truckId : Nat
  target : Option Nat
  total : Nat
  count : Nat
  unweighed : Nat
  reason : CloseReason
  amended : Bool
  deriving DecidableEq, Repr

/-- The five shift counters (Table 4-6). -/
structure ShiftCounters where
  cycles : Nat
  weighed : Nat
  unweighed : Nat
  trucks : Nat
  tonnage : Nat
  deriving DecidableEq, Repr

/-- The two lifetime counters (Table 4-6). -/
structure LifeCounters where
  cycles : Nat
  tonnage : Nat
  deriving DecidableEq, Repr

def ShiftCounters.zero : ShiftCounters := ⟨0, 0, 0, 0, 0⟩
def LifeCounters.zero : LifeCounters := ⟨0, 0⟩

/-- The operator settings (Table 8-1). -/
structure Settings where
  day : Nat
  night : Nat
  volume : Nat
  trim : Int
  curveSet : Fin 4
  deriving DecidableEq, Repr

inductive Page where
  | run | truck | count | history | setup | diag | cal
  deriving DecidableEq, Repr

/-- The retained record (Table 10-2), with the kept page that R177 says the save carries (log 47). -/
structure Retained where
  shift : ShiftCounters
  life : LifeCounters
  record : Option TruckRec
  seq : BitVec 8
  nextManual : Nat
  history : List Summary
  nextHist : BitVec 32
  settings : Settings
  resumeRole : RoleState
  keptPage : Page
  deriving DecidableEq, Repr

/-! ## Link controller -/

/-- The known kinds of Table 12-2. -/
inductive Kind where
  | liftPressure | boomAngle | bucketTilt | chassisIncline | driveState | truckTag
  | weigherStatus | truckStatus | passRecord | truckClosed | counterRequest | counterReport
  | diagRequest | diagReport | configWrite | configCommit | configStatus
  deriving DecidableEq, Repr

/-- A telegram to be sent, but for its source and check, which are added as it is sent (R156). -/
structure OutTg where
  kind : Kind
  dst : Byte
  data : List Byte
  deriving DecidableEq, Repr

/-- The receiver (R150), and OFF where the link receives nothing (R163). frame holds the characters taken over after a
collision (R160). -/
inductive Rx where
  | off | idle | frame (run : List RxChar) | skip
  deriving DecidableEq, Repr

inductive Access where
  | off | gap | delay | send | quiet
  deriving DecidableEq, Repr

/-- Where the telegram in hand came from: the head of the event queue, or a copy of a slot's value (R158). -/
inductive Origin where
  | queueHead
  | wslot (t : OutTg)
  | tslot (t : OutTg)
  deriving DecidableEq, Repr

/-- The telegram in hand (Table 9-1). abandon: its slot was emptied while it was in SEND (R157). -/
structure InHand where
  origin : Origin
  attempts : Nat
  abandon : Bool
  deriving DecidableEq, Repr

inductive LastAbort where
  | none | collision | bitError
  deriving DecidableEq, Repr

/-- The link controller (Table 9-1). rateFast: 250 kbit/s. gapDone: the settle gap is complete. driven: the characters being
sent. -/
structure Link where
  station : Nat
  rateFast : Bool
  rx : Rx
  access : Access
  delay : Nat
  gapDone : Bool
  queue : List OutTg
  wslot : Option OutTg
  tslot : Option OutTg
  inHand : Option InHand
  discards : Nat
  quietTimer : Option Tick
  check : Nat
  form : Nat
  length : Nat
  txFail : Nat
  qDrop : Nat
  quietEntries : Nat
  lastAbort : LastAbort
  driven : List Byte
  deriving DecidableEq, Repr

/-! ## Input table -/

inductive Freshness where
  | absent | fresh | stale | fault
  deriving DecidableEq, Repr

/-- The status of an arrival (Table 3-1); a channel without a status field gives ok. -/
inductive ArrStatus where
  | ok | headFault | rodFault | fault
  deriving DecidableEq, Repr

/-- OVER-RANGE marks of a channel's value fields, in the order of Table 3-1 (R55). -/
structure Over where
  f1 : Bool
  f2 : Bool
  f3 : Bool
  deriving DecidableEq, Repr

def Over.clear : Over := ⟨false, false, false⟩

/-- A loss timer: stopped, running, or run out with the channel still not FRESH (R62). -/
inductive LossTimer where
  | stopped | running (since : Tick) | ranOut
  deriving DecidableEq, Repr

/-- The items every channel record holds (Table 3-2) but for its held value. -/
structure ChanRec where
  freshness : Freshness
  latestTick : Option Tick
  latestStatus : Option ArrStatus
  overRange : Over
  prevSeq : Option Byte
  gap : Nat
  staleTimer : Option Tick
  loss : LossTimer
  deriving DecidableEq, Repr

structure PressureVal where
  ph : Nat
  pr : Nat
  deriving DecidableEq, Repr

inductive Direction where
  | n | f | r
  deriving DecidableEq, Repr

structure DriveVal where
  dir : Direction
  gear : Nat
  speed : Nat
  lights : Bool
  park : Bool
  deriving DecidableEq, Repr

structure InclineVal where
  pitch : Int
  roll : Int
  deriving DecidableEq, Repr

structure TagVal where
  present : Bool
  id : Nat
  target : Option Nat
  deriving DecidableEq, Repr

/-- The held values of the seven channels (Table 3-1). -/
structure HeldValues where
  pressure : Option PressureVal
  primary : Option Int
  secondary : Option Int
  tilt : Option Int
  drive : Option DriveVal
  incline : Option InclineVal
  tag : Option TagVal
  deriving DecidableEq, Repr

inductive AngleSrc where
  | primary | secondary
  deriving DecidableEq, Repr

/-- The rate memory's arrival (R60). -/
structure RateMem where
  src : AngleSrc
  angle : Int
  at_ : Tick
  deriving DecidableEq, Repr

/-- The input table (chapter 3). omega is none while the boom rate is invalid. -/
structure InputTable where
  pressure : ChanRec
  primary : ChanRec
  secondary : ChanRec
  tilt : ChanRec
  drive : ChanRec
  incline : ChanRec
  tag : ChanRec
  held : HeldValues
  sel : Option AngleSrc
  disagree : Bool
  omega : Option Int
  rateMem : Option RateMem
  rateTimer : Option Tick
  deriving DecidableEq, Repr

/-! ## Weighing engine -/

/-- The geometry latched at a window's open (R2) or at the end of CAL-SELECT (R92). step is the point spacing. -/
structure Geom where
  n : Nat
  ah : Nat
  ar : Nat
  thetaS : Int
  thetaE : Int
  step : Int
  deriving DecidableEq, Repr

structure Latched where
  idx : Fin 4
  usable : Bool
  set : CurveSet
  geom : Geom
  deriving DecidableEq, Repr

/-- One bin (R1); ext is minD and maxD, none while the count is 0. -/
structure Bin where
  count : Nat
  sumD : Int
  sumS : Int
  ext : Option (Int × Int)
  deriving DecidableEq, Repr

def Bin.empty : Bin := ⟨0, 0, 0, none⟩

/-- The rejection tallies (Table 1-3). -/
structure Tallies where
  rate : Nat
  age : Nat
  sensor : Nat
  disagree : Nat
  incline : Nat
  speed : Nat
  binfull : Nat
  deriving DecidableEq, Repr

def Tallies.zero : Tallies := ⟨0, 0, 0, 0, 0, 0, 0⟩

/-- The window result record (Table 1-4). -/
structure WindowResult where
  grade : Grade
  bins : Nat
  payload : Option Nat
  fill : Option Nat
  negative : Bool
  overFlag : Bool
  idx : Fin 4
  deriving DecidableEq, Repr

/-- The weighing engine (Table 1-2). -/
structure Engine where
  isOpen : Bool
  latched : Option Latched
  bins : Vector Bin 15
  tallies : Tallies
  last : Option WindowResult
  deriving DecidableEq, Repr

/-- The engine after any start (R1). -/
def Engine.start : Engine := ⟨false, none, Vector.replicate 15 Bin.empty, Tallies.zero, none⟩

/-! ## Cycle tracker -/

inductive Cycle where
  | idle | fill | lift | weigh | carry | dump | ret | suspended
  deriving DecidableEq, Repr

inductive Stage where
  | candidate | weighed | unweighed
  deriving DecidableEq, Repr

/-- The pass context (Table 2-3). amendMade: its entry to CARRY made an amendment (R41, R45). -/
structure PassCtx where
  kind : PassKind
  stage : Stage
  start : Tick
  reweigh : Nat
  idx : Option (Fin 4)
  grade : Option Grade
  bins : Nat
  payload : Option Nat
  fill : Option Nat
  negative : Bool
  overFlag : Bool
  amendMade : Bool
  deriving DecidableEq, Repr

/-- The last-commit note (R42); isRecord: destination RECORD, else SHADOW. -/
structure Note where
  isRecord : Bool
  pass : PassRec
  amended : Bool
  deriving DecidableEq, Repr

/-- The void counters (Table 2-7). -/
structure Voids where
  returned : Nat
  carryTimeout : Nat
  empty : Nat
  inputLoss : Nat
  power : Nat
  restart : Nat
  deriving DecidableEq, Repr

def Voids.zero : Voids := ⟨0, 0, 0, 0, 0, 0⟩

/-- The cycle tracker (Table 2-2). -/
structure Tracker where
  cycle : Cycle
  ctx : Option PassCtx
  fillTimer : Option Tick
  carryTimer : Option Tick
  lossPressure : Option Tick
  lossAngle : Option Tick
  racked : Bool
  prevAngle : Option Int
  note : Option Note
  suspCal : Bool
  suspPower : Bool
  voids : Voids
  deriving DecidableEq, Repr

/-! ## Load register -/

/-- Mirrored figures of COUNTER REPORT part 1 (R85). -/
structure MirrorCounts where
  cycles : Nat
  weighed : Nat
  unweighed : Nat
  trucks : Nat
  retainLost : Bool
  deriving DecidableEq, Repr

/-- Mirrored figures of COUNTER REPORT part 2 (R85). -/
structure MirrorTonnage where
  shift : Nat
  life : Nat
  retainLost : Bool
  deriving DecidableEq, Repr

/-- Mirrored figures of COUNTER REPORT part 3 (R85). -/
structure MirrorLife where
  cycles : Nat
  retainLost : Bool
  deriving DecidableEq, Repr

/-- The load register (Table 4-1). -/
structure LoadRegister where
  record : Option TruckRec
  seq : BitVec 8
  nextManual : Nat
  history : List Summary
  nextHist : BitVec 32
  shift : ShiftCounters
  life : LifeCounters
  refused : Option Nat
  mirrorCounts : Option MirrorCounts
  mirrorTonnage : Option MirrorTonnage
  mirrorLife : Option MirrorLife
  refreshTimer : Option Tick
  pollTimer : Option Tick
  deriving DecidableEq, Repr

/-! ## Role arbiter -/

structure Peer where
  station : Nat
  state : RoleState
  at_ : Tick
  deriving DecidableEq, Repr

structure Pending where
  payload : Nat
  dumped : Tick
  deriving DecidableEq, Repr

structure LastPair where
  shadow : Nat
  active : Nat
  mismatch : Bool
  deriving DecidableEq, Repr

/-- The role arbiter (Table 6-2). mirrored: the record origin is MIRRORED. namedSeq: the record sequence in the named
station's latest WEIGHER STATUS (R113). -/
structure RoleArbiter where
  state : RoleState
  resumeRole : RoleState
  peers : List Peer
  named : Option Nat
  watch : Option Tick
  listen : Option Tick
  status : Option Tick
  mirrored : Bool
  pairing : List Pending
  mismatches : Nat
  crossCheck : Bool
  unpaired : Nat
  lastPair : Option LastPair
  conflict : Bool
  noWeigher : Bool
  behind : Bool
  namedSeq : Option (BitVec 8)
  deriving DecidableEq, Repr

/-! ## Calibration unit -/

inductive CalState where
  | out | select | empty | loaded | review | writing | done | failed
  deriving DecidableEq, Repr

inductive LiftOutcome where
  | kept | settling | incomplete | abandoned
  deriving DecidableEq, Repr

/-- The failure record (Table 5-2, Table 5-6). -/
inductive CalFailure where
  | geometry
  | inconsistent (loaded : Bool) (point : Nat)
  | span (point : Nat)
  | isProtected
  deriving DecidableEq, Repr

structure PointAcc where
  sum : Int
  count : Nat
  deriving DecidableEq, Repr

/-- The calibration unit (Table 5-3). onMass: the selection field is MASS. lastRefused: the refused count of the
last lift judged (R95, R103). -/
structure CalUnit where
  state : CalState
  target : Fin 4
  mass : Nat
  onMass : Bool
  geom : Option Geom
  prevAngle : Option Int
  liftOpen : Bool
  points : Vector PointAcc 16
  refused : Nat
  accepted : Nat
  keptEmpty : List (Vector Int 16)
  keptLoaded : List (Vector Int 16)
  outcome : Option LiftOutcome
  lastRefused : Option Nat
  curves : Option (Vector Int 16 × Vector Int 16)
  failure : Option CalFailure
  browse : Nat
  deriving DecidableEq, Repr

/-- The calibration unit after a COLD or LINE start (Table 5-3). -/
def CalUnit.start : CalUnit where
  state := .out
  target := 0
  mass := 1000
  onMass := false
  geom := none
  prevAngle := none
  liftOpen := false
  points := Vector.replicate 16 ⟨0, 0⟩
  refused := 0
  accepted := 0
  keptEmpty := []
  keptLoaded := []
  outcome := none
  lastRefused := none
  curves := none
  failure := none
  browse := 0

/-! ## Alarm unit -/

/-- An alarm record (Table 7-2). -/
structure AlarmRec where
  cond : Bool
  latch : Bool
  ack : Bool
  mode : LatchMode
  mask : Bool
  maskTimer : Option Tick
  deriving DecidableEq, Repr

/-- The eight alarm records of Table 7-1. -/
structure AlarmUnit where
  lowSupply : AlarmRec
  stationConflict : AlarmRec
  inputFault : AlarmRec
  calInvalid : AlarmRec
  crossCheck : AlarmRec
  overload : AlarmRec
  passOver : AlarmRec
  noWeigher : AlarmRec
  deriving DecidableEq, Repr

/-! ## Operator panel -/

/-- The field a repeat step goes to (R134). -/
inductive EditField where
  | setup | calSet | calMass
  deriving DecidableEq, Repr

/-- A hold in progress (R133-R135): its key and the tick its press registered; whether its long press is still to come;
whether calibration was OUT at its press (R89); the edit field it repeats on and the tick of its last repeat. -/
structure Hold where
  key : Key
  since : Tick
  long : Bool
  calWasOut : Bool
  field : Option EditField
  lastRepeat : Option Tick
  deriving DecidableEq, Repr

/-- The key decoder (Table 8-2). -/
inductive Decoder where
  | awaitRelease | ready | held (h : Hold) | chord
  deriving DecidableEq, Repr

/-- A debounced key: its state and its debounce timer (R132). -/
structure KeyDeb where
  down : Bool
  timer : Option Tick
  deriving DecidableEq, Repr

/-- The buzzer patterns (Table 8-11). -/
inductive Pattern where
  | beep | double | long | trill
  deriving DecidableEq, Repr

/-- The phase that sounds: its index, its starting tick, and the volume taken at the pattern's start (R145). -/
structure Play where
  phase : Nat
  since : Tick
  vol : Nat
  deriving DecidableEq, Repr

/-- The buzzer (R146): the alarm slot and the event queue. -/
structure Buzzer where
  slot : Option Pattern
  queue : List Pattern
  play : Option Play
  deriving DecidableEq, Repr

def Buzzer.silent : Buzzer := ⟨none, [], none⟩

/-- The operator panel (Table 8-1). peekHistory: the PEEK page is HISTORY; histSecond: the view is SECOND; blinkBlank: the
blink timer is in its blanked half; frame: the last frame sent; bklLevel: the level in force in the present PWM period
(R144). -/
structure Panel where
  settings : Settings
  page : Page
  keptPage : Page
  peekHistory : Bool
  setupItem : Nat
  countItem : Nat
  histSel : Option (BitVec 32)
  histSecond : Bool
  histTimer : Option Tick
  truckSel : Option Nat
  diagItem : Nat
  lastPass : Option PassRec
  decoder : Decoder
  keys : PerKey KeyDeb
  message : Option Tick
  blinkBlank : Bool
  blinkTimer : Option Tick
  frameTimer : Option Tick
  frame : List Byte
  shadow : Nat
  bklLevel : Nat
  bklTimer : Option Tick
  buz : Buzzer
  deriving DecidableEq, Repr

/-! ## Parameter store -/

/-- The contents of a write request (R165). -/
inductive WriteReq where
  | config (c : Cfg)
  | curve (i : Fin 4) (s : CurveSet)
  | retain (r : Retained)
  deriving DecidableEq, Repr

/-- A curve set region of the array: its contents and whether its check matches (10.1). -/
structure CurveRegion where
  set : CurveSet
  good : Bool
  deriving DecidableEq, Repr

/-- The non-volatile array; config and retained are none while their check fails, since nothing reads a record that fails it
(R167). -/
structure StoreArray where
  config : Option Cfg
  curves : Vector CurveRegion 4
  retained : Option Retained
  deriving DecidableEq, Repr

/-- An array never written: every check fails. -/
def StoreArray.blank : StoreArray := ⟨none, Vector.replicate 4 ⟨CurveSet.blank, false⟩, none⟩

/-- The parameter store (R164). owed: the requesters owed an answer whose contents the CONFIG write in progress carries;
owedNext: those of the CONFIG request that waits in its slot, and replaced, that it has replaced an earlier one (R172, log
38). window: the start window's starting tick while it is open. -/
structure ParamStore where
  cfg : Cfg
  work : Cfg
  curves : Vector CurveSet 4
  reqConfig : Option Cfg
  reqCurve : Option (Fin 4 × CurveSet)
  reqRetain : Option Retained
  writing : Option (WriteReq × Tick)
  configDefault : Bool
  retainLost : Bool
  window : Option Tick
  wrongCodes : Nat
  lockout : Bool
  owed : List Byte
  owedNext : List Byte
  replaced : Bool
  array : StoreArray
  deriving DecidableEq, Repr

/-! ## The part and its queue -/

/-- The part: its pins, its timebase (R49) and its blocks (Table 0-2). -/
structure Chip where
  pins : Pins
  sup : Supply
  tick : Tick
  link : Link
  inp : InputTable
  eng : Engine
  trk : Tracker
  load : LoadRegister
  role : RoleArbiter
  cal : CalUnit
  alarm : AlarmUnit
  panel : Panel
  store : ParamStore
  deriving DecidableEq, Repr

/-- The part, and the commands that wait, first in first out. -/
structure State where
  chip : Chip
  pending : List Instr
  deriving DecidableEq, Repr

/-! ## Reset: the part right after a COLD start with a blank store -/

/-- A channel record after a COLD or LINE start taken at tick t (Table 3-2). -/
def ChanRec.start (t : Tick) : ChanRec where
  freshness := .absent
  latestTick := none
  latestStatus := none
  overRange := Over.clear
  prevSeq := none
  gap := 0
  staleTimer := none
  loss := .running t

def HeldValues.none : HeldValues := ⟨Option.none, Option.none, Option.none, Option.none, Option.none, Option.none, Option.none⟩

/-- The input table after a COLD or LINE start taken at tick t (Table 3-2, R58, R59, R61). -/
def InputTable.start (t : Tick) : InputTable where
  pressure := ChanRec.start t
  primary := ChanRec.start t
  secondary := ChanRec.start t
  tilt := ChanRec.start t
  drive := ChanRec.start t
  incline := ChanRec.start t
  tag := ChanRec.start t
  held := HeldValues.none
  sel := none
  disagree := false
  omega := none
  rateMem := none
  rateTimer := none

/-- The cycle tracker after a COLD start (Table 2-2). -/
def Tracker.start : Tracker where
  cycle := .idle
  ctx := none
  fillTimer := none
  carryTimer := none
  lossPressure := none
  lossAngle := none
  racked := false
  prevAngle := none
  note := none
  suspCal := false
  suspPower := false
  voids := Voids.zero

/-- An alarm record after a start, with the mode and mask of the configuration (Table 7-2). -/
def AlarmRec.start (mode : LatchMode) (mask : Bool) : AlarmRec := ⟨false, false, false, mode, mask, none⟩

/-- The alarm records after a start under a configuration (Table 7-1, Table 7-2). -/
def AlarmUnit.start (c : Cfg) : AlarmUnit where
  lowSupply := AlarmRec.start .held (c.mask.getLsbD 0)
  stationConflict := AlarmRec.start .held (c.mask.getLsbD 1)
  inputFault := AlarmRec.start c.modeInputFault (c.mask.getLsbD 2)
  calInvalid := AlarmRec.start .held (c.mask.getLsbD 3)
  crossCheck := AlarmRec.start c.modeCrossCheck (c.mask.getLsbD 4)
  overload := AlarmRec.start c.modeOverload (c.mask.getLsbD 5)
  passOver := AlarmRec.start .edge (c.mask.getLsbD 6)
  noWeigher := AlarmRec.start c.modeNoWeigher (c.mask.getLsbD 7)

/-- The operator settings on RETAIN LOST (Table 8-1): the curve set is the default curve set item. -/
def Settings.lost (defaultSet : Fin 4) : Settings := ⟨48, 16, 10, 0, defaultSet⟩

/-- The retained items on RETAIN LOST (R66, R131, R167). -/
def Retained.lost (defaultSet : Fin 4) : Retained where
  shift := ShiftCounters.zero
  life := LifeCounters.zero
  record := none
  seq := 0
  nextManual := 1
  history := []
  nextHist := 1
  settings := Settings.lost defaultSet
  resumeRole := .listen
  keptPage := .run

/-- A panel frame of a blank image (12.7). -/
def blankFrame : List Byte := List.replicate 16 0

/-- The pins of State.reset: supply 24.0 V, ignition high, RESET released, station 1, RATE open, no key down. DESIGN CHOICE
(log 1): the spec gives the pins no value. -/
def Pins.idle : Pins := ⟨240, true, false, 1, false, ⟨false, false, false, false⟩⟩

/-- Every key up with its timer stopped (Table 8-1). -/
def keysUp : PerKey KeyDeb := ⟨⟨false, none⟩, ⟨false, none⟩, ⟨false, none⟩, ⟨false, none⟩⟩

def Supply.reset : Supply := ⟨.up, .ok, .run, true, none, .cold, none, false⟩

/-- The link controller after a COLD start of station 1 as a REPEATER, whose entry to REPEAT wrote the WEIGHER STATUS
slot (R105): role REPEAT, no latch, health SET INVALID, RETAIN LOST and CONFIG DEFAULT, set 0, COLD, sequence 0. -/
def Link.reset : Link where
  station := 1
  rateFast := false
  rx := .skip
  access := .gap
  delay := 0
  gapDone := false
  queue := []
  wslot := some ⟨.weigherStatus, 0, [5, 0, 0x0E, 0, 1, 0]⟩
  tslot := none
  inHand := none
  discards := 0
  quietTimer := none
  check := 0
  form := 0
  length := 0
  txFail := 0
  qDrop := 0
  quietEntries := 0
  lastAbort := .none
  driven := []

def LoadRegister.reset : LoadRegister where
  record := none
  seq := 0
  nextManual := 1
  history := []
  nextHist := 1
  shift := ShiftCounters.zero
  life := LifeCounters.zero
  refused := none
  mirrorCounts := none
  mirrorTonnage := none
  mirrorLife := none
  refreshTimer := none
  pollTimer := none

def RoleArbiter.reset : RoleArbiter where
  state := .repeating
  resumeRole := .listen
  peers := []
  named := none
  watch := some 0
  listen := none
  status := some 0
  mirrored := false
  pairing := []
  mismatches := 0
  crossCheck := false
  unpaired := 0
  lastPair := none
  conflict := false
  noWeigher := false
  behind := false
  namedSeq := none

def Panel.reset : Panel where
  settings := Settings.lost 0
  page := .run
  keptPage := .run
  peekHistory := false
  setupItem := 1
  countItem := 1
  histSel := none
  histSecond := false
  histTimer := some 0
  truckSel := none
  diagItem := 1
  lastPass := none
  decoder := .ready
  keys := keysUp
  message := none
  blinkBlank := false
  blinkTimer := some 0
  frameTimer := some 0
  frame := blankFrame
  shadow := 48
  bklLevel := 0
  bklTimer := some 0
  buz := Buzzer.silent

def ParamStore.reset : ParamStore where
  cfg := Cfg.fallback
  work := Cfg.fallback
  curves := Vector.replicate 4 CurveSet.blank
  reqConfig := none
  reqCurve := none
  reqRetain := none
  writing := none
  configDefault := true
  retainLost := true
  window := some 0
  wrongCodes := 0
  lockout := false
  owed := []
  owedNext := []
  replaced := false
  array := StoreArray.blank

def Chip.reset : Chip where
  pins := Pins.idle
  sup := Supply.reset
  tick := 0
  link := Link.reset
  inp := InputTable.start 0
  eng := Engine.start
  trk := Tracker.start
  load := LoadRegister.reset
  role := RoleArbiter.reset
  cal := CalUnit.start
  alarm := AlarmUnit.start Cfg.fallback
  panel := Panel.reset
  store := ParamStore.reset

/-- The machine right after reset: a COLD start with the pins of Pins.idle and a blank store (log 1). -/
def State.reset : State := ⟨Chip.reset, []⟩

end Sys2Proof.Machine
end

