-- ==== Sys2Proof/Config.lean ====
section
/-! DEFINITION. What the spec leaves open and the part still gives a value to. Each is a constant without a body, so
no claim can rest on its value. -/

namespace Sys2Proof.Config

open Sys2Proof.Machine

/-- FREE VALUE (log 7). The contents of a curve set region whose write was cut off after so many pages: a mix of old
and new pages that the spec does not lay out (R165). -/
opaque cutCurve : Nat → CurveSet → CurveSet → CurveSet

/-- FREE VALUE (log 8). The segments of digit k of a display field of a given width that is to show a number too long
for it (Table 5-7): the spec gives the number and the width, not what is shown. -/
opaque overflowDigit : Nat → Int → Nat → Byte

end Sys2Proof.Config
end

