-- ==== Sys2Proof/Machine/Ops.lean ====
section
/-! DEFINITION. The shared operations: the arithmetic of 0.4.2, timers of 0.4.3, bytes of 0.4.4, and one lens for each
family of records (keys, channels, alarms) and for each block of the part. -/

namespace Sys2Proof.Machine

/-! ## Arithmetic (0.4.2) -/

/-- Division rounded to nearest, halves away from zero (0.4.2). No rule divides by 0; the value there is 0 (log 32). -/
def roundDiv (a b : Int) : Int :=
  if b = 0 then 0
  else
    let q : Int := Int.ofNat ((2 * a.natAbs + b.natAbs) / (2 * b.natAbs))
    if (a < 0) = (b < 0) then q else -q

/-- A value below the range is replaced by its lowest value, one above it by its highest (0.4.2). -/
def clampInt (lo hi x : Int) : Int := max lo (min x hi)

/-- Clamping of a count that is not negative. -/
def clampNat (lo hi x : Nat) : Nat := max lo (min x hi)

/-- A saturating counter with a maximum stops there (0.4.2). -/
def satAdd (m a b : Nat) : Nat := min m (a + b)

/-- A 0-65535 saturating counter rises by one. -/
def bump (n : Nat) : Nat := satAdd 65535 n 1

/-! ## Timers (0.4.3) -/

/-- The age of a tick, modulo 2^32 (0.4.3). -/
def age (now since : Tick) : Nat := (now - since).toNat

/-- A timer of a length has run out: it runs, and the age of its starting tick has reached the length (0.4.3). -/
def due (len : Nat) (t : Option Tick) (now : Tick) : Bool :=
  match t with
  | none => false
  | some since => len ≤ age now since

/-! ## Bytes (0.4.4) -/

/-- A byte of a data field; bytes past its end read 0 and are never read by a consumer (R182). -/
def byteAt (d : List Byte) (i : Nat) : Byte := d.getD i 0

def nat8 (d : List Byte) (i : Nat) : Nat := (byteAt d i).toNat
def nat16 (d : List Byte) (i : Nat) : Nat := nat8 d i * 256 + nat8 d (i + 1)
def nat24 (d : List Byte) (i : Nat) : Nat := nat16 d i * 256 + nat8 d (i + 2)
def nat32 (d : List Byte) (i : Nat) : Nat := nat24 d i * 256 + nat8 d (i + 3)

/-- Two's complement of a width (0.4.4). -/
def toSigned (bits n : Nat) : Int := if n < 2 ^ (bits - 1) then n else (n : Int) - 2 ^ bits

def int16 (d : List Byte) (i : Nat) : Int := toSigned 16 (nat16 d i)
def int32 (d : List Byte) (i : Nat) : Int := toSigned 32 (nat32 d i)

def be8 (n : Nat) : List Byte := [BitVec.ofNat 8 n]
def be16 (n : Nat) : List Byte := [BitVec.ofNat 8 (n / 256), BitVec.ofNat 8 n]
def be24 (n : Nat) : List Byte := BitVec.ofNat 8 (n / 65536) :: be16 n
def be32 (n : Nat) : List Byte := BitVec.ofNat 8 (n / 16777216) :: be24 n

/-- Bit i of a byte as a number. -/
def bitVal (b : Bool) (i : Nat) : Nat := if b then 2 ^ i else 0

/-! ## Records chosen by a name -/

def PerKey.get {α : Type} (p : PerKey α) : Key → α
  | .mode => p.mode
  | .up => p.up
  | .down => p.down
  | .enter => p.enter

def PerKey.set {α : Type} (p : PerKey α) (k : Key) (a : α) : PerKey α :=
  match k with
  | .mode => { p with mode := a }
  | .up => { p with up := a }
  | .down => { p with down := a }
  | .enter => { p with enter := a }

def PerKey.map {α β : Type} (f : α → β) (p : PerKey α) : PerKey β := ⟨f p.mode, f p.up, f p.down, f p.enter⟩

/-- The channels in the order of Table 3-1. -/
def ChanId.all : List ChanId := [.pressure, .primary, .secondary, .tilt, .drive, .incline, .tag]

def InputTable.chan (t : InputTable) : ChanId → ChanRec
  | .pressure => t.pressure
  | .primary => t.primary
  | .secondary => t.secondary
  | .tilt => t.tilt
  | .drive => t.drive
  | .incline => t.incline
  | .tag => t.tag

def InputTable.setChan (t : InputTable) (c : ChanId) (r : ChanRec) : InputTable :=
  match c with
  | .pressure => { t with pressure := r }
  | .primary => { t with primary := r }
  | .secondary => { t with secondary := r }
  | .tilt => { t with tilt := r }
  | .drive => { t with drive := r }
  | .incline => { t with incline := r }
  | .tag => { t with tag := r }

/-- The alarms in the order of priority of Table 7-1. -/
def Alarm.all : List Alarm :=
  [.lowSupply, .stationConflict, .inputFault, .calInvalid, .crossCheck, .overload, .passOver, .noWeigher]

def AlarmUnit.get (u : AlarmUnit) : Alarm → AlarmRec
  | .lowSupply => u.lowSupply
  | .stationConflict => u.stationConflict
  | .inputFault => u.inputFault
  | .calInvalid => u.calInvalid
  | .crossCheck => u.crossCheck
  | .overload => u.overload
  | .passOver => u.passOver
  | .noWeigher => u.noWeigher

def AlarmUnit.put (u : AlarmUnit) (a : Alarm) (r : AlarmRec) : AlarmUnit :=
  match a with
  | .lowSupply => { u with lowSupply := r }
  | .stationConflict => { u with stationConflict := r }
  | .inputFault => { u with inputFault := r }
  | .calInvalid => { u with calInvalid := r }
  | .crossCheck => { u with crossCheck := r }
  | .overload => { u with overload := r }
  | .passOver => { u with passOver := r }
  | .noWeigher => { u with noWeigher := r }

/-! ## Blocks of the part -/

def Chip.mapSup (f : Supply → Supply) (c : Chip) : Chip := { c with sup := f c.sup }
def Chip.mapLink (f : Link → Link) (c : Chip) : Chip := { c with link := f c.link }
def Chip.mapInp (f : InputTable → InputTable) (c : Chip) : Chip := { c with inp := f c.inp }
def Chip.mapEng (f : Engine → Engine) (c : Chip) : Chip := { c with eng := f c.eng }
def Chip.mapTrk (f : Tracker → Tracker) (c : Chip) : Chip := { c with trk := f c.trk }
def Chip.mapLoad (f : LoadRegister → LoadRegister) (c : Chip) : Chip := { c with load := f c.load }
def Chip.mapRole (f : RoleArbiter → RoleArbiter) (c : Chip) : Chip := { c with role := f c.role }
def Chip.mapCal (f : CalUnit → CalUnit) (c : Chip) : Chip := { c with cal := f c.cal }
def Chip.mapAlarm (f : AlarmUnit → AlarmUnit) (c : Chip) : Chip := { c with alarm := f c.alarm }
def Chip.mapPanel (f : Panel → Panel) (c : Chip) : Chip := { c with panel := f c.panel }
def Chip.mapStore (f : ParamStore → ParamStore) (c : Chip) : Chip := { c with store := f c.store }

/-- The configuration in force (R164). -/
def Chip.cfg (c : Chip) : Cfg := c.store.cfg

/-- The part is running in power state RUN. -/
def Chip.inRun (c : Chip) : Bool := c.sup.power == .run

/-- The configured role is WEIGHER (item 1). -/
def Chip.isWeigher (c : Chip) : Bool := c.store.cfg.role == .weigher

end Sys2Proof.Machine
end

