-- ==== Sys2Proof/Machine/Buzzer.lean ====
section
/-! DEFINITION. The buzzer (R145, R146): the alarm slot, the event queue, the phases of a pattern, and the outputs. -/

namespace Sys2Proof.Machine

/-- The phases of a pattern: each a length in ms and whether the tone runs (Table 8-11); TRILL repeats its two. -/
def Pattern.phases : Pattern → List (Nat × Bool)
  | .beep => [(100, true)]
  | .double => [(100, true), (100, false), (100, true)]
  | .long => [(1000, true)]
  | .trill => [(250, true), (250, false)]

/-- The pattern that sounds: the alarm slot's, otherwise the head of the queue (R146). -/
def Buzzer.sounding (b : Buzzer) : Option Pattern :=
  match b.slot with
  | some p => some p
  | none => b.queue.head?

/-- Start the pattern that is to sound, if there is one; the volume is taken at its start (R145). -/
def Buzzer.begin (vol : Nat) (now : Tick) (b : Buzzer) : Buzzer :=
  { b with play := if b.sounding.isSome then some ⟨0, now, vol⟩ else none }

/-- An alarm request or the start of the TRILL demand: the pattern enters the slot and starts at once; an event pattern
that sounds is dropped, those that wait stay (R146). -/
def Buzzer.alarmRequest (p : Pattern) (vol : Nat) (now : Tick) (b : Buzzer) : Buzzer :=
  Buzzer.begin vol now
    { b with queue := if b.slot.isNone then b.queue.drop 1 else b.queue, slot := some p }

/-- The alarm pattern ends: the slot is empty and the queue head, if any, starts (R146). -/
def Buzzer.alarmEnd (vol : Nat) (now : Tick) (b : Buzzer) : Buzzer := Buzzer.begin vol now { b with slot := none }

/-- An event request: with fewer than 2 in the queue it joins, and starts if it is the head with the slot empty; with 2
it is dropped (R146). -/
def Buzzer.eventRequest (p : Pattern) (vol : Nat) (now : Tick) (b : Buzzer) : Buzzer :=
  if b.queue.length < 2 then
    let b' := { b with queue := b.queue ++ [p] }
    if b.slot.isNone ∧ b.queue = [] then Buzzer.begin vol now b' else b'
  else b

/-- The sounding pattern ends after its last phase (R146). -/
def Buzzer.patternEnd (vol : Nat) (now : Tick) (b : Buzzer) : Buzzer :=
  if b.slot.isSome then b.alarmEnd vol now else Buzzer.begin vol now { b with queue := b.queue.drop 1 }

/-- The phase that sounds runs out: the next phase starts, TRILL going round, or the pattern ends (R145, R146). -/
def Buzzer.phaseEnd (vol : Nat) (now : Tick) (b : Buzzer) : Buzzer :=
  match b.sounding, b.play with
  | some p, some y =>
    match p.phases[y.phase]? with
    | none => b
    | some (len, _) =>
      if len ≤ age now y.since then
        if y.phase + 1 < p.phases.length then { b with play := some { y with phase := y.phase + 1, since := now } }
        else if p = .trill then { b with play := some { y with phase := 0, since := now } }
        else b.patternEnd vol now
      else b
  | _, _ => b

/-- Whether the tone runs now (R145). -/
def Buzzer.toneOn (b : Buzzer) : Bool :=
  match b.sounding, b.play with
  | some p, some y =>
    match p.phases[y.phase]? with
    | some (_, on) => on
    | none => false
  | _, _ => false

def Chip.mapBuz (f : Nat → Tick → Buzzer → Buzzer) (c : Chip) : Chip :=
  c.mapPanel fun p => { p with buz := f p.settings.volume c.tick p.buz }

/-- An event pattern is requested; the buzzer takes event requests in RUN and PEEK (R146). -/
def Chip.beepEvent (p : Pattern) (c : Chip) : Chip :=
  match c.sup.power with
  | .run | .peek => c.mapBuz (Buzzer.eventRequest p)
  | .hold | .doze => c

/-- BUZZER_PHASE_END (R145, R146). -/
def Chip.buzzerPhaseEnd (c : Chip) : Chip := c.mapBuz Buzzer.phaseEnd

/-- BZA: the fifteenths of the first half-period it is high (R145). -/
def Chip.bza (c : Chip) : Nat :=
  match c.panel.buz.play with
  | some y => if c.panel.buz.toneOn then y.vol else 0
  | none => 0

/-- BZB: the fifteenths of the second half-period it is high; held low in single-ended drive (R145). -/
def Chip.bzb (c : Chip) : Nat := if c.cfg.singleEnded then 0 else c.bza

end Sys2Proof.Machine
end

