-- ==== Sys2Proof/Machine/Alarm.lean ====
section
/-! DEFINITION. The alarm unit (chapter 7): latching, masking, the banner, acknowledgement, buzzer requests. -/

namespace Sys2Proof.Machine

/-! ## One record -/

/-- The mask timer after a rise: it starts when a masked record's latch becomes set, and restarts at a further rise
while it runs (R126). -/
def AlarmRec.riseTimer (now : Tick) (r : AlarmRec) : Option Tick :=
  if r.mask && (!r.latch || r.maskTimer.isSome) then some now else r.maskTimer

/-- Condition false to true: latch set, acknowledged clear (R123, R124: the same in both modes). -/
def AlarmRec.rise (now : Tick) (r : AlarmRec) : AlarmRec :=
  { r with cond := true, latch := true, ack := false, maskTimer := r.riseTimer now }

/-- The latch clears, and with it the acknowledged item and the mask timer (R124, R126). -/
def AlarmRec.clearLatch (r : AlarmRec) : AlarmRec := { r with latch := false, ack := false, maskTimer := none }

/-- Condition true to false: an acknowledged HELD latch clears; otherwise no change of the latch (R123, R124). -/
def AlarmRec.fall (r : AlarmRec) : AlarmRec :=
  let r := { r with cond := false }
  match r.mode with
  | .edge => r
  | .held => if r.latch && r.ack then r.clearLatch else r

/-- An acknowledgement (R123, R124). -/
def AlarmRec.acknowledge (r : AlarmRec) : AlarmRec :=
  if !r.latch then r
  else
    match r.mode with
    | .edge => r.clearLatch
    | .held => if r.cond then { r with ack := true } else r.clearLatch

/-- The record stands in the choice of the banner (R127). -/
def AlarmRec.shown (r : AlarmRec) : Bool := r.latch && !r.ack && !r.mask

/-- Whether the new mode latches the record as at a rise: EDGE to HELD, condition true, latch clear (R125). -/
def AlarmRec.modeLatches (mode : LatchMode) (r : AlarmRec) : Bool :=
  r.mode == .edge && mode == .held && r.cond && !r.latch

/-- The record takes a new latch mode (R125). -/
def AlarmRec.takeMode (mode : LatchMode) (r : AlarmRec) : AlarmRec :=
  if r.modeLatches mode then { r with mode := mode, latch := true, ack := false }
  else if r.mode == .held && mode == .edge && r.latch && r.ack then { r.clearLatch with mode := mode }
  else { r with mode := mode }

/-- The record takes a new mask: its timer stops where it is unmasked or not latched, and starts where a latched,
unacknowledged record becomes masked or a masked record has just latched (R125, R126). -/
def AlarmRec.takeMask (now : Tick) (mask latched : Bool) (r : AlarmRec) : AlarmRec :=
  { r with
    mask := mask
    maskTimer :=
      if !mask || !r.latch then none
      else if (!r.mask && !r.ack) || latched then some now
      else r.maskTimer }

/-- A record takes its new mode and mask in one event (R125). -/
def AlarmRec.reconfigure (now : Tick) (mode : LatchMode) (mask : Bool) (r : AlarmRec) : AlarmRec :=
  if r.mode = mode ∧ r.mask = mask then r else (r.takeMode mode).takeMask now mask (r.modeLatches mode)

/-! ## The unit -/

/-- The latch mode of each alarm (Table 7-1). -/
def Cfg.alarmMode (c : Cfg) : Alarm → LatchMode
  | .lowSupply | .stationConflict | .calInvalid => .held
  | .passOver => .edge
  | .inputFault => c.modeInputFault
  | .crossCheck => c.modeCrossCheck
  | .overload => c.modeOverload
  | .noWeigher => c.modeNoWeigher

/-- The mask of each alarm: priority 1 in bit 0 (item 40). -/
def Cfg.alarmMask (c : Cfg) : Alarm → Bool
  | .lowSupply => c.mask.getLsbD 0
  | .stationConflict => c.mask.getLsbD 1
  | .inputFault => c.mask.getLsbD 2
  | .calInvalid => c.mask.getLsbD 3
  | .crossCheck => c.mask.getLsbD 4
  | .overload => c.mask.getLsbD 5
  | .passOver => c.mask.getLsbD 6
  | .noWeigher => c.mask.getLsbD 7

/-- The one-shot pattern of an alarm; none for a TRILL alarm (Table 7-1, R129). -/
def oneShotOf : Alarm → Option Pattern
  | .lowSupply | .stationConflict | .inputFault | .overload => none
  | .calInvalid | .crossCheck | .noWeigher => some .double
  | .passOver => some .long

/-- The TRILL demand: a TRILL alarm latched, not acknowledged and not masked (R129). -/
def AlarmUnit.demand (u : AlarmUnit) : Bool :=
  u.lowSupply.shown || u.stationConflict.shown || u.inputFault.shown || u.overload.shown

/-- The banner alarm while the unit is not suspended (R127). -/
def AlarmUnit.banner (u : AlarmUnit) : Option Alarm := Alarm.all.find? (fun a => (u.get a).shown)

/-- The banner: none while the unit is suspended (R127, R130). -/
def Chip.banner (c : Chip) : Option Alarm := if c.inRun then c.alarm.banner else none

/-- The records take new values, and the start or end of the TRILL demand goes to the buzzer (R129). -/
def Chip.setAlarms (u : AlarmUnit) (c : Chip) : Chip :=
  let was := c.alarm.demand
  let c := { c with alarm := u }
  if !was && u.demand then c.mapBuz (Buzzer.alarmRequest .trill)
  else if was && !u.demand then c.mapBuz Buzzer.alarmEnd
  else c

/-- A one-shot is requested: dropped while the TRILL demand stands (Table 7-5); a masked record requests none. -/
def Chip.oneShot (a : Alarm) (c : Chip) : Chip :=
  match oneShotOf a with
  | none => c
  | some p => if (c.alarm.get a).mask || c.alarm.demand then c else c.mapBuz (Buzzer.alarmRequest p)

/-- A source hands over the value of its condition; a value that is no change does nothing, and none is taken while the
unit is suspended (R122, R130). -/
def Chip.takeCond (a : Alarm) (v : Bool) (c : Chip) : Chip :=
  let r := c.alarm.get a
  if !c.inRun || r.cond == v then c
  else if v then (c.setAlarms (c.alarm.put a (r.rise c.tick))).oneShot a
  else c.setAlarms (c.alarm.put a r.fall)

/-- A PASS OVER pulse: true and false again within the commit (R122, R123). -/
def Chip.pulsePassOver (c : Chip) : Chip := (c.takeCond .passOver true).takeCond .passOver false

/-- An acknowledgement reaches one record (R126, R128). -/
def Chip.acknowledge (a : Alarm) (c : Chip) : Chip :=
  c.setAlarms (c.alarm.put a (c.alarm.get a).acknowledge)

/-- MASK_TIMER_EXPIRY: the unit takes an acknowledgement of the record (R126). -/
def Chip.maskTimerExpiry (a : Alarm) (c : Chip) : Chip :=
  if due 1000 (c.alarm.get a).maskTimer c.tick then
    c.setAlarms (c.alarm.put a { (c.alarm.get a).acknowledge with maskTimer := none })
  else c

/-! ## The conditions (R122) -/

/-- A required channel of the input table: pressure, primary angle and tilt always, drive and incline where required
(R62). -/
def Cfg.requires (c : Cfg) : ChanId → Bool
  | .pressure | .primary | .tilt => true
  | .drive => c.driveReq
  | .incline => c.inclineReq
  | .secondary | .tag => false

/-- INPUT FAULT: in RUN, in a WEIGHER, a required channel whose loss timer has run out is not FRESH (R62). -/
def Chip.inputFault (c : Chip) : Bool :=
  c.inRun && c.isWeigher
    && ChanId.all.any fun i =>
         c.cfg.requires i && (c.inp.chan i).loss == .ranOut && (c.inp.chan i).freshness != .fresh

/-- The set named by the active curve set setting is INVALID (R122). -/
def Chip.setInvalid (c : Chip) : Bool := !(c.store.curves[c.panel.settings.curveSet]).valid

/-- The OVERLOAD condition: the open record's OVERLOAD flag, own or mirrored (R71, R113, R122). -/
def Chip.overloaded (c : Chip) : Bool :=
  match c.load.record with
  | some r => r.flags.overload
  | none => false

/-- The present value of each condition (R122); PASS OVER is a pulse and stands false. -/
def Chip.cond (c : Chip) : Alarm → Bool
  | .lowSupply => c.sup.status == .low
  | .stationConflict => c.role.conflict
  | .inputFault => c.inputFault
  | .calInvalid => c.isWeigher && c.setInvalid
  | .crossCheck => c.role.crossCheck
  | .overload => c.overloaded
  | .passOver => false
  | .noWeigher => c.role.noWeigher

/-- The source of one condition hands over its present value. -/
def Chip.refresh (a : Alarm) (c : Chip) : Chip := c.takeCond a (c.cond a)

/-- Every source hands over its present value, in order of priority. -/
def Chip.refreshAlarms (c : Chip) : Chip := Alarm.all.foldl (fun c a => c.refresh a) c

/-- The first evaluation at the entry to RUN that ends a start: the records are cleared, with no pattern asked for, and
every condition is taken afresh (R121, log 19). -/
def Chip.alarmStart (c : Chip) : Chip :=
  { c.mapBuz Buzzer.alarmEnd with alarm := AlarmUnit.start c.cfg }.refreshAlarms

/-! ## Suspension and the end of the start window -/

/-- Entry to HOLD, DOZE or PEEK: every mask timer stops; latches, acknowledged items and conditions are kept (R130).
The panel empties the buzzer at the same entry (R146). -/
def AlarmUnit.suspend (u : AlarmUnit) : AlarmUnit where
  lowSupply := { u.lowSupply with maskTimer := none }
  stationConflict := { u.stationConflict with maskTimer := none }
  inputFault := { u.inputFault with maskTimer := none }
  calInvalid := { u.calInvalid with maskTimer := none }
  crossCheck := { u.crossCheck with maskTimer := none }
  overload := { u.overload with maskTimer := none }
  passOver := { u.passOver with maskTimer := none }
  noWeigher := { u.noWeigher with maskTimer := none }

/-- Every record takes its new mode and mask, each from the record as it stood (R125). -/
def AlarmUnit.reconfigure (now : Tick) (cfg : Cfg) (u : AlarmUnit) : AlarmUnit :=
  Alarm.all.foldl (fun w a => w.put a ((u.get a).reconfigure now (cfg.alarmMode a) (cfg.alarmMask a))) u

/-- The alarms that the new modes latch (R125), in order of priority. -/
def AlarmUnit.modeLatched (cfg : Cfg) (u : AlarmUnit) : List Alarm :=
  Alarm.all.filter fun a => (u.get a).modeLatches (cfg.alarmMode a)

/-- The record's mode and mask alone, as outside RUN (R170). -/
def AlarmUnit.setMode (cfg : Cfg) (a : Alarm) (u : AlarmUnit) : AlarmUnit :=
  u.put a { u.get a with mode := cfg.alarmMode a, mask := cfg.alarmMask a }

/-- The records take the configuration that has just come into force, in one event: the TRILL demand is handed over as
it stands after all of them, then the one-shots of the records latched (R125, R129, log 44). Outside RUN their modes and
masks alone (R170). A one-shot that sounds is not withdrawn where its record becomes masked (log 44). -/
def Chip.reconfigureAlarms (c : Chip) : Chip :=
  if c.inRun then
    (c.alarm.modeLatched c.cfg).foldl (fun c a => c.oneShot a) (c.setAlarms (c.alarm.reconfigure c.tick c.cfg))
  else c.mapAlarm fun u => Alarm.all.foldl (fun u a => u.setMode c.cfg a) u

end Sys2Proof.Machine
end

