-- ==== Sys2Proof/Machine/Flags.lean ====
section
/-! DEFINITION. The flag bytes and code numbers of the telegrams (Tables 12-2 to 12-5), written and read. -/

namespace Sys2Proof.Machine

/-! ## Kinds (Table 12-2, Table 9-4) -/

def Kind.all : List Kind :=
  [.liftPressure, .boomAngle, .bucketTilt, .chassisIncline, .driveState, .truckTag, .weigherStatus, .truckStatus,
   .passRecord, .truckClosed, .counterRequest, .counterReport, .diagRequest, .diagReport, .configWrite, .configCommit,
   .configStatus]

/-- The code of a kind (Table 12-2). -/
def Kind.code : Kind → Byte
  | .liftPressure => 0x08
  | .boomAngle => 0x09
  | .bucketTilt => 0x0A
  | .chassisIncline => 0x0B
  | .driveState => 0x0C
  | .truckTag => 0x10
  | .weigherStatus => 0x20
  | .truckStatus => 0x21
  | .passRecord => 0x22
  | .truckClosed => 0x23
  | .counterRequest => 0x24
  | .counterReport => 0x25
  | .diagRequest => 0x26
  | .diagReport => 0x27
  | .configWrite => 0x30
  | .configCommit => 0x31
  | .configStatus => 0x32

/-- The known kind of a code, if it is one (R153 test 3). -/
def Kind.ofCode (b : Byte) : Option Kind := Kind.all.find? (fun k => k.code == b)

/-- The access class of a kind (Table 9-4 note a). -/
def Kind.accessClass : Kind → Nat
  | .liftPressure | .boomAngle | .bucketTilt | .chassisIncline | .driveState | .truckTag => 0
  | .passRecord | .truckClosed => 1
  | .weigherStatus | .truckStatus | .counterRequest | .counterReport | .diagRequest | .diagReport => 2
  | .configWrite | .configCommit | .configStatus => 3

/-! ## Roles, start kinds, grades, reasons -/

/-- Role state codes of WEIGHER STATUS byte 0 (Table 12-4). -/
def RoleState.code : RoleState → Nat
  | .listen => 1
  | .active => 2
  | .standby => 3
  | .calibrating => 4
  | .repeating => 5
  | .mute => 6

def RoleState.ofCode : Nat → Option RoleState
  | 1 => some .listen
  | 2 => some .active
  | 3 => some .standby
  | 4 => some .calibrating
  | 5 => some .repeating
  | 6 => some .mute
  | _ => none

/-- Start kind codes of WEIGHER STATUS byte 4 (Table 12-4). -/
def StartKind.code : StartKind → Nat
  | .cold => 1
  | .line => 2
  | .resume => 3

/-- Grade codes of PASS RECORD byte 3 (Table 12-4). -/
def Grade.code : Grade → Nat
  | .good => 0
  | .fair => 1
  | .poor => 2
  | .reject => 3

/-- The grade of the two low bits of a byte. -/
def Grade.ofByte (b : Byte) : Grade :=
  match b.getLsbD 1, b.getLsbD 0 with
  | false, false => .good
  | false, true => .fair
  | true, false => .poor
  | true, true => .reject

/-- Reason codes of TRUCK CLOSED byte 9; YIELDED has none and is never sent (R79, Table 12-4 note a). -/
def CloseReason.code : CloseReason → Nat
  | .newTruck => 1
  | .departed => 2
  | .operator => 3
  | .yielded => 0

def CloseReason.ofCode : Nat → Option CloseReason
  | 1 => some .newTruck
  | 2 => some .departed
  | 3 => some .operator
  | _ => none

/-! ## Flag bytes -/

/-- The alarm latches, priority 1 in bit 0 (Table 12-4). -/
def AlarmUnit.latchByte (u : AlarmUnit) : Nat :=
  bitVal u.lowSupply.latch 0 + bitVal u.stationConflict.latch 1 + bitVal u.inputFault.latch 2
    + bitVal u.calInvalid.latch 3 + bitVal u.crossCheck.latch 4 + bitVal u.overload.latch 5
    + bitVal u.passOver.latch 6 + bitVal u.noWeigher.latch 7

/-- The health byte of WEIGHER STATUS (Table 12-4). -/
def healthByte (inputFault setInvalid retainLost configDefault behind : Bool) : Nat :=
  bitVal inputFault 0 + bitVal setInvalid 1 + bitVal retainLost 2 + bitVal configDefault 3 + bitVal behind 4

/-- The flags byte of TRUCK STATUS, OPEN in bit 0 (Table 12-4). -/
def RecFlags.byte (isOpen : Bool) (f : RecFlags) : Nat :=
  bitVal isOpen 0 + bitVal f.reached 1 + bitVal f.last 2 + bitVal f.isPartial 3 + bitVal f.overload 4
    + bitVal f.amendedAny 5

def RecFlags.ofByte (b : Byte) : RecFlags :=
  ⟨b.getLsbD 1, b.getLsbD 2, b.getLsbD 3, b.getLsbD 4, b.getLsbD 5⟩

/-- The flags byte of PASS RECORD (Table 12-4). -/
def PassRec.flagByte (p : PassRec) : Nat :=
  bitVal p.negative 0 + bitVal p.overFlag 1 + bitVal p.amended 2 + bitVal p.unamended 3

/-- The kind and grade byte of PASS RECORD (Table 12-4). -/
def PassRec.kindByte (p : PassRec) : Nat := bitVal (p.kind == .remainder) 7 + p.grade.code

/-- The flags byte of COUNTER REPORT (Table 12-4). -/
def reportFlags (mirrored empty retainLost : Bool) : Nat :=
  bitVal mirrored 0 + bitVal empty 1 + bitVal retainLost 2

/-- The last abort codes of DIAG REPORT part 2 (Table 12-4). -/
def LastAbort.code : LastAbort → Nat
  | .none => 0
  | .collision => 1
  | .bitError => 2

/-- The flags byte of DIAG REPORT part 2 (Table 12-4). -/
def diagFlags (quiet retainLost configDefault : Bool) : Nat :=
  bitVal quiet 0 + bitVal retainLost 1 + bitVal configDefault 2

end Sys2Proof.Machine
end

