-- ==== Sys2Proof/Machine/Operands.lean ====
section
/-! DEFINITION. The data layouts of the telegrams: what a consumer reads (R182) and what the part sends (R181). -/

namespace Sys2Proof.Machine

/-- What reading a data field gives: too short for its layout (counted LENGTH), discarded without a counter, or taken (R182).
-/
inductive Taken (α : Type) where
  | short
  | dropped
  | taken (a : α)
  deriving DecidableEq, Repr

/-- Test the length of a data field, then read it; bytes beyond the layout are ignored (R182). -/
def takeData {α : Type} (len : Nat) (d : List Byte) (read : List Byte → Option α) : Taken α :=
  if d.length < len then .short
  else
    match read d with
    | none => .dropped
    | some a => .taken a

/-! ## Sensor telegrams (Table 12-3) -/

structure PressureMsg where
  seq : Byte
  ph : Nat
  pr : Nat
  status : ArrStatus
  deriving DecidableEq, Repr

/-- A pressure status above 2 is read as HEAD FAULT (R182). -/
def pressureStatus (n : Nat) : ArrStatus :=
  match n with
  | 0 => .ok
  | 1 => .headFault
  | 2 => .rodFault
  | _ => .headFault

def readPressure (d : List Byte) : Taken PressureMsg :=
  takeData 6 d fun d => some ⟨byteAt d 0, nat16 d 1, nat16 d 3, pressureStatus (nat8 d 5)⟩

structure AngleMsg where
  seq : Byte
  angle : Int
  status : ArrStatus
  deriving DecidableEq, Repr

/-- An angle or tilt status other than 0 is read as FAULT (R182). -/
def angleStatus (n : Nat) : ArrStatus := if n = 0 then .ok else .fault

def readAngle (d : List Byte) : Taken AngleMsg :=
  takeData 4 d fun d => some ⟨byteAt d 0, int16 d 1, angleStatus (nat8 d 3)⟩

structure TiltMsg where
  angle : Int
  status : ArrStatus
  deriving DecidableEq, Repr

def readTilt (d : List Byte) : Taken TiltMsg :=
  takeData 3 d fun d => some ⟨int16 d 0, angleStatus (nat8 d 2)⟩

structure InclineMsg where
  pitch : Int
  roll : Int
  deriving DecidableEq, Repr

def readIncline (d : List Byte) : Taken InclineMsg :=
  takeData 4 d fun d => some ⟨int16 d 0, int16 d 2⟩

/-- The direction is none where the byte lies outside 0-2 (R55, R182). -/
structure DriveMsg where
  dir : Option Direction
  gear : Nat
  speed : Nat
  lights : Bool
  park : Bool
  deriving DecidableEq, Repr

def directionOf (n : Nat) : Option Direction :=
  match n with
  | 0 => some .n
  | 1 => some .f
  | 2 => some .r
  | _ => none

def readDrive (d : List Byte) : Taken DriveMsg :=
  takeData 5 d fun d =>
    some ⟨directionOf (nat8 d 0), nat8 d 1, nat16 d 2, (byteAt d 4).getLsbD 0, (byteAt d 4).getLsbD 1⟩

/-- A count whose absent code is 0 (R182). -/
def absentIfZero (n : Nat) : Option Nat := if n = 0 then none else some n

structure TagMsg where
  present : Bool
  id : Nat
  target : Option Nat
  deriving DecidableEq, Repr

def readTag (d : List Byte) : Taken TagMsg :=
  takeData 5 d fun d => some ⟨(byteAt d 0).getLsbD 0, nat16 d 1, absentIfZero (nat16 d 3)⟩

/-! ## Family telegrams (Table 12-4) -/

/-- What a consumer uses of a WEIGHER STATUS: its role state and its record sequence (R106, R113). -/
structure StatusMsg where
  state : RoleState
  seq : BitVec 8
  deriving DecidableEq, Repr

def readStatus (d : List Byte) : Taken StatusMsg :=
  takeData 6 d fun d => (RoleState.ofCode (nat8 d 0)).map fun r => ⟨r, byteAt d 5⟩

structure TruckMsg where
  isOpen : Bool
  id : Nat
  target : Option Nat
  total : Nat
  count : Nat
  unweighed : Nat
  flags : RecFlags
  seq : BitVec 8
  deriving DecidableEq, Repr

def readTruck (d : List Byte) : Taken TruckMsg :=
  takeData 11 d fun d =>
    some ⟨(byteAt d 9).getLsbD 0, nat16 d 0, absentIfZero (nat16 d 2), nat24 d 4, nat8 d 7, nat8 d 8,
      RecFlags.ofByte (byteAt d 9), byteAt d 10⟩

/-- A PASS RECORD's pass: discarded with both a payload and grade REJECT, or with a payload of 10000-65534 (R182). -/
def readPass (d : List Byte) : Taken PassRec :=
  takeData 11 d fun d =>
    let raw := nat16 d 4
    let payload := if raw = 0xFFFF then none else some raw
    let grade := Grade.ofByte (byteAt d 3)
    if 10000 ≤ raw ∧ raw ≠ 0xFFFF then none
    else if payload.isSome ∧ grade = .reject then none
    else
      some {
        truckId := nat16 d 0
        number := nat8 d 2
        kind := if (byteAt d 3).getLsbD 7 then .remainder else .normal
        payload := payload
        grade := grade
        bins := nat8 d 6 / 16
        reweigh := nat8 d 6 % 4
        cycleTime := nat16 d 7
        fill := if nat8 d 9 = 0xFF then none else some (nat8 d 9)
        negative := (byteAt d 10).getLsbD 0
        overFlag := (byteAt d 10).getLsbD 1
        amended := (byteAt d 10).getLsbD 2
        unamended := (byteAt d 10).getLsbD 3 }

structure ClosedMsg where
  id : Nat
  target : Option Nat
  total : Nat
  count : Nat
  unweighed : Nat
  reason : CloseReason
  amended : Bool
  deriving DecidableEq, Repr

def readClosed (d : List Byte) : Taken ClosedMsg :=
  takeData 10 d fun d =>
    (CloseReason.ofCode (nat8 d 9 % 8)).map fun r =>
      ⟨nat16 d 0, absentIfZero (nat16 d 2), nat24 d 4, nat8 d 7, nat8 d 8, r, (byteAt d 9).getLsbD 7⟩

/-- The figures of a COUNTER REPORT part (R85). -/
inductive ReportMsg where
  | counts (m : MirrorCounts)
  | tonnage (m : MirrorTonnage)
  | life (m : MirrorLife)
  deriving DecidableEq, Repr

/-- A COUNTER REPORT with its MIRRORED and EMPTY flags. -/
structure CounterMsg where
  mirrored : Bool
  empty : Bool
  figures : ReportMsg
  deriving DecidableEq, Repr

/-- The layout length of a COUNTER REPORT part: 10, 10, 6 (Table 12-2); a part number outside 1-3 has no layout, and
the shortest of the kind stands for the length test. -/
def reportLength (part : Nat) : Nat := if part = 1 ∨ part = 2 then 10 else 6

def readReport (d : List Byte) : Taken CounterMsg :=
  takeData (reportLength (nat8 d 0)) d fun d =>
    let lost := (byteAt d 1).getLsbD 2
    let figures :=
      match nat8 d 0 with
      | 1 => some (ReportMsg.counts ⟨nat16 d 2, nat16 d 4, nat16 d 6, nat16 d 8, lost⟩)
      | 2 => some (ReportMsg.tonnage ⟨nat32 d 2, nat32 d 6, lost⟩)
      | 3 => some (ReportMsg.life ⟨nat32 d 2, lost⟩)
      | _ => none
    figures.map fun f => ⟨(byteAt d 1).getLsbD 0, (byteAt d 1).getLsbD 1, f⟩

/-- A DIAG REQUEST's one flag, CLEAR. -/
def readDiagRequest (d : List Byte) : Taken Bool := takeData 1 d fun d => some ((byteAt d 0).getLsbD 0)

/-! ## Service telegrams (Table 12-5) -/

/-- A CONFIG WRITE: its value is kept as its four bytes read unsigned; a signed item reads it two's complement. -/
structure WriteMsg where
  item : Nat
  value : Nat
  unlock : BitVec 32
  deriving DecidableEq, Repr

def readConfigWrite (d : List Byte) : Taken WriteMsg :=
  takeData 9 d fun d => some ⟨nat8 d 0, nat32 d 1, BitVec.ofNat 32 (nat32 d 5)⟩

def readConfigCommit (d : List Byte) : Taken (BitVec 32) :=
  takeData 4 d fun d => some (BitVec.ofNat 32 (nat32 d 0))

/-! ## Telegrams the part sends (R181) -/

/-- WEIGHER STATUS (R105, Table 12-4). -/
def sendStatus (role : RoleState) (latches health : Nat) (set : Fin 4) (start : StartKind) (seq : BitVec 8) : OutTg :=
  ⟨.weigherStatus, 0, be8 role.code ++ be8 latches ++ be8 health ++ be8 set.val ++ be8 start.code ++ [seq]⟩

/-- TRUCK STATUS; with OPEN clear it carries its record sequence, with every other byte 0 (R181). -/
def sendTruck (r : Option TruckRec) (seq : BitVec 8) : OutTg :=
  match r with
  | none => ⟨.truckStatus, 0, List.replicate 10 0 ++ [seq]⟩
  | some r =>
    ⟨.truckStatus, 0, be16 r.id ++ be16 (r.target.getD 0) ++ be24 r.total ++ be8 r.count ++ be8 r.unweighed
      ++ be8 (r.flags.byte true) ++ [seq]⟩

/-- PASS RECORD (Table 12-4). -/
def sendPass (p : PassRec) : OutTg :=
  ⟨.passRecord, 0, be16 p.truckId ++ be8 p.number ++ be8 p.kindByte ++ be16 (p.payload.getD 0xFFFF)
    ++ be8 (p.bins * 16 + p.reweigh) ++ be16 p.cycleTime ++ be8 (p.fill.getD 0xFF) ++ be8 p.flagByte⟩

/-- TRUCK CLOSED (Table 12-4). -/
def sendClosed (s : Summary) : OutTg :=
  ⟨.truckClosed, 0, be16 s.truckId ++ be16 (s.target.getD 0) ++ be24 s.total ++ be8 s.count ++ be8 s.unweighed
    ++ be8 (s.reason.code + bitVal s.amended 7)⟩

/-- COUNTER REQUEST: no data (Table 12-4). -/
def sendCounterRequest (dst : Byte) : OutTg := ⟨.counterRequest, dst, []⟩

/-- COUNTER REPORT part 1 (Table 12-4). -/
def sendCounts (dst : Byte) (flags cycles weighed unweighed trucks : Nat) : OutTg :=
  ⟨.counterReport, dst, be8 1 ++ be8 flags ++ be16 cycles ++ be16 weighed ++ be16 unweighed ++ be16 trucks⟩

/-- COUNTER REPORT part 2 (Table 12-4). -/
def sendTonnage (dst : Byte) (flags shift life : Nat) : OutTg :=
  ⟨.counterReport, dst, be8 2 ++ be8 flags ++ be32 shift ++ be32 life⟩

/-- COUNTER REPORT part 3 (Table 12-4). -/
def sendLife (dst : Byte) (flags cycles : Nat) : OutTg := ⟨.counterReport, dst, be8 3 ++ be8 flags ++ be32 cycles⟩

/-- A DIAG REPORT part of two-byte counters (parts 1, 3 and 4 of Table 12-4). -/
def sendDiagCounters (dst : Byte) (part : Nat) (counters : List Nat) : OutTg :=
  ⟨.diagReport, dst, be8 part ++ counters.flatMap be16⟩

/-- DIAG REPORT part 2 (Table 12-4). -/
def sendDiagState (dst : Byte) (quietEntries : Nat) (abort : LastAbort) (flags len : Nat) (role : RoleState)
    (start : StartKind) : OutTg :=
  ⟨.diagReport, dst, be8 2 ++ be16 quietEntries ++ be8 abort.code ++ be8 flags ++ be8 len ++ be8 role.code
    ++ be8 start.code⟩

/-- The codes of CONFIG STATUS (Table 12-5). -/
inductive ConfigCode where
  | ok | closed | code | item | range
  deriving DecidableEq, Repr

def ConfigCode.num : ConfigCode → Nat
  | .ok => 0
  | .closed => 1
  | .code => 2
  | .item => 3
  | .range => 4

def sendConfigStatus (dst : Byte) (item : Nat) (answer : ConfigCode) : OutTg :=
  ⟨.configStatus, dst, be8 item ++ be8 answer.num⟩

end Sys2Proof.Machine
end

