-- ==== Sys2Proof/Machine/Input.lean ====
section
/-! DEFINITION. The input table (chapter 3): arrivals, freshness, angle selection, DISAGREE, the boom rate, the loss
timers, and what the starts and power states leave. -/

namespace Sys2Proof.Machine

/-! ## Configuration of the channels (Table 3-1) -/

/-- The configured source station of a channel (items 2-8). -/
def Cfg.source (c : Cfg) : ChanId → Nat
  | .pressure => c.srcPressure
  | .primary => c.srcPrimary
  | .secondary => c.srcSecondary
  | .tilt => c.srcTilt
  | .drive => c.srcDrive
  | .incline => c.srcIncline
  | .tag => c.srcTag

/-- The age at which the stale timer of a channel runs out: its stale limit plus 1 ms (Table 3-1, R54). -/
def staleAge : ChanId → Nat
  | .pressure | .primary | .secondary => 61
  | .tilt => 201
  | .drive | .incline => 501
  | .tag => 2001

/-! ## One record -/

/-- The sequence test of R57. -/
def ChanRec.takeSeq (seq : Byte) (r : ChanRec) : ChanRec :=
  let missing :=
    match r.prevSeq with
    | none => 0
    | some p => if seq = p then 0 else (seq - p - 1).toNat
  { r with prevSeq := some seq, gap := satAdd 65535 r.gap missing }

/-- The loss timer at a change of freshness: stopped when FRESH, started when the channel leaves FRESH (R62). -/
def ChanRec.lossAfter (now : Tick) (f : Freshness) (r : ChanRec) : LossTimer :=
  if f = .fresh then .stopped else if r.freshness = .fresh then .running now else r.loss

/-- Steps 1 and 3 to 5 of R53 on the record: marks, tick, status, freshness, stale timer. -/
def ChanRec.arrive (now : Tick) (status : ArrStatus) (overRange : Over) (r : ChanRec) : ChanRec :=
  let f : Freshness := if status = .ok then .fresh else .fault
  { r with freshness := f, latestTick := some now, latestStatus := some status, overRange := overRange,
           staleTimer := some now, loss := r.lossAfter now f }

/-- The stale expiry (R54). -/
def ChanRec.goStale (now : Tick) (r : ChanRec) : ChanRec :=
  { r with freshness := .stale, staleTimer := none, loss := r.lossAfter now .stale }

/-- A record whose source station changed at the end of the start window (R64); outside RUN its loss timer stays
stopped (R170). -/
def ChanRec.rechannel (now : Tick) (inRun : Bool) (r : ChanRec) : ChanRec where
  freshness := .absent
  latestTick := none
  latestStatus := none
  overRange := Over.clear
  prevSeq := none
  gap := r.gap
  staleTimer := none
  loss := if inRun then .running now else .stopped

/-- Entry to HOLD, DOZE or PEEK: the timers stand stopped (R62, R65). -/
def ChanRec.stopTimers (r : ChanRec) : ChanRec := { r with staleTimer := none, loss := .stopped }

/-- The RESUME column of Table 3-2. -/
def ChanRec.resume (now : Tick) (r : ChanRec) : ChanRec :=
  { r with freshness := if r.freshness = .absent then .absent else .stale
           overRange := Over.clear, prevSeq := none, staleTimer := none, loss := .running now }

/-! ## Derivations (R58-R61) -/

/-- The held value of an angle source. -/
def InputTable.heldAngle (t : InputTable) : AngleSrc → Option Int
  | .primary => t.held.primary
  | .secondary => t.held.secondary

def InputTable.angleRec (t : InputTable) : AngleSrc → ChanRec
  | .primary => t.primary
  | .secondary => t.secondary

/-- The selected source of R58 (Table 3-4). -/
def InputTable.selection (t : InputTable) : Option AngleSrc :=
  if t.primary.freshness = .fresh then some .primary
  else if t.secondary.freshness = .fresh then some .secondary
  else
    match t.sel with
    | some s => some s
    | none =>
      if t.held.primary.isSome then some .primary
      else if t.held.secondary.isSome then some .secondary
      else none

/-- ω is invalid and the rate memory empty (R61). -/
def InputTable.dropRate (t : InputTable) : InputTable := { t with omega := none, rateMem := none }

/-- Re-evaluate the selection; a change of source drops the rate (R58, R61). -/
def InputTable.reselect (t : InputTable) : InputTable :=
  if t.selection = t.sel then t else { t.dropRate with sel := t.selection }

/-- DISAGREE: both angle channels FRESH and their held values further apart than the limit (R59). -/
def InputTable.disagrees (limit : Nat) (t : InputTable) : Bool :=
  match t.held.primary, t.held.secondary with
  | some p, some s =>
    t.primary.freshness == .fresh && t.secondary.freshness == .fresh && limit < (p - s).natAbs
  | _, _ => false

/-- Selection and DISAGREE brought up to date (R58, R59). -/
def InputTable.derive (limit : Nat) (t : InputTable) : InputTable :=
  let t := t.reselect
  { t with disagree := t.disagrees limit }

/-- ω from the memory and an arrival: Δt of 1-100 ms from the same source, truncated toward zero (R60). -/
def RateMem.rate (m : RateMem) (src : AngleSrc) (angle : Int) (now : Tick) : Option Int :=
  let dt := age now m.at_
  if m.src = src ∧ 1 ≤ dt ∧ dt ≤ 100 then some (((angle - m.angle) * 1000).tdiv dt) else none

/-- The rate after an arrival of an angle channel, its selection made (R60): an OK arrival of the selected source forms
ω and enters the memory, a fault arrival of it drops the rate, an arrival of the other leaves both. -/
def InputTable.takeRate (src : AngleSrc) (status : ArrStatus) (angle : Int) (now : Tick) (t : InputTable) : InputTable :=
  if t.sel = some src then
    if status = .ok then
      let w := t.rateMem.bind fun m => m.rate src angle now
      { t with omega := w, rateMem := some ⟨src, angle, now⟩
               rateTimer := if w.isSome then some now else t.rateTimer }
    else t.dropRate
  else t

/-- The selected angle: the record and held value of the selected source (R58). -/
def InputTable.selected (t : InputTable) : Option (ChanRec × Int) :=
  t.sel.bind fun s => (t.heldAngle s).map fun a => (t.angleRec s, a)

/-! ## Arrivals by channel (R53, R55, R56) -/

def overNat (hi x : Nat) : Bool := hi < x
def overInt (lo hi x : Int) : Bool := x < lo || hi < x

def InputTable.arrivePressure (m : PressureMsg) (now : Tick) (t : InputTable) : InputTable :=
  let v : PressureVal := ⟨min m.ph 40000, min m.pr 40000⟩
  let r := (t.pressure.takeSeq m.seq).arrive now m.status ⟨overNat 40000 m.ph, overNat 40000 m.pr, false⟩
  { t with pressure := r, held := if m.status = .ok then { t.held with pressure := some v } else t.held }

/-- The channel an angle source feeds. -/
def AngleSrc.chan : AngleSrc → ChanId
  | .primary => .primary
  | .secondary => .secondary

def HeldValues.setAngle (src : AngleSrc) (a : Int) (h : HeldValues) : HeldValues :=
  match src with
  | .primary => { h with primary := some a }
  | .secondary => { h with secondary := some a }

/-- An angle arrival with its derivations (R53, R58-R60). -/
def InputTable.arriveAngle (limit : Nat) (src : AngleSrc) (m : AngleMsg) (now : Tick) (t : InputTable) : InputTable :=
  let a := clampInt (-4500) 6000 m.angle
  let r := ((t.angleRec src).takeSeq m.seq).arrive now m.status ⟨overInt (-4500) 6000 m.angle, false, false⟩
  let t := t.setChan src.chan r
  let t := { t with held := if m.status = ArrStatus.ok then t.held.setAngle src a else t.held }
  (t.derive limit).takeRate src m.status a now

def InputTable.arriveTilt (m : TiltMsg) (now : Tick) (t : InputTable) : InputTable :=
  let a := clampInt (-6000) 6000 m.angle
  { t with tilt := t.tilt.arrive now m.status ⟨overInt (-6000) 6000 m.angle, false, false⟩
           held := if m.status = .ok then { t.held with tilt := some a } else t.held }

/-- The marks of a drive arrival stand for direction, gear and speed. -/
def InputTable.arriveDrive (m : DriveMsg) (now : Tick) (t : InputTable) : InputTable :=
  let v : DriveVal := ⟨m.dir.getD .n, min m.gear 4, min m.speed 500, m.lights, m.park⟩
  { t with drive := t.drive.arrive now ArrStatus.ok ⟨m.dir.isNone, overNat 4 m.gear, overNat 500 m.speed⟩
           held := { t.held with drive := some v } }

def InputTable.arriveIncline (m : InclineMsg) (now : Tick) (t : InputTable) : InputTable :=
  { t with incline := t.incline.arrive now ArrStatus.ok ⟨overInt (-3000) 3000 m.pitch, overInt (-3000) 3000 m.roll, false⟩
           held := { t.held with incline := some ⟨clampInt (-3000) 3000 m.pitch, clampInt (-3000) 3000 m.roll⟩ } }

/-- A tag with present set and an id of 0 or 65535 is not taken (Table 3-3 note c). -/
def TagMsg.unusable (m : TagMsg) : Bool := m.present && (m.id == 0 || m.id == 65535)

/-- The marks of a tag arrival stand for its present flag, id and target. -/
def InputTable.arriveTag (m : TagMsg) (now : Tick) (t : InputTable) : InputTable :=
  let target := m.target.map (clampNat 100 50000)
  let overRange : Over := ⟨false, m.unusable, target != m.target⟩
  { t with tag := t.tag.arrive now ArrStatus.ok overRange
           held := if m.unusable then t.held else { t.held with tag := some ⟨m.present, m.id, target⟩ } }

/-! ## Timers -/

def isAngle : ChanId → Bool
  | .primary | .secondary => true
  | _ => false

/-- The stale timer of a channel has run out, and the channel is FRESH or FAULT (R54). -/
def InputTable.staleDue (i : ChanId) (now : Tick) (t : InputTable) : Bool :=
  due (staleAge i) (t.chan i).staleTimer now
    && ((t.chan i).freshness == .fresh || (t.chan i).freshness == .fault)

/-- STALE_EXPIRY on the table: the channel becomes STALE, and the derivations follow (R54, R58, R59). -/
def InputTable.staleExpiry (limit : Nat) (i : ChanId) (now : Tick) (t : InputTable) : InputTable :=
  let t := t.setChan i ((t.chan i).goStale now)
  if isAngle i then t.derive limit else t

/-- The loss timer of a channel has run out (R62). -/
def ChanRec.lossExpiry (now : Tick) (r : ChanRec) : ChanRec :=
  match r.loss with
  | .running since => if 2000 ≤ age now since then { r with loss := .ranOut } else r
  | .stopped | .ranOut => r

def InputTable.lossTimerExpiry (i : ChanId) (now : Tick) (t : InputTable) : InputTable :=
  t.setChan i ((t.chan i).lossExpiry now)

/-- RATE_TIMER_EXPIRY (R61). -/
def InputTable.rateTimerExpiry (now : Tick) (t : InputTable) : InputTable :=
  if due 100 t.rateTimer now then { t.dropRate with rateTimer := none } else t

/-! ## The end of the start window, power states and starts (R64, R65) -/

def HeldValues.forget (i : ChanId) (h : HeldValues) : HeldValues :=
  match i with
  | .pressure => { h with pressure := Option.none }
  | .primary => { h with primary := Option.none }
  | .secondary => { h with secondary := Option.none }
  | .tilt => { h with tilt := Option.none }
  | .drive => { h with drive := Option.none }
  | .incline => { h with incline := Option.none }
  | .tag => { h with tag := Option.none }

/-- A channel whose source station changed is reset (R64); a selected angle channel so reset leaves the selection. -/
def InputTable.rechannel (now : Tick) (inRun : Bool) (i : ChanId) (t : InputTable) : InputTable :=
  let t := { t.setChan i ((t.chan i).rechannel now inRun) with held := t.held.forget i }
  if t.sel.map AngleSrc.chan = some i then { t.dropRate with sel := none } else t

/-- The end of the start window (R64). A secondary whose source stands keeps its record where the primary's source becomes
equal to it (log 42); selection and DISAGREE are re-evaluated here in every power state (log 43). -/
def InputTable.takeConfig (old new : Cfg) (now : Tick) (inRun : Bool) (t : InputTable) : InputTable :=
  (ChanId.all.foldl (fun t i => if old.source i = new.source i then t else t.rechannel now inRun i) t).derive
    new.disagreeLimit

def InputTable.mapChans (f : ChanRec → ChanRec) (t : InputTable) : InputTable :=
  { t with pressure := f t.pressure, primary := f t.primary, secondary := f t.secondary, tilt := f t.tilt
           drive := f t.drive, incline := f t.incline, tag := f t.tag }

/-- Entry to HOLD, DOZE or PEEK (R65). -/
def InputTable.stop (t : InputTable) : InputTable := { t.mapChans ChanRec.stopTimers with rateTimer := none }

/-- The RESUME start (R65, Table 3-2). -/
def InputTable.resume (now : Tick) (t : InputTable) : InputTable :=
  { (t.mapChans (ChanRec.resume now)).dropRate with rateTimer := none, disagree := false }

/-- The channel a BOOM ANGLE from a source feeds: the primary where both name it (R51). -/
def Cfg.angleSrc (c : Cfg) (src : Nat) : Option AngleSrc :=
  if c.srcPrimary = src then some .primary
  else if c.srcSecondary = src then some .secondary
  else none

end Sys2Proof.Machine
end

