-- ==== Sys2Proof/Machine/Engine.lean ====
section
/-! DEFINITION. The weighing engine (chapter 1): the window, the sample gate, the sample arithmetic, the close. -/

namespace Sys2Proof.Machine

/-! ## Geometry and the requests of the tracker (R2-R6) -/

/-- The geometry of the configuration with its derived point spacing (R2 step 5, R92). -/
def Cfg.geom (c : Cfg) : Geom :=
  ⟨c.cylinders, c.headArea, c.rodArea, c.thetaS, c.thetaE, roundDiv (c.thetaE - c.thetaS) 15⟩

/-- A span of 300-6000 that is a multiple of 30 (R2). -/
def Geom.usable (g : Geom) : Bool :=
  let span := g.thetaE - g.thetaS
  decide (300 ≤ span) && decide (span ≤ 6000) && decide (span % 30 = 0)

/-- Open: bins, tallies and result are cleared, the set and the geometry are latched, the window is OPEN (R2); taken
while OPEN it restarts the window (R6). -/
def Engine.openWindow (cfg : Cfg) (idx : Fin 4) (set : CurveSet) : Engine where
  isOpen := true
  latched := some ⟨idx, set.valid && cfg.geom.usable, set, cfg.geom⟩
  bins := Vector.replicate 15 Bin.empty
  tallies := Tallies.zero
  last := none

/-- Shut without result: no effect while SHUT (R5, R6). -/
def Engine.shut (e : Engine) : Engine := { e with isOpen := false }

/-! ## The gate (R8-R13) -/

/-- The checks of Table 1-3 but for BINFULL. -/
inductive GateFail where
  | rate | age | sensor | disagree | incline | speed
  deriving DecidableEq, Repr

/-- RATE (R10). -/
def rateOk (cfg : Cfg) (t : InputTable) : Bool :=
  match t.omega with
  | some w => decide (cfg.rmin ≤ w) && decide (w ≤ cfg.rmax)
  | none => false

/-- AGE: at most 40 ms (R11). -/
def ageOk (r : ChanRec) (now : Tick) : Bool :=
  match r.latestTick with
  | some at_ => age now at_ ≤ 40
  | none => false

/-- SENSOR: pressure OK and in range, the selected angle's latest arrival OK and in range (R12). -/
def sensorOk (t : InputTable) (r : ChanRec) : Bool :=
  t.pressure.latestStatus == some .ok && !t.pressure.overRange.f1 && !t.pressure.overRange.f2
    && r.latestStatus == some .ok && !r.overRange.f1

/-- INCLINE (R13). -/
def inclineOk (cfg : Cfg) (t : InputTable) : Bool :=
  if t.incline.freshness = .fresh then
    match t.held.incline with
    | some v => decide (v.pitch.natAbs ≤ cfg.pitchLimit) && decide (v.roll.natAbs ≤ cfg.rollLimit)
    | none => false
  else !cfg.inclineReq

/-- SPEED (R13). -/
def speedOk (cfg : Cfg) (t : InputTable) : Bool :=
  if t.drive.freshness = .fresh then
    match t.held.drive with
    | some v => decide (v.speed ≤ cfg.speedLimit)
    | none => false
  else !cfg.driveReq

/-- The first check that fails, in the order of Table 1-3 (R9). -/
def gate (cfg : Cfg) (t : InputTable) (r : ChanRec) (now : Tick) : Option GateFail :=
  if !rateOk cfg t then some .rate
  else if !ageOk r now then some .age
  else if !sensorOk t r then some .sensor
  else if t.disagree then some .disagree
  else if !inclineOk cfg t then some .incline
  else if !speedOk cfg t then some .speed
  else none

/-- The tally of a failing check rises by one, saturating (R9). -/
def Tallies.raise (f : GateFail) (t : Tallies) : Tallies :=
  match f with
  | .rate => { t with rate := bump t.rate }
  | .age => { t with age := bump t.age }
  | .sensor => { t with sensor := bump t.sensor }
  | .disagree => { t with disagree := bump t.disagree }
  | .incline => { t with incline := bump t.incline }
  | .speed => { t with speed := bump t.speed }

/-! ## Sample arithmetic (R15-R19) -/

/-- F = round(n × (Ph × Ah − Pr × Ar) / 100) (R15). -/
def Geom.force (g : Geom) (v : PressureVal) : Int :=
  roundDiv ((g.n : Int) * ((v.ph : Int) * g.ah - (v.pr : Int) * g.ar)) 100

/-- k = floor((θ − θs) / Δθ), limited to at most 14 (R16). -/
def Geom.segment (g : Geom) (theta : Int) : Fin 15 :=
  ⟨min 14 ((theta - g.thetaS) / g.step).toNat, by omega⟩

/-- r = (θ − θs) − k × Δθ (R16). -/
def Geom.remainder (g : Geom) (theta : Int) : Int := (theta - g.thetaS) - (g.segment theta).val * g.step

/-- Linear interpolation between points k and k + 1 (R17). -/
def interpolate (v : Vector Int 16) (k : Fin 15) (r step : Int) : Int :=
  v[k.castSucc] + roundDiv ((v[k.succ] - v[k.castSucc]) * r) step

/-- A sample enters its bin (R19). -/
def Bin.add (d s : Int) (b : Bin) : Bin where
  count := b.count + 1
  sumD := b.sumD + d
  sumS := b.sumS + s
  ext :=
    match b.ext with
    | none => some (d, d)
    | some (lo, hi) => some (min lo d, max hi d)

/-- A sample that passed the first six checks: discarded in an unusable window (R3), tallied BINFULL (R14) or accepted
(R18, R19). -/
def Engine.accept (l : Latched) (theta : Int) (v : PressureVal) (e : Engine) : Engine :=
  if !l.usable then e
  else
    let k := l.geom.segment theta
    if 255 ≤ (e.bins[k]).count then { e with tallies := { e.tallies with binfull := bump e.tallies.binfull } }
    else
      let r := l.geom.remainder theta
      let lo := interpolate l.set.e k r l.geom.step
      let hi := interpolate l.set.l k r l.geom.step
      { e with bins := e.bins.set k ((e.bins[k]).add (l.geom.force v - lo) (hi - lo)) }

/-- A sample event: not considered while SHUT or outside the window (R7, R8), otherwise gated (R9). The values and
marks are those the table holds of the arrival. -/
def Engine.sample (cfg : Cfg) (t : InputTable) (now : Tick) (e : Engine) : Engine :=
  match e.isOpen, e.latched, t.selected with
  | true, some l, some (r, theta) =>
    if l.geom.thetaS ≤ theta ∧ theta < l.geom.thetaE then
      match gate cfg t r now with
      | some f => { e with tallies := e.tallies.raise f }
      | none =>
        match t.held.pressure with
        | some v => e.accept l theta v
        | none => e
    else e
  | _, _, _ => e

/-! ## The close (R20-R25) -/

def Engine.populated (e : Engine) : List Bin := e.bins.toList.filter (fun b => 1 ≤ b.count)

def Bin.meanD (b : Bin) : Int := roundDiv b.sumD b.count
def Bin.meanS (b : Bin) : Int := roundDiv b.sumS b.count

/-- Rough: the extremes are further apart than the spread limit (R20). -/
def Bin.rough (spread : Int) (b : Bin) : Bool :=
  match b.ext with
  | some (lo, hi) => decide (spread < hi - lo)
  | none => false

/-- The grade of a window that is not REJECT, by its count of rough bins (R23). -/
def gradeOf (rough : Nat) : Grade := if rough = 0 then .good else if rough ≤ 3 then .fair else .poor

/-- fill% = round(100 × payload / rated payload), clamped into 0-199 (R24, R45). -/
def fillOf (payload rated : Nat) : Nat := (clampInt 0 199 (roundDiv (100 * payload) rated)).toNat

/-- The result of a REJECT window (R21). -/
def WindowResult.rejected (bins : Nat) (idx : Fin 4) : WindowResult := ⟨.reject, bins, none, none, false, false, idx⟩

/-- The raw payload P = round(Mref × D / S) (R21). -/
def rawPayload (mref : Nat) (bins : List Bin) : Int :=
  roundDiv ((mref : Int) * (bins.map Bin.meanD).sum) (bins.map Bin.meanS).sum

/-- The result of a window with enough bins, from its populated bins (R21-R24). -/
def weighedResult (cfg : Cfg) (trim : Int) (l : Latched) (bins : List Bin) : WindowResult :=
  let p := rawPayload l.set.mref bins + trim
  let payload := (clampInt 0 9999 p).toNat
  { grade := gradeOf (bins.filter (Bin.rough cfg.spread)).length
    bins := bins.length
    payload := some payload
    fill := some (fillOf payload cfg.rated)
    negative := decide (p < 0)
    overFlag := decide (9999 < p)
    idx := l.idx }

/-- The window result at a close taken while OPEN (R4, R20-R25). -/
def Engine.result (cfg : Cfg) (trim : Int) (l : Latched) (e : Engine) : WindowResult :=
  let bins := e.populated
  if bins.length < cfg.minBins then WindowResult.rejected bins.length l.idx else weighedResult cfg trim l bins

/-- Close: the result is handed over and kept, the window SHUT, bins and tallies left (R4). Taken while SHUT it is
answered REJECT with 0 bins, and nothing changes (R6). The curve set index of that answer, which R6 does not give, is the
one last latched, or 0 with none latched (log 39). -/
def Engine.close (cfg : Cfg) (trim : Int) (e : Engine) : WindowResult × Engine :=
  match e.isOpen, e.latched with
  | true, some l => (e.result cfg trim l, { e with isOpen := false, last := some (e.result cfg trim l) })
  | _, _ => (WindowResult.rejected 0 ((e.latched.map Latched.idx).getD 0), e)

end Sys2Proof.Machine
end

