-- ==== Sys2Proof/Machine/Link.lean ====
section
/-! DEFINITION. The link controller (chapter 9) but for the reception of a telegram, which Telegram.lean gives:
transmit permission, the event queue and the slots, the choice of the telegram in hand, sending and readback, QUIET,
DIAG REQUEST and the power states. -/

namespace Sys2Proof.Machine

/-! ## Permission (R155, Table 9-5) -/

/-- Whether the access state may leave OFF: RUN with a role that sends, or DOZE, where only a COUNTER REPORT stands in
the queue and the slots are empty (Table 9-5, R158). -/
def Chip.maySend (c : Chip) : Bool :=
  match c.sup.power with
  | .run =>
    match c.role.state with
    | .active | .standby | .calibrating | .repeating => true
    | .listen | .mute => false
  | .doze => true
  | .hold | .peek => false

/-- Whether an offer joins the event queue (Table 9-5, fourth column). -/
def Chip.takesOffer (c : Chip) (k : Kind) : Bool :=
  match c.sup.power with
  | .run => c.role.state != .mute
  | .hold => false
  | .doze | .peek => k == .counterReport

/-! ## The event queue (R156) -/

/-- The telegram in hand is the head of the queue. -/
def Link.headInHand (l : Link) : Bool :=
  match l.inHand with
  | some h => h.origin == .queueHead
  | none => false

/-- Drop the oldest entry that is not in SEND; a telegram in hand awaiting a retry leaves with its attempts (R156). -/
def Link.dropOldest (l : Link) : Link :=
  if l.headInHand && l.access == .send then { l with queue := l.queue.take 1 ++ l.queue.drop 2, qDrop := bump l.qDrop }
  else if l.headInHand then { l with queue := l.queue.drop 1, inHand := none, qDrop := bump l.qDrop }
  else { l with queue := l.queue.drop 1, qDrop := bump l.qDrop }

/-- An offer taken joins the newest end of a queue of at most 8 (R156). -/
def Link.enqueue (t : OutTg) (l : Link) : Link :=
  let l := if 8 ≤ l.queue.length then l.dropOldest else l
  { l with queue := l.queue ++ [t] }

/-- Offer a telegram to the event queue: taken or discarded by Table 9-5; an entry discarded moves no counter. -/
def Chip.offer (t : OutTg) (c : Chip) : Chip := if c.takesOffer t.kind then c.mapLink (Link.enqueue t) else c

def Chip.offerAll (ts : List OutTg) (c : Chip) : Chip := ts.foldl (fun c t => c.offer t) c

/-! ## The slots (R157) -/

def Link.writeW (t : OutTg) (l : Link) : Link := { l with wslot := some t }
def Link.writeT (t : OutTg) (l : Link) : Link := { l with tslot := some t }

/-- An emptying request reaches a copy in hand: not in SEND it is abandoned at once, in SEND it completes its attempt
and is not retried (R157). -/
def Link.abandonCopy (ours : Origin → Bool) (l : Link) : Link :=
  match l.inHand with
  | none => l
  | some h =>
    if ours h.origin then
      if l.access == .send then { l with inHand := some { h with abandon := true } } else { l with inHand := none }
    else l

def Origin.isW : Origin → Bool
  | .wslot _ => true
  | _ => false

def Origin.isT : Origin → Bool
  | .tslot _ => true
  | _ => false

def Link.emptyW (l : Link) : Link := { l.abandonCopy Origin.isW with wslot := none }
def Link.emptyT (l : Link) : Link := { l.abandonCopy Origin.isT with tslot := none }

/-- Empty the queue; its head in hand leaves with it (R116). -/
def Link.emptyQueue (l : Link) : Link :=
  { l with queue := [], inHand := if l.headInHand then none else l.inHand }

/-! ## Choosing the telegram in hand (R158) -/

/-- A slot copy is chosen again only if its slot has not been written since (R158). -/
def Link.keepsHand (l : Link) (h : InHand) : Bool :=
  match h.origin with
  | .queueHead => true
  | .wslot _ => l.wslot.isNone
  | .tslot _ => l.tslot.isNone

/-- The order of R158: the telegram in hand, the head of the queue, the WEIGHER STATUS slot, the TRUCK STATUS slot. -/
def Link.choose (l : Link) : Link :=
  match l.inHand.filter l.keepsHand with
  | some h => { l with inHand := some h }
  | none =>
    if !l.queue.isEmpty then { l with inHand := some ⟨.queueHead, 0, false⟩ }
    else
      match l.wslot, l.tslot with
      | some w, _ => { l with inHand := some ⟨.wslot w, 0, false⟩, wslot := none }
      | none, some t => { l with inHand := some ⟨.tslot t, 0, false⟩, tslot := none }
      | none, none => { l with inHand := none }

/-- The telegram in hand itself. -/
def Link.handTelegram (l : Link) : Option OutTg :=
  match l.inHand with
  | none => none
  | some h =>
    match h.origin with
    | .queueHead => l.queue.head?
    | .wslot t => some t
    | .tslot t => some t

/-- The access delay of a telegram: class × 32 + station number bit times (R159). -/
def Link.delayOf (l : Link) (t : OutTg) : Nat := t.kind.accessClass * 32 + l.station

/-- An access opportunity: choose, and count the delay of the telegram chosen; with none the state is GAP (R158,
Table 9-6). -/
def Link.opportunity (l : Link) : Link :=
  let l := l.choose
  match l.handTelegram with
  | some t => { l with access := .delay, delay := l.delayOf t }
  | none => { l with access := .gap, delay := 0 }

/-- The access state at the end of an event: QUIET and SEND run on; without permission it is OFF, and a telegram in
its delay is withdrawn (log 16); a delay whose telegram stands in hand runs on; otherwise it is GAP, and with the
settle gap complete an access opportunity (R155, R158, log 17). -/
def Link.settle (maySend : Bool) (l : Link) : Link :=
  match l.access with
  | .quiet | .send => l
  | .delay =>
    if !maySend then { l with access := .off, delay := 0, inHand := none }
    else if l.inHand.isSome then l
    else l.opportunity
  | .off | .gap =>
    if !maySend then { l with access := .off }
    else if l.gapDone then l.opportunity
    else { l with access := .gap }

/-- Bring the access state to what the event leaves available (log 17). -/
def Chip.settleLink (c : Chip) : Chip := c.mapLink (Link.settle c.maySend)

/-! ## Sending (R159, R160, R161, R181) -/

/-- The telegram as it goes out: its source is the strapped station number (R181). -/
def OutTg.whole (station : Nat) (t : OutTg) : WholeTelegram := ⟨t.kind.code, BitVec.ofNat 8 station, t.dst, t.data⟩

/-- The telegram in hand leaves: a queue entry leaves the queue, a slot copy is dropped (R160, R161). -/
def Link.leaveHand (l : Link) : Link :=
  { l with queue := if l.headInHand then l.queue.drop 1 else l.queue, inHand := none }

/-- The last stop bit of a sent telegram reads back recessive: it has been sent (R160). -/
def Link.sent (l : Link) : Link :=
  { l.leaveHand with
    discards := 0, access := .gap, gapDone := false, driven := []
    rx := if l.rx = .idle then .skip else l.rx }

/-- A discard: both counts rise, and at 16 consecutive discards the link enters QUIET (R161). -/
def Link.discard (now : Tick) (l : Link) : Link :=
  let l := { l.leaveHand with txFail := bump l.txFail, discards := satAdd 16 l.discards 1 }
  if 16 ≤ l.discards then
    { l with access := .quiet, quietEntries := bump l.quietEntries, quietTimer := some now }
  else l

/-- The attempt has failed: a copy to be abandoned is not retried and moves no counter (R157); otherwise its attempt
count rises, and at 3 it is discarded (R160, R161). -/
def Link.attemptFailed (now : Tick) (l : Link) : Link :=
  match l.inHand with
  | none => l
  | some h =>
    if h.abandon then { l with inHand := none }
    else if 3 ≤ h.attempts + 1 then l.discard now
    else { l with inHand := some { h with attempts := h.attempts + 1 } }

/-- The character the differing bit lies in, as read back: bit 0 is its start bit, bits 1-8 its data least significant
bit first, bit 9 its stop bit. A start bit read recessive begins no character; the bits after the differing one are
recessive (R149, R160, log 18). -/
def readBack (sent : Byte) (bit : Nat) : List RxChar :=
  if bit = 0 then []
  else if bit = 9 then [⟨sent, false⟩]
  else
    let i := bit - 1
    [⟨(sent ^^^ (1#8 <<< i)) ||| (0xFF#8 <<< (i + 1)), true⟩]

/-- What the receiver holds after an abort: after a collision the characters read back so far in FRAME, or SKIP where a
stop bit was dominant; after a bit error SKIP (R160). -/
def Link.takeOver (bit : Nat) (l : Link) : Link :=
  if l.rx = .off then l
  else if bit / 10 < 5 then
    if bit % 10 = 9 then { l with rx := .skip, form := bump l.form }
    else
      { l with rx := .frame ((l.driven.take (bit / 10)).map (fun b => ⟨b, true⟩)
                 ++ readBack (l.driven.getD (bit / 10) 0) (bit % 10)) }
  else { l with rx := .skip }

/-- A bit of the telegram in SEND reads back differently: a COLLISION in the first five characters, a BIT ERROR otherwise
(R160). -/
def Link.mismatch (bit : Nat) (now : Tick) (l : Link) : Link :=
  let l := l.takeOver bit
  let l := { l with lastAbort := if bit / 10 < 5 then .collision else .bitError
                    access := .gap, gapDone := false, driven := [] }
  l.attemptFailed now

/-! ## Power states (R148, R163) -/

/-- Queue, slots and telegram in hand are emptied without a count; QUIET ends (R163, R161). -/
def Link.clear (l : Link) : Link :=
  { l with
    queue := [], wslot := none, tslot := none, inHand := none, driven := [], delay := 0
    access := .off
    discards := if l.access = .quiet then 0 else l.discards
    quietTimer := none }

/-- Entry to HOLD (R163). The settle gap is that of the bus and stands as it does (R155). -/
def Link.hold (l : Link) : Link := { l.clear with rx := .off }

/-- The receiver in DOZE: from SKIP with bus wake enabled, otherwise off (R163). -/
def dozeRx (busWake : Bool) : Rx := if busWake then .skip else .off

/-- Entry to DOZE from RUN or HOLD (R163). -/
def Link.doze (busWake : Bool) (l : Link) : Link := { l.clear with rx := dozeRx busWake }

/-- PEEK to DOZE: QUIET ends, and the COUNTER REPORTs held are kept to be sent (R163, R179, log 30). -/
def Link.redoze (l : Link) : Link :=
  if l.access = .quiet then { l with access := .gap, discards := 0, quietTimer := none } else l

/-- The RESUME start: queue and slots empty, the receiver from SKIP, counters and straps kept (R148, R163). -/
def Link.resume (l : Link) : Link := { l.clear with rx := .skip, discards := 0 }

/-- The link controller after a COLD or LINE start (Table 9-1). -/
def Link.start (s : Straps) : Link where
  station := s.stn.toNat
  rateFast := s.rateClosed
  rx := .skip
  access := .off
  delay := 0
  gapDone := false
  queue := []
  wslot := none
  tslot := none
  inHand := none
  discards := 0
  quietTimer := none
  check := 0
  form := 0
  length := 0
  txFail := 0
  qDrop := 0
  quietEntries := 0
  lastAbort := .none
  driven := []

/-- RESET is asserted: the link drives nothing and takes nothing (R148 note c). -/
def Link.held (l : Link) : Link := { l with rx := .off, access := .off, driven := [] }

/-! ## Error counters and DIAG REQUEST (R150, R162) -/

/-- A failure counts against its counter of Table 9-2. -/
def Link.count (e : RxError) (l : Link) : Link :=
  match e with
  | .form => { l with form := bump l.form }
  | .length => { l with length := bump l.length }
  | .check => { l with check := bump l.check }

/-- Short data is counted LENGTH (R182). -/
def Chip.countShort (c : Chip) : Chip := c.mapLink (Link.count .length)

/-- The four parts of Table 9-7, from the figures as they stand. -/
def Chip.diagParts (c : Chip) (dst : Byte) : List OutTg :=
  [sendDiagCounters dst 1 [c.link.check, c.link.form, c.link.length, c.link.txFail, c.link.qDrop],
   sendDiagState dst c.link.quietEntries c.link.lastAbort
     (diagFlags (c.link.access == .quiet) c.store.retainLost c.store.configDefault) c.link.queue.length c.role.state
     c.sup.startKind,
   sendDiagCounters dst 3
     [c.trk.voids.returned, c.trk.voids.carryTimeout, c.trk.voids.empty, c.trk.voids.inputLoss, c.trk.voids.power],
   sendDiagCounters dst 4
     [c.trk.voids.restart, c.inp.pressure.gap, c.inp.primary.gap, c.inp.secondary.gap, c.role.unpaired]]

/-- The CLEAR of a DIAG REQUEST (R162 step 3). -/
def Link.clearCounters (l : Link) : Link :=
  { l with check := 0, form := 0, length := 0, txFail := 0, qDrop := 0, quietEntries := 0, lastAbort := .none }

/-- A DIAG REQUEST is taken: the parts are composed, offered in order, then the counters cleared (R162). -/
def Chip.diagRequest (src : Byte) (clear : Bool) (c : Chip) : Chip :=
  let parts := c.diagParts src
  let c := c.offerAll parts
  if clear then c.mapLink Link.clearCounters else c

/-! ## The commands of the link controller -/

/-- DOMINANT_DURING_DELAY (Table 9-6): the telegram stays in hand, no attempt is counted, and a receiver that runs takes the
telegram that has begun, from IDLE and from the SKIP of a start alike, since a delay begins after a settle gap. -/
def Link.dominant (l : Link) : Link :=
  if l.access = .delay then
    { l with access := .gap, delay := 0, gapDone := false
             rx := if l.rx = .idle ∨ l.rx = .skip then .frame [] else l.rx }
  else l

/-- ACCESS_DELAY_END (Table 9-6): the first start bit of the telegram in hand is driven. -/
def Link.delayEnd (l : Link) : Link :=
  if l.access = .delay then
    match l.handTelegram with
    | some t => { l with access := .send, delay := 0, gapDone := false, driven := frameChars (t.whole l.station) }
    | none => l
  else l

/-- QUIET_TIMER_EXPIRY (R161). -/
def Link.quietEnd (now : Tick) (l : Link) : Link :=
  if due 1000 l.quietTimer now then { l with discards := 0, quietTimer := none, access := .gap } else l

def Chip.dominantDuringDelay (c : Chip) : Chip := (c.mapLink Link.dominant).settleLink

def Chip.accessDelayEnd (c : Chip) : Chip := c.mapLink Link.delayEnd

def Chip.telegramSent (c : Chip) : Chip :=
  if c.link.access = .send then (c.mapLink Link.sent).settleLink else c

def Chip.readbackMismatch (bit : Nat) (c : Chip) : Chip :=
  if c.link.access = .send ∧ bit / 10 < c.link.driven.length then (c.mapLink (Link.mismatch bit c.tick)).settleLink
  else c

def Chip.quietTimerExpiry (c : Chip) : Chip := (c.mapLink (Link.quietEnd c.tick)).settleLink

end Sys2Proof.Machine
end

