-- ==== Sys2Proof/Machine/Store.lean ====
section
/-! DEFINITION. The parameter store (chapter 10) but for the end of the start window and the completion of a write,
which reach other blocks: requests, the array, loading at a start, the retained record, CONFIG WRITE and CONFIG
COMMIT. -/

namespace Sys2Proof.Machine

/-! ## Writes (R165) -/

/-- The write time of a request: its region's pages at 5 ms (Table 10-1). -/
def WriteReq.time : WriteReq → Nat
  | .config _ => 10
  | .curve _ _ => 25
  | .retain _ => 80

/-- With no write in progress, the next pending slot in the order RETAIN, CURVE, CONFIG is emptied and its write
started (R165); with a CONFIG write its requesters are owed their answers by it (R172). -/
def ParamStore.kick (now : Tick) (p : ParamStore) : ParamStore :=
  match p.writing with
  | some _ => p
  | none =>
    match p.reqRetain, p.reqCurve, p.reqConfig with
    | some r, _, _ => { p with writing := some (.retain r, now), reqRetain := none }
    | none, some (i, s), _ => { p with writing := some (.curve i s, now), reqCurve := none }
    | none, none, some c =>
      { p with
        writing := some (.config c, now), reqConfig := none, owed := p.owed ++ p.owedNext, owedNext := []
        replaced := false }
    | none, none, none => p

/-- A RETAIN request; one placed in a pending slot replaces its contents (R165). -/
def ParamStore.askRetain (r : Retained) (now : Tick) (p : ParamStore) : ParamStore :=
  { p with reqRetain := some r }.kick now

/-- A CURVE request, taken only for a set below the protect index in force (R166). -/
def ParamStore.askCurve (i : Fin 4) (s : CurveSet) (now : Tick) (p : ParamStore) : ParamStore :=
  if i.val < p.cfg.protect then { p with reqCurve := some (i, s) }.kick now else p

def ParamStore.askConfig (now : Tick) (p : ParamStore) : ParamStore :=
  { p with reqConfig := some p.work }.kick now

/-- The array after a write has completed: the region holds the new contents with a matching check (R165). -/
def StoreArray.put (w : WriteReq) (a : StoreArray) : StoreArray :=
  match w with
  | .config c => { a with config := some c }
  | .curve i s => { a with curves := a.curves.set i ⟨s, true⟩ }
  | .retain r => { a with retained := some r }

/-- The array after a write is cut off: its region's check fails (R165, R174); what a curve set region then holds is a
free value (log 7). -/
def StoreArray.cut (w : WriteReq) (pages : Nat) (a : StoreArray) : StoreArray :=
  match w with
  | .config _ => { a with config := none }
  | .curve i s => { a with curves := a.curves.set i ⟨Config.cutCurve pages (a.curves[i]).set s, false⟩ }
  | .retain _ => { a with retained := none }

/-- The write in progress has run its time (R165). -/
def ParamStore.writeDue (now : Tick) (p : ParamStore) : Bool :=
  match p.writing with
  | none => false
  | some (w, since) => w.time ≤ age now since

/-- The write in progress completes in the array. -/
def ParamStore.finishWrite (p : ParamStore) : ParamStore :=
  match p.writing with
  | none => p
  | some (w, _) => { p with array := p.array.put w, writing := none }

/-! ## Loading at a start (R167, R168) -/

/-- The copy of a curve set: valid when its record is good and its marker set (R164). -/
def CurveRegion.copy (r : CurveRegion) : CurveSet := { r.set with valid := r.good && r.set.valid }

/-- The configuration and the curve sets are read from the array; the window opens on them, with the counts of R171
cleared and no answer owed (R167, R168, R170). -/
def ParamStore.load (now : Tick) (p : ParamStore) : ParamStore :=
  { p with
    cfg := p.array.config.getD Cfg.fallback
    work := p.array.config.getD Cfg.fallback
    configDefault := p.array.config.isNone
    curves := p.array.curves.map CurveRegion.copy
    window := some now
    wrongCodes := 0
    lockout := false
    owed := []
    owedNext := []
    replaced := false }

/-- The store after a COLD start: working memory read from the array (R167). -/
def ParamStore.cold (a : StoreArray) (now : Tick) : ParamStore :=
  ParamStore.load now
    { cfg := Cfg.fallback, work := Cfg.fallback, curves := Vector.replicate 4 CurveSet.blank
      reqConfig := none, reqCurve := none, reqRetain := none, writing := none
      configDefault := false, retainLost := a.retained.isNone, window := none, wrongCodes := 0, lockout := false
      owed := [], owedNext := [], replaced := false, array := a }

/-- The store after a LINE start: the write in progress completes, pending CURVE and CONFIG requests are dropped, a
pending RETAIN is kept and written, and the record and sets are read again (R168). -/
def ParamStore.line (now : Tick) (p : ParamStore) : ParamStore :=
  ({ p.finishWrite with reqCurve := none, reqConfig := none }.load now).kick now

/-! ## The retained record (R169, Table 10-2) -/

/-- The retained items as they stand, with the resume role to be saved (R169, R177). -/
def Chip.retained (c : Chip) (resume : RoleState) : Retained where
  shift := c.load.shift
  life := c.load.life
  record := c.load.record
  seq := c.load.seq
  nextManual := c.load.nextManual
  history := c.load.history
  nextHist := c.load.nextHist
  settings := c.panel.settings
  resumeRole := resume
  keptPage := c.panel.keptPage

/-- A RETAIN save is asked for (R169). -/
def Chip.askRetain (resume : RoleState) (c : Chip) : Chip :=
  c.mapStore (ParamStore.askRetain (c.retained resume) c.tick)

/-! ## Configuration items (Table 10-3) -/

/-- What writing an item gives: no such item, a value outside its range, or the configuration with it. -/
inductive ItemResult where
  | noItem
  | outside
  | written (c : Cfg)
  deriving DecidableEq, Repr

/-- A count item with its range. -/
def natItem (lo hi : Nat) (v : Int) (f : Nat → Cfg) : ItemResult :=
  if (lo : Int) ≤ v ∧ v ≤ hi then .written (f v.toNat) else .outside

/-- A signed item with its range. -/
def intItem (lo hi v : Int) (f : Int → Cfg) : ItemResult := if lo ≤ v ∧ v ≤ hi then .written (f v) else .outside

/-- A 0 or 1 item. -/
def boolItem (v : Int) (f : Bool → Cfg) : ItemResult :=
  if v = 0 then .written (f false) else if v = 1 then .written (f true) else .outside

def LatchMode.ofBit (b : Bool) : LatchMode := if b then .held else .edge

/-- Write an item of Table 10-3; the value is signed, but unsigned for item 44 (R171). -/
def Cfg.writeItem (item raw : Nat) (c : Cfg) : ItemResult :=
  let v := toSigned 32 raw
  match item with
  | 1 => boolItem v fun b => { c with role := if b then .repeater else .weigher }
  | 2 => natItem 0 31 v fun n => { c with srcPressure := n }
  | 3 => natItem 0 31 v fun n => { c with srcPrimary := n }
  | 4 => natItem 0 31 v fun n => { c with srcSecondary := n }
  | 5 => natItem 0 31 v fun n => { c with srcTilt := n }
  | 6 => natItem 0 31 v fun n => { c with srcDrive := n }
  | 7 => natItem 0 31 v fun n => { c with srcIncline := n }
  | 8 => natItem 0 31 v fun n => { c with srcTag := n }
  | 9 => natItem 1 2 v fun n => { c with cylinders := n }
  | 10 => natItem 1 2000 v fun n => { c with headArea := n }
  | 11 => natItem 1 2000 v fun n => { c with rodArea := n }
  | 12 => intItem (-4500) 6000 v fun n => { c with thetaS := n }
  | 13 => intItem (-4500) 6000 v fun n => { c with thetaE := n }
  | 14 => intItem 0 10000 v fun n => { c with rmin := n }
  | 15 => intItem 0 10000 v fun n => { c with rmax := n }
  | 16 => natItem 0 3000 v fun n => { c with pitchLimit := n }
  | 17 => natItem 0 3000 v fun n => { c with rollLimit := n }
  | 18 => natItem 0 500 v fun n => { c with speedLimit := n }
  | 19 => boolItem v fun b => { c with inclineReq := b }
  | 20 => boolItem v fun b => { c with driveReq := b }
  | 21 => natItem 10 1000 v fun n => { c with disagreeLimit := n }
  | 22 => natItem 8 15 v fun n => { c with minBins := n }
  | 23 => intItem 500 20000 v fun n => { c with spread := n }
  | 24 => natItem 0 40000 v fun n => { c with digPressure := n }
  | 25 => intItem (-4500) 6000 v fun n => { c with digAngle := n }
  | 26 => intItem (-6000) 6000 v fun n => { c with rackAngle := n }
  | 27 => intItem (-6000) 6000 v fun n => { c with dumpAngle := n }
  | 28 => natItem 0 1000 v fun n => { c with residual := n }
  | 29 => natItem 100 5000 v fun n => { c with rated := n }
  | 30 => natItem 0 20 v fun n => { c with underTol := n }
  | 31 => natItem 0 20 v fun n => { c with overTol := n }
  | 32 => natItem 100 150 v fun n => { c with passOver := n }
  | 33 => if v = 0 then .written { c with defaultTarget := 0 } else natItem 100 50000 v fun n => { c with defaultTarget := n }
  | 34 => natItem 0 3 v fun n => { c with defaultSet := Fin.ofNat 4 n }
  | 35 => natItem 0 4 v fun n => { c with protect := n }
  | 36 => boolItem v fun b => { c with modeInputFault := LatchMode.ofBit b }
  | 37 => boolItem v fun b => { c with modeCrossCheck := LatchMode.ofBit b }
  | 38 => boolItem v fun b => { c with modeOverload := LatchMode.ofBit b }
  | 39 => boolItem v fun b => { c with modeNoWeigher := LatchMode.ofBit b }
  | 40 => natItem 0 255 v fun n => { c with mask := BitVec.ofNat 8 n }
  | 41 => boolItem v fun b => { c with singleEnded := b }
  | 42 => boolItem v fun b => { c with keyWake := b }
  | 43 => boolItem v fun b => { c with busWake := b }
  | 44 => .written { c with unlock := BitVec.ofNat 32 raw }
  | _ => .noItem

/-! ## The configuration handler (R171, R172) -/

/-- The rows that CONFIG WRITE and CONFIG COMMIT share: lockout, window, unlock code (Table 10-4). -/
inductive Admission where
  | ignored | closed | wrongCode | admitted
  deriving DecidableEq, Repr

def ParamStore.checkAccess (code : BitVec 32) (p : ParamStore) : Admission :=
  if p.lockout then .ignored
  else if p.window.isNone then .closed
  else if code ≠ p.cfg.unlock then .wrongCode
  else .admitted

/-- A wrong code is counted; the third sets the lockout (R171). -/
def ParamStore.countWrong (p : ParamStore) : ParamStore :=
  { p with wrongCodes := satAdd 3 p.wrongCodes 1, lockout := 3 ≤ satAdd 3 p.wrongCodes 1 }

/-- CONFIG WRITE (R171, Table 10-4). -/
def Chip.configWrite (src : Byte) (m : WriteMsg) (c : Chip) : Chip :=
  match c.store.checkAccess m.unlock with
  | .ignored => c
  | .closed => c.offer (sendConfigStatus src m.item .closed)
  | .wrongCode => (c.mapStore ParamStore.countWrong).offer (sendConfigStatus src m.item .code)
  | .admitted =>
    match c.store.work.writeItem m.item m.value with
    | .noItem => c.offer (sendConfigStatus src m.item .item)
    | .outside => c.offer (sendConfigStatus src m.item .range)
    | .written w => (c.mapStore fun p => { p with work := w }).offer (sendConfigStatus src m.item .ok)

/-- CONFIG COMMIT: no answer at once; the requester is owed one, and whether its request replaces a pending one is noted
(R172, log 38). -/
def Chip.configCommit (src : Byte) (code : BitVec 32) (c : Chip) : Chip :=
  match c.store.checkAccess code with
  | .ignored => c
  | .closed => c.offer (sendConfigStatus src 0 .closed)
  | .wrongCode => (c.mapStore ParamStore.countWrong).offer (sendConfigStatus src 0 .code)
  | .admitted => c.mapStore fun p =>
      { p with owedNext := p.owedNext ++ [src], replaced := p.reqConfig.isSome }.askConfig c.tick

/-- The requesters that the completion of a CONFIG write answers: every one owed an answer, but those of a pending request
that has replaced an earlier one, which the write that carries it answers together (R172, log 38). -/
def ParamStore.answered (p : ParamStore) : List Byte := if p.replaced then p.owed else p.owed ++ p.owedNext

/-- The answered requesters leave the list (R172). -/
def ParamStore.clearAnswered (p : ParamStore) : ParamStore :=
  { p with owed := [], owedNext := if p.replaced then p.owedNext else [] }

/-- The completion of a CONFIG write: the requesters it answers receive OK with item 0 (R172, log 38). -/
def Chip.answerCommits (c : Chip) : Chip :=
  (c.offerAll (c.store.answered.map fun src => sendConfigStatus src 0 .ok)).mapStore ParamStore.clearAnswered

end Sys2Proof.Machine
end

