-- ==== Sys2Proof/Machine/Load.lean ====
section
/-! DEFINITION. The load register (chapter 4): the open truck record, its sequence and target figures, tags and keys,
the history ring, the counters, COUNTER REQUEST and COUNTER REPORT. -/

namespace Sys2Proof.Machine

/-! ## The record, its sequence and its slot (R67, R70) -/

/-- The part is ACTIVE in RUN, where it writes the TRUCK STATUS slot and queues its events (R70, R79). -/
def Chip.isActive (c : Chip) : Bool := c.inRun && c.role.state == .active

/-- Write the TRUCK STATUS slot with the record as it stands; in every other role state nothing is written (R70). -/
def Chip.writeTruckSlot (c : Chip) : Chip :=
  if c.isActive then c.mapLink (Link.writeT (sendTruck c.load.record c.load.seq)) else c

/-- The record sequence rises by one, wrapping, and an ACTIVE part writes the slot (R67, R70). -/
def Chip.raiseSeq (c : Chip) : Chip := (c.mapLoad fun l => { l with seq := l.seq + 1 }).writeTruckSlot

/-- The numbers of a pass list. -/
def numbers (ps : List PassRec) : List Nat := ps.map PassRec.number

/-- The TRUCK pass selection becomes none when its entry leaves the list, as it does when the record of another truck
takes the place of the one before, or when no record is open (R138, R114). -/
def Panel.keepSel (before after : Option TruckRec) (p : Panel) : Panel :=
  match before, after, p.truckSel with
  | some b, some r, some n => if b.id = r.id ∧ (numbers r.passes).contains n then p else { p with truckSel := none }
  | _, _, _ => { p with truckSel := none }

/-- The open record takes a new value, and the panel's selection follows (R87, R138). -/
def Chip.setRecord (r : Option TruckRec) (c : Chip) : Chip :=
  (c.mapLoad fun l => { l with record := r }).mapPanel (Panel.keepSel c.load.record r)

/-- The part itself writes the open record: its origin is OWN (R104 note b, log 46). -/
def Chip.writeOwn (r : TruckRec) (c : Chip) : Chip :=
  (c.setRecord (some r)).mapRole fun x => { x with mirrored := false }

/-! ## Target figures (R71) -/

/-- remaining = target − total (Table 4-3). -/
def TruckRec.remaining (r : TruckRec) : Option Int := r.target.map fun t => (t : Int) - r.total

def reachLevel (cfg : Cfg) (target : Nat) : Nat := target * (100 - cfg.underTol) / 100
def overloadLevel (cfg : Cfg) (target : Nat) : Nat := target * (100 + cfg.overTol) / 100

/-- LAST: 0 < remaining ≤ rated payload (Table 4-3). -/
def TruckRec.isLast (cfg : Cfg) (r : TruckRec) : Bool :=
  match r.remaining with
  | some n => decide (0 < n) && decide (n ≤ cfg.rated)
  | none => false

def TruckRec.isOver (cfg : Cfg) (r : TruckRec) : Bool :=
  match r.target with
  | some t => overloadLevel cfg t < r.total
  | none => false

def TruckRec.isReached (cfg : Cfg) (r : TruckRec) : Bool :=
  match r.target with
  | some t => reachLevel cfg t ≤ r.total
  | none => false

/-- The flags of R71; TARGET REACHED once set is kept. -/
def TruckRec.evaluate (cfg : Cfg) (r : TruckRec) : TruckRec :=
  { r with flags := { r.flags with
      reached := r.flags.reached || r.isReached cfg, last := r.isLast cfg, overload := r.isOver cfg } }

/-- TARGET REACHED has changed from clear to set. -/
def TruckRec.reaches (cfg : Cfg) (r : TruckRec) : Bool := !r.flags.reached && r.isReached cfg

/-- Evaluate an own record's figures: the DOUBLE at TARGET REACHED, then the OVERLOAD condition to the alarm unit
(R71, log 9). A mirrored record's flags are those sent (R113). Outside RUN no pattern is requested (R170). -/
def Chip.evaluateRecord (c : Chip) : Chip :=
  match c.load.record with
  | none => c.refresh .overload
  | some r =>
    if c.role.mirrored then c.refresh .overload
    else
      let c' := c.setRecord (some (r.evaluate c.cfg))
      let c' := if r.reaches c.cfg && c.inRun then c'.beepEvent .double else c'
      c'.refresh .overload

/-- Evaluate; a change of the flags raises the sequence once (R67, R111). -/
def Chip.reevaluate (c : Chip) : Chip :=
  let c' := c.evaluateRecord
  if c'.load.record = c.load.record then c' else c'.raiseSeq

/-! ## Opening and closing (R74, R76, R78-R80) -/

/-- A record with an empty list, counts 0, total 0 and no flags. -/
def TruckRec.fresh (id : Nat) (target : Option Nat) : TruckRec := ⟨id, target, [], 0, 0, 0, RecFlags.none⟩

/-- A record opens; its target figures are evaluated in the same event, and the sequence rises once (R67, R71, log 37). -/
def Chip.openRecord (id : Nat) (target : Option Nat) (c : Chip) : Chip :=
  (c.writeOwn (TruckRec.fresh id target)).evaluateRecord.raiseSeq

/-- The summary of a record but for its sequence (R79 step 2). -/
def TruckRec.summary (r : TruckRec) (reason : CloseReason) : Summary :=
  ⟨0, r.id, r.target, r.total, r.count, r.unweighed, reason, r.flags.amendedAny⟩

/-- Append to the ring: at most 16, the oldest overwritten; the summary takes the next history sequence (R80). -/
def LoadRegister.append (s : Summary) (l : LoadRegister) : LoadRegister :=
  { l with
    history := (if 16 ≤ l.history.length then l.history.drop 1 else l.history) ++ [{ s with seq := l.nextHist }]
    nextHist := l.nextHist + 1 }

/-- A change of the HISTORY selection sets the view FIRST and restarts its timer (R139). -/
def Panel.selectHistory (s : Option (BitVec 32)) (now : Tick) (p : Panel) : Panel :=
  if p.histSel = s then p else { p with histSel := s, histSecond := false, histTimer := some now }

/-- The HISTORY selection after an append: kept where it names a summary of the ring, else the oldest; with none and
the page shown, the new summary (R139). -/
def Panel.historyAppended (ring : List Summary) (now : Tick) (p : Panel) : Panel :=
  match p.histSel with
  | some s => if ring.any (fun h => h.seq == s) then p else p.selectHistory (ring.head?.map Summary.seq) now
  | none => if p.page = .history then p.selectHistory (ring.getLast?.map Summary.seq) now else p

/-- A summary is appended to the history ring (R80). -/
def Chip.appendSummary (s : Summary) (c : Chip) : Chip :=
  let c := c.mapLoad (LoadRegister.append s)
  c.mapPanel (Panel.historyAppended c.load.history c.tick)

def Chip.countTruck (c : Chip) : Chip :=
  c.mapLoad fun l => { l with shift := { l.shift with trucks := bump l.shift.trucks } }

/-- The last-commit note is discarded (R42). -/
def Chip.discardNote (c : Chip) : Chip := c.mapTrk fun t => { t with note := none }

/-- Steps 2 to 4 of a close, of a record that holds passes (R79): the summary with its sequence goes into the ring, the
truck is counted unless YIELDED, and an ACTIVE part queues TRUCK CLOSED. -/
def Chip.recordSummary (r : TruckRec) (reason : CloseReason) (c : Chip) : Chip :=
  let c := c.appendSummary (r.summary reason)
  if reason = .yielded then c
  else
    let c := c.countTruck
    if c.isActive then c.offer (sendClosed (r.summary reason)) else c

/-- Steps 5 and 6 of a close: the record is removed, OVERLOAD falls, the note is discarded, the sequence rises (R79). -/
def Chip.removeRecord (c : Chip) : Chip := ((c.setRecord none).refresh .overload).discardNote.raiseSeq

/-- The open record, if any, closes with a reason (R79); an empty record is discarded. -/
def Chip.closeRecord (reason : CloseReason) (c : Chip) : Chip :=
  match c.load.record with
  | none => c
  | some r => (if r.count = 0 then c else c.recordSummary r reason).removeRecord

/-! ## Passes joining, amendment (R68, R69, R45) -/

/-- Replace the entry with a pass's number in place. -/
def replacePass (p : PassRec) (ps : List PassRec) : List PassRec := ps.map fun q => if q.number = p.number then p else q

/-- Put a pass at the newest end of a list of at most 12, or in place of the entry with its number (R68). -/
def joinList (p : PassRec) (ps : List PassRec) : List PassRec :=
  if (numbers ps).contains p.number then replacePass p ps
  else (if 12 ≤ ps.length then ps.drop 1 else ps) ++ [p]

/-- The pass as the record takes it: its truck id and the resulting pass count as its number (R68 step 1). -/
def TruckRec.numbered (p : PassRec) (r : TruckRec) : PassRec :=
  { p with truckId := r.id, number := satAdd 255 r.count 1 }

/-- The record after a pass has joined it (R68, R69). -/
def TruckRec.join (p : PassRec) (r : TruckRec) : TruckRec :=
  { r with
    passes := joinList (r.numbered p) r.passes
    count := satAdd 255 r.count 1
    unweighed := if p.payload.isNone then satAdd 255 r.unweighed 1 else r.unweighed
    total := satAdd 99999 r.total (p.payload.getD 0) }

/-- A RECORD pass: with no record open a stockpile record opens first; the pass joins, an ACTIVE part queues its PASS
RECORD, the figures are evaluated and the sequence rises once (R68-R71, R78). Answers the pass as joined. -/
def Chip.joinRecord (p : PassRec) (c : Chip) : PassRec × Chip :=
  let c := if c.load.record.isNone then c.openRecord 0 none else c
  match c.load.record with
  | none => (p, c)
  | some r =>
    let p' := r.numbered p
    let c := c.writeOwn (r.join p)
    let c := if c.isActive then c.offer (sendPass p') else c
    (p', c.evaluateRecord.raiseSeq)

/-- The record after an amendment of one pass (R45 step 4). -/
def TruckRec.amend (p : PassRec) (removed : Nat) (r : TruckRec) : TruckRec :=
  { r with passes := replacePass p r.passes, total := r.total - removed, flags := { r.flags with amendedAny := true } }

/-- Step 4 of an amendment: list entry, total, AMENDED ANY, the PASS RECORD of an ACTIVE part, one raise (R45, R70). -/
def Chip.amendRecord (p : PassRec) (removed : Nat) (c : Chip) : Chip :=
  match c.load.record with
  | none => c
  | some r =>
    let c := c.writeOwn (r.amend p removed)
    let c := if c.isActive then c.offer (sendPass p) else c
    c.evaluateRecord.raiseSeq

/-- The record becomes the part's own (R111): a mirrored record is flagged PARTIAL where its count exceeds its list,
its count raised as at adoption; the origin becomes OWN and the flags are evaluated; changes raise the sequence once. -/
def TruckRec.adopt (r : TruckRec) : TruckRec :=
  { r with
    count := max r.count (max r.passes.length ((numbers r.passes).foldl max 0))
    flags := { r.flags with isPartial := r.flags.isPartial || decide (r.passes.length < r.count) } }

def Chip.adoptRecord (c : Chip) : Chip :=
  let adopted := if c.role.mirrored then c.load.record.map TruckRec.adopt else c.load.record
  let c' := ((c.setRecord adopted).mapRole fun r => { r with mirrored := false }).evaluateRecord
  if c'.load.record = c.load.record then c' else c'.raiseSeq

/-! ## Counters (R81, R82) -/

/-- A commit's counters: cycles of a NORMAL pass, passes and tonnage by its stage (R41 step 4, Table 4-6). -/
def LoadRegister.countCommit (kind : PassKind) (payload : Option Nat) (l : LoadRegister) : LoadRegister :=
  let up (m n : Nat) : Nat := if kind = .normal then satAdd m n 1 else n
  match payload with
  | some m =>
    { l with
      shift := { l.shift with cycles := up 65535 l.shift.cycles, weighed := bump l.shift.weighed
                              tonnage := satAdd 99999999 l.shift.tonnage m }
      life := { cycles := up 4294967295 l.life.cycles, tonnage := satAdd 4294967295 l.life.tonnage m } }
  | none =>
    { l with
      shift := { l.shift with cycles := up 65535 l.shift.cycles, unweighed := bump l.shift.unweighed }
      life := { l.life with cycles := up 4294967295 l.life.cycles } }

/-- An amendment lowers both tonnages, neither below 0 (R45 step 3). -/
def LoadRegister.lowerTonnage (removed : Nat) (l : LoadRegister) : LoadRegister :=
  { l with shift := { l.shift with tonnage := l.shift.tonnage - removed }
           life := { l.life with tonnage := l.life.tonnage - removed } }

/-- Shift reset: in RUN, in a WEIGHER, in any role state but CALIBRATING; the five shift counters become 0 and a RETAIN
save is asked for with the role state of that moment (R82, R169). -/
def Chip.shiftReset (c : Chip) : Chip :=
  if c.inRun && c.isWeigher && c.role.state != .calibrating then
    (c.mapLoad fun l => { l with shift := ShiftCounters.zero }).askRetain c.role.state
  else c

/-! ## Tags and keys (R72-R77) -/

/-- Tag mode: the truck tag source is 1-31 (R72). -/
def Chip.tagMode (c : Chip) : Bool := c.cfg.srcTag != 0

/-- ACTIVE, or MUTE with configured role WEIGHER (R73). -/
def Chip.ownsRecord (c : Chip) : Bool :=
  match c.role.state with
  | .active => true
  | .mute => c.isWeigher
  | .listen | .standby | .calibrating | .repeating => false

def Chip.setRefused (r : Option Nat) (c : Chip) : Chip := c.mapLoad fun l => { l with refused := r }

/-- The target of the open record is brought to the tag's; a change of it is a change of the record (R74). -/
def Chip.retarget (target : Option Nat) (c : Chip) : Chip :=
  match c.load.record with
  | none => c
  | some r =>
    if r.target = target then c else (c.writeOwn { r with target := target }).evaluateRecord.raiseSeq

/-- A tag with present set (R74, Table 4-4). -/
def Chip.tagPresent (id : Nat) (target : Option Nat) (c : Chip) : Chip :=
  let refused := c.load.refused = some id
  let c := if refused then c else c.setRefused none
  match c.load.record with
  | none => if refused then c else c.openRecord id target
  | some r =>
    if r.id = id then c.retarget target
    else if refused then c
    else (c.closeRecord .newTruck).openRecord id target

/-- The truck has left: a record of id 1-65534 closes DEPARTED, and the refused tag id becomes none (R75). -/
def Chip.tagGone (c : Chip) : Chip :=
  let c := match c.load.record with
    | some r => if r.id = 0 then c else c.closeRecord .departed
    | none => c
  c.setRefused none

/-- The held truck tag is taken as an arrival, in tag mode where the part owns its record (R73-R75, R63). -/
def Chip.takeTag (c : Chip) : Chip :=
  if c.tagMode && c.ownsRecord then
    match c.inp.held.tag with
    | none => c
    | some t => if t.present then c.tagPresent t.id t.target else c.tagGone
  else c

/-- The tag channel has gone STALE by its expiry (R75). -/
def Chip.tagStale (c : Chip) : Chip := if c.tagMode && c.ownsRecord then c.tagGone else c

/-- The held tag at an entry to ACTIVE or a WEIGHER's MUTE, where the channel is FRESH (R73). -/
def Chip.takeHeldTag (c : Chip) : Chip := if c.inp.tag.freshness = .fresh then c.takeTag else c

/-- The next manual id after one is taken: from 999 to 1 (R76). -/
def nextId (n : Nat) : Nat := if 999 ≤ n then 1 else n + 1

/-- ENTER on the TRUCK page in manual mode: on to the next truck (R76). -/
def Chip.nextManualTruck (c : Chip) : Chip :=
  if c.ownsRecord && !c.tagMode then
    let id := c.load.nextManual
    ((c.closeRecord .operator).openRecord id (absentIfZero c.cfg.defaultTarget)).mapLoad
      fun l => { l with nextManual := nextId id }
  else c

/-- ENTER long press on the TRUCK page: the record closes OPERATOR; in tag mode its id is refused (R77). -/
def Chip.operatorClose (c : Chip) : Chip :=
  if c.ownsRecord then
    match c.load.record with
    | none => c
    | some r =>
      let c := c.closeRecord .operator
      if c.tagMode && r.id != 0 then c.setRefused (some r.id) else c
  else c

/-! ## COUNTER REQUEST and COUNTER REPORT (R84-R86) -/

/-- Three reports of the part's own counters (R84). -/
def Chip.ownReports (c : Chip) (dst : Byte) : List OutTg :=
  let f := reportFlags false false c.store.retainLost
  let s := c.load.shift
  [sendCounts dst f s.cycles s.weighed s.unweighed s.trucks, sendTonnage dst f s.tonnage c.load.life.tonnage,
   sendLife dst f c.load.life.cycles]

/-- Three reports of the mirrored figures; a part with none held carries 0 with EMPTY (R85). -/
def Chip.mirrorReports (c : Chip) (dst : Byte) : List OutTg :=
  let none_ := reportFlags true true false
  [match c.load.mirrorCounts with
   | some m => sendCounts dst (reportFlags true false m.retainLost) m.cycles m.weighed m.unweighed m.trucks
   | none => sendCounts dst none_ 0 0 0 0,
   match c.load.mirrorTonnage with
   | some m => sendTonnage dst (reportFlags true false m.retainLost) m.shift m.life
   | none => sendTonnage dst none_ 0 0,
   match c.load.mirrorLife with
   | some m => sendLife dst (reportFlags true false m.retainLost) m.cycles
   | none => sendLife dst none_ 0]

/-- The answer of a role state (Table 4-8). -/
def Chip.counterAnswer (c : Chip) (dst : Byte) : List OutTg :=
  match c.role.state with
  | .active | .standby | .calibrating => c.ownReports dst
  | .repeating => c.mirrorReports dst
  | .listen | .mute => []

/-- A COUNTER REQUEST: answered in RUN, and in DOZE where it is addressed to this station (R84, Table 4-8). -/
def Chip.counterRequest (src dst : Byte) (c : Chip) : Chip :=
  match c.sup.power with
  | .run => c.offerAll (c.counterAnswer src)
  | .doze => if dst = 0 then c else c.offerAll (c.counterAnswer src)
  | .hold | .peek => c

/-- A report's figures are held (R85). -/
def LoadRegister.holdReport (m : ReportMsg) (l : LoadRegister) : LoadRegister :=
  match m with
  | .counts m => { l with mirrorCounts := some m }
  | .tonnage m => { l with mirrorTonnage := some m }
  | .life m => { l with mirrorLife := some m }

/-- A COUNTER REPORT: taken by a REPEATER from the named station with MIRRORED and EMPTY clear (R85). -/
def Chip.counterReport (src : Byte) (m : CounterMsg) (c : Chip) : Chip :=
  if !c.isWeigher && c.role.named == some src.toNat && !m.mirrored && !m.empty then
    c.mapLoad (LoadRegister.holdReport m.figures)
  else c

/-- The repeater asks the named station for its counters and starts its poll timer; with none named no request is
queued (R86). -/
def Chip.poll (c : Chip) : Chip :=
  let c := match c.role.named with
    | some n => c.offer (sendCounterRequest (BitVec.ofNat 8 n))
    | none => c
  c.mapLoad fun l => { l with pollTimer := some c.tick }

/-- The poll is due: REPEAT, RUN, the COUNT page shown (R86). -/
def Chip.polls (c : Chip) : Bool := c.inRun && c.role.state == .repeating && c.panel.page == .count

def Chip.stopPoll (c : Chip) : Chip := c.mapLoad fun l => { l with pollTimer := none }

/-- COUNTER_POLL_TIMER (R86). -/
def Chip.counterPollTimer (c : Chip) : Chip :=
  if due 2000 c.load.pollTimer c.tick then c.poll.settleLink else c

/-- TRUCK_STATUS_REFRESH: the slot is written again with the record as it stands (R70). -/
def Chip.truckStatusRefresh (c : Chip) : Chip :=
  if due 1000 c.load.refreshTimer c.tick then
    ((c.mapLoad fun l => { l with refreshTimer := some c.tick }).writeTruckSlot).settleLink
  else c

/-! ## Starts (Table 4-1) -/

/-- The load register after a COLD start, from the retained items. -/
def LoadRegister.cold (r : Retained) : LoadRegister where
  record := r.record
  seq := r.seq
  nextManual := r.nextManual
  history := r.history
  nextHist := r.nextHist
  shift := r.shift
  life := r.life
  refused := none
  mirrorCounts := none
  mirrorTonnage := none
  mirrorLife := none
  refreshTimer := none
  pollTimer := none

/-- The LINE column. -/
def LoadRegister.line (l : LoadRegister) : LoadRegister :=
  { l with refused := none, mirrorCounts := none, mirrorTonnage := none, mirrorLife := none
           refreshTimer := none, pollTimer := none }

/-- The RESUME column. -/
def LoadRegister.resume (l : LoadRegister) : LoadRegister :=
  { l with refused := none, refreshTimer := none, pollTimer := none }

end Sys2Proof.Machine
end

