-- ==== Sys2Proof/Machine/Role.lean ====
section
/-! DEFINITION. The role arbiter (chapter 6): WEIGHER STATUS, the peer table, the named station, settling, yielding and
takeover, the mirror, station conflict, the repeater, the cross-check. -/

namespace Sys2Proof.Machine

/-! ## WEIGHER STATUS (R105) -/

/-- The role states that send WEIGHER STATUS (Table 6-1). -/
def RoleState.sends : RoleState → Bool
  | .active | .standby | .calibrating | .repeating => true
  | .listen | .mute => false

/-- The WEIGHER STATUS as the figures stand (R105). -/
def Chip.statusTelegram (c : Chip) : OutTg :=
  sendStatus c.role.state c.alarm.latchByte
    (healthByte c.inputFault c.setInvalid c.store.retainLost c.store.configDefault c.role.behind)
    c.panel.settings.curveSet c.sup.startKind c.load.seq

/-- Write the WEIGHER STATUS slot at once and restart the status timer (R105). -/
def Chip.writeStatus (c : Chip) : Chip :=
  if c.inRun && c.role.state.sends then
    (c.mapRole fun r => { r with status := some c.tick }).mapLink (Link.writeW c.statusTelegram)
  else c

/-! ## Leaving and entering role states -/

/-- What every exit from a role state leaves (R70, R86, R113, R117, R118): the refresh and poll timers stop, pending
shadow passes go uncounted, MIRROR BEHIND and NO WEIGHER are clear; the TRUCK STATUS slot of an ACTIVE part is emptied. -/
def Chip.leaveRole (c : Chip) : Chip :=
  let c := if c.role.state = .active then c.mapLink Link.emptyT else c
  (c.mapRole fun r => { r with pairing := [], behind := false, noWeigher := false }).mapLoad
    fun l => { l with refreshTimer := none, pollTimer := none }

/-- A change of role state discards the last-commit note (R42). -/
def Chip.setRole (s : RoleState) (c : Chip) : Chip := (c.mapRole fun r => { r with state := s }).discardNote

/-- The cross-check starts afresh: count 0, CROSS-CHECK false (R111, R116). -/
def Chip.clearCrossCheck (c : Chip) : Chip :=
  (c.mapRole fun r => { r with mismatches := 0, crossCheck := false }).refresh .crossCheck

/-- Entry to LISTEN: nothing is sent, no station is named, the listen timer starts (R105, R108). -/
def Chip.enterListen (c : Chip) : Chip :=
  let c := (c.leaveRole.setRole .listen).mapRole fun r =>
    { r with named := none, namedSeq := none, watch := none, listen := some c.tick, status := none }
  (c.mapLink Link.emptyW).refresh .noWeigher

/-- Entry to REPEAT: no station named, the watch timer starts; with the COUNT page shown the repeater polls (R108,
R117, R86). -/
def Chip.enterRepeat (c : Chip) : Chip :=
  let c := (c.leaveRole.setRole .repeating).mapRole fun r =>
    { r with named := none, namedSeq := none, watch := some c.tick, listen := none }
  let c := (c.refresh .noWeigher).writeStatus
  if c.polls then c.poll else c

/-- Entry to ACTIVE (R111): the record becomes the part's own, the held tag is taken, both slots are written. A change that
the tag makes raises the sequence again after an adoption that raised it (log 49). -/
def Chip.enterActive (c : Chip) : Chip :=
  let c := (c.leaveRole.setRole .active).mapRole fun r =>
    { r with named := none, namedSeq := none, watch := none, listen := none }
  let c := c.clearCrossCheck.adoptRecord.takeHeldTag.writeStatus
  (c.mapLoad fun l => { l with refreshTimer := some c.tick }).writeTruckSlot

/-- The open record closes YIELDED where it is the part's own, and the origin becomes MIRRORED (R108, R110). -/
def Chip.yieldRecord (c : Chip) : Chip :=
  (if c.role.mirrored then c else c.closeRecord .yielded).mapRole fun r => { r with mirrored := true }

/-- Entry to STANDBY from LISTEN with a station named; the watch timer runs on (R108). -/
def Chip.enterStandby (c : Chip) : Chip :=
  ((c.leaveRole.setRole .standby).mapRole fun r => { r with listen := none }).yieldRecord.writeStatus

/-- The mirror's sequence is compared with a WEIGHER STATUS of the named station (R113). -/
def Chip.compareMirror (seq : BitVec 8) (c : Chip) : Chip :=
  c.mapRole fun r => { r with namedSeq := some seq, behind := seq != c.load.seq }

/-- An ACTIVE part yields to a lower station (R110). -/
def Chip.yieldTo (station : Nat) (seq : BitVec 8) (c : Chip) : Chip :=
  let c := (c.leaveRole.setRole .standby).mapRole fun r => { r with named := some station, watch := some c.tick }
  (c.yieldRecord.compareMirror seq).writeStatus

/-- A station conflict, or a strap of 0 at a start, sends the part to MUTE (R116, R108); of the sequence at a WEIGHER's entry
log 49. -/
def Chip.enterMute (c : Chip) : Chip :=
  let c := c.leaveRole.setRole .mute
  let c := (c.mapRole fun r => { r with conflict := true, listen := none, status := none }).mapLink
    fun l => l.emptyW.emptyQueue
  let c := (((c.refresh .stationConflict).refresh .noWeigher).clearCrossCheck)
  if c.isWeigher then c.adoptRecord.takeHeldTag else c

/-- A station conflict report in RUN; in MUTE a further one changes nothing (R116). -/
def Chip.conflictReport (c : Chip) : Chip := if c.role.state = .mute then c else c.enterMute

/-! ## The peer table (R106) -/

def freshPeer (station : Nat) (s : RoleState) (now : Tick) : Peer := ⟨station, s, now⟩

/-- Whether q goes before p at a replacement: the older last arrival, and of equal ones the higher station (R106). -/
def Peer.goesBefore (now : Tick) (q p : Peer) : Bool :=
  age now p.at_ < age now q.at_ || (age now p.at_ == age now q.at_ && p.station < q.station)

/-- The peer that a new one replaces. -/
def oldestPeer (now : Tick) : List Peer → Option Peer
  | [] => none
  | p :: ps =>
    match oldestPeer now ps with
    | none => some p
    | some q => some (if q.goesBefore now p then q else p)

/-- A WEIGHER STATUS arrival in a table of at most 8 (R106). A new record joins at the end, and one that replaces another
takes its place: the spec gives the table no order, and the order settles which of DIAG items 32-39 shows which peer (log
53). -/
def hearPeer (station : Nat) (s : RoleState) (now : Tick) (ps : List Peer) : List Peer :=
  if ps.any (fun p => p.station == station) then
    ps.map fun p => if p.station = station then freshPeer station s now else p
  else if ps.length < 8 then ps ++ [freshPeer station s now]
  else
    match oldestPeer now ps with
    | none => ps
    | some old => ps.map fun p => if p.station = old.station then freshPeer station s now else p

/-- PEER_RECORD_REMOVAL: the record is removed at an age of 2000 ms (R106), and those after it move up (log 53). -/
def Chip.peerRecordRemoval (station : Nat) (c : Chip) : Chip :=
  if c.inRun then
    c.mapRole fun r =>
      { r with peers := r.peers.filter fun p => !(p.station == station && decide (2000 ≤ age c.tick p.at_)) }
  else c

/-! ## The named station (R107) -/

/-- The lowest peer last heard ACTIVE less than 1000 ms ago. -/
def fallbackPeer (now : Tick) (ps : List Peer) : Option Peer :=
  ((ps.filter fun p => p.state == .active && decide (age now p.at_ < 1000))).foldl
    (fun best p => match best with
      | none => some p
      | some b => if p.station < b.station then some p else some b) none

/-- An ACTIVE status names its station where none is named, where it is the named one, or where it is lower (R107). -/
def Chip.nameStation (station : Nat) (c : Chip) : Chip :=
  let names := match c.role.named with
    | none => true
    | some n => station ≤ n
  if names then
    (c.mapRole fun r => { r with named := some station, watch := some c.tick, noWeigher := false }).refresh .noWeigher
  else c

/-- The watch timer's expiry: the fallback is named, or the absence acts (R107, R112, R117). No sequence of a station so
named is known until its next WEIGHER STATUS (log 50). -/
def Chip.watchExpired (c : Chip) : Chip :=
  match fallbackPeer c.tick c.role.peers with
  | some p => c.mapRole fun r => { r with named := some p.station, namedSeq := none, watch := some p.at_ }
  | none =>
    let c := c.mapRole fun r => { r with named := none, namedSeq := none, watch := none }
    match c.role.state with
    | .standby => c.enterActive
    | .repeating => (c.mapRole fun r => { r with noWeigher := true }).refresh .noWeigher
    | .listen | .active | .calibrating | .mute => c

/-- STANDBY or REPEAT, where the mirror rules apply (Table 6-1). -/
def RoleState.mirrors : RoleState → Bool
  | .standby | .repeating => true
  | .listen | .active | .calibrating | .mute => false

/-- The named station's record sequence is noted, and where the mirror rules apply compared (R113). -/
def Chip.noteStatus (seq : BitVec 8) (c : Chip) : Chip :=
  if c.role.state.mirrors then c.compareMirror seq else c.mapRole fun r => { r with namedSeq := some seq }

/-- A WEIGHER STATUS where the part is not ACTIVE (R107, R113). -/
def Chip.hearStatus (station : Nat) (m : StatusMsg) (c : Chip) : Chip :=
  match m.state with
  | .active =>
    let c := c.nameStation station
    if c.role.named = some station then c.noteStatus m.seq else c
  | .calibrating => if c.role.named = some station then (c.noteStatus m.seq).watchExpired else c
  | .listen | .standby | .repeating | .mute => if c.role.named = some station then c.noteStatus m.seq else c

/-- A WEIGHER STATUS from another station (R106, R107, R110). -/
def Chip.weigherStatus (src : Byte) (m : StatusMsg) (c : Chip) : Chip :=
  let c := c.mapRole fun r => { r with peers := hearPeer src.toNat m.state c.tick r.peers }
  if c.role.state = .active then
    if m.state = .active then
      if src.toNat < c.link.station then c.yieldTo src.toNat m.seq else c.writeStatus
    else c
  else c.hearStatus src.toNat m

/-! ## The mirror (R113-R115) -/

/-- The mirror rules take a telegram: STANDBY or REPEAT, from the named station. -/
def Chip.mirrorsFrom (src : Byte) (c : Chip) : Bool := c.role.state.mirrors && c.role.named == some src.toNat

/-- A change of the mirror's truck id, its opening and its removal discard a SHADOW note (R42, R113). -/
def Chip.dropShadowNote (before : Option TruckRec) (c : Chip) : Chip :=
  if before.map TruckRec.id = c.load.record.map TruckRec.id then c
  else
    match c.trk.note with
    | some n => if n.isRecord then c else c.discardNote
    | none => c

/-- The pass count of a record that takes others' passes: never below its list length or its highest number (R113). -/
def raisedCount (count : Nat) (ps : List PassRec) : Nat := max count (max ps.length ((numbers ps).foldl max 0))

/-- The mirror after a TRUCK STATUS with OPEN set (Table 6-4); the total saturates (log 11). -/
def mirrorRecord (before : Option TruckRec) (m : TruckMsg) : TruckRec :=
  let ps := match before with
    | some r => if r.id = m.id then r.passes else []
    | none => []
  ⟨m.id, m.target, ps, raisedCount m.count ps, m.unweighed, min m.total 99999, m.flags⟩

/-- A TRUCK STATUS from the named station (R113, log 12). -/
def Chip.truckStatus (src : Byte) (m : TruckMsg) (c : Chip) : Chip :=
  if c.mirrorsFrom src then
    let before := c.load.record
    let c := c.setRecord (if m.isOpen then some (mirrorRecord before m) else none)
    let c := (c.mapLoad fun l => { l with seq := m.seq }).mapRole fun r =>
      { r with mirrored := true, behind := if r.namedSeq = some m.seq then false else r.behind }
    (c.dropShadowNote before).refresh .overload
  else c

/-- Place a pass in order of its number (R114 step 3). -/
def insertPass (p : PassRec) : List PassRec → List PassRec
  | [] => [p]
  | q :: qs => if p.number < q.number then p :: q :: qs else q :: insertPass p qs

/-- The list after a PASS RECORD: replaced in place, or placed in order with the lowest of 13 leaving (R114). -/
def mirrorList (p : PassRec) (ps : List PassRec) : List PassRec :=
  if (numbers ps).contains p.number then replacePass p ps
  else
    let placed := insertPass p ps
    if 12 < placed.length then placed.drop 1 else placed

/-- The mirror after a PASS RECORD (R114). -/
def mirrorJoin (before : Option TruckRec) (p : PassRec) : TruckRec :=
  let r := match before with
    | some r => if r.id = p.truckId then r else TruckRec.fresh p.truckId none
    | none => TruckRec.fresh p.truckId none
  let placed := !(numbers r.passes).contains p.number
  let ps := mirrorList p r.passes
  { r with
    passes := ps
    count := raisedCount r.count ps
    unweighed := if placed && p.payload.isNone then satAdd 255 r.unweighed 1 else r.unweighed }

/-! ## The cross-check (R118, R119) -/

def Chip.countUnpaired (c : Chip) : Chip := c.mapRole fun r => { r with unpaired := bump r.unpaired }

/-- A pair mismatches when |Pa − Ps| exceeds the larger of round(Pa × 2 / 100) and 20 (R119). -/
def pairDiffers (active shadow : Nat) : Bool :=
  decide (max (roundDiv ((active : Int) * 2) 100) 20 < (((active : Int) - shadow).natAbs : Int))

/-- The arbiter after a pair is judged (R119). -/
def RoleArbiter.judge (active shadow : Nat) (r : RoleArbiter) : RoleArbiter :=
  let bad := pairDiffers active shadow
  let n := if bad then satAdd 255 r.mismatches 1 else 0
  { r with
    mismatches := n
    crossCheck := if bad then r.crossCheck || decide (3 ≤ n) else false
    lastPair := some ⟨shadow, active, bad⟩ }

/-- A PASS RECORD of the named station is offered to the cross-check of a STANDBY part (R118). -/
def Chip.crossCheckPass (p : PassRec) (c : Chip) : Chip :=
  match c.role.state, p.payload, p.amended with
  | .standby, some active, false =>
    match c.role.pairing with
    | [] => c.countUnpaired
    | e :: rest =>
      (c.mapRole fun r => { r with pairing := rest }.judge active e.payload).refresh .crossCheck
  | _, _, _ => c

/-- A shadow pass is committed in STANDBY: its entry joins a list of at most 2 (R118). -/
def Chip.shadowCommitted (payload : Option Nat) (c : Chip) : Chip :=
  match c.role.state, payload with
  | .standby, some m =>
    let c := if 2 ≤ c.role.pairing.length then (c.mapRole fun r => { r with pairing := r.pairing.drop 1 }).countUnpaired else c
    c.mapRole fun r => { r with pairing := r.pairing ++ [⟨m, c.tick⟩] }
  | _, _ => c

/-- PAIRING_TIMER_EXPIRY: the oldest entry leaves as an unpaired shadow pass (R118). -/
def Chip.pairingTimerExpiry (c : Chip) : Chip :=
  match c.role.pairing with
  | [] => c
  | e :: rest =>
    if 2000 ≤ age c.tick e.dumped then (c.mapRole fun r => { r with pairing := rest }).countUnpaired else c

/-- A PASS RECORD from the named station (R114, R118); in REPEAT an unamended one is the last pass shown. -/
def Chip.passRecord (src : Byte) (p : PassRec) (c : Chip) : Chip :=
  if c.mirrorsFrom src then
    let before := c.load.record
    let c := (c.setRecord (some (mirrorJoin before p))).mapRole fun r => { r with mirrored := true }
    let c := ((c.dropShadowNote before).refresh .overload).crossCheckPass p
    if c.role.state = .repeating ∧ !p.amended then c.mapPanel fun q => { q with lastPass := some p } else c
  else c

/-- A TRUCK CLOSED from the named station (R115). -/
def Chip.truckClosed (src : Byte) (m : ClosedMsg) (c : Chip) : Chip :=
  if c.mirrorsFrom src then
    (c.appendSummary ⟨0, m.id, m.target, min m.total 99999, m.count, m.unweighed, m.reason, m.amended⟩).countTruck
  else c

/-! ## Settling and starts (R104, R108, R109) -/

/-- Settle the role from the strapped station number and the configured role (R108). -/
def Chip.settleRole (c : Chip) : Chip :=
  if c.link.station = 0 then c.enterMute
  else if c.isWeigher then c.enterListen
  else c.enterRepeat

/-- The arbiter before settling at a COLD start (Table 6-2). -/
def RoleArbiter.cold (resume : RoleState) : RoleArbiter where
  state := .listen
  resumeRole := resume
  peers := []
  named := none
  watch := none
  listen := none
  status := none
  mirrored := resume == .standby || resume == .repeating
  pairing := []
  mismatches := 0
  crossCheck := false
  unpaired := 0
  lastPair := none
  conflict := false
  noWeigher := false
  behind := false
  namedSeq := none

/-- The arbiter before settling at a LINE start (Table 6-2). -/
def RoleArbiter.line (r : RoleArbiter) : RoleArbiter :=
  { RoleArbiter.cold r.resumeRole with mirrored := r.mirrored, unpaired := r.unpaired }

/-- Entry to HOLD or DOZE from RUN: the resume role is written, timers stop, the pairing list is emptied (Table 6-2
notes a and c). -/
def RoleArbiter.suspend (r : RoleArbiter) : RoleArbiter :=
  { r with resumeRole := r.state, watch := none, listen := none, status := none, pairing := [] }

/-- The arbiter at a RESUME start, before the resume role is entered (Table 6-2). -/
def RoleArbiter.resume (r : RoleArbiter) : RoleArbiter :=
  { r with state := r.resumeRole, peers := [], named := none, namedSeq := none, watch := none, listen := none
           status := none, pairing := [], noWeigher := false, behind := false }

/-- The resume role is taken at a RESUME start (R109, Table 6-3). -/
def Chip.resumeRole (c : Chip) : Chip :=
  let c := (c.mapRole RoleArbiter.resume).discardNote
  match c.role.state with
  | .active => c.enterActive
  | .standby => (c.mapRole fun r => { r with watch := some c.tick }).writeStatus
  | .listen => c.mapRole fun r => { r with listen := some c.tick }
  | .calibrating => c.writeStatus
  | .repeating =>
    let c := (c.mapRole fun r => { r with watch := some c.tick }).writeStatus
    if c.polls then c.poll else c
  | .mute => c.mapRole fun r => { r with conflict := true }

/-! ## Requests of the calibration unit (R120) -/

/-- Take CALIBRATING; a MUTE part does not (R116, R120). -/
def Chip.takeCalibrating (c : Chip) : Chip :=
  if c.role.state = .mute then c
  else ((c.leaveRole.setRole .calibrating).mapRole fun r => { r with listen := none }).writeStatus

/-- Take LISTEN: in RUN the role is settled afresh; in HOLD or DOZE the resume role is written (R120, R116). -/
def Chip.takeListen (c : Chip) : Chip :=
  if c.inRun then (if c.role.state = .mute then c else c.enterListen)
  else if c.role.resumeRole = .mute then c
  else c.mapRole fun r => { r with resumeRole := .listen }

/-! ## The timers -/

/-- STATUS_TIMER_EXPIRY (R105). -/
def Chip.statusTimerExpiry (c : Chip) : Chip :=
  if due 250 c.role.status c.tick then c.writeStatus.settleLink else c

/-- WATCH_TIMER_EXPIRY (R107). -/
def Chip.watchTimerExpiry (c : Chip) : Chip :=
  if due 1000 c.role.watch c.tick then c.watchExpired.settleLink else c

/-- LISTEN_TIMER_EXPIRY (R108). -/
def Chip.listenTimerExpiry (c : Chip) : Chip :=
  if due 1000 c.role.listen c.tick then
    (if c.role.named.isSome then c.enterStandby else c.enterActive).settleLink
  else c

end Sys2Proof.Machine
end

