-- ==== Sys2Proof/Machine/Tracker.lean ====
section
/-! DEFINITION. The cycle tracker (chapter 2): its states, the pass context, crossings and levels, input loss, commit,
remainder and amendment, voids, suspension. -/

namespace Sys2Proof.Machine

/-! ## Levels and crossings (R28) -/

/-- θ crosses X upward at an arrival (R28). -/
def crossesUp (prev : Option Int) (theta x : Int) : Bool :=
  match prev with
  | some p => decide (p < x) && decide (x ≤ theta)
  | none => false

/-- The held tilt, where the channel is FRESH (R28). -/
def Chip.freshTilt (c : Chip) : Option Int := if c.inp.tilt.freshness = .fresh then c.inp.held.tilt else none

/-- The held primary angle, where the channel is FRESH (R28). -/
def Chip.freshAngle (c : Chip) : Option Int := if c.inp.primary.freshness = .fresh then c.inp.held.primary else none

/-- The held pressure, where the channel is FRESH (R28). -/
def Chip.freshPressure (c : Chip) : Option PressureVal :=
  if c.inp.pressure.freshness = .fresh then c.inp.held.pressure else none

def below (v : Option Int) (x : Int) : Bool :=
  match v with
  | some a => decide (a < x)
  | none => false

def atMost (v : Option Int) (x : Int) : Bool :=
  match v with
  | some a => decide (a ≤ x)
  | none => false

def atLeast (v : Option Int) (x : Int) : Bool :=
  match v with
  | some a => decide (x ≤ a)
  | none => false

def Chip.setCycle (s : Cycle) (c : Chip) : Chip := c.mapTrk fun t => { t with cycle := s }

/-! ## The pass context (R27) -/

/-- A pass context at its opening (R30, R39). -/
def PassCtx.open_ (kind : PassKind) (start : Tick) : PassCtx where
  kind := kind
  stage := .candidate
  start := start
  reweigh := 0
  idx := none
  grade := none
  bins := 0
  payload := none
  fill := none
  negative := false
  overFlag := false
  amendMade := false

/-- A pass made UNWEIGHED without a result: REJECT, 0 bins, no payload, no fill (R32, R34, R35, R41). -/
def PassCtx.unweigh (x : PassCtx) : PassCtx :=
  { x with stage := .unweighed, grade := some .reject, bins := 0, payload := none, fill := none
           negative := false, overFlag := false }

/-- The window result enters the context (R25, R33). -/
def PassCtx.takeResult (w : WindowResult) (x : PassCtx) : PassCtx :=
  { x with
    stage := if w.grade = .reject then .unweighed else .weighed
    idx := some w.idx
    grade := some w.grade
    bins := w.bins
    payload := w.payload
    fill := w.fill
    negative := w.negative
    overFlag := w.overFlag }

def Tracker.mapCtx (f : PassCtx → PassCtx) (t : Tracker) : Tracker := { t with ctx := t.ctx.map f }

def Tracker.isUnweighed (t : Tracker) : Bool :=
  match t.ctx with
  | some x => x.stage == .unweighed
  | none => false

/-- The pass in flight ends and every tracker timer stops. -/
def Tracker.endPass (t : Tracker) : Tracker :=
  { t with ctx := none, fillTimer := none, carryTimer := none, lossPressure := none, lossAngle := none }

/-! ## Commit (R41-R43) -/

/-- The cycle time: the age of the start tick over 100, halves up, saturating (R41 step 3). -/
def cycleTime (now start : Tick) : Nat := min 65535 (roundDiv (age now start) 100).toNat

/-- The pass record of a context at its commit; its truck id and number are the load register's (R41, Table 2-5). -/
def PassCtx.record (now : Tick) (x : PassCtx) : PassRec :=
  let x := if x.stage = .candidate then x.unweigh else x
  { truckId := 0
    number := 0
    kind := x.kind
    payload := x.payload
    grade := x.grade.getD .reject
    bins := x.bins
    reweigh := x.reweigh
    cycleTime := cycleTime now x.start
    fill := x.fill
    negative := x.negative
    overFlag := x.overFlag
    amended := false
    unamended := x.kind == .remainder && !x.amendMade }

/-- A SHADOW pass: the mirror's truck id, and one above its pass count (R42); the record that stands open is taken for
the mirror whatever its origin (log 40). -/
def Chip.shadowPass (p : PassRec) (c : Chip) : PassRec :=
  match c.load.record with
  | some r => { p with truckId := r.id, number := satAdd 255 r.count 1 }
  | none => { p with truckId := 0, number := 1 }

/-- The destination of a committed pass is RECORD (Table 2-6). -/
def Chip.destRecord (c : Chip) : Bool := c.ownsRecord

/-- The pass goes to its destination (R42); the pass as numbered, and the part after it. -/
def Chip.deliverPass (p : PassRec) (c : Chip) : PassRec × Chip :=
  if c.destRecord then c.joinRecord p
  else (c.shadowPass p, c.shadowCommitted p.payload)

/-- A WEIGHED pass above the pass-over limit in force (R43). -/
def Cfg.overfilled (cfg : Cfg) (p : PassRec) : Bool :=
  match p.payload, p.fill with
  | some _, some f => cfg.passOver < f
  | _, _ => false

/-- The commit of a pass record: counters, BEEP, destination, PASS OVER, last pass, note (R41-R43, log 9). -/
def Chip.commitPass (p : PassRec) (c : Chip) : Chip :=
  let isRecord := c.destRecord
  let c := (c.mapLoad (LoadRegister.countCommit p.kind p.payload)).beepEvent .beep
  let (p', c) := c.deliverPass p
  let c := if c.cfg.overfilled p' then c.pulsePassOver else c
  (c.mapPanel fun q => { q with lastPass := some p' }).mapTrk fun t => { t with note := some ⟨isRecord, p', false⟩ }

/-- Entry to DUMP: the pass in flight is committed, the context and its timers end (R36, R41). The tilt that leads here
is at or below the dump angle, so the test of the tilt at entry to DUMP never moves on (R38, log 10). -/
def Chip.enterDump (c : Chip) : Chip :=
  let x := c.trk.ctx
  let c := (c.mapTrk Tracker.endPass).setCycle .dump
  match x with
  | some x => c.commitPass (x.record c.tick)
  | none => c

/-! ## Entering IDLE, FILL, LIFT, RETURN (R30, R31, R38) -/

/-- Entry to LIFT, with its level test of the dump tilt (R28, R32). -/
def Chip.enterLift (c : Chip) : Chip :=
  let c := c.mapTrk fun t => { t with cycle := .lift, fillTimer := none }
  if atMost c.freshTilt c.cfg.dumpAngle then c.enterDump else c

/-- Entry to FILL with a NORMAL context, and its level test of the rack-back tilt (R30, R31). -/
def Chip.enterFill (c : Chip) : Chip :=
  let c := c.mapTrk fun t =>
    { t with cycle := .fill, ctx := some (PassCtx.open_ .normal c.tick), fillTimer := none }
  if atLeast c.freshTilt c.cfg.rackAngle then c.enterLift else c

/-- The level of R30: dig pressure reached with the primary angle FRESH and below θs; a WEIGHER's tracker only (R29). -/
def Chip.digs (ph : Nat) (c : Chip) : Bool :=
  c.isWeigher && decide (c.cfg.digPressure ≤ ph) && below c.freshAngle c.cfg.thetaS

/-- Entry to IDLE, with the level test of R30 against the held pressure. -/
def Chip.enterIdle (c : Chip) : Chip :=
  let c := c.mapTrk fun t => { t.endPass with cycle := .idle, racked := false }
  match c.freshPressure with
  | some v => if c.digs v.ph then c.enterFill else c
  | none => c

/-- The racked note at a tilt (R38); a tilt that meets both conditions clears it (log 27). -/
def Chip.rackedAfter (tilt : Int) (c : Chip) : Bool :=
  if tilt ≤ c.cfg.dumpAngle then false
  else if c.cfg.rackAngle ≤ tilt && atLeast c.inp.held.primary c.cfg.digAngle then true
  else c.trk.racked

def Chip.testRacked (tilt : Int) (c : Chip) : Chip := c.mapTrk fun t => { t with racked := c.rackedAfter tilt }

/-- Entry to RETURN clears the racked note, then tests the held tilt and angle as for an arrival (R38). -/
def Chip.enterReturn (c : Chip) : Chip :=
  let c := c.mapTrk fun t => { t.endPass with cycle := .ret, racked := false }
  let c := match c.freshTilt with
    | some tilt => c.testRacked tilt
    | none => c
  if below c.freshAngle c.cfg.digAngle then c.enterIdle else c

/-! ## Voids (R47) -/

inductive VoidReason where
  | returned | carryTimeout | empty | inputLoss | power | restart
  deriving DecidableEq, Repr

/-- The void counter of a reason rises by one, saturating (R47). -/
def Voids.raise (r : VoidReason) (v : Voids) : Voids :=
  match r with
  | .returned => { v with returned := bump v.returned }
  | .carryTimeout => { v with carryTimeout := bump v.carryTimeout }
  | .empty => { v with empty := bump v.empty }
  | .inputLoss => { v with inputLoss := bump v.inputLoss }
  | .power => { v with power := bump v.power }
  | .restart => { v with restart := bump v.restart }

/-- The window is shut without result where the tracker is in WEIGH (R5, R47 step 1). -/
def Chip.shutIfWeigh (c : Chip) : Chip := if c.trk.cycle = .weigh then c.mapEng Engine.shut else c

/-- Steps 1 to 4 of a void (R47). -/
def Chip.voidPass (r : VoidReason) (c : Chip) : Chip :=
  c.shutIfWeigh.mapTrk fun t => { t.endPass with voids := t.voids.raise r }

/-- A pass in LIFT, WEIGH or CARRY. -/
def Tracker.inFlight (t : Tracker) : Bool := t.cycle == .lift || t.cycle == .weigh || t.cycle == .carry

/-! ## WEIGH and CARRY (R32-R35, R44, R45) -/

/-- Entry to WEIGH: the open request; the latched index is written into the context. The dump tilt is tested at the
entry (R2, R28, R32, R39). -/
def Chip.enterWeigh (c : Chip) : Chip :=
  let idx := c.panel.settings.curveSet
  let c := c.mapEng fun _ => Engine.openWindow c.cfg idx c.store.curves[idx]
  let c := c.mapTrk fun t => { t.mapCtx (fun x => { x with idx := some idx }) with cycle := .weigh, racked := false }
  if atMost c.freshTilt c.cfg.dumpAngle then
    ((c.mapEng Engine.shut).mapTrk (Tracker.mapCtx PassCtx.unweigh)).enterDump
  else c

/-- The amended pass of R45 steps 1 and 2. -/
def PassRec.amend (removed rated : Nat) (p : PassRec) : PassRec :=
  { p with payload := p.payload.map (· - removed)
           fill := p.payload.map fun m => fillOf (m - removed) rated
           amended := true }

/-- Attempt the amendment of the previous pass by a remainder of R (R45, R46). -/
def Chip.amend (r : Nat) (c : Chip) : Chip :=
  match c.trk.note with
  | none => c
  | some n =>
    match n.pass.payload, n.amended with
    | some prev, false =>
      let removed := min prev r
      let p := n.pass.amend removed c.cfg.rated
      let c := c.mapLoad (LoadRegister.lowerTonnage removed)
      let c := if n.isRecord then c.amendRecord p removed else c
      c.mapTrk fun t =>
        { t.mapCtx (fun x => { x with amendMade := true }) with note := some { n with pass := p, amended := true } }
    | _, _ => c

/-- The remainder rules at an entry to CARRY (R44); the answer says whether the pass was voided EMPTY. -/
def Chip.emptyRemainder (c : Chip) : Bool :=
  match c.trk.ctx with
  | some x =>
    match x.kind, x.payload with
    | .remainder, some r => decide (r < c.cfg.residual)
    | _, _ => false
  | none => false

def Chip.judgeRemainder (c : Chip) : Chip :=
  match c.trk.ctx with
  | some x =>
    match x.kind, x.payload with
    | .remainder, some r => c.amend r
    | _, _ => c
  | none => c

/-- Entry to CARRY: the CARRY timer starts, a REMAINDER is judged, then the dump tilt and the dig angle are tested
(R33, R36, R37, R44, log 27). -/
def Chip.enterCarry (c : Chip) : Chip :=
  let c := c.mapTrk fun t => { t with cycle := .carry, carryTimer := some c.tick }
  if c.emptyRemainder then (c.voidPass .empty).enterReturn
  else
    let c := c.judgeRemainder
    if atMost c.freshTilt c.cfg.dumpAngle then c.enterDump
    else if below c.freshAngle c.cfg.digAngle then (c.voidPass .returned).enterIdle
    else c

/-- θe is crossed in WEIGH: the close request, its result into the context, CARRY (R33). -/
def Chip.closeWindow (c : Chip) : Chip :=
  let (w, e) := c.eng.close c.cfg c.panel.settings.trim
  ({ c with eng := e }.mapTrk (Tracker.mapCtx (PassCtx.takeResult w))).enterCarry

/-- θe is crossed in LIFT: CARRY with no window request; a pass that is not WEIGHED becomes UNWEIGHED (R32). -/
def Chip.carryUnweighed (c : Chip) : Chip :=
  (c.mapTrk (Tracker.mapCtx fun x => if x.stage = .weighed then x else x.unweigh)).enterCarry

/-- An abandonment: the reweigh count rises; at 3 the pass is UNWEIGHED; back to LIFT (R34). -/
def PassCtx.abandon (x : PassCtx) : PassCtx :=
  let x := { x with reweigh := satAdd 3 x.reweigh 1 }
  if 3 ≤ x.reweigh then x.unweigh else x

def Chip.abandonWindow (c : Chip) : Chip :=
  ((c.mapEng Engine.shut).mapTrk (Tracker.mapCtx PassCtx.abandon)).enterLift

/-! ## Angle arrivals (R28, R32-R34, R37-R39) -/

/-- θs and θe as the tracker uses them in WEIGH: those latched (R28). -/
def Chip.latchedWindow (c : Chip) : Int × Int :=
  match c.eng.latched with
  | some l => (l.geom.thetaS, l.geom.thetaE)
  | none => (c.cfg.thetaS, c.cfg.thetaE)

/-- θs is crossed into WEIGH; the same arrival may cross θe there, the lowest threshold first: a θe below θs was crossed
before the window opened (R28, R32). -/
def Chip.openAndCross (prev : Option Int) (theta : Int) (c : Chip) : Chip :=
  let c := c.enterWeigh
  if c.trk.cycle = .weigh && decide (c.latchedWindow.1 ≤ c.latchedWindow.2) && crossesUp prev theta c.latchedWindow.2 then
    c.closeWindow
  else c

/-- An angle arrival in LIFT: crossings lowest threshold first (R28, R32, log 27). -/
def Chip.angleInLift (prev : Option Int) (theta : Int) (c : Chip) : Chip :=
  let s := !c.trk.isUnweighed && crossesUp prev theta c.cfg.thetaS
  let e := crossesUp prev theta c.cfg.thetaE
  if s && !(e && decide (c.cfg.thetaE < c.cfg.thetaS)) then c.openAndCross prev theta
  else if e then c.carryUnweighed
  else c

/-- An angle arrival in RETURN: below the dig angle to IDLE, else a racked crossing of θs opens a REMAINDER (R38, R39,
log 27). -/
def Chip.angleInReturn (prev : Option Int) (theta : Int) (c : Chip) : Chip :=
  if theta < c.cfg.digAngle then c.enterIdle
  else if c.trk.racked && crossesUp prev theta c.cfg.thetaS then
    (c.mapTrk fun t => { t with ctx := some (PassCtx.open_ .remainder c.tick) }).openAndCross prev theta
  else c

/-- An angle arrival in WEIGH: θe crossed, or below θs (R33, R34). Where the crossing of θe ends in RETURN, as a void EMPTY
does, a θs not below that θe is crossed after it and is tested there (R28); it can stand so when a new configuration has come
into force since the window opened. A pass that the level tests at θ itself newly open has no crossing left (log 27). -/
def Chip.angleInWeigh (prev : Option Int) (theta : Int) (c : Chip) : Chip :=
  if crossesUp prev theta c.latchedWindow.2 then
    let c' := c.closeWindow
    if c'.trk.cycle = .ret && decide (c.latchedWindow.2 ≤ c'.cfg.thetaS) then c'.angleInReturn prev theta else c'
  else if theta < c.latchedWindow.1 then c.abandonWindow
  else c

/-- A usable primary angle arrival by cycle state (Table 2-4). -/
def Chip.angleTransition (prev : Option Int) (theta : Int) (c : Chip) : Chip :=
  match c.trk.cycle with
  | .lift => c.angleInLift prev theta
  | .weigh => c.angleInWeigh prev theta
  | .carry => if theta < c.cfg.digAngle then (c.voidPass .returned).enterIdle else c
  | .ret => c.angleInReturn prev theta
  | .idle | .fill | .dump | .suspended => c

/-! ## Input loss (R40) -/

/-- An input-loss timer as the state asks for it: it runs in WEIGH and CARRY while its channel is not FRESH. -/
def lossTimer (runs fresh : Bool) (now : Tick) (t : Option Tick) : Option Tick :=
  if !runs || fresh then none
  else
    match t with
    | some since => some since
    | none => some now

/-- Bring the input-loss timers to the state and the freshness that an event leaves (R40). -/
def Chip.syncLoss (c : Chip) : Chip :=
  let runs := c.trk.cycle == .weigh || c.trk.cycle == .carry
  c.mapTrk fun t =>
    { t with
      lossPressure := lossTimer runs (c.inp.pressure.freshness == .fresh) c.tick t.lossPressure
      lossAngle := lossTimer runs (c.inp.primary.freshness == .fresh) c.tick t.lossAngle }

/-- INPUT_LOSS_TIMER_EXPIRY: the pass is voided INPUT LOSS (R40). -/
def Chip.inputLossExpiry (side : LossSide) (c : Chip) : Chip :=
  let t := match side with
    | .pressure => c.trk.lossPressure
    | .angle => c.trk.lossAngle
  if due 500 t c.tick then ((c.voidPass .inputLoss).enterIdle).settleLink else c

/-! ## Arrivals handed to the tracker (R28, R63) -/

/-- A primary angle arrival: a usable one is taken and becomes the previous value (R28); in SUSPENDED none is taken
(R48), and a REPEATER's tracker leaves IDLE at none (R29). -/
def Chip.trackAngle (status : ArrStatus) (c : Chip) : Chip :=
  match status, c.inp.held.primary with
  | .ok, some theta =>
    if c.trk.cycle = .suspended then c
    else
      let prev := c.trk.prevAngle
      let c := c.mapTrk fun t => { t with prevAngle := some theta }
      if c.isWeigher then c.angleTransition prev theta else c
  | _, _ => c

/-- The FILL empty timer at a pressure (R31). -/
def Chip.fillTimerAfter (ph : Nat) (c : Chip) : Option Tick :=
  if ph + 2000 < c.cfg.digPressure then
    match c.trk.fillTimer with
    | some t => some t
    | none => some c.tick
  else none

/-- A pressure arrival: the dig in IDLE, the empty timer in FILL (R30, R31). -/
def Chip.trackPressure (status : ArrStatus) (c : Chip) : Chip :=
  match status, c.inp.held.pressure with
  | .ok, some v =>
    match c.trk.cycle with
    | .idle => if c.digs v.ph then c.enterFill else c
    | .fill => c.mapTrk fun t => { t with fillTimer := c.fillTimerAfter v.ph }
    | .lift | .weigh | .carry | .dump | .ret | .suspended => c
  | _, _ => c

/-- A tilt arrival by cycle state (R31, R32, R35, R36, R38). -/
def Chip.trackTilt (status : ArrStatus) (c : Chip) : Chip :=
  match status, c.inp.held.tilt with
  | .ok, some tilt =>
    match c.trk.cycle with
    | .fill => if c.cfg.rackAngle ≤ tilt then c.enterLift else c
    | .lift => if tilt ≤ c.cfg.dumpAngle then c.enterDump else c
    | .weigh =>
      if tilt ≤ c.cfg.dumpAngle then
        ((c.mapEng Engine.shut).mapTrk (Tracker.mapCtx PassCtx.unweigh)).enterDump
      else c
    | .carry => if tilt ≤ c.cfg.dumpAngle then c.enterDump else c
    | .dump => if c.cfg.dumpAngle + 200 ≤ tilt then c.enterReturn else c
    | .ret => c.testRacked tilt
    | .idle | .suspended => c
  | _, _ => c

/-- FILL_EMPTY_TIMER_EXPIRY: back to IDLE, the context discarded without a void (R31). -/
def Chip.fillEmptyExpiry (c : Chip) : Chip :=
  if due 2000 c.trk.fillTimer c.tick then c.enterIdle.settleLink else c

/-- CARRY_TIMER_EXPIRY: the pass is voided CARRY TIMEOUT (R37). -/
def Chip.carryExpiry (c : Chip) : Chip :=
  if due 120000 c.trk.carryTimer c.tick then ((c.voidPass .carryTimeout).enterIdle).settleLink else c

/-! ## Suspension, starts, change of role (R26, R48, R120) -/

/-- The pass in flight at an entry to SUSPENDED: voided POWER in LIFT, WEIGH or CARRY, discarded in FILL; every timer
stops (R48). -/
def Chip.suspendPass (c : Chip) : Chip :=
  if c.trk.cycle = .suspended then c
  else
    let c := if c.trk.inFlight then c.voidPass .power else c.mapTrk Tracker.endPass
    c.mapTrk fun t => { t with cycle := .suspended, racked := false }

/-- The POWER reason arises (R48). -/
def Chip.suspendPower (c : Chip) : Chip := c.suspendPass.mapTrk fun t => { t with suspPower := true }

/-- The CAL reason arises (R48). -/
def Chip.suspendCal (c : Chip) : Chip := c.suspendPass.mapTrk fun t => { t with suspCal := true }

/-- With the last reason removed the tracker enters IDLE and tests its level (R48). -/
def Chip.unsuspend (c : Chip) : Chip :=
  if c.trk.suspCal || c.trk.suspPower then c else c.enterIdle

/-- The CAL reason is removed when calibration is left (R48). -/
def Chip.removeCal (c : Chip) : Chip := (c.mapTrk fun t => { t with suspCal := false }).unsuspend

/-- The RESUME start: POWER removed, the previous angle and the note forgotten (Table 2-2). -/
def Chip.resumeTracker (c : Chip) : Chip :=
  (c.mapTrk fun t => { t with suspPower := false, prevAngle := none, note := none }).unsuspend

/-- The tracker after a LINE start: a pass in LIFT, WEIGH or CARRY is voided RESTART, void counters are kept (R26). -/
def Tracker.line (t : Tracker) : Tracker :=
  { Tracker.start with voids := if t.inFlight then t.voids.raise .restart else t.voids }

/-- A change of the configured role to REPEATER: a pass in LIFT, WEIGH or CARRY is voided RESTART, a context in FILL is
discarded, and the tracker stays in IDLE (R120). -/
def Chip.restartTracker (c : Chip) : Chip :=
  let c := if c.trk.inFlight then c.voidPass .restart else c
  if c.trk.cycle = .suspended then c
  else c.mapTrk fun t => { t.endPass with cycle := .idle, racked := false }

end Sys2Proof.Machine
end

