-- ==== Sys2Proof/Machine/Calib.lean ====
section
/-! DEFINITION. The calibration unit (chapter 5): entry, selection, lifts, review, the curve write and its completion,
leaving. -/

namespace Sys2Proof.Machine

/-! ## Entry and leaving (R89, R90, R101) -/

/-- The conditions of an entry request (R89). -/
def Chip.mayCalibrate (c : Chip) : Bool :=
  c.cal.state == .out && c.inRun && c.trk.cycle == .idle && c.isWeigher
    && (c.role.state == .active || c.role.state == .standby) && c.store.window.isNone

/-- The unit's own items at an accepted entry (R90 steps 3 and 4). -/
def CalUnit.enter (set : Fin 4) (s : CurveSet) (prev : Option Int) (u : CalUnit) : CalUnit :=
  { u with
    state := .select, target := set, mass := if s.valid then s.mref else 1000, onMass := false, geom := none
    accepted := 0, keptEmpty := [], keptLoaded := [], outcome := none, curves := none, failure := none
    prevAngle := prev, liftOpen := false, lastRefused := none }

/-- Calibration is entered (R90); the CAL page replaces the page shown (R137). -/
def Chip.enterCal (c : Chip) : Chip :=
  let c := c.suspendCal.takeCalibrating
  let set := c.panel.settings.curveSet
  let c := c.mapCal (CalUnit.enter set c.store.curves[set] c.inp.held.primary)
  c.stopPoll.mapPanel fun p => { p with page := .cal }

/-- The "CAL–BUSY" message: 2000 ms from the request (R89, R142). -/
def Chip.showBusy (c : Chip) : Chip := c.mapPanel fun p => { p with message := some c.tick }

/-- A MODE long press of a hold whose press was taken with calibration OUT (R89). -/
def Chip.requestCal (c : Chip) : Chip := if c.mayCalibrate then c.enterCal else c.showBusy

/-- Calibration is left (R101); in HOLD or DOZE the kept page becomes RUN. -/
def Chip.leaveCal (c : Chip) : Chip :=
  let c := c.mapCal fun u => { u with state := .out, liftOpen := false }
  let c := c.takeListen.removeCal
  c.mapPanel fun p => if c.inRun then { p with page := .run } else { p with keptPage := .run }

/-! ## Selection (R91, R92) -/

/-- A step of the field being edited, held at its limits (Table 5-4). -/
def CalUnit.step (up : Bool) (u : CalUnit) : CalUnit :=
  if u.onMass then { u with mass := clampNat 100 5000 (if up then u.mass + 1 else u.mass - 1) }
  else { u with target := Fin.ofNat 4 (if up then min 3 (u.target.val + 1) else u.target.val - 1) }

/-- ENTER on the MASS field latches the geometry: CAL-EMPTY, or CAL-FAILED with GEOMETRY (R92). -/
def CalUnit.endSelection (g : Geom) (u : CalUnit) : CalUnit :=
  if g.usable then
    { u with geom := some g, accepted := 0, keptEmpty := [], outcome := none, state := .empty, liftOpen := false }
  else { u with geom := some g, failure := some .geometry, state := .failed }

/-! ## Lifts (R93-R95) -/

def CalUnit.clearPoints (u : CalUnit) : CalUnit := { u with points := Vector.replicate 16 ⟨0, 0⟩ }

def CalUnit.inPhase (u : CalUnit) : Bool := u.state == .empty || u.state == .loaded

/-- The lift is judged: INCOMPLETE, SETTLING or KEPT (R95). -/
def CalUnit.judge (u : CalUnit) : CalUnit :=
  let v := u.points.map fun p => roundDiv p.sum p.count
  let u' := { u.clearPoints with liftOpen := false, lastRefused := some u.refused }
  if u.points.toList.any (fun p => p.count < 2) then { u' with outcome := some .incomplete }
  else if u.accepted = 0 then { u' with accepted := 1, outcome := some .settling }
  else
    let u' := { u' with accepted := u.accepted + 1, outcome := some .kept }
    if u.state = .loaded then { u' with keptLoaded := u.keptLoaded ++ [v] }
    else { u' with keptEmpty := u.keptEmpty ++ [v] }

/-- A usable primary arrival while a lift is open (Table 5-5). -/
def CalUnit.boundary (g : Geom) (theta : Int) (u : CalUnit) : CalUnit :=
  if g.thetaE < theta then u.judge
  else if theta < g.thetaS then { u.clearPoints with liftOpen := false, outcome := some .abandoned }
  else u

/-- A usable primary arrival (R93): it opens, ends or abandons a lift in a phase, and becomes the previous angle. -/
def CalUnit.angle (theta : Int) (u : CalUnit) : CalUnit :=
  let u' :=
    match u.inPhase, u.geom with
    | true, some g =>
      if u.liftOpen then u.boundary g theta
      else if u.accepted < 4 && crossesUp u.prevAngle theta g.thetaS then
        { u.clearPoints with liftOpen := true, refused := 0 }.boundary g theta
      else u
    | _, _ => u
  { u' with prevAngle := some theta }

/-- The point of a sample: k when r is below Δθ/2, k + 1 otherwise (R94 step 3). -/
def Geom.point (g : Geom) (theta : Int) : Fin 16 :=
  if 2 * g.remainder theta < g.step then (g.segment theta).castSucc else (g.segment theta).succ

/-- A gated sample enters its point, or is refused where the point is full (R94 steps 3 to 5). -/
def CalUnit.accumulate (g : Geom) (theta : Int) (v : PressureVal) (u : CalUnit) : CalUnit :=
  let k := g.point theta
  let p := u.points[k]
  if 255 ≤ p.count then { u with refused := bump u.refused }
  else { u with points := u.points.set k ⟨p.sum + g.force v, p.count + 1⟩ }

/-- A sample event while a lift is open (R94). -/
def CalUnit.sample (cfg : Cfg) (t : InputTable) (now : Tick) (u : CalUnit) : CalUnit :=
  match u.liftOpen, u.geom, t.selected with
  | true, some g, some (r, theta) =>
    if g.thetaS ≤ theta ∧ theta ≤ g.thetaE then
      match gate cfg t r now, t.held.pressure with
      | none, some v => u.accumulate g theta v
      | _, _ => { u with refused := bump u.refused }
    else u
  | _, _, _ => u

/-! ## Advancing and review (R96, R97) -/

/-- The mean of the kept point values at a point (R97). -/
def meanAt (ls : List (Vector Int 16)) (k : Fin 16) : Int := roundDiv (ls.map fun v => v[k]).sum ls.length

def curveOf (ls : List (Vector Int 16)) : Vector Int 16 := Vector.ofFn (meanAt ls)

/-- The largest less the smallest of a list. -/
def rangeOf : List Int → Int
  | [] => 0
  | x :: xs => xs.foldl max x - xs.foldl min x

/-- The lowest point at which a test fails. -/
def firstPoint (bad : Fin 16 → Bool) : Option Nat := ((List.finRange 16).find? bad).map Fin.val

/-- The kept lifts of a phase differ at a point by more than the spread limit (Table 5-6 tests 1 and 2). -/
def inconsistentAt (spread : Int) (ls : List (Vector Int 16)) : Option Nat :=
  firstPoint fun k => decide (spread < rangeOf (ls.map fun v => v[k]))

/-- The first failure of the review tests (Table 5-6). -/
def reviewFailure (cfg : Cfg) (u : CalUnit) : Option CalFailure :=
  match inconsistentAt cfg.spread u.keptEmpty with
  | some k => some (.inconsistent false k)
  | none =>
    match inconsistentAt cfg.spread u.keptLoaded with
    | some k => some (.inconsistent true k)
    | none =>
      match firstPoint fun k => decide ((curveOf u.keptLoaded)[k] - (curveOf u.keptEmpty)[k] < 100) with
      | some k => some (.span k)
      | none => if u.target.val < cfg.protect then none else some .isProtected

/-- CAL-LOADED is left by ENTER (R97). -/
def CalUnit.review (cfg : Cfg) (u : CalUnit) : CalUnit :=
  match reviewFailure cfg u with
  | some f => { u with curves := none, failure := some f, state := .failed }
  | none => { u with curves := some (curveOf u.keptEmpty, curveOf u.keptLoaded), browse := 0, state := .review }

/-- The kept lifts of the phase in force. -/
def CalUnit.keptCount (u : CalUnit) : Nat := if u.state = .loaded then u.keptLoaded.length else u.keptEmpty.length

/-- ENTER in a phase with at least 2 kept lifts (R96); the refused count of the last lift ended stays (Table 5-7, log 24). -/
def CalUnit.advance (cfg : Cfg) (u : CalUnit) : CalUnit :=
  let u := { u.clearPoints with liftOpen := false }
  if u.state = .empty then
    { u with accepted := 0, keptLoaded := [], outcome := none, state := .loaded }
  else u.review cfg

/-! ## The curve write (R98, R99) -/

/-- ENTER in CAL-REVIEW: the CURVE request, and CAL-WRITING (R98); a set that is protected would not be placed (R166). -/
def Chip.requestCurve (c : Chip) : Chip :=
  match c.cal.curves with
  | none => c
  | some (e, l) =>
    if c.cal.target.val < c.cfg.protect then
      (c.mapStore (ParamStore.askCurve c.cal.target ⟨c.cal.mass, e, l, true⟩ c.tick)).mapCal
        fun u => { u with state := .writing }
    else c.mapCal fun u => { u with curves := none, failure := some .isProtected, state := .failed }

/-- The completion of a curve write: the working copy becomes the new set; a calibration in CAL-WRITING goes to CAL-DONE, or
in HOLD or DOZE straight out (R99, R102). R102 and R120 name no PEEK: that a write which completes there ends the calibration
the same way, with LISTEN as the resume role and RUN as the kept page, is log 56. -/
def Chip.curveWritten (i : Fin 4) (s : CurveSet) (c : Chip) : Chip :=
  let c := c.mapStore fun p => { p with curves := p.curves.set i s }
  let c := if c.cal.state = .writing then
      if c.inRun then c.mapCal fun u => { u with state := .done } else c.leaveCal
    else c
  c.refresh .calInvalid

/-- The completion is handed to the requesting block (R165). -/
def Chip.handCompletion (w : WriteReq) (c : Chip) : Chip :=
  match w with
  | .config _ => c.answerCommits
  | .curve i s => c.curveWritten i s
  | .retain _ => c

/-- STORE_WRITE_COMPLETE (R165): the array, the completion, then the next pending slot. While the part is held by RESET
the write completes and nothing else follows (R168, R176, log 21). -/
def Chip.storeWriteComplete (c : Chip) : Chip :=
  match c.store.writing with
  | none => c
  | some (w, _) =>
    if c.store.writeDue c.tick then
      let c := c.mapStore ParamStore.finishWrite
      match c.sup.life with
      | .up => ((c.handCompletion w).mapStore (ParamStore.kick c.tick)).settleLink
      | .held | .linePending | .off => c
    else c

/-! ## Keys (R91, R96, R98, R100) -/

/-- UP or DOWN, as a press or a repeat step (Table 8-4, R91, R98). -/
def Chip.calUpDown (up : Bool) (c : Chip) : Chip :=
  match c.cal.state with
  | .select => c.mapCal (CalUnit.step up)
  | .review => c.mapCal fun u => { u with browse := if up then min 15 (u.browse + 1) else u.browse - 1 }
  | .out | .empty | .loaded | .writing | .done | .failed => c

/-- ENTER (R91, R92, R96, R98). -/
def Chip.calEnter (c : Chip) : Chip :=
  match c.cal.state with
  | .select =>
    if c.cal.onMass then c.mapCal (CalUnit.endSelection c.cfg.geom) else c.mapCal fun u => { u with onMass := true }
  | .empty | .loaded => if 2 ≤ c.cal.keptCount then c.mapCal (CalUnit.advance c.cfg) else c
  | .review => c.requestCurve
  | .out | .writing | .done | .failed => c

/-- MODE: aborts or leaves calibration (R100); ignored in CAL-WRITING (R99). -/
def Chip.calMode (c : Chip) : Chip :=
  match c.cal.state with
  | .select | .empty | .loaded | .review | .done | .failed => c.leaveCal
  | .writing | .out => c

/-- A press handed to the calibration unit (R136). -/
def Chip.calPress (k : Key) (c : Chip) : Chip :=
  match k with
  | .mode => c.calMode
  | .up => c.calUpDown true
  | .down => c.calUpDown false
  | .enter => c.calEnter

/-! ## Power states (R88, R102) -/

/-- Entry to HOLD or DOZE: a calibration other than CAL-WRITING is left (R102). -/
def Chip.suspendCalibration (c : Chip) : Chip :=
  match c.cal.state with
  | .out | .writing => c
  | .select | .empty | .loaded | .review | .done | .failed => c.leaveCal

/-- The RESUME column of Table 5-3. -/
def CalUnit.resume (u : CalUnit) : CalUnit :=
  { u.clearPoints with state := if u.state = .writing then .writing else .out
                       prevAngle := none, liftOpen := false, refused := 0 }

end Sys2Proof.Machine
end

