-- ==== Sys2Proof/Machine/Panel.lean ====
section
/-! DEFINITION. The operator panel (chapter 8) but for routing and the image: backlight, debounce, the key decoder, and
what the starts and power states leave. -/

namespace Sys2Proof.Machine

/-! ## Backlight (R144) -/

/-- The night level is chosen while the drive channel is FRESH with its lights flag set (R144). -/
def Chip.nightChosen (c : Chip) : Bool :=
  c.inp.drive.freshness == .fresh &&
    match c.inp.held.drive with
    | some v => v.lights
    | none => false

/-- The level chosen: in RUN by the drive channel, in PEEK the day level (R144). -/
def Chip.chosenLevel (c : Chip) : Nat :=
  if c.inRun && c.nightChosen then c.panel.settings.night else c.panel.settings.day

/-- The shadow is written with the level chosen in RUN and PEEK (R144). -/
def Chip.writeShadow (c : Chip) : Chip :=
  match c.sup.power with
  | .run | .peek => c.mapPanel fun p => { p with shadow := c.chosenLevel }
  | .hold | .doze => c

/-- BKL_PERIOD_START: the level in force is taken from the shadow; in HOLD and DOZE the output stays low (R144). -/
def Chip.bklPeriodStart (c : Chip) : Chip :=
  if due 5 c.panel.bklTimer c.tick then
    match c.sup.power with
    | .run | .peek => c.mapPanel fun p => { p with bklLevel := p.shadow, bklTimer := some c.tick }
    | .hold | .doze => c.mapPanel fun p => { p with bklLevel := 0, bklTimer := some c.tick }
  else c

/-! ## Debounce (R132) -/

/-- The key lines are watched: not in HOLD, and in DOZE only with key wake enabled (R132). -/
def Chip.watchesKeys (c : Chip) : Bool :=
  match c.sup.power with
  | .run | .peek => true
  | .hold => false
  | .doze => c.cfg.keyWake

/-- Every debounced key is up. -/
def allUp (k : PerKey KeyDeb) : Bool := !k.mode.down && !k.up.down && !k.down.down && !k.enter.down

/-- A debounced key at its line level, its timer stopped (R132, Table 8-1). -/
def KeyDeb.atLine (low : Bool) : KeyDeb := ⟨low, none⟩

/-- AWAIT RELEASE, left for READY at once where every key is up (R133). -/
def awaitRelease (k : PerKey KeyDeb) : Decoder := if allUp k then .ready else .awaitRelease

/-- The decoder enters AWAIT RELEASE with the keys as they are debounced. -/
def Panel.await (p : Panel) : Panel := { p with decoder := awaitRelease p.keys }

/-- Each key takes the level of its line, its timer stopped (R132). -/
def Panel.takeLines (lines : PerKey Bool) (p : Panel) : Panel := { p with keys := lines.map KeyDeb.atLine }

/-- The lines are no longer watched: the debounce timers stop. -/
def Panel.unwatch (p : Panel) : Panel := { p with keys := p.keys.map fun k => { k with timer := none } }

/-- KEY_LINE_CHANGE: a changed level starts the key's debounce timer, a return to the debounced level stops it (R132). -/
def Chip.keyLineChange (k : Key) (low : Bool) (c : Chip) : Chip :=
  if c.pins.keys.get k = low then c
  else
    let live := c.sup.life == .up && c.watchesKeys
    let c := { c with pins := { c.pins with keys := c.pins.keys.set k low } }
    if live then
      c.mapPanel fun p =>
        let d := p.keys.get k
        { p with keys := p.keys.set k { d with timer := if d.down = low then none else some c.tick } }
    else c

/-! ## The decoder (R133) -/

/-- A debounced key change registers a press only in READY; in HELD it goes to CHORD (Table 8-3). -/
def Decoder.press (h : Hold) : Decoder → Decoder
  | .awaitRelease => .awaitRelease
  | .ready => .held h
  | .held _ => .chord
  | .chord => .chord

/-- A key release (Table 8-3). -/
def Decoder.release (k : Key) (up : Bool) : Decoder → Decoder
  | .awaitRelease => if up then .ready else .awaitRelease
  | .ready => .ready
  | .held h => if h.key = k then .ready else .held h
  | .chord => if up then .ready else .chord

/-! ## Power states and starts (R131, R147, Table 8-1) -/

/-- Entry to HOLD or DOZE: BKL low at once, the buzzer silent and empty (R144, R146, R147). -/
def Panel.darken (p : Panel) : Panel := { p with bklLevel := 0, buz := Buzzer.silent }

/-- The page at an entry from RUN becomes the kept page (R147). -/
def Panel.keepPage (p : Panel) : Panel := { p with keptPage := p.page }

/-- The decoder and the debounced keys at an entry to DOZE: watched with key wake from AWAIT RELEASE, taking their line
levels where they were not watched before (R132, R147). With key wake disabled the spec gives the decoder no state; it stands
in AWAIT RELEASE, also with every debounced key up (log 55). -/
def Panel.dozeKeys (watched wasWatched : Bool) (lines : PerKey Bool) (p : Panel) : Panel :=
  if watched then (if wasWatched then p else p.takeLines lines).await
  else { p.unwatch with decoder := .awaitRelease }

/-- Entry to PEEK: AWAIT RELEASE, the COUNT page at its first item (R137, R147, log 25). -/
def Panel.peek (p : Panel) : Panel :=
  { p.await with peekHistory := false, countItem := 1, buz := Buzzer.silent }

/-- The panel after a COLD start (Table 8-1); that the timer of the HISTORY view starts with it is log 57. -/
def Panel.cold (s : Settings) (lines : PerKey Bool) (now : Tick) : Panel where
  settings := s
  page := .run
  keptPage := .run
  peekHistory := false
  setupItem := 1
  countItem := 1
  histSel := none
  histSecond := false
  histTimer := some now
  truckSel := none
  diagItem := 1
  lastPass := none
  decoder := awaitRelease (lines.map KeyDeb.atLine)
  keys := lines.map KeyDeb.atLine
  message := none
  blinkBlank := false
  blinkTimer := some now
  frameTimer := some now
  frame := blankFrame
  shadow := s.day
  bklLevel := 0
  bklTimer := some now
  buz := Buzzer.silent

/-- The LINE column: the settings are kept, the blink and frame timers run on (Table 8-1); that the view timer of HISTORY,
whose view is FIRST, starts again is log 57. -/
def Panel.line (lines : PerKey Bool) (now : Tick) (p : Panel) : Panel :=
  { Panel.cold p.settings lines now with
    blinkBlank := p.blinkBlank, blinkTimer := p.blinkTimer, frameTimer := p.frameTimer, frame := p.frame
    bklLevel := p.bklLevel, bklTimer := p.bklTimer }

/-- The RESUME column (Table 8-1); that the view timer of HISTORY, whose view is FIRST, starts again is log 57. -/
def Panel.resume (lines : PerKey Bool) (now : Tick) (p : Panel) : Panel :=
  { (p.takeLines lines).await with
    page := p.keptPage, peekHistory := false, histSecond := false, histTimer := some now, message := none
    buz := Buzzer.silent }

end Sys2Proof.Machine
end

