-- ==== Sys2Proof/Machine/Power.lean ====
section
/-! DEFINITION. The supply monitor (chapter 11): HOLD, DOZE, PEEK, the RESUME, LINE and COLD starts, loss of the
regulator, and the end of the start window (R170), which reaches every block. -/

namespace Sys2Proof.Machine

def Chip.setPower (p : Power) (c : Chip) : Chip := c.mapSup fun s => { s with power := p }

/-! ## Leaving RUN (R177) -/

/-- What the blocks do at an entry to HOLD or DOZE from RUN but for the link, in the order of R177; the power state is
already the new one. -/
def Chip.leaveRun (c : Chip) : Chip :=
  let c := c.mapRole RoleArbiter.suspend
  let c := c.mapPanel fun p => p.keepPage.darken
  let c := c.suspendPower
  let c := (c.mapAlarm AlarmUnit.suspend).mapInp InputTable.stop
  let c := c.mapLoad fun l => { l with refreshTimer := none, pollTimer := none }
  (c.mapSup fun s => { s with offAfterStart := false }).suspendCalibration

/-- Entry to HOLD from RUN, with its RETAIN save (R177, R169). The spec gives the key decoder no state in HOLD; it stands in
AWAIT RELEASE, also with every debounced key up (log 55). -/
def Chip.enterHold (c : Chip) : Chip :=
  let c := (c.setPower .hold).leaveRun.mapLink Link.hold
  let c := c.mapPanel fun p => { p.unwatch with decoder := .awaitRelease }
  c.askRetain c.role.resumeRole

/-- The keys at an entry to DOZE (R147). -/
def Chip.dozeKeys (wasWatched : Bool) (c : Chip) : Chip :=
  c.mapPanel (Panel.dozeKeys c.cfg.keyWake wasWatched c.pins.keys)

/-- Entry to DOZE from RUN, with its RETAIN save (R177, R169). -/
def Chip.enterDoze (c : Chip) : Chip :=
  let c := (c.setPower .doze).leaveRun.mapLink (Link.doze c.cfg.busWake)
  let c := c.dozeKeys true
  (c.askRetain c.role.resumeRole).settleLink

/-- HOLD to DOZE: no save is asked for (R177, R178, R163). -/
def Chip.holdToDoze (c : Chip) : Chip :=
  (((c.setPower .doze).mapLink (Link.doze c.cfg.busWake)).dozeKeys false).settleLink

/-! ## PEEK (R179) -/

/-- DOZE to PEEK: the PEEK timer starts, the panel shows the COUNT page with the day level (R147, R179). -/
def Chip.enterPeek (c : Chip) : Chip :=
  let c := (c.setPower .peek).mapSup fun s => { s with peekTimer := some c.tick }
  ((c.mapPanel Panel.peek).writeShadow).settleLink

/-- PEEK to DOZE: the kept page is not rewritten, the COUNTER REPORTs held are sent (R179). -/
def Chip.peekToDoze (c : Chip) : Chip :=
  let c := (c.setPower .doze).mapSup fun s => { s with peekTimer := none }
  (((c.mapLink Link.redoze).mapPanel Panel.darken).dozeKeys true).settleLink

/-- PEEK_TIMER_EXPIRY (R179). -/
def Chip.peekTimerExpiry (c : Chip) : Chip :=
  if c.sup.power = .peek ∧ due 30000 c.sup.peekTimer c.tick then c.peekToDoze else c

/-! ## The end of every start -/

/-- The figures are evaluated afresh, the alarm unit takes its first evaluation, the WEIGHER STATUS slot is brought up
to it, and the backlight level is chosen (R66, R121, R131, log 19). -/
def Chip.finishStart (c : Chip) : Chip := c.reevaluate.writeShadow.alarmStart.writeStatus.settleLink

/-- The RESUME start (R180). -/
def Chip.resumeStart (c : Chip) : Chip :=
  let c := c.mapSup fun s => { s with power := .run, startKind := .resume, peekTimer := none }
  let c := c.mapStore fun p => { p with wrongCodes := 0, lockout := false }
  let c := ((c.mapLink Link.resume).mapInp (InputTable.resume c.tick)).mapEng fun _ => Engine.start
  let c := (c.mapLoad LoadRegister.resume).mapPanel (Panel.resume c.pins.keys c.tick)
  let c := (c.mapCal CalUnit.resume).resumeTracker
  c.resumeRole.finishStart

/-! ## The LINE start (R168, R176) -/

def Pins.setStraps (s : Straps) (p : Pins) : Pins := { p with stn := s.stn, rateClosed := s.rateClosed }

def Chip.setStraps (s : Straps) (c : Chip) : Chip := { c with pins := c.pins.setStraps s }

/-- The LINE start: straps re-read, configuration and curves re-read, blocks at their LINE values, RUN (R176). -/
def Chip.lineStart (s : Straps) (c : Chip) : Chip :=
  let c := c.mapSup fun p =>
    { p with life := .up, power := .run, startKind := .line, peekTimer := none, offAfterStart := !p.ignition }
  let c := { c with
    link := Link.start s
    inp := InputTable.start c.tick
    eng := Engine.start
    trk := c.trk.line
    load := c.load.line
    role := c.role.line
    cal := CalUnit.start
    panel := c.panel.line c.pins.keys c.tick
    store := c.store.line c.tick }
  { c with alarm := AlarmUnit.start c.cfg }.settleRole.finishStart

/-! ## COLD start and loss of the regulator (R167, R174) -/

/-- The supply monitor after a COLD start (Table 11-1): LOW unless the supply is above 18.0 V. -/
def Supply.cold (volts : Nat) (ign : Bool) : Supply where
  life := .up
  status := if 180 < volts then .ok else .low
  power := .run
  ignition := ign
  ignTimer := none
  startKind := .cold
  peekTimer := none
  offAfterStart := !ign

/-- The part at its COLD values before the role settles: working memory from the array and the straps. -/
def Chip.coldValues (volts : Nat) (s : Straps) (pins : Pins) (a : StoreArray) : Chip :=
  let store := ParamStore.cold a 0
  let r := a.retained.getD (Retained.lost store.cfg.defaultSet)
  { pins := { pins.setStraps s with vsense := volts }
    sup := Supply.cold volts pins.ign
    tick := 0
    link := Link.start s
    inp := InputTable.start 0
    eng := Engine.start
    trk := Tracker.start
    load := LoadRegister.cold r
    role := RoleArbiter.cold r.resumeRole
    cal := CalUnit.start
    alarm := AlarmUnit.start store.cfg
    panel := Panel.cold r.settings pins.keys 0
    store := store }

/-- The part is held by the reset line: the link drives nothing and takes nothing (R176, R148). -/
def Chip.holdReset (c : Chip) : Chip := (c.mapSup fun s => { s with life := .held }).mapLink Link.held

/-- COLD_START: the regulator comes up, the store is read, RUN is entered whatever the status (R167, R174); with RESET
asserted the part is then held (R176, log 20). -/
def Chip.coldStart (volts : Nat) (s : Straps) (c : Chip) : Chip :=
  match c.sup.life with
  | .off =>
    if 90 ≤ volts then
      let c' := (Chip.coldValues volts s c.pins c.store.array).settleRole.finishStart
      if c.pins.reset then c'.holdReset else c'
    else c
  | .held | .linePending | .up => c

/-- The part without its regulator: the array and the pins are all it keeps; the rest stands at values that nothing
observes (R174, log 29). -/
def Chip.unpowered (pins : Pins) (a : StoreArray) : Chip :=
  let c := Chip.coldValues pins.vsense ⟨pins.stn, pins.rateClosed⟩ pins StoreArray.blank
  { c with sup := { c.sup with life := .off }, link := c.link.hold, store := { c.store with array := a, window := none } }

/-- The array as a failing regulator leaves it: a write in progress is cut off (R165, R174). -/
def ParamStore.arrayAtFail (now : Tick) (p : ParamStore) : StoreArray :=
  match p.writing with
  | none => p.array
  | some (w, since) => p.array.cut w (age now since / 5)

/-- REGULATOR_FAIL: below 9.0 V every item of working memory is lost (R174). -/
def Chip.regulatorFail (volts : Nat) (c : Chip) : Chip :=
  if volts < 90 ∧ c.sup.life ≠ .off then
    Chip.unpowered { c.pins with vsense := volts } (c.store.arrayAtFail c.tick)
  else c

/-! ## The reset line (R176) -/

/-- RESET_ASSERT: the part is held; a LINE start pending is no longer pending (R176, log 21). -/
def Chip.resetAssert (c : Chip) : Chip :=
  let c := { c with pins := { c.pins with reset := true } }
  match c.sup.life with
  | .up | .linePending => c.holdReset
  | .held | .off => c

/-- RESET_RELEASE: a LINE start with the status OK, pending with it LOW (R176). -/
def Chip.resetRelease (s : Straps) (c : Chip) : Chip :=
  let c := { c with pins := { c.pins.setStraps s with reset := false } }
  match c.sup.life, c.sup.status with
  | .held, .ok => c.lineStart s
  | .held, .low => c.mapSup fun p => { p with life := .linePending }
  | .off, _ | .linePending, _ | .up, _ => c

/-! ## Supply and ignition events (R174, R175, R177-R179) -/

/-- A change of the status to LOW in a running part: RUN to HOLD, PEEK to DOZE, nothing in HOLD and DOZE. -/
def Chip.wentLow (c : Chip) : Chip :=
  match c.sup.power with
  | .run => c.enterHold
  | .peek => c.peekToDoze
  | .hold | .doze => c

/-- SUPPLY_FALLS_LOW (R174, R177, R179). -/
def Chip.supplyFallsLow (volts : Nat) (c : Chip) : Chip :=
  if volts < 160 ∧ c.sup.status = .ok ∧ c.sup.life ≠ .off then
    let c := { c with pins := { c.pins with vsense := volts } }.mapSup fun s => { s with status := .low }
    match c.sup.life with
    | .up => c.wentLow
    | .held | .linePending | .off => c
  else c

/-- A change of the status to OK in a running part: HOLD resumes or dozes by the ignition; in RUN the LOW SUPPLY
condition falls; nothing in DOZE and PEEK (R122, R178, R179). -/
def Chip.wentOk (c : Chip) : Chip :=
  match c.sup.power with
  | .hold => if c.sup.ignition then c.resumeStart else c.holdToDoze
  | .run => c.refresh .lowSupply
  | .doze | .peek => c

/-- SUPPLY_RISES_OK (R174, R176, R178). -/
def Chip.supplyRisesOk (volts : Nat) (s : Straps) (c : Chip) : Chip :=
  if 180 < volts ∧ c.sup.status = .low ∧ c.sup.life ≠ .off then
    let c := { c with pins := { c.pins.setStraps s with vsense := volts } }.mapSup fun p => { p with status := .ok }
    match c.sup.life with
    | .up => c.wentOk
    | .linePending => c.lineStart s
    | .held | .off => c
  else c

/-- IGN_LINE_CHANGE: a new level starts the ignition debounce timer, a return to the ignition state stops it (R175). -/
def Chip.ignLineChange (high : Bool) (c : Chip) : Chip :=
  if c.pins.ign = high then c
  else
    let c := { c with pins := { c.pins with ign := high } }
    match c.sup.life with
    | .off => c
    | .held | .linePending | .up =>
      c.mapSup fun s => { s with ignTimer := if high = s.ignition then none else some c.tick }

/-- The power-state effect of a change of the ignition state (R177-R179). -/
def Chip.ignitionChanged (c : Chip) : Chip :=
  match c.sup.power, c.sup.ignition with
  | .run, false => c.enterDoze
  | .doze, true | .peek, true => c.resumeStart
  | .run, true | .hold, _ | .doze, false | .peek, false => c

/-- IGNITION_CHANGE: IGN has held its new level for 500 ms (R175). -/
def Chip.ignitionChange (c : Chip) : Chip :=
  if due 500 c.sup.ignTimer c.tick then
    let c := c.mapSup fun s =>
      { s with ignition := c.pins.ign, ignTimer := none, offAfterStart := s.offAfterStart && !c.pins.ign }
    match c.sup.life with
    | .up => c.ignitionChanged
    | .held | .linePending | .off => c
  else c

/-- IGNITION_OFF_AFTER_START: the ignition test of a COLD or LINE start found it off (R176). -/
def Chip.ignitionOffAfterStart (c : Chip) : Chip :=
  if c.sup.offAfterStart ∧ c.sup.power = .run then c.enterDoze else c

/-! ## The end of the start window (R170) -/

/-- A change of the configured role in RUN (R120). -/
def Chip.roleChangedInRun (c : Chip) : Chip :=
  let c := if c.isWeigher then c else c.restartTracker
  if c.role.state = .mute then c
  else if c.isWeigher then c.enterListen
  else (c.enterRepeat).mapRole fun r => { r with mirrored := true }

/-- A change of the configured role in HOLD, DOZE or PEEK rewrites the resume role of a part whose resume role is not
MUTE (R170). -/
def RoleArbiter.roleChangedAsleep (weigher : Bool) (r : RoleArbiter) : RoleArbiter :=
  if r.resumeRole = .mute then r
  else if weigher then { r with resumeRole := .listen }
  else { r with resumeRole := .repeating, mirrored := true }

def Chip.roleChanged (c : Chip) : Chip :=
  if c.inRun then c.roleChangedInRun else c.mapRole (RoleArbiter.roleChangedAsleep c.isWeigher)

/-- Bus wake and key wake changed while the part dozes: the receiver and the key lines follow (R132, R163, log 26). -/
def Chip.wakeChanged (old : Cfg) (c : Chip) : Chip :=
  let c :=
    if old.keyWake = c.cfg.keyWake ∨ c.sup.power ≠ .doze then c
    else c.mapPanel (Panel.dozeKeys c.cfg.keyWake false c.pins.keys)
  match c.sup.power with
  | .doze | .peek =>
    if old.busWake = c.cfg.busWake then c
    else c.mapLink fun l => { l with rx := dozeRx c.cfg.busWake }
  | .run | .hold => c

/-- The working configuration becomes the configuration in force in one event, and each block takes the change (R170,
R64, R72, R120, R125, R71). The spec gives no order: the alarm records take modes and masks with the conditions as they
stood, and the conditions that the event changes are handed over last (log 41). -/
def Chip.takeConfig (c : Chip) : Chip :=
  let old := c.cfg
  let c := c.mapStore fun p => { p with cfg := p.work, window := none }
  let c := c.mapInp (InputTable.takeConfig old c.cfg c.tick c.inRun)
  let c := if (old.srcTag == 0) = (c.cfg.srcTag == 0) then c else c.setRefused none
  let c := c.reconfigureAlarms
  let c := if old.role = c.cfg.role then c else c.roleChanged
  let c := c.reevaluate.syncLoss
  let c := if c.inRun then c.writeShadow else c
  (c.refreshAlarms.wakeChanged old).settleLink

/-- START_WINDOW_END: 3000 ms after the window opened, in whatever power state (R170). -/
def Chip.startWindowEnd (c : Chip) : Chip := if due 3000 c.store.window c.tick then c.takeConfig else c

end Sys2Proof.Machine
end

