-- ==== Sys2Proof/Machine/Keys.lean ====
section
/-! DEFINITION. Routing of presses, repeats and long presses (R134-R137, R147), the pages' selections and SETUP
(R138-R141), and the panel's timers. -/

namespace Sys2Proof.Machine

/-! ## Pages (R137) -/

/-- The newest summary of the ring, or none. -/
def Chip.newestSummary (c : Chip) : Option (BitVec 32) := c.load.history.getLast?.map Summary.seq

/-- Entry to HISTORY: the newest summary, the view FIRST (R137), and its timer restarted, whether or not the entry changes
the selection (R139, log 52). -/
def Chip.enterHistory (c : Chip) : Chip :=
  c.mapPanel fun p => { p with histSel := c.newestSummary, histSecond := false, histTimer := some c.tick }

/-- The order of MODE (R137); CAL is not part of it. -/
def Page.next : Page → Page
  | .run => .truck
  | .truck => .count
  | .count => .history
  | .history => .setup
  | .setup => .diag
  | .diag => .run
  | .cal => .run

/-- What the panel does at an entry to a page (R137); at COUNT the load register is told (R86). -/
def Chip.enterPage (g : Page) (c : Chip) : Chip :=
  let c := c.mapPanel fun p => { p with page := g }
  match g with
  | .truck => c.mapPanel fun p => { p with truckSel := none }
  | .count =>
    let c := c.mapPanel fun p => { p with countItem := 1 }
    if c.polls then c.poll else c
  | .history => c.enterHistory
  | .setup => c.mapPanel fun p => { p with setupItem := 1 }
  | .run | .diag | .cal => c

/-- MODE steps the page; leaving COUNT the load register is told (R137, R86). -/
def Chip.pageStep (c : Chip) : Chip :=
  let c' := if c.panel.page = .count then c.stopPoll else c
  c'.enterPage c.panel.page.next

/-! ## Selections (R138, R139, R141) -/

/-- DOWN selects the next older pass, UP the next newer, from the newest to none (R138); the list is oldest first. -/
def olderPass (ns : List Nat) (sel : Option Nat) : Option Nat :=
  match sel with
  | none => ns.getLast?
  | some n =>
    match (ns.takeWhile (fun m => m != n)).getLast? with
    | some older => some older
    | none => some n

def newerPass (ns : List Nat) (sel : Option Nat) : Option Nat :=
  match sel with
  | none => none
  | some n => (ns.dropWhile (fun m => m != n))[1]?

def Chip.passNumbers (c : Chip) : List Nat :=
  match c.load.record with
  | some r => numbers r.passes
  | none => []

def Chip.truckSelect (up : Bool) (c : Chip) : Chip :=
  c.mapPanel fun p =>
    { p with truckSel := if up then newerPass c.passNumbers p.truckSel else olderPass c.passNumbers p.truckSel }

/-- The COUNT item steps and wraps in 1-7 (R139), the DIAG item in 1-52 (R141). -/
def wrapStep (hi : Nat) (up : Bool) (n : Nat) : Nat :=
  if up then (if hi ≤ n then 1 else n + 1) else (if n ≤ 1 then hi else n - 1)

def Chip.countSelect (up : Bool) (c : Chip) : Chip :=
  c.mapPanel fun p => { p with countItem := wrapStep 7 up p.countItem }

def Chip.diagSelect (up : Bool) (c : Chip) : Chip :=
  c.mapPanel fun p => { p with diagItem := wrapStep 52 up p.diagItem }

/-- The HISTORY selection: DOWN older, UP newer, held at the ends; from none the newest (R139). -/
def historyStep (seqs : List (BitVec 32)) (up : Bool) (sel : Option (BitVec 32)) : Option (BitVec 32) :=
  match sel with
  | none => seqs.getLast?
  | some s =>
    let next := if up then (seqs.dropWhile (fun x => x != s))[1]? else (seqs.takeWhile (fun x => x != s)).getLast?
    match next with
    | some n => some n
    | none => some s

def Chip.historySelect (up : Bool) (c : Chip) : Chip :=
  c.mapPanel fun p => p.selectHistory (historyStep (c.load.history.map Summary.seq) up p.histSel) c.tick

def Chip.historyNewest (c : Chip) : Chip := c.mapPanel (Panel.selectHistory c.newestSummary c.tick)

/-! ## SETUP (R140) -/

def stepNat (hi : Nat) (up : Bool) (n : Nat) : Nat := if up then min hi (n + 1) else n - 1

/-- One step of a SETUP item, held at the limits of Table 8-8. -/
def Settings.step (item : Nat) (up : Bool) (s : Settings) : Settings :=
  match item with
  | 1 => { s with day := stepNat 63 up s.day }
  | 2 => { s with night := stepNat 63 up s.night }
  | 3 => { s with volume := stepNat 15 up s.volume }
  | 4 => { s with trim := clampInt (-50) 50 (if up then s.trim + 1 else s.trim - 1) }
  | 5 => { s with curveSet := Fin.ofNat 4 (stepNat 3 up s.curveSet.val) }
  | _ => s

/-- Each step of an edited value restarts the blink timer in its shown half (R143). -/
def Panel.restartBlink (now : Tick) (p : Panel) : Panel := { p with blinkBlank := false, blinkTimer := some now }

/-- What a changed setting reaches (Table 8-8). -/
def Chip.settingChanged (item : Nat) (c : Chip) : Chip :=
  match item with
  | 1 => if c.nightChosen then c else c.writeShadow
  | 2 => if c.nightChosen then c.writeShadow else c
  | 3 => c.beepEvent .beep
  | 5 => c.refresh .calInvalid
  | _ => c

/-- UP or DOWN on the SETUP page; a step that would leave the range changes and requests nothing (R140), and does not restart
the blink (log 51). -/
def Chip.setupStep (up : Bool) (c : Chip) : Chip :=
  let s := c.panel.settings.step c.panel.setupItem up
  if s = c.panel.settings then c
  else
    (c.mapPanel fun p => { p with settings := s }.restartBlink c.tick).settingChanged c.panel.setupItem

/-- ENTER on the SETUP page: the next item, from 5 back to 1 (R140). -/
def Chip.setupNext (c : Chip) : Chip :=
  c.mapPanel fun p => { p with setupItem := if 5 ≤ p.setupItem then 1 else p.setupItem + 1 }

/-! ## Routing in RUN (R136, Table 8-4) -/

/-- A step of a calibration selection field restarts the blink timer where the value changes (R143, log 51). -/
def Chip.calStep (up : Bool) (c : Chip) : Chip :=
  let c' := c.calUpDown up
  if c'.cal.target = c.cal.target ∧ c'.cal.mass = c.cal.mass then c' else c'.mapPanel (Panel.restartBlink c.tick)

/-- A press handed to the calibration unit. -/
def Chip.routeCal (k : Key) (c : Chip) : Chip :=
  match k with
  | .up => c.calStep true
  | .down => c.calStep false
  | .mode | .enter => c.calPress k

/-- UP or DOWN by page (Table 8-4). -/
def Chip.routeUpDown (up : Bool) (c : Chip) : Chip :=
  match c.panel.page with
  | .run | .cal => c
  | .truck => c.truckSelect up
  | .count => c.countSelect up
  | .history => c.historySelect up
  | .setup => c.setupStep up
  | .diag => c.diagSelect up

/-- ENTER by page (Table 8-4). -/
def Chip.routeEnter (c : Chip) : Chip :=
  match c.panel.page with
  | .truck => c.nextManualTruck
  | .history => c.historyNewest
  | .setup => c.setupNext
  | .run | .count | .diag | .cal => c

/-- A press by key and page, with calibration OUT. -/
def Chip.routePage (k : Key) (c : Chip) : Chip :=
  match k with
  | .mode => c.pageStep
  | .up => c.routeUpDown true
  | .down => c.routeUpDown false
  | .enter => c.routeEnter

/-- The field that UP and DOWN repeat on (R134). -/
def Chip.repeatField (k : Key) (c : Chip) : Option EditField :=
  match k with
  | .mode | .enter => none
  | .up | .down =>
    if c.cal.state = .select then some (if c.cal.onMass then .calMass else .calSet)
    else if c.cal.state = .out ∧ c.panel.page = .setup then some .setup
    else none

/-- The hold a registered press begins; its long press is to come for MODE, and for ENTER where it is not taken as an
acknowledgement (R135). -/
def Chip.holdOf (k : Key) (c : Chip) : Hold where
  key := k
  since := c.tick
  long := match k with
    | .mode => true
    | .enter => c.banner.isNone
    | .up | .down => false
  calWasOut := c.cal.state == .out
  field := if c.inRun then c.repeatField k else none
  lastRepeat := none

/-- A press past the alarm unit (R136). -/
def Chip.routePress (k : Key) (c : Chip) : Chip := if c.cal.state = .out then c.routePage k else c.routeCal k

/-- A registered press in RUN: ENTER goes to the alarm unit first (R128, R136). -/
def Chip.pressInRun (k : Key) (c : Chip) : Chip :=
  match k, c.banner with
  | .enter, some a => c.acknowledge a
  | _, _ => c.routePress k

/-! ## Routing in DOZE and PEEK (R147, R179) -/

/-- A registered press in DOZE: PEEK with key wake enabled and the status OK (Table 11-3). -/
def Chip.pressInDoze (c : Chip) : Chip :=
  if c.cfg.keyWake && c.sup.status == .ok then c.enterPeek else c

/-- MODE in PEEK switches between COUNT and HISTORY; the load register is not told (R147, log 25). -/
def Chip.peekMode (c : Chip) : Chip :=
  if c.panel.peekHistory then c.mapPanel fun p => { p with peekHistory := false, countItem := 1 }
  else (c.mapPanel fun p => { p with peekHistory := true }).enterHistory

/-- A registered press in PEEK restarts the PEEK timer and acts on the PEEK page only (R147, R179). -/
def Chip.pressInPeek (k : Key) (c : Chip) : Chip :=
  let c := c.mapSup fun s => { s with peekTimer := some c.tick }
  match k, c.panel.peekHistory with
  | .mode, _ => c.peekMode
  | .up, false => c.countSelect true
  | .down, false => c.countSelect false
  | .up, true => c.historySelect true
  | .down, true => c.historySelect false
  | .enter, true => c.historyNewest
  | .enter, false => c

/-- A registered press of a key ends a "CAL–BUSY" message and is routed by the power state (R136, R142, R147). -/
def Chip.registered (k : Key) (c : Chip) : Chip :=
  let c := c.mapPanel fun p => { p with message := none }
  match c.sup.power with
  | .run => c.pressInRun k
  | .doze => c.pressInDoze
  | .peek => c.pressInPeek k
  | .hold => c

/-! ## Debounce expiry, long press, repeat (R132-R135) -/

/-- A key changes to down: the decoder takes the press, and where it registers it is routed (R133). -/
def Chip.keyDown (k : Key) (c : Chip) : Chip :=
  let registers := c.panel.decoder = .ready
  let c' := c.mapPanel fun p => { p with decoder := p.decoder.press (c.holdOf k) }
  if registers then c'.registered k else c'

/-- A key changes to up (R133). -/
def Chip.keyUp (k : Key) (c : Chip) : Chip :=
  c.mapPanel fun p => { p with decoder := p.decoder.release k (allUp p.keys) }

/-- KEY_DEBOUNCE_EXPIRY: the line has held its level for 20 ms (R132). -/
def Chip.keyDebounceExpiry (k : Key) (c : Chip) : Chip :=
  if c.watchesKeys && due 20 (c.panel.keys.get k).timer c.tick then
    let low := c.pins.keys.get k
    let c := c.mapPanel fun p => { p with keys := p.keys.set k ⟨low, none⟩ }
    (if low then c.keyDown k else c.keyUp k).settleLink
  else c

/-- The long press of a hold by page (Table 8-4, R89). -/
def Chip.routeLong (h : Hold) (c : Chip) : Chip :=
  match h.key with
  | .mode => if h.calWasOut then c.requestCal else c
  | .enter =>
    if c.cal.state = .out then
      match c.panel.page with
      | .truck => c.operatorClose
      | .count => c.shiftReset
      | .run | .history | .setup | .diag | .cal => c
    else c
  | .up | .down => c

/-- LONG_PRESS: 3000 ms after the press, the key still held alone; in RUN only (R135, R147). -/
def Chip.longPress (c : Chip) : Chip :=
  match c.panel.decoder with
  | .held h =>
    if c.inRun && h.long && decide (3000 ≤ age c.tick h.since) then
      ((c.mapPanel fun p => { p with decoder := .held { h with long := false } }).routeLong h).settleLink
    else c
  | .awaitRelease | .ready | .chord => c

/-- A repeat step is due: 600 ms after the press, then every 150 ms (R134). -/
def Hold.repeatDue (now : Tick) (h : Hold) : Bool :=
  match h.lastRepeat with
  | none => 600 ≤ age now h.since
  | some t => 150 ≤ age now t

/-- A repeat step goes to the field of its press (R134). -/
def Chip.repeatOn (f : EditField) (up : Bool) (c : Chip) : Chip :=
  match f with
  | .setup => if c.panel.page = .setup then c.setupStep up else c
  | .calSet | .calMass => if c.cal.state = .select then c.calStep up else c

/-- REPEAT_STEP (R134). -/
def Chip.repeatStep (c : Chip) : Chip :=
  match c.panel.decoder with
  | .held h =>
    match h.field with
    | some f =>
      if c.inRun && h.repeatDue c.tick then
        (c.mapPanel fun p => { p with decoder := .held { h with lastRepeat := some c.tick } }).repeatOn f (h.key == .up)
      else c
    | none => c
  | .awaitRelease | .ready | .chord => c

/-! ## Panel timers (R139, R142, R143) -/

/-- BLINK_TIMER: 250 ms shown, 250 ms blanked (R143). -/
def Chip.blinkTimer (c : Chip) : Chip :=
  if due 250 c.panel.blinkTimer c.tick then
    c.mapPanel fun p => { p with blinkBlank := !p.blinkBlank, blinkTimer := some c.tick }
  else c

/-- HISTORY_VIEW_TIMER: the view changes every 2000 ms (R139). -/
def Chip.historyViewTimer (c : Chip) : Chip :=
  if due 2000 c.panel.histTimer c.tick then
    c.mapPanel fun p => { p with histSecond := !p.histSecond, histTimer := some c.tick }
  else c

/-- MESSAGE_TIMER: "CAL–BUSY" ends 2000 ms after its request (R142). -/
def Chip.messageTimer (c : Chip) : Chip :=
  if due 2000 c.panel.message c.tick then c.mapPanel fun p => { p with message := none } else c

end Sys2Proof.Machine
end

