-- ==== Sys2Proof/Machine/Display.lean ====
section
/-! DEFINITION. The display image (R138-R143) and the panel frame (12.7). -/

namespace Sys2Proof.Machine

/-! ## Segment codes (Table 12-7) -/

/-- The characters of Table 12-7 other than the ten numerals: capitals, small letters, dash and blank. -/
inductive Glyph where
  | capA | capB | lowB | capC | capD | lowD | capE | capF | capG | capH | capI | capJ | capK | capL
  | capM | capN | lowN | capO | capP | capQ | capR | lowR | capS | capT | lowT | capU | capV | capW
  | capX | capY | blank | dash
  deriving DecidableEq, Repr

/-- The segments of a character, decimal point clear (Table 12-7). -/
def Glyph.seg : Glyph → Byte
  | .capA => 0x77
  | .capB => 0x7F
  | .lowB => 0x7C
  | .capC => 0x39
  | .capD => 0x5E
  | .lowD => 0x5E
  | .capE => 0x79
  | .capF => 0x71
  | .capG => 0x3D
  | .capH => 0x76
  | .capI => 0x30
  | .capJ => 0x1E
  | .capK => 0x75
  | .capL => 0x38
  | .capM => 0x15
  | .capN => 0x37
  | .lowN => 0x54
  | .capO => 0x3F
  | .capP => 0x73
  | .capQ => 0x67
  | .capR => 0x33
  | .lowR => 0x50
  | .capS => 0x6D
  | .capT => 0x31
  | .lowT => 0x78
  | .capU => 0x3E
  | .capV => 0x1C
  | .capW => 0x2A
  | .capX => 0x64
  | .capY => 0x6E
  | .blank => 0x00
  | .dash => 0x40

/-- The segments of a numeral (Table 12-7). -/
def numeral (n : Nat) : Byte :=
  match n with
  | 0 => 0x3F
  | 1 => 0x06
  | 2 => 0x5B
  | 3 => 0x4F
  | 4 => 0x66
  | 5 => 0x6D
  | 6 => 0x7D
  | 7 => 0x07
  | 8 => 0x7F
  | _ => 0x6F

/-- Light the decimal point of a digit (12.7 note a). -/
def withPoint (on : Bool) (b : Byte) : Byte := if on then b ||| 0x80 else b

/-! ## Fields -/

def blanks (n : Nat) : List Byte := List.replicate n Glyph.blank.seg
def dashes (n : Nat) : List Byte := List.replicate n Glyph.dash.seg

/-- A legend is left-justified in its field (12.7). -/
def legend (width : Nat) (gs : List Glyph) : List Byte := ((gs.map Glyph.seg) ++ blanks width).take width

/-- The number of decimal digits of a number, at least 1. -/
def digitCount : Nat → Nat → Nat
  | 0, _ => 1
  | fuel + 1, n => if n < 10 then 1 else digitCount fuel (n / 10) + 1

/-- The digit of a place, lit with the point where the decimals begin. -/
def digitByte (decimals n place : Nat) : Byte :=
  withPoint (decimals != 0 && place == decimals) (numeral (n / 10 ^ place % 10))

/-- A number with decimal places, right-justified, leading zeros blanked down to the digit before the point (Table 8-6
note a, 12.7); one too long for its field shows free values (log 8). -/
def number (width decimals : Nat) (x : Int) : List Byte :=
  let n := x.natAbs
  let count := max (digitCount 12 n) (decimals + 1)
  let shown := (if x < 0 then [Glyph.dash.seg] else []) ++ ((List.range count).map (digitByte decimals n)).reverse
  if width < shown.length then (List.range width).map (Config.overflowDigit width x)
  else blanks (width - shown.length) ++ shown

def natural (width n : Nat) : List Byte := number width 0 n

/-- A mass in the main field (Table 8-6). -/
def massMain (x : Int) : List Byte :=
  if 10000 ≤ x then number 4 1 (x.tdiv 10)
  else if 0 ≤ x then number 4 2 x
  else if -999 ≤ x then number 4 2 x
  else if -9999 ≤ x then number 4 1 (x.tdiv 10)
  else number 4 0 (x.tdiv 100)

/-- A mass in the counter field (Table 8-6). -/
def massCounter (x : Nat) : List Byte := number 5 2 x

/-- A pass count in the aux field: above 99 it is 99 with both points lit (R138). -/
def countAux (n : Nat) : List Byte :=
  if n ≤ 99 then natural 2 n else [withPoint true (numeral 9), withPoint true (numeral 9)]

/-- Light the point of the first digit of a field. -/
def firstPointLit (on : Bool) : List Byte → List Byte
  | [] => []
  | b :: bs => withPoint on b :: bs

/-- Light the point of the last digit of a field. -/
def lastPointLit (on : Bool) (bs : List Byte) : List Byte := (firstPointLit on bs.reverse).reverse

/-- A field's value, or dashes where there is none. -/
def orDashes {α : Type} (width : Nat) (f : α → List Byte) (v : Option α) : List Byte :=
  match v with
  | some a => f a
  | none => dashes width

def flagDigit (b : Bool) : Byte := numeral (if b then 1 else 0)

/-- The three fields and the bargraph. -/
structure Fields where
  main : List Byte
  aux : List Byte
  counter : List Byte
  bar : Nat
  deriving DecidableEq, Repr

/-- The fields of a page that the spec gives no bargraph: all its segments dark (log 45). -/
def Fields.of (main aux counter : List Byte) : Fields := ⟨main, aux, counter, 0⟩

/-! ## RUN, TRUCK, COUNT, HISTORY, SETUP (R138-R140) -/

/-- min(20, floor(fill% / 5)) (Table 8-5). -/
def fillBar (p : PassRec) : Nat :=
  match p.payload with
  | none => 0
  | some _ => min 20 (p.fill.getD 0 / 5)

/-- A pass payload, or "----" when UNWEIGHED (Table 8-5). -/
def payloadMain (p : PassRec) : List Byte := orDashes 4 (fun (m : Nat) => massMain m) p.payload

/-- The RUN page (Table 8-5). -/
def Chip.runFields (c : Chip) : Fields where
  main := match c.panel.lastPass with
    | some p => payloadMain p
    | none => blanks 4
  aux := match c.load.record with
    | some r => countAux r.count
    | none => blanks 2
  counter := match c.load.record with
    | some r => massCounter r.total
    | none => blanks 5
  bar := match c.panel.lastPass with
    | some p => fillBar p
    | none => 0

/-- The TRUCK page without a selection (Table 8-5). -/
def truckFields (r : TruckRec) : Fields where
  main := match r.remaining with
    | some x => massMain x
    | none => massMain r.total
  aux := countAux r.count
  counter := orDashes 5 massCounter r.target
  bar := match r.target with
    | some t => min 20 (r.total * 20 / t)
    | none => 0

/-- A selected entry of the pass list (R138). -/
def passFields (p : PassRec) : Fields where
  main := payloadMain p
  aux := countAux p.number
  counter := lastPointLit p.amended (match p.fill with
    | some f => natural 5 f
    | none => blanks 5)
  bar := fillBar p

def Chip.truckPage (c : Chip) : Fields :=
  match c.load.record with
  | none => ⟨dashes 4, blanks 2, blanks 5, 0⟩
  | some r =>
    match c.panel.truckSel.bind fun n => r.passes.find? fun p => p.number == n with
    | some p => passFields p
    | none => truckFields r

def legCyc : List Glyph := [.capC, .capY, .capC]
def legPass : List Glyph := [.capP, .capA, .capS, .capS]
def legUnw : List Glyph := [.capU, .capN, .capW]
def legTrk : List Glyph := [.capT, .capR, .capK]
def legTons : List Glyph := [.capT, .capO, .capN, .capS]
def legLcyc : List Glyph := [.capL, .capC, .capY, .capC]
def legLton : List Glyph := [.capL, .capT, .capO, .capN]

/-- The legend of a COUNT item (Table 8-7). -/
def countLegend (item : Nat) : List Glyph :=
  match item with
  | 1 => legCyc
  | 2 => legPass
  | 3 => legUnw
  | 4 => legTrk
  | 5 => legTons
  | 6 => legLcyc
  | _ => legLton

/-- The value of a COUNT item: the part's own, or in a REPEATER the mirrored figure if held (Table 8-7, R139). -/
def Chip.countValue (c : Chip) (item : Nat) : Option Nat :=
  if c.isWeigher then
    some (match item with
      | 1 => c.load.shift.cycles
      | 2 => c.load.shift.weighed
      | 3 => c.load.shift.unweighed
      | 4 => c.load.shift.trucks
      | 5 => c.load.shift.tonnage / 100
      | 6 => c.load.life.cycles
      | _ => c.load.life.tonnage / 100)
  else
    match item with
    | 1 => c.load.mirrorCounts.map MirrorCounts.cycles
    | 2 => c.load.mirrorCounts.map MirrorCounts.weighed
    | 3 => c.load.mirrorCounts.map MirrorCounts.unweighed
    | 4 => c.load.mirrorCounts.map MirrorCounts.trucks
    | 5 => c.load.mirrorTonnage.map fun m => m.shift / 100
    | 6 => c.load.mirrorLife.map MirrorLife.cycles
    | _ => c.load.mirrorTonnage.map fun m => m.life / 100

/-- A counter value in the counter field (Table 8-7 note b). -/
def counterField (n : Nat) : List Byte :=
  if n ≤ 99999 then natural 5 n
  else if n ≤ 99999999 then lastPointLit true (natural 5 (n / 1000))
  else lastPointLit true (natural 5 99999)

def Chip.countPage (c : Chip) : Fields :=
  .of (legend 4 (countLegend c.panel.countItem)) (blanks 2) (orDashes 5 counterField (c.countValue c.panel.countItem))

def legNewTruck : List Glyph := [.lowN, .capE, .capU, .lowT]
def legDeparted : List Glyph := [.lowD, .capE, .capP, .lowT]
def legOperator : List Glyph := [.capO, .capP, .capE, .lowR]
def legYielded : List Glyph := [.capY, .capI, .capE, .capL, .lowD]

/-- The legend of a close reason (R139). -/
def reasonLegend : CloseReason → List Glyph
  | .newTruck => legNewTruck
  | .departed => legDeparted
  | .operator => legOperator
  | .yielded => legYielded

/-- The HISTORY page: the selected summary in the view in force (R139). -/
def Chip.historyPage (c : Chip) : Fields :=
  match c.panel.histSel.bind fun s => c.load.history.find? fun h => h.seq == s with
  | none => .of (dashes 4) (dashes 2) (dashes 5)
  | some h =>
    if c.panel.histSecond then
      .of (orDashes 4 (fun (t : Nat) => massMain t) h.target) (countAux h.unweighed)
        (lastPointLit h.amended (legend 5 (reasonLegend h.reason)))
    else .of (massMain h.total) (countAux h.count) (natural 5 h.truckId)

/-- The value of a SETUP item (R140). -/
def setupValue (s : Settings) (item : Nat) : List Byte :=
  match item with
  | 1 => natural 4 s.day
  | 2 => natural 4 s.night
  | 3 => natural 4 s.volume
  | 4 => massMain s.trim
  | _ => natural 4 s.curveSet.val

/-- An edit field is blanked in the blanked half of the blink (R143). -/
def Chip.blinking (c : Chip) (f : List Byte) : List Byte := if c.panel.blinkBlank then blanks f.length else f

/-- The SETUP page: value and item number; the counter field, of which R140 says nothing, is blank (log 45). -/
def Chip.setupPage (c : Chip) : Fields :=
  .of (c.blinking (setupValue c.panel.settings c.panel.setupItem)) (natural 2 c.panel.setupItem) (blanks 5)

/-! ## CAL (Table 5-7) -/

def legKeep : List Glyph := [.capK, .capE, .capE, .capP]
def legSetl : List Glyph := [.capS, .capE, .capT, .capL]
def legInc : List Glyph := [.capI, .capN, .capC]
def legAb : List Glyph := [.capA, .capB]
def legWrit : List Glyph := [.capW, .capR, .capI, .capT]
def legDone : List Glyph := [.capD, .capO, .capN, .capE]
def legGeom : List Glyph := [.capG, .capE, .capO, .capM]
def legInco : List Glyph := [.capI, .capN, .capC, .capO]
def legSpan : List Glyph := [.capS, .capP, .capA, .capN]
def legProt : List Glyph := [.capP, .capR, .capO, .capT]

def outcomeLegend : Option LiftOutcome → List Glyph
  | some .kept => legKeep
  | some .settling => legSetl
  | some .incomplete => legInc
  | some .abandoned => legAb
  | none => []

def failureLegend : CalFailure → List Glyph
  | .geometry => legGeom
  | .inconsistent _ _ => legInco
  | .span _ => legSpan
  | .isProtected => legProt

def CalFailure.point : CalFailure → Option Nat
  | .inconsistent _ k | .span k => some k
  | .geometry | .isProtected => none

def orBlanks {α : Type} (width : Nat) (f : α → List Byte) (v : Option α) : List Byte :=
  match v with
  | some a => f a
  | none => blanks width

/-- The phase of an INCONSISTENT failure: 0 EMPTY, 1 LOADED (Table 5-7). -/
def phaseField : Option CalFailure → List Byte
  | some (.inconsistent loaded _) => natural 5 (if loaded then 1 else 0)
  | _ => blanks 5

/-- The browse point of the review: Ek in units of 100 N, Lk − Ek in units of 10 N (Table 5-7 note b, log 24). -/
def reviewFields (u : CalUnit) : Fields :=
  match u.curves with
  | some (e, l) =>
    let k := Fin.ofNat 16 u.browse
    .of (number 4 0 (roundDiv e[k] 10)) (natural 2 u.browse) (number 5 0 (l[k] - e[k]))
  | none => .of (blanks 4) (natural 2 u.browse) (blanks 5)

def Chip.calPage (c : Chip) : Fields :=
  let u := c.cal
  match u.state with
  | .out => .of (blanks 4) (blanks 2) (blanks 5)
  | .select =>
    if u.onMass then .of (c.blinking (natural 4 u.mass)) (natural 2 u.target.val) (blanks 5)
    else .of (c.blinking (natural 4 u.target.val)) (blanks 2) (natural 5 u.mass)
  | .empty | .loaded =>
    .of (legend 4 (outcomeLegend u.outcome)) (natural 2 u.keptCount) (orBlanks 5 (natural 5) u.lastRefused)
  | .review => reviewFields u
  | .writing => .of (legend 4 legWrit) (natural 2 u.target.val) (blanks 5)
  | .done => .of (legend 4 legDone) (natural 2 u.target.val) (natural 5 u.mass)
  | .failed =>
    .of (orBlanks 4 (fun f => legend 4 (failureLegend f)) u.failure)
      (orBlanks 2 (natural 2) (u.failure.bind CalFailure.point)) (phaseField u.failure)

/-! ## DIAG (R141, Table 8-9) -/

def legCfg : List Glyph := [.capC, .capF, .capG]
def legFrsh : List Glyph := [.capF, .capR, .capS, .capH]
def legStal : List Glyph := [.capS, .capT, .capA, .capL]
def legAbs : List Glyph := [.capA, .lowB, .capS]
def legFlt : List Glyph := [.capF, .capL, .lowT]
def legPri : List Glyph := [.capP, .capR, .capI]
def legSec : List Glyph := [.capS, .capE, .capC]
def legNone : List Glyph := [.capN, .capO, .capN, .capE]
def legRate : List Glyph := [.capR, .capA, .capT, .capE]
def legAge : List Glyph := [.capA, .capG, .capE]
def legSens : List Glyph := [.capS, .capE, .lowN, .capS]
def legDisa : List Glyph := [.capD, .capI, .capS, .capA]
def legIncl : List Glyph := [.capI, .capN, .capC, .capL]
def legSpd : List Glyph := [.capS, .capP, .lowD]
def legBinf : List Glyph := [.lowB, .capI, .capN, .capF]
def legRet : List Glyph := [.capR, .capE, .capT]
def legCto : List Glyph := [.capC, .lowT, .capO]
def legEpty : List Glyph := [.capE, .capP, .lowT, .capY]
def legInpl : List Glyph := [.capI, .lowN, .capP, .capL]
def legPour : List Glyph := [.capP, .capO, .capU, .lowR]
def legRst : List Glyph := [.capR, .capS, .lowT]
def legChec : List Glyph := [.capC, .capH, .capE, .capC]
def legForm : List Glyph := [.capF, .capO, .capR, .capM]
def legLen : List Glyph := [.capL, .capE, .lowN]
def legTxf : List Glyph := [.lowT, .capX, .capF]
def legQdrp : List Glyph := [.capQ, .lowD, .lowR, .capP]
def legQuit : List Glyph := [.capQ, .capU, .capI, .lowT]
def legGood : List Glyph := [.capG, .capO, .capO, .lowD]
def legFair : List Glyph := [.capF, .capA, .capI, .lowR]
def legPoor : List Glyph := [.capP, .capO, .capO, .lowR]
def legRej : List Glyph := [.lowR, .capE, .capJ]
def legLoSu : List Glyph := [.capL, .capO, .blank, .capS, .capU]
def legStn : List Glyph := [.capS, .lowT, .capN]
def legInput : List Glyph := [.capI, .lowN, .capP, .capU, .lowT]
def legCal : List Glyph := [.capC, .capA, .capL]
def legXchk : List Glyph := [.capX, .capC, .capH, .capK]
def legOvld : List Glyph := [.capO, .capV, .capL, .lowD]
def legPOvr : List Glyph := [.capP, .blank, .capO, .capV, .lowR]
def legNoUt : List Glyph := [.lowN, .capO, .blank, .capU, .lowT]
def legCalDash : List Glyph := [.capC, .capA, .capL, .dash]
def legBusy : List Glyph := [.lowB, .capU, .capS, .capY]

def freshnessLegend : Freshness → List Glyph
  | .fresh => legFrsh
  | .stale => legStal
  | .absent => legAbs
  | .fault => legFlt

/-- The alarm legends in priority order (R142). -/
def alarmLegend : Alarm → List Glyph
  | .lowSupply => legLoSu
  | .stationConflict => legStn
  | .inputFault => legInput
  | .calInvalid => legCal
  | .crossCheck => legXchk
  | .overload => legOvld
  | .passOver => legPOvr
  | .noWeigher => legNoUt

/-- The channel of DIAG items 2-8. -/
def diagChannel (item : Nat) : Option ChanId :=
  match item with
  | 2 => some .pressure
  | 3 => some .primary
  | 4 => some .secondary
  | 5 => some .tilt
  | 6 => some .drive
  | 7 => some .incline
  | 8 => some .tag
  | _ => none

/-- The counter figure of a channel item: the gap counter, or the held value, dashes where none is held (Table 8-9, log 23).
-/
def Chip.channelFigure (c : Chip) : ChanId → List Byte
  | .pressure => natural 5 c.inp.pressure.gap
  | .primary => natural 5 c.inp.primary.gap
  | .secondary => natural 5 c.inp.secondary.gap
  | .tilt => orDashes 5 (number 5 0) c.inp.held.tilt
  | .drive => orDashes 5 (fun v => natural 5 v.speed) c.inp.held.drive
  | .incline => orDashes 5 (fun v => number 5 0 v.pitch) c.inp.held.incline
  | .tag => orDashes 5 (fun v => natural 5 v.id) c.inp.held.tag

def Chip.channelItem (c : Chip) (i : ChanId) : List Byte × List Byte :=
  (legend 4 (freshnessLegend (c.inp.chan i).freshness),
   firstPointLit ((c.inp.chan i).loss == .ranOut) (c.channelFigure i))

def directionGlyph : Direction → Glyph
  | .n => .capN
  | .f => .capF
  | .r => .capR

/-- Items 9 and 10; dashes in the place of a drive or incline value that is not held (log 23). -/
def Chip.driveItem (c : Chip) : List Byte × List Byte :=
  match c.inp.held.drive with
  | some v =>
    ([(directionGlyph v.dir).seg, Glyph.blank.seg, numeral v.gear, Glyph.blank.seg],
     blanks 3 ++ [flagDigit v.lights, flagDigit v.park])
  | none => (dashes 4, dashes 5)

def Chip.sourceItem (c : Chip) : List Byte × List Byte :=
  (legend 4 (match c.inp.sel with
    | some .primary => legPri
    | some .secondary => legSec
    | none => legNone),
   flagDigit c.inp.disagree :: orDashes 4 (fun v => number 4 0 (clampInt (-999) 999 v.roll)) c.inp.held.incline)

/-- Items 11-17: the tallies (Table 8-9). -/
def tallyItem (t : Tallies) (item : Nat) : List Byte × List Byte :=
  match item with
  | 11 => (legend 4 legRate, natural 5 t.rate)
  | 12 => (legend 4 legAge, natural 5 t.age)
  | 13 => (legend 4 legSens, natural 5 t.sensor)
  | 14 => (legend 4 legDisa, natural 5 t.disagree)
  | 15 => (legend 4 legIncl, natural 5 t.incline)
  | 16 => (legend 4 legSpd, natural 5 t.speed)
  | _ => (legend 4 legBinf, natural 5 t.binfull)

/-- Items 20-25: the void counters (Table 8-9). -/
def voidItem (v : Voids) (item : Nat) : List Byte × List Byte :=
  match item with
  | 20 => (legend 4 legRet, natural 5 v.returned)
  | 21 => (legend 4 legCto, natural 5 v.carryTimeout)
  | 22 => (legend 4 legEpty, natural 5 v.empty)
  | 23 => (legend 4 legInpl, natural 5 v.inputLoss)
  | 24 => (legend 4 legPour, natural 5 v.power)
  | _ => (legend 4 legRst, natural 5 v.restart)

/-- Items 26-31: the link counters (Table 8-9). -/
def linkItem (l : Link) (item : Nat) : List Byte × List Byte :=
  match item with
  | 26 => (legend 4 legChec, natural 5 l.check)
  | 27 => (legend 4 legForm, natural 5 l.form)
  | 28 => (legend 4 legLen, natural 5 l.length)
  | 29 => (legend 4 legTxf, natural 5 l.txFail)
  | 30 => (legend 4 legQdrp, natural 5 l.qDrop)
  | _ => (legend 4 legQuit, natural 5 l.quietEntries)

/-- Items 32-39: a peer record; its role state code, then its age in 10 ms steps limited to 199 (Table 8-9, log 23). -/
def Chip.peerItem (c : Chip) (n : Nat) : List Byte × List Byte :=
  match c.role.peers[n]? with
  | some p => (natural 4 p.station, numeral p.state.code :: natural 4 (min 199 (age c.tick p.at_ / 10)))
  | none => (dashes 4, dashes 5)

/-- Items 40-47: an alarm record; of a legend of five characters the main field shows the first four (Table 8-9, log 23). -/
def Chip.alarmItem (c : Chip) (a : Alarm) : List Byte × List Byte :=
  let r := c.alarm.get a
  (legend 4 (alarmLegend a), [Glyph.blank.seg, flagDigit r.cond, flagDigit r.latch, flagDigit r.ack, flagDigit r.mask])

def alarmOfItem (item : Nat) : Alarm :=
  match item with
  | 40 => .lowSupply
  | 41 => .stationConflict
  | 42 => .inputFault
  | 43 => .calInvalid
  | 44 => .crossCheck
  | 45 => .overload
  | 46 => .passOver
  | _ => .noWeigher

def gradeLegend : Grade → List Glyph
  | .good => legGood
  | .fair => legFair
  | .poor => legPoor
  | .reject => legRej

/-- Items 1, 18, 19 and 48-52 (Table 8-9). -/
def Chip.startItem (c : Chip) : List Byte × List Byte :=
  (if c.store.configDefault then legend 4 legCfg else blanks 4,
   lastPointLit c.store.retainLost (natural 5 c.sup.startKind.code))

def Chip.pairItem (c : Chip) : List Byte × List Byte :=
  match c.role.lastPair with
  | some p => (natural 4 p.shadow, firstPointLit p.mismatch (natural 5 p.active))
  | none => (dashes 4, dashes 5)

/-- Item 50: the populated bins and the payload of the last result; a window shut without a result shows dashes, its bins
having no item of Table 8-9 (R5, log 23). -/
def Chip.windowItem (c : Chip) : List Byte × List Byte :=
  (orDashes 4 (fun w => natural 4 w.bins) c.eng.last, orDashes 5 (natural 5) (c.eng.last.bind WindowResult.payload))

def Chip.gradeItem (c : Chip) : List Byte × List Byte :=
  (orDashes 4 (fun w => legend 4 (gradeLegend w.grade)) c.eng.last,
   orDashes 5 (natural 5) (c.eng.last.bind WindowResult.fill))

def Chip.otherItem (c : Chip) (item : Nat) : List Byte × List Byte :=
  match item with
  | 1 => c.startItem
  | 9 => c.driveItem
  | 10 => c.sourceItem
  | 18 => c.pairItem
  | 19 => (natural 4 c.role.mismatches, natural 5 c.role.unpaired)
  | 48 => (orDashes 4 (natural 4) c.role.named, natural 5 c.role.state.code)
  | 49 => (natural 4 (if c.role.behind then 1 else 0), natural 5 c.load.seq.toNat)
  | 50 => c.windowItem
  | 51 => c.gradeItem
  | _ => (natural 4 c.link.queue.length, natural 5 (if c.link.access = .quiet then 1 else 0))

/-- The main and counter fields of a DIAG item (Table 8-9). -/
def Chip.diagItem (c : Chip) (item : Nat) : List Byte × List Byte :=
  match diagChannel item with
  | some i => c.channelItem i
  | none =>
    if 11 ≤ item ∧ item ≤ 17 then tallyItem c.eng.tallies item
    else if 20 ≤ item ∧ item ≤ 25 then voidItem c.trk.voids item
    else if 26 ≤ item ∧ item ≤ 31 then linkItem c.link item
    else if 32 ≤ item ∧ item ≤ 39 then c.peerItem (item - 32)
    else if 40 ≤ item ∧ item ≤ 47 then c.alarmItem (alarmOfItem item)
    else c.otherItem item

def Chip.diagPage (c : Chip) : Fields :=
  .of (c.diagItem c.panel.diagItem).1 (natural 2 c.panel.diagItem) (c.diagItem c.panel.diagItem).2

/-! ## Page, banner, message, annunciators (R142, R143, R147) -/

/-- The page the image shows: in PEEK the PEEK page (R147). -/
def Chip.shownPage (c : Chip) : Page :=
  if c.sup.power = .peek then (if c.panel.peekHistory then .history else .count) else c.panel.page

def Chip.pageFields (c : Chip) : Fields :=
  match c.shownPage with
  | .run => c.runFields
  | .truck => c.truckPage
  | .count => c.countPage
  | .history => c.historyPage
  | .setup => c.setupPage
  | .diag => c.diagPage
  | .cal => c.calPage

/-- The banner's legend stands in the counter field; the message stands over all three (R142). -/
def Chip.fields (c : Chip) : Fields :=
  let f := c.pageFields
  let f := match c.banner with
    | some a => { f with counter := legend 5 (alarmLegend a) }
    | none => f
  if c.panel.message.isSome then { f with main := legend 4 legCalDash, aux := blanks 2, counter := legend 5 legBusy }
  else f

def Chip.recordFlag (c : Chip) (f : RecFlags → Bool) : Bool :=
  match c.load.record with
  | some r => f r.flags
  | none => false

/-- OVER: the OVERLOAD condition, or on the RUN page a WEIGHED last pass above 100 % (Table 8-10). -/
def Chip.overLit (c : Chip) : Bool :=
  c.overloaded || (c.shownPage == .run && match c.panel.lastPass with
    | some p => p.payload.isSome && decide (100 < p.fill.getD 0)
    | none => false)

/-- STALE: NO WEIGHER in RUN, or a DIAG item whose channel is STALE (Table 8-10, R147). -/
def Chip.staleLit (c : Chip) : Bool :=
  (c.inRun && c.role.noWeigher) || (c.shownPage == .diag && match diagChannel c.panel.diagItem with
    | some i => (c.inp.chan i).freshness == .stale
    | none => false)

/-- RUN or TRUCK is shown, where NOTRK and PARTIAL may be lit (Table 8-10). -/
def Chip.onLoadPage (c : Chip) : Bool := c.shownPage == .run || c.shownPage == .truck

/-- TONNES: the page shows a mass (Table 8-10). It is lit by the page and item shown, also where their fields are blank or
dashes (log 54). -/
def Chip.tonnesLit (c : Chip) : Bool :=
  match c.shownPage with
  | .run | .truck | .history => true
  | .count => c.panel.countItem == 5 || c.panel.countItem == 7
  | .setup => c.panel.setupItem == 4
  | .diag | .cal => false

/-- Byte 13: bargraph segments 17-20, then TARGET, LAST, OVER, STALE (Table 12-6). -/
def Chip.byte13 (c : Chip) (bar : Nat) : Byte :=
  BitVec.ofNat 8 (bitVal (17 ≤ bar) 7 + bitVal (18 ≤ bar) 6 + bitVal (19 ≤ bar) 5 + bitVal (20 ≤ bar) 4
    + bitVal (c.recordFlag RecFlags.reached) 3 + bitVal (c.recordFlag RecFlags.last) 2 + bitVal c.overLit 1
    + bitVal c.staleLit 0)

/-- Byte 14: STN, XCHK, CAL, LOWV, ALARM, NOTRK, PARTIAL, TONNES (Table 12-6); XCHK, LOWV and ALARM are dark in PEEK. -/
def Chip.byte14 (c : Chip) : Byte :=
  BitVec.ofNat 8 (bitVal c.role.conflict 7 + bitVal (c.inRun && c.role.crossCheck) 6 + bitVal (c.cal.state != .out) 5
    + bitVal (c.inRun && c.sup.status == .low) 4 + bitVal c.banner.isSome 3
    + bitVal (c.load.record.isNone && c.onLoadPage) 2
    + bitVal (c.recordFlag RecFlags.isPartial && c.onLoadPage) 1 + bitVal c.tonnesLit 0)

/-- Byte 15: the phase legends E and L (Table 12-6). -/
def Chip.byte15 (c : Chip) : Byte :=
  if c.shownPage = .cal then BitVec.ofNat 8 (bitVal (c.cal.state == .empty) 0 + bitVal (c.cal.state == .loaded) 1)
  else 0

/-- Eight bargraph segments, the leftmost in bit 7 (Table 12-6). -/
def barByte (from_ bar : Nat) : Byte :=
  BitVec.ofNat 8 (((List.range 8).map fun i => bitVal (from_ + i ≤ bar) (7 - i)).sum)

/-- The panel frame of the image; blank in HOLD and DOZE (R143, Table 12-6). -/
def Chip.composeFrame (c : Chip) : List Byte :=
  match c.sup.power with
  | .hold | .doze => blankFrame
  | .run | .peek =>
    let f := c.fields
    f.main ++ f.aux ++ f.counter ++ [barByte 1 f.bar, barByte 9 f.bar, c.byte13 f.bar, c.byte14, c.byte15]

/-- FRAME_TIMER: every 50 ms the image is composed and sent (R143). -/
def Chip.frameTimer (c : Chip) : Chip :=
  if due 50 c.panel.frameTimer c.tick then
    c.mapPanel fun p => { p with frame := c.composeFrame, frameTimer := some c.tick }
  else c

end Sys2Proof.Machine
end

