-- ==== Sys2Proof/WellFormed.lean ====
section
/-! DEFINITION. When the operands of a command describe an event that can happen: the check of the sender's side.
Every command has its meaning whether or not it passes; where the part itself tests an operand, the meaning does. -/

namespace Sys2Proof

/-- The codes of the known kinds (Table 12-2). -/
def knownCodes : List Byte :=
  [0x08, 0x09, 0x0A, 0x0B, 0x0C, 0x10, 0x20, 0x21, 0x22, 0x23, 0x24, 0x25, 0x26, 0x27, 0x30, 0x31, 0x32]

/-- A telegram has 0-12 data bytes (Table 12-1). -/
def dataFits (data : List Byte) : Bool := data.length ≤ 12

/-- A run of characters that fails a receive test (R150). -/
def runFails (run : List RxChar) : Bool :=
  match receiveTests run with
  | .failed _ => true
  | .whole _ => false

/-- The operands of a command describe its event: a telegram's data fits, a run is a failing one, the kind of an
unknown kind telegram is unknown, a bit index lies within the longest telegram (190 bits, R149), a station number is
1-31, and a voltage lies on the side of its trip that the event names (R174). -/
def Instr.wf : Instr → Bool
  | .liftPressure _ _ d | .boomAngle _ _ d | .bucketTilt _ _ d | .chassisIncline _ _ d | .driveState _ _ d
  | .truckTag _ _ d | .weigherStatus _ _ d | .truckStatus _ _ d | .passRecord _ _ d | .truckClosed _ _ d
  | .counterRequest _ _ d | .counterReport _ _ d | .diagRequest _ _ d | .diagReport _ _ d | .configWrite _ _ d
  | .configCommit _ _ d | .configStatus _ _ d => dataFits d
  | .unknownKindTelegram kind _ _ d => dataFits d && !knownCodes.contains kind
  | .receiveFailure run => runFails run
  | .readbackMismatch bit => bit < 190
  | .peerRecordRemoval station => 1 ≤ station && station ≤ 31
  | .supplyFallsLow volts => volts < 160
  | .supplyRisesOk volts _ => 180 < volts
  | .regulatorFail volts => volts < 90
  | .coldStart volts _ => 90 ≤ volts
  | .settleGapComplete | .dominantDuringDelay | .accessDelayEnd | .telegramSent | .quietTimerExpiry
  | .staleExpiry _ | .lossTimerExpiry _ | .rateTimerExpiry | .fillEmptyTimerExpiry | .carryTimerExpiry
  | .inputLossTimerExpiry _ | .truckStatusRefresh | .counterPollTimer | .keyLineChange _ _ | .keyDebounceExpiry _
  | .longPress | .repeatStep | .frameTimer | .blinkTimer | .historyViewTimer | .messageTimer | .buzzerPhaseEnd
  | .maskTimerExpiry _ | .statusTimerExpiry | .watchTimerExpiry | .listenTimerExpiry | .pairingTimerExpiry
  | .storeWriteComplete | .startWindowEnd | .ignLineChange _ | .ignitionChange | .peekTimerExpiry | .resetAssert
  | .resetRelease _ | .ignitionOffAfterStart | .bklPeriodStart => true

end Sys2Proof
end

