-- ==== Sys2Proof/Machine/Telegram.lean ====
section
/-! DEFINITION. Reception (R150, R152-R154): the receive tests' outcome, the station conflict test, the filter, the
routing to the consumers and the reading of each layout (R182), the arrivals of the seven channels and the expiries of
their timers. -/

namespace Sys2Proof.Machine

/-! ## Arrivals handed on (R63) -/

/-- What follows an arrival of a channel that the tracker watches: its input-loss timers, and INPUT FAULT (R40, R62). -/
def Chip.afterArrival (c : Chip) : Chip := c.syncLoss.refresh .inputFault

/-- A LIFT PRESSURE arrival: recorded, then a sample event of the weighing engine or of an open calibration lift, then
an arrival of the tracker (R53, R63, R94). -/
def Chip.pressureArrival (m : PressureMsg) (c : Chip) : Chip :=
  let c := c.mapInp (InputTable.arrivePressure m c.tick)
  let c := c.mapEng (Engine.sample c.cfg c.inp c.tick)
  let c := c.mapCal (CalUnit.sample c.cfg c.inp c.tick)
  (c.trackPressure m.status).afterArrival

/-- A primary angle arrival at the calibration unit, while calibration runs (R93). -/
def Chip.calAngle (status : ArrStatus) (c : Chip) : Chip :=
  match c.cal.state, status, c.inp.held.primary with
  | .out, _, _ => c
  | _, .ok, some theta => c.mapCal (CalUnit.angle theta)
  | _, _, _ => c

/-- A BOOM ANGLE arrival of the primary or the secondary channel (R51, R53, R63). -/
def Chip.angleArrival (src : AngleSrc) (m : AngleMsg) (c : Chip) : Chip :=
  let c := c.mapInp (InputTable.arriveAngle c.cfg.disagreeLimit src m c.tick)
  match src with
  | .primary => ((c.calAngle m.status).trackAngle m.status).afterArrival
  | .secondary => c

def Chip.tiltArrival (m : TiltMsg) (c : Chip) : Chip :=
  ((c.mapInp (InputTable.arriveTilt m c.tick)).trackTilt m.status).afterArrival

/-- A DRIVE STATE arrival: the lights flag goes to the panel (R63, R144). -/
def Chip.driveArrival (m : DriveMsg) (c : Chip) : Chip :=
  ((c.mapInp (InputTable.arriveDrive m c.tick)).writeShadow).refresh .inputFault

def Chip.inclineArrival (m : InclineMsg) (c : Chip) : Chip :=
  (c.mapInp (InputTable.arriveIncline m c.tick)).refresh .inputFault

/-- A TRUCK TAG arrival goes to the load register (R63, R74). -/
def Chip.tagArrival (m : TagMsg) (c : Chip) : Chip := (c.mapInp (InputTable.arriveTag m c.tick)).takeTag

/-! ## Consumers in RUN (Table 9-4) -/

/-- Read a data field and hand the telegram on: short data is counted LENGTH, the rest as read (R182). -/
def Chip.take {α : Type} (t : Taken α) (f : α → Chip → Chip) (c : Chip) : Chip :=
  match t with
  | .short => c.countShort
  | .dropped => c
  | .taken a => f a c

/-- A BOOM ANGLE goes to the record of its source, the primary where both name it (R51). -/
def Chip.takeAngle (src : Byte) (data : List Byte) (c : Chip) : Chip :=
  match c.cfg.angleSrc src.toNat with
  | some a => c.take (readAngle data) (Chip.angleArrival a)
  | none => c

/-- The consumer of each kind in RUN (Table 9-4). -/
def Chip.consumeInRun (k : Kind) (src dst : Byte) (data : List Byte) (c : Chip) : Chip :=
  match k with
  | .liftPressure => c.take (readPressure data) Chip.pressureArrival
  | .boomAngle => c.takeAngle src data
  | .bucketTilt => c.take (readTilt data) Chip.tiltArrival
  | .chassisIncline => c.take (readIncline data) Chip.inclineArrival
  | .driveState => c.take (readDrive data) Chip.driveArrival
  | .truckTag => c.take (readTag data) Chip.tagArrival
  | .weigherStatus => c.take (readStatus data) (Chip.weigherStatus src)
  | .truckStatus => c.take (readTruck data) (Chip.truckStatus src)
  | .passRecord => c.take (readPass data) (Chip.passRecord src)
  | .truckClosed => c.take (readClosed data) (Chip.truckClosed src)
  | .counterRequest => c.counterRequest src dst
  | .counterReport => c.take (readReport data) (Chip.counterReport src)
  | .diagRequest => c.take (readDiagRequest data) (Chip.diagRequest src)
  | .configWrite => c.take (readConfigWrite data) (Chip.configWrite src)
  | .configCommit => c.take (readConfigCommit data) (Chip.configCommit src)
  | .diagReport | .configStatus => c

/-- An accepted telegram by power state: in DOZE and PEEK only a COUNTER REQUEST is handed on, and in HOLD nothing is
received (R154). -/
def Chip.consume (k : Kind) (src dst : Byte) (data : List Byte) (c : Chip) : Chip :=
  match c.sup.power with
  | .run => c.consumeInRun k src dst data
  | .doze | .peek => if k = .counterRequest then c.counterRequest src dst else c
  | .hold => c

/-! ## The filter (R153, Table 9-3) -/

/-- The channels that a sensor kind feeds (Table 3-1). -/
def Kind.channels : Kind → List ChanId
  | .liftPressure => [.pressure]
  | .boomAngle => [.primary, .secondary]
  | .bucketTilt => [.tilt]
  | .chassisIncline => [.incline]
  | .driveState => [.drive]
  | .truckTag => [.tag]
  | .weigherStatus | .truckStatus | .passRecord | .truckClosed | .counterRequest | .counterReport | .diagRequest
  | .diagReport | .configWrite | .configCommit | .configStatus => []

/-- Test 4: a sensor kind comes from the source of a channel of that kind. -/
def Cfg.hears (c : Cfg) (k : Kind) (src : Nat) : Bool :=
  k.channels.isEmpty || k.channels.any fun i => c.source i == src

/-- Test 5: a service kind has destination 0. -/
def Kind.isService : Kind → Bool
  | .configWrite | .configCommit | .configStatus => true
  | .liftPressure | .boomAngle | .bucketTilt | .chassisIncline | .driveState | .truckTag | .weigherStatus
  | .truckStatus | .passRecord | .truckClosed | .counterRequest | .counterReport | .diagRequest | .diagReport => false

/-- The receive filter: the known kind of an accepted telegram, or none where a test drops it (Table 9-3). -/
def Chip.filter (c : Chip) (t : WholeTelegram) : Option Kind :=
  if t.dst ≠ 0 ∧ t.dst.toNat ≠ c.link.station then none
  else if t.src.toNat < 1 ∨ 31 < t.src.toNat then none
  else
    match Kind.ofCode t.kind with
    | none => none
    | some k =>
      if !c.cfg.hears k t.src.toNat then none
      else if k.isService && t.dst == 0 then none
      else some k

/-! ## Reception (R150, R152) -/

/-- The receiver follows the bus: the part runs, the receiver is not off, and the part is not sending (R150). -/
def Chip.listening (c : Chip) : Bool := c.sup.life == .up && c.link.rx != .off && c.link.access != .send

/-- The receiver waits in SKIP for a settle gap and takes nothing; while a delay is counted the gap has been, and it takes
the telegram that begins (R150, Table 9-6, log 48). -/
def Link.skips (l : Link) : Bool := l.rx == .skip && l.access != .delay

/-- The bus carries another's telegram: a delay being counted ends, the telegram stays in hand (Table 9-6, log 5). -/
def Link.busTaken (l : Link) : Link := if l.access = .delay then { l with access := .gap, delay := 0 } else l

/-- A whole telegram: the station conflict test, then the filter, then its consumer (R152, R153). -/
def Chip.takeWhole (t : WholeTelegram) (c : Chip) : Chip :=
  if c.link.station ≠ 0 ∧ t.src.toNat = c.link.station ∧ c.inRun then c.conflictReport
  else
    match c.filter t with
    | some k => c.consume k t.src t.dst t.data
    | none => c

/-- The settle gap that ends a run is complete, and the receiver is IDLE (R150). -/
def Link.runEnded (l : Link) : Link := { l.busTaken with rx := .idle, gapDone := true }

/-- A whole telegram with the settle gap that ends it: taken in IDLE and FRAME; a receiver in SKIP takes nothing, and is
IDLE after the gap (R150, R160, log 5). -/
def Chip.receive (kind src dst : Byte) (data : List Byte) (c : Chip) : Chip :=
  if c.listening && dataFits data then
    let c' := c.mapLink Link.runEnded
    (if c.link.skips then c' else c'.takeWhole ⟨kind, src, dst, data⟩).settleLink
  else c

/-- A telegram of an unknown kind: tested for station conflict, then dropped by the filter (R152, R153). -/
def Chip.receiveUnknown (kind src dst : Byte) (data : List Byte) (c : Chip) : Chip :=
  if (Kind.ofCode kind).isSome then c else c.receive kind src dst data

/-- A run fails a test: in SKIP it is not counted; a FORM failure leaves SKIP, the others are found at the ending settle
gap (R150, Table 9-2). -/
def Link.runFailed (e : RxError) (l : Link) : Link :=
  let l := if l.skips then l else l.count e
  match e with
  | .form => { l.busTaken with rx := .skip, gapDone := false }
  | .length | .check => l.runEnded

/-- RECEIVE_FAILURE: a run fails a test and is counted against one counter (Table 9-2). -/
def Chip.receiveFailure (run : List RxChar) (c : Chip) : Chip :=
  if c.listening then
    match receiveTests run with
    | .whole _ => c
    | .failed e => (c.mapLink (Link.runFailed e)).settleLink
  else c

/-- The run that the receiver holds in FRAME ends at the settle gap (R150, R160). -/
def Chip.frameEnded (run : List RxChar) (c : Chip) : Chip :=
  match receiveTests run with
  | .failed e => c.mapLink fun l => l.runEnded.count e
  | .whole t => (c.mapLink Link.runEnded).takeWhole t

/-- SETTLE_GAP_COMPLETE: the bus has been recessive for a settle gap, which the access state follows whether or not the
receiver runs (R155, log 48). SKIP becomes IDLE; a run taken over after a collision is tested (R149, R150, R160). -/
def Chip.settleGapComplete (c : Chip) : Chip :=
  if c.link.access = .send then c
  else
    (match c.link.rx with
      | .frame run => c.frameEnded run
      | .idle | .skip => c.mapLink fun l => { l with rx := .idle, gapDone := true }
      | .off => c.mapLink fun l => { l with gapDone := true }).settleLink

/-! ## Expiries of the input table's timers (R54, R61, R62) -/

/-- STALE_EXPIRY: the change of freshness is handed on as Table 3-5 gives. -/
def Chip.staleExpiry (i : ChanId) (c : Chip) : Chip :=
  if c.inRun && c.inp.staleDue i c.tick then
    let c := c.mapInp (InputTable.staleExpiry c.cfg.disagreeLimit i c.tick)
    let c := match i with
      | .tag => c.tagStale
      | .drive => c.writeShadow
      | .pressure | .primary | .secondary | .tilt | .incline => c
    c.afterArrival.settleLink
  else c

/-- LOSS_TIMER_EXPIRY (R62). -/
def Chip.lossTimerExpiry (i : ChanId) (c : Chip) : Chip :=
  (c.mapInp (InputTable.lossTimerExpiry i c.tick)).refresh .inputFault

/-- RATE_TIMER_EXPIRY (R61). -/
def Chip.rateTimerExpiry (c : Chip) : Chip := c.mapInp (InputTable.rateTimerExpiry c.tick)

/-! ## Events while the part takes events (R176) -/

/-- An event is taken only while the part runs: not without its regulator, held by RESET or with a LINE start pending
(R174, R176). -/
def Chip.whenUp (f : Chip → Chip) (c : Chip) : Chip :=
  match c.sup.life with
  | .up => f c
  | .off | .held | .linePending => c

/-- The passing of one millisecond: the timebase counts, except without the regulator (R49, log 2). -/
def Chip.passTime (c : Chip) : Chip :=
  match c.sup.life with
  | .off => c
  | .held | .linePending | .up => { c with tick := c.tick + 1 }

/-- Every command completes: the part takes the effect, the queue is not touched. -/
def State.act (f : Chip → Chip) (s : State) : Host.Outcome State Fault Refusal := .next { s with chip := f s.chip }

end Sys2Proof.Machine
end

