-- ==== Sys2Proof/Machine/Bus.lean ====
section
/-! DEFINITION. The meanings of the events of the bus. Each is the effect on the part; the queue is not touched. -/

namespace Sys2Proof.Machine

/-- RECEIVE_FAILURE (R150). -/
def execReceiveFailure (run : List RxChar) (s : State) : Host.Outcome State Fault Refusal :=
  s.act (Chip.whenUp (Chip.receiveFailure run))

/-- SETTLE_GAP_COMPLETE (R150, R158). -/
def execSettleGapComplete (s : State) : Host.Outcome State Fault Refusal :=
  s.act (Chip.whenUp Chip.settleGapComplete)

/-- DOMINANT_DURING_DELAY (R159). -/
def execDominantDuringDelay (s : State) : Host.Outcome State Fault Refusal :=
  s.act (Chip.whenUp Chip.dominantDuringDelay)

/-- ACCESS_DELAY_END (R159, R181). -/
def execAccessDelayEnd (s : State) : Host.Outcome State Fault Refusal :=
  s.act (Chip.whenUp Chip.accessDelayEnd)

/-- TELEGRAM_SENT (R160). -/
def execTelegramSent (s : State) : Host.Outcome State Fault Refusal :=
  s.act (Chip.whenUp Chip.telegramSent)

/-- READBACK_MISMATCH (R160, R161). -/
def execReadbackMismatch (bit : Nat) (s : State) : Host.Outcome State Fault Refusal :=
  s.act (Chip.whenUp (Chip.readbackMismatch bit))

/-- QUIET_TIMER_EXPIRY (R161). -/
def execQuietTimerExpiry (s : State) : Host.Outcome State Fault Refusal :=
  s.act (Chip.whenUp Chip.quietTimerExpiry)

end Sys2Proof.Machine
end

