-- ==== Sys2Proof/Machine/Messages.lean ====
section
/-! DEFINITION. The meanings of the family and service telegrams and a telegram of an unknown kind. Each is the effect on the part; the queue is not touched. -/

namespace Sys2Proof.Machine

/-- WEIGHER_STATUS: a WEIGHER STATUS is received (R106, R107, R110, R113). -/
def execWeigherStatus (src : Byte) (dst : Byte) (data : List Byte) (s : State) : Host.Outcome State Fault Refusal :=
  s.act (Chip.whenUp (Chip.receive 0x20 src dst data))

/-- TRUCK_STATUS: a TRUCK STATUS is received (R113). -/
def execTruckStatus (src : Byte) (dst : Byte) (data : List Byte) (s : State) : Host.Outcome State Fault Refusal :=
  s.act (Chip.whenUp (Chip.receive 0x21 src dst data))

/-- PASS_RECORD: a PASS RECORD is received (R114, R118). -/
def execPassRecord (src : Byte) (dst : Byte) (data : List Byte) (s : State) : Host.Outcome State Fault Refusal :=
  s.act (Chip.whenUp (Chip.receive 0x22 src dst data))

/-- TRUCK_CLOSED: a TRUCK CLOSED is received (R115). -/
def execTruckClosed (src : Byte) (dst : Byte) (data : List Byte) (s : State) : Host.Outcome State Fault Refusal :=
  s.act (Chip.whenUp (Chip.receive 0x23 src dst data))

/-- COUNTER_REQUEST: a COUNTER REQUEST is received (R84). -/
def execCounterRequest (src : Byte) (dst : Byte) (data : List Byte) (s : State) : Host.Outcome State Fault Refusal :=
  s.act (Chip.whenUp (Chip.receive 0x24 src dst data))

/-- COUNTER_REPORT: a COUNTER REPORT is received (R85). -/
def execCounterReport (src : Byte) (dst : Byte) (data : List Byte) (s : State) : Host.Outcome State Fault Refusal :=
  s.act (Chip.whenUp (Chip.receive 0x25 src dst data))

/-- DIAG_REQUEST: a DIAG REQUEST is received (R162). -/
def execDiagRequest (src : Byte) (dst : Byte) (data : List Byte) (s : State) : Host.Outcome State Fault Refusal :=
  s.act (Chip.whenUp (Chip.receive 0x26 src dst data))

/-- DIAG_REPORT: a DIAG REPORT is received; it has no consumer (Table 9-4). -/
def execDiagReport (src : Byte) (dst : Byte) (data : List Byte) (s : State) : Host.Outcome State Fault Refusal :=
  s.act (Chip.whenUp (Chip.receive 0x27 src dst data))

/-- CONFIG_WRITE: a CONFIG WRITE is received (R171). -/
def execConfigWrite (src : Byte) (dst : Byte) (data : List Byte) (s : State) : Host.Outcome State Fault Refusal :=
  s.act (Chip.whenUp (Chip.receive 0x30 src dst data))

/-- CONFIG_COMMIT: a CONFIG COMMIT is received (R172). -/
def execConfigCommit (src : Byte) (dst : Byte) (data : List Byte) (s : State) : Host.Outcome State Fault Refusal :=
  s.act (Chip.whenUp (Chip.receive 0x31 src dst data))

/-- CONFIG_STATUS: a CONFIG STATUS is received; it has no consumer (Table 9-4). -/
def execConfigStatus (src : Byte) (dst : Byte) (data : List Byte) (s : State) : Host.Outcome State Fault Refusal :=
  s.act (Chip.whenUp (Chip.receive 0x32 src dst data))

/-- UNKNOWN_KIND_TELEGRAM: dropped by the filter (R153). -/
def execUnknownKindTelegram (kind : Byte) (src : Byte) (dst : Byte) (data : List Byte) (s : State) : Host.Outcome State Fault Refusal :=
  s.act (Chip.whenUp (Chip.receiveUnknown kind src dst data))

end Sys2Proof.Machine
end

