-- ==== Sys2Proof/Machine/PanelEvents.lean ====
section
/-! DEFINITION. The meanings of the key lines, the keys, the panel timers, the backlight and the buzzer. Each is the effect on the part; the queue is not touched. -/

namespace Sys2Proof.Machine

/-- KEY_LINE_CHANGE (R132); the line stands in every power state, watched or not. -/
def execKeyLineChange (k : Key) (low : Bool) (s : State) : Host.Outcome State Fault Refusal :=
  s.act (Chip.keyLineChange k low)

/-- KEY_DEBOUNCE_EXPIRY (R132, R133, R136). -/
def execKeyDebounceExpiry (k : Key) (s : State) : Host.Outcome State Fault Refusal :=
  s.act (Chip.whenUp (Chip.keyDebounceExpiry k))

/-- LONG_PRESS (R135). -/
def execLongPress (s : State) : Host.Outcome State Fault Refusal :=
  s.act (Chip.whenUp Chip.longPress)

/-- REPEAT_STEP (R134). -/
def execRepeatStep (s : State) : Host.Outcome State Fault Refusal :=
  s.act (Chip.whenUp Chip.repeatStep)

/-- FRAME_TIMER (R143). -/
def execFrameTimer (s : State) : Host.Outcome State Fault Refusal :=
  s.act (Chip.whenUp Chip.frameTimer)

/-- BLINK_TIMER (R143). -/
def execBlinkTimer (s : State) : Host.Outcome State Fault Refusal :=
  s.act (Chip.whenUp Chip.blinkTimer)

/-- HISTORY_VIEW_TIMER (R139). -/
def execHistoryViewTimer (s : State) : Host.Outcome State Fault Refusal :=
  s.act (Chip.whenUp Chip.historyViewTimer)

/-- MESSAGE_TIMER (R142). -/
def execMessageTimer (s : State) : Host.Outcome State Fault Refusal :=
  s.act (Chip.whenUp Chip.messageTimer)

/-- BUZZER_PHASE_END (R145, R146). -/
def execBuzzerPhaseEnd (s : State) : Host.Outcome State Fault Refusal :=
  s.act (Chip.whenUp Chip.buzzerPhaseEnd)

/-- BKL_PERIOD_START (R144). -/
def execBklPeriodStart (s : State) : Host.Outcome State Fault Refusal :=
  s.act (Chip.whenUp Chip.bklPeriodStart)

end Sys2Proof.Machine
end

