-- ==== Sys2Proof/Machine/Sensors.lean ====
section
/-! DEFINITION. The meanings of the six sensor telegrams. Each is the effect on the part; the queue is not touched. -/

namespace Sys2Proof.Machine

/-- LIFT_PRESSURE: a LIFT PRESSURE is received, recorded and handed on (R53, R7, R30, R31, R94). -/
def execLiftPressure (src : Byte) (dst : Byte) (data : List Byte) (s : State) : Host.Outcome State Fault Refusal :=
  s.act (Chip.whenUp (Chip.receive 0x08 src dst data))

/-- BOOM_ANGLE: a BOOM ANGLE is received (R53, R58-R60, R28, R93). -/
def execBoomAngle (src : Byte) (dst : Byte) (data : List Byte) (s : State) : Host.Outcome State Fault Refusal :=
  s.act (Chip.whenUp (Chip.receive 0x09 src dst data))

/-- BUCKET_TILT: a BUCKET TILT is received (R53, R31, R35, R36, R38). -/
def execBucketTilt (src : Byte) (dst : Byte) (data : List Byte) (s : State) : Host.Outcome State Fault Refusal :=
  s.act (Chip.whenUp (Chip.receive 0x0A src dst data))

/-- CHASSIS_INCLINE: a CHASSIS INCLINE is received (R53). -/
def execChassisIncline (src : Byte) (dst : Byte) (data : List Byte) (s : State) : Host.Outcome State Fault Refusal :=
  s.act (Chip.whenUp (Chip.receive 0x0B src dst data))

/-- DRIVE_STATE: a DRIVE STATE is received (R53, R144). -/
def execDriveState (src : Byte) (dst : Byte) (data : List Byte) (s : State) : Host.Outcome State Fault Refusal :=
  s.act (Chip.whenUp (Chip.receive 0x0C src dst data))

/-- TRUCK_TAG: a TRUCK TAG is received (R53, R74, R75). -/
def execTruckTag (src : Byte) (dst : Byte) (data : List Byte) (s : State) : Host.Outcome State Fault Refusal :=
  s.act (Chip.whenUp (Chip.receive 0x10 src dst data))

end Sys2Proof.Machine
end

