-- ==== Sys2Proof/Machine/SupplyEvents.lean ====
section
/-! DEFINITION. The meanings of the supply, the ignition, the reset line and the store write. Each is the effect on the part; the queue is not touched. -/

namespace Sys2Proof.Machine

/-- STORE_WRITE_COMPLETE (R165, R99, R172). -/
def execStoreWriteComplete (s : State) : Host.Outcome State Fault Refusal :=
  s.act Chip.storeWriteComplete

/-- SUPPLY_FALLS_LOW (R174, R177). -/
def execSupplyFallsLow (volts : Nat) (s : State) : Host.Outcome State Fault Refusal :=
  s.act (Chip.supplyFallsLow volts)

/-- SUPPLY_RISES_OK (R174, R176, R178). -/
def execSupplyRisesOk (volts : Nat) (straps : Straps) (s : State) : Host.Outcome State Fault Refusal :=
  s.act (Chip.supplyRisesOk volts straps)

/-- IGN_LINE_CHANGE (R175). -/
def execIgnLineChange (high : Bool) (s : State) : Host.Outcome State Fault Refusal :=
  s.act (Chip.ignLineChange high)

/-- IGNITION_CHANGE (R175, R177-R179). -/
def execIgnitionChange (s : State) : Host.Outcome State Fault Refusal :=
  s.act Chip.ignitionChange

/-- PEEK_TIMER_EXPIRY (R179). -/
def execPeekTimerExpiry (s : State) : Host.Outcome State Fault Refusal :=
  s.act (Chip.whenUp Chip.peekTimerExpiry)

/-- REGULATOR_FAIL (R174). -/
def execRegulatorFail (volts : Nat) (s : State) : Host.Outcome State Fault Refusal :=
  s.act (Chip.regulatorFail volts)

/-- COLD_START (R167, R174). -/
def execColdStart (volts : Nat) (straps : Straps) (s : State) : Host.Outcome State Fault Refusal :=
  s.act (Chip.coldStart volts straps)

/-- RESET_ASSERT (R176). -/
def execResetAssert (s : State) : Host.Outcome State Fault Refusal :=
  s.act Chip.resetAssert

/-- RESET_RELEASE (R176, R168). -/
def execResetRelease (straps : Straps) (s : State) : Host.Outcome State Fault Refusal :=
  s.act (Chip.resetRelease straps)

/-- IGNITION_OFF_AFTER_START (R176, R177). -/
def execIgnitionOffAfterStart (s : State) : Host.Outcome State Fault Refusal :=
  s.act (Chip.whenUp Chip.ignitionOffAfterStart)

end Sys2Proof.Machine
end

