-- ==== Sys2Proof/Machine/Timers.lean ====
section
/-! DEFINITION. The meanings of the expiries of the input, tracker, load, role, alarm and store timers. Each is the effect on the part; the queue is not touched. -/

namespace Sys2Proof.Machine

/-- STALE_EXPIRY (R54). -/
def execStaleExpiry (i : ChanId) (s : State) : Host.Outcome State Fault Refusal :=
  s.act (Chip.whenUp (Chip.staleExpiry i))

/-- LOSS_TIMER_EXPIRY (R62). -/
def execLossTimerExpiry (i : ChanId) (s : State) : Host.Outcome State Fault Refusal :=
  s.act (Chip.whenUp (Chip.lossTimerExpiry i))

/-- RATE_TIMER_EXPIRY (R61). -/
def execRateTimerExpiry (s : State) : Host.Outcome State Fault Refusal :=
  s.act (Chip.whenUp Chip.rateTimerExpiry)

/-- FILL_EMPTY_TIMER_EXPIRY (R31). -/
def execFillEmptyTimerExpiry (s : State) : Host.Outcome State Fault Refusal :=
  s.act (Chip.whenUp Chip.fillEmptyExpiry)

/-- CARRY_TIMER_EXPIRY (R37). -/
def execCarryTimerExpiry (s : State) : Host.Outcome State Fault Refusal :=
  s.act (Chip.whenUp Chip.carryExpiry)

/-- INPUT_LOSS_TIMER_EXPIRY (R40). -/
def execInputLossTimerExpiry (side : LossSide) (s : State) : Host.Outcome State Fault Refusal :=
  s.act (Chip.whenUp (Chip.inputLossExpiry side))

/-- TRUCK_STATUS_REFRESH (R70). -/
def execTruckStatusRefresh (s : State) : Host.Outcome State Fault Refusal :=
  s.act (Chip.whenUp Chip.truckStatusRefresh)

/-- COUNTER_POLL_TIMER (R86). -/
def execCounterPollTimer (s : State) : Host.Outcome State Fault Refusal :=
  s.act (Chip.whenUp Chip.counterPollTimer)

/-- MASK_TIMER_EXPIRY (R126). -/
def execMaskTimerExpiry (a : Alarm) (s : State) : Host.Outcome State Fault Refusal :=
  s.act (Chip.whenUp (Chip.maskTimerExpiry a))

/-- STATUS_TIMER_EXPIRY (R105). -/
def execStatusTimerExpiry (s : State) : Host.Outcome State Fault Refusal :=
  s.act (Chip.whenUp Chip.statusTimerExpiry)

/-- PEER_RECORD_REMOVAL (R106). -/
def execPeerRecordRemoval (station : Nat) (s : State) : Host.Outcome State Fault Refusal :=
  s.act (Chip.whenUp (Chip.peerRecordRemoval station))

/-- WATCH_TIMER_EXPIRY (R107, R112, R117). -/
def execWatchTimerExpiry (s : State) : Host.Outcome State Fault Refusal :=
  s.act (Chip.whenUp Chip.watchTimerExpiry)

/-- LISTEN_TIMER_EXPIRY (R108, R111). -/
def execListenTimerExpiry (s : State) : Host.Outcome State Fault Refusal :=
  s.act (Chip.whenUp Chip.listenTimerExpiry)

/-- PAIRING_TIMER_EXPIRY (R118). -/
def execPairingTimerExpiry (s : State) : Host.Outcome State Fault Refusal :=
  s.act (Chip.whenUp Chip.pairingTimerExpiry)

/-- START_WINDOW_END (R170). -/
def execStartWindowEnd (s : State) : Host.Outcome State Fault Refusal :=
  s.act (Chip.whenUp Chip.startWindowEnd)

end Sys2Proof.Machine
end

