-- ==== Sys2Proof/Machine/Dispatch.lean ====
section
/-! DEFINITION. The effect of every command on everything but the queue: one arm per constructor, each one direct call
of its meaning. -/

namespace Sys2Proof.Machine

def exec (i : Instr) (s : State) : Host.Outcome State Fault Refusal :=
  match i with
  | .liftPressure src dst data => Sys2Proof.Machine.execLiftPressure src dst data s
  | .boomAngle src dst data => Sys2Proof.Machine.execBoomAngle src dst data s
  | .bucketTilt src dst data => Sys2Proof.Machine.execBucketTilt src dst data s
  | .chassisIncline src dst data => Sys2Proof.Machine.execChassisIncline src dst data s
  | .driveState src dst data => Sys2Proof.Machine.execDriveState src dst data s
  | .truckTag src dst data => Sys2Proof.Machine.execTruckTag src dst data s
  | .weigherStatus src dst data => Sys2Proof.Machine.execWeigherStatus src dst data s
  | .truckStatus src dst data => Sys2Proof.Machine.execTruckStatus src dst data s
  | .passRecord src dst data => Sys2Proof.Machine.execPassRecord src dst data s
  | .truckClosed src dst data => Sys2Proof.Machine.execTruckClosed src dst data s
  | .counterRequest src dst data => Sys2Proof.Machine.execCounterRequest src dst data s
  | .counterReport src dst data => Sys2Proof.Machine.execCounterReport src dst data s
  | .diagRequest src dst data => Sys2Proof.Machine.execDiagRequest src dst data s
  | .diagReport src dst data => Sys2Proof.Machine.execDiagReport src dst data s
  | .configWrite src dst data => Sys2Proof.Machine.execConfigWrite src dst data s
  | .configCommit src dst data => Sys2Proof.Machine.execConfigCommit src dst data s
  | .configStatus src dst data => Sys2Proof.Machine.execConfigStatus src dst data s
  | .receiveFailure run => Sys2Proof.Machine.execReceiveFailure run s
  | .settleGapComplete => Sys2Proof.Machine.execSettleGapComplete s
  | .dominantDuringDelay => Sys2Proof.Machine.execDominantDuringDelay s
  | .accessDelayEnd => Sys2Proof.Machine.execAccessDelayEnd s
  | .telegramSent => Sys2Proof.Machine.execTelegramSent s
  | .readbackMismatch bit => Sys2Proof.Machine.execReadbackMismatch bit s
  | .quietTimerExpiry => Sys2Proof.Machine.execQuietTimerExpiry s
  | .staleExpiry ch => Sys2Proof.Machine.execStaleExpiry ch s
  | .lossTimerExpiry ch => Sys2Proof.Machine.execLossTimerExpiry ch s
  | .rateTimerExpiry => Sys2Proof.Machine.execRateTimerExpiry s
  | .fillEmptyTimerExpiry => Sys2Proof.Machine.execFillEmptyTimerExpiry s
  | .carryTimerExpiry => Sys2Proof.Machine.execCarryTimerExpiry s
  | .inputLossTimerExpiry side => Sys2Proof.Machine.execInputLossTimerExpiry side s
  | .truckStatusRefresh => Sys2Proof.Machine.execTruckStatusRefresh s
  | .counterPollTimer => Sys2Proof.Machine.execCounterPollTimer s
  | .keyLineChange k low => Sys2Proof.Machine.execKeyLineChange k low s
  | .keyDebounceExpiry k => Sys2Proof.Machine.execKeyDebounceExpiry k s
  | .longPress => Sys2Proof.Machine.execLongPress s
  | .repeatStep => Sys2Proof.Machine.execRepeatStep s
  | .frameTimer => Sys2Proof.Machine.execFrameTimer s
  | .blinkTimer => Sys2Proof.Machine.execBlinkTimer s
  | .historyViewTimer => Sys2Proof.Machine.execHistoryViewTimer s
  | .messageTimer => Sys2Proof.Machine.execMessageTimer s
  | .buzzerPhaseEnd => Sys2Proof.Machine.execBuzzerPhaseEnd s
  | .maskTimerExpiry a => Sys2Proof.Machine.execMaskTimerExpiry a s
  | .statusTimerExpiry => Sys2Proof.Machine.execStatusTimerExpiry s
  | .peerRecordRemoval station => Sys2Proof.Machine.execPeerRecordRemoval station s
  | .watchTimerExpiry => Sys2Proof.Machine.execWatchTimerExpiry s
  | .listenTimerExpiry => Sys2Proof.Machine.execListenTimerExpiry s
  | .pairingTimerExpiry => Sys2Proof.Machine.execPairingTimerExpiry s
  | .storeWriteComplete => Sys2Proof.Machine.execStoreWriteComplete s
  | .startWindowEnd => Sys2Proof.Machine.execStartWindowEnd s
  | .supplyFallsLow volts => Sys2Proof.Machine.execSupplyFallsLow volts s
  | .supplyRisesOk volts straps => Sys2Proof.Machine.execSupplyRisesOk volts straps s
  | .ignLineChange high => Sys2Proof.Machine.execIgnLineChange high s
  | .ignitionChange => Sys2Proof.Machine.execIgnitionChange s
  | .peekTimerExpiry => Sys2Proof.Machine.execPeekTimerExpiry s
  | .regulatorFail volts => Sys2Proof.Machine.execRegulatorFail volts s
  | .coldStart volts straps => Sys2Proof.Machine.execColdStart volts straps s
  | .resetAssert => Sys2Proof.Machine.execResetAssert s
  | .resetRelease straps => Sys2Proof.Machine.execResetRelease straps s
  | .ignitionOffAfterStart => Sys2Proof.Machine.execIgnitionOffAfterStart s
  | .unknownKindTelegram kind src dst data => Sys2Proof.Machine.execUnknownKindTelegram kind src dst data s
  | .bklPeriodStart => Sys2Proof.Machine.execBklPeriodStart s

end Sys2Proof.Machine
end

