-- ==== Sys2Proof/Safety.lean ====
section
/-! DEFINITION. What claims about the part are made of: a safe state, what a command gives, which blocks it may change,
when the part hears a telegram, and the invariants that every step keeps. -/

namespace Sys2Proof.Machine

/-- A step from the state answers a next state. -/
def State.safe (s : State) : Prop := ∃ t, step s = .next t

/-! ## What a command gives -/

/-- The command answers a next state, its queue as it stood, with the part as P says. -/
def Gives (i : Instr) (s : State) (P : Chip → Prop) : Prop :=
  ∃ t, exec i s = .next t ∧ t.pending = s.pending ∧ P t.chip

/-- The parts of Chip, for saying which of them a command may change. -/
inductive Block where
  | pins | sup | tick | link | inp | eng | trk | load | role | cal | alarm | panel | store
  deriving DecidableEq, Repr

/-- A block stands in d as in c. -/
def Chip.sameAt (c d : Chip) : Block → Prop
  | .pins => d.pins = c.pins
  | .sup => d.sup = c.sup
  | .tick => d.tick = c.tick
  | .link => d.link = c.link
  | .inp => d.inp = c.inp
  | .eng => d.eng = c.eng
  | .trk => d.trk = c.trk
  | .load => d.load = c.load
  | .role => d.role = c.role
  | .cal => d.cal = c.cal
  | .alarm => d.alarm = c.alarm
  | .panel => d.panel = c.panel
  | .store => d.store = c.store

/-- Between c and d every block stands but those listed. -/
def Chip.onlyChanges (c d : Chip) (bs : List Block) : Prop := ∀ b, b ∉ bs → c.sameAt d b

/-- Of the panel only the buzzer has changed. -/
def Chip.onlyBuzzer (c d : Chip) : Prop := d.panel = { c.panel with buz := d.panel.buz }

/-- Of the alarm records only that of one alarm has changed. -/
def Chip.onlyAlarm (a : Alarm) (c d : Chip) : Prop := ∀ b, b ≠ a → d.alarm.get b = c.alarm.get b

/-! ## When the part takes an event -/

/-- The part runs and its power state is RUN. -/
def Chip.running (c : Chip) : Prop := c.sup.life = .up ∧ c.sup.power = .run

/-- A telegram reaches its consumer in RUN as far as supply, receiver, addresses and length go: the receiver is in IDLE or
FRAME, or counts a delay (Table 9-6), the part does not send, the data fits, the source is another station's, and the
destination is 0 or this station (R150, R152, R153). -/
def Chip.Hears (c : Chip) (src dst : Byte) (data : List Byte) : Prop :=
  c.sup.life = .up ∧ c.sup.power = .run ∧ c.link.rx ≠ .off ∧ (c.link.rx = .skip → c.link.access = .delay)
    ∧ c.link.access ≠ .send ∧ data.length ≤ 12 ∧ 1 ≤ src.toNat ∧ src.toNat ≤ 31
    ∧ src.toNat ≠ c.link.station ∧ (dst = 0 ∨ dst.toNat = c.link.station)

/-- The link after a telegram that its consumer answers with no traffic: the settle gap is complete, the receiver
IDLE, and the access state follows (R150, R158). -/
def Chip.onlyHeard (c d : Chip) : Prop := d.link = c.link.runEnded.settle d.maySend

/-! ## Telegram commands -/

/-- The source, destination and data of the telegram whose reception a command is. -/
def telegramOf : Instr → Option (Byte × Byte × List Byte)
  | .liftPressure src dst data | .boomAngle src dst data | .bucketTilt src dst data | .chassisIncline src dst data
  | .driveState src dst data | .truckTag src dst data | .weigherStatus src dst data | .truckStatus src dst data
  | .passRecord src dst data | .truckClosed src dst data | .counterRequest src dst data | .counterReport src dst data
  | .diagRequest src dst data | .diagReport src dst data | .configWrite src dst data | .configCommit src dst data
  | .configStatus src dst data | .unknownKindTelegram _ src dst data => some (src, dst, data)
  | _ => none

/-- The code of the kind of the telegram whose reception a command is (Table 12-2). -/
def codeOf : Instr → Byte
  | .liftPressure _ _ _ => 0x08
  | .boomAngle _ _ _ => 0x09
  | .bucketTilt _ _ _ => 0x0A
  | .chassisIncline _ _ _ => 0x0B
  | .driveState _ _ _ => 0x0C
  | .truckTag _ _ _ => 0x10
  | .weigherStatus _ _ _ => 0x20
  | .truckStatus _ _ _ => 0x21
  | .passRecord _ _ _ => 0x22
  | .truckClosed _ _ _ => 0x23
  | .counterRequest _ _ _ => 0x24
  | .counterReport _ _ _ => 0x25
  | .diagRequest _ _ _ => 0x26
  | .diagReport _ _ _ => 0x27
  | .configWrite _ _ _ => 0x30
  | .configCommit _ _ _ => 0x31
  | .configStatus _ _ _ => 0x32
  | .unknownKindTelegram kind _ _ _ => kind
  | _ => 0

/-- Tests 3 to 5 of the filter (Table 9-3): a known kind, a sensor kind from a source of one of its channels, a service
kind not broadcast. -/
def Chip.passesKind (c : Chip) : Instr → Prop
  | .liftPressure src _ _ => src.toNat = c.cfg.srcPressure
  | .boomAngle src _ _ => src.toNat = c.cfg.srcPrimary ∨ src.toNat = c.cfg.srcSecondary
  | .bucketTilt src _ _ => src.toNat = c.cfg.srcTilt
  | .chassisIncline src _ _ => src.toNat = c.cfg.srcIncline
  | .driveState src _ _ => src.toNat = c.cfg.srcDrive
  | .truckTag src _ _ => src.toNat = c.cfg.srcTag
  | .configWrite _ dst _ | .configCommit _ dst _ | .configStatus _ dst _ => dst ≠ 0
  | .unknownKindTelegram _ _ _ _ => False
  | _ => True

/-- The fewest data bytes of a kind's layout (Table 12-2); of a COUNTER REPORT, that of the part it names. -/
def layoutOf : Instr → Nat
  | .liftPressure _ _ _ | .weigherStatus _ _ _ => 6
  | .boomAngle _ _ _ | .chassisIncline _ _ _ | .configCommit _ _ _ => 4
  | .bucketTilt _ _ _ => 3
  | .driveState _ _ _ | .truckTag _ _ _ => 5
  | .truckStatus _ _ _ | .passRecord _ _ _ => 11
  | .truckClosed _ _ _ => 10
  | .counterReport _ _ data => if byteAt data 0 = 1 ∨ byteAt data 0 = 2 then 10 else 6
  | .diagRequest _ _ _ => 1
  | .configWrite _ _ _ => 9
  | _ => 0

/-- The supply feeds a running part whose receiver is in IDLE or FRAME, or counts a delay, and the part is not sending (R150,
Table 9-6). -/
def Chip.receives (c : Chip) : Prop :=
  c.sup.life = .up ∧ c.link.rx ≠ .off ∧ (c.link.rx = .skip → c.link.access = .delay) ∧ c.link.access ≠ .send

/-! ## Figures sent -/

/-- The data of a WEIGHER STATUS from the figures as they stand (R105, Table 12-4). -/
def Chip.statusData (c : Chip) : List Byte :=
  [BitVec.ofNat 8 c.role.state.code, BitVec.ofNat 8 c.alarm.latchByte,
   BitVec.ofNat 8 (healthByte c.inputFault c.setInvalid c.store.retainLost c.store.configDefault c.role.behind),
   BitVec.ofNat 8 c.panel.settings.curveSet.val, BitVec.ofNat 8 c.sup.startKind.code, c.load.seq]

/-- A WEIGHER STATUS with the present figures waits in its slot, or has just been copied from it to be sent. -/
def Chip.statusWritten (d : Chip) : Prop :=
  d.link.wslot = some ⟨.weigherStatus, 0, d.statusData⟩
    ∨ ∃ h, d.link.inHand = some h ∧ h.origin = .wslot ⟨.weigherStatus, 0, d.statusData⟩

/-- The three COUNTER REPORTs of a part's own counters (R84, Table 12-4). -/
def Chip.ownCounters (c : Chip) (dst : Byte) : List OutTg :=
  let lost := if c.store.retainLost then 4 else 0
  [⟨.counterReport, dst, [1, BitVec.ofNat 8 lost] ++ be16 c.load.shift.cycles ++ be16 c.load.shift.weighed
      ++ be16 c.load.shift.unweighed ++ be16 c.load.shift.trucks⟩,
   ⟨.counterReport, dst, [2, BitVec.ofNat 8 lost] ++ be32 c.load.shift.tonnage ++ be32 c.load.life.tonnage⟩,
   ⟨.counterReport, dst, [3, BitVec.ofNat 8 lost] ++ be32 c.load.life.cycles⟩]

/-- The ring after a record's summary has joined it: the oldest of 16 leaves (R80). -/
def Chip.ringWith (c : Chip) (r : TruckRec) (reason : CloseReason) : List Summary :=
  (if 16 ≤ c.load.history.length then c.load.history.drop 1 else c.load.history)
    ++ [⟨c.load.nextHist, r.id, r.target, r.total, r.count, r.unweighed, reason, r.flags.amendedAny⟩]

/-- A PASS RECORD of a pass, byte by byte (Table 12-4, R181). -/
def passTelegram (p : PassRec) : OutTg :=
  let bit (b : Bool) (n : Nat) : Nat := if b then n else 0
  let grade := match p.grade with
    | .good => 0
    | .fair => 1
    | .poor => 2
    | .reject => 3
  ⟨.passRecord, 0,
    be16 p.truckId ++ [BitVec.ofNat 8 p.number, BitVec.ofNat 8 (bit (p.kind == .remainder) 128 + grade)]
      ++ be16 (p.payload.getD 65535) ++ [BitVec.ofNat 8 (p.bins * 16 + p.reweigh)] ++ be16 p.cycleTime
      ++ [BitVec.ofNat 8 (p.fill.getD 255),
          BitVec.ofNat 8 (bit p.negative 1 + bit p.overFlag 2 + bit p.amended 4 + bit p.unamended 8)]⟩

/-- What a close of a record queues (R79, Table 12-4): a TRUCK CLOSED with the summary's fields, none for an empty record. -/
def closedTelegrams (r : TruckRec) (reason : CloseReason) : List OutTg :=
  let code := match reason with
    | .newTruck => 1
    | .departed => 2
    | .operator => 3
    | .yielded => 0
  if r.count = 0 then []
  else
    [⟨.truckClosed, 0,
      be16 r.id ++ be16 (r.target.getD 0) ++ be24 r.total
        ++ [BitVec.ofNat 8 r.count, BitVec.ofNat 8 r.unweighed,
            BitVec.ofNat 8 (code + if r.flags.amendedAny then 128 else 0)]⟩]

/-- A telegram has joined the newest end of the event queue (R156): of 8 that wait the oldest not in SEND leaves, and is
counted; where it is the telegram in hand its attempts leave with it. -/
def Link.joined (l : Link) (t : OutTg) : Link :=
  if l.queue.length < 8 then { l with queue := l.queue ++ [t] }
  else if l.headInHand = true ∧ l.access = .send then
    { l with queue := l.queue.take 1 ++ l.queue.drop 2 ++ [t], qDrop := min 65535 (l.qDrop + 1) }
  else
    { l with
      queue := l.queue.drop 1 ++ [t], qDrop := min 65535 (l.qDrop + 1)
      inHand := if l.headInHand = true then none else l.inHand }

/-- The link from l, in RUN, after the part has changed its own record to what d holds (R70, R79): an ACTIVE part queues the
telegrams in order and writes the TRUCK STATUS slot with the record as it stands, another sends nothing. -/
def Chip.sends (d : Chip) (l : Link) (ts : List OutTg) : Link :=
  if d.role.state = .active then { ts.foldl Link.joined l with tslot := some (sendTruck d.load.record d.load.seq) } else l

/-- The same at the end of the event, with the access state following (R158). -/
def Chip.sent (d : Chip) (l : Link) (ts : List OutTg) : Link := (d.sends l ts).settle d.maySend

/-! ## The buzzer and the alarm records -/

/-- An event pattern has been requested (R146): it joins fewer than 2 that wait, and sounds at once where none does. -/
def Buzzer.asked (b : Buzzer) (p : Pattern) (vol : Nat) (now : Tick) : Buzzer :=
  if 2 ≤ b.queue.length then b
  else
    { b with
      queue := b.queue ++ [p]
      play := if b.slot = none ∧ b.queue = [] then some ⟨0, now, vol⟩ else b.play }

/-- The TRILL demand stands: a TRILL alarm latched, not acknowledged and not masked (R129). -/
def Chip.trills (c : Chip) : Prop :=
  ∃ a ∈ [Alarm.lowSupply, .stationConflict, .inputFault, .overload],
    (c.alarm.get a).latch = true ∧ (c.alarm.get a).ack = false ∧ (c.alarm.get a).mask = false

/-- A record handed the value of its condition in RUN (R123, R124, R126). -/
def AlarmRec.handed (r : AlarmRec) (v : Bool) (now : Tick) : AlarmRec :=
  if r.cond = v then r
  else if v = true then
    { r with
      cond := true, latch := true, ack := false
      maskTimer := if r.mask = true ∧ (r.latch = false ∨ r.maskTimer.isSome = true) then some now else r.maskTimer }
  else if r.mode = .held ∧ r.latch = true ∧ r.ack = true then
    { r with cond := false, latch := false, ack := false, maskTimer := none }
  else { r with cond := false }

/-- A record with a new latch mode and mask, taken in RUN in one event (R125, R126). -/
def AlarmRec.reconfigured (r : AlarmRec) (mode : LatchMode) (mask : Bool) (now : Tick) : AlarmRec :=
  let latches := r.mode = .edge ∧ mode = .held ∧ r.cond = true ∧ r.latch = false
  let clears := r.mode = .held ∧ mode = .edge ∧ r.latch = true ∧ r.ack = true
  let latch := if latches then true else if clears then false else r.latch
  let ack := if latches ∨ clears then false else r.ack
  if r.mode = mode ∧ r.mask = mask then r
  else
    { r with
      mode := mode, mask := mask, latch := latch, ack := ack
      maskTimer :=
        if mask = false ∨ latch = false then none
        else if latches ∨ r.mask = false ∧ ack = false then some now
        else r.maskTimer }

/-! ## Entries of role states -/

/-- What adoption makes of an open record r (R111, R68): a mirrored one has its count raised and is PARTIAL where its list
is short of its count; the target figures are those of R71, a TARGET REACHED once set being kept; the rest stands. -/
def Chip.adopts (c : Chip) (r r' : TruckRec) : Prop :=
  r'.id = r.id ∧ r'.target = r.target ∧ r'.passes = r.passes ∧ r'.unweighed = r.unweighed ∧ r'.total = r.total
    ∧ r'.count =
        (if c.role.mirrored then max r.count (max r.passes.length ((numbers r.passes).foldl max 0)) else r.count)
    ∧ (r'.flags.isPartial = true ↔ r.flags.isPartial = true ∨ c.role.mirrored = true ∧ r.passes.length < r.count)
    ∧ (r'.flags.reached = true ↔
        r.flags.reached = true ∨ ∃ t, r.target = some t ∧ t * (100 - c.cfg.underTol) / 100 ≤ r.total)
    ∧ (r'.flags.last = true ↔ ∃ t, r.target = some t ∧ r.total < t ∧ t ≤ r.total + c.cfg.rated)
    ∧ (r'.flags.overload = true ↔ ∃ t, r.target = some t ∧ t * (100 + c.cfg.overTol) / 100 < r.total)
    ∧ r'.flags.amendedAny = r.flags.amendedAny

/-- From c to d the open record has become the part's own (R111), and the held tag of a FRESH channel has been taken in tag
mode as an arrival (R73-R75). The sequence rises once where adoption changes the record, and again at each change that the
tag makes (log 49). -/
def Chip.tookRecord (c d : Chip) : Prop :=
  let l := c.load
  let tag := if c.inp.tag.freshness = .fresh ∧ c.cfg.srcTag ≠ 0 then c.inp.held.tag else none
  let kept := d.load.history = l.history ∧ d.load.nextHist = l.nextHist ∧ d.load.shift = l.shift
  let closed (r : TruckRec) (reason : CloseReason) := (r.count = 0 → kept)
    ∧ (r.count ≠ 0 → d.load.history = c.ringWith r reason ∧ d.load.nextHist = l.nextHist + 1
        ∧ d.load.shift = { l.shift with trucks := min 65535 (l.shift.trucks + 1) })
  let shows (id : Nat) (target : Option Nat) (ps : List PassRec) (figures : Nat × Nat × Nat) :=
    d.load.record.map (fun r => (r.id, r.target, r.passes, r.count, r.unweighed, r.total))
      = some (id, target, ps, figures)
  d.role.mirrored = false
    ∧ d.load = { l with
        record := d.load.record, seq := d.load.seq, refused := d.load.refused, history := d.load.history
        nextHist := d.load.nextHist, shift := d.load.shift, refreshTimer := d.load.refreshTimer
        pollTimer := d.load.pollTimer }
    ∧ (tag = none → d.load.refused = l.refused)
    ∧ (∀ t, tag = some t → d.load.refused = if t.present = true ∧ l.refused = some t.id then l.refused else none)
    ∧ (l.record = none →
        ((∀ t, tag = some t → t.present = false ∨ l.refused = some t.id) →
          d.load.record = none ∧ d.load.seq = l.seq ∧ kept)
        ∧ ∀ t, tag = some t → t.present = true → l.refused ≠ some t.id →
            shows t.id t.target [] (0, 0, 0) ∧ d.load.seq = l.seq + 1 ∧ kept)
    ∧ ∀ r, l.record = some r → ∃ r', c.adopts r r' ∧
        let seq := if r' = r then l.seq else l.seq + 1
        let stays := d.load.record = some r' ∧ d.load.seq = seq ∧ kept
        (tag = none → stays)
          ∧ (∀ t, tag = some t → t.present = true → r.id = t.id → r.target = t.target → stays)
          ∧ (∀ t, tag = some t → t.present = true → r.id = t.id → r.target ≠ t.target →
              shows r.id t.target r.passes (r'.count, r.unweighed, r.total) ∧ d.load.seq = seq + 1 ∧ kept)
          ∧ (∀ t, tag = some t → t.present = true → r.id ≠ t.id → l.refused = some t.id → stays)
          ∧ (∀ t, tag = some t → t.present = true → r.id ≠ t.id → l.refused ≠ some t.id →
              shows t.id t.target [] (0, 0, 0) ∧ d.load.seq = seq + 2 ∧ closed r' .newTruck)
          ∧ (∀ t, tag = some t → t.present = false → r.id ≠ 0 →
              d.load.record = none ∧ d.load.seq = seq + 1 ∧ closed r' .departed)
          ∧ (∀ t, tag = some t → t.present = false → r.id = 0 → stays)

/-- From c to d the part has entered ACTIVE (R111, R112): no station is named, watch and listen timers stop, the pairing
list, the mismatch count and CROSS-CHECK are clear, the record is its own, the held tag is taken, and both slots are
written. -/
def Chip.tookActive (c d : Chip) : Prop :=
  d.role.state = .active ∧ d.role.named = none ∧ d.role.watch = none ∧ d.role.listen = none ∧ d.role.pairing = []
    ∧ d.role.mismatches = 0 ∧ d.role.crossCheck = false ∧ d.role.noWeigher = false
    ∧ d.role.unpaired = c.role.unpaired ∧ d.role.status = some c.tick ∧ d.load.refreshTimer = some c.tick
    ∧ d.load.pollTimer = none ∧ d.statusWritten ∧ d.link.tslot = some (sendTruck d.load.record d.load.seq)
    ∧ c.tookRecord d ∧ c.onlyChanges d [.link, .trk, .load, .role, .alarm, .panel]

/-- From c to d the part has entered STANDBY (R108, R110): a record of its own closes YIELDED into the ring, an empty one is
discarded, a mirrored one stays, and WEIGHER STATUS is written; no truck is counted. -/
def Chip.tookStandby (c d : Chip) : Prop :=
  d.role.state = .standby ∧ d.role.mirrored = true ∧ d.role.status = some c.tick
    ∧ d.load.shift = c.load.shift ∧ d.load.life = c.load.life ∧ d.load.refreshTimer = none ∧ d.statusWritten
    ∧ (c.role.mirrored = true → d.load.record = c.load.record ∧ d.load.history = c.load.history)
    ∧ (c.role.mirrored = false → d.load.record = none
        ∧ ∀ r, c.load.record = some r → d.load.seq = c.load.seq + 1
            ∧ (r.count = 0 → d.load.history = c.load.history)
            ∧ (r.count ≠ 0 → d.load.history = c.ringWith r .yielded))
    ∧ c.onlyChanges d [.link, .trk, .load, .role, .alarm, .panel]

/-! ## The cycle tracker -/

/-- A FRESH value of a channel meets a condition. -/
def freshAnd {α : Type} (r : ChanRec) (held : Option α) (P : α → Prop) : Prop :=
  r.freshness = .fresh ∧ ∃ a, held = some a ∧ P a

/-- An input-loss timer as an event leaves it (R40): in WEIGH and CARRY it runs while its channel is not FRESH, from where it
was started, and in every other cycle state it is stopped. -/
def lossAfter (s : Cycle) (f : Freshness) (since : Option Tick) (now : Tick) : Option Tick :=
  if (s = .weigh ∨ s = .carry) ∧ f ≠ .fresh then some (since.getD now) else none

/-- The tracker t with its input-loss timers as the event that ends in d leaves them (R40). -/
def Chip.lossTimed (d : Chip) (t : Tracker) : Tracker :=
  { t with
    lossPressure := lossAfter t.cycle d.inp.pressure.freshness t.lossPressure d.tick
    lossAngle := lossAfter t.cycle d.inp.primary.freshness t.lossAngle d.tick }

/-- The FILL empty timer after a pressure arrival (R31): a usable one 2000 kPa or more below the dig pressure starts it where
it stands, and any other usable one stops it. -/
def Chip.fillAfter (c : Chip) (usable : Bool) (ph : Nat) : Option Tick :=
  if usable = true then (if ph + 2000 < c.cfg.digPressure then some (c.trk.fillTimer.getD c.tick) else none)
  else c.trk.fillTimer

/-- An arrival of theta crosses x upward (R28). -/
def Chip.crosses (c : Chip) (theta x : Int) : Prop := ∃ p, c.trk.prevAngle = some p ∧ p < x ∧ x ≤ theta

/-- A usable primary angle theta that moves no cycle state: in a REPEATER (R29); in IDLE, FILL, DUMP and SUSPENDED (R30, R31,
R38, R48); in LIFT and WEIGH without a crossing that the pass takes, the window not left (R32-R34); in CARRY and RETURN above
the dig angle, in RETURN without a crossing of θs that the racked note admits (R37-R39). -/
def Chip.angleIdles (c : Chip) (theta : Int) : Prop :=
  c.cfg.role = .repeater
    ∨ (c.trk.cycle = .idle ∨ c.trk.cycle = .fill ∨ c.trk.cycle = .dump ∨ c.trk.cycle = .suspended)
    ∨ (c.trk.cycle = .lift ∧ ¬c.crosses theta c.cfg.thetaE
        ∧ (¬c.crosses theta c.cfg.thetaS ∨ ∃ x, c.trk.ctx = some x ∧ x.stage = .unweighed))
    ∨ (c.trk.cycle = .weigh
        ∧ ∃ l, c.eng.latched = some l ∧ ¬c.crosses theta l.geom.thetaE ∧ l.geom.thetaS ≤ theta)
    ∨ (c.trk.cycle = .carry ∧ c.cfg.digAngle ≤ theta)
    ∨ (c.trk.cycle = .ret ∧ c.cfg.digAngle ≤ theta
        ∧ (c.trk.racked = false ∨ ¬c.crosses theta c.cfg.thetaS))

/-- A NORMAL pass as it opens (R30). -/
def normalPass (now : Tick) : PassCtx :=
  { kind := .normal, stage := .candidate, start := now, reweigh := 0, idx := none, grade := none, bins := 0
    payload := none, fill := none, negative := false, overFlag := false, amendMade := false }

/-- A pass made UNWEIGHED without a result: REJECT, 0 bins, no payload, no fill, no flags (R32, R34, R35, R41). -/
def PassCtx.weighedNot (x : PassCtx) : PassCtx :=
  { x with
    stage := .unweighed, grade := some .reject, bins := 0, payload := none, fill := none, negative := false
    overFlag := false }

/-- A tracker with no pass in flight, every timer stopped. -/
def Tracker.without (t : Tracker) : Tracker :=
  { t with ctx := none, fillTimer := none, carryTimer := none, lossPressure := none, lossAngle := none }

/-- The inputs of d hold a WEIGHER in the dig (R30): pressure FRESH at the dig pressure or above, the primary angle FRESH
below θs. -/
def Chip.inDig (d : Chip) : Prop :=
  d.cfg.role = .weigher ∧ freshAnd d.inp.pressure d.inp.held.pressure (fun v => d.cfg.digPressure ≤ v.ph)
    ∧ freshAnd d.inp.primary d.inp.held.primary (fun a => a < d.cfg.thetaS)

/-- The tilt is FRESH at the rack-back angle or above (R31). -/
def Chip.isRacked (d : Chip) : Prop := freshAnd d.inp.tilt d.inp.held.tilt fun a => d.cfg.rackAngle ≤ a

/-- The tilt is FRESH at the dump angle or below (R32, R35, R36). -/
def Chip.isDumped (d : Chip) : Prop := freshAnd d.inp.tilt d.inp.held.tilt fun a => a ≤ d.cfg.dumpAngle

/-- The part owns the open record: ACTIVE, or MUTE with configured role WEIGHER (R73, Table 2-6). -/
def Chip.owns (c : Chip) : Prop := c.role.state = .active ∨ c.role.state = .mute ∧ c.cfg.role = .weigher

/-- The tracker in d after an entry to IDLE from t (R28, R30, R31): in IDLE where the inputs do not hold the part in the dig,
else with a new NORMAL pass, in FILL, or in LIFT where the bucket is racked. -/
def Chip.entersIdle (d : Chip) (t : Tracker) : Prop :=
  let opened (s : Cycle) : Tracker := { t.without with cycle := s, racked := false, ctx := some (normalPass d.tick) }
  (¬d.inDig → d.trk = { t.without with cycle := .idle, racked := false })
    ∧ (d.inDig → ¬d.isRacked → d.trk = opened .fill) ∧ (d.inDig → d.isRacked → d.trk = opened .lift)

/-! ## Commits -/

/-- The flags of a record r evaluated from flags f (R71): TARGET REACHED once set is kept, LAST and OVERLOAD follow the
total, the others stand. -/
def Chip.flagged (c : Chip) (f : RecFlags) (r : TruckRec) : Prop :=
  (r.flags.reached = true ↔
      f.reached = true ∨ ∃ t, r.target = some t ∧ t * (100 - c.cfg.underTol) / 100 ≤ r.total)
    ∧ (r.flags.last = true ↔ ∃ t, r.target = some t ∧ r.total < t ∧ t ≤ r.total + c.cfg.rated)
    ∧ (r.flags.overload = true ↔ ∃ t, r.target = some t ∧ t * (100 + c.cfg.overTol) / 100 < r.total)
    ∧ r.flags.isPartial = f.isPartial ∧ r.flags.amendedAny = f.amendedAny

/-- The pass record of a pass y committed now, with a truck id and a number (R41, Table 2-5). -/
def PassCtx.committedAs (y : PassCtx) (now : Tick) (id number : Nat) : PassRec :=
  { truckId := id, number := number, kind := y.kind, payload := y.payload, grade := y.grade.getD .reject
    bins := y.bins, reweigh := y.reweigh, cycleTime := min 65535 (roundDiv (age now y.start) 100).toNat
    fill := y.fill, negative := y.negative, overFlag := y.overFlag, amended := false
    unamended := y.kind == .remainder && !y.amendMade }

/-- The counters of a commit (R41 step 4, Table 4-6): cycles of a NORMAL pass alone, then those of its stage. -/
def LoadRegister.counted (l : LoadRegister) (y : PassCtx) : ShiftCounters × LifeCounters :=
  let up (m n : Nat) := if y.kind = .normal then min m (n + 1) else n
  let shift := { l.shift with cycles := up 65535 l.shift.cycles }
  let life := { l.life with cycles := up 4294967295 l.life.cycles }
  match y.payload with
  | some m =>
    ({ shift with
        weighed := min 65535 (l.shift.weighed + 1), tonnage := min 99999999 (l.shift.tonnage + m) },
      { life with tonnage := min 4294967295 (l.life.tonnage + m) })
  | none => ({ shift with unweighed := min 65535 (l.shift.unweighed + 1) }, life)

/-- From c to d the pass y, as it stands at its commit, has been committed, the link before it l (R41-R43). A part that owns
its record joins it with the next number (R68, R69), in a stockpile record that opens where none is open (R78); the record
is its own (log 46), its flags are evaluated (R71), and an ACTIVE part sends it (R70). Elsewhere the record stands (log 40),
and in STANDBY a weighed pass awaits its pair (R118). -/
def Chip.committed (c d : Chip) (y : PassCtx) (l : Link) : Prop :=
  let r := c.load.record.getD ⟨0, none, [], 0, 0, 0, RecFlags.none⟩
  let number := min 255 (r.count + 1)
  let p := y.committedAs c.tick r.id number
  let total := min 99999 (r.total + y.payload.getD 0)
  let pairs := c.role.pairing
  d.trk.cycle = .dump ∧ d.trk.ctx = none ∧ d.trk.fillTimer = none ∧ d.trk.carryTimer = none
    ∧ d.trk.lossPressure = none ∧ d.trk.lossAngle = none
    ∧ (d.load.shift, d.load.life) = c.load.counted y
    ∧ d.load = { c.load with
        record := d.load.record, seq := d.load.seq, shift := d.load.shift, life := d.load.life }
    ∧ d.panel.lastPass = some p
    ∧ (c.owns → d.trk.note = some ⟨true, p, false⟩ ∧ d.role = { c.role with mirrored := false }
        ∧ (∃ r', d.load.record = some r'
            ∧ (r'.id, r'.target, r'.passes, r'.count, r'.unweighed, r'.total)
                = (r.id, r.target, joinList p r.passes, number,
                    if y.payload = none then min 255 (r.unweighed + 1) else r.unweighed, total)
            ∧ c.flagged r.flags r')
        ∧ d.load.seq = c.load.seq + (if c.load.record = none then 2 else 1)
        ∧ d.link = d.sent l [passTelegram p])
    ∧ (¬c.owns → d.trk.note = some ⟨false, p, false⟩ ∧ d.load.record = c.load.record ∧ d.load.seq = c.load.seq
        ∧ d.link = l.settle d.maySend
        ∧ (c.role.state ≠ .standby ∨ y.payload = none → d.role = c.role)
        ∧ ∀ m, c.role.state = .standby → y.payload = some m → d.role = { c.role with
            pairing := (if 2 ≤ pairs.length then pairs.drop 1 else pairs) ++ [⟨m, c.tick⟩]
            unpaired := if 2 ≤ pairs.length then min 65535 (c.role.unpaired + 1) else c.role.unpaired })

/-- What a commit from c to d asks of buzzer and alarms (R43, R71): a BEEP, a DOUBLE where TARGET REACHED has become set, and
the PASS OVER pulse of a WEIGHED pass above the limit, whose LONG the TRILL demand and a mask drop (R123, R129). That the BEEP
comes first, then the DOUBLE, then the LONG, which drops the BEEP that sounds, is log 9. -/
def Chip.commitSounds (c d : Chip) (y : PassCtx) : Prop :=
  let exceeds := y.payload.isSome = true ∧ ∃ f, y.fill = some f ∧ c.cfg.passOver < f
  let o := c.alarm.get .passOver
  let beeped := c.panel.buz.asked .beep c.panel.settings.volume c.tick
  let reached := c.owns ∧ ∃ r t, c.load.record = some r ∧ r.flags.reached = false ∧ r.target = some t
    ∧ t * (100 - c.cfg.underTol) / 100 ≤ min 99999 (r.total + y.payload.getD 0)
  let steady := ∀ a, a ≠ .passOver → d.alarm.get a = c.alarm.get a
  (∀ a, a ≠ .overload → a ≠ .passOver → a ≠ .inputFault → d.alarm.get a = c.alarm.get a)
    ∧ (¬exceeds → d.alarm.get .passOver = o)
    ∧ (exceeds → o.cond = false → d.alarm.get .passOver = { o with
        latch := true, ack := false
        maskTimer := if o.mask = true ∧ (o.latch = false ∨ o.maskTimer.isSome = true) then some c.tick else o.maskTimer })
    ∧ ∃ b : Buzzer, (¬reached → b = beeped)
        ∧ (reached → b = beeped.asked .double c.panel.settings.volume c.tick)
        ∧ (steady → ¬exceeds ∨ o.cond = false ∧ (o.mask = true ∨ c.trills) → d.panel.buz = b)
        ∧ (steady → exceeds → o.mask = false → ¬c.trills → o.cond = false →
            d.panel.buz =
              ⟨some .long, if b.slot = none then b.queue.drop 1 else b.queue, some ⟨0, c.tick, c.panel.settings.volume⟩⟩)

/-- From c to d the tracker has entered IDLE from t (R28), the link before it l, and beside the blocks listed nothing has
changed. Where the dig opens a pass at once whose bucket is racked and at the dump angle too, that pass is committed
UNWEIGHED (R30-R32). -/
def Chip.idles (c d : Chip) (t : Tracker) (l : Link) (bs : List Block) : Prop :=
  let turns := d.inDig ∧ d.isRacked ∧ d.isDumped
  (¬turns → d.entersIdle t ∧ d.link = l.settle d.maySend ∧ c.onlyBuzzer d ∧ c.onlyChanges d bs)
    ∧ (turns → c.sup.power = .run →
        c.committed d (normalPass c.tick).weighedNot l ∧ c.commitSounds d (normalPass c.tick).weighedNot
          ∧ d.trk.voids = t.voids ∧ c.onlyChanges d (bs ++ [.link, .trk, .load, .role, .alarm, .panel]))

/-- The held value of a channel is the same in both tables of held values. -/
def HeldValues.agree (g h : HeldValues) : ChanId → Prop
  | .pressure => g.pressure = h.pressure
  | .primary => g.primary = h.primary
  | .secondary => g.secondary = h.secondary
  | .tilt => g.tilt = h.tilt
  | .drive => g.drive = h.drive
  | .incline => g.incline = h.incline
  | .tag => g.tag = h.tag

/-! ## The weighing window -/

/-- From c to d the window has been opened for a pass x, which takes the index of the active curve set (R2): bins and tallies
cleared, no result, the set and the geometry in force latched. -/
def Chip.windowOpened (c d : Chip) (x : PassCtx) : Prop :=
  let idx := c.panel.settings.curveSet
  let span := c.cfg.thetaE - c.cfg.thetaS
  d.trk.cycle = .weigh ∧ d.trk.ctx = some { x with idx := some idx } ∧ d.trk.racked = false
    ∧ d.eng.isOpen = true ∧ (∀ k : Fin 15, d.eng.bins[k] = Bin.empty) ∧ d.eng.tallies = Tallies.zero
    ∧ d.eng.last = none
    ∧ d.eng.latched = some
        { idx := idx
          usable := (c.store.curves[idx]).valid && decide (300 ≤ span ∧ span ≤ 6000 ∧ span % 30 = 0)
          set := c.store.curves[idx]
          geom :=
            { n := c.cfg.cylinders, ah := c.cfg.headArea, ar := c.cfg.rodArea, thetaS := c.cfg.thetaS
              thetaE := c.cfg.thetaE, step := roundDiv span 15 } }

/-! ## Selections and settings -/

/-- One step towards the older end of a list, oldest first: from none the newest, held at the oldest (R138, R139). -/
def olderIn {α : Type} (xs : List α) (sel new : Option α) : Prop :=
  (sel = none → new = xs.getLast?)
    ∧ (∀ n rest, sel = some n → xs = n :: rest → new = some n)
    ∧ ∀ before m n rest, sel = some n → xs = before ++ m :: n :: rest → n ∉ before → n ≠ m → new = some m

/-- One step towards the newer end; past is what follows the newest (R138, R139). -/
def newerIn {α : Type} (xs : List α) (past : α → Option α) (sel new : Option α) : Prop :=
  (∀ before n, sel = some n → xs = before ++ [n] → n ∉ before → new = past n)
    ∧ ∀ before n m rest, sel = some n → xs = before ++ n :: m :: rest → n ∉ before → new = some m

/-- From c to d the SETUP item shown has been stepped by one, held at the limits of Table 8-8: the setting, the blink in its
shown half and the backlight shadow where the value changed (R140, R143, R144; that the blink stands at a limit is log 51).
-/
def Chip.setupStepped (c d : Chip) (up : Bool) : Prop :=
  let set := c.panel.settings
  let n := c.panel.setupItem
  let moved (hi v : Nat) := if up then min hi (v + 1) else v - 1
  let lights := c.inp.drive.freshness = .fresh ∧ ∃ v, c.inp.held.drive = some v ∧ v.lights = true
  (n = 1 → d.panel.settings = { set with day := moved 63 set.day })
    ∧ (n = 2 → d.panel.settings = { set with night := moved 63 set.night })
    ∧ (n = 3 → d.panel.settings = { set with volume := moved 15 set.volume })
    ∧ (n = 4 → d.panel.settings = { set with
        trim := max (-50) (min 50 (if up then set.trim + 1 else set.trim - 1)) })
    ∧ (n = 5 → d.panel.settings.curveSet.val = moved 3 set.curveSet.val
        ∧ d.panel.settings = { set with curveSet := d.panel.settings.curveSet })
    ∧ (d.panel.settings ≠ set → d.panel.blinkBlank = false ∧ d.panel.blinkTimer = some c.tick)
    ∧ (d.panel.settings = set → d.panel.blinkBlank = c.panel.blinkBlank ∧ d.panel.blinkTimer = c.panel.blinkTimer
        ∧ d.panel.buz = c.panel.buz)
    ∧ (d.panel.settings ≠ set → n = 1 → ¬lights → d.panel.shadow = d.panel.settings.day)
    ∧ (d.panel.settings ≠ set → n = 2 → lights → d.panel.shadow = d.panel.settings.night)
    ∧ (n ≠ 1 ∧ n ≠ 2 ∨ n = 1 ∧ lights ∨ n = 2 ∧ ¬lights → d.panel.shadow = c.panel.shadow)
    ∧ c.onlyChanges d [.link, .alarm, .panel] ∧ c.onlyAlarm .calInvalid d ∧ (n ≠ 5 → d.alarm = c.alarm)

/-- From c to d the field of CAL-SELECT that is edited has been stepped by one, held at the limits of Table 5-4, with the
blink in its shown half where the value changed (R91, R143; that it stands at a limit is log 51). -/
def Chip.calStepped (c d : Chip) (up : Bool) : Prop :=
  let u := c.cal
  (u.onMass = false → d.cal = { u with target := d.cal.target }
      ∧ d.cal.target.val = if up then min 3 (u.target.val + 1) else u.target.val - 1)
    ∧ (u.onMass = true → d.cal = { u with mass := max 100 (min 5000 (if up then u.mass + 1 else u.mass - 1)) })
    ∧ (d.cal ≠ u → d.panel.blinkBlank = false ∧ d.panel.blinkTimer = some c.tick)
    ∧ (d.cal = u → d.panel.blinkBlank = c.panel.blinkBlank ∧ d.panel.blinkTimer = c.panel.blinkTimer)

/-! ## The display (Table 12-6, Table 12-7) -/

/-- The segment bytes of the numerals 0 to 9 (Table 12-7). -/
def numeralSegs : List Byte := [0x3F, 0x06, 0x5B, 0x4F, 0x66, 0x6D, 0x7D, 0x07, 0x7F, 0x6F]

/-- A field that shows a number with decimal places, right-justified: the place left of its first digit holds the minus of
a negative one (12.7, Table 8-6 note a). -/
def shownNumber (width decimals : Nat) (x : Int) : List Byte :=
  (List.range width).reverse.map fun place =>
    if decimals < place ∧ x.natAbs < 10 ^ place then
      (if x < 0 ∧ ¬(decimals < place - 1 ∧ x.natAbs < 10 ^ (place - 1)) then 0x40 else 0)
    else numeralSegs.getD (x.natAbs / 10 ^ place % 10) 0 ||| (if decimals ≠ 0 ∧ place = decimals then 0x80 else 0)

/-- The number fits the field, with its minus. -/
def fitsField (width decimals : Nat) (x : Int) : Prop :=
  if x < 0 then x.natAbs < 10 ^ (width - 1) ∧ decimals + 1 < width else x.natAbs < 10 ^ width ∧ decimals < width

/-- A field shows a number; what one too long for it shows is a free value (log 8). -/
def shows (width decimals : Nat) (x : Int) (field : List Byte) : Prop :=
  fitsField width decimals x → field = shownNumber width decimals x

/-- The main field shows a mass of at most five digits (Table 8-6). -/
def showsMass (x : Int) (field : List Byte) : Prop :=
  x.natAbs ≤ 99999 →
    field =
      if 10000 ≤ x then shownNumber 4 1 (x / 10)
      else if -999 ≤ x then shownNumber 4 2 x
      else if -9999 ≤ x then shownNumber 4 1 (-(-x / 10))
      else shownNumber 4 0 (-(-x / 100))

def blankField (n : Nat) : List Byte := List.replicate n 0
def dashField (n : Nat) : List Byte := List.replicate n 0x40

/-- A value a field may lack. -/
def showsOr {α : Type} (lacking : List Byte) (f : α → List Byte → Prop) (v : Option α) (field : List Byte) : Prop :=
  match v with
  | none => field = lacking
  | some a => f a field

/-- A payload, dashes where the pass is UNWEIGHED (Table 8-5). -/
def showsPayload (p : Option Nat) (main : List Byte) : Prop := showsOr (dashField 4) (fun (m : Nat) => showsMass m) p main

/-- A pass count in the aux field: above 99 it is 99 with both points lit (R138). -/
def shownCount (n : Nat) : List Byte := if n ≤ 99 then shownNumber 2 0 n else [0xEF, 0xEF]

/-- A field, its digits as f says, with a point lit or not on its last or its first digit. -/
def lastPointed (on : Bool) (f : List Byte → Prop) (field : List Byte) : Prop :=
  ∃ x, f x ∧ field = x.dropLast ++ [x.getLast?.getD 0 ||| (if on then 0x80 else 0)]

def firstPointed (on : Bool) (f : List Byte → Prop) (field : List Byte) : Prop :=
  ∃ x, f x ∧ field = (x.headD 0 ||| (if on then 0x80 else 0)) :: x.drop 1

/-- The RUN page (Table 8-5). -/
def Chip.runShows (c : Chip) (main aux counter : List Byte) : Prop :=
  showsOr (blankField 4) (fun p : PassRec => showsPayload p.payload) c.panel.lastPass main
    ∧ (c.load.record = none → aux = blankField 2 ∧ counter = blankField 5)
    ∧ ∀ r, c.load.record = some r → aux = shownCount r.count ∧ shows 5 2 r.total counter

/-- The entry of the pass list that the TRUCK page has selected (R138). -/
def Chip.selectedPass (c : Chip) (r : TruckRec) : Option PassRec :=
  c.panel.truckSel.bind fun n => r.passes.find? fun p => p.number == n

/-- The TRUCK page, with an entry selected and with none (R138, Table 8-5). -/
def Chip.truckShows (c : Chip) (main aux counter : List Byte) : Prop :=
  (c.load.record = none → main = dashField 4 ∧ aux = blankField 2 ∧ counter = blankField 5)
    ∧ (∀ r p, c.load.record = some r → c.selectedPass r = some p →
        showsPayload p.payload main ∧ aux = shownCount p.number
          ∧ lastPointed p.amended (showsOr (blankField 5) (fun (f : Nat) => shows 5 0 f) p.fill) counter)
    ∧ ∀ r, c.load.record = some r → c.selectedPass r = none →
        aux = shownCount r.count ∧ showsOr (dashField 5) (fun (t : Nat) => shows 5 2 t) r.target counter
          ∧ (r.target = none → showsMass r.total main) ∧ ∀ t : Nat, r.target = some t → showsMass (t - r.total) main

/-- A counter on the COUNT page: from 100000 in thousands, and at most 99999 of them (Table 8-7 note b). -/
def shownCounter (n : Nat) (counter : List Byte) : Prop :=
  if n ≤ 99999 then counter = shownNumber 5 0 n
  else lastPointed true (fun x => x = shownNumber 5 0 (min 99999 (n / 1000) : Nat)) counter

/-- The COUNT page: legend and figure of its item, a REPEATER's as last mirrored (R139, Table 8-7). -/
def Chip.countShows (c : Chip) (main aux counter : List Byte) : Prop :=
  let item (segs : List Byte) (own : Nat) (mirrored : Option Nat) : Prop :=
    main = segs ∧ showsOr (dashField 5) shownCounter (if c.cfg.role = .weigher then some own else mirrored) counter
  aux = blankField 2 ∧
    match c.panel.countItem with
    | 1 => item [0x39, 0x6E, 0x39, 0] c.load.shift.cycles (c.load.mirrorCounts.map MirrorCounts.cycles)
    | 2 => item [0x73, 0x77, 0x6D, 0x6D] c.load.shift.weighed (c.load.mirrorCounts.map MirrorCounts.weighed)
    | 3 => item [0x3E, 0x37, 0x2A, 0] c.load.shift.unweighed (c.load.mirrorCounts.map MirrorCounts.unweighed)
    | 4 => item [0x31, 0x33, 0x75, 0] c.load.shift.trucks (c.load.mirrorCounts.map MirrorCounts.trucks)
    | 5 => item [0x31, 0x3F, 0x37, 0x6D] (c.load.shift.tonnage / 100)
        (c.load.mirrorTonnage.map fun m => m.shift / 100)
    | 6 => item [0x38, 0x39, 0x6E, 0x39] c.load.life.cycles (c.load.mirrorLife.map MirrorLife.cycles)
    | 7 => item [0x38, 0x31, 0x3F, 0x37] (c.load.life.tonnage / 100) (c.load.mirrorTonnage.map fun m => m.life / 100)
    | _ => True

/-- The segments of a close reason: "nEUt", "dEPt", "OPEr", "YIELd" (R139). -/
def reasonSegs : CloseReason → List Byte
  | .newTruck => [0x54, 0x79, 0x3E, 0x78, 0]
  | .departed => [0x5E, 0x79, 0x73, 0x78, 0]
  | .operator => [0x3F, 0x73, 0x79, 0x50, 0]
  | .yielded => [0x6E, 0x30, 0x79, 0x38, 0x5E]

/-- The HISTORY page: the selected summary in the view FIRST or SECOND, dashes with none (R139). -/
def Chip.historyShows (c : Chip) (main aux counter : List Byte) : Prop :=
  let chosen := c.panel.histSel.bind fun s => c.load.history.find? fun h => h.seq == s
  (chosen = none → main = dashField 4 ∧ aux = dashField 2 ∧ counter = dashField 5)
    ∧ (∀ h, chosen = some h → c.panel.histSecond = false →
        showsMass h.total main ∧ aux = shownCount h.count ∧ shows 5 0 h.truckId counter)
    ∧ ∀ h, chosen = some h → c.panel.histSecond = true →
        showsOr (dashField 4) (fun (t : Nat) => showsMass t) h.target main ∧ aux = shownCount h.unweighed
          ∧ lastPointed h.amended (fun x => x = reasonSegs h.reason) counter

/-- An edit field, blanked in the blanked half of the blink (R143). -/
def Chip.blinks (c : Chip) (f : List Byte → Prop) (field : List Byte) : Prop :=
  (c.panel.blinkBlank = true → field = blankField 4) ∧ (c.panel.blinkBlank = false → f field)

/-- The SETUP page (R140); the blank counter field is the model's choice (log 45). -/
def Chip.setupShows (c : Chip) (main aux counter : List Byte) : Prop :=
  let set := c.panel.settings
  shows 2 0 c.panel.setupItem aux ∧ counter = blankField 5 ∧
    match c.panel.setupItem with
    | 1 => c.blinks (shows 4 0 set.day) main
    | 2 => c.blinks (shows 4 0 set.night) main
    | 3 => c.blinks (shows 4 0 set.volume) main
    | 4 => c.blinks (showsMass set.trim) main
    | 5 => c.blinks (shows 4 0 set.curveSet.val) main
    | _ => True

/-- The CAL page (Table 5-7); the units of Lk − Ek are the model's reading (log 24). -/
def Chip.calShows (c : Chip) (main aux counter : List Byte) : Prop :=
  let u := c.cal
  match u.state with
  | .out => True
  | .select =>
    if u.onMass then c.blinks (shows 4 0 u.mass) main ∧ shows 2 0 u.target.val aux ∧ counter = blankField 5
    else c.blinks (shows 4 0 u.target.val) main ∧ aux = blankField 2 ∧ shows 5 0 u.mass counter
  | .empty | .loaded =>
    main =
      (match u.outcome with
        | none => blankField 4
        | some .kept => [0x75, 0x79, 0x79, 0x73]
        | some .settling => [0x6D, 0x79, 0x31, 0x38]
        | some .incomplete => [0x30, 0x37, 0x39, 0]
        | some .abandoned => [0x77, 0x7F, 0, 0])
      ∧ shows 2 0 (if u.state = .empty then u.keptEmpty.length else u.keptLoaded.length) aux
      ∧ showsOr (blankField 5) (fun (n : Nat) => shows 5 0 n) u.lastRefused counter
  | .review =>
    shows 2 0 u.browse aux
      ∧ ∀ (e l : Vector Int 16) (k : Fin 16), u.curves = some (e, l) → k.val = u.browse →
          shows 4 0 (roundDiv e[k] 10) main ∧ shows 5 0 (l[k] - e[k]) counter
  | .writing => main = [0x2A, 0x33, 0x30, 0x31] ∧ shows 2 0 u.target.val aux ∧ counter = blankField 5
  | .done => main = [0x5E, 0x3F, 0x37, 0x79] ∧ shows 2 0 u.target.val aux ∧ shows 5 0 u.mass counter
  | .failed =>
    match u.failure with
    | none => True
    | some .geometry => main = [0x3D, 0x79, 0x3F, 0x15] ∧ aux = blankField 2 ∧ counter = blankField 5
    | some (.inconsistent loaded k) =>
      main = [0x30, 0x37, 0x39, 0x3F] ∧ shows 2 0 k aux ∧ shows 5 0 (if loaded then 1 else 0) counter
    | some (.span k) => main = [0x6D, 0x73, 0x77, 0x37] ∧ shows 2 0 k aux ∧ counter = blankField 5
    | some .isProtected => main = [0x73, 0x33, 0x3F, 0x31] ∧ aux = blankField 2 ∧ counter = blankField 5

/-- The segments of an alarm's legend: "LO SU", "StN", "InPUt", "CAL", "XCHK", "OVLd", "P OVr", "nO Ut" (R142). -/
def alarmSegs : Alarm → List Byte
  | .lowSupply => [0x38, 0x3F, 0, 0x6D, 0x3E]
  | .stationConflict => [0x6D, 0x78, 0x37, 0, 0]
  | .inputFault => [0x30, 0x54, 0x73, 0x3E, 0x78]
  | .calInvalid => [0x39, 0x77, 0x38, 0, 0]
  | .crossCheck => [0x64, 0x39, 0x76, 0x75, 0]
  | .overload => [0x3F, 0x1C, 0x38, 0x5E, 0]
  | .passOver => [0x73, 0, 0x3F, 0x1C, 0x50]
  | .noWeigher => [0x54, 0x3F, 0, 0x3E, 0x78]

/-- A flag as a digit. -/
def flagSegs (b : Bool) : Byte := if b then 0x06 else 0x3F

/-- The channel of a DIAG item, 2 to 8 (Table 8-9). -/
def itemChannel : Nat → Option ChanId
  | 2 => some .pressure
  | 3 => some .primary
  | 4 => some .secondary
  | 5 => some .tilt
  | 6 => some .drive
  | 7 => some .incline
  | 8 => some .tag
  | _ => none

/-- The alarm of a DIAG item, 40 to 47, by priority (Table 8-9). -/
def itemAlarm : Nat → Option Alarm
  | 40 => some .lowSupply
  | 41 => some .stationConflict
  | 42 => some .inputFault
  | 43 => some .calInvalid
  | 44 => some .crossCheck
  | 45 => some .overload
  | 46 => some .passOver
  | 47 => some .noWeigher
  | _ => none

/-- A channel on the DIAG page: "FRSH", "STAL", "AbS" or "FLt", its gap counter or held value, and the point of a loss timer
run out (Table 8-9, log 23). -/
def Chip.channelShows (c : Chip) (i : ChanId) (main counter : List Byte) : Prop :=
  let figure : List Byte → Prop := match i with
    | .pressure | .primary | .secondary => shows 5 0 (c.inp.chan i).gap
    | .tilt => showsOr (dashField 5) (shows 5 0) c.inp.held.tilt
    | .drive => showsOr (dashField 5) (fun v : DriveVal => shows 5 0 v.speed) c.inp.held.drive
    | .incline => showsOr (dashField 5) (fun v : InclineVal => shows 5 0 v.pitch) c.inp.held.incline
    | .tag => showsOr (dashField 5) (fun v : TagVal => shows 5 0 v.id) c.inp.held.tag
  main =
    (match (c.inp.chan i).freshness with
      | .fresh => [0x71, 0x33, 0x6D, 0x76]
      | .stale => [0x6D, 0x31, 0x77, 0x38]
      | .absent => [0x77, 0x7C, 0x6D, 0]
      | .fault => [0x71, 0x38, 0x78, 0])
    ∧ firstPointed ((c.inp.chan i).loss == .ranOut) figure counter

/-- The DIAG items that are a legend and a count: tallies, voids, link counters (Table 8-9). -/
def Chip.countItem (c : Chip) : Nat → Option (List Byte × Nat)
  | 11 => some ([0x33, 0x77, 0x31, 0x79], c.eng.tallies.rate)
  | 12 => some ([0x77, 0x3D, 0x79, 0], c.eng.tallies.age)
  | 13 => some ([0x6D, 0x79, 0x54, 0x6D], c.eng.tallies.sensor)
  | 14 => some ([0x5E, 0x30, 0x6D, 0x77], c.eng.tallies.disagree)
  | 15 => some ([0x30, 0x37, 0x39, 0x38], c.eng.tallies.incline)
  | 16 => some ([0x6D, 0x73, 0x5E, 0], c.eng.tallies.speed)
  | 17 => some ([0x7C, 0x30, 0x37, 0x71], c.eng.tallies.binfull)
  | 20 => some ([0x33, 0x79, 0x31, 0], c.trk.voids.returned)
  | 21 => some ([0x39, 0x78, 0x3F, 0], c.trk.voids.carryTimeout)
  | 22 => some ([0x79, 0x73, 0x78, 0x6E], c.trk.voids.empty)
  | 23 => some ([0x30, 0x54, 0x73, 0x38], c.trk.voids.inputLoss)
  | 24 => some ([0x73, 0x3F, 0x3E, 0x50], c.trk.voids.power)
  | 25 => some ([0x33, 0x6D, 0x78, 0], c.trk.voids.restart)
  | 26 => some ([0x39, 0x76, 0x79, 0x39], c.link.check)
  | 27 => some ([0x71, 0x3F, 0x33, 0x15], c.link.form)
  | 28 => some ([0x38, 0x79, 0x54, 0], c.link.length)
  | 29 => some ([0x78, 0x64, 0x71, 0], c.link.txFail)
  | 30 => some ([0x67, 0x5E, 0x50, 0x73], c.link.qDrop)
  | 31 => some ([0x67, 0x3E, 0x30, 0x78], c.link.quietEntries)
  | _ => none

/-- The DIAG items of no such shape (Table 8-9, log 23). -/
def Chip.otherShows (c : Chip) (item : Nat) (main counter : List Byte) : Prop :=
  match item with
  | 1 => main = (if c.store.configDefault then [0x39, 0x71, 0x3D, 0] else blankField 4)
      ∧ lastPointed c.store.retainLost (shows 5 0 c.sup.startKind.code) counter
  | 9 => (c.inp.held.drive = none → main = dashField 4 ∧ counter = dashField 5)
      ∧ ∀ v, c.inp.held.drive = some v →
          counter = [0, 0, 0, flagSegs v.lights, flagSegs v.park]
            ∧ (v.gear ≤ 9 → main =
                [match v.dir with
                  | .n => 0x37
                  | .f => 0x71
                  | .r => 0x33, 0, numeralSegs.getD v.gear 0, 0])
  | 10 => main = (match c.inp.sel with
        | some .primary => [0x73, 0x33, 0x30, 0]
        | some .secondary => [0x6D, 0x79, 0x39, 0]
        | none => [0x37, 0x3F, 0x37, 0x79])
      ∧ ∃ roll, counter = flagSegs c.inp.disagree :: roll
          ∧ showsOr (dashField 4) (fun v : InclineVal => shows 4 0 (max (-999) (min v.roll 999))) c.inp.held.incline roll
  | 18 => (c.role.lastPair = none → main = dashField 4 ∧ counter = dashField 5)
      ∧ ∀ p, c.role.lastPair = some p →
          shows 4 0 p.shadow main ∧ firstPointed p.mismatch (shows 5 0 p.active) counter
  | 19 => shows 4 0 c.role.mismatches main ∧ shows 5 0 c.role.unpaired counter
  | 48 => showsOr (dashField 4) (fun (n : Nat) => shows 4 0 n) c.role.named main ∧ shows 5 0 c.role.state.code counter
  | 49 => shows 4 0 (if c.role.behind then 1 else 0) main ∧ shows 5 0 c.load.seq.toNat counter
  | 50 => showsOr (dashField 4) (fun w : WindowResult => shows 4 0 w.bins) c.eng.last main
      ∧ showsOr (dashField 5) (fun (m : Nat) => shows 5 0 m) (c.eng.last.bind WindowResult.payload) counter
  | 51 => showsOr (dashField 4) (fun (w : WindowResult) x => x = (match w.grade with
        | .good => [0x3D, 0x3F, 0x3F, 0x5E]
        | .fair => [0x71, 0x77, 0x30, 0x50]
        | .poor => [0x73, 0x3F, 0x3F, 0x50]
        | .reject => [0x50, 0x79, 0x1E, 0])) c.eng.last main
      ∧ showsOr (dashField 5) (fun (m : Nat) => shows 5 0 m) (c.eng.last.bind WindowResult.fill) counter
  | 52 => shows 4 0 c.link.queue.length main ∧ shows 5 0 (if c.link.access = .quiet then 1 else 0) counter
  | _ => True

/-- The DIAG page (R141, Table 8-9). Items 32-39 show the peer records in the order of the table, which is the model's choice
(log 53). -/
def Chip.diagShows (c : Chip) (main aux counter : List Byte) : Prop :=
  let item := c.panel.diagItem
  shows 2 0 item aux
    ∧ (∀ i, itemChannel item = some i → c.channelShows i main counter)
    ∧ (∀ segs n, c.countItem item = some (segs, n) → main = segs ∧ shows 5 0 n counter)
    ∧ (32 ≤ item → item ≤ 39 → c.role.peers[item - 32]? = none → main = dashField 4 ∧ counter = dashField 5)
    ∧ (∀ p, 32 ≤ item → item ≤ 39 → c.role.peers[item - 32]? = some p →
        shows 4 0 p.station main
          ∧ ∃ since, counter = numeralSegs.getD p.state.code 0 :: since
              ∧ shows 4 0 (min 199 (age c.tick p.at_ / 10) : Nat) since)
    ∧ (∀ a, itemAlarm item = some a →
        main = (alarmSegs a).take 4
          ∧ counter = [0, flagSegs (c.alarm.get a).cond, flagSegs (c.alarm.get a).latch, flagSegs (c.alarm.get a).ack,
              flagSegs (c.alarm.get a).mask])
    ∧ c.otherShows item main counter

/-- The page that is shown: in PEEK the PEEK page (R147). -/
def Chip.pageInSight (c : Chip) : Page :=
  if c.sup.power = .peek then (if c.panel.peekHistory then .history else .count) else c.panel.page

/-- The three fields as the page gives them. -/
def Chip.pageShows (c : Chip) (main aux counter : List Byte) : Prop :=
  match c.pageInSight with
  | .run => c.runShows main aux counter
  | .truck => c.truckShows main aux counter
  | .count => c.countShows main aux counter
  | .history => c.historyShows main aux counter
  | .setup => c.setupShows main aux counter
  | .diag => c.diagShows main aux counter
  | .cal => c.calShows main aux counter

/-- The lit segments of the bargraph (Table 8-5); 0 on the pages the table does not name is the model's choice (log 45). -/
def Chip.bargraph (c : Chip) : Nat :=
  let ofPass (p : PassRec) : Nat := if p.payload.isSome then min 20 (p.fill.getD 0 / 5) else 0
  match c.pageInSight, c.load.record with
  | .run, _ => (c.panel.lastPass.map ofPass).getD 0
  | .truck, some r =>
    match c.selectedPass r, r.target with
    | some p, _ => ofPass p
    | none, some t => min 20 (r.total * 20 / t)
    | none, none => 0
  | _, _ => 0

/-- The alarm on the banner: in RUN, the first of the order of priority that is latched, not acknowledged and not masked
(R127, R130). -/
def Chip.onBanner (c : Chip) (a : Alarm) : Prop :=
  c.sup.power = .run ∧ ∃ before rest, Alarm.all = before ++ a :: rest
    ∧ ((c.alarm.get a).latch = true ∧ (c.alarm.get a).ack = false ∧ (c.alarm.get a).mask = false)
    ∧ ∀ b ∈ before, ¬((c.alarm.get b).latch = true ∧ (c.alarm.get b).ack = false ∧ (c.alarm.get b).mask = false)

/-- The annunciators (Table 8-10, R147): byte and bit of the frame, and the condition under which it is lit. That TONNES is
lit by page and item alone is log 54. -/
def Chip.annunciators (c : Chip) : List ((Nat × Nat) × Prop) :=
  let inRun := c.sup.power = .run
  let page := c.pageInSight
  let loads := page = .run ∨ page = .truck
  let flag (f : RecFlags → Bool) : Prop := ∃ r, c.load.record = some r ∧ f r.flags = true
  [((13, 3), flag RecFlags.reached), ((13, 2), flag RecFlags.last),
   ((13, 1), flag RecFlags.overload
     ∨ page = .run ∧ ∃ p, c.panel.lastPass = some p ∧ p.payload.isSome = true ∧ ∃ f, p.fill = some f ∧ 100 < f),
   ((13, 0), inRun ∧ c.role.noWeigher = true
     ∨ page = .diag ∧ ∃ i, itemChannel c.panel.diagItem = some i ∧ (c.inp.chan i).freshness = .stale),
   ((14, 7), c.role.conflict = true), ((14, 6), inRun ∧ c.role.crossCheck = true), ((14, 5), c.cal.state ≠ .out),
   ((14, 4), inRun ∧ c.sup.status = .low), ((14, 3), ∃ a, c.onBanner a), ((14, 2), c.load.record = none ∧ loads),
   ((14, 1), flag RecFlags.isPartial ∧ loads),
   ((14, 0), loads ∨ page = .history ∨ page = .count ∧ (c.panel.countItem = 5 ∨ c.panel.countItem = 7)
     ∨ page = .setup ∧ c.panel.setupItem = 4),
   ((15, 0), page = .cal ∧ c.cal.state = .empty), ((15, 1), page = .cal ∧ c.cal.state = .loaded)]

/-- A frame is the image of the part in RUN or PEEK (R138-R143, R147, Table 12-6): a "CAL–BUSY" message over the three
fields, else the page's fields with the banner's legend in place of the counter figure; then the bargraph from the left,
and each annunciator where its condition holds. -/
def Chip.frameShows (c : Chip) (frame : List Byte) : Prop :=
  (c.panel.message.isSome = true → frame.take 11 = [0x39, 0x77, 0x38, 0x40, 0, 0, 0x7C, 0x3E, 0x6D, 0x6E, 0])
    ∧ (c.panel.message = none → ∃ counter, c.pageShows (frame.take 4) ((frame.drop 4).take 2) counter
        ∧ (∀ a, c.onBanner a → (frame.drop 6).take 5 = alarmSegs a)
        ∧ ((∀ a, ¬c.onBanner a) → (frame.drop 6).take 5 = counter))
    ∧ (∀ k, k < 20 → ((frame.getD (11 + k / 8) 0).getLsbD (7 - k % 8) = true ↔ k < c.bargraph))
    ∧ (∀ x ∈ c.annunciators, (frame.getD x.1.1 0).getLsbD x.1.2 = true ↔ x.2)
    ∧ ∀ k, 2 ≤ k → (frame.getD 15 0).getLsbD k = false

/-! ## Configuration items (Table 10-3) -/

/-- The range of an item of Table 10-3, lowest and highest value; no range for a number that names no item. -/
def itemRange : Nat → Option (Int × Int)
  | 1 | 19 | 20 | 36 | 37 | 38 | 39 | 41 | 42 | 43 => some (0, 1)
  | 2 | 3 | 4 | 5 | 6 | 7 | 8 => some (0, 31)
  | 9 => some (1, 2)
  | 10 | 11 => some (1, 2000)
  | 12 | 13 | 25 => some (-4500, 6000)
  | 14 | 15 => some (0, 10000)
  | 16 | 17 => some (0, 3000)
  | 18 => some (0, 500)
  | 21 => some (10, 1000)
  | 22 => some (8, 15)
  | 23 => some (500, 20000)
  | 24 => some (0, 40000)
  | 26 | 27 => some (-6000, 6000)
  | 28 => some (0, 1000)
  | 29 => some (100, 5000)
  | 30 | 31 => some (0, 20)
  | 32 => some (100, 150)
  | 33 => some (0, 50000)
  | 34 => some (0, 3)
  | 35 => some (0, 4)
  | 40 => some (0, 255)
  | 44 => some (0, 4294967295)
  | _ => none

/-- A value lies in the range of an item; item 33 takes 0, or 100 and more (Table 10-3). -/
def itemTakes (item : Nat) (v : Int) : Prop :=
  ∃ lo hi, itemRange item = some (lo, hi) ∧ lo ≤ v ∧ v ≤ hi ∧ (item = 33 → v = 0 ∨ 100 ≤ v)

def boolItemValue (b : Bool) : Int := if b then 1 else 0

/-- The value of an item of a configuration (Table 10-3). -/
def Cfg.itemValue (c : Cfg) : Nat → Int
  | 1 => boolItemValue (c.role == .repeater)
  | 2 => c.srcPressure
  | 3 => c.srcPrimary
  | 4 => c.srcSecondary
  | 5 => c.srcTilt
  | 6 => c.srcDrive
  | 7 => c.srcIncline
  | 8 => c.srcTag
  | 9 => c.cylinders
  | 10 => c.headArea
  | 11 => c.rodArea
  | 12 => c.thetaS
  | 13 => c.thetaE
  | 14 => c.rmin
  | 15 => c.rmax
  | 16 => c.pitchLimit
  | 17 => c.rollLimit
  | 18 => c.speedLimit
  | 19 => boolItemValue c.inclineReq
  | 20 => boolItemValue c.driveReq
  | 21 => c.disagreeLimit
  | 22 => c.minBins
  | 23 => c.spread
  | 24 => c.digPressure
  | 25 => c.digAngle
  | 26 => c.rackAngle
  | 27 => c.dumpAngle
  | 28 => c.residual
  | 29 => c.rated
  | 30 => c.underTol
  | 31 => c.overTol
  | 32 => c.passOver
  | 33 => c.defaultTarget
  | 34 => c.defaultSet.val
  | 35 => c.protect
  | 36 => boolItemValue (c.modeInputFault == .held)
  | 37 => boolItemValue (c.modeCrossCheck == .held)
  | 38 => boolItemValue (c.modeOverload == .held)
  | 39 => boolItemValue (c.modeNoWeigher == .held)
  | 40 => c.mask.toNat
  | 41 => boolItemValue c.singleEnded
  | 42 => boolItemValue c.keyWake
  | 43 => boolItemValue c.busWake
  | 44 => c.unlock.toNat
  | _ => 0

/-- The store after a wrong unlock code (R171): the count rises to at most 3, and at the third the lockout is set. -/
def ParamStore.codeRefused (p : ParamStore) : ParamStore :=
  { p with wrongCodes := min 3 (p.wrongCodes + 1), lockout := decide (3 ≤ p.wrongCodes + 1) }

/-- From c to d a telegram has been answered by a CONFIG STATUS to its source (R171, Table 12-5); a MUTE part's answer is
discarded on offer (R155). -/
def Chip.configAnswered (c d : Chip) (src item answer : Byte) : Prop :=
  d.link =
    (if c.role.state = .mute then c.link.runEnded
      else c.link.runEnded.joined ⟨.configStatus, src, [item, answer]⟩).settle d.maySend

/-! ## Power states and starts -/

/-- From c to d the part has left RUN for HOLD or DOZE (R177): the resume role and the kept page are written, BKL is low and
the buzzer empty, the tracker is SUSPENDED with a pass in flight voided POWER, mask timers and channel timers stand, the
queue and both slots are empty, and a RETAIN save is asked for. -/
def Chip.leftRun (c d : Chip) (p : Power) : Prop :=
  let left := c.cal.state = .out ∨ c.cal.state = .writing
  let flying := c.trk.cycle = .lift ∨ c.trk.cycle = .weigh ∨ c.trk.cycle = .carry
  let saved : Retained :=
    ⟨c.load.shift, c.load.life, c.load.record, c.load.seq, c.load.nextManual, c.load.history, c.load.nextHist,
      c.panel.settings, d.role.resumeRole, d.panel.keptPage⟩
  d.sup.power = p ∧ d.sup.offAfterStart = false ∧ d.sup.startKind = c.sup.startKind
    ∧ (left → d.role = { c.role with
        resumeRole := c.role.state, watch := none, listen := none, status := none, pairing := [] }
        ∧ d.panel.keptPage = c.panel.page ∧ d.cal = c.cal)
    ∧ (¬left → d.cal.state = .out ∧ d.panel.keptPage = .run
        ∧ d.role.resumeRole = (if c.role.state = .mute then .mute else .listen))
    ∧ d.panel.bklLevel = 0 ∧ d.panel.buz = Buzzer.silent ∧ d.panel.settings = c.panel.settings
    ∧ d.trk.cycle = .suspended ∧ d.trk.suspPower = true
    ∧ (c.trk.cycle ≠ .suspended → d.trk.ctx = none)
    ∧ d.trk.voids.power = (if flying then min 65535 (c.trk.voids.power + 1) else c.trk.voids.power)
    ∧ (∀ a, d.alarm.get a = { c.alarm.get a with maskTimer := none })
    ∧ (∀ i, d.inp.chan i = { c.inp.chan i with staleTimer := none, loss := .stopped }) ∧ d.inp.held = c.inp.held
    ∧ d.load = { c.load with refreshTimer := none, pollTimer := none }
    ∧ d.link.queue = [] ∧ d.link.wslot = none ∧ d.link.tslot = none ∧ d.link.inHand = none
    ∧ d.link.rx = (if p = .doze ∧ c.cfg.busWake = true then .skip else .off)
    ∧ d.link.access = (if p = .doze then .gap else .off) ∧ d.link.check = c.link.check ∧ d.link.qDrop = c.link.qDrop
    ∧ (c.store.writing.isSome = true → d.store = { c.store with reqRetain := some saved })
    ∧ (c.store.writing = none →
        d.store = { c.store with writing := some (.retain saved, c.tick), reqRetain := none })
    ∧ d.tick = c.tick ∧ d.pins.keys = c.pins.keys

/-- From c to d the part has made a RESUME start (R180): the resume role is taken, the POWER reason is gone, every heard
channel is STALE, the kept page is shown, the queue is empty, the link counters, the record, the ring and the counters are
kept, and the wrong-code count and lockout are clear. -/
def Chip.resumed (c d : Chip) : Prop :=
  d.sup.power = .run ∧ d.sup.startKind = .resume ∧ d.sup.peekTimer = none ∧ d.tick = c.tick
    ∧ d.role.state = c.role.resumeRole ∧ d.role.peers = [] ∧ d.role.named = none ∧ d.role.pairing = []
    ∧ (d.role.state = .listen → d.role.listen = some c.tick)
    ∧ (d.role.state = .standby ∨ d.role.state = .repeating → d.role.watch = some c.tick)
    ∧ d.trk.suspPower = false ∧ d.trk.suspCal = c.trk.suspCal
    ∧ d.trk.cycle = (if c.trk.suspCal then c.trk.cycle else .idle) ∧ d.trk.voids = c.trk.voids ∧ d.trk.note = none
    ∧ (∀ i, (d.inp.chan i).freshness = (if (c.inp.chan i).freshness = .absent then .absent else .stale)
        ∧ (d.inp.chan i).loss = .running c.tick)
    ∧ d.inp.held = c.inp.held ∧ d.inp.disagree = false
    ∧ d.panel.page = c.panel.keptPage ∧ d.panel.settings = c.panel.settings ∧ d.panel.shadow = c.panel.settings.day
    ∧ d.link.queue = [] ∧ d.link.rx = .skip ∧ d.link.station = c.link.station ∧ d.link.check = c.link.check
    ∧ d.link.form = c.link.form ∧ d.link.txFail = c.link.txFail
    ∧ d.load.history = c.load.history ∧ d.load.shift = c.load.shift ∧ d.load.life = c.load.life
    ∧ d.load.refused = none ∧ d.load.record.map TruckRec.passes = c.load.record.map TruckRec.passes
    ∧ d.eng.isOpen = false ∧ d.store = { c.store with wrongCodes := 0, lockout := false }

/-- The role that a COLD or LINE start settles (R108): MUTE at strap 0, REPEAT of a REPEATER, else LISTEN. -/
def Chip.settledRole (d : Chip) (s : Straps) : Prop :=
  d.role.peers = [] ∧ d.role.named = none
    ∧ (s.stn = 0 → d.role.state = .mute ∧ d.role.conflict = true)
    ∧ (s.stn ≠ 0 → d.role.conflict = false)
    ∧ (s.stn ≠ 0 → d.cfg.role = .repeater → d.role.state = .repeating ∧ d.role.watch = some d.tick)
    ∧ (s.stn ≠ 0 → d.cfg.role = .weigher → d.role.state = .listen ∧ d.role.listen = some d.tick)

/-- The state that a COLD or LINE start leaves of link, input table, engine and calibration (R148, R65, R26), and the
opening of the start window (R170). -/
def Chip.startedAfresh (d : Chip) (s : Straps) : Prop :=
  d.sup.life = .up ∧ d.sup.power = .run ∧ d.sup.peekTimer = none ∧ d.sup.offAfterStart = !d.sup.ignition
    ∧ d.link.station = s.stn.toNat ∧ d.link.rateFast = s.rateClosed ∧ d.link.rx = .skip ∧ d.link.queue = []
    ∧ d.link.check = 0 ∧ d.link.form = 0 ∧ d.link.length = 0 ∧ d.link.txFail = 0 ∧ d.link.qDrop = 0
    ∧ d.link.quietEntries = 0 ∧ d.link.lastAbort = .none
    ∧ d.inp = InputTable.start d.tick ∧ d.eng.isOpen = false ∧ d.cal = CalUnit.start ∧ d.trk.cycle = .idle
    ∧ d.trk.ctx = none ∧ d.panel.page = .run ∧ d.load.refused = none ∧ d.load.mirrorCounts = none
    ∧ d.store.window = some d.tick ∧ d.store.work = d.store.cfg ∧ d.store.wrongCodes = 0 ∧ d.store.lockout = false
    ∧ d.store.owed = [] ∧ d.store.owedNext = [] ∧ d.store.replaced = false

/-- From c to d the part has made a LINE start (R168, R176): the write in progress completes, configuration and curve sets
are read from the array, the retained items in working memory stay. -/
def Chip.lineStarted (c d : Chip) (s : Straps) : Prop :=
  let array := match c.store.writing with
    | none => c.store.array
    | some (.config x, _) => { c.store.array with config := some x }
    | some (.curve i x, _) => { c.store.array with curves := c.store.array.curves.set i ⟨x, true⟩ }
    | some (.retain x, _) => { c.store.array with retained := some x }
  d.startedAfresh s ∧ d.settledRole s ∧ d.sup.startKind = .line ∧ d.sup.ignition = c.sup.ignition
    ∧ d.sup.ignTimer = c.sup.ignTimer ∧ d.tick = c.tick ∧ d.panel.settings = c.panel.settings
    ∧ d.load.history = c.load.history ∧ d.load.shift = c.load.shift ∧ d.load.life = c.load.life
    ∧ d.load.nextManual = c.load.nextManual
    ∧ d.load.record.map TruckRec.passes = c.load.record.map TruckRec.passes
    ∧ d.trk.voids =
        (if c.trk.cycle = .lift ∨ c.trk.cycle = .weigh ∨ c.trk.cycle = .carry then
          { c.trk.voids with restart := min 65535 (c.trk.voids.restart + 1) }
        else c.trk.voids)
    ∧ d.store.array = array ∧ (∀ x, array.config = some x → d.store.cfg = x ∧ d.store.configDefault = false)
    ∧ (array.config = none → d.store.cfg = { Cfg.defaults with role := .repeater } ∧ d.store.configDefault = true)
    ∧ d.store.retainLost = c.store.retainLost ∧ d.store.reqCurve = none ∧ d.store.reqConfig = none

/-- The commands that reach a part held by RESET or with a LINE start pending (R176): the lines, the supply and ignition
events, the starts, and a store write that completes. -/
def reachesHeld : Instr → Prop
  | .keyLineChange _ _ | .storeWriteComplete | .supplyFallsLow _ | .supplyRisesOk _ _ | .ignLineChange _
  | .ignitionChange | .regulatorFail _ | .coldStart _ _ | .resetAssert | .resetRelease _ => True
  | _ => False

/-- A timer runs, and has reached a length (0.4.3). -/
def ranOut (len : Nat) (timer : Option Tick) (now : Tick) : Prop := ∃ since, timer = some since ∧ len ≤ age now since

/-- The stale limits of Table 3-1. -/
def staleLimit : ChanId → Nat
  | .pressure | .primary | .secondary => 60
  | .tilt => 200
  | .drive | .incline => 500
  | .tag => 2000

/-- The sequences missing between an arrival and the one before it (R57). -/
def missed (prev : Option Byte) (seq : Byte) : Nat :=
  match prev with
  | none => 0
  | some p => if seq = p then 0 else (seq - p - 1).toNat

/-- Every step that answers a next state keeps a property of the part. -/
def Kept (P : Chip → Prop) : Prop := ∀ s t, P s.chip → step s = .next t → P t.chip

/-! ## Invariants: the link -/

/-- The ranges of Table 9-1: at most 8 telegrams wait, none with more than 12 data bytes, attempts 0-2, discards 0-16,
counters 0-65535; a head in hand is in the queue. -/
def Link.inRange (l : Link) : Prop :=
  l.queue.length ≤ 8 ∧ (∀ t ∈ l.queue, t.data.length ≤ 12)
    ∧ (∀ t, l.wslot = some t → t.data.length ≤ 12) ∧ (∀ t, l.tslot = some t → t.data.length ≤ 12)
    ∧ (∀ h, l.inHand = some h → h.attempts ≤ 2) ∧ (l.headInHand = true → l.queue ≠ [])
    ∧ l.discards ≤ 16 ∧ l.check ≤ 65535 ∧ l.form ≤ 65535 ∧ l.length ≤ 65535 ∧ l.txFail ≤ 65535 ∧ l.qDrop ≤ 65535
    ∧ l.quietEntries ≤ 65535

/-! ## Invariants: records, history, counters and settings, in force and saved -/

/-- Table 2-5; a mirrored pass carries its fields as they were sent (log 11), so its fill may reach 254. -/
def PassRec.inRange (p : PassRec) : Prop :=
  p.truckId ≤ 65535 ∧ p.number ≤ 255 ∧ (∀ m, p.payload = some m → m ≤ 9999) ∧ p.bins ≤ 15 ∧ p.reweigh ≤ 3
    ∧ p.cycleTime ≤ 65535 ∧ ∀ f, p.fill = some f → f ≤ 254

/-- Table 2-3. -/
def PassCtx.inRange (x : PassCtx) : Prop :=
  x.reweigh ≤ 3 ∧ x.bins ≤ 15 ∧ (∀ m, x.payload = some m → m ≤ 9999) ∧ ∀ f, x.fill = some f → f ≤ 199

/-- A target, where there is one: an own one is 100-50000, a mirrored one is as it was sent (Table 4-2, log 11). -/
def targetInRange (t : Option Nat) : Prop := ∀ n, t = some n → 1 ≤ n ∧ n ≤ 65535

/-- Table 4-2: at most 12 passes, their numbers distinct and none above the pass count, the count within 0-255 and not
below the list's length, the total within 0-99999; identity, target and every pass within their ranges. -/
def TruckRec.inRange (r : TruckRec) : Prop :=
  r.passes.length ≤ 12 ∧ r.passes.length ≤ r.count ∧ r.count ≤ 255 ∧ (numbers r.passes).Nodup
    ∧ (∀ n ∈ numbers r.passes, n ≤ r.count) ∧ r.total ≤ 99999 ∧ r.unweighed ≤ 255
    ∧ r.id ≤ 65535 ∧ targetInRange r.target ∧ ∀ p ∈ r.passes, p.inRange

/-- Sequences, newest first, that count down by one from below a number (R80). -/
def seqsBelow : BitVec 32 → List (BitVec 32) → Prop
  | _, [] => True
  | n, s :: rest => s = n - 1 ∧ seqsBelow s rest

/-- Table 4-5. -/
def Summary.inRange (h : Summary) : Prop :=
  h.truckId ≤ 65535 ∧ targetInRange h.target ∧ h.total ≤ 99999 ∧ h.count ≤ 255 ∧ h.unweighed ≤ 255

/-- The ring holds at most 16 summaries with consecutive sequences, the newest one below the next (R80). -/
def ringInRange (next : BitVec 32) (ring : List Summary) : Prop :=
  ring.length ≤ 16 ∧ seqsBelow next (ring.map Summary.seq).reverse ∧ ∀ h ∈ ring, h.inRange

/-- Table 4-6. -/
def ShiftCounters.inRange (s : ShiftCounters) : Prop :=
  s.cycles ≤ 65535 ∧ s.weighed ≤ 65535 ∧ s.unweighed ≤ 65535 ∧ s.trucks ≤ 65535 ∧ s.tonnage ≤ 99999999

def LifeCounters.inRange (l : LifeCounters) : Prop := l.cycles ≤ 4294967295 ∧ l.tonnage ≤ 4294967295

/-- Table 8-8. -/
def Settings.inRange (s : Settings) : Prop :=
  s.day ≤ 63 ∧ s.night ≤ 63 ∧ s.volume ≤ 15 ∧ -50 ≤ s.trim ∧ s.trim ≤ 50

/-- Table 10-2. -/
def Retained.inRange (r : Retained) : Prop :=
  (∀ x, r.record = some x → x.inRange) ∧ ringInRange r.nextHist r.history ∧ r.shift.inRange ∧ r.life.inRange
    ∧ r.settings.inRange ∧ 1 ≤ r.nextManual ∧ r.nextManual ≤ 999

/-- The pass in flight, the pass last committed, the last pass shown and the held tag, from which records are made, are
within their ranges (Tables 2-3, 2-5, 3-1, 8-1). -/
def Chip.passesInRange (c : Chip) : Prop :=
  (∀ x, c.trk.ctx = some x → x.inRange) ∧ (∀ n, c.trk.note = some n → n.pass.inRange)
    ∧ (∀ p, c.panel.lastPass = some p → p.inRange)
    ∧ ∀ t, c.inp.held.tag = some t → t.id ≤ 65535 ∧ ∀ n, t.target = some n → 100 ≤ n ∧ n ≤ 50000

/-- The retained items as they stand, every saved or waiting copy of them, and the passes and the tag that they are made
from, are within their ranges. -/
def Chip.keptInRange (c : Chip) : Prop :=
  (c.retained c.role.resumeRole).inRange ∧ (∀ r, c.store.reqRetain = some r → r.inRange)
    ∧ (∀ r t, c.store.writing = some (.retain r, t) → r.inRange) ∧ (∀ r, c.store.array.retained = some r → r.inRange)
    ∧ c.passesInRange

/-! ## Invariants: the configuration -/

/-- The ranges of Table 10-3. -/
def Cfg.inRange (c : Cfg) : Prop :=
  c.srcPressure ≤ 31 ∧ c.srcPrimary ≤ 31 ∧ c.srcSecondary ≤ 31 ∧ c.srcTilt ≤ 31 ∧ c.srcDrive ≤ 31 ∧ c.srcIncline ≤ 31
    ∧ c.srcTag ≤ 31 ∧ 1 ≤ c.cylinders ∧ c.cylinders ≤ 2 ∧ 1 ≤ c.headArea ∧ c.headArea ≤ 2000 ∧ 1 ≤ c.rodArea
    ∧ c.rodArea ≤ 2000 ∧ -4500 ≤ c.thetaS ∧ c.thetaS ≤ 6000 ∧ -4500 ≤ c.thetaE ∧ c.thetaE ≤ 6000 ∧ 0 ≤ c.rmin
    ∧ c.rmin ≤ 10000 ∧ 0 ≤ c.rmax ∧ c.rmax ≤ 10000 ∧ c.pitchLimit ≤ 3000 ∧ c.rollLimit ≤ 3000 ∧ c.speedLimit ≤ 500
    ∧ 10 ≤ c.disagreeLimit ∧ c.disagreeLimit ≤ 1000 ∧ 8 ≤ c.minBins ∧ c.minBins ≤ 15 ∧ 500 ≤ c.spread
    ∧ c.spread ≤ 20000 ∧ c.digPressure ≤ 40000 ∧ -4500 ≤ c.digAngle ∧ c.digAngle ≤ 6000 ∧ -6000 ≤ c.rackAngle
    ∧ c.rackAngle ≤ 6000 ∧ -6000 ≤ c.dumpAngle ∧ c.dumpAngle ≤ 6000 ∧ c.residual ≤ 1000 ∧ 100 ≤ c.rated
    ∧ c.rated ≤ 5000 ∧ c.underTol ≤ 20 ∧ c.overTol ≤ 20 ∧ 100 ≤ c.passOver ∧ c.passOver ≤ 150
    ∧ (c.defaultTarget = 0 ∨ 100 ≤ c.defaultTarget ∧ c.defaultTarget ≤ 50000) ∧ c.protect ≤ 4

/-- The configuration in force, the one being written to, and every saved or waiting copy are within Table 10-3. -/
def ParamStore.configInRange (p : ParamStore) : Prop :=
  p.cfg.inRange ∧ p.work.inRange ∧ (∀ c, p.reqConfig = some c → c.inRange)
    ∧ (∀ c t, p.writing = some (.config c, t) → c.inRange) ∧ (∀ c, p.array.config = some c → c.inRange)

/-! ## Invariants: the pass and the window -/

/-- A pass context exists in FILL, LIFT, WEIGH and CARRY and in no other cycle state (R27); the window is open in WEIGH
alone, with its set and geometry latched; each tracker timer runs in its states alone; SUSPENDED stands while a reason
does, POWER outside RUN and CAL during a calibration (R48), of which CAL-WRITING alone goes on outside RUN (R102). -/
def Chip.passAndWindow (c : Chip) : Prop :=
  (c.trk.ctx.isSome = true ↔ c.trk.cycle = .fill ∨ c.trk.cycle = .lift ∨ c.trk.cycle = .weigh ∨ c.trk.cycle = .carry)
    ∧ (c.eng.isOpen = true ↔ c.trk.cycle = .weigh) ∧ (c.eng.isOpen = true → c.eng.latched.isSome = true)
    ∧ (c.trk.fillTimer.isSome = true → c.trk.cycle = .fill) ∧ (c.trk.carryTimer.isSome = true → c.trk.cycle = .carry)
    ∧ (c.trk.lossPressure.isSome = true ∨ c.trk.lossAngle.isSome = true → c.trk.cycle = .weigh ∨ c.trk.cycle = .carry)
    ∧ (c.trk.cycle = .suspended ↔ c.trk.suspCal = true ∨ c.trk.suspPower = true)
    ∧ (c.trk.suspPower = true ↔ c.sup.power ≠ .run) ∧ (c.trk.suspCal = true ↔ c.cal.state ≠ .out)
    ∧ (c.sup.power ≠ .run → c.cal.state = .out ∨ c.cal.state = .writing)

/-- The bins and tallies of Table 1-2 and Table 1-3. -/
def Engine.inRange (e : Engine) : Prop :=
  (∀ k : Fin 15, (e.bins[k]).count ≤ 255) ∧ e.tallies.rate ≤ 65535 ∧ e.tallies.age ≤ 65535 ∧ e.tallies.sensor ≤ 65535
    ∧ e.tallies.disagree ≤ 65535 ∧ e.tallies.incline ≤ 65535 ∧ e.tallies.speed ≤ 65535 ∧ e.tallies.binfull ≤ 65535

/-! ## Invariants: the alarms and the supply -/

/-- An acknowledged record is latched; a mask timer runs only for a masked, latched record in RUN; in RUN a HELD record
whose condition is true is latched (R124, R126, R130). -/
def Chip.alarmsLawful (c : Chip) : Prop :=
  ∀ a, ((c.alarm.get a).ack = true → (c.alarm.get a).latch = true)
    ∧ ((c.alarm.get a).maskTimer.isSome = true →
        c.sup.power = .run ∧ (c.alarm.get a).mask = true ∧ (c.alarm.get a).latch = true)
    ∧ (c.sup.power = .run → (c.alarm.get a).mode = .held → (c.alarm.get a).cond = true → (c.alarm.get a).latch = true)

/-- Each record carries the latch mode and the mask of the configuration in force (7.2), and in a part that runs in RUN
the condition of its source as it stands (R122); NO WEIGHER stands in REPEAT alone (R117), and the listen timer runs in
LISTEN alone (R108). -/
def Chip.alarmsCurrent (c : Chip) : Prop :=
  (∀ a, (c.alarm.get a).mode = c.cfg.alarmMode a ∧ (c.alarm.get a).mask = c.cfg.alarmMask a
      ∧ (c.sup.life = .up → c.sup.power = .run → (c.alarm.get a).cond = c.cond a))
    ∧ (c.role.noWeigher = true → c.role.state = .repeating) ∧ (c.role.listen.isSome = true → c.role.state = .listen)

/-- The status agrees with the supply within its hysteresis: OK at 16.0 V or more, LOW at 18.0 V or less (R174). -/
def Chip.supplyAgrees (c : Chip) : Prop :=
  c.sup.life ≠ .off →
    (c.sup.status = .ok → 160 ≤ c.pins.vsense) ∧ (c.sup.status = .low → c.pins.vsense ≤ 180)

/-- A telegram waits out an access delay only with transmit permission, and the delay belongs to a telegram in hand. -/
def Chip.delaysLawfully (c : Chip) : Prop :=
  c.link.access = .delay → c.maySend = true ∧ c.link.inHand.isSome = true

end Sys2Proof.Machine
end

