-- ==== Sys2Proof/Certificates/Slice0/Obligations.lean ====
section
/-! DEFINITION. The claims about the part: its step, its invariants, and what each command does. -/

open Sys2Proof Sys2Proof.Machine

/-! ## The step -/

/-- A step takes the command at the front of the queue and runs it on the state with the queue's rest. -/
def Obligations.StepRunsTheFrontCommand : Prop :=
  ∀ (i : Instr) (rest : List Instr) (s : State), s.pending = i :: rest → step s = exec i { s with pending := rest }

/-- The model's choice (log 2): a step on an empty queue passes one millisecond, and none without the regulator; nothing
else changes. -/
def Obligations.EmptyQueuePassesOneMillisecond : Prop :=
  ∀ s : State, s.pending = [] →
    step s = .next { s with chip := { s.chip with
      tick := if s.chip.sup.life = .off then s.chip.tick else s.chip.tick + 1 } }

/-- Every command completes in every state and leaves the queue as it stood, and every state is safe. That a command whose
event cannot occur in a state completes too is the model's choice (log 4). -/
def Obligations.EveryCommandCompletes : Prop :=
  (∀ (i : Instr) (s : State), ∃ t, exec i s = .next t ∧ t.pending = s.pending) ∧ ∀ s : State, s.safe

/-! ## Reset and the invariants -/

/-- State.reset is what a COLD start at 24.0 V makes of a part whose store was never written, at station 1 with RATE open
(the model's choice, log 1), and the invariants stated below hold there. -/
def Obligations.ResetIsALawfulColdStart : Prop :=
  exec (.coldStart 240 ⟨1, false⟩) ⟨Chip.unpowered Pins.idle StoreArray.blank, []⟩ = .next State.reset
    ∧ Chip.reset.link.inRange ∧ Chip.reset.keptInRange ∧ Chip.reset.store.configInRange ∧ Chip.reset.passAndWindow
    ∧ Chip.reset.eng.inRange ∧ Chip.reset.alarmsLawful ∧ Chip.reset.alarmsCurrent ∧ Chip.reset.supplyAgrees
    ∧ Chip.reset.delaysLawfully

/-- Every step keeps the ranges of the link controller, and leaves no access delay without transmit permission and a
telegram in hand. -/
def Obligations.LinkStaysLawful : Prop := Kept fun c => c.link.inRange ∧ c.delaysLawfully

/-- Under a configuration within Table 10-3, every step keeps the open record with its target and passes, the summaries of
the ring, the counters and the settings within their ranges, as they stand and in every saved or waiting copy, and with them
the pass in flight, the noted and the shown pass and the held tag. Mirrored fields are bounded as they were sent (log 11). -/
def Obligations.RetainedItemsStayInRange : Prop :=
  ∀ s t, s.chip.store.configInRange → s.chip.keptInRange → step s = .next t → t.chip.keptInRange

/-- Every step keeps every copy of the configuration within the ranges of Table 10-3. -/
def Obligations.ConfigurationStaysInRange : Prop := Kept fun c => c.store.configInRange

/-- Every step keeps the agreement of pass context, window, tracker timers and suspension with the cycle state, and outside
RUN no calibration but one in CAL-WRITING. -/
def Obligations.PassAndWindowStayTogether : Prop := Kept Chip.passAndWindow

/-- Every step keeps each bin count within 0-255 and each tally within 0-65535. -/
def Obligations.BinCountsStayInRange : Prop := Kept fun c => c.eng.inRange

/-- Every step keeps the latching laws of the alarm records. -/
def Obligations.AlarmRecordsStayLawful : Prop := Kept Chip.alarmsLawful

/-- Every step leaves each alarm record with the mode and mask in force and, in RUN, with the present condition of its
source; NO WEIGHER stands in REPEAT alone, and the listen timer runs in LISTEN alone. -/
def Obligations.AlarmConditionsStayCurrent : Prop := Kept Chip.alarmsCurrent

/-- Every step keeps the supply status in agreement with the supply, within its hysteresis. -/
def Obligations.SupplyStatusAgrees : Prop := Kept Chip.supplyAgrees

/-! ## Sensor telegrams: what the input table records -/

/-- LIFT_PRESSURE from the pressure source, in RUN: the channel's record and held value (R53, R55, R57). Outside IDLE, and in
IDLE where the inputs then do not hold the part in the dig, the load register, the role and the cycle state stand (R30); in
FILL the empty timer starts or stops by the pressure (R31), and in WEIGH and CARRY the input-loss timers follow the channels
(R40). A part without an open lift keeps its calibration, one with the window SHUT its engine. -/
def Obligations.PressureIsRecorded : Prop :=
  ∀ (s : State) (src dst : Byte) (data : List Byte), s.chip.Hears src dst data →
    src.toNat = s.chip.cfg.srcPressure → 6 ≤ data.length →
    Gives (.liftPressure src dst data) s fun d =>
      d.inp = { s.chip.inp with
        pressure :=
          { freshness := if pressureStatus (nat8 data 5) = .ok then .fresh else .fault
            latestTick := some s.chip.tick
            latestStatus := some (pressureStatus (nat8 data 5))
            overRange := ⟨decide (40000 < nat16 data 1), decide (40000 < nat16 data 3), false⟩
            prevSeq := some (byteAt data 0)
            gap := min 65535 (s.chip.inp.pressure.gap + missed s.chip.inp.pressure.prevSeq (byteAt data 0))
            staleTimer := some s.chip.tick
            loss :=
              if pressureStatus (nat8 data 5) = .ok then .stopped
              else if s.chip.inp.pressure.freshness = .fresh then .running s.chip.tick
              else s.chip.inp.pressure.loss }
        held :=
          if pressureStatus (nat8 data 5) = .ok then
            { s.chip.inp.held with pressure := some ⟨min (nat16 data 1) 40000, min (nat16 data 3) 40000⟩ }
          else s.chip.inp.held }
      ∧ s.chip.onlyChanges d [.link, .inp, .eng, .trk, .load, .role, .cal, .alarm, .panel]
      ∧ (s.chip.trk.cycle ≠ .idle ∨ ¬d.inDig →
          d.load = s.chip.load ∧ d.role = s.chip.role
            ∧ d.trk = d.lossTimed { s.chip.trk with
                fillTimer :=
                  if s.chip.trk.cycle = .fill then
                    s.chip.fillAfter (pressureStatus (nat8 data 5) == .ok) (min (nat16 data 1) 40000)
                  else s.chip.trk.fillTimer }
            ∧ s.chip.onlyBuzzer d ∧ s.chip.onlyAlarm .inputFault d ∧ s.chip.onlyHeard d)
      ∧ (s.chip.cal.liftOpen = false → d.cal = s.chip.cal) ∧ (s.chip.eng.isOpen = false → d.eng = s.chip.eng)

/-- BOOM_ANGLE from the source of an angle channel, the primary where both name it (R51): the channel's record and held
value (R53, R55, R57), the selection (R58), DISAGREE (R59) and the boom rate with its memory and its timer, which an arrival
of a source that is not selected leaves as they are unless it changes the selection (R60, R61; that an arrival with no rate
leaves the timer running is log 15). A primary fault report moves nothing of tracker, engine and calibration, nor the
previous angle; a usable primary angle that takes the tracker nowhere becomes the previous angle, but in SUSPENDED (R28, R29,
R31, R34, R38, R39). In both the input-loss timers follow the channels (R40). -/
def Obligations.AngleIsRecorded : Prop :=
  ∀ (s : State) (src dst : Byte) (data : List Byte) (a : AngleSrc), s.chip.Hears src dst data →
    (a = .primary ∧ src.toNat = s.chip.cfg.srcPrimary
      ∨ a = .secondary ∧ src.toNat = s.chip.cfg.srcSecondary ∧ src.toNat ≠ s.chip.cfg.srcPrimary) →
    4 ≤ data.length →
    Gives (.boomAngle src dst data) s fun d =>
      let ok := nat8 data 3 = 0
      let theta := clampInt (-4500) 6000 (int16 data 1)
      let r := s.chip.inp.angleRec a
      d.inp.angleRec a =
          { freshness := if ok then .fresh else .fault
            latestTick := some s.chip.tick
            latestStatus := some (if ok then .ok else .fault)
            overRange := ⟨decide (int16 data 1 < -4500 ∨ 6000 < int16 data 1), false, false⟩
            prevSeq := some (byteAt data 0)
            gap := min 65535 (r.gap + missed r.prevSeq (byteAt data 0))
            staleTimer := some s.chip.tick
            loss := if ok then .stopped else if r.freshness = .fresh then .running s.chip.tick else r.loss }
        ∧ d.inp.heldAngle a = (if ok then some theta else s.chip.inp.heldAngle a)
        ∧ (∀ b, b ≠ a → d.inp.angleRec b = s.chip.inp.angleRec b ∧ d.inp.heldAngle b = s.chip.inp.heldAngle b)
        ∧ (d.inp.primary.freshness = .fresh → d.inp.sel = some .primary)
        ∧ (d.inp.primary.freshness ≠ .fresh → d.inp.secondary.freshness = .fresh → d.inp.sel = some .secondary)
        ∧ (d.inp.primary.freshness ≠ .fresh → d.inp.secondary.freshness ≠ .fresh →
            s.chip.inp.sel.isSome = true → d.inp.sel = s.chip.inp.sel)
        ∧ (d.inp.disagree = true ↔
            d.inp.primary.freshness = .fresh ∧ d.inp.secondary.freshness = .fresh
              ∧ ∃ p q, d.inp.held.primary = some p ∧ d.inp.held.secondary = some q
                  ∧ s.chip.cfg.disagreeLimit < (p - q).natAbs)
        ∧ (ok → d.inp.sel = some a →
            d.inp.rateMem = some ⟨a, theta, s.chip.tick⟩
              ∧ (s.chip.inp.sel ≠ some a → d.inp.omega = none)
              ∧ (s.chip.inp.sel = some a → s.chip.inp.rateMem = none → d.inp.omega = none)
              ∧ (s.chip.inp.sel = some a → ∀ m, s.chip.inp.rateMem = some m →
                  d.inp.omega =
                    if m.src = a ∧ 1 ≤ age s.chip.tick m.at_ ∧ age s.chip.tick m.at_ ≤ 100 then
                      some (((theta - m.angle) * 1000).tdiv (age s.chip.tick m.at_))
                    else none))
        ∧ (ok → d.inp.sel = some a →
            d.inp.rateTimer = if d.inp.omega.isSome = true then some s.chip.tick else s.chip.inp.rateTimer)
        ∧ (¬ok → d.inp.sel = some a → d.inp.omega = none ∧ d.inp.rateMem = none
            ∧ d.inp.rateTimer = s.chip.inp.rateTimer)
        ∧ (d.inp.sel ≠ some a → d.inp.rateTimer = s.chip.inp.rateTimer
            ∧ (d.inp.sel = s.chip.inp.sel →
                d.inp.omega = s.chip.inp.omega ∧ d.inp.rateMem = s.chip.inp.rateMem)
            ∧ (d.inp.sel ≠ s.chip.inp.sel → d.inp.omega = none ∧ d.inp.rateMem = none))
        ∧ d.inp.pressure = s.chip.inp.pressure ∧ d.inp.tilt = s.chip.inp.tilt ∧ d.inp.drive = s.chip.inp.drive
        ∧ d.inp.incline = s.chip.inp.incline ∧ d.inp.tag = s.chip.inp.tag
        ∧ s.chip.onlyChanges d [.link, .inp, .eng, .trk, .load, .role, .cal, .alarm, .panel]
        ∧ (a = .secondary → s.chip.onlyChanges d [.link, .inp] ∧ s.chip.onlyHeard d)
        ∧ (a = .primary → ¬ok ∨ s.chip.angleIdles theta →
            d.trk = d.lossTimed { s.chip.trk with
                prevAngle := if ok ∧ s.chip.trk.cycle ≠ .suspended then some theta else s.chip.trk.prevAngle }
              ∧ s.chip.onlyChanges d [.link, .inp, .trk, .cal, .alarm, .panel] ∧ s.chip.onlyBuzzer d
              ∧ s.chip.onlyAlarm .inputFault d ∧ s.chip.onlyHeard d ∧ (¬ok → d.cal = s.chip.cal))

/-- BUCKET_TILT, CHASSIS_INCLINE and DRIVE_STATE from their sources, in RUN: the channel's record and held values (R53,
R55). A tilt in IDLE and SUSPENDED, and a tilt fault report in every cycle state, moves nothing of the tracker but its
input-loss timers, which follow their channels (R28, R40, Table 2-4). A drive arrival writes the backlight shadow with the
night level where its lights flag is set (R144). -/
def Obligations.TiltInclineAndDriveAreRecorded : Prop :=
  ∀ (s : State) (src dst : Byte) (data : List Byte), s.chip.Hears src dst data →
    (src.toNat = s.chip.cfg.srcTilt → 3 ≤ data.length →
      Gives (.bucketTilt src dst data) s fun d =>
        d.inp = { s.chip.inp with
          tilt := { s.chip.inp.tilt with
            freshness := if nat8 data 2 = 0 then .fresh else .fault
            latestTick := some s.chip.tick
            latestStatus := some (if nat8 data 2 = 0 then .ok else .fault)
            overRange := ⟨decide (int16 data 0 < -6000 ∨ 6000 < int16 data 0), false, false⟩
            staleTimer := some s.chip.tick
            loss :=
              if nat8 data 2 = 0 then .stopped
              else if s.chip.inp.tilt.freshness = .fresh then .running s.chip.tick
              else s.chip.inp.tilt.loss }
          held :=
            if nat8 data 2 = 0 then { s.chip.inp.held with tilt := some (clampInt (-6000) 6000 (int16 data 0)) }
            else s.chip.inp.held }
        ∧ s.chip.onlyChanges d [.link, .inp, .eng, .trk, .load, .role, .alarm, .panel]
        ∧ (s.chip.trk.cycle = .idle ∨ s.chip.trk.cycle = .suspended ∨ nat8 data 2 ≠ 0 →
            d.trk = d.lossTimed s.chip.trk ∧ s.chip.onlyChanges d [.link, .inp, .trk, .alarm, .panel] ∧ s.chip.onlyBuzzer d
              ∧ s.chip.onlyAlarm .inputFault d ∧ s.chip.onlyHeard d))
    ∧ (src.toNat = s.chip.cfg.srcIncline → 4 ≤ data.length →
      Gives (.chassisIncline src dst data) s fun d =>
        d.inp = { s.chip.inp with
          incline := { s.chip.inp.incline with
            freshness := .fresh
            latestTick := some s.chip.tick
            latestStatus := some .ok
            overRange := ⟨decide (int16 data 0 < -3000 ∨ 3000 < int16 data 0),
              decide (int16 data 2 < -3000 ∨ 3000 < int16 data 2), false⟩
            staleTimer := some s.chip.tick
            loss := .stopped }
          held := { s.chip.inp.held with
            incline := some ⟨clampInt (-3000) 3000 (int16 data 0), clampInt (-3000) 3000 (int16 data 2)⟩ } }
        ∧ s.chip.onlyChanges d [.link, .inp, .alarm, .panel] ∧ s.chip.onlyBuzzer d
        ∧ s.chip.onlyAlarm .inputFault d ∧ s.chip.onlyHeard d)
    ∧ (src.toNat = s.chip.cfg.srcDrive → 5 ≤ data.length →
      Gives (.driveState src dst data) s fun d =>
        d.inp = { s.chip.inp with
          drive := { s.chip.inp.drive with
            freshness := .fresh
            latestTick := some s.chip.tick
            latestStatus := some .ok
            overRange := ⟨decide (2 < nat8 data 0), decide (4 < nat8 data 1), decide (500 < nat16 data 2)⟩
            staleTimer := some s.chip.tick
            loss := .stopped }
          held := { s.chip.inp.held with
            drive := some
              { dir := if nat8 data 0 = 1 then .f else if nat8 data 0 = 2 then .r else .n
                gear := min (nat8 data 1) 4
                speed := min (nat16 data 2) 500
                lights := (byteAt data 4).getLsbD 0
                park := (byteAt data 4).getLsbD 1 } } }
        ∧ d.panel = { s.chip.panel with
            buz := d.panel.buz
            shadow := if (byteAt data 4).getLsbD 0 then s.chip.panel.settings.night else s.chip.panel.settings.day }
        ∧ s.chip.onlyChanges d [.link, .inp, .alarm, .panel] ∧ s.chip.onlyAlarm .inputFault d ∧ s.chip.onlyHeard d)

/-- TRUCK_TAG from the tag source, in RUN (R53, R55): the channel's record and held value. A part that does not own its
record moves nothing else (R73). A part that owns it opens a record for a tag it does not hold (R74), closes the old one
NEW TRUCK first, brings the target of a record the tag names to the tag's, does nothing for a refused identity, and closes
the record DEPARTED when the truck has gone (R75), but not a stockpile record; an empty record is discarded without a summary
(R79). An unusable tag is taken as a repetition of the held one (R63, R74); with none held it moves nothing (log 22). A
record that the part opens or changes is its own (log 46), its flags are evaluated (R71), an opening raises the sequence once
(log 37), and an ACTIVE part sends TRUCK CLOSED and TRUCK STATUS (R70, R79). -/
def Obligations.TagMovesTheRecord : Prop :=
  ∀ (s : State) (src dst : Byte) (data : List Byte), s.chip.Hears src dst data →
    src.toNat = s.chip.cfg.srcTag → 5 ≤ data.length →
    Gives (.truckTag src dst data) s fun d =>
      let present := (byteAt data 0).getLsbD 0 = true
      let id := nat16 data 1
      let target := if nat16 data 3 = 0 then none else some (clampNat 100 50000 (nat16 data 3))
      let unusable := present ∧ (id = 0 ∨ id = 65535)
      let tag : Option TagVal := if unusable then s.chip.inp.held.tag else some ⟨decide present, id, target⟩
      let c := s.chip
      let kept := d.load.history = c.load.history ∧ d.load.nextHist = c.load.nextHist ∧ d.load.shift = c.load.shift
      let closed (r : TruckRec) (reason : CloseReason) := (r.count = 0 → kept)
        ∧ (r.count ≠ 0 → d.load.history = c.ringWith r reason ∧ d.load.nextHist = c.load.nextHist + 1
            ∧ d.load.shift = { c.load.shift with trucks := min 65535 (c.load.shift.trucks + 1) })
      let shows (t : TagVal) (ps : List PassRec) (figures : Nat × Nat × Nat) (f : RecFlags) :=
        d.role.mirrored = false ∧ ∃ r', d.load.record = some r' ∧ c.flagged f r'
          ∧ (r'.id, r'.target, r'.passes, r'.count, r'.unweighed, r'.total) = (t.id, t.target, ps, figures)
      let sends (ts : List OutTg) := d.link = d.sent c.link.runEnded ts
      d.inp = { c.inp with
          tag := { c.inp.tag with
            freshness := .fresh
            latestTick := some c.tick
            latestStatus := some .ok
            overRange := ⟨false, decide unusable, decide (target ≠ none ∧ target ≠ some (nat16 data 3))⟩
            staleTimer := some c.tick
            loss := .stopped }
          held := { c.inp.held with tag := tag } }
        ∧ c.onlyChanges d [.link, .inp, .trk, .load, .role, .alarm, .panel]
        ∧ d.role = { c.role with mirrored := d.role.mirrored }
        ∧ d.load = { c.load with
            record := d.load.record, seq := d.load.seq, refused := d.load.refused, history := d.load.history
            nextHist := d.load.nextHist, shift := d.load.shift }
        ∧ (¬c.owns ∨ tag = none → c.onlyChanges d [.link, .inp] ∧ c.onlyHeard d)
        ∧ (∀ t, c.owns → tag = some t → t.present = true → c.load.record = none → c.load.refused ≠ some t.id →
            shows t [] (0, 0, 0) RecFlags.none ∧ d.load.seq = c.load.seq + 1 ∧ d.load.refused = none ∧ kept
              ∧ sends [])
        ∧ (∀ t r, c.owns → tag = some t → t.present = true → c.load.record = some r → r.id = t.id →
            d.load.refused = (if c.load.refused = some t.id then c.load.refused else none)
              ∧ (r.target = t.target → d.load.record = some r ∧ d.load.seq = c.load.seq ∧ kept ∧ c.onlyHeard d)
              ∧ (r.target ≠ t.target → shows t r.passes (r.count, r.unweighed, r.total) r.flags
                  ∧ d.load.seq = c.load.seq + 1 ∧ kept ∧ sends []))
        ∧ (∀ t, c.owns → tag = some t → t.present = true → c.load.refused = some t.id →
            (∀ r, c.load.record = some r → r.id ≠ t.id) →
            d.load = c.load ∧ c.onlyChanges d [.link, .inp] ∧ c.onlyHeard d)
        ∧ (∀ t r, c.owns → tag = some t → t.present = true → c.load.record = some r → r.id ≠ t.id →
            c.load.refused ≠ some t.id →
            shows t [] (0, 0, 0) RecFlags.none ∧ d.load.seq = c.load.seq + 2 ∧ d.load.refused = none
              ∧ closed r .newTruck ∧ sends (closedTelegrams r .newTruck))
        ∧ (∀ t r, c.owns → tag = some t → t.present = false → c.load.record = some r → r.id ≠ 0 →
            d.load.record = none ∧ d.load.seq = c.load.seq + 1 ∧ d.load.refused = none ∧ closed r .departed
              ∧ sends (closedTelegrams r .departed))
        ∧ (∀ t, c.owns → tag = some t → t.present = false → (∀ r, c.load.record = some r → r.id = 0) →
            d.load = { c.load with refused := none } ∧ c.onlyChanges d [.link, .inp, .load] ∧ c.onlyHeard d)

/-! ## Weighing a pass -/

/-- In IDLE of a WEIGHER, a usable LIFT_PRESSURE at the dig pressure or above, with the primary angle FRESH below θs, opens
a NORMAL pass (R30): FILL, or LIFT at once where the held tilt is FRESH at the rack-back angle or above (R31), its timers
stopped. A tilt that is then at the dump angle too commits the pass UNWEIGHED at once (R32, R28); the order of that commit's
sounds is log 9. -/
def Obligations.DigOpensAPass : Prop :=
  ∀ (s : State) (src dst : Byte) (data : List Byte) (theta : Int), s.chip.Hears src dst data →
    src.toNat = s.chip.cfg.srcPressure → 6 ≤ data.length → nat8 data 5 = 0 →
    s.chip.cfg.role = .weigher → s.chip.trk.cycle = .idle →
    s.chip.cfg.digPressure ≤ min (nat16 data 1) 40000 →
    s.chip.inp.primary.freshness = .fresh → s.chip.inp.held.primary = some theta → theta < s.chip.cfg.thetaS →
    Gives (.liftPressure src dst data) s fun d =>
      (¬(s.chip.isRacked ∧ s.chip.isDumped) →
        d.trk.ctx = some (normalPass s.chip.tick) ∧ d.trk.fillTimer = none ∧ d.trk.lossPressure = none
          ∧ d.trk.lossAngle = none ∧ (¬s.chip.isRacked → d.trk.cycle = .fill) ∧ (s.chip.isRacked → d.trk.cycle = .lift)
          ∧ s.chip.onlyBuzzer d ∧ s.chip.onlyChanges d [.link, .inp, .eng, .trk, .cal, .alarm, .panel])
      ∧ (s.chip.isRacked → s.chip.isDumped →
        s.chip.committed d (normalPass s.chip.tick).weighedNot s.chip.link.runEnded
          ∧ s.chip.commitSounds d (normalPass s.chip.tick).weighedNot)
      ∧ d.trk.voids = s.chip.trk.voids
      ∧ s.chip.onlyChanges d [.link, .inp, .eng, .trk, .load, .role, .cal, .alarm, .panel]

/-- In LIFT, an angle that crosses θs upward while the pass is not UNWEIGHED opens the window: bins and tallies cleared,
no result, the set of the active curve set setting and the geometry latched, its index in the pass (R2, R32); the input-loss
timer of a pressure that is not FRESH starts (R40). In RETURN with the racked note set, such a crossing opens it for a new
REMAINDER pass (R39). A θe below θs that the same angle crosses was crossed first: it leaves the window open in RETURN, and
in LIFT it is the one taken (R28). With the tilt at the dump angle the window is shut again without a result and the pass
committed UNWEIGHED (R28, R35); the order of that commit's sounds is log 9. -/
def Obligations.CrossingOpensTheWindow : Prop :=
  ∀ (s : State) (src dst : Byte) (data : List Byte) (p : Int), s.chip.Hears src dst data →
    src.toNat = s.chip.cfg.srcPrimary → 4 ≤ data.length → nat8 data 3 = 0 →
    s.chip.cfg.role = .weigher → s.chip.trk.prevAngle = some p → p < s.chip.cfg.thetaS →
    s.chip.cfg.thetaS ≤ clampInt (-4500) 6000 (int16 data 1) →
    (clampInt (-4500) 6000 (int16 data 1) < s.chip.cfg.thetaE ∨ s.chip.cfg.thetaE < s.chip.cfg.thetaS) →
    let theta := clampInt (-4500) 6000 (int16 data 1)
    let remainder : PassCtx := { normalPass s.chip.tick with kind := .remainder }
    let opened (x : PassCtx) (d : Chip) :=
      let y := { x with idx := some s.chip.panel.settings.curveSet }.weighedNot
      (¬s.chip.isDumped → s.chip.windowOpened d x
          ∧ d.trk.lossPressure = lossAfter .weigh s.chip.inp.pressure.freshness s.chip.trk.lossPressure s.chip.tick
          ∧ d.trk.lossAngle = none ∧ s.chip.onlyBuzzer d
          ∧ s.chip.onlyChanges d [.link, .inp, .eng, .trk, .cal, .alarm, .panel])
        ∧ (s.chip.isDumped → s.chip.committed d y s.chip.link.runEnded ∧ s.chip.commitSounds d y
            ∧ d.eng.isOpen = false ∧ d.eng.last = none)
        ∧ d.trk.prevAngle = some theta ∧ d.trk.voids = s.chip.trk.voids
        ∧ s.chip.onlyChanges d [.link, .inp, .eng, .trk, .load, .role, .cal, .alarm, .panel]
    (∀ x, s.chip.trk.cycle = .lift → s.chip.trk.ctx = some x → x.stage ≠ .unweighed →
      (p < s.chip.cfg.thetaE → theta < s.chip.cfg.thetaE) →
      Gives (.boomAngle src dst data) s (opened x))
    ∧ (s.chip.trk.cycle = .ret → s.chip.trk.racked = true → s.chip.cfg.digAngle ≤ theta →
      Gives (.boomAngle src dst data) s (opened remainder))

/-- A LIFT_PRESSURE whose sample lies in the open, usable window and passes every check enters its bin (R8, R14-R19): its
force less the interpolated empty curve, and the span of the two curves there, join the sums of segment k. -/
def Obligations.SampleEntersItsBin : Prop :=
  ∀ (s : State) (src dst : Byte) (data : List Byte) (l : Latched) (r : ChanRec) (theta : Int) (w : Int) (at_ : Tick)
    (k : Fin 15), s.chip.Hears src dst data → src.toNat = s.chip.cfg.srcPressure → 6 ≤ data.length →
    nat8 data 5 = 0 → nat16 data 1 ≤ 40000 → nat16 data 3 ≤ 40000 →
    s.chip.eng.isOpen = true → s.chip.eng.latched = some l → l.usable = true →
    s.chip.inp.selected = some (r, theta) → l.geom.thetaS ≤ theta → theta < l.geom.thetaE →
    s.chip.inp.omega = some w → s.chip.cfg.rmin ≤ w → w ≤ s.chip.cfg.rmax →
    r.latestTick = some at_ → age s.chip.tick at_ ≤ 40 → r.latestStatus = some .ok → r.overRange.f1 = false →
    s.chip.inp.disagree = false → inclineOk s.chip.cfg s.chip.inp = true → speedOk s.chip.cfg s.chip.inp = true →
    k.val = min 14 ((theta - l.geom.thetaS) / l.geom.step).toNat → (s.chip.eng.bins[k]).count < 255 →
    Gives (.liftPressure src dst data) s fun d =>
      let b := s.chip.eng.bins[k]
      let f := roundDiv (l.geom.n * ((nat16 data 1 : Int) * l.geom.ah - (nat16 data 3 : Int) * l.geom.ar)) 100
      let rest := (theta - l.geom.thetaS) - (k.val : Int) * l.geom.step
      let e := l.set.e[k.castSucc] + roundDiv ((l.set.e[k.succ] - l.set.e[k.castSucc]) * rest) l.geom.step
      let h := l.set.l[k.castSucc] + roundDiv ((l.set.l[k.succ] - l.set.l[k.castSucc]) * rest) l.geom.step
      d.eng = { s.chip.eng with
        bins := s.chip.eng.bins.set k
          { count := b.count + 1
            sumD := b.sumD + (f - e)
            sumS := b.sumS + (h - e)
            ext :=
              match b.ext with
              | none => some (f - e, f - e)
              | some (lo, hi) => some (min lo (f - e), max hi (f - e)) } }

/-- The gate stops at the first check that fails, in the order RATE, AGE, SENSOR, DISAGREE, INCLINE, SPEED (R9): a boom rate
invalid or outside its bounds (R10), an angle older than 40 ms (R11), a fault or OVER-RANGE value of the pressure or of the
selected angle (R12), an incline or a speed above its limit, or a required channel that is not FRESH (R13). A sample in
the open window, usable or not, that fails one moves that one tally, saturating, and enters no bin. One that passes them in a
usable window enters the bin of its segment where that holds fewer than 255 samples, else it is tallied BINFULL and discarded
with every bin as it was; the counts start at 0 at a window's open (R14). -/
def Obligations.GateTalliesTheFirstFailure : Prop :=
  (∀ (cfg : Cfg) (t : InputTable) (r : ChanRec) (now : Tick),
    (rateOk cfg t = false → gate cfg t r now = some .rate)
      ∧ (rateOk cfg t = true → ageOk r now = false → gate cfg t r now = some .age)
      ∧ (rateOk cfg t = true → ageOk r now = true → sensorOk t r = false → gate cfg t r now = some .sensor)
      ∧ (rateOk cfg t = true → ageOk r now = true → sensorOk t r = true → t.disagree = true →
          gate cfg t r now = some .disagree)
      ∧ (rateOk cfg t = true → ageOk r now = true → sensorOk t r = true → t.disagree = false →
          inclineOk cfg t = false → gate cfg t r now = some .incline)
      ∧ (rateOk cfg t = true → ageOk r now = true → sensorOk t r = true → t.disagree = false →
          inclineOk cfg t = true → speedOk cfg t = false → gate cfg t r now = some .speed)
      ∧ (gate cfg t r now = none ↔ rateOk cfg t = true ∧ ageOk r now = true ∧ sensorOk t r = true
          ∧ t.disagree = false ∧ inclineOk cfg t = true ∧ speedOk cfg t = true)
      ∧ (rateOk cfg t = true ↔ ∃ w, t.omega = some w ∧ cfg.rmin ≤ w ∧ w ≤ cfg.rmax)
      ∧ (ageOk r now = true ↔ ∃ at_, r.latestTick = some at_ ∧ age now at_ ≤ 40)
      ∧ (sensorOk t r = true ↔ t.pressure.latestStatus = some .ok ∧ t.pressure.overRange.f1 = false
          ∧ t.pressure.overRange.f2 = false ∧ r.latestStatus = some .ok ∧ r.overRange.f1 = false)
      ∧ (∀ v, t.incline.freshness = .fresh → t.held.incline = some v →
          (inclineOk cfg t = true ↔ v.pitch.natAbs ≤ cfg.pitchLimit ∧ v.roll.natAbs ≤ cfg.rollLimit))
      ∧ (t.incline.freshness ≠ .fresh → (inclineOk cfg t = true ↔ cfg.inclineReq = false))
      ∧ (∀ v, t.drive.freshness = .fresh → t.held.drive = some v →
          (speedOk cfg t = true ↔ v.speed ≤ cfg.speedLimit))
      ∧ (t.drive.freshness ≠ .fresh → (speedOk cfg t = true ↔ cfg.driveReq = false)))
    ∧ (∀ (cfg : Cfg) (idx : Fin 4) (set : CurveSet) (k : Fin 15),
        ((Engine.openWindow cfg idx set).bins[k]).count = 0)
    ∧ ∀ (s : State) (src dst : Byte) (data : List Byte) (l : Latched) (r : ChanRec) (theta : Int),
        s.chip.Hears src dst data → src.toNat = s.chip.cfg.srcPressure → 6 ≤ data.length →
        s.chip.eng.isOpen = true → s.chip.eng.latched = some l → s.chip.inp.selected = some (r, theta) →
        l.geom.thetaS ≤ theta → theta < l.geom.thetaE →
        Gives (.liftPressure src dst data) s fun d =>
          (∀ k : Fin 15, gate s.chip.cfg d.inp r s.chip.tick = none → l.usable = true →
            k.val = min 14 ((theta - l.geom.thetaS) / l.geom.step).toNat →
            ((s.chip.eng.bins[k]).count < 255 → d.eng.tallies = s.chip.eng.tallies
                ∧ (d.eng.bins[k]).count = (s.chip.eng.bins[k]).count + 1
                ∧ ∀ j : Fin 15, j ≠ k → d.eng.bins[j] = s.chip.eng.bins[j])
              ∧ (255 ≤ (s.chip.eng.bins[k]).count → d.eng = { s.chip.eng with
                  tallies := { s.chip.eng.tallies with binfull := min 65535 (s.chip.eng.tallies.binfull + 1) } }))
          ∧ ∀ f, gate s.chip.cfg d.inp r s.chip.tick = some f →
            d.eng = { s.chip.eng with tallies := d.eng.tallies }
              ∧ d.eng.tallies = (match f with
                | .rate => { s.chip.eng.tallies with rate := min 65535 (s.chip.eng.tallies.rate + 1) }
                | .age => { s.chip.eng.tallies with age := min 65535 (s.chip.eng.tallies.age + 1) }
                | .sensor => { s.chip.eng.tallies with sensor := min 65535 (s.chip.eng.tallies.sensor + 1) }
                | .disagree => { s.chip.eng.tallies with disagree := min 65535 (s.chip.eng.tallies.disagree + 1) }
                | .incline => { s.chip.eng.tallies with incline := min 65535 (s.chip.eng.tallies.incline + 1) }
                | .speed => { s.chip.eng.tallies with speed := min 65535 (s.chip.eng.tallies.speed + 1) })

/-- In WEIGH, an angle that crosses the latched θe upward closes the window with its result (R4, R20-R25): REJECT below the
minimum bins, otherwise the payload, its flags, the grade by the rough bins and the fill. The pass takes the result to
CARRY, UNWEIGHED for REJECT, else WEIGHED (R33), where the input-loss timers run on (R40); with the tilt at the dump angle
it is committed there (R36). A REMAINDER weighed below the residual threshold is voided EMPTY instead and the tracker enters
RETURN, racked by the held tilt (R44, R38), the note clear for a tilt at both limits (log 27); there a θs now in force, not
below the latched θe, that the same angle crosses opens the window of the next REMAINDER, and a θe in force above it that
the angle crosses too closes that one REJECT (R28, R39), which can be where a new configuration has come into force since
the window opened (log 27). One weighed at the threshold or above amends the noted pass, weighed and not yet amended (R45),
and a record so amended is the part's own (log 46), flagged AMENDED ANY, its PASS RECORD sent (R45). In LIFT, a crossing of
θe that no crossing of θs precedes takes the pass to CARRY UNWEIGHED with no window, and one that crosses both opens the
window and closes it REJECT (R32, R28), as does in RETURN with the racked note one that does so for a new REMAINDER pass
(R39). A commit sounds its BEEP first, then the DOUBLE, then PASS OVER's LONG, which drops a BEEP that sounds (log 9). -/
def Obligations.CrossingWeighsThePass : Prop :=
  ∀ (s : State) (src dst : Byte) (data : List Byte) (p : Int), s.chip.Hears src dst data →
    src.toNat = s.chip.cfg.srcPrimary → 4 ≤ data.length → nat8 data 3 = 0 →
    s.chip.cfg.role = .weigher → s.chip.trk.prevAngle = some p →
    s.chip.cfg.digAngle ≤ clampInt (-4500) 6000 (int16 data 1) →
    let theta := clampInt (-4500) 6000 (int16 data 1)
    let remainder : PassCtx := { normalPass s.chip.tick with kind := .remainder }
    let carries (y : PassCtx) (d : Chip) :=
      (¬s.chip.isDumped → d.trk.cycle = .carry ∧ d.trk.ctx = some y ∧ d.trk.carryTimer = some s.chip.tick
          ∧ d.trk.lossPressure = lossAfter .carry s.chip.inp.pressure.freshness s.chip.trk.lossPressure s.chip.tick
          ∧ d.trk.lossAngle = none ∧ d.trk.note = s.chip.trk.note ∧ d.load = s.chip.load ∧ d.role = s.chip.role
          ∧ s.chip.onlyBuzzer d ∧ s.chip.onlyHeard d)
        ∧ (s.chip.isDumped → s.chip.committed d y s.chip.link.runEnded ∧ s.chip.commitSounds d y)
        ∧ d.trk.voids = s.chip.trk.voids
        ∧ s.chip.onlyChanges d [.link, .inp, .eng, .trk, .load, .role, .cal, .alarm, .panel]
    (∀ x l, s.chip.trk.cycle = .weigh → s.chip.trk.ctx = some x → s.chip.eng.isOpen = true →
      s.chip.eng.latched = some l → p < l.geom.thetaE → l.geom.thetaE ≤ theta →
      Gives (.boomAngle src dst data) s fun d =>
        let bins := s.chip.eng.bins.toList.filter fun b => 1 ≤ b.count
        let meanD (b : Bin) := roundDiv b.sumD b.count
        let meanS (b : Bin) := roundDiv b.sumS b.count
        let raw := roundDiv (l.set.mref * (bins.map meanD).sum) (bins.map meanS).sum + s.chip.panel.settings.trim
        let payload := (clampInt 0 9999 raw).toNat
        let fill (m : Nat) := (clampInt 0 199 (roundDiv (100 * m) s.chip.cfg.rated)).toNat
        let rough := (bins.filter fun b =>
          match b.ext with
          | some (lo, hi) => decide (s.chip.cfg.spread < hi - lo)
          | none => false).length
        let reject := bins.length < s.chip.cfg.minBins
        let result : WindowResult :=
          if reject then ⟨.reject, bins.length, none, none, false, false, l.idx⟩
          else ⟨if rough = 0 then .good else if rough ≤ 3 then .fair else .poor, bins.length, some payload,
            some (fill payload), decide (raw < 0), decide (9999 < raw), l.idx⟩
        let carried : PassCtx := { x with
          stage := if reject then .unweighed else .weighed, idx := some l.idx, grade := some result.grade
          bins := result.bins, payload := result.payload, fill := result.fill, negative := result.negative
          overFlag := result.overFlag }
        let judged := x.kind = .remainder ∧ ¬reject
        let emptied := judged ∧ payload < s.chip.cfg.residual
        let stays := judged ∧ ¬emptied ∧ ¬s.chip.isDumped
        let racked := s.chip.isRacked ∧ ¬s.chip.isDumped
        let again := emptied ∧ racked ∧ l.geom.thetaE ≤ s.chip.cfg.thetaS ∧ p < s.chip.cfg.thetaS ∧ s.chip.cfg.thetaS ≤ theta
        let both := s.chip.cfg.thetaS ≤ s.chip.cfg.thetaE ∧ s.chip.cfg.thetaE ≤ theta
        let judges := again ∧ both → 1 ≤ s.chip.cfg.minBins
        (¬again → d.eng = { s.chip.eng with isOpen := false, last := some result })
          ∧ (emptied → judges → d.load = s.chip.load ∧ d.role = s.chip.role ∧ d.trk.note = s.chip.trk.note
              ∧ d.trk.voids = { s.chip.trk.voids with empty := min 65535 (s.chip.trk.voids.empty + 1) })
          ∧ (emptied → ¬again → d.trk.cycle = .ret ∧ d.trk.ctx = none ∧ d.trk.carryTimer = none
              ∧ d.trk.lossPressure = none ∧ d.trk.lossAngle = none ∧ (d.trk.racked = true ↔ racked))
          ∧ (again → judges → d.trk.lossPressure = lossAfter .weigh s.chip.inp.pressure.freshness none s.chip.tick
              ∧ d.trk.lossAngle = none)
          ∧ (again → ¬both → s.chip.windowOpened d remainder ∧ d.trk.carryTimer = none)
          ∧ (again → both → 1 ≤ s.chip.cfg.minBins →
              d.trk.cycle = .carry ∧ d.trk.carryTimer = some s.chip.tick ∧ d.eng.isOpen = false
                ∧ d.trk.ctx = some { remainder with idx := some s.chip.panel.settings.curveSet }.weighedNot
                ∧ d.eng.last = some ⟨.reject, 0, none, none, false, false, s.chip.panel.settings.curveSet⟩)
          ∧ (¬emptied → d.trk.voids = s.chip.trk.voids)
          ∧ (¬judged → carries carried d)
          ∧ (stays → d.trk.cycle = .carry ∧ d.trk.carryTimer = some s.chip.tick ∧ d.trk.lossAngle = none
              ∧ d.trk.lossPressure = lossAfter .carry s.chip.inp.pressure.freshness s.chip.trk.lossPressure s.chip.tick)
          ∧ (stays → (∀ n, s.chip.trk.note = some n → n.pass.payload = none ∨ n.amended = true) →
              d.trk.ctx = some carried ∧ d.load = s.chip.load ∧ d.trk.note = s.chip.trk.note)
          ∧ (∀ n prev, stays → s.chip.trk.note = some n → n.pass.payload = some prev → n.amended = false →
              let q := { n.pass with
                payload := some (prev - payload), fill := some (fill (prev - payload)), amended := true }
              d.trk.ctx = some { carried with amendMade := true }
                ∧ d.trk.note = some { n with pass := q, amended := true }
                ∧ d.load.shift = { s.chip.load.shift with tonnage := s.chip.load.shift.tonnage - min prev payload }
                ∧ d.load.life = { s.chip.load.life with tonnage := s.chip.load.life.tonnage - min prev payload }
                ∧ d.load.history = s.chip.load.history
                ∧ (n.isRecord = false → d.load.record = s.chip.load.record ∧ d.load.seq = s.chip.load.seq
                    ∧ d.role = s.chip.role ∧ s.chip.onlyHeard d)
                ∧ (∀ r, n.isRecord = true → s.chip.load.record = some r →
                    (∃ r', d.load.record = some r' ∧ s.chip.flagged { r.flags with amendedAny := true } r'
                      ∧ (r'.id, r'.target, r'.passes, r'.count, r'.unweighed, r'.total) =
                        (r.id, r.target, r.passes.map fun e => if e.number = q.number then q else e, r.count,
                          r.unweighed, r.total - min prev payload))
                      ∧ d.link = d.sent s.chip.link.runEnded [passTelegram q]
                      ∧ d.load.seq = s.chip.load.seq + 1 ∧ d.role.mirrored = false))
          ∧ (judged → ¬emptied → s.chip.isDumped → d.trk.cycle = .dump ∧ d.trk.ctx = none)
          ∧ (stays → d.role = { s.chip.role with mirrored := d.role.mirrored })
          ∧ s.chip.onlyChanges d [.link, .inp, .eng, .trk, .load, .role, .cal, .alarm, .panel])
    ∧ (∀ x, s.chip.trk.cycle = .lift → s.chip.trk.ctx = some x → x.stage ≠ .weighed →
      p < s.chip.cfg.thetaE → s.chip.cfg.thetaE ≤ theta →
      (x.stage = .unweighed ∨ s.chip.cfg.thetaS ≤ p ∨ theta < s.chip.cfg.thetaS
        ∨ s.chip.cfg.thetaE < s.chip.cfg.thetaS) →
      Gives (.boomAngle src dst data) s fun d => carries x.weighedNot d ∧ d.eng = s.chip.eng)
    ∧ (∀ x, s.chip.trk.cycle = .lift → s.chip.trk.ctx = some x → x.stage ≠ .unweighed → p < s.chip.cfg.thetaS →
      s.chip.cfg.thetaS ≤ s.chip.cfg.thetaE → s.chip.cfg.thetaE ≤ theta → 1 ≤ s.chip.cfg.minBins →
      Gives (.boomAngle src dst data) s fun d =>
        carries { x with idx := some s.chip.panel.settings.curveSet }.weighedNot d ∧ d.eng.isOpen = false
          ∧ (¬s.chip.isDumped →
              d.eng.last = some ⟨.reject, 0, none, none, false, false, s.chip.panel.settings.curveSet⟩))
    ∧ (s.chip.trk.cycle = .ret → s.chip.trk.racked = true → p < s.chip.cfg.thetaS →
      s.chip.cfg.thetaS ≤ s.chip.cfg.thetaE → s.chip.cfg.thetaE ≤ theta → 1 ≤ s.chip.cfg.minBins →
      Gives (.boomAngle src dst data) s fun d =>
        carries { remainder with idx := some s.chip.panel.settings.curveSet }.weighedNot d ∧ d.eng.isOpen = false
          ∧ (¬s.chip.isDumped →
              d.eng.last = some ⟨.reject, 0, none, none, false, false, s.chip.panel.settings.curveSet⟩))

/-- In WEIGH, an angle below the latched θs shuts the window without a result and returns to LIFT with the reweigh count
raised and the input-loss timers stopped (R40); at 3 the pass is UNWEIGHED (R34), and with the tilt at the dump angle it is
committed there (R28, R32), the order of its sounds being log 9. An angle below the dig angle voids a pass in CARRY as
RETURNED (R37), and takes the tracker from CARRY and from RETURN to IDLE (R37, R38), there before any crossing of θs (log
27); the entry to IDLE tests the dig, which opens a new pass where the inputs hold the part in it (R30). -/
def Obligations.FallingBelowAbandonsTheWindow : Prop :=
  ∀ (s : State) (src dst : Byte) (data : List Byte), s.chip.Hears src dst data →
    src.toNat = s.chip.cfg.srcPrimary → 4 ≤ data.length → nat8 data 3 = 0 → s.chip.cfg.role = .weigher →
    let theta := clampInt (-4500) 6000 (int16 data 1)
    let l := s.chip.link.runEnded
    let now := { s.chip.trk with prevAngle := some theta }
    (∀ x g, s.chip.trk.cycle = .weigh → s.chip.trk.ctx = some x → x.reweigh ≤ 2 → s.chip.eng.latched = some g →
      theta < g.geom.thetaS → g.geom.thetaS < g.geom.thetaE →
      Gives (.boomAngle src dst data) s fun d =>
        d.eng = { s.chip.eng with isOpen := false } ∧ d.trk.voids = s.chip.trk.voids
          ∧ (¬s.chip.isDumped →
              d.trk.cycle = .lift ∧ d.trk.lossPressure = none ∧ d.trk.lossAngle = none
                ∧ (x.reweigh < 2 → d.trk.ctx = some { x with reweigh := x.reweigh + 1 })
                ∧ (x.reweigh = 2 → d.trk.ctx = some { x with reweigh := 3 }.weighedNot)
                ∧ s.chip.onlyBuzzer d ∧ s.chip.onlyChanges d [.link, .inp, .eng, .trk, .cal, .alarm, .panel])
          ∧ (s.chip.isDumped → x.stage = .candidate →
              s.chip.committed d { x with reweigh := x.reweigh + 1 }.weighedNot l
                ∧ s.chip.commitSounds d { x with reweigh := x.reweigh + 1 }.weighedNot)
          ∧ s.chip.onlyChanges d [.link, .inp, .eng, .trk, .load, .role, .cal, .alarm, .panel])
    ∧ (s.chip.trk.cycle = .carry → theta < s.chip.cfg.digAngle →
      Gives (.boomAngle src dst data) s fun d =>
        s.chip.idles d
          { now with voids := { s.chip.trk.voids with returned := min 65535 (s.chip.trk.voids.returned + 1) } } l
          [.link, .inp, .trk, .cal, .alarm, .panel])
    ∧ (s.chip.trk.cycle = .ret → theta < s.chip.cfg.digAngle →
      Gives (.boomAngle src dst data) s fun d => s.chip.idles d now l [.link, .inp, .trk, .cal, .alarm, .panel])

/-- A tilt at or below the dump angle commits the pass in CARRY (R36), in LIFT (R32) and in WEIGH, whose window is shut
without a result (R35): a pass with no result is UNWEIGHED. The counters of its kind and stage move (R41-R43), no pass is in
flight, and it is the last pass and the noted one. A part that owns its record joins it to the open record with the next
number (R68, R69), or opens a stockpile record for it (R78), and the record is its own (log 46), its flags evaluated (R71);
in ACTIVE a PASS RECORD is queued and the TRUCK STATUS slot written, in MUTE neither (R70). Elsewhere the record stands (log
40), and in STANDBY a weighed pass awaits its pair (R118). Each commit asks for a BEEP, one that reaches the target for a
DOUBLE (R71), and one above the pass-over limit gives the PASS OVER pulse (R43): the BEEP first, then the DOUBLE, then the
LONG, which drops a BEEP that sounds (log 9). A tilt above the dump angle leaves LIFT, WEIGH and CARRY as they are; one also
racks FILL to LIFT (R31), takes DUMP to RETURN at 200 above the dump angle, to IDLE where the boom is down, whose dig test
may open a new pass (R30), and moves the racked note in RETURN (R38, log 27). -/
def Obligations.DumpCommitsThePass : Prop :=
  ∀ (s : State) (src dst : Byte) (data : List Byte), s.chip.Hears src dst data →
    src.toNat = s.chip.cfg.srcTilt → 3 ≤ data.length → nat8 data 2 = 0 →
    let tilt := clampInt (-6000) 6000 (int16 data 0)
    let quiet := { s.chip.trk with lossPressure := none, lossAngle := none }
    let lifted := ∃ a, s.chip.inp.held.primary = some a ∧ s.chip.cfg.digAngle ≤ a
    let lowered := freshAnd s.chip.inp.primary s.chip.inp.held.primary fun a => a < s.chip.cfg.digAngle
    let flies := s.chip.trk.cycle = .lift ∨ s.chip.trk.cycle = .weigh ∨ s.chip.trk.cycle = .carry
    let moves (t : Tracker) := Gives (.bucketTilt src dst data) s fun d =>
      d.trk = t ∧ s.chip.onlyHeard d ∧ s.chip.onlyChanges d [.link, .inp, .trk, .alarm, .panel]
        ∧ s.chip.onlyBuzzer d
    (∀ x, tilt ≤ s.chip.cfg.dumpAngle → flies → s.chip.trk.ctx = some x →
      Gives (.bucketTilt src dst data) s fun d =>
        let y := if s.chip.trk.cycle = .weigh ∨ x.stage = .candidate then x.weighedNot else x
        s.chip.committed d y s.chip.link.runEnded ∧ s.chip.commitSounds d y ∧ d.trk.voids = s.chip.trk.voids
          ∧ d.eng = (if s.chip.trk.cycle = .weigh then { s.chip.eng with isOpen := false } else s.chip.eng)
          ∧ s.chip.onlyChanges d [.link, .inp, .eng, .trk, .load, .role, .alarm, .panel])
    ∧ (s.chip.cfg.dumpAngle < tilt → flies →
        Gives (.bucketTilt src dst data) s fun d =>
          d.trk = d.lossTimed s.chip.trk ∧ s.chip.onlyHeard d ∧ s.chip.onlyBuzzer d
            ∧ s.chip.onlyChanges d [.link, .inp, .trk, .alarm, .panel])
    ∧ (s.chip.trk.cycle = .fill → s.chip.cfg.rackAngle ≤ tilt → s.chip.cfg.dumpAngle < tilt →
        moves { quiet with cycle := .lift, fillTimer := none })
    ∧ (∀ x, s.chip.trk.cycle = .fill → s.chip.cfg.rackAngle ≤ tilt → tilt ≤ s.chip.cfg.dumpAngle →
        s.chip.trk.ctx = some x → x.stage = .candidate →
        Gives (.bucketTilt src dst data) s fun d =>
          s.chip.committed d x.weighedNot s.chip.link.runEnded ∧ s.chip.commitSounds d x.weighedNot
            ∧ d.trk.voids = s.chip.trk.voids
            ∧ s.chip.onlyChanges d [.link, .inp, .trk, .load, .role, .alarm, .panel])
    ∧ (s.chip.trk.cycle = .fill → tilt < s.chip.cfg.rackAngle → moves quiet)
    ∧ (s.chip.trk.cycle = .dump → tilt < s.chip.cfg.dumpAngle + 200 → moves quiet)
    ∧ (s.chip.trk.cycle = .dump → s.chip.cfg.dumpAngle + 200 ≤ tilt → ¬lowered →
        (lifted → moves { s.chip.trk.without with cycle := .ret, racked := decide (s.chip.cfg.rackAngle ≤ tilt) })
        ∧ (¬lifted → moves { s.chip.trk.without with cycle := .ret, racked := false }))
    ∧ (s.chip.trk.cycle = .dump → s.chip.cfg.dumpAngle + 200 ≤ tilt → lowered →
        Gives (.bucketTilt src dst data) s fun d =>
          s.chip.idles d s.chip.trk s.chip.link.runEnded [.link, .inp, .trk, .alarm, .panel])
    ∧ (s.chip.trk.cycle = .ret →
        (tilt ≤ s.chip.cfg.dumpAngle → moves { quiet with racked := false })
        ∧ (s.chip.cfg.dumpAngle < tilt → s.chip.cfg.rackAngle ≤ tilt → lifted → moves { quiet with racked := true })
        ∧ (s.chip.cfg.dumpAngle < tilt → tilt < s.chip.cfg.rackAngle ∨ ¬lifted → moves quiet))

/-! ## Timers of the inputs, of a pass and of the slots -/

/-- In RUN: STALE_EXPIRY of a FRESH or FAULT channel whose stale timer has passed its limit makes it STALE, its held value
kept, and starts the loss timer of a channel that leaves FRESH (R54, R62). An angle channel then has the selection made again
(R58), DISAGREE false (R59), and the boom rate dropped with its memory where the selection changes (R61; that the rate timer
runs on is log 15); the drive channel gives the backlight its day level (R144); the input-loss timer of the pressure or the
primary angle starts in WEIGH and CARRY where the channel leaves FRESH (R40); the tag channel, in tag mode of a part that
owns its record, clears the refused identity and closes the record DEPARTED, but not a stockpile record, an empty one
discarded (R75), and an ACTIVE part sends TRUCK CLOSED and TRUCK STATUS (R79, R70). LOSS_TIMER_EXPIRY marks the timer run out
and hands INPUT FAULT over (R62); RATE_TIMER_EXPIRY drops the boom rate and its memory (R61). -/
def Obligations.InputTimersExpire : Prop :=
  ∀ (s : State) (i : ChanId), s.chip.running →
    let owns := s.chip.cfg.srcTag ≠ 0 ∧ s.chip.owns
    (ranOut (staleLimit i + 1) (s.chip.inp.chan i).staleTimer s.chip.tick →
      ((s.chip.inp.chan i).freshness = .fresh ∨ (s.chip.inp.chan i).freshness = .fault) →
      Gives (.staleExpiry i) s fun d =>
        d.inp.chan i = { s.chip.inp.chan i with
            freshness := .stale
            staleTimer := none
            loss := if (s.chip.inp.chan i).freshness = .fresh then .running s.chip.tick else (s.chip.inp.chan i).loss }
          ∧ (∀ j, j ≠ i → d.inp.chan j = s.chip.inp.chan j) ∧ d.inp.held = s.chip.inp.held
          ∧ d.inp.rateTimer = s.chip.inp.rateTimer
          ∧ (i ≠ .primary → i ≠ .secondary → d.inp.sel = s.chip.inp.sel ∧ d.inp.disagree = s.chip.inp.disagree)
          ∧ (i = .primary ∨ i = .secondary → d.inp.disagree = false
              ∧ (d.inp.primary.freshness = .fresh → d.inp.sel = some .primary)
              ∧ (d.inp.primary.freshness ≠ .fresh → d.inp.secondary.freshness = .fresh → d.inp.sel = some .secondary)
              ∧ (d.inp.primary.freshness ≠ .fresh → d.inp.secondary.freshness ≠ .fresh →
                  (s.chip.inp.sel.isSome = true → d.inp.sel = s.chip.inp.sel)
                  ∧ (s.chip.inp.sel = none → d.inp.sel =
                      if s.chip.inp.held.primary.isSome = true then some .primary
                      else if s.chip.inp.held.secondary.isSome = true then some .secondary
                      else none)))
          ∧ (d.inp.sel = s.chip.inp.sel → d.inp.omega = s.chip.inp.omega ∧ d.inp.rateMem = s.chip.inp.rateMem)
          ∧ (d.inp.sel ≠ s.chip.inp.sel → d.inp.omega = none ∧ d.inp.rateMem = none)
          ∧ d.panel.shadow = (if i = .drive then s.chip.panel.settings.day else s.chip.panel.shadow)
          ∧ (i = .tag → owns → ∀ r, s.chip.load.record = some r → r.id ≠ 0 →
              d.link = d.sent s.chip.link (closedTelegrams r .departed)
                ∧ d.trk = d.lossTimed { s.chip.trk with note := none } ∧ d.load = { s.chip.load with
                record := none, seq := s.chip.load.seq + 1, refused := none
                history := if r.count = 0 then s.chip.load.history else s.chip.ringWith r .departed
                nextHist := if r.count = 0 then s.chip.load.nextHist else s.chip.load.nextHist + 1
                shift :=
                  if r.count = 0 then s.chip.load.shift
                  else { s.chip.load.shift with trucks := min 65535 (s.chip.load.shift.trucks + 1) } })
          ∧ (i = .tag → owns → (∀ r, s.chip.load.record = some r → r.id = 0) →
              d.load = { s.chip.load with refused := none } ∧ d.link = s.chip.link.settle d.maySend
                ∧ d.trk = d.lossTimed s.chip.trk)
          ∧ (i ≠ .tag ∨ ¬owns → d.load = s.chip.load ∧ d.link = s.chip.link.settle d.maySend
              ∧ d.trk = d.lossTimed s.chip.trk)
          ∧ s.chip.onlyChanges d [.link, .inp, .trk, .load, .alarm, .panel])
    ∧ (∀ since, (s.chip.inp.chan i).loss = .running since → 2000 ≤ age s.chip.tick since →
      Gives (.lossTimerExpiry i) s fun d =>
        d.inp.chan i = { s.chip.inp.chan i with loss := .ranOut }
          ∧ (∀ j, j ≠ i → d.inp.chan j = s.chip.inp.chan j) ∧ d.inp.held = s.chip.inp.held
          ∧ d.alarm.inputFault.cond = d.inputFault ∧ s.chip.onlyAlarm .inputFault d ∧ s.chip.onlyBuzzer d
          ∧ s.chip.onlyChanges d [.inp, .alarm, .panel])
    ∧ (ranOut 100 s.chip.inp.rateTimer s.chip.tick →
      Gives .rateTimerExpiry s fun d =>
        d = { s.chip with inp := { s.chip.inp with omega := none, rateMem := none, rateTimer := none } })

/-- While the part runs: the FILL empty timer's 2000 ms return FILL to IDLE with the context discarded (R31), the CARRY
timer's 120000 ms void the pass CARRY TIMEOUT (R37), an input-loss timer's 500 ms void it INPUT LOSS and shut an open window
(R40, R47). The entry to IDLE tests the dig, which opens a new pass where the inputs hold the part in it (R30); the order of
the sounds of a commit that follows at once is log 9. -/
def Obligations.PassTimersEndThePass : Prop :=
  ∀ s : State, s.chip.sup.life = .up →
    let t := s.chip.trk
    (t.cycle = .fill → ranOut 2000 t.fillTimer s.chip.tick →
      Gives .fillEmptyTimerExpiry s fun d => s.chip.idles d t s.chip.link [.link, .trk])
    ∧ (t.cycle = .carry → ranOut 120000 t.carryTimer s.chip.tick →
      Gives .carryTimerExpiry s fun d =>
        s.chip.idles d { t with voids := { t.voids with carryTimeout := min 65535 (t.voids.carryTimeout + 1) } }
          s.chip.link [.link, .trk])
    ∧ ∀ side, (t.cycle = .weigh ∨ t.cycle = .carry) →
      ranOut 500 (if side = .pressure then t.lossPressure else t.lossAngle) s.chip.tick →
      Gives (.inputLossTimerExpiry side) s fun d =>
        s.chip.idles d { t with voids := { t.voids with inputLoss := min 65535 (t.voids.inputLoss + 1) } }
            s.chip.link [.link, .eng, .trk]
          ∧ d.eng = (if t.cycle = .weigh then { s.chip.eng with isOpen := false } else s.chip.eng)

/-- In RUN: TRUCK_STATUS_REFRESH of an ACTIVE part writes the TRUCK STATUS slot every 1000 ms (R70), STATUS_TIMER_EXPIRY of
a part whose role sends writes the WEIGHER STATUS slot every 250 ms with the figures as they stand (R105), and
COUNTER_POLL_TIMER asks the named station for its counters every 2000 ms (R86); a full event queue drops its oldest entry
that is not in SEND, and counts the drop (R156). -/
def Obligations.SlotAndPollTimersWrite : Prop :=
  ∀ s : State, s.chip.running →
    (s.chip.role.state = .active → ranOut 1000 s.chip.load.refreshTimer s.chip.tick →
      Gives .truckStatusRefresh s fun d =>
        d.load = { s.chip.load with refreshTimer := some s.chip.tick }
          ∧ d.link = ({ s.chip.link with tslot := some (sendTruck s.chip.load.record s.chip.load.seq) }).settle true
          ∧ s.chip.onlyChanges d [.link, .load])
    ∧ (s.chip.role.state = .active ∨ s.chip.role.state = .standby ∨ s.chip.role.state = .calibrating
        ∨ s.chip.role.state = .repeating →
      ranOut 250 s.chip.role.status s.chip.tick →
      Gives .statusTimerExpiry s fun d =>
        d.role = { s.chip.role with status := some s.chip.tick }
          ∧ d.link = ({ s.chip.link with
              wslot := some ⟨.weigherStatus, 0,
                [BitVec.ofNat 8 s.chip.role.state.code, BitVec.ofNat 8 s.chip.alarm.latchByte,
                 BitVec.ofNat 8 (healthByte s.chip.inputFault s.chip.setInvalid s.chip.store.retainLost
                   s.chip.store.configDefault s.chip.role.behind),
                 BitVec.ofNat 8 s.chip.panel.settings.curveSet.val, BitVec.ofNat 8 s.chip.sup.startKind.code,
                 s.chip.load.seq]⟩ }).settle true
          ∧ s.chip.onlyChanges d [.link, .role])
    ∧ (s.chip.role.state ≠ .mute → ranOut 2000 s.chip.load.pollTimer s.chip.tick →
      Gives .counterPollTimer s fun d =>
        d.load = { s.chip.load with pollTimer := some s.chip.tick }
          ∧ (∀ n, s.chip.role.named = some n → s.chip.link.queue.length < 8 →
              d.link.queue = s.chip.link.queue ++ [⟨.counterRequest, BitVec.ofNat 8 n, []⟩])
          ∧ (∀ n, s.chip.role.named = some n → 8 ≤ s.chip.link.queue.length →
              d.link.queue =
                  (if s.chip.link.headInHand ∧ s.chip.link.access = .send then
                    s.chip.link.queue.take 1 ++ s.chip.link.queue.drop 2
                  else s.chip.link.queue.drop 1) ++ [⟨.counterRequest, BitVec.ofNat 8 n, []⟩]
                ∧ d.link.qDrop = min 65535 (s.chip.link.qDrop + 1))
          ∧ (s.chip.role.named = none → d.link.queue = s.chip.link.queue)
          ∧ s.chip.onlyChanges d [.link, .load])

/-! ## Counters and the mirror -/

/-- In RUN, COUNTER_REQUEST of another station is answered by its three COUNTER REPORTs (R84): the part's own counters in
ACTIVE, STANDBY and CALIBRATING; in REPEAT what it holds of each part, MIRRORED with the RETAIN LOST flag held, or zeros
flagged EMPTY for a part it holds nothing of (R85); nothing in LISTEN and MUTE. A full event queue drops its oldest entries
that are not in SEND (R156). -/
def Obligations.CounterRequestIsAnswered : Prop :=
  ∀ (s : State) (src dst : Byte) (data : List Byte), s.chip.Hears src dst data →
    Gives (.counterRequest src dst data) s fun d =>
      let answers (ts : List OutTg) :=
        d.link = (ts.foldl Link.joined s.chip.link.runEnded).settle d.maySend
          ∧ (s.chip.link.queue.length ≤ 5 → d.link.queue = s.chip.link.queue ++ ts)
      let flags (lost : Bool) : Byte := if lost then 5 else 1
      let counts := match s.chip.load.mirrorCounts with
        | none => [1, 3, 0, 0, 0, 0, 0, 0, 0, 0]
        | some m => [1, flags m.retainLost] ++ be16 m.cycles ++ be16 m.weighed ++ be16 m.unweighed ++ be16 m.trucks
      let tonnage := match s.chip.load.mirrorTonnage with
        | none => [2, 3, 0, 0, 0, 0, 0, 0, 0, 0]
        | some m => [2, flags m.retainLost] ++ be32 m.shift ++ be32 m.life
      let life := match s.chip.load.mirrorLife with
        | none => [3, 3, 0, 0, 0, 0]
        | some m => [3, flags m.retainLost] ++ be32 m.cycles
      (s.chip.role.state = .active ∨ s.chip.role.state = .standby ∨ s.chip.role.state = .calibrating →
          answers (s.chip.ownCounters src))
        ∧ (s.chip.role.state = .repeating →
            answers ([counts, tonnage, life].map fun bytes => ⟨.counterReport, src, bytes⟩))
        ∧ (s.chip.role.state = .listen ∨ s.chip.role.state = .mute → s.chip.onlyHeard d)
        ∧ s.chip.onlyChanges d [.link]

/-- In RUN of a REPEATER, a COUNTER_REPORT of the named station with MIRRORED and EMPTY clear replaces the figures held of
its part (R85), and a part number outside 1-3 none (R182); a WEIGHER takes none. -/
def Obligations.CounterReportIsMirrored : Prop :=
  ∀ (s : State) (src dst : Byte) (data : List Byte), s.chip.Hears src dst data →
    layoutOf (.counterReport src dst data) ≤ data.length →
    Gives (.counterReport src dst data) s fun d =>
      let taken := s.chip.cfg.role = .repeater ∧ s.chip.role.named = some src.toNat
        ∧ (byteAt data 1).getLsbD 0 = false ∧ (byteAt data 1).getLsbD 1 = false
      let lost := (byteAt data 1).getLsbD 2
      (taken → byteAt data 0 = 1 → d.load = { s.chip.load with
          mirrorCounts := some ⟨nat16 data 2, nat16 data 4, nat16 data 6, nat16 data 8, lost⟩ })
        ∧ (taken → byteAt data 0 = 2 → d.load = { s.chip.load with
            mirrorTonnage := some ⟨nat32 data 2, nat32 data 6, lost⟩ })
        ∧ (taken → byteAt data 0 = 3 → d.load = { s.chip.load with mirrorLife := some ⟨nat32 data 2, lost⟩ })
        ∧ (¬taken ∨ byteAt data 0 ≠ 1 ∧ byteAt data 0 ≠ 2 ∧ byteAt data 0 ≠ 3 → d.load = s.chip.load)
        ∧ s.chip.onlyHeard d ∧ s.chip.onlyChanges d [.link, .load]

/-- In STANDBY and REPEAT, a TRUCK_STATUS of the named station replaces the mirror (R113): with OPEN set, the record with
its pass list kept where the truck id stands and its count never below the list; with OPEN clear, none; the record sequence
is taken, the origin is MIRRORED, and MIRROR BEHIND clears where the sequence is the one awaited. That a telegram with OPEN
clear is taken so too is the model's reading (log 12), and the fields as sent with the total limited to 99999 its choice
(log 11). From another station, or in another role state, nothing but the link changes. -/
def Obligations.TruckStatusIsMirrored : Prop :=
  ∀ (s : State) (src dst : Byte) (data : List Byte), s.chip.Hears src dst data → 11 ≤ data.length →
    Gives (.truckStatus src dst data) s fun d =>
      let mirrors := (s.chip.role.state = .standby ∨ s.chip.role.state = .repeating)
        ∧ s.chip.role.named = some src.toNat
      let passes := match s.chip.load.record with
        | some r => if r.id = nat16 data 0 then r.passes else []
        | none => []
      let flags := byteAt data 9
      (mirrors → flags.getLsbD 0 = true →
          d.load = { s.chip.load with
            seq := byteAt data 10
            record := some
              { id := nat16 data 0
                target := if nat16 data 2 = 0 then none else some (nat16 data 2)
                passes := passes
                count := max (nat8 data 7) (max passes.length ((numbers passes).foldl max 0))
                unweighed := nat8 data 8
                total := min (nat24 data 4) 99999
                flags := ⟨flags.getLsbD 1, flags.getLsbD 2, flags.getLsbD 3, flags.getLsbD 4, flags.getLsbD 5⟩ } })
        ∧ (mirrors → flags.getLsbD 0 = false →
            d.load = { s.chip.load with seq := byteAt data 10, record := none })
        ∧ (mirrors → d.role = { s.chip.role with
            mirrored := true
            behind := if s.chip.role.namedSeq = some (byteAt data 10) then false else s.chip.role.behind })
        ∧ (¬mirrors → s.chip.onlyChanges d [.link]) ∧ s.chip.onlyHeard d
        ∧ s.chip.onlyChanges d [.link, .trk, .load, .role, .alarm, .panel]

/-- In STANDBY and REPEAT, a PASS_RECORD of the named station joins the mirror (R114): replaced in place, or placed in order
of its number with the lowest of 13 leaving; an UNWEIGHED one so placed raises the unweighed count. In STANDBY a weighed,
unamended one takes the oldest pending shadow pass and is judged against it, or counts as unpaired (R118, R119); in REPEAT
an unamended one is the last pass shown. The origin MIRRORED and the count raised to the list are the model's reading (log
13), the fields as sent its choice (log 11). One with a payload and grade REJECT, or a payload of 10000-65534, is discarded
(R182); from another station, or in another role state, nothing but the link changes. -/
def Obligations.PassRecordIsMirrored : Prop :=
  ∀ (s : State) (src dst : Byte) (data : List Byte), s.chip.Hears src dst data → 11 ≤ data.length →
    let mirrors := (s.chip.role.state = .standby ∨ s.chip.role.state = .repeating)
      ∧ s.chip.role.named = some src.toNat
    let agrees := nat16 data 4 < 10000 ∧ nat8 data 3 % 4 ≠ 3 ∨ nat16 data 4 = 65535
    (¬mirrors ∨ ¬agrees →
      Gives (.passRecord src dst data) s fun d => s.chip.onlyHeard d ∧ s.chip.onlyChanges d [.link])
    ∧ (mirrors → agrees →
      Gives (.passRecord src dst data) s fun d =>
        let b := byteAt data 10
        let p : PassRec :=
          { truckId := nat16 data 0, number := nat8 data 2
            kind := if (byteAt data 3).getLsbD 7 then .remainder else .normal
            payload := if nat16 data 4 = 65535 then none else some (nat16 data 4)
            grade := if nat8 data 3 % 4 = 0 then .good else if nat8 data 3 % 4 = 1 then .fair
              else if nat8 data 3 % 4 = 2 then .poor else .reject
            bins := nat8 data 6 / 16, reweigh := nat8 data 6 % 4, cycleTime := nat16 data 7
            fill := if nat8 data 9 = 255 then none else some (nat8 data 9)
            negative := b.getLsbD 0, overFlag := b.getLsbD 1, amended := b.getLsbD 2, unamended := b.getLsbD 3 }
        let r := match s.chip.load.record with
          | some r => if r.id = p.truckId then r else TruckRec.fresh p.truckId none
          | none => TruckRec.fresh p.truckId none
        let ps := mirrorList p r.passes
        d.load = { s.chip.load with
            record := some { r with
              passes := ps
              count := max r.count (max ps.length ((numbers ps).foldl max 0))
              unweighed :=
                if (numbers r.passes).contains p.number = false ∧ p.payload = none then min 255 (r.unweighed + 1)
                else r.unweighed } }
          ∧ d.role.state = s.chip.role.state ∧ d.role.mirrored = true
          ∧ (∀ active e rest, s.chip.role.state = .standby → p.payload = some active → p.amended = false →
              s.chip.role.pairing = e :: rest →
              let differs := max (roundDiv ((active : Int) * 2) 100) 20 < (((active : Int) - e.payload).natAbs : Int)
              d.role.pairing = rest ∧ d.role.lastPair = some ⟨e.payload, active, decide differs⟩
                ∧ d.role.mismatches = (if differs then min 255 (s.chip.role.mismatches + 1) else 0)
                ∧ (differs → d.role.crossCheck =
                    (s.chip.role.crossCheck || decide (3 ≤ min 255 (s.chip.role.mismatches + 1))))
                ∧ (¬differs → d.role.crossCheck = false) ∧ d.role.unpaired = s.chip.role.unpaired)
          ∧ (s.chip.role.state = .standby → p.payload.isSome = true → p.amended = false → s.chip.role.pairing = [] →
              d.role.unpaired = min 65535 (s.chip.role.unpaired + 1) ∧ d.role.mismatches = s.chip.role.mismatches)
          ∧ (s.chip.role.state = .repeating ∨ p.payload = none ∨ p.amended = true →
              d.role = { s.chip.role with mirrored := true })
          ∧ (s.chip.role.state = .repeating → p.amended = false → d.panel.lastPass = some p)
          ∧ s.chip.onlyHeard d ∧ s.chip.onlyChanges d [.link, .trk, .load, .role, .alarm, .panel])

/-- In STANDBY and REPEAT, a TRUCK_CLOSED of the named station with reason 1-3 joins the history ring with the next history
sequence, the oldest of 16 leaving, and counts a truck (R80, R115). One with another reason is discarded (R182), and so is
one from another station or in another role state. The fields as sent, with the total limited to 99999, are the model's
choice (log 11). -/
def Obligations.TruckClosedJoinsTheHistory : Prop :=
  ∀ (s : State) (src dst : Byte) (data : List Byte), s.chip.Hears src dst data → 10 ≤ data.length →
    let mirrors := (s.chip.role.state = .standby ∨ s.chip.role.state = .repeating)
      ∧ s.chip.role.named = some src.toNat
    let code := nat8 data 9 % 8
    (¬mirrors ∨ code = 0 ∨ 3 < code →
      Gives (.truckClosed src dst data) s fun d => s.chip.onlyHeard d ∧ s.chip.onlyChanges d [.link])
    ∧ (∀ reason : CloseReason, mirrors →
      (code = 1 ∧ reason = .newTruck ∨ code = 2 ∧ reason = .departed ∨ code = 3 ∧ reason = .operator) →
      Gives (.truckClosed src dst data) s fun d =>
        d.load = { s.chip.load with
            history :=
              (if 16 ≤ s.chip.load.history.length then s.chip.load.history.drop 1 else s.chip.load.history)
                ++ [{ seq := s.chip.load.nextHist, truckId := nat16 data 0
                      target := if nat16 data 2 = 0 then none else some (nat16 data 2)
                      total := min (nat24 data 4) 99999, count := nat8 data 7, unweighed := nat8 data 8
                      reason := reason, amended := (byteAt data 9).getLsbD 7 }]
            nextHist := s.chip.load.nextHist + 1
            shift := { s.chip.load.shift with trucks := min 65535 (s.chip.load.shift.trucks + 1) } }
          ∧ s.chip.onlyHeard d ∧ s.chip.onlyChanges d [.link, .load, .panel])

/-! ## Roles -/

/-- In RUN outside ACTIVE, a WEIGHER_STATUS of another station enters the peer table (R106): its record is refreshed, added,
or takes the place of the oldest, the highest station among equals; that a new record joins at the end of the table, and a
replacing one stands where the oldest stood, is log 53. ACTIVE from a station no higher than the named one names it (R107);
the record sequence of the named station is compared with the mirror's, each comparison writing MIRROR BEHIND (R113, log 14).
CALIBRATING from the named station is left to WatchExpiryLosesTheStation. In every role state one with a role state outside
the listed ones moves nothing but the link (R182). -/
def Obligations.WeigherStatusIsHeard : Prop :=
  ∀ (s : State) (src dst : Byte) (data : List Byte), s.chip.Hears src dst data → 6 ≤ data.length →
    ((∀ st : RoleState, nat8 data 0 ≠ st.code) →
      Gives (.weigherStatus src dst data) s fun d => s.chip.onlyHeard d ∧ s.chip.onlyChanges d [.link])
    ∧ ∀ st : RoleState, nat8 data 0 = st.code → s.chip.role.state ≠ .active →
      ¬(st = .calibrating ∧ s.chip.role.named = some src.toNat) →
      Gives (.weigherStatus src dst data) s fun d =>
        let ps := s.chip.role.peers
        let new : Peer := ⟨src.toNat, st, s.chip.tick⟩
        let names := st = .active ∧ ∀ n, s.chip.role.named = some n → src.toNat ≤ n
        let mirrors := s.chip.role.state = .standby ∨ s.chip.role.state = .repeating
        ((∃ p ∈ ps, p.station = src.toNat) →
            d.role.peers = ps.map fun p => if p.station = src.toNat then new else p)
          ∧ ((∀ p ∈ ps, p.station ≠ src.toNat) → ps.length < 8 → d.role.peers = ps ++ [new])
          ∧ ((∀ p ∈ ps, p.station ≠ src.toNat) → 8 ≤ ps.length → ∃ old ∈ ps,
              (∀ p ∈ ps, age s.chip.tick p.at_ < age s.chip.tick old.at_
                ∨ age s.chip.tick p.at_ = age s.chip.tick old.at_ ∧ p.station ≤ old.station)
              ∧ d.role.peers = ps.map fun p => if p.station = old.station then new else p)
          ∧ (names → d.role = { s.chip.role with
              peers := d.role.peers
              named := some src.toNat
              watch := some s.chip.tick
              noWeigher := false
              namedSeq := some (byteAt data 5)
              behind := if mirrors then byteAt data 5 != s.chip.load.seq else s.chip.role.behind })
          ∧ (¬names → s.chip.role.named = some src.toNat → d.role = { s.chip.role with
              peers := d.role.peers
              namedSeq := some (byteAt data 5)
              behind := if mirrors then byteAt data 5 != s.chip.load.seq else s.chip.role.behind })
          ∧ (¬names → s.chip.role.named ≠ some src.toNat → d.role = { s.chip.role with peers := d.role.peers })
          ∧ (¬names → s.chip.onlyChanges d [.link, .role])
          ∧ s.chip.onlyChanges d [.link, .role, .alarm, .panel] ∧ s.chip.onlyAlarm .noWeigher d ∧ s.chip.onlyBuzzer d
          ∧ s.chip.onlyHeard d

/-- In ACTIVE, a WEIGHER_STATUS of state ACTIVE from a lower station makes the part yield (R110): STANDBY, the source named,
its record closed YIELDED, the TRUCK STATUS slot empty, the event queue as it was; that the sequence of this status is
compared with the part's own at once is the model's reading (log 14). From a higher station the part writes its own WEIGHER
STATUS at once. Any other state moves the peer table alone (R106). -/
def Obligations.LowerActiveStationTakesOver : Prop :=
  ∀ (s : State) (src dst : Byte) (data : List Byte) (st : RoleState), s.chip.Hears src dst data →
    6 ≤ data.length → nat8 data 0 = st.code → s.chip.role.state = .active →
    Gives (.weigherStatus src dst data) s fun d =>
      (st = .active → src.toNat < s.chip.link.station →
          s.chip.tookStandby d ∧ d.role.named = some src.toNat ∧ d.role.watch = some s.chip.tick
            ∧ d.role.namedSeq = some (byteAt data 5) ∧ d.role.behind = (byteAt data 5 != d.load.seq)
            ∧ d.link.tslot = none ∧ d.link.queue = s.chip.link.queue)
        ∧ (st = .active → s.chip.link.station < src.toNat →
            d.role = { s.chip.role with peers := d.role.peers, status := some s.chip.tick }
              ∧ d.link = { s.chip.link.runEnded with
                  wslot := some ⟨.weigherStatus, 0, s.chip.statusData⟩ }.settle true
              ∧ s.chip.onlyChanges d [.link, .role])
        ∧ (st ≠ .active → d.role = { s.chip.role with peers := d.role.peers } ∧ s.chip.onlyHeard d
            ∧ s.chip.onlyChanges d [.link, .role])

/-- In RUN outside ACTIVE, at WATCH_TIMER_EXPIRY the lowest peer heard ACTIVE less than 1000 ms ago is named, with the timer
started from its arrival (R107); that no sequence of it is held until its next WEIGHER STATUS is log 50. With none, no
station is named: STANDBY takes over (R112; what the held tag adds to the record is log 49), REPEAT raises NO WEIGHER (R117),
the others wait. CALIBRATING from the named station acts as the expiry at once, after its sequence has been compared with the
mirror's (R113, log 14). -/
def Obligations.WatchExpiryLosesTheStation : Prop :=
  ∀ s : State, s.chip.running → s.chip.role.state ≠ .active →
    let recent (p : Peer) := p.state = .active ∧ age s.chip.tick p.at_ < 1000
    let lost (behind : Bool) (d : Chip) :=
      (s.chip.role.state = .standby → s.chip.tookActive d)
        ∧ (s.chip.role.state = .repeating →
            d.role = { s.chip.role with
              peers := d.role.peers, named := none, watch := none, namedSeq := none, noWeigher := true
              behind := behind }
            ∧ d.alarm.noWeigher.cond = true ∧ s.chip.onlyChanges d [.link, .role, .alarm, .panel]
            ∧ s.chip.onlyAlarm .noWeigher d ∧ s.chip.onlyBuzzer d)
        ∧ (s.chip.role.state ≠ .standby → s.chip.role.state ≠ .repeating →
            d.role = { s.chip.role with peers := d.role.peers, named := none, watch := none, namedSeq := none }
            ∧ s.chip.onlyChanges d [.link, .role])
    (ranOut 1000 s.chip.role.watch s.chip.tick →
        ((∃ p ∈ s.chip.role.peers, recent p) →
          Gives .watchTimerExpiry s fun d => ∃ p ∈ s.chip.role.peers, recent p
            ∧ (∀ q ∈ s.chip.role.peers, recent q → p.station ≤ q.station)
            ∧ d.role = { s.chip.role with named := some p.station, watch := some p.at_, namedSeq := none }
            ∧ d.link = s.chip.link.settle s.chip.maySend ∧ s.chip.onlyChanges d [.link, .role])
        ∧ ((∀ p ∈ s.chip.role.peers, ¬recent p) →
            Gives .watchTimerExpiry s fun d =>
              lost s.chip.role.behind d ∧ d.role.peers = s.chip.role.peers))
      ∧ ∀ src dst data, s.chip.Hears src dst data → 6 ≤ data.length → nat8 data 0 = RoleState.calibrating.code →
          s.chip.role.named = some src.toNat →
          let others (p : Peer) := p ∈ s.chip.role.peers ∧ p.station ≠ src.toNat ∧ recent p
          ((∀ p, ¬others p) →
            Gives (.weigherStatus src dst data) s (lost (byteAt data 5 != s.chip.load.seq)))
          ∧ ((∃ q ∈ s.chip.role.peers, q.station = src.toNat) → (∃ p, others p) →
            Gives (.weigherStatus src dst data) s fun d => ∃ p, others p ∧ (∀ q, others q → p.station ≤ q.station)
              ∧ d.role = { s.chip.role with
                  peers := s.chip.role.peers.map fun q =>
                    if q.station = src.toNat then ⟨src.toNat, .calibrating, s.chip.tick⟩ else q
                  named := some p.station
                  watch := some p.at_
                  namedSeq := none
                  behind :=
                    if s.chip.role.state = .standby ∨ s.chip.role.state = .repeating then
                      byteAt data 5 != s.chip.load.seq
                    else s.chip.role.behind }
              ∧ s.chip.onlyHeard d ∧ s.chip.onlyChanges d [.link, .role])

/-- In RUN and LISTEN, LISTEN_TIMER_EXPIRY settles the role (R108): with no station named the part enters ACTIVE, its record
and the held tag taken as R111 and R73 say (log 49), with one named STANDBY, the watch timer running on. -/
def Obligations.ListenExpirySettlesTheRole : Prop :=
  ∀ s : State, s.chip.running → s.chip.role.state = .listen → ranOut 1000 s.chip.role.listen s.chip.tick →
    (s.chip.role.named = none → Gives .listenTimerExpiry s fun d => s.chip.tookActive d)
    ∧ ∀ n, s.chip.role.named = some n →
        Gives .listenTimerExpiry s fun d =>
          s.chip.tookStandby d ∧ d.role.named = some n ∧ d.role.watch = s.chip.role.watch ∧ d.role.listen = none

/-- While the part runs, PAIRING_TIMER_EXPIRY counts the oldest shadow pass unpaired 2000 ms after its dump (R118); in RUN,
PEER_RECORD_REMOVAL removes the record of a station 2000 ms after its last WEIGHER STATUS (R106), and the others stand in
their order (log 53). Nothing else changes. -/
def Obligations.PairsAndPeersExpire : Prop :=
  ∀ s : State, s.chip.sup.life = .up →
    (∀ e rest, s.chip.role.pairing = e :: rest → 2000 ≤ age s.chip.tick e.dumped →
      Gives .pairingTimerExpiry s fun d =>
        d = { s.chip with role := { s.chip.role with
                pairing := rest, unpaired := min 65535 (s.chip.role.unpaired + 1) } })
    ∧ ∀ station, s.chip.sup.power = .run →
      Gives (.peerRecordRemoval station) s fun d =>
        d = { s.chip with role := { s.chip.role with
                peers := s.chip.role.peers.filter fun p =>
                  decide (p.station ≠ station ∨ age s.chip.tick p.at_ < 2000) } }

/-- In RUN, any telegram that carries this part's own station number sends it to MUTE (R116, R152): STATION CONFLICT holds,
queue and slots are empty, the cross-check is clear, a WEIGHER's record becomes its own and the held tag is taken (R111,
R73, log 49), and the telegram is not taken. In MUTE a further one changes nothing. -/
def Obligations.StationConflictMutes : Prop :=
  ∀ (s : State) (i : Instr) (src dst : Byte) (data : List Byte), telegramOf i = some (src, dst, data) → i.wf = true →
    s.chip.receives → s.chip.sup.power = .run → s.chip.link.station ≠ 0 → src.toNat = s.chip.link.station →
    (s.chip.role.state ≠ .mute →
      Gives i s fun d =>
        d.role = { s.chip.role with
            state := .mute
            conflict := true
            listen := none
            status := none
            pairing := []
            mismatches := 0
            crossCheck := false
            noWeigher := false
            behind := false
            mirrored := if s.chip.cfg.role = .weigher then false else s.chip.role.mirrored }
          ∧ d.link.queue = [] ∧ d.link.wslot = none ∧ (s.chip.role.state = .active → d.link.tslot = none)
          ∧ (d.link.access = .off ∨ d.link.access = .quiet)
          ∧ d.load.refreshTimer = none ∧ (s.chip.cfg.role = .weigher → s.chip.tookRecord d)
          ∧ (s.chip.cfg.role = .repeater → d.load = { s.chip.load with refreshTimer := none, pollTimer := none })
          ∧ d.trk.note = none ∧ d.alarm.stationConflict.cond = true
          ∧ (s.chip.alarm.stationConflict.cond = false →
              d.alarm.stationConflict.latch = true ∧ d.alarm.stationConflict.ack = false)
          ∧ s.chip.onlyChanges d [.link, .trk, .load, .role, .alarm, .panel])
    ∧ (s.chip.role.state = .mute → Gives i s fun d => s.chip.onlyHeard d ∧ s.chip.onlyChanges d [.link])

/-! ## The link -/

/-- A telegram moves nothing but the link where the filter drops it (R153): addressed to another station, with a source
outside 1-31, of an unknown kind, a sensor kind from no source of its channels, a service kind broadcast; where it has
no consumer (DIAG REPORT, CONFIG STATUS); and in SKIP outside a delay, which only ends (R150, R160, log 5). With the receiver
off, or while the part sends, it moves nothing at all. One shorter than its layout counts LENGTH besides, also where the role
ignores its kind (R182); that an unlisted part of a COUNTER REPORT is held to the shortest of its layouts is log 34. -/
def Obligations.UnwantedTelegramsMoveNothing : Prop :=
  ∀ (s : State) (i : Instr) (src dst : Byte) (data : List Byte), telegramOf i = some (src, dst, data) → i.wf = true →
    (s.chip.receives → (src.toNat ≠ s.chip.link.station ∨ s.chip.link.station = 0) →
      dst ≠ 0 ∧ dst.toNat ≠ s.chip.link.station ∨ src.toNat = 0 ∨ 31 < src.toNat ∨ ¬s.chip.passesKind i
        ∨ i = .diagReport src dst data ∨ i = .configStatus src dst data →
      Gives i s fun d => s.chip.onlyHeard d ∧ s.chip.onlyChanges d [.link])
    ∧ (s.chip.Hears src dst data → s.chip.passesKind i → data.length < layoutOf i →
      Gives i s fun d =>
        d.link = { s.chip.link.runEnded with
            length := min 65535 (s.chip.link.length + 1) }.settle s.chip.maySend
          ∧ s.chip.onlyChanges d [.link])
    ∧ (∀ kind, s.chip.Hears src dst data → Kind.ofCode kind = none →
      Gives (.unknownKindTelegram kind src dst data) s fun d => s.chip.onlyHeard d ∧ s.chip.onlyChanges d [.link])
    ∧ (s.chip.sup.life = .up → s.chip.link.rx = .skip → s.chip.link.access ≠ .send → s.chip.link.access ≠ .delay →
      Gives i s fun d => s.chip.onlyHeard d ∧ s.chip.onlyChanges d [.link])
    ∧ (s.chip.link.rx = .off ∨ s.chip.link.access = .send → exec i s = .next s)

/-- In DOZE with bus wake, and in PEEK, the part takes COUNTER_REQUEST alone (R154): in DOZE one addressed to this station
is answered with the counters (R84), in PEEK none; every other telegram moves nothing but the link. -/
def Obligations.DozeAnswersCounterRequests : Prop :=
  ∀ (s : State) (i : Instr) (src dst : Byte) (data : List Byte), telegramOf i = some (src, dst, data) → i.wf = true →
    s.chip.receives →
    (s.chip.sup.power = .peek ∨ s.chip.sup.power = .doze ∧ (i ≠ .counterRequest src dst data ∨ dst = 0) →
      Gives i s fun d => s.chip.onlyHeard d ∧ s.chip.onlyChanges d [.link])
    ∧ (s.chip.sup.power = .doze → i = .counterRequest src dst data → dst ≠ 0 → dst.toNat = s.chip.link.station →
      1 ≤ src.toNat → src.toNat ≤ 31 →
      (s.chip.role.state = .active ∨ s.chip.role.state = .standby ∨ s.chip.role.state = .calibrating) →
      s.chip.link.queue.length ≤ 5 →
      Gives i s fun d =>
        d.link.queue = s.chip.link.queue ++ s.chip.ownCounters src ∧ s.chip.onlyChanges d [.link])

/-- A run that fails a receive test in IDLE or FRAME, or while a delay is counted, is counted once, against its counter
(Table 9-2): FORM leaves the receiver in SKIP until a settle gap, the others at IDLE; in SKIP outside a delay none is
counted. SETTLE_GAP_COMPLETE brings SKIP to IDLE, and a run taken over after a collision is tested: failed it is counted,
whole it is the reception of its telegram (R150, R160). With the receiver off the gap alone is noted (R155, log 48). -/
def Obligations.FailedRunsAreCounted : Prop :=
  ∀ s : State, s.chip.sup.life = .up → s.chip.link.access ≠ .send →
    let l := s.chip.link
    let counted (e : RxError) (l : Link) : Link :=
      match e with
      | .form => { l with form := min 65535 (l.form + 1) }
      | .length => { l with length := min 65535 (l.length + 1) }
      | .check => { l with check := min 65535 (l.check + 1) }
    let leaves (i : Instr) (l' : Link) :=
      Gives i s fun d => d.link = l'.settle s.chip.maySend ∧ s.chip.onlyChanges d [.link]
    (∀ run e, receiveTests run = .failed e → l.rx ≠ .off → (l.rx = .skip → l.access = .delay) →
      (e = .form → leaves (.receiveFailure run) { counted e l.busTaken with rx := .skip, gapDone := false })
      ∧ (e ≠ .form → leaves (.receiveFailure run) (counted e l.runEnded)))
    ∧ (∀ run e, receiveTests run = .failed e → l.rx = .skip → l.access ≠ .delay →
      (e = .form → leaves (.receiveFailure run) { l with rx := .skip, gapDone := false })
      ∧ (e ≠ .form → leaves (.receiveFailure run) l.runEnded))
    ∧ (∀ run, l.rx = .off → exec (.receiveFailure run) s = .next s)
    ∧ (l.rx = .skip ∨ l.rx = .idle → leaves .settleGapComplete { l with rx := .idle, gapDone := true })
    ∧ (l.rx = .off → leaves .settleGapComplete { l with gapDone := true })
    ∧ (∀ run e, l.rx = .frame run → receiveTests run = .failed e → leaves .settleGapComplete (counted e l.runEnded))
    ∧ ∀ run t i, l.rx = .frame run → receiveTests run = .whole t → telegramOf i = some (t.src, t.dst, t.data) →
        codeOf i = t.kind → i.wf = true → exec .settleGapComplete s = exec i s

/-- The phases of a transmission (Table 9-6): a dominant level during the delay returns the link to GAP with the telegram in
hand and no attempt counted, the receiver in FRAME of the telegram that has begun; at the end of the delay its characters,
source the strapped station number, are driven (R159, R181); read back whole it has been sent and leaves (R160). That the
receiver goes from IDLE to SKIP after the part's own telegram is the model's reading (log 18). -/
def Obligations.TransmissionPhases : Prop :=
  ∀ s : State, s.chip.sup.life = .up →
    (s.chip.link.access = .delay → s.chip.maySend = true →
      Gives .dominantDuringDelay s fun d =>
        d.link = { s.chip.link with
            access := .gap, delay := 0, gapDone := false
            rx := if s.chip.link.rx = .idle ∨ s.chip.link.rx = .skip then .frame [] else s.chip.link.rx }
          ∧ s.chip.onlyChanges d [.link])
    ∧ (∀ t, s.chip.link.access = .delay → s.chip.link.handTelegram = some t →
      Gives .accessDelayEnd s fun d =>
        d.link = { s.chip.link with
            access := .send, delay := 0, gapDone := false
            driven := frameChars ⟨t.kind.code, BitVec.ofNat 8 s.chip.link.station, t.dst, t.data⟩ }
          ∧ s.chip.onlyChanges d [.link])
    ∧ (s.chip.link.access = .send →
      Gives .telegramSent s fun d =>
        d.link = { s.chip.link with
            queue := if s.chip.link.headInHand then s.chip.link.queue.drop 1 else s.chip.link.queue
            inHand := none, discards := 0, gapDone := false, driven := []
            access := if s.chip.maySend then .gap else .off
            rx := if s.chip.link.rx = .idle then .skip else s.chip.link.rx }
          ∧ s.chip.onlyChanges d [.link])

/-- A bit that reads back differently ends the attempt (R160): COLLISION in the first five characters, BIT ERROR after. After
a collision the receiver takes over in FRAME with the characters read back so far, the differing bit inverted; what it makes
of the character begun, of its stop bit and of its start bit is log 18. Below three attempts the telegram stays in hand; the
third discards it, and the sixteenth consecutive discard enters QUIET (R161), which its timer leaves after 1000 ms with the
count 0. An emptying request reaches a slot's copy in hand: outside SEND it is abandoned at once, in SEND it is not retried
after a failure, and no counter moves (R157). At the next settle gap the telegram in hand is chosen again, but for a copy
whose slot has been written since, which gives way to the choice by place (R158). -/
def Obligations.FailedAttemptsAreRetried : Prop :=
  ∀ (s : State), s.chip.sup.life = .up →
    (∀ (bit : Nat) (h : InHand), s.chip.link.access = .send → bit / 10 < s.chip.link.driven.length →
      s.chip.link.inHand = some h → h.abandon = false →
      Gives (.readbackMismatch bit) s fun d =>
        d.link.lastAbort = (if bit / 10 < 5 then .collision else .bitError)
          ∧ d.link.driven = [] ∧ d.link.gapDone = false
          ∧ (5 ≤ bit / 10 → s.chip.link.rx ≠ .off → d.link.rx = .skip)
          ∧ (h.attempts < 2 →
              d.link.inHand = some { h with attempts := h.attempts + 1 }
                ∧ d.link.access = (if s.chip.maySend then .gap else .off)
                ∧ d.link.queue = s.chip.link.queue ∧ d.link.txFail = s.chip.link.txFail
                ∧ d.link.discards = s.chip.link.discards)
          ∧ (2 ≤ h.attempts →
              d.link.inHand = none ∧ d.link.txFail = min 65535 (s.chip.link.txFail + 1)
                ∧ d.link.discards = min 16 (s.chip.link.discards + 1)
                ∧ d.link.queue =
                    (if s.chip.link.headInHand then s.chip.link.queue.drop 1 else s.chip.link.queue)
                ∧ (s.chip.link.discards + 1 < 16 → d.link.access = (if s.chip.maySend then .gap else .off))
                ∧ (16 ≤ s.chip.link.discards + 1 → d.link.access = .quiet
                    ∧ d.link.quietTimer = some s.chip.tick
                    ∧ d.link.quietEntries = min 65535 (s.chip.link.quietEntries + 1)))
          ∧ s.chip.onlyChanges d [.link])
    ∧ (∀ bit : Nat, s.chip.link.access = .send → bit / 10 < s.chip.link.driven.length →
      Gives (.readbackMismatch bit) s fun d =>
        let whole := (s.chip.link.driven.take (bit / 10)).map fun b => (⟨b, true⟩ : RxChar)
        let sent := s.chip.link.driven.getD (bit / 10) 0
        let collided := bit / 10 < 5 ∧ s.chip.link.rx ≠ .off
        (s.chip.link.rx = .off → d.link.rx = .off)
          ∧ (collided → bit % 10 = 9 → d.link.rx = .skip)
          ∧ (collided → bit % 10 = 0 → d.link.rx = .frame whole)
          ∧ (collided → bit % 10 ≠ 9 → bit % 10 ≠ 0 → ∃ x, d.link.rx = .frame (whole ++ [⟨x, true⟩])
              ∧ ∀ j < 8, x.getLsbD j =
                if j + 1 < bit % 10 then sent.getLsbD j else if j + 1 = bit % 10 then !sent.getLsbD j else true)
          ∧ d.link.form =
              (if collided ∧ bit % 10 = 9 then min 65535 (s.chip.link.form + 1) else s.chip.link.form)
          ∧ ∀ h, s.chip.link.inHand = some h → h.abandon = true →
              d.link.inHand = none ∧ d.link.queue = s.chip.link.queue ∧ d.link.txFail = s.chip.link.txFail
                ∧ d.link.discards = s.chip.link.discards
                ∧ d.link.access = (if s.chip.maySend then .gap else .off))
    ∧ (∀ (l : Link) (h : InHand), l.inHand = some h →
      (∀ t, h.origin = .wslot t →
        l.emptyW = { l with
            wslot := none, inHand := if l.access = .send then some { h with abandon := true } else none }
          ∧ l.emptyT = { l with tslot := none })
      ∧ (∀ t, h.origin = .tslot t →
        l.emptyT = { l with
            tslot := none, inHand := if l.access = .send then some { h with abandon := true } else none }
          ∧ l.emptyW = { l with wslot := none }))
    ∧ (∀ h : InHand, s.chip.link.access = .gap → s.chip.link.rx = .idle ∨ s.chip.link.rx = .skip →
      s.chip.maySend = true → s.chip.link.inHand = some h →
      Gives .settleGapComplete s fun d =>
        let l := s.chip.link
        let counts (t : OutTg) := d.link.access = .delay ∧ d.link.delay = t.kind.accessClass * 32 + l.station
        let kept (t : OutTg) := d.link.inHand = some h ∧ d.link.wslot = l.wslot ∧ d.link.tslot = l.tslot ∧ counts t
        let head (t : OutTg) := d.link.inHand = some ⟨.queueHead, 0, false⟩ ∧ d.link.wslot = l.wslot
          ∧ d.link.tslot = l.tslot ∧ counts t
        let newW (t : OutTg) := d.link.inHand = some ⟨.wslot t, 0, false⟩ ∧ d.link.wslot = none
          ∧ d.link.tslot = l.tslot ∧ counts t
        let newT (t : OutTg) := d.link.inHand = some ⟨.tslot t, 0, false⟩ ∧ d.link.wslot = none
          ∧ d.link.tslot = none ∧ counts t
        (∀ t rest, h.origin = .queueHead → l.queue = t :: rest → kept t)
          ∧ (∀ t, h.origin = .wslot t → l.wslot = none → kept t)
          ∧ (∀ t, h.origin = .tslot t → l.tslot = none → kept t)
          ∧ (∀ old new, h.origin = .wslot old → l.wslot = some new →
              (∀ t rest, l.queue = t :: rest → head t) ∧ (l.queue = [] → newW new))
          ∧ (∀ old new, h.origin = .tslot old → l.tslot = some new →
              (∀ t rest, l.queue = t :: rest → head t) ∧ (∀ w, l.queue = [] → l.wslot = some w → newW w)
                ∧ (l.queue = [] → l.wslot = none → newT new))
          ∧ d.link.queue = l.queue ∧ d.link.txFail = l.txFail ∧ d.link.discards = l.discards
          ∧ s.chip.onlyChanges d [.link])
    ∧ (s.chip.link.access = .quiet → ranOut 1000 s.chip.link.quietTimer s.chip.tick →
      Gives .quietTimerExpiry s fun d =>
        d.link = { s.chip.link with
            discards := 0, quietTimer := none, access := .gap }.settle s.chip.maySend
          ∧ s.chip.onlyChanges d [.link])

/-- In RUN, a DIAG_REQUEST is answered by the four DIAG REPORT parts of Table 9-7 from the figures as they stand, offered in
order, none in MUTE; with CLEAR set the six link counters then become 0 and the last abort NONE (R162). -/
def Obligations.DiagRequestIsAnswered : Prop :=
  ∀ (s : State) (src dst : Byte) (data : List Byte), s.chip.Hears src dst data → 1 ≤ data.length →
    s.chip.link.queue.length ≤ 4 →
    Gives (.diagRequest src dst data) s fun d =>
      let l := s.chip.link
      let part (n : Nat) (counters : List Nat) : OutTg :=
        ⟨.diagReport, src, BitVec.ofNat 8 n :: counters.flatMap be16⟩
      let flags := (if l.access = .quiet then 1 else 0) + (if s.chip.store.retainLost then 2 else 0)
        + (if s.chip.store.configDefault then 4 else 0)
      let abort := match l.lastAbort with
        | .none => 0
        | .collision => 1
        | .bitError => 2
      let clear := (byteAt data 0).getLsbD 0 = true
      (s.chip.role.state ≠ .mute → d.link.queue = l.queue ++
          [part 1 [l.check, l.form, l.length, l.txFail, l.qDrop],
           ⟨.diagReport, src, [2] ++ be16 l.quietEntries ++
             [BitVec.ofNat 8 abort, BitVec.ofNat 8 flags, BitVec.ofNat 8 l.queue.length,
              BitVec.ofNat 8 s.chip.role.state.code, BitVec.ofNat 8 s.chip.sup.startKind.code]⟩,
           part 3 [s.chip.trk.voids.returned, s.chip.trk.voids.carryTimeout, s.chip.trk.voids.empty,
             s.chip.trk.voids.inputLoss, s.chip.trk.voids.power],
           part 4 [s.chip.trk.voids.restart, s.chip.inp.pressure.gap, s.chip.inp.primary.gap,
             s.chip.inp.secondary.gap, s.chip.role.unpaired]])
        ∧ (s.chip.role.state = .mute → d.link.queue = l.queue)
        ∧ (clear → d.link.check = 0 ∧ d.link.form = 0 ∧ d.link.length = 0 ∧ d.link.txFail = 0 ∧ d.link.qDrop = 0
            ∧ d.link.quietEntries = 0 ∧ d.link.lastAbort = .none)
        ∧ (¬clear → d.link.check = l.check ∧ d.link.form = l.form ∧ d.link.length = l.length
            ∧ d.link.txFail = l.txFail ∧ d.link.qDrop = l.qDrop ∧ d.link.quietEntries = l.quietEntries
            ∧ d.link.lastAbort = l.lastAbort)
        ∧ s.chip.onlyChanges d [.link]

/-! ## Alarms -/

/-- In RUN, a condition that rises latches its alarm and clears its acknowledgement, and an unmasked alarm sounds: TRILL of
the four demand alarms, LONG of PASS OVER, DOUBLE of the rest (R123, R124, R129). One that falls clears an acknowledged
HELD latch. MASK_TIMER_EXPIRY acknowledges a masked alarm after 1000 ms (R126): remembered by a HELD alarm whose condition
holds, else the latch clears. No other alarm changes, and of the panel the buzzer alone. -/
def Obligations.AlarmRecordsFollowTheirTables : Prop :=
  ∀ (s : State) (a : Alarm), s.chip.running →
    let c := s.chip
    let r := c.alarm.get a
    let sound : Pattern := match a with
      | .lowSupply | .stationConflict | .inputFault | .overload => .trill
      | .passOver => .long
      | .calInvalid | .crossCheck | .noWeigher => .double
    (r.cond = false →
      (c.takeCond a true).alarm.get a = { r with
          cond := true, latch := true, ack := false
          maskTimer :=
            if r.mask = true ∧ (r.latch = false ∨ r.maskTimer.isSome = true) then some c.tick else r.maskTimer }
        ∧ (r.mask = true → (c.takeCond a true).panel = c.panel)
        ∧ (r.mask = false → c.alarm.demand = false → (c.takeCond a true).panel.buz.slot = some sound))
    ∧ (r.cond = true →
      (c.takeCond a false).alarm.get a =
        if r.mode = .held ∧ r.latch = true ∧ r.ack = true then
          { r with cond := false, latch := false, ack := false, maskTimer := none }
        else { r with cond := false })
    ∧ (∀ v, c.onlyAlarm a (c.takeCond a v) ∧ c.onlyBuzzer (c.takeCond a v)
        ∧ c.onlyChanges (c.takeCond a v) [.alarm, .panel])
    ∧ (ranOut 1000 r.maskTimer c.tick → r.latch = true →
      Gives (.maskTimerExpiry a) s fun d =>
        d.alarm.get a =
            (if r.mode = .held ∧ r.cond = true then { r with ack := true, maskTimer := none }
            else { r with latch := false, ack := false, maskTimer := none })
          ∧ c.onlyAlarm a d ∧ c.onlyBuzzer d ∧ c.onlyChanges d [.alarm, .panel])

/-! ## Calibration -/

/-- In RUN with a calibration going on, a press that reaches the unit (R91, R92, R96-R101): ENTER ends the SET field,
latches the geometry, leaves a phase with two kept lifts, forms and tests the curves, and requests the curve write; the
curves of the kept lifts fail at the first of Table 5-6's tests that does not hold, at the lowest point where it does not.
UP and DOWN step the SET and the MASS field, and begin a hold that repeats on it (R134; the blink at a limit is log 51), and
the point browsed in CAL-REVIEW, held at 0 and 15 (R98), and do nothing in a phase; MODE leaves but in CAL-WRITING, where
every key is ignored. That a change of phase leaves the refused count shown is log 24. -/
def Obligations.CalibrationFollowsItsKeys : Prop :=
  ∀ (s : State) (k : Key), s.chip.running → s.chip.panel.decoder = .ready → s.chip.pins.keys.get k = true →
    ranOut 20 (s.chip.panel.keys.get k).timer s.chip.tick →
    (∀ a, (s.chip.alarm.get a).latch = true → (s.chip.alarm.get a).ack = true ∨ (s.chip.alarm.get a).mask = true) →
    s.chip.cal.state ≠ .out →
    Gives (.keyDebounceExpiry k) s fun d =>
      let u := s.chip.cal
      let c := s.chip
      let span := c.cfg.thetaE - c.cfg.thetaS
      let usable := 300 ≤ span ∧ span ≤ 6000 ∧ span % 30 = 0
      let latched : Geom :=
        ⟨c.cfg.cylinders, c.cfg.headArea, c.cfg.rodArea, c.cfg.thetaS, c.cfg.thetaE, roundDiv span 15⟩
      let mean (ls : List (Vector Int 16)) (i : Fin 16) : Int := roundDiv (ls.map fun v => v[i]).sum ls.length
      let consistent (ls : List (Vector Int 16)) := ∀ v ∈ ls, ∀ w ∈ ls, ∀ i : Fin 16, v[i] - w[i] ≤ c.cfg.spread
      let passes := consistent u.keptEmpty ∧ consistent u.keptLoaded
        ∧ (∀ i, 100 ≤ mean u.keptLoaded i - mean u.keptEmpty i) ∧ u.target.val < c.cfg.protect
      let lowest (bad : Fin 16 → Prop) (k : Nat) := ∃ i : Fin 16, i.val = k ∧ bad i ∧ ∀ j : Fin 16, j < i → ¬bad j
      let differs (ls : List (Vector Int 16)) (i : Fin 16) := ∃ v ∈ ls, ∃ w ∈ ls, c.cfg.spread < v[i] - w[i]
      let fails : CalFailure → Prop
        | .geometry => False
        | .inconsistent false k => lowest (differs u.keptEmpty) k
        | .inconsistent true k => consistent u.keptEmpty ∧ lowest (differs u.keptLoaded) k
        | .span k => consistent u.keptEmpty ∧ consistent u.keptLoaded
            ∧ lowest (fun i => mean u.keptLoaded i - mean u.keptEmpty i < 100) k
        | .isProtected => consistent u.keptEmpty ∧ consistent u.keptLoaded
            ∧ (∀ i, 100 ≤ mean u.keptLoaded i - mean u.keptEmpty i) ∧ c.cfg.protect ≤ u.target.val
      (k = .enter → u.state = .select → u.onMass = false → d.cal = { u with onMass := true })
        ∧ (k = .enter → u.state = .select → u.onMass = true → usable →
            d.cal = { u with
              geom := some latched, accepted := 0, keptEmpty := [], outcome := none
              state := .empty, liftOpen := false })
        ∧ (k = .enter → u.state = .select → u.onMass = true → ¬usable →
            d.cal = { u with geom := some latched, failure := some .geometry, state := .failed })
        ∧ (k = .enter → u.state = .empty ∧ u.keptEmpty.length < 2 ∨ u.state = .loaded ∧ u.keptLoaded.length < 2 →
            d.cal = u)
        ∧ (k = .enter → u.state = .empty → 2 ≤ u.keptEmpty.length →
            d.cal = { u with
              points := d.cal.points, liftOpen := false, accepted := 0, keptLoaded := [], outcome := none
              state := .loaded })
        ∧ (k = .enter → u.state = .loaded → 2 ≤ u.keptLoaded.length →
            (passes → d.cal.state = .review ∧ d.cal.browse = 0
              ∧ ∃ e l, d.cal.curves = some (e, l) ∧ ∀ i : Fin 16, e[i] = mean u.keptEmpty i ∧ l[i] = mean u.keptLoaded i)
            ∧ (¬passes → d.cal.state = .failed ∧ d.cal.curves = none ∧ d.cal.failure.isSome = true)
            ∧ (∀ f, u.keptEmpty ≠ [] → fails f → d.cal = { u with
                points := d.cal.points, liftOpen := false, curves := none, failure := some f, state := .failed }))
        ∧ (∀ e l, k = .enter → u.state = .review → u.curves = some (e, l) → u.target.val < c.cfg.protect →
            let set : CurveSet := ⟨u.mass, e, l, true⟩
            d.cal = { u with state := .writing } ∧ d.store.curves = c.store.curves
              ∧ (c.store.writing.isSome = true → d.store = { c.store with reqCurve := some (u.target, set) })
              ∧ (c.store.writing = none → c.store.reqRetain = none →
                  d.store = { c.store with writing := some (.curve u.target set, c.tick), reqCurve := none }))
        ∧ (k = .up ∨ k = .down → u.state = .select →
            c.calStepped d (decide (k = .up)) ∧ c.onlyChanges d [.link, .cal, .panel]
              ∧ d.panel.decoder =
                .held ⟨k, c.tick, false, false, some (if u.onMass then .calMass else .calSet), none⟩)
        ∧ (k = .up ∨ k = .down → u.state = .review →
            d.cal = { u with browse := if k = .up then min 15 (u.browse + 1) else u.browse - 1 })
        ∧ (k = .up ∨ k = .down → u.state = .empty ∨ u.state = .loaded → d.cal = u)
        ∧ (k = .mode → u.state ≠ .writing →
            d.cal = { u with state := .out, liftOpen := false } ∧ d.trk.suspCal = false ∧ d.panel.page = .run
              ∧ d.role.state = (if c.role.state = .mute then .mute else .listen) ∧ d.store = c.store)
        ∧ (u.state = .writing ∨ k ≠ .mode ∧ (u.state = .done ∨ u.state = .failed) →
            d.cal = u ∧ c.onlyChanges d [.link, .panel])
        ∧ (k ≠ .mode → c.onlyChanges d [.link, .cal, .panel, .store])

/-- In CAL-EMPTY and CAL-LOADED, an OK arrival of the primary angle opens a lift where it crosses θs upward with fewer than 4
accepted, abandons one below θs, and above θe ends it (R93): judged INCOMPLETE, SETTLING or KEPT (R95). That the refused
count shown is the last judged lift's, which an ABANDONED one leaves, is log 24. A pressure sample of an open lift joins the
point it lies at, or counts as refused (R94). -/
def Obligations.LiftsAreTakenAndJudged : Prop :=
  ∀ (s : State) (src dst : Byte) (data : List Byte) (g : Geom), s.chip.Hears src dst data →
    (s.chip.cal.state = .empty ∨ s.chip.cal.state = .loaded) → s.chip.cal.geom = some g → g.thetaS < g.thetaE →
    let u := s.chip.cal
    let fresh : Vector PointAcc 16 := Vector.replicate 16 ⟨0, 0⟩
    (src.toNat = s.chip.cfg.srcPrimary → 4 ≤ data.length → nat8 data 3 = 0 →
      Gives (.boomAngle src dst data) s fun d =>
        let theta := clampInt (-4500) 6000 (int16 data 1)
        let opens := u.accepted < 4 ∧ g.thetaS ≤ theta ∧ ∃ p, u.prevAngle = some p ∧ p < g.thetaS
        let ended : CalUnit :=
          { u with prevAngle := some theta, points := fresh, liftOpen := false, lastRefused := some u.refused }
        let values := u.points.map fun p => roundDiv p.sum p.count
        (u.liftOpen = false → ¬opens → d.cal = { u with prevAngle := some theta })
          ∧ (u.liftOpen = false → opens → theta ≤ g.thetaE →
              d.cal = { u with prevAngle := some theta, points := fresh, liftOpen := true, refused := 0 })
          ∧ (u.liftOpen = false → opens → g.thetaE < theta →
              d.cal = { ended with refused := 0, lastRefused := some 0, outcome := some .incomplete })
          ∧ (u.liftOpen = true → g.thetaS ≤ theta → theta ≤ g.thetaE → d.cal = { u with prevAngle := some theta })
          ∧ (u.liftOpen = true → theta < g.thetaS →
              d.cal = { u with
                prevAngle := some theta, points := fresh, liftOpen := false, outcome := some .abandoned })
          ∧ (u.liftOpen = true → g.thetaE < theta → (∃ i : Fin 16, (u.points[i]).count < 2) →
              d.cal = { ended with outcome := some .incomplete })
          ∧ (u.liftOpen = true → g.thetaE < theta → (∀ i : Fin 16, 2 ≤ (u.points[i]).count) →
              (u.accepted = 0 → d.cal = { ended with accepted := 1, outcome := some .settling })
              ∧ (u.accepted ≠ 0 → u.state = .empty →
                  d.cal = { ended with
                    accepted := u.accepted + 1, outcome := some .kept, keptEmpty := u.keptEmpty ++ [values] })
              ∧ (u.accepted ≠ 0 → u.state = .loaded →
                  d.cal = { ended with
                    accepted := u.accepted + 1, outcome := some .kept, keptLoaded := u.keptLoaded ++ [values] })))
    ∧ ∀ r theta, src.toNat = s.chip.cfg.srcPressure → 6 ≤ data.length → nat8 data 5 = 0 → nat16 data 1 ≤ 40000 →
      nat16 data 3 ≤ 40000 → u.liftOpen = true → s.chip.inp.selected = some (r, theta) →
      Gives (.liftPressure src dst data) s fun d =>
        let seg := min 14 ((theta - g.thetaS) / g.step).toNat
        let rest := (theta - g.thetaS) - (seg : Int) * g.step
        let f := roundDiv (g.n * ((nat16 data 1 : Int) * g.ah - (nat16 data 3 : Int) * g.ar)) 100
        let passed := gate s.chip.cfg d.inp r s.chip.tick = none
        (theta < g.thetaS ∨ g.thetaE < theta → d.cal = u)
          ∧ (g.thetaS ≤ theta → theta ≤ g.thetaE → ¬passed → d.cal = { u with refused := min 65535 (u.refused + 1) })
          ∧ ∀ i : Fin 16, g.thetaS ≤ theta → theta ≤ g.thetaE → passed →
              i.val = (if 2 * rest < g.step then seg else seg + 1) →
              ((u.points[i]).count < 255 → d.cal = { u with
                points := u.points.set i ⟨(u.points[i]).sum + f, (u.points[i]).count + 1⟩ })
              ∧ (255 ≤ (u.points[i]).count → d.cal = { u with refused := min 65535 (u.refused + 1) })

/-! ## Keys and panel -/

/-- A changed key line starts its debounce timer, a return to the debounced level stops it, and unwatched lines move no timer
(R132). After 20 ms the key changes, and the decoder takes it by Table 8-3: a release frees the held key or, with every key
up, AWAIT RELEASE and CHORD; a press registers in READY alone and makes a CHORD of a hold. A press that registers in DOZE
enters PEEK, with the status OK (R147, R179; the COUNT item of the entry is log 25, the view timer of HISTORY log 52); one
that registers in PEEK restarts its timer and acts on the PEEK page alone (R147). -/
def Obligations.KeysAreDebounced : Prop :=
  ∀ (s : State) (k : Key),
    let c := s.chip
    let p := c.panel
    let watched := c.sup.life = .up ∧ (c.sup.power = .run ∨ c.sup.power = .peek
      ∨ c.sup.power = .doze ∧ c.cfg.keyWake = true)
    (∀ low, c.pins.keys.get k ≠ low →
      Gives (.keyLineChange k low) s fun d =>
        d.pins = { c.pins with keys := c.pins.keys.set k low }
          ∧ (watched → d.panel = { p with
              keys := p.keys.set k { p.keys.get k with
                timer := if (p.keys.get k).down = low then none else some c.tick } })
          ∧ (¬watched → d.panel = p) ∧ c.onlyChanges d [.pins, .panel])
    ∧ (¬watched → Gives (.keyDebounceExpiry k) s fun d => d = c)
    ∧ (watched → ranOut 20 (p.keys.get k).timer c.tick →
      let low := c.pins.keys.get k
      let keys := p.keys.set k ⟨low, none⟩
      let up := keys.mode.down = false ∧ keys.up.down = false ∧ keys.down.down = false ∧ keys.enter.down = false
      (low = false →
        Gives (.keyDebounceExpiry k) s fun d =>
          d.panel = { p with
              keys := keys
              decoder := match p.decoder with
                | .awaitRelease => if up then .ready else .awaitRelease
                | .ready => .ready
                | .held h => if h.key = k then .ready else .held h
                | .chord => if up then .ready else .chord }
            ∧ c.onlyChanges d [.link, .panel])
      ∧ (low = true → p.decoder ≠ .ready →
        Gives (.keyDebounceExpiry k) s fun d =>
          d.panel = { p with
              keys := keys
              decoder := match p.decoder with
                | .awaitRelease => .awaitRelease
                | .ready | .held _ | .chord => .chord }
            ∧ c.onlyChanges d [.link, .panel])
      ∧ (low = true → p.decoder = .ready → c.sup.power = .run →
        Gives (.keyDebounceExpiry k) s fun d =>
          (∃ h, d.panel.decoder = .held h ∧ h.key = k ∧ h.since = c.tick ∧ h.lastRepeat = none)
            ∧ d.panel.keys = keys ∧ d.panel.message = none ∧ d.pins = c.pins ∧ d.inp = c.inp ∧ d.eng = c.eng)
      ∧ (low = true → p.decoder = .ready → c.sup.power = .doze → c.sup.status = .ok →
        Gives (.keyDebounceExpiry k) s fun d =>
          d.sup = { c.sup with power := .peek, peekTimer := some c.tick }
            ∧ d.panel = { p with
                keys := keys, decoder := .awaitRelease, message := none, peekHistory := false, countItem := 1
                buz := Buzzer.silent, shadow := p.settings.day }
            ∧ d.maySend = false ∧ c.onlyChanges d [.sup, .link, .panel])
      ∧ (low = true → p.decoder = .ready → c.sup.power = .doze → c.sup.status = .low →
        Gives (.keyDebounceExpiry k) s fun d =>
          (∃ h, d.panel = { p with keys := keys, decoder := .held h, message := none } ∧ h.key = k ∧ h.since = c.tick)
            ∧ c.onlyChanges d [.link, .panel])
      ∧ (low = true → p.decoder = .ready → c.sup.power = .peek →
        Gives (.keyDebounceExpiry k) s fun d =>
          let seqs := c.load.history.map Summary.seq
          let stepped := decide (k = .up ∨ k = .down)
          d.sup = { c.sup with peekTimer := some c.tick }
            ∧ (∃ h, d.panel = { p with
                  keys := keys, decoder := .held h, message := none, peekHistory := d.panel.peekHistory
                  countItem := d.panel.countItem, histSel := d.panel.histSel, histSecond := d.panel.histSecond
                  histTimer := d.panel.histTimer }
                ∧ h.key = k ∧ h.since = c.tick)
            ∧ d.panel.peekHistory = (if k = .mode then !p.peekHistory else p.peekHistory)
            ∧ (p.peekHistory = true ∧ k ≠ .mode ∨ k = .enter → d.panel.countItem = p.countItem)
            ∧ (p.peekHistory = true → k = .mode → d.panel.countItem = 1)
            ∧ (p.peekHistory = false → k = .up → d.panel.countItem = if 7 ≤ p.countItem then 1 else p.countItem + 1)
            ∧ (p.peekHistory = false → k = .down → d.panel.countItem = if p.countItem ≤ 1 then 7 else p.countItem - 1)
            ∧ (p.peekHistory = false → k = .mode → d.panel.histSel = seqs.getLast? ∧ d.panel.histSecond = false
                ∧ d.panel.histTimer = some c.tick)
            ∧ (p.peekHistory = false ∧ k ≠ .mode ∨ p.peekHistory = true ∧ k = .mode →
                d.panel.histSel = p.histSel ∧ d.panel.histSecond = p.histSecond ∧ d.panel.histTimer = p.histTimer)
            ∧ (p.peekHistory = true → stepped = true → p.histSel = none → d.panel.histSel = seqs.getLast?)
            ∧ (p.peekHistory = true → k = .down → olderIn seqs p.histSel d.panel.histSel)
            ∧ (p.peekHistory = true → k = .up → newerIn seqs some p.histSel d.panel.histSel)
            ∧ (p.peekHistory = true → k = .enter → d.panel.histSel = seqs.getLast?)
            ∧ c.onlyChanges d [.sup, .link, .panel]))

/-- A press that registers in RUN (R136). ENTER with an alarm on the banner acknowledges that alarm and reaches no other
block (R128). Else, with calibration OUT: MODE steps the page (R137). ENTER on TRUCK, in manual mode and with the record its
own to close, closes it OPERATOR and opens the next manual truck (R76; its origin becomes OWN by log 46, its opening raises
the sequence once by log 37), and an ACTIVE part sends TRUCK CLOSED and TRUCK STATUS (R79, R70); on HISTORY it selects the
newest summary, on SETUP the next item (R139, R140), elsewhere nothing. UP and DOWN step the pass selection of TRUCK, the
item of COUNT and DIAG, the summary of HISTORY and the setting of SETUP (R138-R141; the blink at a limit is log 51). An entry
to HISTORY restarts its view timer (log 52). At an entry to COUNT a part in REPEAT asks the named station for its counters
and starts its poll timer, which stops on leaving COUNT (R86). -/
def Obligations.PressesAreRouted : Prop :=
  ∀ (s : State) (k : Key), s.chip.running → s.chip.panel.decoder = .ready → s.chip.pins.keys.get k = true →
    ranOut 20 (s.chip.panel.keys.get k).timer s.chip.tick →
    let c := s.chip
    let p := c.panel
    let seqs := c.load.history.map Summary.seq
    let wraps (hi n : Nat) := if k = .up then (if hi ≤ n then 1 else n + 1) else if n ≤ 1 then hi else n - 1
    let owns := c.role.state = .active ∨ c.role.state = .mute ∧ c.cfg.role = .weigher
    let shows (a : Alarm) := (c.alarm.get a).latch = true ∧ (c.alarm.get a).ack = false ∧ (c.alarm.get a).mask = false
    let passes := k = .enter ∧ (∀ a, ¬shows a) ∧ c.cal.state = .out
    let steps := (k = .up ∨ k = .down) ∧ c.cal.state = .out
    let held (long : Bool) (field : Option EditField) := Decoder.held ⟨k, c.tick, long, true, field, none⟩
    let pressed (long : Bool) : Panel :=
      { p with keys := p.keys.set k ⟨true, none⟩, decoder := held long none, message := none }
    (∀ a before after, k = .enter → Alarm.all = before ++ a :: after → shows a → (∀ b ∈ before, ¬shows b) →
      Gives (.keyDebounceExpiry k) s fun d =>
        let r := c.alarm.get a
        d.alarm.get a =
            (if r.mode = .held ∧ r.cond = true then { r with ack := true }
            else { r with latch := false, ack := false, maskTimer := none })
          ∧ c.onlyAlarm a d ∧ d.panel.page = p.page ∧ d.panel.settings = p.settings
          ∧ (∃ h, d.panel.decoder = .held h ∧ h.long = false) ∧ c.onlyChanges d [.link, .alarm, .panel])
    ∧ (k = .mode → c.cal.state = .out →
      Gives (.keyDebounceExpiry k) s fun d =>
        d.panel.page = (match p.page with
            | .run => .truck
            | .truck => .count
            | .count => .history
            | .history => .setup
            | .setup => .diag
            | .diag | .cal => .run)
          ∧ (d.panel.page = .truck → d.panel.truckSel = none) ∧ (d.panel.page = .count → d.panel.countItem = 1)
          ∧ (d.panel.page = .history → d.panel.histSel = seqs.getLast? ∧ d.panel.histSecond = false
              ∧ d.panel.histTimer = some c.tick)
          ∧ (d.panel.page = .setup → d.panel.setupItem = 1) ∧ d.panel.diagItem = p.diagItem
          ∧ d.panel.settings = p.settings ∧ (∃ h, d.panel.decoder = .held h ∧ h.long = true)
          ∧ (d.panel.page ≠ .count ∨ c.role.state ≠ .repeating → d.link = c.link.settle d.maySend
              ∧ d.load = { c.load with pollTimer := if p.page = .count then none else c.load.pollTimer })
          ∧ (d.panel.page = .count → c.role.state = .repeating →
              d.load = { c.load with pollTimer := some c.tick }
                ∧ d.link = (match c.role.named with
                    | none => c.link
                    | some n => c.link.joined ⟨.counterRequest, BitVec.ofNat 8 n, []⟩).settle d.maySend)
          ∧ c.onlyChanges d [.link, .load, .panel])
    ∧ (passes → p.page = .truck → c.cfg.srcTag = 0 → owns →
      Gives (.keyDebounceExpiry k) s fun d =>
        d.load.record.map (fun r => (r.id, r.target, r.passes, r.count, r.unweighed, r.total))
            = some (c.load.nextManual, if c.cfg.defaultTarget = 0 then none else some c.cfg.defaultTarget, [], 0, 0, 0)
          ∧ d.role = { c.role with mirrored := false }
          ∧ d.load.nextManual = (if 999 ≤ c.load.nextManual then 1 else c.load.nextManual + 1)
          ∧ (c.load.record = none → d.load.history = c.load.history ∧ d.load.shift = c.load.shift
              ∧ d.load.seq = c.load.seq + 1 ∧ d.link = d.sent c.link [])
          ∧ (∀ r, c.load.record = some r → d.load.seq = c.load.seq + 2
              ∧ d.link = d.sent c.link (closedTelegrams r .operator)
              ∧ (r.count = 0 → d.load.history = c.load.history ∧ d.load.shift = c.load.shift)
              ∧ (r.count ≠ 0 → d.load.history = c.ringWith r .operator
                  ∧ d.load.shift = { c.load.shift with trucks := min 65535 (c.load.shift.trucks + 1) }))
          ∧ d.load.life = c.load.life ∧ c.onlyChanges d [.link, .trk, .load, .role, .alarm, .panel])
    ∧ (passes → p.page = .truck ∧ (c.cfg.srcTag ≠ 0 ∨ ¬owns) ∨ p.page = .run ∨ p.page = .count ∨ p.page = .diag →
      Gives (.keyDebounceExpiry k) s fun d => d.panel = pressed true ∧ c.onlyChanges d [.link, .panel])
    ∧ (passes → p.page = .history →
      Gives (.keyDebounceExpiry k) s fun d =>
        d.panel = { pressed true with
            histSel := seqs.getLast?, histSecond := d.panel.histSecond, histTimer := d.panel.histTimer }
          ∧ (d.panel.histSel ≠ p.histSel → d.panel.histSecond = false ∧ d.panel.histTimer = some c.tick)
          ∧ (d.panel.histSel = p.histSel → d.panel.histSecond = p.histSecond ∧ d.panel.histTimer = p.histTimer)
          ∧ c.onlyChanges d [.link, .panel])
    ∧ (passes → p.page = .setup →
      Gives (.keyDebounceExpiry k) s fun d =>
        d.panel = { pressed true with setupItem := if 5 ≤ p.setupItem then 1 else p.setupItem + 1 }
          ∧ c.onlyChanges d [.link, .panel])
    ∧ (steps → p.page = .run →
      Gives (.keyDebounceExpiry k) s fun d => d.panel = pressed false ∧ c.onlyChanges d [.link, .panel])
    ∧ (steps → p.page = .truck →
      Gives (.keyDebounceExpiry k) s fun d =>
        let listed := match c.load.record with
          | none => []
          | some r => numbers r.passes
        d.panel = { pressed false with truckSel := d.panel.truckSel }
          ∧ (k = .down → olderIn listed p.truckSel d.panel.truckSel)
          ∧ (k = .up → newerIn listed (fun _ => none) p.truckSel d.panel.truckSel
              ∧ (p.truckSel = none → d.panel.truckSel = none))
          ∧ c.onlyChanges d [.link, .panel])
    ∧ (steps → p.page = .count →
      Gives (.keyDebounceExpiry k) s fun d =>
        d.panel = { pressed false with countItem := wraps 7 p.countItem } ∧ c.onlyChanges d [.link, .panel])
    ∧ (steps → p.page = .history →
      Gives (.keyDebounceExpiry k) s fun d =>
        d.panel = { pressed false with
            histSel := d.panel.histSel, histSecond := d.panel.histSecond, histTimer := d.panel.histTimer }
          ∧ (p.histSel = none → d.panel.histSel = seqs.getLast?)
          ∧ (k = .down → olderIn seqs p.histSel d.panel.histSel)
          ∧ (k = .up → newerIn seqs some p.histSel d.panel.histSel)
          ∧ (d.panel.histSel ≠ p.histSel → d.panel.histSecond = false ∧ d.panel.histTimer = some c.tick)
          ∧ (d.panel.histSel = p.histSel → d.panel.histSecond = p.histSecond ∧ d.panel.histTimer = p.histTimer)
          ∧ c.onlyChanges d [.link, .panel])
    ∧ (steps → p.page = .setup →
      Gives (.keyDebounceExpiry k) s fun d =>
        c.setupStepped d (decide (k = .up)) ∧ d.panel.decoder = held false (some .setup)
          ∧ d.panel.keys = p.keys.set k ⟨true, none⟩ ∧ d.panel.message = none ∧ d.panel.page = .setup
          ∧ d.panel.setupItem = p.setupItem)
    ∧ (steps → p.page = .diag →
      Gives (.keyDebounceExpiry k) s fun d =>
        d.panel = { pressed false with diagItem := wraps 52 p.diagItem } ∧ c.onlyChanges d [.link, .panel])

/-- LONG_PRESS in RUN, 3000 ms into a hold that has one to come (R135). ENTER on COUNT resets the shift of a WEIGHER and asks
for a RETAIN save with its role (R82); on TRUCK it closes an own record OPERATOR and refuses its tag (R77), and an ACTIVE
part sends TRUCK CLOSED and TRUCK STATUS (R79, R70). MODE enters calibration (R89, R90): the
part takes CALIBRATING, its WEIGHER STATUS written at once, the pairing list empty, the note discarded, and leaving ACTIVE
its refresh timer stopped and its TRUCK STATUS slot empty (R120). Refused, it shows CAL BUSY. The other long presses of Table
8-4 do nothing, nor do ENTER's during a calibration and MODE's of a press that left one (R136, R89). The hold gives no second
one. That the save holds the kept page is log 47. -/
def Obligations.LongPressesAreDelivered : Prop :=
  ∀ (s : State) (h : Hold), s.chip.running → s.chip.panel.decoder = .held h → h.long = true →
    3000 ≤ age s.chip.tick h.since →
    let c := s.chip
    let enters := c.cal.state = .out ∧ c.trk.cycle = .idle ∧ c.cfg.role = .weigher
      ∧ (c.role.state = .active ∨ c.role.state = .standby) ∧ c.store.window = none
    Gives .longPress s fun d =>
      d.panel.decoder = .held { h with long := false }
        ∧ (h.key = .enter → c.cal.state = .out → c.panel.page = .count → c.cfg.role = .weigher →
            c.role.state ≠ .calibrating →
            let saved : Retained :=
              ⟨ShiftCounters.zero, c.load.life, c.load.record, c.load.seq, c.load.nextManual, c.load.history,
                c.load.nextHist, c.panel.settings, c.role.state, c.panel.keptPage⟩
            d.load = { c.load with shift := ShiftCounters.zero }
              ∧ (c.store.writing.isSome = true → d.store = { c.store with reqRetain := some saved })
              ∧ (c.store.writing = none →
                  d.store = { c.store with writing := some (.retain saved, c.tick), reqRetain := none })
              ∧ c.onlyChanges d [.link, .load, .panel, .store])
        ∧ (h.key = .enter → c.panel.page = .count → c.cfg.role = .repeater → c.onlyChanges d [.link, .panel])
        ∧ (∀ r, h.key = .enter → c.cal.state = .out → c.panel.page = .truck → c.load.record = some r →
            (c.role.state = .active ∨ c.role.state = .mute ∧ c.cfg.role = .weigher) →
            d.load.record = none ∧ d.load.seq = c.load.seq + 1
              ∧ d.link = d.sent c.link (closedTelegrams r .operator) ∧ d.trk.note = none
              ∧ d.load.refused = (if c.cfg.srcTag ≠ 0 ∧ r.id ≠ 0 then some r.id else c.load.refused)
              ∧ (r.count = 0 → d.load.history = c.load.history ∧ d.load.shift = c.load.shift)
              ∧ (r.count ≠ 0 → d.load.history = c.ringWith r .operator
                  ∧ d.load.shift = { c.load.shift with trucks := min 65535 (c.load.shift.trucks + 1) })
              ∧ c.onlyChanges d [.link, .trk, .load, .alarm, .panel])
        ∧ (h.key = .mode → h.calWasOut = true → enters →
            d.cal.state = .select ∧ d.cal.target = c.panel.settings.curveSet
              ∧ d.cal.mass = (if (c.store.curves[c.panel.settings.curveSet]).valid then
                  (c.store.curves[c.panel.settings.curveSet]).mref else 1000)
              ∧ d.cal.onMass = false ∧ d.cal.geom = none ∧ d.cal.accepted = 0 ∧ d.cal.failure = none
              ∧ d.cal.prevAngle = c.inp.held.primary ∧ d.panel.page = .cal
              ∧ d.role = { c.role with
                  state := .calibrating, pairing := [], behind := false, noWeigher := false, listen := none
                  status := some c.tick }
              ∧ d.statusWritten ∧ d.link.queue = c.link.queue
              ∧ (c.role.state = .active → d.link.tslot = none)
              ∧ d.load = { c.load with refreshTimer := none, pollTimer := none }
              ∧ d.trk = { c.trk.without with cycle := .suspended, racked := false, suspCal := true, note := none }
              ∧ c.onlyChanges d [.link, .trk, .load, .role, .cal, .panel])
        ∧ (h.key = .mode → h.calWasOut = true → ¬enters →
            d.panel.message = some c.tick ∧ c.onlyChanges d [.link, .panel])
        ∧ (h.key = .up ∨ h.key = .down ∨ h.key = .mode ∧ h.calWasOut = false ∨ h.key = .enter ∧ c.cal.state ≠ .out
              ∨ h.key = .enter ∧ c.panel.page ≠ .truck ∧ c.panel.page ≠ .count
              ∨ h.key = .enter ∧ c.panel.page = .truck ∧ (c.load.record = none ∨ ¬c.owns) →
            d.panel = { c.panel with decoder := .held { h with long := false } } ∧ d.link = c.link.settle d.maySend
              ∧ c.onlyChanges d [.link, .panel])

/-- REPEAT_STEP in RUN, 600 ms into a hold on an edited value and every 150 ms after (R134): the setting of the SETUP item
shown moves by one towards the key, held at the limits of Table 8-8 (R140), and so does the SET or the MASS field of
CAL-SELECT at those of Table 5-4 (R91). -/
def Obligations.RepeatStepsTheSetting : Prop :=
  ∀ (s : State) (h : Hold), s.chip.running → s.chip.panel.decoder = .held h →
    (h.lastRepeat = none ∧ 600 ≤ age s.chip.tick h.since ∨ ∃ t, h.lastRepeat = some t ∧ 150 ≤ age s.chip.tick t) →
    let kept (d : Chip) := d.panel.decoder = .held { h with lastRepeat := some s.chip.tick }
      ∧ d.panel.keys = s.chip.panel.keys ∧ d.panel.page = s.chip.panel.page
      ∧ d.panel.setupItem = s.chip.panel.setupItem
    (h.field = some .setup → s.chip.panel.page = .setup →
      Gives .repeatStep s fun d =>
        kept d ∧ s.chip.setupStepped d (decide (h.key = .up)) ∧ s.chip.onlyChanges d [.alarm, .panel])
    ∧ (h.field = some .calSet ∧ s.chip.cal.onMass = false ∨ h.field = some .calMass ∧ s.chip.cal.onMass = true →
      s.chip.cal.state = .select →
      Gives .repeatStep s fun d =>
        kept d ∧ s.chip.calStepped d (decide (h.key = .up)) ∧ s.chip.onlyChanges d [.cal, .panel])

/-- The panel's timers while the part runs: every 50 ms a 16-byte frame goes out, blank in HOLD and DOZE, and in RUN and PEEK
it shows the page's fields, bargraph and annunciators, with the banner's legend in place of the counter field (R127,
R138-R143, 12.7; where the spec gives no figure the fields are the model's choice, logs 8, 23, 24, 45, 53, 54); the blink
half changes every 250 ms, the history view every 2000 ms (R139), CAL BUSY ends after 2000 ms (R142), and every 5 ms BKL
takes its level from the shadow, or stays low in HOLD and DOZE (R144). Each changes its own items alone. -/
def Obligations.PanelTimersRun : Prop :=
  ∀ s : State, s.chip.sup.life = .up →
    let p := s.chip.panel
    let dark := s.chip.sup.power = .hold ∨ s.chip.sup.power = .doze
    (ranOut 50 p.frameTimer s.chip.tick →
      Gives .frameTimer s fun d =>
        d = { s.chip with panel := { p with frame := d.panel.frame, frameTimer := some s.chip.tick } }
          ∧ d.panel.frame.length = 16 ∧ (dark → d.panel.frame = List.replicate 16 0)
          ∧ (¬dark → s.chip.frameShows d.panel.frame))
    ∧ (ranOut 250 p.blinkTimer s.chip.tick →
      Gives .blinkTimer s fun d =>
        d = { s.chip with panel := { p with blinkBlank := !p.blinkBlank, blinkTimer := some s.chip.tick } })
    ∧ (ranOut 2000 p.histTimer s.chip.tick →
      Gives .historyViewTimer s fun d =>
        d = { s.chip with panel := { p with histSecond := !p.histSecond, histTimer := some s.chip.tick } })
    ∧ (ranOut 2000 p.message s.chip.tick →
      Gives .messageTimer s fun d => d = { s.chip with panel := { p with message := none } })
    ∧ (ranOut 5 p.bklTimer s.chip.tick →
      Gives .bklPeriodStart s fun d =>
        d = { s.chip with panel := { p with
                bklLevel := if dark then 0 else p.shadow, bklTimer := some s.chip.tick } })

/-- BUZZER_PHASE_END, when the sounding phase has run its length (R145, R146): the next phase starts, a TRILL goes round, a
DOUBLE or LONG that ends leaves the alarm slot, an event pattern that ends leaves the queue, and the next pattern of the
queue starts at the volume then set. -/
def Obligations.BuzzerPhasesFollow : Prop :=
  ∀ (s : State) (y : Play), s.chip.sup.life = .up → s.chip.panel.buz.play = some y →
    let b := s.chip.panel.buz
    let now := s.chip.tick
    let next (q : List Pattern) : Buzzer := ⟨none, q, if q = [] then none else some ⟨0, now, s.chip.panel.settings.volume⟩⟩
    let after (b' : Buzzer) := Gives .buzzerPhaseEnd s fun d =>
      d = { s.chip with panel := { s.chip.panel with buz := b' } }
    let step (n : Nat) : Buzzer := { b with play := some { y with phase := n, since := now } }
    (b.slot = some .trill → 250 ≤ age now y.since → (y.phase = 0 → after (step 1)) ∧ (y.phase = 1 → after (step 0)))
    ∧ (b.slot = some .double → 100 ≤ age now y.since →
        (y.phase = 0 → after (step 1)) ∧ (y.phase = 1 → after (step 2)) ∧ (y.phase = 2 → after (next b.queue)))
    ∧ (b.slot = some .long → 1000 ≤ age now y.since → y.phase = 0 → after (next b.queue))
    ∧ (∀ q, b.slot = none → b.queue = .double :: q → 100 ≤ age now y.since →
        (y.phase = 0 → after (step 1)) ∧ (y.phase = 1 → after (step 2)) ∧ (y.phase = 2 → after (next q)))
    ∧ (∀ q, b.slot = none → b.queue = .beep :: q → 100 ≤ age now y.since → y.phase = 0 → after (next q))

/-! ## The parameter store -/

/-- In RUN, a CONFIG_WRITE addressed to this station is taken by the rows of Table 10-4 in order (R171), and answered: after
the lockout not at all, CLOSED without a start window, CODE for a wrong unlock code, with the lockout at the third, ITEM,
RANGE, and OK with the item written into the working configuration and every other item as it was. A MUTE part takes it, its
answer discarded (R155, R170). -/
def Obligations.ConfigWriteIsChecked : Prop :=
  ∀ (s : State) (src dst : Byte) (data : List Byte), s.chip.Hears src dst data → dst ≠ 0 → 9 ≤ data.length →
    Gives (.configWrite src dst data) s fun d =>
      let p := s.chip.store
      let item := nat8 data 0
      let v : Int := if item ≠ 44 ∧ 2147483648 ≤ nat32 data 1 then nat32 data 1 - 4294967296 else nat32 data 1
      let right := BitVec.ofNat 32 (nat32 data 5) = p.cfg.unlock
      let answered (answer : Byte) := s.chip.configAnswered d src (byteAt data 0) answer
      (p.lockout = true → s.chip.onlyHeard d ∧ d.store = p)
        ∧ (p.lockout = false → p.window = none → answered 1 ∧ d.store = p)
        ∧ (p.lockout = false → p.window.isSome = true → ¬right → answered 2 ∧ d.store = p.codeRefused)
        ∧ (p.lockout = false → p.window.isSome = true → right → itemRange item = none → answered 3 ∧ d.store = p)
        ∧ (p.lockout = false → p.window.isSome = true → right → (itemRange item).isSome = true → ¬itemTakes item v →
            answered 4 ∧ d.store = p)
        ∧ (p.lockout = false → p.window.isSome = true → right → itemTakes item v →
            answered 0 ∧ d.store = { p with work := d.store.work } ∧ d.store.work.itemValue item = v
              ∧ ∀ j, j ≠ item → d.store.work.itemValue j = p.work.itemValue j)
        ∧ s.chip.onlyChanges d [.link, .store]

/-- A CONFIG_COMMIT is taken by the lockout, window and code rows of Table 10-4: ignored, answered CLOSED, or answered CODE
with the wrong code counted and the lockout at the third, item 0 (R172). One that passes them asks for a CONFIG write of the
working configuration, and is owed an answer: at the completion of a CONFIG write every requester owed one receives OK, but
those of a pending request that has replaced an earlier one, which wait for the write that carries it (R172, log 38).
STORE_WRITE_COMPLETE, after 10, 25 or 80 ms, puts the contents into the array and starts the next waiting request in the
order RETAIN, CURVE, CONFIG (R165); a CURVE write gives the set its new working copy. Outside RUN a calibration in
CAL-WRITING then passes to OUT, with LISTEN as the resume role but of a MUTE part, the CAL reason gone and the kept page RUN
(R102; in PEEK so too by log 56). While RESET holds the part only the array changes (R168), and the next request is not
started (log 21). -/
def Obligations.StoreWritesInTurn : Prop :=
  ∀ s : State,
    let p := s.chip.store
    let now := s.chip.tick
    (∀ (src dst : Byte) (data : List Byte), s.chip.Hears src dst data → dst ≠ 0 → 4 ≤ data.length →
      Gives (.configCommit src dst data) s fun d =>
        let right := BitVec.ofNat 32 (nat32 data 0) = p.cfg.unlock
        (p.lockout = true → s.chip.onlyHeard d ∧ d.store = p)
          ∧ (p.lockout = false → p.window = none → s.chip.configAnswered d src 0 1 ∧ d.store = p)
          ∧ (p.lockout = false → p.window.isSome = true → ¬right →
              s.chip.configAnswered d src 0 2 ∧ d.store = p.codeRefused)
          ∧ (p.lockout = false → p.window.isSome = true → right → s.chip.onlyHeard d
              ∧ (p.writing.isSome = true →
                  d.store = { p with
                    owedNext := p.owedNext ++ [src], reqConfig := some p.work, replaced := p.reqConfig.isSome })
              ∧ (p.writing = none → p.reqRetain = none → p.reqCurve = none →
                  d.store = { p with
                    owed := p.owed ++ (p.owedNext ++ [src]), owedNext := [], writing := some (.config p.work, now)
                    reqConfig := none, replaced := false }))
          ∧ s.chip.onlyChanges d [.link, .store])
    ∧ (∀ w since, p.writing = some (w, since) →
        (match w with
          | .config _ => 10
          | .curve _ _ => 25
          | .retain _ => 80) ≤ age now since →
        let array : StoreArray := match w with
          | .config x => { p.array with config := some x }
          | .curve i x => { p.array with curves := p.array.curves.set i ⟨x, true⟩ }
          | .retain x => { p.array with retained := some x }
        let left : List Byte := match w with
          | .config _ => []
          | .curve _ _ | .retain _ => p.owed
        let waits : List Byte := match w with
          | .config _ => if p.replaced then p.owedNext else []
          | .curve _ _ | .retain _ => p.owedNext
        let answered := if p.replaced then p.owed else p.owed ++ p.owedNext
        (s.chip.sup.life = .up →
          Gives .storeWriteComplete s fun d =>
            d.store.array = array
              ∧ (∀ r, p.reqRetain = some r → d.store.writing = some (.retain r, now) ∧ d.store.reqRetain = none
                  ∧ d.store.reqCurve = p.reqCurve ∧ d.store.reqConfig = p.reqConfig)
              ∧ (∀ i x, p.reqRetain = none → p.reqCurve = some (i, x) →
                  d.store.writing = some (.curve i x, now) ∧ d.store.reqCurve = none
                    ∧ d.store.reqConfig = p.reqConfig)
              ∧ (∀ x, p.reqRetain = none → p.reqCurve = none → p.reqConfig = some x →
                  d.store.writing = some (.config x, now) ∧ d.store.reqConfig = none ∧ d.store.owedNext = []
                    ∧ d.store.owed = left ++ waits ∧ d.store.replaced = false)
              ∧ (p.reqRetain.isSome = true ∨ p.reqCurve.isSome = true ∨ p.reqConfig = none →
                  d.store.owedNext = waits ∧ d.store.owed = left ∧ d.store.replaced = p.replaced)
              ∧ (p.reqRetain = none → p.reqCurve = none → p.reqConfig = none → d.store.writing = none)
              ∧ d.store.cfg = p.cfg ∧ d.store.work = p.work ∧ d.store.window = p.window
              ∧ (∀ x, w = .config x →
                  (s.chip.sup.power = .run → s.chip.role.state ≠ .mute →
                      s.chip.link.queue.length + answered.length ≤ 8 →
                      d.link.queue = s.chip.link.queue ++ answered.map fun src => ⟨.configStatus, src, [0, 0]⟩)
                  ∧ s.chip.onlyChanges d [.link, .store])
              ∧ (∀ i x, w = .curve i x → d.store.curves = p.curves.set i x
                  ∧ (s.chip.sup.power = .run → s.chip.cal.state = .writing → d.cal.state = .done)
                  ∧ (s.chip.sup.power = .run → s.chip.onlyChanges d [.link, .cal, .alarm, .panel, .store])
                  ∧ (s.chip.sup.power ≠ .run → s.chip.cal.state ≠ .writing → s.chip.onlyChanges d [.link, .store])
                  ∧ (s.chip.sup.power ≠ .run → s.chip.cal.state = .writing → s.chip.trk.suspPower = true →
                      d.cal = { s.chip.cal with state := .out, liftOpen := false }
                        ∧ d.role = { s.chip.role with
                            resumeRole := if s.chip.role.resumeRole = .mute then .mute else .listen }
                        ∧ d.trk = { s.chip.trk with suspCal := false }
                        ∧ d.panel = { s.chip.panel with keptPage := .run }
                        ∧ s.chip.onlyChanges d [.link, .trk, .role, .cal, .panel, .store]))
              ∧ (∀ x, w = .retain x → s.chip.onlyChanges d [.link, .store]))
        ∧ (s.chip.sup.life ≠ .up →
          Gives .storeWriteComplete s fun d =>
            d = { s.chip with store := { p with array := array, writing := none } }))

/-- START_WINDOW_END, 3000 ms after the window opened (R170): the working configuration comes into force; a channel whose
source changed starts ABSENT with no value held, its marks clear, its stale timer stopped and its loss timer started (R64),
and an input-loss timer with it in WEIGH and CARRY (R40); the selection leaves it, the boom rate dropped, and selection and
DISAGREE are made again (R58, R59; in every power state by log 43). A change between tag and manual mode forgets the refused
identity (R72). The record of the part's own is evaluated under the new figures, the sequence raised once where a flag
changes (R71, R67), and an ACTIVE part then writes the TRUCK STATUS slot (R70). The alarms take their modes and masks, in
RUN with what R125 makes of their latches, acknowledgements and mask timers, and then hold their conditions (log 41);
outside RUN nothing else of them changes (R170). A changed role settles afresh in RUN, but not from MUTE, and outside RUN
rewrites the resume role (R120). A change to REPEATER in RUN voids a pass in LIFT, WEIGH or CARRY as RESTART, its window
shut, discards one in FILL, and leaves the tracker in IDLE (R120, R47); with the COUNT page shown its poll timer starts
(R86). History and counters stand. A secondary channel whose source stands keeps its record also where the primary takes
that source (log 42). -/
def Obligations.WindowEndBringsTheConfiguration : Prop :=
  ∀ s : State, s.chip.sup.life = .up → ranOut 3000 s.chip.store.window s.chip.tick →
    Gives .startWindowEnd s fun d =>
      let c := s.chip
      let old := c.store.cfg
      let new := c.store.work
      let flying := c.trk.cycle = .lift ∨ c.trk.cycle = .weigh ∨ c.trk.cycle = .carry
      let note := if c.role.state = .mute then c.trk.note else none
      let reset := ∃ a, c.inp.sel = some a ∧ old.source a.chan ≠ new.source a.chan
      d.store = { c.store with cfg := new, window := none }
        ∧ (∀ i, old.source i ≠ new.source i → d.inp.chan i = { c.inp.chan i with
              freshness := .absent, latestTick := none, latestStatus := none, overRange := ⟨false, false, false⟩
              prevSeq := none, staleTimer := none
              loss := if c.sup.power = .run then .running c.tick else .stopped }
            ∧ d.inp.held.agree HeldValues.none i)
        ∧ (∀ i, old.source i = new.source i → d.inp.chan i = c.inp.chan i ∧ d.inp.held.agree c.inp.held i)
        ∧ (d.inp.primary.freshness = .fresh → d.inp.sel = some .primary)
        ∧ (d.inp.primary.freshness ≠ .fresh → d.inp.secondary.freshness = .fresh → d.inp.sel = some .secondary)
        ∧ (d.inp.primary.freshness ≠ .fresh → d.inp.secondary.freshness ≠ .fresh →
            d.inp.sel = (if c.inp.sel.isSome = true ∧ ¬reset then c.inp.sel
              else if d.inp.held.primary.isSome = true then some .primary
              else if d.inp.held.secondary.isSome = true then some .secondary
              else none))
        ∧ (d.inp.disagree = true ↔
            d.inp.primary.freshness = .fresh ∧ d.inp.secondary.freshness = .fresh
              ∧ ∃ p q, d.inp.held.primary = some p ∧ d.inp.held.secondary = some q
                  ∧ new.disagreeLimit < (p - q).natAbs)
        ∧ (reset ∨ d.inp.sel ≠ c.inp.sel → d.inp.omega = none ∧ d.inp.rateMem = none)
        ∧ (¬reset → d.inp.sel = c.inp.sel → d.inp.omega = c.inp.omega ∧ d.inp.rateMem = c.inp.rateMem)
        ∧ d.load.refused = (if old.srcTag = 0 ↔ new.srcTag = 0 then c.load.refused else none)
        ∧ (∀ r, c.load.record = some r → d.role.mirrored = false → ∃ r', d.load.record = some r' ∧ d.flagged r.flags r'
            ∧ (r'.id, r'.target, r'.passes, r'.count, r'.unweighed, r'.total)
                = (r.id, r.target, r.passes, r.count, r.unweighed, r.total)
            ∧ d.load.seq = (if r' = r then c.load.seq else c.load.seq + 1))
        ∧ (c.load.record = none ∨ d.role.mirrored = true → d.load.record = c.load.record ∧ d.load.seq = c.load.seq)
        ∧ (c.sup.power = .run → old.role = new.role →
            d.link = (if d.load.seq = c.load.seq then c.link.settle d.maySend else d.sent c.link []))
        ∧ (∀ a, (d.alarm.get a).mode = new.alarmMode a ∧ (d.alarm.get a).mask = new.alarmMask a)
        ∧ (c.sup.power = .run → ∀ a, d.alarm.get a =
            ((c.alarm.get a).reconfigured (new.alarmMode a) (new.alarmMask a) c.tick).handed (d.cond a) c.tick)
        ∧ (c.sup.power ≠ .run → ∀ a, d.alarm.get a =
            { c.alarm.get a with mode := new.alarmMode a, mask := new.alarmMask a })
        ∧ (old.role = new.role → d.role = c.role)
        ∧ (c.sup.power = .run → c.role.state = .mute → d.role.state = .mute)
        ∧ (c.sup.power = .run → old.role ≠ new.role → c.role.state ≠ .mute → new.role = .weigher →
            d.role.state = .listen ∧ d.role.listen = some c.tick ∧ d.role.named = none)
        ∧ (c.sup.power = .run → old.role ≠ new.role → c.role.state ≠ .mute → new.role = .repeater →
            d.role.state = .repeating ∧ d.role.watch = some c.tick ∧ d.role.mirrored = true
              ∧ d.load.pollTimer = (if c.panel.page = .count then some c.tick else none))
        ∧ (c.sup.power = .run → old.role ≠ new.role → new.role = .repeater →
            let voids := if flying then { c.trk.voids with restart := min 65535 (c.trk.voids.restart + 1) } else c.trk.voids
            d.eng = (if c.trk.cycle = .weigh then { c.eng with isOpen := false } else c.eng)
              ∧ (c.trk.cycle ≠ .suspended →
                  d.trk = { c.trk.without with cycle := .idle, racked := false, voids := voids, note := note })
              ∧ (c.trk.cycle = .suspended → d.trk = d.lossTimed { c.trk with note := note }))
        ∧ (c.sup.power = .run → old.role ≠ new.role → new.role = .weigher →
            d.trk = d.lossTimed { c.trk with note := note } ∧ d.eng = c.eng)
        ∧ (old.role = new.role ∨ c.sup.power ≠ .run → d.trk = d.lossTimed c.trk ∧ d.eng = c.eng)
        ∧ (c.sup.power ≠ .run → old.role ≠ new.role → c.role.resumeRole ≠ .mute →
            d.role.resumeRole = (if new.role = .weigher then .listen else .repeating)
              ∧ d.role.state = c.role.state)
        ∧ d.load.history = c.load.history ∧ d.load.shift = c.load.shift ∧ d.load.life = c.load.life
        ∧ d.panel.settings = c.panel.settings ∧ d.panel.page = c.panel.page
        ∧ c.onlyChanges d [.link, .inp, .eng, .trk, .load, .role, .alarm, .panel, .store]

/-! ## Supply, ignition, starts -/

/-- A supply below 16.0 V makes the status LOW and takes RUN to HOLD (R174, R177). IGN held low 500 ms turns the ignition off
and takes RUN to DOZE (R175, R177), as does an ignition found off at the end of a start (R176). A changed IGN level starts
the debounce timer, a return stops it; LOW in HOLD and DOZE moves no state, and in PEEK it returns the part to DOZE with the
kept page as it was (R179), its resume role too (log 33). An ignition test still owed at the end of a start lapses with RUN
(log 36). That the save at the entry holds the kept page is log 47, that the key decoder stands in AWAIT RELEASE in HOLD log
55. -/
def Obligations.RunIsLeftForHoldOrDoze : Prop :=
  ∀ s : State, s.chip.sup.life = .up →
    (∀ volts, volts < 160 → s.chip.sup.status = .ok →
      (s.chip.sup.power = .run →
        Gives (.supplyFallsLow volts) s fun d =>
          s.chip.leftRun d .hold ∧ d.sup.status = .low ∧ d.sup.ignition = s.chip.sup.ignition
            ∧ d.pins.vsense = volts ∧ d.panel.decoder = .awaitRelease)
      ∧ (s.chip.sup.power = .hold ∨ s.chip.sup.power = .doze →
        Gives (.supplyFallsLow volts) s fun d =>
          d = { s.chip with
            pins := { s.chip.pins with vsense := volts }, sup := { s.chip.sup with status := .low } })
      ∧ (s.chip.sup.power = .peek →
        Gives (.supplyFallsLow volts) s fun d =>
          d.pins = { s.chip.pins with vsense := volts }
            ∧ d.sup = { s.chip.sup with power := .doze, status := .low, peekTimer := none }
            ∧ d.panel.keptPage = s.chip.panel.keptPage ∧ d.panel.settings = s.chip.panel.settings
            ∧ d.panel.bklLevel = 0 ∧ d.panel.buz = Buzzer.silent ∧ d.link.queue = s.chip.link.queue
            ∧ d.maySend = true ∧ s.chip.onlyChanges d [.pins, .sup, .link, .panel]))
    ∧ (∀ high, s.chip.pins.ign ≠ high →
      Gives (.ignLineChange high) s fun d =>
        d = { s.chip with
          pins := { s.chip.pins with ign := high }
          sup := { s.chip.sup with
            ignTimer := if high = s.chip.sup.ignition then none else some s.chip.tick } })
    ∧ (s.chip.sup.power = .run → s.chip.pins.ign = false → ranOut 500 s.chip.sup.ignTimer s.chip.tick →
      Gives .ignitionChange s fun d =>
        s.chip.leftRun d .doze ∧ d.sup.ignition = false ∧ d.sup.ignTimer = none
          ∧ d.sup.status = s.chip.sup.status ∧ d.pins = s.chip.pins)
    ∧ (s.chip.sup.power = .run → s.chip.sup.offAfterStart = true →
      Gives .ignitionOffAfterStart s fun d =>
        s.chip.leftRun d .doze ∧ d.sup.ignition = s.chip.sup.ignition ∧ d.sup.status = s.chip.sup.status
          ∧ d.pins = s.chip.pins)

/-- The part resumes at the rise of the supply above 18.0 V in HOLD with the ignition on, and at the ignition coming on in
DOZE or PEEK (R178, R179); with it off HOLD becomes DOZE without a save. In RUN that rise ends the LOW SUPPLY condition
(R122), in DOZE and PEEK it moves no state. In HOLD an ignition change moves no state. PEEK ends in DOZE at 30000 ms, its
kept page as it was. HOLD to DOZE and PEEK to DOZE leave the resume role as it was written on leaving RUN (log 33). The pins
take the strap operands of the rise whether or not a start is made (log 28). -/
def Obligations.LowPowerIsLeft : Prop :=
  ∀ s : State, s.chip.sup.life = .up →
    (∀ volts straps, 180 < volts → s.chip.sup.status = .low → s.chip.sup.power = .hold →
      Gives (.supplyRisesOk volts straps) s fun d =>
        d.sup.status = .ok ∧ d.pins.vsense = volts
          ∧ (s.chip.sup.ignition = true → s.chip.resumed d)
          ∧ (s.chip.sup.ignition = false → d.sup.power = .doze ∧ d.store = s.chip.store ∧ d.role = s.chip.role
              ∧ d.link.rx = (if s.chip.cfg.busWake = true then .skip else .off) ∧ d.link.queue = []
              ∧ s.chip.onlyChanges d [.pins, .sup, .link, .panel]))
    ∧ (∀ (volts : Nat) (straps : Straps), 180 < volts → s.chip.sup.status = .low →
      let pins : Pins := { s.chip.pins with vsense := volts, stn := straps.stn, rateClosed := straps.rateClosed }
      (s.chip.sup.power = .run →
        Gives (.supplyRisesOk volts straps) s fun d =>
          d.pins = pins ∧ d.sup = { s.chip.sup with status := .ok } ∧ (d.alarm.get .lowSupply).cond = false
            ∧ s.chip.onlyAlarm .lowSupply d ∧ s.chip.onlyBuzzer d ∧ s.chip.onlyChanges d [.pins, .sup, .alarm, .panel])
      ∧ (s.chip.sup.power = .doze ∨ s.chip.sup.power = .peek →
        Gives (.supplyRisesOk volts straps) s fun d =>
          d = { s.chip with pins := pins, sup := { s.chip.sup with status := .ok } }))
    ∧ (s.chip.sup.power = .doze ∨ s.chip.sup.power = .peek → s.chip.pins.ign = true →
      ranOut 500 s.chip.sup.ignTimer s.chip.tick →
      Gives .ignitionChange s fun d => s.chip.resumed d ∧ d.sup.ignition = true ∧ d.pins = s.chip.pins)
    ∧ (s.chip.sup.power = .hold → ranOut 500 s.chip.sup.ignTimer s.chip.tick →
      Gives .ignitionChange s fun d =>
        d.sup = { s.chip.sup with
            ignition := s.chip.pins.ign, ignTimer := none, offAfterStart := d.sup.offAfterStart }
          ∧ s.chip.onlyChanges d [.sup])
    ∧ (s.chip.sup.power = .peek → ranOut 30000 s.chip.sup.peekTimer s.chip.tick →
      Gives .peekTimerExpiry s fun d =>
        d.sup = { s.chip.sup with power := .doze, peekTimer := none } ∧ d.panel.keptPage = s.chip.panel.keptPage
          ∧ d.panel.bklLevel = 0 ∧ d.panel.buz = Buzzer.silent ∧ d.link.queue = s.chip.link.queue
          ∧ s.chip.onlyChanges d [.sup, .link, .panel])

/-- RESET asserted holds the part: it drives and takes nothing (R176, R148), and no command but the lines, the supply, the
ignition and a store write reaches it. At the release the part makes a LINE start with the status OK, a store write in
progress taken as complete (log 21); with it LOW the start is pending, and is made when the supply rises above 18.0 V. The
pins take the strap operands of the release though no start is made yet (log 28). -/
def Obligations.ResetLineHoldsThePart : Prop :=
  ∀ s : State,
    (s.chip.sup.life = .up →
      Gives .resetAssert s fun d =>
        d = { s.chip with
          pins := { s.chip.pins with reset := true }
          sup := { s.chip.sup with life := .held }
          link := { s.chip.link with rx := .off, access := .off, driven := [] } })
    ∧ (∀ i, s.chip.sup.life ≠ .up → ¬reachesHeld i → exec i s = .next s)
    ∧ (∀ straps, s.chip.sup.life = .held → s.chip.sup.status = .ok →
      Gives (.resetRelease straps) s fun d => s.chip.lineStarted d straps ∧ d.sup.status = .ok)
    ∧ (∀ straps, s.chip.sup.life = .held → s.chip.sup.status = .low →
      Gives (.resetRelease straps) s fun d =>
        d = { s.chip with
          pins := { s.chip.pins with reset := false, stn := straps.stn, rateClosed := straps.rateClosed }
          sup := { s.chip.sup with life := .linePending } })
    ∧ (∀ volts straps, s.chip.sup.life = .linePending → s.chip.sup.status = .low → 180 < volts →
      Gives (.supplyRisesOk volts straps) s fun d => s.chip.lineStarted d straps ∧ d.sup.status = .ok)

/-- Below 9.0 V the part stands without its regulator, and a store write in progress leaves a record whose check fails
(R174, R165). At 9.0 V or more, with RESET released, it makes a COLD start: RUN whatever the supply, LOW unless above 18.0 V,
the timebase at 0, and configuration, curve sets and retained items read from the array or at their defaults (R167). -/
def Obligations.ColdStartReadsTheStore : Prop :=
  ∀ (s : State) (volts : Nat),
    let array := s.chip.store.array
    (volts < 90 → s.chip.sup.life ≠ .off →
      Gives (.regulatorFail volts) s fun d =>
        d.sup.life = .off ∧ d.pins = { s.chip.pins with vsense := volts }
          ∧ (s.chip.store.writing = none → d.store.array = array)
          ∧ (∀ c t, s.chip.store.writing = some (.config c, t) → d.store.array = { array with config := none })
          ∧ (∀ r t, s.chip.store.writing = some (.retain r, t) → d.store.array = { array with retained := none })
          ∧ (∀ i x t, s.chip.store.writing = some (.curve i x, t) → (d.store.array.curves[i]).good = false
              ∧ (∀ j : Fin 4, j ≠ i → d.store.array.curves[j] = array.curves[j])
              ∧ d.store.array.config = array.config ∧ d.store.array.retained = array.retained))
    ∧ (∀ straps, 90 ≤ volts → s.chip.sup.life = .off → s.chip.pins.reset = false →
      Gives (.coldStart volts straps) s fun d =>
        d.startedAfresh straps ∧ d.settledRole straps ∧ d.sup.startKind = .cold ∧ d.tick = 0
          ∧ d.sup.status = (if 180 < volts then .ok else .low) ∧ d.sup.ignition = s.chip.pins.ign
          ∧ d.sup.ignTimer = none ∧ d.trk.voids = ⟨0, 0, 0, 0, 0, 0⟩ ∧ d.store.array = array
          ∧ (∀ x, array.config = some x → d.store.cfg = x ∧ d.store.configDefault = false)
          ∧ (array.config = none →
              d.store.cfg = { Cfg.defaults with role := .repeater } ∧ d.store.configDefault = true)
          ∧ (∀ i : Fin 4, ((d.store.curves[i]).valid = true ↔
              (array.curves[i]).good = true ∧ ((array.curves[i]).set).valid = true))
          ∧ (∀ r, array.retained = some r → d.store.retainLost = false ∧ d.load.history = r.history
              ∧ d.load.shift = r.shift ∧ d.load.life = r.life ∧ d.load.nextManual = r.nextManual
              ∧ d.load.nextHist = r.nextHist ∧ d.panel.settings = r.settings ∧ d.role.resumeRole = r.resumeRole
              ∧ d.load.record.map TruckRec.passes = r.record.map TruckRec.passes)
          ∧ (array.retained = none → d.store.retainLost = true ∧ d.load.history = [] ∧ d.load.nextHist = 1
              ∧ d.load.shift = ⟨0, 0, 0, 0, 0⟩ ∧ d.load.life = ⟨0, 0⟩ ∧ d.load.nextManual = 1
              ∧ d.load.record = none ∧ d.role.resumeRole = .listen
              ∧ d.panel.settings = ⟨48, 16, 10, 0, d.store.cfg.defaultSet⟩))

/-! ## Frames -/

/-- The characters of a telegram, lead to check, pass every receive test and read back as that telegram (R149, R150, R151);
the check of the characters 31h to 39h is 29B1h; and each known kind is the kind of its code (Table 12-2). -/
def Obligations.FramesReadBack : Prop :=
  (∀ t : WholeTelegram, t.data.length ≤ 12 →
      receiveTests ((frameChars t).map fun b => ⟨b, true⟩) = .whole t)
    ∧ crc16 [0x31, 0x32, 0x33, 0x34, 0x35, 0x36, 0x37, 0x38, 0x39] = 0x29B1#16
    ∧ ∀ k : Kind, Kind.ofCode k.code = some k
end

