-- ==== Sys2Proof/Laws/State.lean ====
section
/-! SUPPORT. One lemma per block per block update: what a lens writes and what it leaves. -/

namespace Sys2Proof.Machine

/-! ## mapSup -/

@[simp] theorem Chip.mapSup_pins (f : Supply → Supply) (c : Chip) : (c.mapSup f).pins = c.pins := rfl
@[simp] theorem Chip.mapSup_sup (f : Supply → Supply) (c : Chip) : (c.mapSup f).sup = f c.sup := rfl
@[simp] theorem Chip.mapSup_tick (f : Supply → Supply) (c : Chip) : (c.mapSup f).tick = c.tick := rfl
@[simp] theorem Chip.mapSup_link (f : Supply → Supply) (c : Chip) : (c.mapSup f).link = c.link := rfl
@[simp] theorem Chip.mapSup_inp (f : Supply → Supply) (c : Chip) : (c.mapSup f).inp = c.inp := rfl
@[simp] theorem Chip.mapSup_eng (f : Supply → Supply) (c : Chip) : (c.mapSup f).eng = c.eng := rfl
@[simp] theorem Chip.mapSup_trk (f : Supply → Supply) (c : Chip) : (c.mapSup f).trk = c.trk := rfl
@[simp] theorem Chip.mapSup_load (f : Supply → Supply) (c : Chip) : (c.mapSup f).load = c.load := rfl
@[simp] theorem Chip.mapSup_role (f : Supply → Supply) (c : Chip) : (c.mapSup f).role = c.role := rfl
@[simp] theorem Chip.mapSup_cal (f : Supply → Supply) (c : Chip) : (c.mapSup f).cal = c.cal := rfl
@[simp] theorem Chip.mapSup_alarm (f : Supply → Supply) (c : Chip) : (c.mapSup f).alarm = c.alarm := rfl
@[simp] theorem Chip.mapSup_panel (f : Supply → Supply) (c : Chip) : (c.mapSup f).panel = c.panel := rfl
@[simp] theorem Chip.mapSup_store (f : Supply → Supply) (c : Chip) : (c.mapSup f).store = c.store := rfl

/-! ## mapLink -/

@[simp] theorem Chip.mapLink_pins (f : Link → Link) (c : Chip) : (c.mapLink f).pins = c.pins := rfl
@[simp] theorem Chip.mapLink_sup (f : Link → Link) (c : Chip) : (c.mapLink f).sup = c.sup := rfl
@[simp] theorem Chip.mapLink_tick (f : Link → Link) (c : Chip) : (c.mapLink f).tick = c.tick := rfl
@[simp] theorem Chip.mapLink_link (f : Link → Link) (c : Chip) : (c.mapLink f).link = f c.link := rfl
@[simp] theorem Chip.mapLink_inp (f : Link → Link) (c : Chip) : (c.mapLink f).inp = c.inp := rfl
@[simp] theorem Chip.mapLink_eng (f : Link → Link) (c : Chip) : (c.mapLink f).eng = c.eng := rfl
@[simp] theorem Chip.mapLink_trk (f : Link → Link) (c : Chip) : (c.mapLink f).trk = c.trk := rfl
@[simp] theorem Chip.mapLink_load (f : Link → Link) (c : Chip) : (c.mapLink f).load = c.load := rfl
@[simp] theorem Chip.mapLink_role (f : Link → Link) (c : Chip) : (c.mapLink f).role = c.role := rfl
@[simp] theorem Chip.mapLink_cal (f : Link → Link) (c : Chip) : (c.mapLink f).cal = c.cal := rfl
@[simp] theorem Chip.mapLink_alarm (f : Link → Link) (c : Chip) : (c.mapLink f).alarm = c.alarm := rfl
@[simp] theorem Chip.mapLink_panel (f : Link → Link) (c : Chip) : (c.mapLink f).panel = c.panel := rfl
@[simp] theorem Chip.mapLink_store (f : Link → Link) (c : Chip) : (c.mapLink f).store = c.store := rfl

/-! ## mapInp -/

@[simp] theorem Chip.mapInp_pins (f : InputTable → InputTable) (c : Chip) : (c.mapInp f).pins = c.pins := rfl
@[simp] theorem Chip.mapInp_sup (f : InputTable → InputTable) (c : Chip) : (c.mapInp f).sup = c.sup := rfl
@[simp] theorem Chip.mapInp_tick (f : InputTable → InputTable) (c : Chip) : (c.mapInp f).tick = c.tick := rfl
@[simp] theorem Chip.mapInp_link (f : InputTable → InputTable) (c : Chip) : (c.mapInp f).link = c.link := rfl
@[simp] theorem Chip.mapInp_inp (f : InputTable → InputTable) (c : Chip) : (c.mapInp f).inp = f c.inp := rfl
@[simp] theorem Chip.mapInp_eng (f : InputTable → InputTable) (c : Chip) : (c.mapInp f).eng = c.eng := rfl
@[simp] theorem Chip.mapInp_trk (f : InputTable → InputTable) (c : Chip) : (c.mapInp f).trk = c.trk := rfl
@[simp] theorem Chip.mapInp_load (f : InputTable → InputTable) (c : Chip) : (c.mapInp f).load = c.load := rfl
@[simp] theorem Chip.mapInp_role (f : InputTable → InputTable) (c : Chip) : (c.mapInp f).role = c.role := rfl
@[simp] theorem Chip.mapInp_cal (f : InputTable → InputTable) (c : Chip) : (c.mapInp f).cal = c.cal := rfl
@[simp] theorem Chip.mapInp_alarm (f : InputTable → InputTable) (c : Chip) : (c.mapInp f).alarm = c.alarm := rfl
@[simp] theorem Chip.mapInp_panel (f : InputTable → InputTable) (c : Chip) : (c.mapInp f).panel = c.panel := rfl
@[simp] theorem Chip.mapInp_store (f : InputTable → InputTable) (c : Chip) : (c.mapInp f).store = c.store := rfl

/-! ## mapEng -/

@[simp] theorem Chip.mapEng_pins (f : Engine → Engine) (c : Chip) : (c.mapEng f).pins = c.pins := rfl
@[simp] theorem Chip.mapEng_sup (f : Engine → Engine) (c : Chip) : (c.mapEng f).sup = c.sup := rfl
@[simp] theorem Chip.mapEng_tick (f : Engine → Engine) (c : Chip) : (c.mapEng f).tick = c.tick := rfl
@[simp] theorem Chip.mapEng_link (f : Engine → Engine) (c : Chip) : (c.mapEng f).link = c.link := rfl
@[simp] theorem Chip.mapEng_inp (f : Engine → Engine) (c : Chip) : (c.mapEng f).inp = c.inp := rfl
@[simp] theorem Chip.mapEng_eng (f : Engine → Engine) (c : Chip) : (c.mapEng f).eng = f c.eng := rfl
@[simp] theorem Chip.mapEng_trk (f : Engine → Engine) (c : Chip) : (c.mapEng f).trk = c.trk := rfl
@[simp] theorem Chip.mapEng_load (f : Engine → Engine) (c : Chip) : (c.mapEng f).load = c.load := rfl
@[simp] theorem Chip.mapEng_role (f : Engine → Engine) (c : Chip) : (c.mapEng f).role = c.role := rfl
@[simp] theorem Chip.mapEng_cal (f : Engine → Engine) (c : Chip) : (c.mapEng f).cal = c.cal := rfl
@[simp] theorem Chip.mapEng_alarm (f : Engine → Engine) (c : Chip) : (c.mapEng f).alarm = c.alarm := rfl
@[simp] theorem Chip.mapEng_panel (f : Engine → Engine) (c : Chip) : (c.mapEng f).panel = c.panel := rfl
@[simp] theorem Chip.mapEng_store (f : Engine → Engine) (c : Chip) : (c.mapEng f).store = c.store := rfl

/-! ## mapTrk -/

@[simp] theorem Chip.mapTrk_pins (f : Tracker → Tracker) (c : Chip) : (c.mapTrk f).pins = c.pins := rfl
@[simp] theorem Chip.mapTrk_sup (f : Tracker → Tracker) (c : Chip) : (c.mapTrk f).sup = c.sup := rfl
@[simp] theorem Chip.mapTrk_tick (f : Tracker → Tracker) (c : Chip) : (c.mapTrk f).tick = c.tick := rfl
@[simp] theorem Chip.mapTrk_link (f : Tracker → Tracker) (c : Chip) : (c.mapTrk f).link = c.link := rfl
@[simp] theorem Chip.mapTrk_inp (f : Tracker → Tracker) (c : Chip) : (c.mapTrk f).inp = c.inp := rfl
@[simp] theorem Chip.mapTrk_eng (f : Tracker → Tracker) (c : Chip) : (c.mapTrk f).eng = c.eng := rfl
@[simp] theorem Chip.mapTrk_trk (f : Tracker → Tracker) (c : Chip) : (c.mapTrk f).trk = f c.trk := rfl
@[simp] theorem Chip.mapTrk_load (f : Tracker → Tracker) (c : Chip) : (c.mapTrk f).load = c.load := rfl
@[simp] theorem Chip.mapTrk_role (f : Tracker → Tracker) (c : Chip) : (c.mapTrk f).role = c.role := rfl
@[simp] theorem Chip.mapTrk_cal (f : Tracker → Tracker) (c : Chip) : (c.mapTrk f).cal = c.cal := rfl
@[simp] theorem Chip.mapTrk_alarm (f : Tracker → Tracker) (c : Chip) : (c.mapTrk f).alarm = c.alarm := rfl
@[simp] theorem Chip.mapTrk_panel (f : Tracker → Tracker) (c : Chip) : (c.mapTrk f).panel = c.panel := rfl
@[simp] theorem Chip.mapTrk_store (f : Tracker → Tracker) (c : Chip) : (c.mapTrk f).store = c.store := rfl

/-! ## mapLoad -/

@[simp] theorem Chip.mapLoad_pins (f : LoadRegister → LoadRegister) (c : Chip) : (c.mapLoad f).pins = c.pins := rfl
@[simp] theorem Chip.mapLoad_sup (f : LoadRegister → LoadRegister) (c : Chip) : (c.mapLoad f).sup = c.sup := rfl
@[simp] theorem Chip.mapLoad_tick (f : LoadRegister → LoadRegister) (c : Chip) : (c.mapLoad f).tick = c.tick := rfl
@[simp] theorem Chip.mapLoad_link (f : LoadRegister → LoadRegister) (c : Chip) : (c.mapLoad f).link = c.link := rfl
@[simp] theorem Chip.mapLoad_inp (f : LoadRegister → LoadRegister) (c : Chip) : (c.mapLoad f).inp = c.inp := rfl
@[simp] theorem Chip.mapLoad_eng (f : LoadRegister → LoadRegister) (c : Chip) : (c.mapLoad f).eng = c.eng := rfl
@[simp] theorem Chip.mapLoad_trk (f : LoadRegister → LoadRegister) (c : Chip) : (c.mapLoad f).trk = c.trk := rfl
@[simp] theorem Chip.mapLoad_load (f : LoadRegister → LoadRegister) (c : Chip) : (c.mapLoad f).load = f c.load := rfl
@[simp] theorem Chip.mapLoad_role (f : LoadRegister → LoadRegister) (c : Chip) : (c.mapLoad f).role = c.role := rfl
@[simp] theorem Chip.mapLoad_cal (f : LoadRegister → LoadRegister) (c : Chip) : (c.mapLoad f).cal = c.cal := rfl
@[simp] theorem Chip.mapLoad_alarm (f : LoadRegister → LoadRegister) (c : Chip) : (c.mapLoad f).alarm = c.alarm := rfl
@[simp] theorem Chip.mapLoad_panel (f : LoadRegister → LoadRegister) (c : Chip) : (c.mapLoad f).panel = c.panel := rfl
@[simp] theorem Chip.mapLoad_store (f : LoadRegister → LoadRegister) (c : Chip) : (c.mapLoad f).store = c.store := rfl

/-! ## mapRole -/

@[simp] theorem Chip.mapRole_pins (f : RoleArbiter → RoleArbiter) (c : Chip) : (c.mapRole f).pins = c.pins := rfl
@[simp] theorem Chip.mapRole_sup (f : RoleArbiter → RoleArbiter) (c : Chip) : (c.mapRole f).sup = c.sup := rfl
@[simp] theorem Chip.mapRole_tick (f : RoleArbiter → RoleArbiter) (c : Chip) : (c.mapRole f).tick = c.tick := rfl
@[simp] theorem Chip.mapRole_link (f : RoleArbiter → RoleArbiter) (c : Chip) : (c.mapRole f).link = c.link := rfl
@[simp] theorem Chip.mapRole_inp (f : RoleArbiter → RoleArbiter) (c : Chip) : (c.mapRole f).inp = c.inp := rfl
@[simp] theorem Chip.mapRole_eng (f : RoleArbiter → RoleArbiter) (c : Chip) : (c.mapRole f).eng = c.eng := rfl
@[simp] theorem Chip.mapRole_trk (f : RoleArbiter → RoleArbiter) (c : Chip) : (c.mapRole f).trk = c.trk := rfl
@[simp] theorem Chip.mapRole_load (f : RoleArbiter → RoleArbiter) (c : Chip) : (c.mapRole f).load = c.load := rfl
@[simp] theorem Chip.mapRole_role (f : RoleArbiter → RoleArbiter) (c : Chip) : (c.mapRole f).role = f c.role := rfl
@[simp] theorem Chip.mapRole_cal (f : RoleArbiter → RoleArbiter) (c : Chip) : (c.mapRole f).cal = c.cal := rfl
@[simp] theorem Chip.mapRole_alarm (f : RoleArbiter → RoleArbiter) (c : Chip) : (c.mapRole f).alarm = c.alarm := rfl
@[simp] theorem Chip.mapRole_panel (f : RoleArbiter → RoleArbiter) (c : Chip) : (c.mapRole f).panel = c.panel := rfl
@[simp] theorem Chip.mapRole_store (f : RoleArbiter → RoleArbiter) (c : Chip) : (c.mapRole f).store = c.store := rfl

/-! ## mapCal -/

@[simp] theorem Chip.mapCal_pins (f : CalUnit → CalUnit) (c : Chip) : (c.mapCal f).pins = c.pins := rfl
@[simp] theorem Chip.mapCal_sup (f : CalUnit → CalUnit) (c : Chip) : (c.mapCal f).sup = c.sup := rfl
@[simp] theorem Chip.mapCal_tick (f : CalUnit → CalUnit) (c : Chip) : (c.mapCal f).tick = c.tick := rfl
@[simp] theorem Chip.mapCal_link (f : CalUnit → CalUnit) (c : Chip) : (c.mapCal f).link = c.link := rfl
@[simp] theorem Chip.mapCal_inp (f : CalUnit → CalUnit) (c : Chip) : (c.mapCal f).inp = c.inp := rfl
@[simp] theorem Chip.mapCal_eng (f : CalUnit → CalUnit) (c : Chip) : (c.mapCal f).eng = c.eng := rfl
@[simp] theorem Chip.mapCal_trk (f : CalUnit → CalUnit) (c : Chip) : (c.mapCal f).trk = c.trk := rfl
@[simp] theorem Chip.mapCal_load (f : CalUnit → CalUnit) (c : Chip) : (c.mapCal f).load = c.load := rfl
@[simp] theorem Chip.mapCal_role (f : CalUnit → CalUnit) (c : Chip) : (c.mapCal f).role = c.role := rfl
@[simp] theorem Chip.mapCal_cal (f : CalUnit → CalUnit) (c : Chip) : (c.mapCal f).cal = f c.cal := rfl
@[simp] theorem Chip.mapCal_alarm (f : CalUnit → CalUnit) (c : Chip) : (c.mapCal f).alarm = c.alarm := rfl
@[simp] theorem Chip.mapCal_panel (f : CalUnit → CalUnit) (c : Chip) : (c.mapCal f).panel = c.panel := rfl
@[simp] theorem Chip.mapCal_store (f : CalUnit → CalUnit) (c : Chip) : (c.mapCal f).store = c.store := rfl

/-! ## mapAlarm -/

@[simp] theorem Chip.mapAlarm_pins (f : AlarmUnit → AlarmUnit) (c : Chip) : (c.mapAlarm f).pins = c.pins := rfl
@[simp] theorem Chip.mapAlarm_sup (f : AlarmUnit → AlarmUnit) (c : Chip) : (c.mapAlarm f).sup = c.sup := rfl
@[simp] theorem Chip.mapAlarm_tick (f : AlarmUnit → AlarmUnit) (c : Chip) : (c.mapAlarm f).tick = c.tick := rfl
@[simp] theorem Chip.mapAlarm_link (f : AlarmUnit → AlarmUnit) (c : Chip) : (c.mapAlarm f).link = c.link := rfl
@[simp] theorem Chip.mapAlarm_inp (f : AlarmUnit → AlarmUnit) (c : Chip) : (c.mapAlarm f).inp = c.inp := rfl
@[simp] theorem Chip.mapAlarm_eng (f : AlarmUnit → AlarmUnit) (c : Chip) : (c.mapAlarm f).eng = c.eng := rfl
@[simp] theorem Chip.mapAlarm_trk (f : AlarmUnit → AlarmUnit) (c : Chip) : (c.mapAlarm f).trk = c.trk := rfl
@[simp] theorem Chip.mapAlarm_load (f : AlarmUnit → AlarmUnit) (c : Chip) : (c.mapAlarm f).load = c.load := rfl
@[simp] theorem Chip.mapAlarm_role (f : AlarmUnit → AlarmUnit) (c : Chip) : (c.mapAlarm f).role = c.role := rfl
@[simp] theorem Chip.mapAlarm_cal (f : AlarmUnit → AlarmUnit) (c : Chip) : (c.mapAlarm f).cal = c.cal := rfl
@[simp] theorem Chip.mapAlarm_alarm (f : AlarmUnit → AlarmUnit) (c : Chip) : (c.mapAlarm f).alarm = f c.alarm := rfl
@[simp] theorem Chip.mapAlarm_panel (f : AlarmUnit → AlarmUnit) (c : Chip) : (c.mapAlarm f).panel = c.panel := rfl
@[simp] theorem Chip.mapAlarm_store (f : AlarmUnit → AlarmUnit) (c : Chip) : (c.mapAlarm f).store = c.store := rfl

/-! ## mapPanel -/

@[simp] theorem Chip.mapPanel_pins (f : Panel → Panel) (c : Chip) : (c.mapPanel f).pins = c.pins := rfl
@[simp] theorem Chip.mapPanel_sup (f : Panel → Panel) (c : Chip) : (c.mapPanel f).sup = c.sup := rfl
@[simp] theorem Chip.mapPanel_tick (f : Panel → Panel) (c : Chip) : (c.mapPanel f).tick = c.tick := rfl
@[simp] theorem Chip.mapPanel_link (f : Panel → Panel) (c : Chip) : (c.mapPanel f).link = c.link := rfl
@[simp] theorem Chip.mapPanel_inp (f : Panel → Panel) (c : Chip) : (c.mapPanel f).inp = c.inp := rfl
@[simp] theorem Chip.mapPanel_eng (f : Panel → Panel) (c : Chip) : (c.mapPanel f).eng = c.eng := rfl
@[simp] theorem Chip.mapPanel_trk (f : Panel → Panel) (c : Chip) : (c.mapPanel f).trk = c.trk := rfl
@[simp] theorem Chip.mapPanel_load (f : Panel → Panel) (c : Chip) : (c.mapPanel f).load = c.load := rfl
@[simp] theorem Chip.mapPanel_role (f : Panel → Panel) (c : Chip) : (c.mapPanel f).role = c.role := rfl
@[simp] theorem Chip.mapPanel_cal (f : Panel → Panel) (c : Chip) : (c.mapPanel f).cal = c.cal := rfl
@[simp] theorem Chip.mapPanel_alarm (f : Panel → Panel) (c : Chip) : (c.mapPanel f).alarm = c.alarm := rfl
@[simp] theorem Chip.mapPanel_panel (f : Panel → Panel) (c : Chip) : (c.mapPanel f).panel = f c.panel := rfl
@[simp] theorem Chip.mapPanel_store (f : Panel → Panel) (c : Chip) : (c.mapPanel f).store = c.store := rfl

/-! ## mapStore -/

@[simp] theorem Chip.mapStore_pins (f : ParamStore → ParamStore) (c : Chip) : (c.mapStore f).pins = c.pins := rfl
@[simp] theorem Chip.mapStore_sup (f : ParamStore → ParamStore) (c : Chip) : (c.mapStore f).sup = c.sup := rfl
@[simp] theorem Chip.mapStore_tick (f : ParamStore → ParamStore) (c : Chip) : (c.mapStore f).tick = c.tick := rfl
@[simp] theorem Chip.mapStore_link (f : ParamStore → ParamStore) (c : Chip) : (c.mapStore f).link = c.link := rfl
@[simp] theorem Chip.mapStore_inp (f : ParamStore → ParamStore) (c : Chip) : (c.mapStore f).inp = c.inp := rfl
@[simp] theorem Chip.mapStore_eng (f : ParamStore → ParamStore) (c : Chip) : (c.mapStore f).eng = c.eng := rfl
@[simp] theorem Chip.mapStore_trk (f : ParamStore → ParamStore) (c : Chip) : (c.mapStore f).trk = c.trk := rfl
@[simp] theorem Chip.mapStore_load (f : ParamStore → ParamStore) (c : Chip) : (c.mapStore f).load = c.load := rfl
@[simp] theorem Chip.mapStore_role (f : ParamStore → ParamStore) (c : Chip) : (c.mapStore f).role = c.role := rfl
@[simp] theorem Chip.mapStore_cal (f : ParamStore → ParamStore) (c : Chip) : (c.mapStore f).cal = c.cal := rfl
@[simp] theorem Chip.mapStore_alarm (f : ParamStore → ParamStore) (c : Chip) : (c.mapStore f).alarm = c.alarm := rfl
@[simp] theorem Chip.mapStore_panel (f : ParamStore → ParamStore) (c : Chip) : (c.mapStore f).panel = c.panel := rfl
@[simp] theorem Chip.mapStore_store (f : ParamStore → ParamStore) (c : Chip) : (c.mapStore f).store = f c.store := rfl

/-! ## mapBuz -/

@[simp] theorem Chip.mapBuz_pins (f : Nat → Tick → Buzzer → Buzzer) (c : Chip) : (c.mapBuz f).pins = c.pins := rfl
@[simp] theorem Chip.mapBuz_sup (f : Nat → Tick → Buzzer → Buzzer) (c : Chip) : (c.mapBuz f).sup = c.sup := rfl
@[simp] theorem Chip.mapBuz_tick (f : Nat → Tick → Buzzer → Buzzer) (c : Chip) : (c.mapBuz f).tick = c.tick := rfl
@[simp] theorem Chip.mapBuz_link (f : Nat → Tick → Buzzer → Buzzer) (c : Chip) : (c.mapBuz f).link = c.link := rfl
@[simp] theorem Chip.mapBuz_inp (f : Nat → Tick → Buzzer → Buzzer) (c : Chip) : (c.mapBuz f).inp = c.inp := rfl
@[simp] theorem Chip.mapBuz_eng (f : Nat → Tick → Buzzer → Buzzer) (c : Chip) : (c.mapBuz f).eng = c.eng := rfl
@[simp] theorem Chip.mapBuz_trk (f : Nat → Tick → Buzzer → Buzzer) (c : Chip) : (c.mapBuz f).trk = c.trk := rfl
@[simp] theorem Chip.mapBuz_load (f : Nat → Tick → Buzzer → Buzzer) (c : Chip) : (c.mapBuz f).load = c.load := rfl
@[simp] theorem Chip.mapBuz_role (f : Nat → Tick → Buzzer → Buzzer) (c : Chip) : (c.mapBuz f).role = c.role := rfl
@[simp] theorem Chip.mapBuz_cal (f : Nat → Tick → Buzzer → Buzzer) (c : Chip) : (c.mapBuz f).cal = c.cal := rfl
@[simp] theorem Chip.mapBuz_alarm (f : Nat → Tick → Buzzer → Buzzer) (c : Chip) : (c.mapBuz f).alarm = c.alarm := rfl
@[simp] theorem Chip.mapBuz_panel (f : Nat → Tick → Buzzer → Buzzer) (c : Chip) :
    (c.mapBuz f).panel = { c.panel with buz := f c.panel.settings.volume c.tick c.panel.buz } := rfl
@[simp] theorem Chip.mapBuz_store (f : Nat → Tick → Buzzer → Buzzer) (c : Chip) : (c.mapBuz f).store = c.store := rfl

/-! ## The outcome of a command -/

@[simp] theorem State.act_eq (f : Chip → Chip) (s : State) : s.act f = .next { s with chip := f s.chip } := rfl

end Sys2Proof.Machine
end

