-- ==== Sys2Proof/Laws/Blocks.lean ====
section
/-! SUPPORT. The frame of each block operation: the fields it leaves as they stand. -/

namespace Sys2Proof.Machine

/-! ## Buzzer -/

@[simp] theorem Buzzer.begin_frame (vol : Nat) (now : Tick) (b : Buzzer) :
    (Buzzer.begin vol now b).slot = b.slot ∧ (Buzzer.begin vol now b).queue = b.queue := ⟨rfl, rfl⟩

@[simp] theorem Buzzer.alarmEnd_frame (vol : Nat) (now : Tick) (b : Buzzer) :
    (Buzzer.alarmEnd vol now b).queue = b.queue := rfl

@[simp] theorem Buzzer.eventRequest_frame (p : Pattern) (vol : Nat) (now : Tick) (b : Buzzer) :
    (Buzzer.eventRequest p vol now b).slot = b.slot := by
  unfold Buzzer.eventRequest
  (repeat' split) <;> simp

/-! ## AlarmRec -/

@[simp] theorem AlarmRec.rise_frame (now : Tick) (r : AlarmRec) :
    (AlarmRec.rise now r).mode = r.mode ∧ (AlarmRec.rise now r).mask = r.mask := ⟨rfl, rfl⟩

@[simp] theorem AlarmRec.clearLatch_frame (r : AlarmRec) :
    (AlarmRec.clearLatch r).cond = r.cond ∧ (AlarmRec.clearLatch r).mode = r.mode
    ∧ (AlarmRec.clearLatch r).mask = r.mask := ⟨rfl, rfl, rfl⟩

@[simp] theorem AlarmRec.fall_frame (r : AlarmRec) :
    (AlarmRec.fall r).mode = r.mode ∧ (AlarmRec.fall r).mask = r.mask := by
  simp only [AlarmRec.fall]
  (repeat' split) <;> simp_all

@[simp] theorem AlarmRec.acknowledge_frame (r : AlarmRec) :
    (AlarmRec.acknowledge r).cond = r.cond ∧ (AlarmRec.acknowledge r).mode = r.mode
    ∧ (AlarmRec.acknowledge r).mask = r.mask := by
  unfold AlarmRec.acknowledge
  (repeat' split) <;> simp

@[simp] theorem AlarmRec.takeMode_frame (mode : LatchMode) (r : AlarmRec) :
    (AlarmRec.takeMode mode r).cond = r.cond ∧ (AlarmRec.takeMode mode r).mask = r.mask := by
  unfold AlarmRec.takeMode
  (repeat' split) <;> simp

@[simp] theorem AlarmRec.takeMask_frame (now : Tick) (mask latched : Bool) (r : AlarmRec) :
    (AlarmRec.takeMask now mask latched r).cond = r.cond ∧ (AlarmRec.takeMask now mask latched r).latch = r.latch
    ∧ (AlarmRec.takeMask now mask latched r).ack = r.ack ∧ (AlarmRec.takeMask now mask latched r).mode = r.mode :=
  ⟨rfl, rfl, rfl, rfl⟩

@[simp] theorem AlarmRec.reconfigure_frame (now : Tick) (mode : LatchMode) (mask : Bool) (r : AlarmRec) :
    (AlarmRec.reconfigure now mode mask r).cond = r.cond := by
  unfold AlarmRec.reconfigure
  (repeat' split) <;> simp

/-! ## ChanRec -/

@[simp] theorem ChanRec.arrive_frame (now : Tick) (status : ArrStatus) (overRange : Over) (r : ChanRec) :
    (ChanRec.arrive now status overRange r).prevSeq = r.prevSeq ∧ (ChanRec.arrive now status overRange r).gap = r.gap :=
  ⟨rfl, rfl⟩

@[simp] theorem ChanRec.goStale_frame (now : Tick) (r : ChanRec) :
    (ChanRec.goStale now r).latestTick = r.latestTick ∧ (ChanRec.goStale now r).latestStatus = r.latestStatus
    ∧ (ChanRec.goStale now r).overRange = r.overRange ∧ (ChanRec.goStale now r).prevSeq = r.prevSeq
    ∧ (ChanRec.goStale now r).gap = r.gap := ⟨rfl, rfl, rfl, rfl, rfl⟩

@[simp] theorem ChanRec.stopTimers_frame (r : ChanRec) :
    (ChanRec.stopTimers r).freshness = r.freshness ∧ (ChanRec.stopTimers r).latestTick = r.latestTick
    ∧ (ChanRec.stopTimers r).latestStatus = r.latestStatus ∧ (ChanRec.stopTimers r).overRange = r.overRange
    ∧ (ChanRec.stopTimers r).prevSeq = r.prevSeq ∧ (ChanRec.stopTimers r).gap = r.gap :=
  ⟨rfl, rfl, rfl, rfl, rfl, rfl⟩

@[simp] theorem ChanRec.resume_frame (now : Tick) (r : ChanRec) :
    (ChanRec.resume now r).latestTick = r.latestTick ∧ (ChanRec.resume now r).latestStatus = r.latestStatus
    ∧ (ChanRec.resume now r).gap = r.gap := ⟨rfl, rfl, rfl⟩

/-! ## InputTable -/

@[simp] theorem InputTable.dropRate_frame (t : InputTable) :
    (InputTable.dropRate t).held = t.held ∧ (InputTable.dropRate t).sel = t.sel
    ∧ (InputTable.dropRate t).disagree = t.disagree ∧ (InputTable.dropRate t).rateTimer = t.rateTimer
    ∧ (InputTable.dropRate t).pressure = t.pressure ∧ (InputTable.dropRate t).primary = t.primary
    ∧ (InputTable.dropRate t).secondary = t.secondary ∧ (InputTable.dropRate t).tilt = t.tilt
    ∧ (InputTable.dropRate t).drive = t.drive ∧ (InputTable.dropRate t).incline = t.incline
    ∧ (InputTable.dropRate t).tag = t.tag := ⟨rfl, rfl, rfl, rfl, rfl, rfl, rfl, rfl, rfl, rfl, rfl⟩

@[simp] theorem InputTable.reselect_frame (t : InputTable) :
    (InputTable.reselect t).held = t.held ∧ (InputTable.reselect t).disagree = t.disagree
    ∧ (InputTable.reselect t).rateTimer = t.rateTimer ∧ (InputTable.reselect t).pressure = t.pressure
    ∧ (InputTable.reselect t).primary = t.primary ∧ (InputTable.reselect t).secondary = t.secondary
    ∧ (InputTable.reselect t).tilt = t.tilt ∧ (InputTable.reselect t).drive = t.drive
    ∧ (InputTable.reselect t).incline = t.incline ∧ (InputTable.reselect t).tag = t.tag := by
  unfold InputTable.reselect
  (repeat' split) <;> simp

@[simp] theorem InputTable.derive_frame (limit : Nat) (t : InputTable) :
    (InputTable.derive limit t).held = t.held ∧ (InputTable.derive limit t).rateTimer = t.rateTimer
    ∧ (InputTable.derive limit t).pressure = t.pressure ∧ (InputTable.derive limit t).primary = t.primary
    ∧ (InputTable.derive limit t).secondary = t.secondary ∧ (InputTable.derive limit t).tilt = t.tilt
    ∧ (InputTable.derive limit t).drive = t.drive ∧ (InputTable.derive limit t).incline = t.incline
    ∧ (InputTable.derive limit t).tag = t.tag := by
  simp [InputTable.derive]

@[simp] theorem InputTable.takeRate_frame (src : AngleSrc) (status : ArrStatus) (angle : Int) (now : Tick) (t : InputTable) :
    (InputTable.takeRate src status angle now t).held = t.held
    ∧ (InputTable.takeRate src status angle now t).sel = t.sel
    ∧ (InputTable.takeRate src status angle now t).disagree = t.disagree
    ∧ (InputTable.takeRate src status angle now t).pressure = t.pressure
    ∧ (InputTable.takeRate src status angle now t).primary = t.primary
    ∧ (InputTable.takeRate src status angle now t).secondary = t.secondary
    ∧ (InputTable.takeRate src status angle now t).tilt = t.tilt
    ∧ (InputTable.takeRate src status angle now t).drive = t.drive
    ∧ (InputTable.takeRate src status angle now t).incline = t.incline
    ∧ (InputTable.takeRate src status angle now t).tag = t.tag := by
  unfold InputTable.takeRate
  (repeat' split) <;> simp

@[simp] theorem InputTable.arrivePressure_frame (m : PressureMsg) (now : Tick) (t : InputTable) :
    (InputTable.arrivePressure m now t).sel = t.sel ∧ (InputTable.arrivePressure m now t).disagree = t.disagree
    ∧ (InputTable.arrivePressure m now t).omega = t.omega ∧ (InputTable.arrivePressure m now t).rateMem = t.rateMem
    ∧ (InputTable.arrivePressure m now t).rateTimer = t.rateTimer
    ∧ (InputTable.arrivePressure m now t).primary = t.primary
    ∧ (InputTable.arrivePressure m now t).secondary = t.secondary
    ∧ (InputTable.arrivePressure m now t).tilt = t.tilt ∧ (InputTable.arrivePressure m now t).drive = t.drive
    ∧ (InputTable.arrivePressure m now t).incline = t.incline ∧ (InputTable.arrivePressure m now t).tag = t.tag :=
  ⟨rfl, rfl, rfl, rfl, rfl, rfl, rfl, rfl, rfl, rfl, rfl⟩

@[simp] theorem InputTable.arriveTilt_frame (m : TiltMsg) (now : Tick) (t : InputTable) :
    (InputTable.arriveTilt m now t).sel = t.sel ∧ (InputTable.arriveTilt m now t).disagree = t.disagree
    ∧ (InputTable.arriveTilt m now t).omega = t.omega ∧ (InputTable.arriveTilt m now t).rateMem = t.rateMem
    ∧ (InputTable.arriveTilt m now t).rateTimer = t.rateTimer
    ∧ (InputTable.arriveTilt m now t).pressure = t.pressure ∧ (InputTable.arriveTilt m now t).primary = t.primary
    ∧ (InputTable.arriveTilt m now t).secondary = t.secondary ∧ (InputTable.arriveTilt m now t).drive = t.drive
    ∧ (InputTable.arriveTilt m now t).incline = t.incline ∧ (InputTable.arriveTilt m now t).tag = t.tag :=
  ⟨rfl, rfl, rfl, rfl, rfl, rfl, rfl, rfl, rfl, rfl, rfl⟩

@[simp] theorem InputTable.arriveDrive_frame (m : DriveMsg) (now : Tick) (t : InputTable) :
    (InputTable.arriveDrive m now t).sel = t.sel ∧ (InputTable.arriveDrive m now t).disagree = t.disagree
    ∧ (InputTable.arriveDrive m now t).omega = t.omega ∧ (InputTable.arriveDrive m now t).rateMem = t.rateMem
    ∧ (InputTable.arriveDrive m now t).rateTimer = t.rateTimer
    ∧ (InputTable.arriveDrive m now t).pressure = t.pressure ∧ (InputTable.arriveDrive m now t).primary = t.primary
    ∧ (InputTable.arriveDrive m now t).secondary = t.secondary ∧ (InputTable.arriveDrive m now t).tilt = t.tilt
    ∧ (InputTable.arriveDrive m now t).incline = t.incline ∧ (InputTable.arriveDrive m now t).tag = t.tag :=
  ⟨rfl, rfl, rfl, rfl, rfl, rfl, rfl, rfl, rfl, rfl, rfl⟩

@[simp] theorem InputTable.arriveIncline_frame (m : InclineMsg) (now : Tick) (t : InputTable) :
    (InputTable.arriveIncline m now t).sel = t.sel ∧ (InputTable.arriveIncline m now t).disagree = t.disagree
    ∧ (InputTable.arriveIncline m now t).omega = t.omega ∧ (InputTable.arriveIncline m now t).rateMem = t.rateMem
    ∧ (InputTable.arriveIncline m now t).rateTimer = t.rateTimer
    ∧ (InputTable.arriveIncline m now t).pressure = t.pressure
    ∧ (InputTable.arriveIncline m now t).primary = t.primary
    ∧ (InputTable.arriveIncline m now t).secondary = t.secondary ∧ (InputTable.arriveIncline m now t).tilt = t.tilt
    ∧ (InputTable.arriveIncline m now t).drive = t.drive ∧ (InputTable.arriveIncline m now t).tag = t.tag :=
  ⟨rfl, rfl, rfl, rfl, rfl, rfl, rfl, rfl, rfl, rfl, rfl⟩

@[simp] theorem InputTable.arriveTag_frame (m : TagMsg) (now : Tick) (t : InputTable) :
    (InputTable.arriveTag m now t).sel = t.sel ∧ (InputTable.arriveTag m now t).disagree = t.disagree
    ∧ (InputTable.arriveTag m now t).omega = t.omega ∧ (InputTable.arriveTag m now t).rateMem = t.rateMem
    ∧ (InputTable.arriveTag m now t).rateTimer = t.rateTimer ∧ (InputTable.arriveTag m now t).pressure = t.pressure
    ∧ (InputTable.arriveTag m now t).primary = t.primary ∧ (InputTable.arriveTag m now t).secondary = t.secondary
    ∧ (InputTable.arriveTag m now t).tilt = t.tilt ∧ (InputTable.arriveTag m now t).drive = t.drive
    ∧ (InputTable.arriveTag m now t).incline = t.incline := ⟨rfl, rfl, rfl, rfl, rfl, rfl, rfl, rfl, rfl, rfl, rfl⟩

/-! ## ChanRec -/

@[simp] theorem ChanRec.lossExpiry_frame (now : Tick) (r : ChanRec) :
    (ChanRec.lossExpiry now r).freshness = r.freshness ∧ (ChanRec.lossExpiry now r).latestTick = r.latestTick
    ∧ (ChanRec.lossExpiry now r).latestStatus = r.latestStatus ∧ (ChanRec.lossExpiry now r).overRange = r.overRange
    ∧ (ChanRec.lossExpiry now r).prevSeq = r.prevSeq ∧ (ChanRec.lossExpiry now r).gap = r.gap
    ∧ (ChanRec.lossExpiry now r).staleTimer = r.staleTimer := by
  unfold ChanRec.lossExpiry
  (repeat' split) <;> simp

/-! ## InputTable -/

@[simp] theorem InputTable.rateTimerExpiry_frame (now : Tick) (t : InputTable) :
    (InputTable.rateTimerExpiry now t).held = t.held ∧ (InputTable.rateTimerExpiry now t).sel = t.sel
    ∧ (InputTable.rateTimerExpiry now t).disagree = t.disagree
    ∧ (InputTable.rateTimerExpiry now t).pressure = t.pressure
    ∧ (InputTable.rateTimerExpiry now t).primary = t.primary
    ∧ (InputTable.rateTimerExpiry now t).secondary = t.secondary ∧ (InputTable.rateTimerExpiry now t).tilt = t.tilt
    ∧ (InputTable.rateTimerExpiry now t).drive = t.drive ∧ (InputTable.rateTimerExpiry now t).incline = t.incline
    ∧ (InputTable.rateTimerExpiry now t).tag = t.tag := by
  unfold InputTable.rateTimerExpiry
  (repeat' split) <;> simp

@[simp] theorem InputTable.mapChans_frame (f : ChanRec → ChanRec) (t : InputTable) :
    (InputTable.mapChans f t).held = t.held ∧ (InputTable.mapChans f t).sel = t.sel
    ∧ (InputTable.mapChans f t).disagree = t.disagree ∧ (InputTable.mapChans f t).omega = t.omega
    ∧ (InputTable.mapChans f t).rateMem = t.rateMem ∧ (InputTable.mapChans f t).rateTimer = t.rateTimer :=
  ⟨rfl, rfl, rfl, rfl, rfl, rfl⟩

@[simp] theorem InputTable.stop_frame (t : InputTable) :
    (InputTable.stop t).held = t.held ∧ (InputTable.stop t).sel = t.sel ∧ (InputTable.stop t).disagree = t.disagree
    ∧ (InputTable.stop t).omega = t.omega ∧ (InputTable.stop t).rateMem = t.rateMem := ⟨rfl, rfl, rfl, rfl, rfl⟩

@[simp] theorem InputTable.resume_frame (now : Tick) (t : InputTable) :
    (InputTable.resume now t).held = t.held ∧ (InputTable.resume now t).sel = t.sel := ⟨rfl, rfl⟩

/-! ## Link -/

@[simp] theorem Link.dropOldest_frame (l : Link) :
    (Link.dropOldest l).station = l.station ∧ (Link.dropOldest l).rateFast = l.rateFast
    ∧ (Link.dropOldest l).rx = l.rx ∧ (Link.dropOldest l).access = l.access ∧ (Link.dropOldest l).delay = l.delay
    ∧ (Link.dropOldest l).gapDone = l.gapDone ∧ (Link.dropOldest l).wslot = l.wslot
    ∧ (Link.dropOldest l).tslot = l.tslot ∧ (Link.dropOldest l).discards = l.discards
    ∧ (Link.dropOldest l).quietTimer = l.quietTimer ∧ (Link.dropOldest l).check = l.check
    ∧ (Link.dropOldest l).form = l.form ∧ (Link.dropOldest l).length = l.length
    ∧ (Link.dropOldest l).txFail = l.txFail ∧ (Link.dropOldest l).quietEntries = l.quietEntries
    ∧ (Link.dropOldest l).lastAbort = l.lastAbort ∧ (Link.dropOldest l).driven = l.driven := by
  unfold Link.dropOldest
  (repeat' split) <;> simp

@[simp] theorem Link.enqueue_frame (t : OutTg) (l : Link) :
    (Link.enqueue t l).station = l.station ∧ (Link.enqueue t l).rateFast = l.rateFast ∧ (Link.enqueue t l).rx = l.rx
    ∧ (Link.enqueue t l).access = l.access ∧ (Link.enqueue t l).delay = l.delay
    ∧ (Link.enqueue t l).gapDone = l.gapDone ∧ (Link.enqueue t l).wslot = l.wslot
    ∧ (Link.enqueue t l).tslot = l.tslot ∧ (Link.enqueue t l).discards = l.discards
    ∧ (Link.enqueue t l).quietTimer = l.quietTimer ∧ (Link.enqueue t l).check = l.check
    ∧ (Link.enqueue t l).form = l.form ∧ (Link.enqueue t l).length = l.length ∧ (Link.enqueue t l).txFail = l.txFail
    ∧ (Link.enqueue t l).quietEntries = l.quietEntries ∧ (Link.enqueue t l).lastAbort = l.lastAbort
    ∧ (Link.enqueue t l).driven = l.driven := by
  unfold Link.enqueue
  (repeat' split) <;> simp

@[simp] theorem Link.writeW_frame (t : OutTg) (l : Link) :
    (Link.writeW t l).station = l.station ∧ (Link.writeW t l).rateFast = l.rateFast ∧ (Link.writeW t l).rx = l.rx
    ∧ (Link.writeW t l).access = l.access ∧ (Link.writeW t l).delay = l.delay
    ∧ (Link.writeW t l).gapDone = l.gapDone ∧ (Link.writeW t l).queue = l.queue ∧ (Link.writeW t l).tslot = l.tslot
    ∧ (Link.writeW t l).inHand = l.inHand ∧ (Link.writeW t l).discards = l.discards
    ∧ (Link.writeW t l).quietTimer = l.quietTimer ∧ (Link.writeW t l).check = l.check
    ∧ (Link.writeW t l).form = l.form ∧ (Link.writeW t l).length = l.length ∧ (Link.writeW t l).txFail = l.txFail
    ∧ (Link.writeW t l).qDrop = l.qDrop ∧ (Link.writeW t l).quietEntries = l.quietEntries
    ∧ (Link.writeW t l).lastAbort = l.lastAbort ∧ (Link.writeW t l).driven = l.driven := by and_intros <;> rfl

@[simp] theorem Link.writeT_frame (t : OutTg) (l : Link) :
    (Link.writeT t l).station = l.station ∧ (Link.writeT t l).rateFast = l.rateFast ∧ (Link.writeT t l).rx = l.rx
    ∧ (Link.writeT t l).access = l.access ∧ (Link.writeT t l).delay = l.delay
    ∧ (Link.writeT t l).gapDone = l.gapDone ∧ (Link.writeT t l).queue = l.queue ∧ (Link.writeT t l).wslot = l.wslot
    ∧ (Link.writeT t l).inHand = l.inHand ∧ (Link.writeT t l).discards = l.discards
    ∧ (Link.writeT t l).quietTimer = l.quietTimer ∧ (Link.writeT t l).check = l.check
    ∧ (Link.writeT t l).form = l.form ∧ (Link.writeT t l).length = l.length ∧ (Link.writeT t l).txFail = l.txFail
    ∧ (Link.writeT t l).qDrop = l.qDrop ∧ (Link.writeT t l).quietEntries = l.quietEntries
    ∧ (Link.writeT t l).lastAbort = l.lastAbort ∧ (Link.writeT t l).driven = l.driven := by and_intros <;> rfl

@[simp] theorem Link.abandonCopy_frame (ours : Origin → Bool) (l : Link) :
    (Link.abandonCopy ours l).station = l.station ∧ (Link.abandonCopy ours l).rateFast = l.rateFast
    ∧ (Link.abandonCopy ours l).rx = l.rx ∧ (Link.abandonCopy ours l).access = l.access
    ∧ (Link.abandonCopy ours l).delay = l.delay ∧ (Link.abandonCopy ours l).gapDone = l.gapDone
    ∧ (Link.abandonCopy ours l).queue = l.queue ∧ (Link.abandonCopy ours l).wslot = l.wslot
    ∧ (Link.abandonCopy ours l).tslot = l.tslot ∧ (Link.abandonCopy ours l).discards = l.discards
    ∧ (Link.abandonCopy ours l).quietTimer = l.quietTimer ∧ (Link.abandonCopy ours l).check = l.check
    ∧ (Link.abandonCopy ours l).form = l.form ∧ (Link.abandonCopy ours l).length = l.length
    ∧ (Link.abandonCopy ours l).txFail = l.txFail ∧ (Link.abandonCopy ours l).qDrop = l.qDrop
    ∧ (Link.abandonCopy ours l).quietEntries = l.quietEntries ∧ (Link.abandonCopy ours l).lastAbort = l.lastAbort
    ∧ (Link.abandonCopy ours l).driven = l.driven := by
  unfold Link.abandonCopy
  (repeat' split) <;> simp

@[simp] theorem Link.emptyT_frame (l : Link) :
    (Link.emptyT l).station = l.station ∧ (Link.emptyT l).rateFast = l.rateFast ∧ (Link.emptyT l).rx = l.rx
    ∧ (Link.emptyT l).access = l.access ∧ (Link.emptyT l).delay = l.delay ∧ (Link.emptyT l).gapDone = l.gapDone
    ∧ (Link.emptyT l).queue = l.queue ∧ (Link.emptyT l).wslot = l.wslot ∧ (Link.emptyT l).discards = l.discards
    ∧ (Link.emptyT l).quietTimer = l.quietTimer ∧ (Link.emptyT l).check = l.check ∧ (Link.emptyT l).form = l.form
    ∧ (Link.emptyT l).length = l.length ∧ (Link.emptyT l).txFail = l.txFail ∧ (Link.emptyT l).qDrop = l.qDrop
    ∧ (Link.emptyT l).quietEntries = l.quietEntries ∧ (Link.emptyT l).lastAbort = l.lastAbort
    ∧ (Link.emptyT l).driven = l.driven := by
  simp [Link.emptyT]

@[simp] theorem Link.emptyQueue_frame (l : Link) :
    (Link.emptyQueue l).station = l.station ∧ (Link.emptyQueue l).rateFast = l.rateFast
    ∧ (Link.emptyQueue l).rx = l.rx ∧ (Link.emptyQueue l).access = l.access ∧ (Link.emptyQueue l).delay = l.delay
    ∧ (Link.emptyQueue l).gapDone = l.gapDone ∧ (Link.emptyQueue l).wslot = l.wslot
    ∧ (Link.emptyQueue l).tslot = l.tslot ∧ (Link.emptyQueue l).discards = l.discards
    ∧ (Link.emptyQueue l).quietTimer = l.quietTimer ∧ (Link.emptyQueue l).check = l.check
    ∧ (Link.emptyQueue l).form = l.form ∧ (Link.emptyQueue l).length = l.length
    ∧ (Link.emptyQueue l).txFail = l.txFail ∧ (Link.emptyQueue l).qDrop = l.qDrop
    ∧ (Link.emptyQueue l).quietEntries = l.quietEntries ∧ (Link.emptyQueue l).lastAbort = l.lastAbort
    ∧ (Link.emptyQueue l).driven = l.driven := by and_intros <;> rfl

@[simp] theorem Link.choose_frame (l : Link) :
    (Link.choose l).station = l.station ∧ (Link.choose l).rateFast = l.rateFast ∧ (Link.choose l).rx = l.rx
    ∧ (Link.choose l).access = l.access ∧ (Link.choose l).delay = l.delay ∧ (Link.choose l).gapDone = l.gapDone
    ∧ (Link.choose l).queue = l.queue ∧ (Link.choose l).discards = l.discards
    ∧ (Link.choose l).quietTimer = l.quietTimer ∧ (Link.choose l).check = l.check ∧ (Link.choose l).form = l.form
    ∧ (Link.choose l).length = l.length ∧ (Link.choose l).txFail = l.txFail ∧ (Link.choose l).qDrop = l.qDrop
    ∧ (Link.choose l).quietEntries = l.quietEntries ∧ (Link.choose l).lastAbort = l.lastAbort
    ∧ (Link.choose l).driven = l.driven := by
  unfold Link.choose
  (repeat' split) <;> simp

@[simp] theorem Link.opportunity_frame (l : Link) :
    (Link.opportunity l).station = l.station ∧ (Link.opportunity l).rateFast = l.rateFast
    ∧ (Link.opportunity l).rx = l.rx ∧ (Link.opportunity l).gapDone = l.gapDone
    ∧ (Link.opportunity l).queue = l.queue ∧ (Link.opportunity l).discards = l.discards
    ∧ (Link.opportunity l).quietTimer = l.quietTimer ∧ (Link.opportunity l).check = l.check
    ∧ (Link.opportunity l).form = l.form ∧ (Link.opportunity l).length = l.length
    ∧ (Link.opportunity l).txFail = l.txFail ∧ (Link.opportunity l).qDrop = l.qDrop
    ∧ (Link.opportunity l).quietEntries = l.quietEntries ∧ (Link.opportunity l).lastAbort = l.lastAbort
    ∧ (Link.opportunity l).driven = l.driven := by
  simp only [Link.opportunity]
  (repeat' split) <;> simp_all

@[simp] theorem Link.settle_frame (maySend : Bool) (l : Link) :
    (Link.settle maySend l).station = l.station ∧ (Link.settle maySend l).rateFast = l.rateFast
    ∧ (Link.settle maySend l).rx = l.rx ∧ (Link.settle maySend l).gapDone = l.gapDone
    ∧ (Link.settle maySend l).queue = l.queue ∧ (Link.settle maySend l).discards = l.discards
    ∧ (Link.settle maySend l).quietTimer = l.quietTimer ∧ (Link.settle maySend l).check = l.check
    ∧ (Link.settle maySend l).form = l.form ∧ (Link.settle maySend l).length = l.length
    ∧ (Link.settle maySend l).txFail = l.txFail ∧ (Link.settle maySend l).qDrop = l.qDrop
    ∧ (Link.settle maySend l).quietEntries = l.quietEntries ∧ (Link.settle maySend l).lastAbort = l.lastAbort
    ∧ (Link.settle maySend l).driven = l.driven := by
  unfold Link.settle
  (repeat' split) <;> simp

@[simp] theorem Link.leaveHand_frame (l : Link) :
    (Link.leaveHand l).station = l.station ∧ (Link.leaveHand l).rateFast = l.rateFast ∧ (Link.leaveHand l).rx = l.rx
    ∧ (Link.leaveHand l).access = l.access ∧ (Link.leaveHand l).delay = l.delay
    ∧ (Link.leaveHand l).gapDone = l.gapDone ∧ (Link.leaveHand l).wslot = l.wslot
    ∧ (Link.leaveHand l).tslot = l.tslot ∧ (Link.leaveHand l).discards = l.discards
    ∧ (Link.leaveHand l).quietTimer = l.quietTimer ∧ (Link.leaveHand l).check = l.check
    ∧ (Link.leaveHand l).form = l.form ∧ (Link.leaveHand l).length = l.length ∧ (Link.leaveHand l).txFail = l.txFail
    ∧ (Link.leaveHand l).qDrop = l.qDrop ∧ (Link.leaveHand l).quietEntries = l.quietEntries
    ∧ (Link.leaveHand l).lastAbort = l.lastAbort ∧ (Link.leaveHand l).driven = l.driven := by and_intros <;> rfl

@[simp] theorem Link.sent_frame (l : Link) :
    (Link.sent l).station = l.station ∧ (Link.sent l).rateFast = l.rateFast ∧ (Link.sent l).delay = l.delay
    ∧ (Link.sent l).wslot = l.wslot ∧ (Link.sent l).tslot = l.tslot ∧ (Link.sent l).quietTimer = l.quietTimer
    ∧ (Link.sent l).check = l.check ∧ (Link.sent l).form = l.form ∧ (Link.sent l).length = l.length
    ∧ (Link.sent l).txFail = l.txFail ∧ (Link.sent l).qDrop = l.qDrop ∧ (Link.sent l).quietEntries = l.quietEntries
    ∧ (Link.sent l).lastAbort = l.lastAbort := by and_intros <;> rfl

@[simp] theorem Link.discard_frame (now : Tick) (l : Link) :
    (Link.discard now l).station = l.station ∧ (Link.discard now l).rateFast = l.rateFast
    ∧ (Link.discard now l).rx = l.rx ∧ (Link.discard now l).delay = l.delay
    ∧ (Link.discard now l).gapDone = l.gapDone ∧ (Link.discard now l).wslot = l.wslot
    ∧ (Link.discard now l).tslot = l.tslot ∧ (Link.discard now l).check = l.check
    ∧ (Link.discard now l).form = l.form ∧ (Link.discard now l).length = l.length
    ∧ (Link.discard now l).qDrop = l.qDrop ∧ (Link.discard now l).lastAbort = l.lastAbort
    ∧ (Link.discard now l).driven = l.driven := by
  simp only [Link.discard]
  (repeat' split) <;> simp_all

@[simp] theorem Link.attemptFailed_frame (now : Tick) (l : Link) :
    (Link.attemptFailed now l).station = l.station ∧ (Link.attemptFailed now l).rateFast = l.rateFast
    ∧ (Link.attemptFailed now l).rx = l.rx ∧ (Link.attemptFailed now l).delay = l.delay
    ∧ (Link.attemptFailed now l).gapDone = l.gapDone ∧ (Link.attemptFailed now l).wslot = l.wslot
    ∧ (Link.attemptFailed now l).tslot = l.tslot ∧ (Link.attemptFailed now l).check = l.check
    ∧ (Link.attemptFailed now l).form = l.form ∧ (Link.attemptFailed now l).length = l.length
    ∧ (Link.attemptFailed now l).qDrop = l.qDrop ∧ (Link.attemptFailed now l).lastAbort = l.lastAbort
    ∧ (Link.attemptFailed now l).driven = l.driven := by
  unfold Link.attemptFailed
  (repeat' split) <;> simp

@[simp] theorem Link.takeOver_frame (bit : Nat) (l : Link) :
    (Link.takeOver bit l).station = l.station ∧ (Link.takeOver bit l).rateFast = l.rateFast
    ∧ (Link.takeOver bit l).access = l.access ∧ (Link.takeOver bit l).delay = l.delay
    ∧ (Link.takeOver bit l).gapDone = l.gapDone ∧ (Link.takeOver bit l).queue = l.queue
    ∧ (Link.takeOver bit l).wslot = l.wslot ∧ (Link.takeOver bit l).tslot = l.tslot
    ∧ (Link.takeOver bit l).inHand = l.inHand ∧ (Link.takeOver bit l).discards = l.discards
    ∧ (Link.takeOver bit l).quietTimer = l.quietTimer ∧ (Link.takeOver bit l).check = l.check
    ∧ (Link.takeOver bit l).length = l.length ∧ (Link.takeOver bit l).txFail = l.txFail
    ∧ (Link.takeOver bit l).qDrop = l.qDrop ∧ (Link.takeOver bit l).quietEntries = l.quietEntries
    ∧ (Link.takeOver bit l).lastAbort = l.lastAbort ∧ (Link.takeOver bit l).driven = l.driven := by
  unfold Link.takeOver
  (repeat' split) <;> simp

@[simp] theorem Link.mismatch_frame (bit : Nat) (now : Tick) (l : Link) :
    (Link.mismatch bit now l).station = l.station ∧ (Link.mismatch bit now l).rateFast = l.rateFast
    ∧ (Link.mismatch bit now l).delay = l.delay ∧ (Link.mismatch bit now l).wslot = l.wslot
    ∧ (Link.mismatch bit now l).tslot = l.tslot ∧ (Link.mismatch bit now l).check = l.check
    ∧ (Link.mismatch bit now l).length = l.length ∧ (Link.mismatch bit now l).qDrop = l.qDrop := by
  simp [Link.mismatch]

@[simp] theorem Link.clear_frame (l : Link) :
    (Link.clear l).station = l.station ∧ (Link.clear l).rateFast = l.rateFast ∧ (Link.clear l).rx = l.rx
    ∧ (Link.clear l).gapDone = l.gapDone ∧ (Link.clear l).check = l.check ∧ (Link.clear l).form = l.form
    ∧ (Link.clear l).length = l.length ∧ (Link.clear l).txFail = l.txFail ∧ (Link.clear l).qDrop = l.qDrop
    ∧ (Link.clear l).quietEntries = l.quietEntries ∧ (Link.clear l).lastAbort = l.lastAbort :=
  ⟨rfl, rfl, rfl, rfl, rfl, rfl, rfl, rfl, rfl, rfl, rfl⟩

@[simp] theorem Link.hold_frame (l : Link) :
    (Link.hold l).station = l.station ∧ (Link.hold l).rateFast = l.rateFast ∧ (Link.hold l).check = l.check
    ∧ (Link.hold l).form = l.form ∧ (Link.hold l).length = l.length ∧ (Link.hold l).txFail = l.txFail
    ∧ (Link.hold l).qDrop = l.qDrop ∧ (Link.hold l).quietEntries = l.quietEntries
    ∧ (Link.hold l).lastAbort = l.lastAbort ∧ (Link.hold l).gapDone = l.gapDone :=
  ⟨rfl, rfl, rfl, rfl, rfl, rfl, rfl, rfl, rfl, rfl⟩

@[simp] theorem Link.doze_frame (busWake : Bool) (l : Link) :
    (Link.doze busWake l).station = l.station ∧ (Link.doze busWake l).rateFast = l.rateFast
    ∧ (Link.doze busWake l).check = l.check ∧ (Link.doze busWake l).form = l.form
    ∧ (Link.doze busWake l).length = l.length ∧ (Link.doze busWake l).txFail = l.txFail
    ∧ (Link.doze busWake l).qDrop = l.qDrop ∧ (Link.doze busWake l).quietEntries = l.quietEntries
    ∧ (Link.doze busWake l).lastAbort = l.lastAbort ∧ (Link.doze busWake l).gapDone = l.gapDone :=
  ⟨rfl, rfl, rfl, rfl, rfl, rfl, rfl, rfl, rfl, rfl⟩

@[simp] theorem Link.redoze_frame (l : Link) :
    (Link.redoze l).station = l.station ∧ (Link.redoze l).rateFast = l.rateFast ∧ (Link.redoze l).rx = l.rx
    ∧ (Link.redoze l).delay = l.delay ∧ (Link.redoze l).gapDone = l.gapDone ∧ (Link.redoze l).queue = l.queue
    ∧ (Link.redoze l).wslot = l.wslot ∧ (Link.redoze l).tslot = l.tslot ∧ (Link.redoze l).inHand = l.inHand
    ∧ (Link.redoze l).check = l.check ∧ (Link.redoze l).form = l.form ∧ (Link.redoze l).length = l.length
    ∧ (Link.redoze l).txFail = l.txFail ∧ (Link.redoze l).qDrop = l.qDrop
    ∧ (Link.redoze l).quietEntries = l.quietEntries ∧ (Link.redoze l).lastAbort = l.lastAbort
    ∧ (Link.redoze l).driven = l.driven := by
  unfold Link.redoze
  (repeat' split) <;> simp

@[simp] theorem Link.resume_frame (l : Link) :
    (Link.resume l).station = l.station ∧ (Link.resume l).rateFast = l.rateFast ∧ (Link.resume l).check = l.check
    ∧ (Link.resume l).form = l.form ∧ (Link.resume l).length = l.length ∧ (Link.resume l).txFail = l.txFail
    ∧ (Link.resume l).qDrop = l.qDrop ∧ (Link.resume l).quietEntries = l.quietEntries
    ∧ (Link.resume l).lastAbort = l.lastAbort ∧ (Link.resume l).gapDone = l.gapDone :=
  ⟨rfl, rfl, rfl, rfl, rfl, rfl, rfl, rfl, rfl, rfl⟩

@[simp] theorem Link.held_frame (l : Link) :
    (Link.held l).station = l.station ∧ (Link.held l).rateFast = l.rateFast ∧ (Link.held l).delay = l.delay
    ∧ (Link.held l).gapDone = l.gapDone ∧ (Link.held l).queue = l.queue ∧ (Link.held l).wslot = l.wslot
    ∧ (Link.held l).tslot = l.tslot ∧ (Link.held l).inHand = l.inHand ∧ (Link.held l).discards = l.discards
    ∧ (Link.held l).quietTimer = l.quietTimer ∧ (Link.held l).check = l.check ∧ (Link.held l).form = l.form
    ∧ (Link.held l).length = l.length ∧ (Link.held l).txFail = l.txFail ∧ (Link.held l).qDrop = l.qDrop
    ∧ (Link.held l).quietEntries = l.quietEntries ∧ (Link.held l).lastAbort = l.lastAbort := by and_intros <;> rfl

@[simp] theorem Link.count_frame (e : RxError) (l : Link) :
    (Link.count e l).station = l.station ∧ (Link.count e l).rateFast = l.rateFast ∧ (Link.count e l).rx = l.rx
    ∧ (Link.count e l).access = l.access ∧ (Link.count e l).delay = l.delay ∧ (Link.count e l).gapDone = l.gapDone
    ∧ (Link.count e l).queue = l.queue ∧ (Link.count e l).wslot = l.wslot ∧ (Link.count e l).tslot = l.tslot
    ∧ (Link.count e l).inHand = l.inHand ∧ (Link.count e l).discards = l.discards
    ∧ (Link.count e l).quietTimer = l.quietTimer ∧ (Link.count e l).txFail = l.txFail
    ∧ (Link.count e l).qDrop = l.qDrop ∧ (Link.count e l).quietEntries = l.quietEntries
    ∧ (Link.count e l).lastAbort = l.lastAbort ∧ (Link.count e l).driven = l.driven := by
  unfold Link.count
  (repeat' split) <;> simp

@[simp] theorem Link.clearCounters_frame (l : Link) :
    (Link.clearCounters l).station = l.station ∧ (Link.clearCounters l).rateFast = l.rateFast
    ∧ (Link.clearCounters l).rx = l.rx ∧ (Link.clearCounters l).access = l.access
    ∧ (Link.clearCounters l).delay = l.delay ∧ (Link.clearCounters l).gapDone = l.gapDone
    ∧ (Link.clearCounters l).queue = l.queue ∧ (Link.clearCounters l).wslot = l.wslot
    ∧ (Link.clearCounters l).tslot = l.tslot ∧ (Link.clearCounters l).inHand = l.inHand
    ∧ (Link.clearCounters l).discards = l.discards ∧ (Link.clearCounters l).quietTimer = l.quietTimer
    ∧ (Link.clearCounters l).driven = l.driven := by and_intros <;> rfl

@[simp] theorem Link.dominant_frame (l : Link) :
    (Link.dominant l).station = l.station ∧ (Link.dominant l).rateFast = l.rateFast
    ∧ (Link.dominant l).queue = l.queue ∧ (Link.dominant l).wslot = l.wslot
    ∧ (Link.dominant l).tslot = l.tslot ∧ (Link.dominant l).inHand = l.inHand
    ∧ (Link.dominant l).discards = l.discards ∧ (Link.dominant l).quietTimer = l.quietTimer
    ∧ (Link.dominant l).check = l.check ∧ (Link.dominant l).form = l.form ∧ (Link.dominant l).length = l.length
    ∧ (Link.dominant l).txFail = l.txFail ∧ (Link.dominant l).qDrop = l.qDrop
    ∧ (Link.dominant l).quietEntries = l.quietEntries ∧ (Link.dominant l).lastAbort = l.lastAbort
    ∧ (Link.dominant l).driven = l.driven := by
  unfold Link.dominant
  (repeat' split) <;> simp

@[simp] theorem Link.delayEnd_frame (l : Link) :
    (Link.delayEnd l).station = l.station ∧ (Link.delayEnd l).rateFast = l.rateFast ∧ (Link.delayEnd l).rx = l.rx
    ∧ (Link.delayEnd l).queue = l.queue ∧ (Link.delayEnd l).wslot = l.wslot
    ∧ (Link.delayEnd l).tslot = l.tslot ∧ (Link.delayEnd l).inHand = l.inHand
    ∧ (Link.delayEnd l).discards = l.discards ∧ (Link.delayEnd l).quietTimer = l.quietTimer
    ∧ (Link.delayEnd l).check = l.check ∧ (Link.delayEnd l).form = l.form ∧ (Link.delayEnd l).length = l.length
    ∧ (Link.delayEnd l).txFail = l.txFail ∧ (Link.delayEnd l).qDrop = l.qDrop
    ∧ (Link.delayEnd l).quietEntries = l.quietEntries ∧ (Link.delayEnd l).lastAbort = l.lastAbort := by
  unfold Link.delayEnd
  (repeat' split) <;> simp

@[simp] theorem Link.quietEnd_frame (now : Tick) (l : Link) :
    (Link.quietEnd now l).station = l.station ∧ (Link.quietEnd now l).rateFast = l.rateFast
    ∧ (Link.quietEnd now l).rx = l.rx ∧ (Link.quietEnd now l).delay = l.delay
    ∧ (Link.quietEnd now l).gapDone = l.gapDone ∧ (Link.quietEnd now l).queue = l.queue
    ∧ (Link.quietEnd now l).wslot = l.wslot ∧ (Link.quietEnd now l).tslot = l.tslot
    ∧ (Link.quietEnd now l).inHand = l.inHand ∧ (Link.quietEnd now l).check = l.check
    ∧ (Link.quietEnd now l).form = l.form ∧ (Link.quietEnd now l).length = l.length
    ∧ (Link.quietEnd now l).txFail = l.txFail ∧ (Link.quietEnd now l).qDrop = l.qDrop
    ∧ (Link.quietEnd now l).quietEntries = l.quietEntries ∧ (Link.quietEnd now l).lastAbort = l.lastAbort
    ∧ (Link.quietEnd now l).driven = l.driven := by
  unfold Link.quietEnd
  (repeat' split) <;> simp

/-! ## Engine -/

@[simp] theorem Engine.shut_frame (e : Engine) :
    (Engine.shut e).latched = e.latched ∧ (Engine.shut e).bins = e.bins ∧ (Engine.shut e).tallies = e.tallies
    ∧ (Engine.shut e).last = e.last := ⟨rfl, rfl, rfl, rfl⟩

@[simp] theorem Engine.accept_frame (l : Latched) (theta : Int) (v : PressureVal) (e : Engine) :
    (Engine.accept l theta v e).isOpen = e.isOpen ∧ (Engine.accept l theta v e).latched = e.latched
    ∧ (Engine.accept l theta v e).last = e.last := by
  simp only [Engine.accept]
  (repeat' split) <;> simp_all

@[simp] theorem Engine.sample_frame (cfg : Cfg) (t : InputTable) (now : Tick) (e : Engine) :
    (Engine.sample cfg t now e).isOpen = e.isOpen ∧ (Engine.sample cfg t now e).latched = e.latched
    ∧ (Engine.sample cfg t now e).last = e.last := by
  unfold Engine.sample
  (repeat' split) <;> simp

/-! ## ParamStore -/

@[simp] theorem ParamStore.finishWrite_frame (p : ParamStore) :
    (ParamStore.finishWrite p).cfg = p.cfg ∧ (ParamStore.finishWrite p).work = p.work
    ∧ (ParamStore.finishWrite p).curves = p.curves ∧ (ParamStore.finishWrite p).reqConfig = p.reqConfig
    ∧ (ParamStore.finishWrite p).reqCurve = p.reqCurve ∧ (ParamStore.finishWrite p).reqRetain = p.reqRetain
    ∧ (ParamStore.finishWrite p).configDefault = p.configDefault
    ∧ (ParamStore.finishWrite p).retainLost = p.retainLost ∧ (ParamStore.finishWrite p).window = p.window
    ∧ (ParamStore.finishWrite p).wrongCodes = p.wrongCodes ∧ (ParamStore.finishWrite p).lockout = p.lockout
    ∧ (ParamStore.finishWrite p).owed = p.owed ∧ (ParamStore.finishWrite p).owedNext = p.owedNext
    ∧ (ParamStore.finishWrite p).replaced = p.replaced := by
  unfold ParamStore.finishWrite
  (repeat' split) <;> simp

@[simp] theorem ParamStore.load_frame (now : Tick) (p : ParamStore) :
    (ParamStore.load now p).reqConfig = p.reqConfig ∧ (ParamStore.load now p).reqCurve = p.reqCurve
    ∧ (ParamStore.load now p).reqRetain = p.reqRetain ∧ (ParamStore.load now p).writing = p.writing
    ∧ (ParamStore.load now p).retainLost = p.retainLost ∧ (ParamStore.load now p).array = p.array :=
  ⟨rfl, rfl, rfl, rfl, rfl, rfl⟩

@[simp] theorem ParamStore.clearAnswered_frame (p : ParamStore) :
    (ParamStore.clearAnswered p).cfg = p.cfg ∧ (ParamStore.clearAnswered p).work = p.work
    ∧ (ParamStore.clearAnswered p).curves = p.curves ∧ (ParamStore.clearAnswered p).reqConfig = p.reqConfig
    ∧ (ParamStore.clearAnswered p).reqCurve = p.reqCurve ∧ (ParamStore.clearAnswered p).reqRetain = p.reqRetain
    ∧ (ParamStore.clearAnswered p).writing = p.writing ∧ (ParamStore.clearAnswered p).configDefault = p.configDefault
    ∧ (ParamStore.clearAnswered p).retainLost = p.retainLost ∧ (ParamStore.clearAnswered p).window = p.window
    ∧ (ParamStore.clearAnswered p).wrongCodes = p.wrongCodes ∧ (ParamStore.clearAnswered p).lockout = p.lockout
    ∧ (ParamStore.clearAnswered p).array = p.array := by and_intros <;> rfl

@[simp] theorem ParamStore.countWrong_frame (p : ParamStore) :
    (ParamStore.countWrong p).cfg = p.cfg ∧ (ParamStore.countWrong p).work = p.work
    ∧ (ParamStore.countWrong p).curves = p.curves ∧ (ParamStore.countWrong p).reqConfig = p.reqConfig
    ∧ (ParamStore.countWrong p).reqCurve = p.reqCurve ∧ (ParamStore.countWrong p).reqRetain = p.reqRetain
    ∧ (ParamStore.countWrong p).writing = p.writing ∧ (ParamStore.countWrong p).configDefault = p.configDefault
    ∧ (ParamStore.countWrong p).retainLost = p.retainLost ∧ (ParamStore.countWrong p).window = p.window
    ∧ (ParamStore.countWrong p).owed = p.owed ∧ (ParamStore.countWrong p).owedNext = p.owedNext
    ∧ (ParamStore.countWrong p).replaced = p.replaced
    ∧ (ParamStore.countWrong p).array = p.array := by and_intros <;> rfl

/-! ## Panel -/

@[simp] theorem Panel.keepSel_frame (b r : Option TruckRec) (p : Panel) :
    (Panel.keepSel b r p).settings = p.settings ∧ (Panel.keepSel b r p).page = p.page
    ∧ (Panel.keepSel b r p).keptPage = p.keptPage ∧ (Panel.keepSel b r p).decoder = p.decoder
    ∧ (Panel.keepSel b r p).keys = p.keys ∧ (Panel.keepSel b r p).shadow = p.shadow
    ∧ (Panel.keepSel b r p).bklLevel = p.bklLevel ∧ (Panel.keepSel b r p).bklTimer = p.bklTimer
    ∧ (Panel.keepSel b r p).message = p.message ∧ (Panel.keepSel b r p).setupItem = p.setupItem
    ∧ (Panel.keepSel b r p).countItem = p.countItem ∧ (Panel.keepSel b r p).diagItem = p.diagItem
    ∧ (Panel.keepSel b r p).lastPass = p.lastPass ∧ (Panel.keepSel b r p).frame = p.frame
    ∧ (Panel.keepSel b r p).frameTimer = p.frameTimer ∧ (Panel.keepSel b r p).blinkTimer = p.blinkTimer
    ∧ (Panel.keepSel b r p).blinkBlank = p.blinkBlank ∧ (Panel.keepSel b r p).peekHistory = p.peekHistory
    ∧ (Panel.keepSel b r p).histSel = p.histSel ∧ (Panel.keepSel b r p).histTimer = p.histTimer
    ∧ (Panel.keepSel b r p).histSecond = p.histSecond ∧ (Panel.keepSel b r p).buz = p.buz := by
  unfold Panel.keepSel
  (repeat' split) <;> simp

/-! ## TruckRec -/

@[simp] theorem TruckRec.evaluate_frame (cfg : Cfg) (r : TruckRec) :
    (TruckRec.evaluate cfg r).id = r.id ∧ (TruckRec.evaluate cfg r).target = r.target
    ∧ (TruckRec.evaluate cfg r).passes = r.passes ∧ (TruckRec.evaluate cfg r).count = r.count
    ∧ (TruckRec.evaluate cfg r).unweighed = r.unweighed ∧ (TruckRec.evaluate cfg r).total = r.total :=
  ⟨rfl, rfl, rfl, rfl, rfl, rfl⟩

/-! ## LoadRegister -/

@[simp] theorem LoadRegister.append_frame (s : Summary) (l : LoadRegister) :
    (LoadRegister.append s l).record = l.record ∧ (LoadRegister.append s l).seq = l.seq
    ∧ (LoadRegister.append s l).nextManual = l.nextManual ∧ (LoadRegister.append s l).shift = l.shift
    ∧ (LoadRegister.append s l).life = l.life ∧ (LoadRegister.append s l).refused = l.refused
    ∧ (LoadRegister.append s l).mirrorCounts = l.mirrorCounts
    ∧ (LoadRegister.append s l).mirrorTonnage = l.mirrorTonnage
    ∧ (LoadRegister.append s l).mirrorLife = l.mirrorLife ∧ (LoadRegister.append s l).refreshTimer = l.refreshTimer
    ∧ (LoadRegister.append s l).pollTimer = l.pollTimer := ⟨rfl, rfl, rfl, rfl, rfl, rfl, rfl, rfl, rfl, rfl, rfl⟩

/-! ## Panel -/

@[simp] theorem Panel.selectHistory_frame (s : Option (BitVec 32)) (now : Tick) (p : Panel) :
    (Panel.selectHistory s now p).settings = p.settings ∧ (Panel.selectHistory s now p).page = p.page
    ∧ (Panel.selectHistory s now p).keptPage = p.keptPage ∧ (Panel.selectHistory s now p).decoder = p.decoder
    ∧ (Panel.selectHistory s now p).keys = p.keys ∧ (Panel.selectHistory s now p).shadow = p.shadow
    ∧ (Panel.selectHistory s now p).bklLevel = p.bklLevel ∧ (Panel.selectHistory s now p).bklTimer = p.bklTimer
    ∧ (Panel.selectHistory s now p).message = p.message ∧ (Panel.selectHistory s now p).setupItem = p.setupItem
    ∧ (Panel.selectHistory s now p).countItem = p.countItem ∧ (Panel.selectHistory s now p).diagItem = p.diagItem
    ∧ (Panel.selectHistory s now p).lastPass = p.lastPass ∧ (Panel.selectHistory s now p).frame = p.frame
    ∧ (Panel.selectHistory s now p).frameTimer = p.frameTimer
    ∧ (Panel.selectHistory s now p).blinkTimer = p.blinkTimer
    ∧ (Panel.selectHistory s now p).blinkBlank = p.blinkBlank
    ∧ (Panel.selectHistory s now p).peekHistory = p.peekHistory
    ∧ (Panel.selectHistory s now p).truckSel = p.truckSel ∧ (Panel.selectHistory s now p).buz = p.buz := by
  unfold Panel.selectHistory
  (repeat' split) <;> simp

@[simp] theorem Panel.historyAppended_frame (ring : List Summary) (now : Tick) (p : Panel) :
    (Panel.historyAppended ring now p).settings = p.settings ∧ (Panel.historyAppended ring now p).page = p.page
    ∧ (Panel.historyAppended ring now p).keptPage = p.keptPage
    ∧ (Panel.historyAppended ring now p).decoder = p.decoder ∧ (Panel.historyAppended ring now p).keys = p.keys
    ∧ (Panel.historyAppended ring now p).shadow = p.shadow
    ∧ (Panel.historyAppended ring now p).bklLevel = p.bklLevel
    ∧ (Panel.historyAppended ring now p).bklTimer = p.bklTimer
    ∧ (Panel.historyAppended ring now p).message = p.message
    ∧ (Panel.historyAppended ring now p).setupItem = p.setupItem
    ∧ (Panel.historyAppended ring now p).countItem = p.countItem
    ∧ (Panel.historyAppended ring now p).diagItem = p.diagItem
    ∧ (Panel.historyAppended ring now p).lastPass = p.lastPass ∧ (Panel.historyAppended ring now p).frame = p.frame
    ∧ (Panel.historyAppended ring now p).frameTimer = p.frameTimer
    ∧ (Panel.historyAppended ring now p).blinkTimer = p.blinkTimer
    ∧ (Panel.historyAppended ring now p).blinkBlank = p.blinkBlank
    ∧ (Panel.historyAppended ring now p).peekHistory = p.peekHistory
    ∧ (Panel.historyAppended ring now p).truckSel = p.truckSel ∧ (Panel.historyAppended ring now p).buz = p.buz := by
  unfold Panel.historyAppended
  (repeat' split) <;> simp

/-! ## TruckRec -/

@[simp] theorem TruckRec.join_frame (p : PassRec) (r : TruckRec) :
    (TruckRec.join p r).id = r.id ∧ (TruckRec.join p r).target = r.target ∧ (TruckRec.join p r).flags = r.flags :=
  ⟨rfl, rfl, rfl⟩

@[simp] theorem TruckRec.amend_frame (p : PassRec) (removed : Nat) (r : TruckRec) :
    (TruckRec.amend p removed r).id = r.id ∧ (TruckRec.amend p removed r).target = r.target
    ∧ (TruckRec.amend p removed r).count = r.count ∧ (TruckRec.amend p removed r).unweighed = r.unweighed :=
  ⟨rfl, rfl, rfl, rfl⟩

@[simp] theorem TruckRec.adopt_frame (r : TruckRec) :
    (TruckRec.adopt r).id = r.id ∧ (TruckRec.adopt r).target = r.target ∧ (TruckRec.adopt r).passes = r.passes
    ∧ (TruckRec.adopt r).unweighed = r.unweighed ∧ (TruckRec.adopt r).total = r.total := ⟨rfl, rfl, rfl, rfl, rfl⟩

/-! ## LoadRegister -/

@[simp] theorem LoadRegister.countCommit_frame (kind : PassKind) (payload : Option Nat) (l : LoadRegister) :
    (LoadRegister.countCommit kind payload l).record = l.record
    ∧ (LoadRegister.countCommit kind payload l).seq = l.seq
    ∧ (LoadRegister.countCommit kind payload l).nextManual = l.nextManual
    ∧ (LoadRegister.countCommit kind payload l).history = l.history
    ∧ (LoadRegister.countCommit kind payload l).nextHist = l.nextHist
    ∧ (LoadRegister.countCommit kind payload l).refused = l.refused
    ∧ (LoadRegister.countCommit kind payload l).mirrorCounts = l.mirrorCounts
    ∧ (LoadRegister.countCommit kind payload l).mirrorTonnage = l.mirrorTonnage
    ∧ (LoadRegister.countCommit kind payload l).mirrorLife = l.mirrorLife
    ∧ (LoadRegister.countCommit kind payload l).refreshTimer = l.refreshTimer
    ∧ (LoadRegister.countCommit kind payload l).pollTimer = l.pollTimer := by
  unfold LoadRegister.countCommit
  (repeat' split) <;> simp

@[simp] theorem LoadRegister.lowerTonnage_frame (removed : Nat) (l : LoadRegister) :
    (LoadRegister.lowerTonnage removed l).record = l.record ∧ (LoadRegister.lowerTonnage removed l).seq = l.seq
    ∧ (LoadRegister.lowerTonnage removed l).nextManual = l.nextManual
    ∧ (LoadRegister.lowerTonnage removed l).history = l.history
    ∧ (LoadRegister.lowerTonnage removed l).nextHist = l.nextHist
    ∧ (LoadRegister.lowerTonnage removed l).refused = l.refused
    ∧ (LoadRegister.lowerTonnage removed l).mirrorCounts = l.mirrorCounts
    ∧ (LoadRegister.lowerTonnage removed l).mirrorTonnage = l.mirrorTonnage
    ∧ (LoadRegister.lowerTonnage removed l).mirrorLife = l.mirrorLife
    ∧ (LoadRegister.lowerTonnage removed l).refreshTimer = l.refreshTimer
    ∧ (LoadRegister.lowerTonnage removed l).pollTimer = l.pollTimer :=
  ⟨rfl, rfl, rfl, rfl, rfl, rfl, rfl, rfl, rfl, rfl, rfl⟩

@[simp] theorem LoadRegister.holdReport_frame (m : ReportMsg) (l : LoadRegister) :
    (LoadRegister.holdReport m l).record = l.record ∧ (LoadRegister.holdReport m l).seq = l.seq
    ∧ (LoadRegister.holdReport m l).nextManual = l.nextManual ∧ (LoadRegister.holdReport m l).history = l.history
    ∧ (LoadRegister.holdReport m l).nextHist = l.nextHist ∧ (LoadRegister.holdReport m l).shift = l.shift
    ∧ (LoadRegister.holdReport m l).life = l.life ∧ (LoadRegister.holdReport m l).refused = l.refused
    ∧ (LoadRegister.holdReport m l).refreshTimer = l.refreshTimer
    ∧ (LoadRegister.holdReport m l).pollTimer = l.pollTimer := by
  unfold LoadRegister.holdReport
  (repeat' split) <;> simp

@[simp] theorem LoadRegister.line_frame (l : LoadRegister) :
    (LoadRegister.line l).record = l.record ∧ (LoadRegister.line l).seq = l.seq
    ∧ (LoadRegister.line l).nextManual = l.nextManual ∧ (LoadRegister.line l).history = l.history
    ∧ (LoadRegister.line l).nextHist = l.nextHist ∧ (LoadRegister.line l).shift = l.shift
    ∧ (LoadRegister.line l).life = l.life := ⟨rfl, rfl, rfl, rfl, rfl, rfl, rfl⟩

@[simp] theorem LoadRegister.resume_frame (l : LoadRegister) :
    (LoadRegister.resume l).record = l.record ∧ (LoadRegister.resume l).seq = l.seq
    ∧ (LoadRegister.resume l).nextManual = l.nextManual ∧ (LoadRegister.resume l).history = l.history
    ∧ (LoadRegister.resume l).nextHist = l.nextHist ∧ (LoadRegister.resume l).shift = l.shift
    ∧ (LoadRegister.resume l).life = l.life ∧ (LoadRegister.resume l).mirrorCounts = l.mirrorCounts
    ∧ (LoadRegister.resume l).mirrorTonnage = l.mirrorTonnage ∧ (LoadRegister.resume l).mirrorLife = l.mirrorLife :=
  ⟨rfl, rfl, rfl, rfl, rfl, rfl, rfl, rfl, rfl, rfl⟩

/-! ## RoleArbiter -/

@[simp] theorem RoleArbiter.judge_frame (active shadow : Nat) (r : RoleArbiter) :
    (RoleArbiter.judge active shadow r).state = r.state
    ∧ (RoleArbiter.judge active shadow r).resumeRole = r.resumeRole
    ∧ (RoleArbiter.judge active shadow r).peers = r.peers ∧ (RoleArbiter.judge active shadow r).named = r.named
    ∧ (RoleArbiter.judge active shadow r).watch = r.watch ∧ (RoleArbiter.judge active shadow r).listen = r.listen
    ∧ (RoleArbiter.judge active shadow r).status = r.status
    ∧ (RoleArbiter.judge active shadow r).mirrored = r.mirrored
    ∧ (RoleArbiter.judge active shadow r).pairing = r.pairing
    ∧ (RoleArbiter.judge active shadow r).unpaired = r.unpaired
    ∧ (RoleArbiter.judge active shadow r).conflict = r.conflict
    ∧ (RoleArbiter.judge active shadow r).noWeigher = r.noWeigher
    ∧ (RoleArbiter.judge active shadow r).behind = r.behind
    ∧ (RoleArbiter.judge active shadow r).namedSeq = r.namedSeq := by and_intros <;> rfl

@[simp] theorem RoleArbiter.line_frame (r : RoleArbiter) :
    (RoleArbiter.line r).resumeRole = r.resumeRole ∧ (RoleArbiter.line r).mirrored = r.mirrored
    ∧ (RoleArbiter.line r).unpaired = r.unpaired := ⟨rfl, rfl, rfl⟩

@[simp] theorem RoleArbiter.suspend_frame (r : RoleArbiter) :
    (RoleArbiter.suspend r).state = r.state ∧ (RoleArbiter.suspend r).peers = r.peers
    ∧ (RoleArbiter.suspend r).named = r.named ∧ (RoleArbiter.suspend r).mirrored = r.mirrored
    ∧ (RoleArbiter.suspend r).mismatches = r.mismatches ∧ (RoleArbiter.suspend r).crossCheck = r.crossCheck
    ∧ (RoleArbiter.suspend r).unpaired = r.unpaired ∧ (RoleArbiter.suspend r).lastPair = r.lastPair
    ∧ (RoleArbiter.suspend r).conflict = r.conflict ∧ (RoleArbiter.suspend r).noWeigher = r.noWeigher
    ∧ (RoleArbiter.suspend r).behind = r.behind ∧ (RoleArbiter.suspend r).namedSeq = r.namedSeq := by and_intros <;> rfl

@[simp] theorem RoleArbiter.resume_frame (r : RoleArbiter) :
    (RoleArbiter.resume r).resumeRole = r.resumeRole ∧ (RoleArbiter.resume r).mirrored = r.mirrored
    ∧ (RoleArbiter.resume r).mismatches = r.mismatches ∧ (RoleArbiter.resume r).crossCheck = r.crossCheck
    ∧ (RoleArbiter.resume r).unpaired = r.unpaired ∧ (RoleArbiter.resume r).lastPair = r.lastPair
    ∧ (RoleArbiter.resume r).conflict = r.conflict := ⟨rfl, rfl, rfl, rfl, rfl, rfl, rfl⟩

/-! ## PassCtx -/

@[simp] theorem PassCtx.unweigh_frame (x : PassCtx) :
    (PassCtx.unweigh x).kind = x.kind ∧ (PassCtx.unweigh x).start = x.start
    ∧ (PassCtx.unweigh x).reweigh = x.reweigh ∧ (PassCtx.unweigh x).idx = x.idx
    ∧ (PassCtx.unweigh x).amendMade = x.amendMade := ⟨rfl, rfl, rfl, rfl, rfl⟩

@[simp] theorem PassCtx.takeResult_frame (w : WindowResult) (x : PassCtx) :
    (PassCtx.takeResult w x).kind = x.kind ∧ (PassCtx.takeResult w x).start = x.start
    ∧ (PassCtx.takeResult w x).reweigh = x.reweigh ∧ (PassCtx.takeResult w x).amendMade = x.amendMade :=
  ⟨rfl, rfl, rfl, rfl⟩

/-! ## Tracker -/

@[simp] theorem Tracker.mapCtx_frame (f : PassCtx → PassCtx) (t : Tracker) :
    (Tracker.mapCtx f t).cycle = t.cycle ∧ (Tracker.mapCtx f t).fillTimer = t.fillTimer
    ∧ (Tracker.mapCtx f t).carryTimer = t.carryTimer ∧ (Tracker.mapCtx f t).lossPressure = t.lossPressure
    ∧ (Tracker.mapCtx f t).lossAngle = t.lossAngle ∧ (Tracker.mapCtx f t).racked = t.racked
    ∧ (Tracker.mapCtx f t).prevAngle = t.prevAngle ∧ (Tracker.mapCtx f t).note = t.note
    ∧ (Tracker.mapCtx f t).suspCal = t.suspCal ∧ (Tracker.mapCtx f t).suspPower = t.suspPower
    ∧ (Tracker.mapCtx f t).voids = t.voids := ⟨rfl, rfl, rfl, rfl, rfl, rfl, rfl, rfl, rfl, rfl, rfl⟩

@[simp] theorem Tracker.endPass_frame (t : Tracker) :
    (Tracker.endPass t).cycle = t.cycle ∧ (Tracker.endPass t).racked = t.racked
    ∧ (Tracker.endPass t).prevAngle = t.prevAngle ∧ (Tracker.endPass t).note = t.note
    ∧ (Tracker.endPass t).suspCal = t.suspCal ∧ (Tracker.endPass t).suspPower = t.suspPower
    ∧ (Tracker.endPass t).voids = t.voids := ⟨rfl, rfl, rfl, rfl, rfl, rfl, rfl⟩

/-! ## PassCtx -/

@[simp] theorem PassCtx.abandon_frame (x : PassCtx) :
    (PassCtx.abandon x).kind = x.kind ∧ (PassCtx.abandon x).start = x.start ∧ (PassCtx.abandon x).idx = x.idx
    ∧ (PassCtx.abandon x).amendMade = x.amendMade := by
  simp only [PassCtx.abandon]
  (repeat' split) <;> simp_all

/-! ## CalUnit -/

@[simp] theorem CalUnit.enter_frame (set : Fin 4) (s : CurveSet) (prev : Option Int) (u : CalUnit) :
    (CalUnit.enter set s prev u).points = u.points ∧ (CalUnit.enter set s prev u).refused = u.refused
    ∧ (CalUnit.enter set s prev u).browse = u.browse := ⟨rfl, rfl, rfl⟩

@[simp] theorem CalUnit.step_frame (up : Bool) (u : CalUnit) :
    (CalUnit.step up u).state = u.state ∧ (CalUnit.step up u).onMass = u.onMass ∧ (CalUnit.step up u).geom = u.geom
    ∧ (CalUnit.step up u).prevAngle = u.prevAngle ∧ (CalUnit.step up u).liftOpen = u.liftOpen
    ∧ (CalUnit.step up u).points = u.points ∧ (CalUnit.step up u).refused = u.refused
    ∧ (CalUnit.step up u).accepted = u.accepted ∧ (CalUnit.step up u).keptEmpty = u.keptEmpty
    ∧ (CalUnit.step up u).keptLoaded = u.keptLoaded ∧ (CalUnit.step up u).outcome = u.outcome
    ∧ (CalUnit.step up u).lastRefused = u.lastRefused ∧ (CalUnit.step up u).curves = u.curves
    ∧ (CalUnit.step up u).failure = u.failure ∧ (CalUnit.step up u).browse = u.browse := by
  unfold CalUnit.step
  (repeat' split) <;> simp

@[simp] theorem CalUnit.endSelection_frame (g : Geom) (u : CalUnit) :
    (CalUnit.endSelection g u).target = u.target ∧ (CalUnit.endSelection g u).mass = u.mass
    ∧ (CalUnit.endSelection g u).onMass = u.onMass ∧ (CalUnit.endSelection g u).prevAngle = u.prevAngle
    ∧ (CalUnit.endSelection g u).points = u.points ∧ (CalUnit.endSelection g u).refused = u.refused
    ∧ (CalUnit.endSelection g u).keptLoaded = u.keptLoaded ∧ (CalUnit.endSelection g u).curves = u.curves
    ∧ (CalUnit.endSelection g u).browse = u.browse := by
  unfold CalUnit.endSelection
  (repeat' split) <;> simp

@[simp] theorem CalUnit.clearPoints_frame (u : CalUnit) :
    (CalUnit.clearPoints u).state = u.state ∧ (CalUnit.clearPoints u).target = u.target
    ∧ (CalUnit.clearPoints u).mass = u.mass ∧ (CalUnit.clearPoints u).onMass = u.onMass
    ∧ (CalUnit.clearPoints u).geom = u.geom ∧ (CalUnit.clearPoints u).prevAngle = u.prevAngle
    ∧ (CalUnit.clearPoints u).liftOpen = u.liftOpen ∧ (CalUnit.clearPoints u).refused = u.refused
    ∧ (CalUnit.clearPoints u).accepted = u.accepted ∧ (CalUnit.clearPoints u).keptEmpty = u.keptEmpty
    ∧ (CalUnit.clearPoints u).keptLoaded = u.keptLoaded ∧ (CalUnit.clearPoints u).outcome = u.outcome
    ∧ (CalUnit.clearPoints u).lastRefused = u.lastRefused ∧ (CalUnit.clearPoints u).curves = u.curves
    ∧ (CalUnit.clearPoints u).failure = u.failure ∧ (CalUnit.clearPoints u).browse = u.browse := by and_intros <;> rfl

@[simp] theorem CalUnit.judge_frame (u : CalUnit) :
    (CalUnit.judge u).state = u.state ∧ (CalUnit.judge u).target = u.target ∧ (CalUnit.judge u).mass = u.mass
    ∧ (CalUnit.judge u).onMass = u.onMass ∧ (CalUnit.judge u).geom = u.geom
    ∧ (CalUnit.judge u).prevAngle = u.prevAngle ∧ (CalUnit.judge u).refused = u.refused
    ∧ (CalUnit.judge u).curves = u.curves ∧ (CalUnit.judge u).failure = u.failure
    ∧ (CalUnit.judge u).browse = u.browse := by
  unfold CalUnit.judge
  (repeat' split) <;> simp

@[simp] theorem CalUnit.boundary_frame (g : Geom) (theta : Int) (u : CalUnit) :
    (CalUnit.boundary g theta u).state = u.state ∧ (CalUnit.boundary g theta u).target = u.target
    ∧ (CalUnit.boundary g theta u).mass = u.mass ∧ (CalUnit.boundary g theta u).onMass = u.onMass
    ∧ (CalUnit.boundary g theta u).geom = u.geom ∧ (CalUnit.boundary g theta u).prevAngle = u.prevAngle
    ∧ (CalUnit.boundary g theta u).refused = u.refused ∧ (CalUnit.boundary g theta u).curves = u.curves
    ∧ (CalUnit.boundary g theta u).failure = u.failure ∧ (CalUnit.boundary g theta u).browse = u.browse := by
  unfold CalUnit.boundary
  (repeat' split) <;> simp

@[simp] theorem CalUnit.angle_frame (theta : Int) (u : CalUnit) :
    (CalUnit.angle theta u).state = u.state ∧ (CalUnit.angle theta u).target = u.target
    ∧ (CalUnit.angle theta u).mass = u.mass ∧ (CalUnit.angle theta u).onMass = u.onMass
    ∧ (CalUnit.angle theta u).geom = u.geom ∧ (CalUnit.angle theta u).curves = u.curves
    ∧ (CalUnit.angle theta u).failure = u.failure ∧ (CalUnit.angle theta u).browse = u.browse := by
  unfold CalUnit.angle
  (repeat' split) <;> simp

@[simp] theorem CalUnit.accumulate_frame (g : Geom) (theta : Int) (v : PressureVal) (u : CalUnit) :
    (CalUnit.accumulate g theta v u).state = u.state ∧ (CalUnit.accumulate g theta v u).target = u.target
    ∧ (CalUnit.accumulate g theta v u).mass = u.mass ∧ (CalUnit.accumulate g theta v u).onMass = u.onMass
    ∧ (CalUnit.accumulate g theta v u).geom = u.geom ∧ (CalUnit.accumulate g theta v u).prevAngle = u.prevAngle
    ∧ (CalUnit.accumulate g theta v u).liftOpen = u.liftOpen
    ∧ (CalUnit.accumulate g theta v u).accepted = u.accepted
    ∧ (CalUnit.accumulate g theta v u).keptEmpty = u.keptEmpty
    ∧ (CalUnit.accumulate g theta v u).keptLoaded = u.keptLoaded
    ∧ (CalUnit.accumulate g theta v u).outcome = u.outcome
    ∧ (CalUnit.accumulate g theta v u).lastRefused = u.lastRefused
    ∧ (CalUnit.accumulate g theta v u).curves = u.curves ∧ (CalUnit.accumulate g theta v u).failure = u.failure
    ∧ (CalUnit.accumulate g theta v u).browse = u.browse := by
  simp only [CalUnit.accumulate]
  (repeat' split) <;> simp_all

@[simp] theorem CalUnit.sample_frame (cfg : Cfg) (t : InputTable) (now : Tick) (u : CalUnit) :
    (CalUnit.sample cfg t now u).state = u.state ∧ (CalUnit.sample cfg t now u).target = u.target
    ∧ (CalUnit.sample cfg t now u).mass = u.mass ∧ (CalUnit.sample cfg t now u).onMass = u.onMass
    ∧ (CalUnit.sample cfg t now u).geom = u.geom ∧ (CalUnit.sample cfg t now u).prevAngle = u.prevAngle
    ∧ (CalUnit.sample cfg t now u).liftOpen = u.liftOpen ∧ (CalUnit.sample cfg t now u).accepted = u.accepted
    ∧ (CalUnit.sample cfg t now u).keptEmpty = u.keptEmpty ∧ (CalUnit.sample cfg t now u).keptLoaded = u.keptLoaded
    ∧ (CalUnit.sample cfg t now u).outcome = u.outcome ∧ (CalUnit.sample cfg t now u).lastRefused = u.lastRefused
    ∧ (CalUnit.sample cfg t now u).curves = u.curves ∧ (CalUnit.sample cfg t now u).failure = u.failure
    ∧ (CalUnit.sample cfg t now u).browse = u.browse := by
  unfold CalUnit.sample
  (repeat' split) <;> simp

@[simp] theorem CalUnit.review_frame (cfg : Cfg) (u : CalUnit) :
    (CalUnit.review cfg u).target = u.target ∧ (CalUnit.review cfg u).mass = u.mass
    ∧ (CalUnit.review cfg u).onMass = u.onMass ∧ (CalUnit.review cfg u).geom = u.geom
    ∧ (CalUnit.review cfg u).prevAngle = u.prevAngle ∧ (CalUnit.review cfg u).liftOpen = u.liftOpen
    ∧ (CalUnit.review cfg u).points = u.points ∧ (CalUnit.review cfg u).refused = u.refused
    ∧ (CalUnit.review cfg u).accepted = u.accepted ∧ (CalUnit.review cfg u).keptEmpty = u.keptEmpty
    ∧ (CalUnit.review cfg u).keptLoaded = u.keptLoaded ∧ (CalUnit.review cfg u).outcome = u.outcome
    ∧ (CalUnit.review cfg u).lastRefused = u.lastRefused := by
  unfold CalUnit.review
  (repeat' split) <;> simp

@[simp] theorem CalUnit.advance_frame (cfg : Cfg) (u : CalUnit) :
    (CalUnit.advance cfg u).target = u.target ∧ (CalUnit.advance cfg u).mass = u.mass
    ∧ (CalUnit.advance cfg u).onMass = u.onMass ∧ (CalUnit.advance cfg u).geom = u.geom
    ∧ (CalUnit.advance cfg u).prevAngle = u.prevAngle ∧ (CalUnit.advance cfg u).refused = u.refused
    ∧ (CalUnit.advance cfg u).keptEmpty = u.keptEmpty := by
  simp only [CalUnit.advance]
  (repeat' split) <;> simp_all

@[simp] theorem CalUnit.resume_frame (u : CalUnit) :
    (CalUnit.resume u).target = u.target ∧ (CalUnit.resume u).mass = u.mass ∧ (CalUnit.resume u).onMass = u.onMass
    ∧ (CalUnit.resume u).geom = u.geom ∧ (CalUnit.resume u).accepted = u.accepted
    ∧ (CalUnit.resume u).keptEmpty = u.keptEmpty ∧ (CalUnit.resume u).keptLoaded = u.keptLoaded
    ∧ (CalUnit.resume u).outcome = u.outcome ∧ (CalUnit.resume u).lastRefused = u.lastRefused
    ∧ (CalUnit.resume u).curves = u.curves ∧ (CalUnit.resume u).failure = u.failure
    ∧ (CalUnit.resume u).browse = u.browse := by and_intros <;> rfl

/-! ## Panel -/

@[simp] theorem Panel.await_frame (p : Panel) :
    (Panel.await p).settings = p.settings ∧ (Panel.await p).page = p.page ∧ (Panel.await p).keptPage = p.keptPage
    ∧ (Panel.await p).keys = p.keys ∧ (Panel.await p).shadow = p.shadow ∧ (Panel.await p).bklLevel = p.bklLevel
    ∧ (Panel.await p).bklTimer = p.bklTimer ∧ (Panel.await p).message = p.message
    ∧ (Panel.await p).setupItem = p.setupItem ∧ (Panel.await p).countItem = p.countItem
    ∧ (Panel.await p).diagItem = p.diagItem ∧ (Panel.await p).lastPass = p.lastPass
    ∧ (Panel.await p).frame = p.frame ∧ (Panel.await p).frameTimer = p.frameTimer
    ∧ (Panel.await p).blinkTimer = p.blinkTimer ∧ (Panel.await p).blinkBlank = p.blinkBlank
    ∧ (Panel.await p).peekHistory = p.peekHistory ∧ (Panel.await p).histSel = p.histSel
    ∧ (Panel.await p).histTimer = p.histTimer ∧ (Panel.await p).histSecond = p.histSecond
    ∧ (Panel.await p).truckSel = p.truckSel ∧ (Panel.await p).buz = p.buz := by and_intros <;> rfl

@[simp] theorem Panel.takeLines_frame (lines : PerKey Bool) (p : Panel) :
    (Panel.takeLines lines p).settings = p.settings ∧ (Panel.takeLines lines p).page = p.page
    ∧ (Panel.takeLines lines p).keptPage = p.keptPage ∧ (Panel.takeLines lines p).decoder = p.decoder
    ∧ (Panel.takeLines lines p).shadow = p.shadow ∧ (Panel.takeLines lines p).bklLevel = p.bklLevel
    ∧ (Panel.takeLines lines p).bklTimer = p.bklTimer ∧ (Panel.takeLines lines p).message = p.message
    ∧ (Panel.takeLines lines p).setupItem = p.setupItem ∧ (Panel.takeLines lines p).countItem = p.countItem
    ∧ (Panel.takeLines lines p).diagItem = p.diagItem ∧ (Panel.takeLines lines p).lastPass = p.lastPass
    ∧ (Panel.takeLines lines p).frame = p.frame ∧ (Panel.takeLines lines p).frameTimer = p.frameTimer
    ∧ (Panel.takeLines lines p).blinkTimer = p.blinkTimer ∧ (Panel.takeLines lines p).blinkBlank = p.blinkBlank
    ∧ (Panel.takeLines lines p).peekHistory = p.peekHistory ∧ (Panel.takeLines lines p).histSel = p.histSel
    ∧ (Panel.takeLines lines p).histTimer = p.histTimer ∧ (Panel.takeLines lines p).histSecond = p.histSecond
    ∧ (Panel.takeLines lines p).truckSel = p.truckSel ∧ (Panel.takeLines lines p).buz = p.buz := by and_intros <;> rfl

@[simp] theorem Panel.unwatch_frame (p : Panel) :
    (Panel.unwatch p).settings = p.settings ∧ (Panel.unwatch p).page = p.page
    ∧ (Panel.unwatch p).keptPage = p.keptPage ∧ (Panel.unwatch p).decoder = p.decoder
    ∧ (Panel.unwatch p).shadow = p.shadow ∧ (Panel.unwatch p).bklLevel = p.bklLevel
    ∧ (Panel.unwatch p).bklTimer = p.bklTimer ∧ (Panel.unwatch p).message = p.message
    ∧ (Panel.unwatch p).setupItem = p.setupItem ∧ (Panel.unwatch p).countItem = p.countItem
    ∧ (Panel.unwatch p).diagItem = p.diagItem ∧ (Panel.unwatch p).lastPass = p.lastPass
    ∧ (Panel.unwatch p).frame = p.frame ∧ (Panel.unwatch p).frameTimer = p.frameTimer
    ∧ (Panel.unwatch p).blinkTimer = p.blinkTimer ∧ (Panel.unwatch p).blinkBlank = p.blinkBlank
    ∧ (Panel.unwatch p).peekHistory = p.peekHistory ∧ (Panel.unwatch p).histSel = p.histSel
    ∧ (Panel.unwatch p).histTimer = p.histTimer ∧ (Panel.unwatch p).histSecond = p.histSecond
    ∧ (Panel.unwatch p).truckSel = p.truckSel ∧ (Panel.unwatch p).buz = p.buz := by and_intros <;> rfl

@[simp] theorem Panel.keepPage_frame (p : Panel) :
    (Panel.keepPage p).settings = p.settings ∧ (Panel.keepPage p).page = p.page
    ∧ (Panel.keepPage p).decoder = p.decoder ∧ (Panel.keepPage p).keys = p.keys
    ∧ (Panel.keepPage p).shadow = p.shadow ∧ (Panel.keepPage p).bklLevel = p.bklLevel
    ∧ (Panel.keepPage p).bklTimer = p.bklTimer ∧ (Panel.keepPage p).message = p.message
    ∧ (Panel.keepPage p).setupItem = p.setupItem ∧ (Panel.keepPage p).countItem = p.countItem
    ∧ (Panel.keepPage p).diagItem = p.diagItem ∧ (Panel.keepPage p).lastPass = p.lastPass
    ∧ (Panel.keepPage p).frame = p.frame ∧ (Panel.keepPage p).frameTimer = p.frameTimer
    ∧ (Panel.keepPage p).blinkTimer = p.blinkTimer ∧ (Panel.keepPage p).blinkBlank = p.blinkBlank
    ∧ (Panel.keepPage p).peekHistory = p.peekHistory ∧ (Panel.keepPage p).histSel = p.histSel
    ∧ (Panel.keepPage p).histTimer = p.histTimer ∧ (Panel.keepPage p).histSecond = p.histSecond
    ∧ (Panel.keepPage p).truckSel = p.truckSel ∧ (Panel.keepPage p).buz = p.buz := by and_intros <;> rfl

@[simp] theorem Panel.dozeKeys_frame (watched wasWatched : Bool) (lines : PerKey Bool) (p : Panel) :
    (Panel.dozeKeys watched wasWatched lines p).settings = p.settings
    ∧ (Panel.dozeKeys watched wasWatched lines p).page = p.page
    ∧ (Panel.dozeKeys watched wasWatched lines p).keptPage = p.keptPage
    ∧ (Panel.dozeKeys watched wasWatched lines p).shadow = p.shadow
    ∧ (Panel.dozeKeys watched wasWatched lines p).bklLevel = p.bklLevel
    ∧ (Panel.dozeKeys watched wasWatched lines p).bklTimer = p.bklTimer
    ∧ (Panel.dozeKeys watched wasWatched lines p).message = p.message
    ∧ (Panel.dozeKeys watched wasWatched lines p).setupItem = p.setupItem
    ∧ (Panel.dozeKeys watched wasWatched lines p).countItem = p.countItem
    ∧ (Panel.dozeKeys watched wasWatched lines p).diagItem = p.diagItem
    ∧ (Panel.dozeKeys watched wasWatched lines p).lastPass = p.lastPass
    ∧ (Panel.dozeKeys watched wasWatched lines p).frame = p.frame
    ∧ (Panel.dozeKeys watched wasWatched lines p).frameTimer = p.frameTimer
    ∧ (Panel.dozeKeys watched wasWatched lines p).blinkTimer = p.blinkTimer
    ∧ (Panel.dozeKeys watched wasWatched lines p).blinkBlank = p.blinkBlank
    ∧ (Panel.dozeKeys watched wasWatched lines p).peekHistory = p.peekHistory
    ∧ (Panel.dozeKeys watched wasWatched lines p).histSel = p.histSel
    ∧ (Panel.dozeKeys watched wasWatched lines p).histTimer = p.histTimer
    ∧ (Panel.dozeKeys watched wasWatched lines p).histSecond = p.histSecond
    ∧ (Panel.dozeKeys watched wasWatched lines p).truckSel = p.truckSel
    ∧ (Panel.dozeKeys watched wasWatched lines p).buz = p.buz := by
  unfold Panel.dozeKeys
  (repeat' split) <;> simp

@[simp] theorem Panel.peek_frame (p : Panel) :
    (Panel.peek p).settings = p.settings ∧ (Panel.peek p).page = p.page ∧ (Panel.peek p).keptPage = p.keptPage
    ∧ (Panel.peek p).keys = p.keys ∧ (Panel.peek p).shadow = p.shadow ∧ (Panel.peek p).bklLevel = p.bklLevel
    ∧ (Panel.peek p).bklTimer = p.bklTimer ∧ (Panel.peek p).message = p.message
    ∧ (Panel.peek p).setupItem = p.setupItem ∧ (Panel.peek p).diagItem = p.diagItem
    ∧ (Panel.peek p).lastPass = p.lastPass ∧ (Panel.peek p).frame = p.frame
    ∧ (Panel.peek p).frameTimer = p.frameTimer ∧ (Panel.peek p).blinkTimer = p.blinkTimer
    ∧ (Panel.peek p).blinkBlank = p.blinkBlank ∧ (Panel.peek p).histSel = p.histSel
    ∧ (Panel.peek p).histTimer = p.histTimer ∧ (Panel.peek p).histSecond = p.histSecond
    ∧ (Panel.peek p).truckSel = p.truckSel := by and_intros <;> rfl

@[simp] theorem Panel.line_frame (lines : PerKey Bool) (now : Tick) (p : Panel) :
    (Panel.line lines now p).settings = p.settings ∧ (Panel.line lines now p).bklLevel = p.bklLevel
    ∧ (Panel.line lines now p).bklTimer = p.bklTimer ∧ (Panel.line lines now p).frame = p.frame
    ∧ (Panel.line lines now p).frameTimer = p.frameTimer ∧ (Panel.line lines now p).blinkTimer = p.blinkTimer
    ∧ (Panel.line lines now p).blinkBlank = p.blinkBlank := ⟨rfl, rfl, rfl, rfl, rfl, rfl, rfl⟩

@[simp] theorem Panel.resume_frame (lines : PerKey Bool) (now : Tick) (p : Panel) :
    (Panel.resume lines now p).settings = p.settings ∧ (Panel.resume lines now p).keptPage = p.keptPage
    ∧ (Panel.resume lines now p).shadow = p.shadow ∧ (Panel.resume lines now p).bklLevel = p.bklLevel
    ∧ (Panel.resume lines now p).bklTimer = p.bklTimer ∧ (Panel.resume lines now p).setupItem = p.setupItem
    ∧ (Panel.resume lines now p).countItem = p.countItem ∧ (Panel.resume lines now p).diagItem = p.diagItem
    ∧ (Panel.resume lines now p).lastPass = p.lastPass ∧ (Panel.resume lines now p).frame = p.frame
    ∧ (Panel.resume lines now p).frameTimer = p.frameTimer ∧ (Panel.resume lines now p).blinkTimer = p.blinkTimer
    ∧ (Panel.resume lines now p).blinkBlank = p.blinkBlank ∧ (Panel.resume lines now p).histSel = p.histSel
    ∧ (Panel.resume lines now p).truckSel = p.truckSel := by and_intros <;> rfl

/-! ## RoleArbiter -/

@[simp] theorem RoleArbiter.roleChangedAsleep_frame (weigher : Bool) (r : RoleArbiter) :
    (RoleArbiter.roleChangedAsleep weigher r).state = r.state
    ∧ (RoleArbiter.roleChangedAsleep weigher r).peers = r.peers
    ∧ (RoleArbiter.roleChangedAsleep weigher r).named = r.named
    ∧ (RoleArbiter.roleChangedAsleep weigher r).watch = r.watch
    ∧ (RoleArbiter.roleChangedAsleep weigher r).listen = r.listen
    ∧ (RoleArbiter.roleChangedAsleep weigher r).status = r.status
    ∧ (RoleArbiter.roleChangedAsleep weigher r).pairing = r.pairing
    ∧ (RoleArbiter.roleChangedAsleep weigher r).mismatches = r.mismatches
    ∧ (RoleArbiter.roleChangedAsleep weigher r).crossCheck = r.crossCheck
    ∧ (RoleArbiter.roleChangedAsleep weigher r).unpaired = r.unpaired
    ∧ (RoleArbiter.roleChangedAsleep weigher r).lastPair = r.lastPair
    ∧ (RoleArbiter.roleChangedAsleep weigher r).conflict = r.conflict
    ∧ (RoleArbiter.roleChangedAsleep weigher r).noWeigher = r.noWeigher
    ∧ (RoleArbiter.roleChangedAsleep weigher r).behind = r.behind
    ∧ (RoleArbiter.roleChangedAsleep weigher r).namedSeq = r.namedSeq := by
  unfold RoleArbiter.roleChangedAsleep
  (repeat' split) <;> simp

/-! ## Panel -/

@[simp] theorem Panel.restartBlink_frame (now : Tick) (p : Panel) :
    (Panel.restartBlink now p).settings = p.settings ∧ (Panel.restartBlink now p).page = p.page
    ∧ (Panel.restartBlink now p).keptPage = p.keptPage ∧ (Panel.restartBlink now p).decoder = p.decoder
    ∧ (Panel.restartBlink now p).keys = p.keys ∧ (Panel.restartBlink now p).shadow = p.shadow
    ∧ (Panel.restartBlink now p).bklLevel = p.bklLevel ∧ (Panel.restartBlink now p).bklTimer = p.bklTimer
    ∧ (Panel.restartBlink now p).message = p.message ∧ (Panel.restartBlink now p).setupItem = p.setupItem
    ∧ (Panel.restartBlink now p).countItem = p.countItem ∧ (Panel.restartBlink now p).diagItem = p.diagItem
    ∧ (Panel.restartBlink now p).lastPass = p.lastPass ∧ (Panel.restartBlink now p).frame = p.frame
    ∧ (Panel.restartBlink now p).frameTimer = p.frameTimer ∧ (Panel.restartBlink now p).peekHistory = p.peekHistory
    ∧ (Panel.restartBlink now p).histSel = p.histSel ∧ (Panel.restartBlink now p).histTimer = p.histTimer
    ∧ (Panel.restartBlink now p).histSecond = p.histSecond ∧ (Panel.restartBlink now p).truckSel = p.truckSel
    ∧ (Panel.restartBlink now p).buz = p.buz := by and_intros <;> rfl

/-! ## Link -/

@[simp] theorem Link.busTaken_frame (l : Link) :
    (Link.busTaken l).station = l.station ∧ (Link.busTaken l).rateFast = l.rateFast ∧ (Link.busTaken l).rx = l.rx
    ∧ (Link.busTaken l).gapDone = l.gapDone ∧ (Link.busTaken l).queue = l.queue ∧ (Link.busTaken l).wslot = l.wslot
    ∧ (Link.busTaken l).tslot = l.tslot ∧ (Link.busTaken l).inHand = l.inHand
    ∧ (Link.busTaken l).discards = l.discards ∧ (Link.busTaken l).quietTimer = l.quietTimer
    ∧ (Link.busTaken l).check = l.check ∧ (Link.busTaken l).form = l.form ∧ (Link.busTaken l).length = l.length
    ∧ (Link.busTaken l).txFail = l.txFail ∧ (Link.busTaken l).qDrop = l.qDrop
    ∧ (Link.busTaken l).quietEntries = l.quietEntries ∧ (Link.busTaken l).lastAbort = l.lastAbort
    ∧ (Link.busTaken l).driven = l.driven := by
  unfold Link.busTaken
  (repeat' split) <;> simp

@[simp] theorem Link.runEnded_frame (l : Link) :
    (Link.runEnded l).station = l.station ∧ (Link.runEnded l).rateFast = l.rateFast
    ∧ (Link.runEnded l).queue = l.queue ∧ (Link.runEnded l).wslot = l.wslot ∧ (Link.runEnded l).tslot = l.tslot
    ∧ (Link.runEnded l).inHand = l.inHand ∧ (Link.runEnded l).discards = l.discards
    ∧ (Link.runEnded l).quietTimer = l.quietTimer ∧ (Link.runEnded l).check = l.check
    ∧ (Link.runEnded l).form = l.form ∧ (Link.runEnded l).length = l.length ∧ (Link.runEnded l).txFail = l.txFail
    ∧ (Link.runEnded l).qDrop = l.qDrop ∧ (Link.runEnded l).quietEntries = l.quietEntries
    ∧ (Link.runEnded l).lastAbort = l.lastAbort ∧ (Link.runEnded l).driven = l.driven := by
  simp [Link.runEnded]

@[simp] theorem Link.runFailed_frame (e : RxError) (l : Link) :
    (Link.runFailed e l).station = l.station
    ∧ (Link.runFailed e l).rateFast = l.rateFast
    ∧ (Link.runFailed e l).queue = l.queue
    ∧ (Link.runFailed e l).wslot = l.wslot
    ∧ (Link.runFailed e l).tslot = l.tslot
    ∧ (Link.runFailed e l).inHand = l.inHand
    ∧ (Link.runFailed e l).discards = l.discards
    ∧ (Link.runFailed e l).quietTimer = l.quietTimer
    ∧ (Link.runFailed e l).txFail = l.txFail
    ∧ (Link.runFailed e l).qDrop = l.qDrop
    ∧ (Link.runFailed e l).quietEntries = l.quietEntries
    ∧ (Link.runFailed e l).lastAbort = l.lastAbort
    ∧ (Link.runFailed e l).driven = l.driven := by
  simp only [Link.runFailed]
  (repeat' split) <;> simp

end Sys2Proof.Machine
end

