-- ==== Sys2Proof/Laws/Frames.lean ====
section
/-! SUPPORT. The frame of each operation of the part: the blocks and fields it leaves as they stand. -/

namespace Sys2Proof.Machine

/-! ## Buzzer -/

@[simp] theorem Chip.beepEvent_frame (p : Pattern) (c : Chip) :
    (Chip.beepEvent p c).pins = c.pins ∧ (Chip.beepEvent p c).sup = c.sup ∧ (Chip.beepEvent p c).tick = c.tick
    ∧ (Chip.beepEvent p c).link = c.link ∧ (Chip.beepEvent p c).inp = c.inp ∧ (Chip.beepEvent p c).eng = c.eng
    ∧ (Chip.beepEvent p c).trk = c.trk ∧ (Chip.beepEvent p c).load = c.load ∧ (Chip.beepEvent p c).role = c.role
    ∧ (Chip.beepEvent p c).cal = c.cal ∧ (Chip.beepEvent p c).alarm = c.alarm
    ∧ (Chip.beepEvent p c).panel.settings = c.panel.settings ∧ (Chip.beepEvent p c).panel.page = c.panel.page
    ∧ (Chip.beepEvent p c).panel.keys = c.panel.keys ∧ (Chip.beepEvent p c).panel.decoder = c.panel.decoder
    ∧ (Chip.beepEvent p c).store = c.store := by
  unfold Chip.beepEvent
  (repeat' split) <;> simp

@[simp] theorem Chip.buzzerPhaseEnd_frame (c : Chip) :
    (Chip.buzzerPhaseEnd c).pins = c.pins ∧ (Chip.buzzerPhaseEnd c).sup = c.sup
    ∧ (Chip.buzzerPhaseEnd c).tick = c.tick ∧ (Chip.buzzerPhaseEnd c).link = c.link
    ∧ (Chip.buzzerPhaseEnd c).inp = c.inp ∧ (Chip.buzzerPhaseEnd c).eng = c.eng
    ∧ (Chip.buzzerPhaseEnd c).trk = c.trk ∧ (Chip.buzzerPhaseEnd c).load = c.load
    ∧ (Chip.buzzerPhaseEnd c).role = c.role ∧ (Chip.buzzerPhaseEnd c).cal = c.cal
    ∧ (Chip.buzzerPhaseEnd c).alarm = c.alarm ∧ (Chip.buzzerPhaseEnd c).panel.settings = c.panel.settings
    ∧ (Chip.buzzerPhaseEnd c).panel.page = c.panel.page ∧ (Chip.buzzerPhaseEnd c).panel.keys = c.panel.keys
    ∧ (Chip.buzzerPhaseEnd c).panel.decoder = c.panel.decoder ∧ (Chip.buzzerPhaseEnd c).store = c.store := by
  simp [Chip.buzzerPhaseEnd]

/-! ## Alarm -/

@[simp] theorem Chip.setAlarms_frame (u : AlarmUnit) (c : Chip) :
    (Chip.setAlarms u c).pins = c.pins ∧ (Chip.setAlarms u c).sup = c.sup ∧ (Chip.setAlarms u c).tick = c.tick
    ∧ (Chip.setAlarms u c).link = c.link ∧ (Chip.setAlarms u c).inp = c.inp ∧ (Chip.setAlarms u c).eng = c.eng
    ∧ (Chip.setAlarms u c).trk = c.trk ∧ (Chip.setAlarms u c).load = c.load ∧ (Chip.setAlarms u c).role = c.role
    ∧ (Chip.setAlarms u c).cal = c.cal ∧ (Chip.setAlarms u c).panel.settings = c.panel.settings
    ∧ (Chip.setAlarms u c).panel.page = c.panel.page ∧ (Chip.setAlarms u c).panel.keys = c.panel.keys
    ∧ (Chip.setAlarms u c).panel.decoder = c.panel.decoder ∧ (Chip.setAlarms u c).store = c.store := by
  simp only [Chip.setAlarms]
  (repeat' split) <;> simp_all

@[simp] theorem Chip.oneShot_frame (a : Alarm) (c : Chip) :
    (Chip.oneShot a c).pins = c.pins ∧ (Chip.oneShot a c).sup = c.sup ∧ (Chip.oneShot a c).tick = c.tick
    ∧ (Chip.oneShot a c).link = c.link ∧ (Chip.oneShot a c).inp = c.inp ∧ (Chip.oneShot a c).eng = c.eng
    ∧ (Chip.oneShot a c).trk = c.trk ∧ (Chip.oneShot a c).load = c.load ∧ (Chip.oneShot a c).role = c.role
    ∧ (Chip.oneShot a c).cal = c.cal ∧ (Chip.oneShot a c).alarm = c.alarm
    ∧ (Chip.oneShot a c).panel.settings = c.panel.settings ∧ (Chip.oneShot a c).panel.page = c.panel.page
    ∧ (Chip.oneShot a c).panel.keys = c.panel.keys ∧ (Chip.oneShot a c).panel.decoder = c.panel.decoder
    ∧ (Chip.oneShot a c).store = c.store := by
  unfold Chip.oneShot
  (repeat' split) <;> simp

@[simp] theorem Chip.takeCond_frame (a : Alarm) (v : Bool) (c : Chip) :
    (Chip.takeCond a v c).pins = c.pins ∧ (Chip.takeCond a v c).sup = c.sup ∧ (Chip.takeCond a v c).tick = c.tick
    ∧ (Chip.takeCond a v c).link = c.link ∧ (Chip.takeCond a v c).inp = c.inp ∧ (Chip.takeCond a v c).eng = c.eng
    ∧ (Chip.takeCond a v c).trk = c.trk ∧ (Chip.takeCond a v c).load = c.load ∧ (Chip.takeCond a v c).role = c.role
    ∧ (Chip.takeCond a v c).cal = c.cal ∧ (Chip.takeCond a v c).panel.settings = c.panel.settings
    ∧ (Chip.takeCond a v c).panel.page = c.panel.page ∧ (Chip.takeCond a v c).panel.keys = c.panel.keys
    ∧ (Chip.takeCond a v c).panel.decoder = c.panel.decoder ∧ (Chip.takeCond a v c).store = c.store := by
  simp only [Chip.takeCond]
  (repeat' split) <;> simp_all

@[simp] theorem Chip.pulsePassOver_frame (c : Chip) :
    (Chip.pulsePassOver c).pins = c.pins ∧ (Chip.pulsePassOver c).sup = c.sup ∧ (Chip.pulsePassOver c).tick = c.tick
    ∧ (Chip.pulsePassOver c).link = c.link ∧ (Chip.pulsePassOver c).inp = c.inp ∧ (Chip.pulsePassOver c).eng = c.eng
    ∧ (Chip.pulsePassOver c).trk = c.trk ∧ (Chip.pulsePassOver c).load = c.load
    ∧ (Chip.pulsePassOver c).role = c.role ∧ (Chip.pulsePassOver c).cal = c.cal
    ∧ (Chip.pulsePassOver c).panel.settings = c.panel.settings ∧ (Chip.pulsePassOver c).panel.page = c.panel.page
    ∧ (Chip.pulsePassOver c).panel.keys = c.panel.keys ∧ (Chip.pulsePassOver c).panel.decoder = c.panel.decoder
    ∧ (Chip.pulsePassOver c).store = c.store := by
  simp [Chip.pulsePassOver]

@[simp] theorem Chip.acknowledge_frame (a : Alarm) (c : Chip) :
    (Chip.acknowledge a c).pins = c.pins ∧ (Chip.acknowledge a c).sup = c.sup ∧ (Chip.acknowledge a c).tick = c.tick
    ∧ (Chip.acknowledge a c).link = c.link ∧ (Chip.acknowledge a c).inp = c.inp ∧ (Chip.acknowledge a c).eng = c.eng
    ∧ (Chip.acknowledge a c).trk = c.trk ∧ (Chip.acknowledge a c).load = c.load
    ∧ (Chip.acknowledge a c).role = c.role ∧ (Chip.acknowledge a c).cal = c.cal
    ∧ (Chip.acknowledge a c).panel.settings = c.panel.settings ∧ (Chip.acknowledge a c).panel.page = c.panel.page
    ∧ (Chip.acknowledge a c).panel.keys = c.panel.keys ∧ (Chip.acknowledge a c).panel.decoder = c.panel.decoder
    ∧ (Chip.acknowledge a c).store = c.store := by
  simp [Chip.acknowledge]

@[simp] theorem Chip.maskTimerExpiry_frame (a : Alarm) (c : Chip) :
    (Chip.maskTimerExpiry a c).pins = c.pins ∧ (Chip.maskTimerExpiry a c).sup = c.sup
    ∧ (Chip.maskTimerExpiry a c).tick = c.tick ∧ (Chip.maskTimerExpiry a c).link = c.link
    ∧ (Chip.maskTimerExpiry a c).inp = c.inp ∧ (Chip.maskTimerExpiry a c).eng = c.eng
    ∧ (Chip.maskTimerExpiry a c).trk = c.trk ∧ (Chip.maskTimerExpiry a c).load = c.load
    ∧ (Chip.maskTimerExpiry a c).role = c.role ∧ (Chip.maskTimerExpiry a c).cal = c.cal
    ∧ (Chip.maskTimerExpiry a c).panel.settings = c.panel.settings
    ∧ (Chip.maskTimerExpiry a c).panel.page = c.panel.page ∧ (Chip.maskTimerExpiry a c).panel.keys = c.panel.keys
    ∧ (Chip.maskTimerExpiry a c).panel.decoder = c.panel.decoder ∧ (Chip.maskTimerExpiry a c).store = c.store := by
  unfold Chip.maskTimerExpiry
  (repeat' split) <;> simp

@[simp] theorem Chip.refresh_frame (a : Alarm) (c : Chip) :
    (Chip.refresh a c).pins = c.pins ∧ (Chip.refresh a c).sup = c.sup ∧ (Chip.refresh a c).tick = c.tick
    ∧ (Chip.refresh a c).link = c.link ∧ (Chip.refresh a c).inp = c.inp ∧ (Chip.refresh a c).eng = c.eng
    ∧ (Chip.refresh a c).trk = c.trk ∧ (Chip.refresh a c).load = c.load ∧ (Chip.refresh a c).role = c.role
    ∧ (Chip.refresh a c).cal = c.cal ∧ (Chip.refresh a c).panel.settings = c.panel.settings
    ∧ (Chip.refresh a c).panel.page = c.panel.page ∧ (Chip.refresh a c).panel.keys = c.panel.keys
    ∧ (Chip.refresh a c).panel.decoder = c.panel.decoder ∧ (Chip.refresh a c).store = c.store := by
  simp [Chip.refresh]

@[simp] theorem Chip.refreshAlarms_frame (c : Chip) :
    (Chip.refreshAlarms c).pins = c.pins ∧ (Chip.refreshAlarms c).sup = c.sup ∧ (Chip.refreshAlarms c).tick = c.tick
    ∧ (Chip.refreshAlarms c).link = c.link ∧ (Chip.refreshAlarms c).inp = c.inp ∧ (Chip.refreshAlarms c).eng = c.eng
    ∧ (Chip.refreshAlarms c).trk = c.trk ∧ (Chip.refreshAlarms c).load = c.load
    ∧ (Chip.refreshAlarms c).role = c.role ∧ (Chip.refreshAlarms c).cal = c.cal
    ∧ (Chip.refreshAlarms c).panel.settings = c.panel.settings ∧ (Chip.refreshAlarms c).panel.page = c.panel.page
    ∧ (Chip.refreshAlarms c).panel.keys = c.panel.keys ∧ (Chip.refreshAlarms c).panel.decoder = c.panel.decoder
    ∧ (Chip.refreshAlarms c).store = c.store := by
  simp [Chip.refreshAlarms, Alarm.all, List.foldl]

@[simp] theorem Chip.alarmStart_frame (c : Chip) :
    (Chip.alarmStart c).pins = c.pins ∧ (Chip.alarmStart c).sup = c.sup ∧ (Chip.alarmStart c).tick = c.tick
    ∧ (Chip.alarmStart c).link = c.link ∧ (Chip.alarmStart c).inp = c.inp ∧ (Chip.alarmStart c).eng = c.eng
    ∧ (Chip.alarmStart c).trk = c.trk ∧ (Chip.alarmStart c).load = c.load ∧ (Chip.alarmStart c).role = c.role
    ∧ (Chip.alarmStart c).cal = c.cal ∧ (Chip.alarmStart c).panel.settings = c.panel.settings
    ∧ (Chip.alarmStart c).panel.page = c.panel.page ∧ (Chip.alarmStart c).panel.keys = c.panel.keys
    ∧ (Chip.alarmStart c).panel.decoder = c.panel.decoder ∧ (Chip.alarmStart c).store = c.store := by
  simp [Chip.alarmStart]

/-- The one-shots of a list of alarms reach the buzzer alone. -/
@[simp] theorem Chip.oneShots_frame (as : List Alarm) (c : Chip) :
    (as.foldl (fun c a => Chip.oneShot a c) c).pins = c.pins
    ∧ (as.foldl (fun c a => Chip.oneShot a c) c).sup = c.sup
    ∧ (as.foldl (fun c a => Chip.oneShot a c) c).tick = c.tick
    ∧ (as.foldl (fun c a => Chip.oneShot a c) c).link = c.link
    ∧ (as.foldl (fun c a => Chip.oneShot a c) c).inp = c.inp
    ∧ (as.foldl (fun c a => Chip.oneShot a c) c).eng = c.eng
    ∧ (as.foldl (fun c a => Chip.oneShot a c) c).trk = c.trk
    ∧ (as.foldl (fun c a => Chip.oneShot a c) c).load = c.load
    ∧ (as.foldl (fun c a => Chip.oneShot a c) c).role = c.role
    ∧ (as.foldl (fun c a => Chip.oneShot a c) c).cal = c.cal
    ∧ (as.foldl (fun c a => Chip.oneShot a c) c).alarm = c.alarm
    ∧ (as.foldl (fun c a => Chip.oneShot a c) c).panel.settings = c.panel.settings
    ∧ (as.foldl (fun c a => Chip.oneShot a c) c).panel.page = c.panel.page
    ∧ (as.foldl (fun c a => Chip.oneShot a c) c).panel.keys = c.panel.keys
    ∧ (as.foldl (fun c a => Chip.oneShot a c) c).panel.decoder = c.panel.decoder
    ∧ (as.foldl (fun c a => Chip.oneShot a c) c).store = c.store := by
  induction as generalizing c with
  | nil => simp
  | cons a as ih => simp [List.foldl_cons, ih]

@[simp] theorem Chip.reconfigureAlarms_frame (c : Chip) :
    (Chip.reconfigureAlarms c).pins = c.pins ∧ (Chip.reconfigureAlarms c).sup = c.sup
    ∧ (Chip.reconfigureAlarms c).tick = c.tick ∧ (Chip.reconfigureAlarms c).link = c.link
    ∧ (Chip.reconfigureAlarms c).inp = c.inp ∧ (Chip.reconfigureAlarms c).eng = c.eng
    ∧ (Chip.reconfigureAlarms c).trk = c.trk ∧ (Chip.reconfigureAlarms c).load = c.load
    ∧ (Chip.reconfigureAlarms c).role = c.role ∧ (Chip.reconfigureAlarms c).cal = c.cal
    ∧ (Chip.reconfigureAlarms c).panel.settings = c.panel.settings
    ∧ (Chip.reconfigureAlarms c).panel.page = c.panel.page ∧ (Chip.reconfigureAlarms c).panel.keys = c.panel.keys
    ∧ (Chip.reconfigureAlarms c).panel.decoder = c.panel.decoder ∧ (Chip.reconfigureAlarms c).store = c.store := by
  unfold Chip.reconfigureAlarms
  (repeat' split) <;> simp

/-! ## Link -/

@[simp] theorem Chip.offer_frame (t : OutTg) (c : Chip) :
    (Chip.offer t c).pins = c.pins ∧ (Chip.offer t c).sup = c.sup ∧ (Chip.offer t c).tick = c.tick
    ∧ (Chip.offer t c).link.station = c.link.station ∧ (Chip.offer t c).link.rateFast = c.link.rateFast
    ∧ (Chip.offer t c).link.rx = c.link.rx ∧ (Chip.offer t c).link.gapDone = c.link.gapDone
    ∧ (Chip.offer t c).inp = c.inp ∧ (Chip.offer t c).eng = c.eng ∧ (Chip.offer t c).trk = c.trk
    ∧ (Chip.offer t c).load = c.load ∧ (Chip.offer t c).role = c.role ∧ (Chip.offer t c).cal = c.cal
    ∧ (Chip.offer t c).alarm = c.alarm ∧ (Chip.offer t c).panel = c.panel ∧ (Chip.offer t c).store = c.store := by
  unfold Chip.offer
  (repeat' split) <;> simp

@[simp] theorem Chip.offerAll_frame (ts : List OutTg) (c : Chip) :
    (Chip.offerAll ts c).pins = c.pins ∧ (Chip.offerAll ts c).sup = c.sup ∧ (Chip.offerAll ts c).tick = c.tick
    ∧ (Chip.offerAll ts c).link.station = c.link.station ∧ (Chip.offerAll ts c).link.rateFast = c.link.rateFast
    ∧ (Chip.offerAll ts c).link.rx = c.link.rx ∧ (Chip.offerAll ts c).link.gapDone = c.link.gapDone
    ∧ (Chip.offerAll ts c).inp = c.inp ∧ (Chip.offerAll ts c).eng = c.eng ∧ (Chip.offerAll ts c).trk = c.trk
    ∧ (Chip.offerAll ts c).load = c.load ∧ (Chip.offerAll ts c).role = c.role ∧ (Chip.offerAll ts c).cal = c.cal
    ∧ (Chip.offerAll ts c).alarm = c.alarm ∧ (Chip.offerAll ts c).panel = c.panel
    ∧ (Chip.offerAll ts c).store = c.store := by
  unfold Chip.offerAll; induction ts generalizing c with | nil => simp | cons t ts ih => simp [List.foldl_cons, ih]

@[simp] theorem Chip.settleLink_frame (c : Chip) :
    (Chip.settleLink c).pins = c.pins ∧ (Chip.settleLink c).sup = c.sup ∧ (Chip.settleLink c).tick = c.tick
    ∧ (Chip.settleLink c).link.station = c.link.station ∧ (Chip.settleLink c).link.rateFast = c.link.rateFast
    ∧ (Chip.settleLink c).link.rx = c.link.rx ∧ (Chip.settleLink c).link.gapDone = c.link.gapDone
    ∧ (Chip.settleLink c).inp = c.inp ∧ (Chip.settleLink c).eng = c.eng ∧ (Chip.settleLink c).trk = c.trk
    ∧ (Chip.settleLink c).load = c.load ∧ (Chip.settleLink c).role = c.role ∧ (Chip.settleLink c).cal = c.cal
    ∧ (Chip.settleLink c).alarm = c.alarm ∧ (Chip.settleLink c).panel = c.panel
    ∧ (Chip.settleLink c).store = c.store := by
  simp [Chip.settleLink]

@[simp] theorem Chip.countShort_frame (c : Chip) :
    (Chip.countShort c).pins = c.pins ∧ (Chip.countShort c).sup = c.sup ∧ (Chip.countShort c).tick = c.tick
    ∧ (Chip.countShort c).link.station = c.link.station ∧ (Chip.countShort c).link.rateFast = c.link.rateFast
    ∧ (Chip.countShort c).link.rx = c.link.rx ∧ (Chip.countShort c).link.gapDone = c.link.gapDone
    ∧ (Chip.countShort c).inp = c.inp ∧ (Chip.countShort c).eng = c.eng ∧ (Chip.countShort c).trk = c.trk
    ∧ (Chip.countShort c).load = c.load ∧ (Chip.countShort c).role = c.role ∧ (Chip.countShort c).cal = c.cal
    ∧ (Chip.countShort c).alarm = c.alarm ∧ (Chip.countShort c).panel = c.panel
    ∧ (Chip.countShort c).store = c.store := by
  simp [Chip.countShort]

@[simp] theorem Chip.diagRequest_frame (src : Byte) (clear : Bool) (c : Chip) :
    (Chip.diagRequest src clear c).pins = c.pins ∧ (Chip.diagRequest src clear c).sup = c.sup
    ∧ (Chip.diagRequest src clear c).tick = c.tick ∧ (Chip.diagRequest src clear c).link.station = c.link.station
    ∧ (Chip.diagRequest src clear c).link.rateFast = c.link.rateFast
    ∧ (Chip.diagRequest src clear c).link.rx = c.link.rx
    ∧ (Chip.diagRequest src clear c).link.gapDone = c.link.gapDone ∧ (Chip.diagRequest src clear c).inp = c.inp
    ∧ (Chip.diagRequest src clear c).eng = c.eng ∧ (Chip.diagRequest src clear c).trk = c.trk
    ∧ (Chip.diagRequest src clear c).load = c.load ∧ (Chip.diagRequest src clear c).role = c.role
    ∧ (Chip.diagRequest src clear c).cal = c.cal ∧ (Chip.diagRequest src clear c).alarm = c.alarm
    ∧ (Chip.diagRequest src clear c).panel = c.panel ∧ (Chip.diagRequest src clear c).store = c.store := by
  unfold Chip.diagRequest
  (repeat' split) <;> simp

@[simp] theorem Chip.dominantDuringDelay_frame (c : Chip) :
    (Chip.dominantDuringDelay c).pins = c.pins ∧ (Chip.dominantDuringDelay c).sup = c.sup
    ∧ (Chip.dominantDuringDelay c).tick = c.tick ∧ (Chip.dominantDuringDelay c).link.station = c.link.station
    ∧ (Chip.dominantDuringDelay c).link.rateFast = c.link.rateFast ∧ (Chip.dominantDuringDelay c).inp = c.inp
    ∧ (Chip.dominantDuringDelay c).eng = c.eng ∧ (Chip.dominantDuringDelay c).trk = c.trk
    ∧ (Chip.dominantDuringDelay c).load = c.load ∧ (Chip.dominantDuringDelay c).role = c.role
    ∧ (Chip.dominantDuringDelay c).cal = c.cal ∧ (Chip.dominantDuringDelay c).alarm = c.alarm
    ∧ (Chip.dominantDuringDelay c).panel = c.panel ∧ (Chip.dominantDuringDelay c).store = c.store := by
  simp [Chip.dominantDuringDelay]

@[simp] theorem Chip.accessDelayEnd_frame (c : Chip) :
    (Chip.accessDelayEnd c).pins = c.pins ∧ (Chip.accessDelayEnd c).sup = c.sup
    ∧ (Chip.accessDelayEnd c).tick = c.tick ∧ (Chip.accessDelayEnd c).link.station = c.link.station
    ∧ (Chip.accessDelayEnd c).link.rateFast = c.link.rateFast ∧ (Chip.accessDelayEnd c).link.rx = c.link.rx
    ∧ (Chip.accessDelayEnd c).inp = c.inp ∧ (Chip.accessDelayEnd c).eng = c.eng
    ∧ (Chip.accessDelayEnd c).trk = c.trk ∧ (Chip.accessDelayEnd c).load = c.load
    ∧ (Chip.accessDelayEnd c).role = c.role ∧ (Chip.accessDelayEnd c).cal = c.cal
    ∧ (Chip.accessDelayEnd c).alarm = c.alarm ∧ (Chip.accessDelayEnd c).panel = c.panel
    ∧ (Chip.accessDelayEnd c).store = c.store := by
  simp [Chip.accessDelayEnd]

@[simp] theorem Chip.telegramSent_frame (c : Chip) :
    (Chip.telegramSent c).pins = c.pins ∧ (Chip.telegramSent c).sup = c.sup ∧ (Chip.telegramSent c).tick = c.tick
    ∧ (Chip.telegramSent c).link.station = c.link.station ∧ (Chip.telegramSent c).link.rateFast = c.link.rateFast
    ∧ (Chip.telegramSent c).inp = c.inp ∧ (Chip.telegramSent c).eng = c.eng ∧ (Chip.telegramSent c).trk = c.trk
    ∧ (Chip.telegramSent c).load = c.load ∧ (Chip.telegramSent c).role = c.role ∧ (Chip.telegramSent c).cal = c.cal
    ∧ (Chip.telegramSent c).alarm = c.alarm ∧ (Chip.telegramSent c).panel = c.panel
    ∧ (Chip.telegramSent c).store = c.store := by
  unfold Chip.telegramSent
  (repeat' split) <;> simp

@[simp] theorem Chip.readbackMismatch_frame (bit : Nat) (c : Chip) :
    (Chip.readbackMismatch bit c).pins = c.pins ∧ (Chip.readbackMismatch bit c).sup = c.sup
    ∧ (Chip.readbackMismatch bit c).tick = c.tick ∧ (Chip.readbackMismatch bit c).link.station = c.link.station
    ∧ (Chip.readbackMismatch bit c).link.rateFast = c.link.rateFast ∧ (Chip.readbackMismatch bit c).inp = c.inp
    ∧ (Chip.readbackMismatch bit c).eng = c.eng ∧ (Chip.readbackMismatch bit c).trk = c.trk
    ∧ (Chip.readbackMismatch bit c).load = c.load ∧ (Chip.readbackMismatch bit c).role = c.role
    ∧ (Chip.readbackMismatch bit c).cal = c.cal ∧ (Chip.readbackMismatch bit c).alarm = c.alarm
    ∧ (Chip.readbackMismatch bit c).panel = c.panel ∧ (Chip.readbackMismatch bit c).store = c.store := by
  unfold Chip.readbackMismatch
  (repeat' split) <;> simp

@[simp] theorem Chip.quietTimerExpiry_frame (c : Chip) :
    (Chip.quietTimerExpiry c).pins = c.pins ∧ (Chip.quietTimerExpiry c).sup = c.sup
    ∧ (Chip.quietTimerExpiry c).tick = c.tick ∧ (Chip.quietTimerExpiry c).link.station = c.link.station
    ∧ (Chip.quietTimerExpiry c).link.rateFast = c.link.rateFast ∧ (Chip.quietTimerExpiry c).link.rx = c.link.rx
    ∧ (Chip.quietTimerExpiry c).link.gapDone = c.link.gapDone ∧ (Chip.quietTimerExpiry c).inp = c.inp
    ∧ (Chip.quietTimerExpiry c).eng = c.eng ∧ (Chip.quietTimerExpiry c).trk = c.trk
    ∧ (Chip.quietTimerExpiry c).load = c.load ∧ (Chip.quietTimerExpiry c).role = c.role
    ∧ (Chip.quietTimerExpiry c).cal = c.cal ∧ (Chip.quietTimerExpiry c).alarm = c.alarm
    ∧ (Chip.quietTimerExpiry c).panel = c.panel ∧ (Chip.quietTimerExpiry c).store = c.store := by
  simp [Chip.quietTimerExpiry]

/-! ## Store -/

@[simp] theorem Chip.askRetain_frame (resume : RoleState) (c : Chip) :
    (Chip.askRetain resume c).pins = c.pins ∧ (Chip.askRetain resume c).sup = c.sup
    ∧ (Chip.askRetain resume c).tick = c.tick ∧ (Chip.askRetain resume c).link = c.link
    ∧ (Chip.askRetain resume c).inp = c.inp ∧ (Chip.askRetain resume c).eng = c.eng
    ∧ (Chip.askRetain resume c).trk = c.trk ∧ (Chip.askRetain resume c).load = c.load
    ∧ (Chip.askRetain resume c).role = c.role ∧ (Chip.askRetain resume c).cal = c.cal
    ∧ (Chip.askRetain resume c).alarm = c.alarm ∧ (Chip.askRetain resume c).panel = c.panel := by
  simp [Chip.askRetain]

@[simp] theorem Chip.configWrite_frame (src : Byte) (m : WriteMsg) (c : Chip) :
    (Chip.configWrite src m c).pins = c.pins ∧ (Chip.configWrite src m c).sup = c.sup
    ∧ (Chip.configWrite src m c).tick = c.tick ∧ (Chip.configWrite src m c).link.station = c.link.station
    ∧ (Chip.configWrite src m c).link.rateFast = c.link.rateFast ∧ (Chip.configWrite src m c).link.rx = c.link.rx
    ∧ (Chip.configWrite src m c).link.gapDone = c.link.gapDone ∧ (Chip.configWrite src m c).inp = c.inp
    ∧ (Chip.configWrite src m c).eng = c.eng ∧ (Chip.configWrite src m c).trk = c.trk
    ∧ (Chip.configWrite src m c).load = c.load ∧ (Chip.configWrite src m c).role = c.role
    ∧ (Chip.configWrite src m c).cal = c.cal ∧ (Chip.configWrite src m c).alarm = c.alarm
    ∧ (Chip.configWrite src m c).panel = c.panel ∧ (Chip.configWrite src m c).store.cfg = c.store.cfg
    ∧ (Chip.configWrite src m c).store.window = c.store.window
    ∧ (Chip.configWrite src m c).store.array = c.store.array
    ∧ (Chip.configWrite src m c).store.curves = c.store.curves := by
  unfold Chip.configWrite
  (repeat' split) <;> simp

@[simp] theorem Chip.configCommit_frame (src : Byte) (code : BitVec 32) (c : Chip) :
    (Chip.configCommit src code c).pins = c.pins ∧ (Chip.configCommit src code c).sup = c.sup
    ∧ (Chip.configCommit src code c).tick = c.tick ∧ (Chip.configCommit src code c).link.station = c.link.station
    ∧ (Chip.configCommit src code c).link.rateFast = c.link.rateFast
    ∧ (Chip.configCommit src code c).link.rx = c.link.rx
    ∧ (Chip.configCommit src code c).link.gapDone = c.link.gapDone ∧ (Chip.configCommit src code c).inp = c.inp
    ∧ (Chip.configCommit src code c).eng = c.eng ∧ (Chip.configCommit src code c).trk = c.trk
    ∧ (Chip.configCommit src code c).load = c.load ∧ (Chip.configCommit src code c).role = c.role
    ∧ (Chip.configCommit src code c).cal = c.cal ∧ (Chip.configCommit src code c).alarm = c.alarm
    ∧ (Chip.configCommit src code c).panel = c.panel := by
  unfold Chip.configCommit
  (repeat' split) <;> simp

@[simp] theorem Chip.answerCommits_frame (c : Chip) :
    (Chip.answerCommits c).pins = c.pins ∧ (Chip.answerCommits c).sup = c.sup ∧ (Chip.answerCommits c).tick = c.tick
    ∧ (Chip.answerCommits c).link.station = c.link.station ∧ (Chip.answerCommits c).link.rateFast = c.link.rateFast
    ∧ (Chip.answerCommits c).link.rx = c.link.rx ∧ (Chip.answerCommits c).link.gapDone = c.link.gapDone
    ∧ (Chip.answerCommits c).inp = c.inp ∧ (Chip.answerCommits c).eng = c.eng ∧ (Chip.answerCommits c).trk = c.trk
    ∧ (Chip.answerCommits c).load = c.load ∧ (Chip.answerCommits c).role = c.role
    ∧ (Chip.answerCommits c).cal = c.cal ∧ (Chip.answerCommits c).alarm = c.alarm
    ∧ (Chip.answerCommits c).panel = c.panel ∧ (Chip.answerCommits c).store.cfg = c.store.cfg
    ∧ (Chip.answerCommits c).store.window = c.store.window ∧ (Chip.answerCommits c).store.array = c.store.array
    ∧ (Chip.answerCommits c).store.curves = c.store.curves := by
  simp [Chip.answerCommits]

/-! ## Load -/

@[simp] theorem Chip.writeTruckSlot_frame (c : Chip) :
    (Chip.writeTruckSlot c).pins = c.pins ∧ (Chip.writeTruckSlot c).sup = c.sup
    ∧ (Chip.writeTruckSlot c).tick = c.tick ∧ (Chip.writeTruckSlot c).link.station = c.link.station
    ∧ (Chip.writeTruckSlot c).link.rateFast = c.link.rateFast ∧ (Chip.writeTruckSlot c).link.rx = c.link.rx
    ∧ (Chip.writeTruckSlot c).link.gapDone = c.link.gapDone ∧ (Chip.writeTruckSlot c).inp = c.inp
    ∧ (Chip.writeTruckSlot c).eng = c.eng ∧ (Chip.writeTruckSlot c).trk = c.trk
    ∧ (Chip.writeTruckSlot c).load = c.load ∧ (Chip.writeTruckSlot c).role = c.role
    ∧ (Chip.writeTruckSlot c).cal = c.cal ∧ (Chip.writeTruckSlot c).alarm = c.alarm
    ∧ (Chip.writeTruckSlot c).panel = c.panel ∧ (Chip.writeTruckSlot c).store = c.store := by
  unfold Chip.writeTruckSlot
  (repeat' split) <;> simp

@[simp] theorem Chip.raiseSeq_frame (c : Chip) :
    (Chip.raiseSeq c).pins = c.pins ∧ (Chip.raiseSeq c).sup = c.sup ∧ (Chip.raiseSeq c).tick = c.tick
    ∧ (Chip.raiseSeq c).link.station = c.link.station ∧ (Chip.raiseSeq c).link.rateFast = c.link.rateFast
    ∧ (Chip.raiseSeq c).link.rx = c.link.rx ∧ (Chip.raiseSeq c).link.gapDone = c.link.gapDone
    ∧ (Chip.raiseSeq c).inp = c.inp ∧ (Chip.raiseSeq c).eng = c.eng ∧ (Chip.raiseSeq c).trk = c.trk
    ∧ (Chip.raiseSeq c).load.record = c.load.record ∧ (Chip.raiseSeq c).load.shift = c.load.shift
    ∧ (Chip.raiseSeq c).load.life = c.load.life ∧ (Chip.raiseSeq c).load.history = c.load.history
    ∧ (Chip.raiseSeq c).role = c.role ∧ (Chip.raiseSeq c).cal = c.cal ∧ (Chip.raiseSeq c).alarm = c.alarm
    ∧ (Chip.raiseSeq c).panel = c.panel ∧ (Chip.raiseSeq c).store = c.store := by
  simp [Chip.raiseSeq]

@[simp] theorem Chip.setRecord_frame (r : Option TruckRec) (c : Chip) :
    (Chip.setRecord r c).pins = c.pins ∧ (Chip.setRecord r c).sup = c.sup ∧ (Chip.setRecord r c).tick = c.tick
    ∧ (Chip.setRecord r c).link = c.link ∧ (Chip.setRecord r c).inp = c.inp ∧ (Chip.setRecord r c).eng = c.eng
    ∧ (Chip.setRecord r c).trk = c.trk ∧ (Chip.setRecord r c).load.shift = c.load.shift
    ∧ (Chip.setRecord r c).load.life = c.load.life ∧ (Chip.setRecord r c).load.history = c.load.history
    ∧ (Chip.setRecord r c).role = c.role ∧ (Chip.setRecord r c).cal = c.cal ∧ (Chip.setRecord r c).alarm = c.alarm
    ∧ (Chip.setRecord r c).panel.settings = c.panel.settings ∧ (Chip.setRecord r c).panel.page = c.panel.page
    ∧ (Chip.setRecord r c).panel.keys = c.panel.keys ∧ (Chip.setRecord r c).panel.decoder = c.panel.decoder
    ∧ (Chip.setRecord r c).store = c.store := by
  simp [Chip.setRecord]

@[simp] theorem Chip.evaluateRecord_frame (c : Chip) :
    (Chip.evaluateRecord c).pins = c.pins ∧ (Chip.evaluateRecord c).sup = c.sup
    ∧ (Chip.evaluateRecord c).tick = c.tick ∧ (Chip.evaluateRecord c).link = c.link
    ∧ (Chip.evaluateRecord c).inp = c.inp ∧ (Chip.evaluateRecord c).eng = c.eng
    ∧ (Chip.evaluateRecord c).trk = c.trk ∧ (Chip.evaluateRecord c).load.shift = c.load.shift
    ∧ (Chip.evaluateRecord c).load.life = c.load.life ∧ (Chip.evaluateRecord c).load.history = c.load.history
    ∧ (Chip.evaluateRecord c).role = c.role ∧ (Chip.evaluateRecord c).cal = c.cal
    ∧ (Chip.evaluateRecord c).panel.settings = c.panel.settings ∧ (Chip.evaluateRecord c).panel.page = c.panel.page
    ∧ (Chip.evaluateRecord c).panel.keys = c.panel.keys ∧ (Chip.evaluateRecord c).panel.decoder = c.panel.decoder
    ∧ (Chip.evaluateRecord c).store = c.store := by
  unfold Chip.evaluateRecord
  (repeat' split) <;> simp

@[simp] theorem Chip.reevaluate_frame (c : Chip) :
    (Chip.reevaluate c).pins = c.pins ∧ (Chip.reevaluate c).sup = c.sup ∧ (Chip.reevaluate c).tick = c.tick
    ∧ (Chip.reevaluate c).link.station = c.link.station ∧ (Chip.reevaluate c).link.rateFast = c.link.rateFast
    ∧ (Chip.reevaluate c).link.rx = c.link.rx ∧ (Chip.reevaluate c).link.gapDone = c.link.gapDone
    ∧ (Chip.reevaluate c).inp = c.inp ∧ (Chip.reevaluate c).eng = c.eng ∧ (Chip.reevaluate c).trk = c.trk
    ∧ (Chip.reevaluate c).load.shift = c.load.shift ∧ (Chip.reevaluate c).load.life = c.load.life
    ∧ (Chip.reevaluate c).load.history = c.load.history ∧ (Chip.reevaluate c).role = c.role
    ∧ (Chip.reevaluate c).cal = c.cal ∧ (Chip.reevaluate c).panel.settings = c.panel.settings
    ∧ (Chip.reevaluate c).panel.page = c.panel.page ∧ (Chip.reevaluate c).panel.keys = c.panel.keys
    ∧ (Chip.reevaluate c).panel.decoder = c.panel.decoder ∧ (Chip.reevaluate c).store = c.store := by
  simp only [Chip.reevaluate]
  (repeat' split) <;> simp_all

@[simp] theorem Chip.writeOwn_frame (r : TruckRec) (c : Chip) :
    (Chip.writeOwn r c).pins = c.pins ∧ (Chip.writeOwn r c).sup = c.sup ∧ (Chip.writeOwn r c).tick = c.tick
    ∧ (Chip.writeOwn r c).link.station = c.link.station ∧ (Chip.writeOwn r c).link.rateFast = c.link.rateFast
    ∧ (Chip.writeOwn r c).link.rx = c.link.rx ∧ (Chip.writeOwn r c).link.gapDone = c.link.gapDone
    ∧ (Chip.writeOwn r c).inp = c.inp ∧ (Chip.writeOwn r c).eng = c.eng ∧ (Chip.writeOwn r c).trk = c.trk
    ∧ (Chip.writeOwn r c).load.shift = c.load.shift ∧ (Chip.writeOwn r c).load.life = c.load.life
    ∧ (Chip.writeOwn r c).load.history = c.load.history ∧ (Chip.writeOwn r c).role.state = c.role.state
    ∧ (Chip.writeOwn r c).role.resumeRole = c.role.resumeRole ∧ (Chip.writeOwn r c).role.peers = c.role.peers
    ∧ (Chip.writeOwn r c).role.named = c.role.named ∧ (Chip.writeOwn r c).role.watch = c.role.watch
    ∧ (Chip.writeOwn r c).role.listen = c.role.listen ∧ (Chip.writeOwn r c).role.status = c.role.status
    ∧ (Chip.writeOwn r c).role.crossCheck = c.role.crossCheck
    ∧ (Chip.writeOwn r c).role.conflict = c.role.conflict
    ∧ (Chip.writeOwn r c).role.noWeigher = c.role.noWeigher ∧ (Chip.writeOwn r c).cal = c.cal
    ∧ (Chip.writeOwn r c).panel.settings = c.panel.settings ∧ (Chip.writeOwn r c).panel.page = c.panel.page
    ∧ (Chip.writeOwn r c).panel.keys = c.panel.keys ∧ (Chip.writeOwn r c).panel.decoder = c.panel.decoder
    ∧ (Chip.writeOwn r c).store = c.store := by
  simp [Chip.writeOwn]

@[simp] theorem Chip.openRecord_frame (id : Nat) (target : Option Nat) (c : Chip) :
    (Chip.openRecord id target c).pins = c.pins ∧ (Chip.openRecord id target c).sup = c.sup
    ∧ (Chip.openRecord id target c).tick = c.tick ∧ (Chip.openRecord id target c).link.station = c.link.station
    ∧ (Chip.openRecord id target c).link.rateFast = c.link.rateFast
    ∧ (Chip.openRecord id target c).link.rx = c.link.rx
    ∧ (Chip.openRecord id target c).link.gapDone = c.link.gapDone ∧ (Chip.openRecord id target c).inp = c.inp
    ∧ (Chip.openRecord id target c).eng = c.eng ∧ (Chip.openRecord id target c).trk = c.trk
    ∧ (Chip.openRecord id target c).load.shift = c.load.shift
    ∧ (Chip.openRecord id target c).load.life = c.load.life
    ∧ (Chip.openRecord id target c).load.history = c.load.history
    ∧ (Chip.openRecord id target c).role.state = c.role.state
    ∧ (Chip.openRecord id target c).role.resumeRole = c.role.resumeRole
    ∧ (Chip.openRecord id target c).role.peers = c.role.peers
    ∧ (Chip.openRecord id target c).role.named = c.role.named
    ∧ (Chip.openRecord id target c).role.watch = c.role.watch
    ∧ (Chip.openRecord id target c).role.listen = c.role.listen
    ∧ (Chip.openRecord id target c).role.status = c.role.status
    ∧ (Chip.openRecord id target c).role.crossCheck = c.role.crossCheck
    ∧ (Chip.openRecord id target c).role.conflict = c.role.conflict
    ∧ (Chip.openRecord id target c).role.noWeigher = c.role.noWeigher
    ∧ (Chip.openRecord id target c).cal = c.cal
    ∧ (Chip.openRecord id target c).panel.settings = c.panel.settings
    ∧ (Chip.openRecord id target c).panel.page = c.panel.page
    ∧ (Chip.openRecord id target c).panel.keys = c.panel.keys
    ∧ (Chip.openRecord id target c).panel.decoder = c.panel.decoder
    ∧ (Chip.openRecord id target c).store = c.store := by
  simp [Chip.openRecord]

@[simp] theorem Chip.appendSummary_frame (s : Summary) (c : Chip) :
    (Chip.appendSummary s c).pins = c.pins ∧ (Chip.appendSummary s c).sup = c.sup
    ∧ (Chip.appendSummary s c).tick = c.tick ∧ (Chip.appendSummary s c).link = c.link
    ∧ (Chip.appendSummary s c).inp = c.inp ∧ (Chip.appendSummary s c).eng = c.eng
    ∧ (Chip.appendSummary s c).trk = c.trk ∧ (Chip.appendSummary s c).load.record = c.load.record
    ∧ (Chip.appendSummary s c).load.shift = c.load.shift ∧ (Chip.appendSummary s c).load.life = c.load.life
    ∧ (Chip.appendSummary s c).role = c.role ∧ (Chip.appendSummary s c).cal = c.cal
    ∧ (Chip.appendSummary s c).alarm = c.alarm ∧ (Chip.appendSummary s c).panel.settings = c.panel.settings
    ∧ (Chip.appendSummary s c).panel.page = c.panel.page ∧ (Chip.appendSummary s c).panel.keys = c.panel.keys
    ∧ (Chip.appendSummary s c).panel.decoder = c.panel.decoder ∧ (Chip.appendSummary s c).store = c.store := by
  simp [Chip.appendSummary]

@[simp] theorem Chip.countTruck_frame (c : Chip) :
    (Chip.countTruck c).pins = c.pins ∧ (Chip.countTruck c).sup = c.sup ∧ (Chip.countTruck c).tick = c.tick
    ∧ (Chip.countTruck c).link = c.link ∧ (Chip.countTruck c).inp = c.inp ∧ (Chip.countTruck c).eng = c.eng
    ∧ (Chip.countTruck c).trk = c.trk ∧ (Chip.countTruck c).load.record = c.load.record
    ∧ (Chip.countTruck c).load.life = c.load.life ∧ (Chip.countTruck c).load.history = c.load.history
    ∧ (Chip.countTruck c).role = c.role ∧ (Chip.countTruck c).cal = c.cal ∧ (Chip.countTruck c).alarm = c.alarm
    ∧ (Chip.countTruck c).panel = c.panel ∧ (Chip.countTruck c).store = c.store := by
  simp [Chip.countTruck]

@[simp] theorem Chip.discardNote_frame (c : Chip) :
    (Chip.discardNote c).pins = c.pins ∧ (Chip.discardNote c).sup = c.sup ∧ (Chip.discardNote c).tick = c.tick
    ∧ (Chip.discardNote c).link = c.link ∧ (Chip.discardNote c).inp = c.inp ∧ (Chip.discardNote c).eng = c.eng
    ∧ (Chip.discardNote c).trk.cycle = c.trk.cycle ∧ (Chip.discardNote c).trk.voids = c.trk.voids
    ∧ (Chip.discardNote c).trk.ctx = c.trk.ctx ∧ (Chip.discardNote c).load = c.load
    ∧ (Chip.discardNote c).role = c.role ∧ (Chip.discardNote c).cal = c.cal ∧ (Chip.discardNote c).alarm = c.alarm
    ∧ (Chip.discardNote c).panel = c.panel ∧ (Chip.discardNote c).store = c.store := by
  simp [Chip.discardNote]

@[simp] theorem Chip.recordSummary_frame (r : TruckRec) (reason : CloseReason) (c : Chip) :
    (Chip.recordSummary r reason c).pins = c.pins ∧ (Chip.recordSummary r reason c).sup = c.sup
    ∧ (Chip.recordSummary r reason c).tick = c.tick ∧ (Chip.recordSummary r reason c).link.station = c.link.station
    ∧ (Chip.recordSummary r reason c).link.rateFast = c.link.rateFast
    ∧ (Chip.recordSummary r reason c).link.rx = c.link.rx
    ∧ (Chip.recordSummary r reason c).link.gapDone = c.link.gapDone ∧ (Chip.recordSummary r reason c).inp = c.inp
    ∧ (Chip.recordSummary r reason c).eng = c.eng ∧ (Chip.recordSummary r reason c).trk = c.trk
    ∧ (Chip.recordSummary r reason c).load.record = c.load.record
    ∧ (Chip.recordSummary r reason c).load.life = c.load.life ∧ (Chip.recordSummary r reason c).role = c.role
    ∧ (Chip.recordSummary r reason c).cal = c.cal ∧ (Chip.recordSummary r reason c).alarm = c.alarm
    ∧ (Chip.recordSummary r reason c).panel.settings = c.panel.settings
    ∧ (Chip.recordSummary r reason c).panel.page = c.panel.page
    ∧ (Chip.recordSummary r reason c).panel.keys = c.panel.keys
    ∧ (Chip.recordSummary r reason c).panel.decoder = c.panel.decoder
    ∧ (Chip.recordSummary r reason c).store = c.store := by
  simp only [Chip.recordSummary]
  (repeat' split) <;> simp_all

@[simp] theorem Chip.removeRecord_frame (c : Chip) :
    (Chip.removeRecord c).pins = c.pins ∧ (Chip.removeRecord c).sup = c.sup ∧ (Chip.removeRecord c).tick = c.tick
    ∧ (Chip.removeRecord c).link.station = c.link.station ∧ (Chip.removeRecord c).link.rateFast = c.link.rateFast
    ∧ (Chip.removeRecord c).link.rx = c.link.rx ∧ (Chip.removeRecord c).link.gapDone = c.link.gapDone
    ∧ (Chip.removeRecord c).inp = c.inp ∧ (Chip.removeRecord c).eng = c.eng
    ∧ (Chip.removeRecord c).trk.cycle = c.trk.cycle ∧ (Chip.removeRecord c).trk.voids = c.trk.voids
    ∧ (Chip.removeRecord c).trk.ctx = c.trk.ctx ∧ (Chip.removeRecord c).load.shift = c.load.shift
    ∧ (Chip.removeRecord c).load.life = c.load.life ∧ (Chip.removeRecord c).load.history = c.load.history
    ∧ (Chip.removeRecord c).role = c.role ∧ (Chip.removeRecord c).cal = c.cal
    ∧ (Chip.removeRecord c).panel.settings = c.panel.settings ∧ (Chip.removeRecord c).panel.page = c.panel.page
    ∧ (Chip.removeRecord c).panel.keys = c.panel.keys ∧ (Chip.removeRecord c).panel.decoder = c.panel.decoder
    ∧ (Chip.removeRecord c).store = c.store := by
  simp [Chip.removeRecord]

@[simp] theorem Chip.closeRecord_frame (reason : CloseReason) (c : Chip) :
    (Chip.closeRecord reason c).pins = c.pins ∧ (Chip.closeRecord reason c).sup = c.sup
    ∧ (Chip.closeRecord reason c).tick = c.tick ∧ (Chip.closeRecord reason c).link.station = c.link.station
    ∧ (Chip.closeRecord reason c).link.rateFast = c.link.rateFast ∧ (Chip.closeRecord reason c).link.rx = c.link.rx
    ∧ (Chip.closeRecord reason c).link.gapDone = c.link.gapDone ∧ (Chip.closeRecord reason c).inp = c.inp
    ∧ (Chip.closeRecord reason c).eng = c.eng ∧ (Chip.closeRecord reason c).trk.cycle = c.trk.cycle
    ∧ (Chip.closeRecord reason c).trk.voids = c.trk.voids ∧ (Chip.closeRecord reason c).trk.ctx = c.trk.ctx
    ∧ (Chip.closeRecord reason c).load.life = c.load.life ∧ (Chip.closeRecord reason c).role = c.role
    ∧ (Chip.closeRecord reason c).cal = c.cal ∧ (Chip.closeRecord reason c).panel.settings = c.panel.settings
    ∧ (Chip.closeRecord reason c).panel.page = c.panel.page ∧ (Chip.closeRecord reason c).panel.keys = c.panel.keys
    ∧ (Chip.closeRecord reason c).panel.decoder = c.panel.decoder ∧ (Chip.closeRecord reason c).store = c.store := by
  unfold Chip.closeRecord
  (repeat' split) <;> simp

@[simp] theorem Chip.joinRecord_frame (p : PassRec) (c : Chip) :
    (Chip.joinRecord p c).2.pins = c.pins ∧ (Chip.joinRecord p c).2.sup = c.sup
    ∧ (Chip.joinRecord p c).2.tick = c.tick ∧ (Chip.joinRecord p c).2.link.station = c.link.station
    ∧ (Chip.joinRecord p c).2.link.rateFast = c.link.rateFast ∧ (Chip.joinRecord p c).2.link.rx = c.link.rx
    ∧ (Chip.joinRecord p c).2.link.gapDone = c.link.gapDone ∧ (Chip.joinRecord p c).2.inp = c.inp
    ∧ (Chip.joinRecord p c).2.eng = c.eng ∧ (Chip.joinRecord p c).2.trk = c.trk
    ∧ (Chip.joinRecord p c).2.load.shift = c.load.shift ∧ (Chip.joinRecord p c).2.load.life = c.load.life
    ∧ (Chip.joinRecord p c).2.load.history = c.load.history ∧ (Chip.joinRecord p c).2.role.state = c.role.state
    ∧ (Chip.joinRecord p c).2.role.resumeRole = c.role.resumeRole
    ∧ (Chip.joinRecord p c).2.role.peers = c.role.peers ∧ (Chip.joinRecord p c).2.role.named = c.role.named
    ∧ (Chip.joinRecord p c).2.role.watch = c.role.watch ∧ (Chip.joinRecord p c).2.role.listen = c.role.listen
    ∧ (Chip.joinRecord p c).2.role.status = c.role.status
    ∧ (Chip.joinRecord p c).2.role.crossCheck = c.role.crossCheck
    ∧ (Chip.joinRecord p c).2.role.conflict = c.role.conflict
    ∧ (Chip.joinRecord p c).2.role.noWeigher = c.role.noWeigher ∧ (Chip.joinRecord p c).2.cal = c.cal
    ∧ (Chip.joinRecord p c).2.panel.settings = c.panel.settings
    ∧ (Chip.joinRecord p c).2.panel.page = c.panel.page ∧ (Chip.joinRecord p c).2.panel.keys = c.panel.keys
    ∧ (Chip.joinRecord p c).2.panel.decoder = c.panel.decoder ∧ (Chip.joinRecord p c).2.store = c.store := by
  simp only [Chip.joinRecord]
  (repeat' split) <;> simp_all

@[simp] theorem Chip.amendRecord_frame (p : PassRec) (removed : Nat) (c : Chip) :
    (Chip.amendRecord p removed c).pins = c.pins ∧ (Chip.amendRecord p removed c).sup = c.sup
    ∧ (Chip.amendRecord p removed c).tick = c.tick
    ∧ (Chip.amendRecord p removed c).link.station = c.link.station
    ∧ (Chip.amendRecord p removed c).link.rateFast = c.link.rateFast
    ∧ (Chip.amendRecord p removed c).link.rx = c.link.rx
    ∧ (Chip.amendRecord p removed c).link.gapDone = c.link.gapDone ∧ (Chip.amendRecord p removed c).inp = c.inp
    ∧ (Chip.amendRecord p removed c).eng = c.eng ∧ (Chip.amendRecord p removed c).trk = c.trk
    ∧ (Chip.amendRecord p removed c).load.shift = c.load.shift
    ∧ (Chip.amendRecord p removed c).load.life = c.load.life
    ∧ (Chip.amendRecord p removed c).load.history = c.load.history
    ∧ (Chip.amendRecord p removed c).role.state = c.role.state
    ∧ (Chip.amendRecord p removed c).role.resumeRole = c.role.resumeRole
    ∧ (Chip.amendRecord p removed c).role.peers = c.role.peers
    ∧ (Chip.amendRecord p removed c).role.named = c.role.named
    ∧ (Chip.amendRecord p removed c).role.watch = c.role.watch
    ∧ (Chip.amendRecord p removed c).role.listen = c.role.listen
    ∧ (Chip.amendRecord p removed c).role.status = c.role.status
    ∧ (Chip.amendRecord p removed c).role.crossCheck = c.role.crossCheck
    ∧ (Chip.amendRecord p removed c).role.conflict = c.role.conflict
    ∧ (Chip.amendRecord p removed c).role.noWeigher = c.role.noWeigher
    ∧ (Chip.amendRecord p removed c).cal = c.cal
    ∧ (Chip.amendRecord p removed c).panel.settings = c.panel.settings
    ∧ (Chip.amendRecord p removed c).panel.page = c.panel.page
    ∧ (Chip.amendRecord p removed c).panel.keys = c.panel.keys
    ∧ (Chip.amendRecord p removed c).panel.decoder = c.panel.decoder
    ∧ (Chip.amendRecord p removed c).store = c.store := by
  simp only [Chip.amendRecord]
  (repeat' split) <;> simp_all

@[simp] theorem Chip.adoptRecord_frame (c : Chip) :
    (Chip.adoptRecord c).pins = c.pins ∧ (Chip.adoptRecord c).sup = c.sup ∧ (Chip.adoptRecord c).tick = c.tick
    ∧ (Chip.adoptRecord c).link.station = c.link.station ∧ (Chip.adoptRecord c).link.rateFast = c.link.rateFast
    ∧ (Chip.adoptRecord c).link.rx = c.link.rx ∧ (Chip.adoptRecord c).link.gapDone = c.link.gapDone
    ∧ (Chip.adoptRecord c).inp = c.inp ∧ (Chip.adoptRecord c).eng = c.eng ∧ (Chip.adoptRecord c).trk = c.trk
    ∧ (Chip.adoptRecord c).load.shift = c.load.shift ∧ (Chip.adoptRecord c).load.life = c.load.life
    ∧ (Chip.adoptRecord c).load.history = c.load.history ∧ (Chip.adoptRecord c).role.state = c.role.state
    ∧ (Chip.adoptRecord c).role.resumeRole = c.role.resumeRole ∧ (Chip.adoptRecord c).role.named = c.role.named
    ∧ (Chip.adoptRecord c).role.conflict = c.role.conflict ∧ (Chip.adoptRecord c).cal = c.cal
    ∧ (Chip.adoptRecord c).panel.settings = c.panel.settings ∧ (Chip.adoptRecord c).panel.page = c.panel.page
    ∧ (Chip.adoptRecord c).panel.keys = c.panel.keys ∧ (Chip.adoptRecord c).panel.decoder = c.panel.decoder
    ∧ (Chip.adoptRecord c).store = c.store := by
  simp only [Chip.adoptRecord]
  (repeat' split) <;> simp_all

@[simp] theorem Chip.shiftReset_frame (c : Chip) :
    (Chip.shiftReset c).pins = c.pins ∧ (Chip.shiftReset c).sup = c.sup ∧ (Chip.shiftReset c).tick = c.tick
    ∧ (Chip.shiftReset c).link = c.link ∧ (Chip.shiftReset c).inp = c.inp ∧ (Chip.shiftReset c).eng = c.eng
    ∧ (Chip.shiftReset c).trk = c.trk ∧ (Chip.shiftReset c).load.record = c.load.record
    ∧ (Chip.shiftReset c).load.life = c.load.life ∧ (Chip.shiftReset c).load.history = c.load.history
    ∧ (Chip.shiftReset c).role = c.role ∧ (Chip.shiftReset c).cal = c.cal ∧ (Chip.shiftReset c).alarm = c.alarm
    ∧ (Chip.shiftReset c).panel = c.panel := by
  unfold Chip.shiftReset
  (repeat' split) <;> simp

@[simp] theorem Chip.setRefused_frame (r : Option Nat) (c : Chip) :
    (Chip.setRefused r c).pins = c.pins ∧ (Chip.setRefused r c).sup = c.sup ∧ (Chip.setRefused r c).tick = c.tick
    ∧ (Chip.setRefused r c).link = c.link ∧ (Chip.setRefused r c).inp = c.inp ∧ (Chip.setRefused r c).eng = c.eng
    ∧ (Chip.setRefused r c).trk = c.trk ∧ (Chip.setRefused r c).load.record = c.load.record
    ∧ (Chip.setRefused r c).load.shift = c.load.shift ∧ (Chip.setRefused r c).load.life = c.load.life
    ∧ (Chip.setRefused r c).load.history = c.load.history ∧ (Chip.setRefused r c).role = c.role
    ∧ (Chip.setRefused r c).cal = c.cal ∧ (Chip.setRefused r c).alarm = c.alarm
    ∧ (Chip.setRefused r c).panel = c.panel ∧ (Chip.setRefused r c).store = c.store := by
  simp [Chip.setRefused]

@[simp] theorem Chip.retarget_frame (target : Option Nat) (c : Chip) :
    (Chip.retarget target c).pins = c.pins ∧ (Chip.retarget target c).sup = c.sup
    ∧ (Chip.retarget target c).tick = c.tick ∧ (Chip.retarget target c).link.station = c.link.station
    ∧ (Chip.retarget target c).link.rateFast = c.link.rateFast ∧ (Chip.retarget target c).link.rx = c.link.rx
    ∧ (Chip.retarget target c).link.gapDone = c.link.gapDone ∧ (Chip.retarget target c).inp = c.inp
    ∧ (Chip.retarget target c).eng = c.eng ∧ (Chip.retarget target c).trk = c.trk
    ∧ (Chip.retarget target c).load.shift = c.load.shift ∧ (Chip.retarget target c).load.life = c.load.life
    ∧ (Chip.retarget target c).load.history = c.load.history
    ∧ (Chip.retarget target c).role.state = c.role.state
    ∧ (Chip.retarget target c).role.resumeRole = c.role.resumeRole
    ∧ (Chip.retarget target c).role.peers = c.role.peers ∧ (Chip.retarget target c).role.named = c.role.named
    ∧ (Chip.retarget target c).role.watch = c.role.watch ∧ (Chip.retarget target c).role.listen = c.role.listen
    ∧ (Chip.retarget target c).role.status = c.role.status
    ∧ (Chip.retarget target c).role.crossCheck = c.role.crossCheck
    ∧ (Chip.retarget target c).role.conflict = c.role.conflict
    ∧ (Chip.retarget target c).role.noWeigher = c.role.noWeigher ∧ (Chip.retarget target c).cal = c.cal
    ∧ (Chip.retarget target c).panel.settings = c.panel.settings
    ∧ (Chip.retarget target c).panel.page = c.panel.page ∧ (Chip.retarget target c).panel.keys = c.panel.keys
    ∧ (Chip.retarget target c).panel.decoder = c.panel.decoder ∧ (Chip.retarget target c).store = c.store := by
  unfold Chip.retarget
  (repeat' split) <;> simp

@[simp] theorem Chip.tagPresent_frame (id : Nat) (target : Option Nat) (c : Chip) :
    (Chip.tagPresent id target c).pins = c.pins ∧ (Chip.tagPresent id target c).sup = c.sup
    ∧ (Chip.tagPresent id target c).tick = c.tick ∧ (Chip.tagPresent id target c).link.station = c.link.station
    ∧ (Chip.tagPresent id target c).link.rateFast = c.link.rateFast
    ∧ (Chip.tagPresent id target c).link.rx = c.link.rx
    ∧ (Chip.tagPresent id target c).link.gapDone = c.link.gapDone ∧ (Chip.tagPresent id target c).inp = c.inp
    ∧ (Chip.tagPresent id target c).eng = c.eng ∧ (Chip.tagPresent id target c).trk.cycle = c.trk.cycle
    ∧ (Chip.tagPresent id target c).trk.voids = c.trk.voids ∧ (Chip.tagPresent id target c).trk.ctx = c.trk.ctx
    ∧ (Chip.tagPresent id target c).load.life = c.load.life
    ∧ (Chip.tagPresent id target c).role.state = c.role.state
    ∧ (Chip.tagPresent id target c).role.resumeRole = c.role.resumeRole
    ∧ (Chip.tagPresent id target c).role.peers = c.role.peers
    ∧ (Chip.tagPresent id target c).role.named = c.role.named
    ∧ (Chip.tagPresent id target c).role.watch = c.role.watch
    ∧ (Chip.tagPresent id target c).role.listen = c.role.listen
    ∧ (Chip.tagPresent id target c).role.status = c.role.status
    ∧ (Chip.tagPresent id target c).role.crossCheck = c.role.crossCheck
    ∧ (Chip.tagPresent id target c).role.conflict = c.role.conflict
    ∧ (Chip.tagPresent id target c).role.noWeigher = c.role.noWeigher
    ∧ (Chip.tagPresent id target c).cal = c.cal
    ∧ (Chip.tagPresent id target c).panel.settings = c.panel.settings
    ∧ (Chip.tagPresent id target c).panel.page = c.panel.page
    ∧ (Chip.tagPresent id target c).panel.keys = c.panel.keys
    ∧ (Chip.tagPresent id target c).panel.decoder = c.panel.decoder
    ∧ (Chip.tagPresent id target c).store = c.store := by
  simp only [Chip.tagPresent]
  (repeat' split) <;> simp_all

@[simp] theorem Chip.tagGone_frame (c : Chip) :
    (Chip.tagGone c).pins = c.pins ∧ (Chip.tagGone c).sup = c.sup ∧ (Chip.tagGone c).tick = c.tick
    ∧ (Chip.tagGone c).link.station = c.link.station ∧ (Chip.tagGone c).link.rateFast = c.link.rateFast
    ∧ (Chip.tagGone c).link.rx = c.link.rx ∧ (Chip.tagGone c).link.gapDone = c.link.gapDone
    ∧ (Chip.tagGone c).inp = c.inp ∧ (Chip.tagGone c).eng = c.eng ∧ (Chip.tagGone c).trk.cycle = c.trk.cycle
    ∧ (Chip.tagGone c).trk.voids = c.trk.voids ∧ (Chip.tagGone c).trk.ctx = c.trk.ctx
    ∧ (Chip.tagGone c).load.life = c.load.life ∧ (Chip.tagGone c).role = c.role ∧ (Chip.tagGone c).cal = c.cal
    ∧ (Chip.tagGone c).panel.settings = c.panel.settings ∧ (Chip.tagGone c).panel.page = c.panel.page
    ∧ (Chip.tagGone c).panel.keys = c.panel.keys ∧ (Chip.tagGone c).panel.decoder = c.panel.decoder
    ∧ (Chip.tagGone c).store = c.store := by
  unfold Chip.tagGone
  (repeat' split) <;> simp

@[simp] theorem Chip.takeTag_frame (c : Chip) :
    (Chip.takeTag c).pins = c.pins ∧ (Chip.takeTag c).sup = c.sup ∧ (Chip.takeTag c).tick = c.tick
    ∧ (Chip.takeTag c).link.station = c.link.station ∧ (Chip.takeTag c).link.rateFast = c.link.rateFast
    ∧ (Chip.takeTag c).link.rx = c.link.rx ∧ (Chip.takeTag c).link.gapDone = c.link.gapDone
    ∧ (Chip.takeTag c).inp = c.inp ∧ (Chip.takeTag c).eng = c.eng ∧ (Chip.takeTag c).trk.cycle = c.trk.cycle
    ∧ (Chip.takeTag c).trk.voids = c.trk.voids ∧ (Chip.takeTag c).trk.ctx = c.trk.ctx
    ∧ (Chip.takeTag c).load.life = c.load.life ∧ (Chip.takeTag c).role.state = c.role.state
    ∧ (Chip.takeTag c).role.resumeRole = c.role.resumeRole ∧ (Chip.takeTag c).role.peers = c.role.peers
    ∧ (Chip.takeTag c).role.named = c.role.named ∧ (Chip.takeTag c).role.watch = c.role.watch
    ∧ (Chip.takeTag c).role.listen = c.role.listen ∧ (Chip.takeTag c).role.status = c.role.status
    ∧ (Chip.takeTag c).role.crossCheck = c.role.crossCheck ∧ (Chip.takeTag c).role.conflict = c.role.conflict
    ∧ (Chip.takeTag c).role.noWeigher = c.role.noWeigher ∧ (Chip.takeTag c).cal = c.cal
    ∧ (Chip.takeTag c).panel.settings = c.panel.settings ∧ (Chip.takeTag c).panel.page = c.panel.page
    ∧ (Chip.takeTag c).panel.keys = c.panel.keys ∧ (Chip.takeTag c).panel.decoder = c.panel.decoder
    ∧ (Chip.takeTag c).store = c.store := by
  unfold Chip.takeTag
  (repeat' split) <;> simp

@[simp] theorem Chip.tagStale_frame (c : Chip) :
    (Chip.tagStale c).pins = c.pins ∧ (Chip.tagStale c).sup = c.sup ∧ (Chip.tagStale c).tick = c.tick
    ∧ (Chip.tagStale c).link.station = c.link.station ∧ (Chip.tagStale c).link.rateFast = c.link.rateFast
    ∧ (Chip.tagStale c).link.rx = c.link.rx ∧ (Chip.tagStale c).link.gapDone = c.link.gapDone
    ∧ (Chip.tagStale c).inp = c.inp ∧ (Chip.tagStale c).eng = c.eng ∧ (Chip.tagStale c).trk.cycle = c.trk.cycle
    ∧ (Chip.tagStale c).trk.voids = c.trk.voids ∧ (Chip.tagStale c).trk.ctx = c.trk.ctx
    ∧ (Chip.tagStale c).load.life = c.load.life ∧ (Chip.tagStale c).role = c.role ∧ (Chip.tagStale c).cal = c.cal
    ∧ (Chip.tagStale c).panel.settings = c.panel.settings ∧ (Chip.tagStale c).panel.page = c.panel.page
    ∧ (Chip.tagStale c).panel.keys = c.panel.keys ∧ (Chip.tagStale c).panel.decoder = c.panel.decoder
    ∧ (Chip.tagStale c).store = c.store := by
  unfold Chip.tagStale
  (repeat' split) <;> simp

@[simp] theorem Chip.takeHeldTag_frame (c : Chip) :
    (Chip.takeHeldTag c).pins = c.pins ∧ (Chip.takeHeldTag c).sup = c.sup ∧ (Chip.takeHeldTag c).tick = c.tick
    ∧ (Chip.takeHeldTag c).link.station = c.link.station ∧ (Chip.takeHeldTag c).link.rateFast = c.link.rateFast
    ∧ (Chip.takeHeldTag c).link.rx = c.link.rx ∧ (Chip.takeHeldTag c).link.gapDone = c.link.gapDone
    ∧ (Chip.takeHeldTag c).inp = c.inp ∧ (Chip.takeHeldTag c).eng = c.eng
    ∧ (Chip.takeHeldTag c).trk.cycle = c.trk.cycle ∧ (Chip.takeHeldTag c).trk.voids = c.trk.voids
    ∧ (Chip.takeHeldTag c).trk.ctx = c.trk.ctx ∧ (Chip.takeHeldTag c).load.life = c.load.life
    ∧ (Chip.takeHeldTag c).role.state = c.role.state ∧ (Chip.takeHeldTag c).role.resumeRole = c.role.resumeRole
    ∧ (Chip.takeHeldTag c).role.peers = c.role.peers ∧ (Chip.takeHeldTag c).role.named = c.role.named
    ∧ (Chip.takeHeldTag c).role.watch = c.role.watch ∧ (Chip.takeHeldTag c).role.listen = c.role.listen
    ∧ (Chip.takeHeldTag c).role.status = c.role.status
    ∧ (Chip.takeHeldTag c).role.crossCheck = c.role.crossCheck
    ∧ (Chip.takeHeldTag c).role.conflict = c.role.conflict
    ∧ (Chip.takeHeldTag c).role.noWeigher = c.role.noWeigher ∧ (Chip.takeHeldTag c).cal = c.cal
    ∧ (Chip.takeHeldTag c).panel.settings = c.panel.settings ∧ (Chip.takeHeldTag c).panel.page = c.panel.page
    ∧ (Chip.takeHeldTag c).panel.keys = c.panel.keys ∧ (Chip.takeHeldTag c).panel.decoder = c.panel.decoder
    ∧ (Chip.takeHeldTag c).store = c.store := by
  unfold Chip.takeHeldTag
  (repeat' split) <;> simp

@[simp] theorem Chip.nextManualTruck_frame (c : Chip) :
    (Chip.nextManualTruck c).pins = c.pins ∧ (Chip.nextManualTruck c).sup = c.sup
    ∧ (Chip.nextManualTruck c).tick = c.tick ∧ (Chip.nextManualTruck c).link.station = c.link.station
    ∧ (Chip.nextManualTruck c).link.rateFast = c.link.rateFast ∧ (Chip.nextManualTruck c).link.rx = c.link.rx
    ∧ (Chip.nextManualTruck c).link.gapDone = c.link.gapDone ∧ (Chip.nextManualTruck c).inp = c.inp
    ∧ (Chip.nextManualTruck c).eng = c.eng ∧ (Chip.nextManualTruck c).trk.cycle = c.trk.cycle
    ∧ (Chip.nextManualTruck c).trk.voids = c.trk.voids ∧ (Chip.nextManualTruck c).trk.ctx = c.trk.ctx
    ∧ (Chip.nextManualTruck c).load.life = c.load.life ∧ (Chip.nextManualTruck c).role.state = c.role.state
    ∧ (Chip.nextManualTruck c).role.resumeRole = c.role.resumeRole
    ∧ (Chip.nextManualTruck c).role.peers = c.role.peers ∧ (Chip.nextManualTruck c).role.named = c.role.named
    ∧ (Chip.nextManualTruck c).role.watch = c.role.watch ∧ (Chip.nextManualTruck c).role.listen = c.role.listen
    ∧ (Chip.nextManualTruck c).role.status = c.role.status
    ∧ (Chip.nextManualTruck c).role.crossCheck = c.role.crossCheck
    ∧ (Chip.nextManualTruck c).role.conflict = c.role.conflict
    ∧ (Chip.nextManualTruck c).role.noWeigher = c.role.noWeigher ∧ (Chip.nextManualTruck c).cal = c.cal
    ∧ (Chip.nextManualTruck c).panel.settings = c.panel.settings
    ∧ (Chip.nextManualTruck c).panel.page = c.panel.page ∧ (Chip.nextManualTruck c).panel.keys = c.panel.keys
    ∧ (Chip.nextManualTruck c).panel.decoder = c.panel.decoder ∧ (Chip.nextManualTruck c).store = c.store := by
  unfold Chip.nextManualTruck
  (repeat' split) <;> simp

@[simp] theorem Chip.operatorClose_frame (c : Chip) :
    (Chip.operatorClose c).pins = c.pins ∧ (Chip.operatorClose c).sup = c.sup ∧ (Chip.operatorClose c).tick = c.tick
    ∧ (Chip.operatorClose c).link.station = c.link.station ∧ (Chip.operatorClose c).link.rateFast = c.link.rateFast
    ∧ (Chip.operatorClose c).link.rx = c.link.rx ∧ (Chip.operatorClose c).link.gapDone = c.link.gapDone
    ∧ (Chip.operatorClose c).inp = c.inp ∧ (Chip.operatorClose c).eng = c.eng
    ∧ (Chip.operatorClose c).trk.cycle = c.trk.cycle ∧ (Chip.operatorClose c).trk.voids = c.trk.voids
    ∧ (Chip.operatorClose c).trk.ctx = c.trk.ctx ∧ (Chip.operatorClose c).load.life = c.load.life
    ∧ (Chip.operatorClose c).role = c.role ∧ (Chip.operatorClose c).cal = c.cal
    ∧ (Chip.operatorClose c).panel.settings = c.panel.settings ∧ (Chip.operatorClose c).panel.page = c.panel.page
    ∧ (Chip.operatorClose c).panel.keys = c.panel.keys ∧ (Chip.operatorClose c).panel.decoder = c.panel.decoder
    ∧ (Chip.operatorClose c).store = c.store := by
  simp only [Chip.operatorClose]
  (repeat' split) <;> simp_all

@[simp] theorem Chip.counterRequest_frame (src dst : Byte) (c : Chip) :
    (Chip.counterRequest src dst c).pins = c.pins ∧ (Chip.counterRequest src dst c).sup = c.sup
    ∧ (Chip.counterRequest src dst c).tick = c.tick ∧ (Chip.counterRequest src dst c).link.station = c.link.station
    ∧ (Chip.counterRequest src dst c).link.rateFast = c.link.rateFast
    ∧ (Chip.counterRequest src dst c).link.rx = c.link.rx
    ∧ (Chip.counterRequest src dst c).link.gapDone = c.link.gapDone ∧ (Chip.counterRequest src dst c).inp = c.inp
    ∧ (Chip.counterRequest src dst c).eng = c.eng ∧ (Chip.counterRequest src dst c).trk = c.trk
    ∧ (Chip.counterRequest src dst c).load = c.load ∧ (Chip.counterRequest src dst c).role = c.role
    ∧ (Chip.counterRequest src dst c).cal = c.cal ∧ (Chip.counterRequest src dst c).alarm = c.alarm
    ∧ (Chip.counterRequest src dst c).panel = c.panel ∧ (Chip.counterRequest src dst c).store = c.store := by
  unfold Chip.counterRequest
  (repeat' split) <;> simp

@[simp] theorem Chip.counterReport_frame (src : Byte) (m : CounterMsg) (c : Chip) :
    (Chip.counterReport src m c).pins = c.pins ∧ (Chip.counterReport src m c).sup = c.sup
    ∧ (Chip.counterReport src m c).tick = c.tick ∧ (Chip.counterReport src m c).link = c.link
    ∧ (Chip.counterReport src m c).inp = c.inp ∧ (Chip.counterReport src m c).eng = c.eng
    ∧ (Chip.counterReport src m c).trk = c.trk ∧ (Chip.counterReport src m c).load.record = c.load.record
    ∧ (Chip.counterReport src m c).load.shift = c.load.shift ∧ (Chip.counterReport src m c).load.life = c.load.life
    ∧ (Chip.counterReport src m c).load.history = c.load.history ∧ (Chip.counterReport src m c).role = c.role
    ∧ (Chip.counterReport src m c).cal = c.cal ∧ (Chip.counterReport src m c).alarm = c.alarm
    ∧ (Chip.counterReport src m c).panel = c.panel ∧ (Chip.counterReport src m c).store = c.store := by
  unfold Chip.counterReport
  (repeat' split) <;> simp

@[simp] theorem Chip.poll_frame (c : Chip) :
    (Chip.poll c).pins = c.pins ∧ (Chip.poll c).sup = c.sup ∧ (Chip.poll c).tick = c.tick
    ∧ (Chip.poll c).link.station = c.link.station ∧ (Chip.poll c).link.rateFast = c.link.rateFast
    ∧ (Chip.poll c).link.rx = c.link.rx ∧ (Chip.poll c).link.gapDone = c.link.gapDone ∧ (Chip.poll c).inp = c.inp
    ∧ (Chip.poll c).eng = c.eng ∧ (Chip.poll c).trk = c.trk ∧ (Chip.poll c).load.record = c.load.record
    ∧ (Chip.poll c).load.shift = c.load.shift ∧ (Chip.poll c).load.life = c.load.life
    ∧ (Chip.poll c).load.history = c.load.history ∧ (Chip.poll c).role = c.role ∧ (Chip.poll c).cal = c.cal
    ∧ (Chip.poll c).alarm = c.alarm ∧ (Chip.poll c).panel = c.panel ∧ (Chip.poll c).store = c.store := by
  unfold Chip.poll
  (repeat' split) <;> simp

@[simp] theorem Chip.stopPoll_frame (c : Chip) :
    (Chip.stopPoll c).pins = c.pins ∧ (Chip.stopPoll c).sup = c.sup ∧ (Chip.stopPoll c).tick = c.tick
    ∧ (Chip.stopPoll c).link = c.link ∧ (Chip.stopPoll c).inp = c.inp ∧ (Chip.stopPoll c).eng = c.eng
    ∧ (Chip.stopPoll c).trk = c.trk ∧ (Chip.stopPoll c).load.record = c.load.record
    ∧ (Chip.stopPoll c).load.shift = c.load.shift ∧ (Chip.stopPoll c).load.life = c.load.life
    ∧ (Chip.stopPoll c).load.history = c.load.history ∧ (Chip.stopPoll c).role = c.role
    ∧ (Chip.stopPoll c).cal = c.cal ∧ (Chip.stopPoll c).alarm = c.alarm ∧ (Chip.stopPoll c).panel = c.panel
    ∧ (Chip.stopPoll c).store = c.store := by
  simp [Chip.stopPoll]

@[simp] theorem Chip.counterPollTimer_frame (c : Chip) :
    (Chip.counterPollTimer c).pins = c.pins ∧ (Chip.counterPollTimer c).sup = c.sup
    ∧ (Chip.counterPollTimer c).tick = c.tick ∧ (Chip.counterPollTimer c).link.station = c.link.station
    ∧ (Chip.counterPollTimer c).link.rateFast = c.link.rateFast ∧ (Chip.counterPollTimer c).link.rx = c.link.rx
    ∧ (Chip.counterPollTimer c).link.gapDone = c.link.gapDone ∧ (Chip.counterPollTimer c).inp = c.inp
    ∧ (Chip.counterPollTimer c).eng = c.eng ∧ (Chip.counterPollTimer c).trk = c.trk
    ∧ (Chip.counterPollTimer c).load.record = c.load.record ∧ (Chip.counterPollTimer c).load.shift = c.load.shift
    ∧ (Chip.counterPollTimer c).load.life = c.load.life ∧ (Chip.counterPollTimer c).load.history = c.load.history
    ∧ (Chip.counterPollTimer c).role = c.role ∧ (Chip.counterPollTimer c).cal = c.cal
    ∧ (Chip.counterPollTimer c).alarm = c.alarm ∧ (Chip.counterPollTimer c).panel = c.panel
    ∧ (Chip.counterPollTimer c).store = c.store := by
  unfold Chip.counterPollTimer
  (repeat' split) <;> simp

@[simp] theorem Chip.truckStatusRefresh_frame (c : Chip) :
    (Chip.truckStatusRefresh c).pins = c.pins ∧ (Chip.truckStatusRefresh c).sup = c.sup
    ∧ (Chip.truckStatusRefresh c).tick = c.tick ∧ (Chip.truckStatusRefresh c).link.station = c.link.station
    ∧ (Chip.truckStatusRefresh c).link.rateFast = c.link.rateFast ∧ (Chip.truckStatusRefresh c).link.rx = c.link.rx
    ∧ (Chip.truckStatusRefresh c).link.gapDone = c.link.gapDone ∧ (Chip.truckStatusRefresh c).inp = c.inp
    ∧ (Chip.truckStatusRefresh c).eng = c.eng ∧ (Chip.truckStatusRefresh c).trk = c.trk
    ∧ (Chip.truckStatusRefresh c).load.record = c.load.record
    ∧ (Chip.truckStatusRefresh c).load.shift = c.load.shift ∧ (Chip.truckStatusRefresh c).load.life = c.load.life
    ∧ (Chip.truckStatusRefresh c).load.history = c.load.history ∧ (Chip.truckStatusRefresh c).role = c.role
    ∧ (Chip.truckStatusRefresh c).cal = c.cal ∧ (Chip.truckStatusRefresh c).alarm = c.alarm
    ∧ (Chip.truckStatusRefresh c).panel = c.panel ∧ (Chip.truckStatusRefresh c).store = c.store := by
  unfold Chip.truckStatusRefresh
  (repeat' split) <;> simp

/-! ## Role -/

@[simp] theorem Chip.writeStatus_frame (c : Chip) :
    (Chip.writeStatus c).pins = c.pins ∧ (Chip.writeStatus c).sup = c.sup ∧ (Chip.writeStatus c).tick = c.tick
    ∧ (Chip.writeStatus c).link.station = c.link.station ∧ (Chip.writeStatus c).link.rateFast = c.link.rateFast
    ∧ (Chip.writeStatus c).link.rx = c.link.rx ∧ (Chip.writeStatus c).link.gapDone = c.link.gapDone
    ∧ (Chip.writeStatus c).inp = c.inp ∧ (Chip.writeStatus c).eng = c.eng ∧ (Chip.writeStatus c).trk = c.trk
    ∧ (Chip.writeStatus c).load = c.load ∧ (Chip.writeStatus c).role.state = c.role.state
    ∧ (Chip.writeStatus c).role.resumeRole = c.role.resumeRole
    ∧ (Chip.writeStatus c).role.mirrored = c.role.mirrored ∧ (Chip.writeStatus c).role.named = c.role.named
    ∧ (Chip.writeStatus c).role.conflict = c.role.conflict ∧ (Chip.writeStatus c).cal = c.cal
    ∧ (Chip.writeStatus c).alarm = c.alarm ∧ (Chip.writeStatus c).panel = c.panel
    ∧ (Chip.writeStatus c).store = c.store := by
  unfold Chip.writeStatus
  (repeat' split) <;> simp

@[simp] theorem Chip.leaveRole_frame (c : Chip) :
    (Chip.leaveRole c).pins = c.pins ∧ (Chip.leaveRole c).sup = c.sup ∧ (Chip.leaveRole c).tick = c.tick
    ∧ (Chip.leaveRole c).link.station = c.link.station ∧ (Chip.leaveRole c).link.rateFast = c.link.rateFast
    ∧ (Chip.leaveRole c).link.rx = c.link.rx ∧ (Chip.leaveRole c).link.gapDone = c.link.gapDone
    ∧ (Chip.leaveRole c).inp = c.inp ∧ (Chip.leaveRole c).eng = c.eng ∧ (Chip.leaveRole c).trk = c.trk
    ∧ (Chip.leaveRole c).load.record = c.load.record ∧ (Chip.leaveRole c).load.shift = c.load.shift
    ∧ (Chip.leaveRole c).load.life = c.load.life ∧ (Chip.leaveRole c).load.history = c.load.history
    ∧ (Chip.leaveRole c).role.state = c.role.state ∧ (Chip.leaveRole c).role.resumeRole = c.role.resumeRole
    ∧ (Chip.leaveRole c).role.mirrored = c.role.mirrored ∧ (Chip.leaveRole c).role.named = c.role.named
    ∧ (Chip.leaveRole c).role.conflict = c.role.conflict ∧ (Chip.leaveRole c).cal = c.cal
    ∧ (Chip.leaveRole c).alarm = c.alarm ∧ (Chip.leaveRole c).panel = c.panel ∧ (Chip.leaveRole c).store = c.store := by
  unfold Chip.leaveRole
  (repeat' split) <;> simp

@[simp] theorem Chip.setRole_frame (s : RoleState) (c : Chip) :
    (Chip.setRole s c).pins = c.pins ∧ (Chip.setRole s c).sup = c.sup ∧ (Chip.setRole s c).tick = c.tick
    ∧ (Chip.setRole s c).link = c.link ∧ (Chip.setRole s c).inp = c.inp ∧ (Chip.setRole s c).eng = c.eng
    ∧ (Chip.setRole s c).trk.cycle = c.trk.cycle ∧ (Chip.setRole s c).trk.voids = c.trk.voids
    ∧ (Chip.setRole s c).trk.ctx = c.trk.ctx ∧ (Chip.setRole s c).load = c.load
    ∧ (Chip.setRole s c).role.resumeRole = c.role.resumeRole ∧ (Chip.setRole s c).role.mirrored = c.role.mirrored
    ∧ (Chip.setRole s c).role.named = c.role.named ∧ (Chip.setRole s c).role.conflict = c.role.conflict
    ∧ (Chip.setRole s c).cal = c.cal ∧ (Chip.setRole s c).alarm = c.alarm ∧ (Chip.setRole s c).panel = c.panel
    ∧ (Chip.setRole s c).store = c.store := by
  simp [Chip.setRole]

@[simp] theorem Chip.clearCrossCheck_frame (c : Chip) :
    (Chip.clearCrossCheck c).pins = c.pins ∧ (Chip.clearCrossCheck c).sup = c.sup
    ∧ (Chip.clearCrossCheck c).tick = c.tick ∧ (Chip.clearCrossCheck c).link = c.link
    ∧ (Chip.clearCrossCheck c).inp = c.inp ∧ (Chip.clearCrossCheck c).eng = c.eng
    ∧ (Chip.clearCrossCheck c).trk = c.trk ∧ (Chip.clearCrossCheck c).load = c.load
    ∧ (Chip.clearCrossCheck c).role.state = c.role.state
    ∧ (Chip.clearCrossCheck c).role.resumeRole = c.role.resumeRole
    ∧ (Chip.clearCrossCheck c).role.mirrored = c.role.mirrored ∧ (Chip.clearCrossCheck c).role.named = c.role.named
    ∧ (Chip.clearCrossCheck c).role.conflict = c.role.conflict ∧ (Chip.clearCrossCheck c).cal = c.cal
    ∧ (Chip.clearCrossCheck c).panel.settings = c.panel.settings
    ∧ (Chip.clearCrossCheck c).panel.page = c.panel.page ∧ (Chip.clearCrossCheck c).panel.keys = c.panel.keys
    ∧ (Chip.clearCrossCheck c).panel.decoder = c.panel.decoder ∧ (Chip.clearCrossCheck c).store = c.store := by
  simp [Chip.clearCrossCheck]

@[simp] theorem Chip.enterListen_frame (c : Chip) :
    (Chip.enterListen c).pins = c.pins ∧ (Chip.enterListen c).sup = c.sup ∧ (Chip.enterListen c).tick = c.tick
    ∧ (Chip.enterListen c).inp = c.inp ∧ (Chip.enterListen c).eng = c.eng
    ∧ (Chip.enterListen c).trk.cycle = c.trk.cycle ∧ (Chip.enterListen c).trk.voids = c.trk.voids
    ∧ (Chip.enterListen c).trk.ctx = c.trk.ctx ∧ (Chip.enterListen c).load.record = c.load.record
    ∧ (Chip.enterListen c).load.shift = c.load.shift ∧ (Chip.enterListen c).load.life = c.load.life
    ∧ (Chip.enterListen c).load.history = c.load.history ∧ (Chip.enterListen c).role.resumeRole = c.role.resumeRole
    ∧ (Chip.enterListen c).role.mirrored = c.role.mirrored ∧ (Chip.enterListen c).role.conflict = c.role.conflict
    ∧ (Chip.enterListen c).cal = c.cal ∧ (Chip.enterListen c).panel.settings = c.panel.settings
    ∧ (Chip.enterListen c).panel.page = c.panel.page ∧ (Chip.enterListen c).panel.keys = c.panel.keys
    ∧ (Chip.enterListen c).panel.decoder = c.panel.decoder ∧ (Chip.enterListen c).store = c.store := by
  simp [Chip.enterListen]

@[simp] theorem Chip.enterRepeat_frame (c : Chip) :
    (Chip.enterRepeat c).pins = c.pins ∧ (Chip.enterRepeat c).sup = c.sup ∧ (Chip.enterRepeat c).tick = c.tick
    ∧ (Chip.enterRepeat c).link.station = c.link.station ∧ (Chip.enterRepeat c).link.rateFast = c.link.rateFast
    ∧ (Chip.enterRepeat c).link.rx = c.link.rx ∧ (Chip.enterRepeat c).link.gapDone = c.link.gapDone
    ∧ (Chip.enterRepeat c).inp = c.inp ∧ (Chip.enterRepeat c).eng = c.eng
    ∧ (Chip.enterRepeat c).trk.cycle = c.trk.cycle ∧ (Chip.enterRepeat c).trk.voids = c.trk.voids
    ∧ (Chip.enterRepeat c).trk.ctx = c.trk.ctx ∧ (Chip.enterRepeat c).load.record = c.load.record
    ∧ (Chip.enterRepeat c).load.shift = c.load.shift ∧ (Chip.enterRepeat c).load.life = c.load.life
    ∧ (Chip.enterRepeat c).load.history = c.load.history ∧ (Chip.enterRepeat c).role.resumeRole = c.role.resumeRole
    ∧ (Chip.enterRepeat c).role.mirrored = c.role.mirrored ∧ (Chip.enterRepeat c).role.conflict = c.role.conflict
    ∧ (Chip.enterRepeat c).cal = c.cal ∧ (Chip.enterRepeat c).panel.settings = c.panel.settings
    ∧ (Chip.enterRepeat c).panel.page = c.panel.page ∧ (Chip.enterRepeat c).panel.keys = c.panel.keys
    ∧ (Chip.enterRepeat c).panel.decoder = c.panel.decoder ∧ (Chip.enterRepeat c).store = c.store := by
  simp only [Chip.enterRepeat]
  (repeat' split) <;> simp_all

@[simp] theorem Chip.enterActive_frame (c : Chip) :
    (Chip.enterActive c).pins = c.pins ∧ (Chip.enterActive c).sup = c.sup ∧ (Chip.enterActive c).tick = c.tick
    ∧ (Chip.enterActive c).link.station = c.link.station ∧ (Chip.enterActive c).link.rateFast = c.link.rateFast
    ∧ (Chip.enterActive c).link.rx = c.link.rx ∧ (Chip.enterActive c).link.gapDone = c.link.gapDone
    ∧ (Chip.enterActive c).inp = c.inp ∧ (Chip.enterActive c).eng = c.eng
    ∧ (Chip.enterActive c).trk.cycle = c.trk.cycle ∧ (Chip.enterActive c).trk.voids = c.trk.voids
    ∧ (Chip.enterActive c).trk.ctx = c.trk.ctx ∧ (Chip.enterActive c).load.life = c.load.life
    ∧ (Chip.enterActive c).role.resumeRole = c.role.resumeRole
    ∧ (Chip.enterActive c).role.conflict = c.role.conflict ∧ (Chip.enterActive c).cal = c.cal
    ∧ (Chip.enterActive c).panel.settings = c.panel.settings ∧ (Chip.enterActive c).panel.page = c.panel.page
    ∧ (Chip.enterActive c).panel.keys = c.panel.keys ∧ (Chip.enterActive c).panel.decoder = c.panel.decoder
    ∧ (Chip.enterActive c).store = c.store := by
  simp [Chip.enterActive]

@[simp] theorem Chip.yieldRecord_frame (c : Chip) :
    (Chip.yieldRecord c).pins = c.pins ∧ (Chip.yieldRecord c).sup = c.sup ∧ (Chip.yieldRecord c).tick = c.tick
    ∧ (Chip.yieldRecord c).link.station = c.link.station ∧ (Chip.yieldRecord c).link.rateFast = c.link.rateFast
    ∧ (Chip.yieldRecord c).link.rx = c.link.rx ∧ (Chip.yieldRecord c).link.gapDone = c.link.gapDone
    ∧ (Chip.yieldRecord c).inp = c.inp ∧ (Chip.yieldRecord c).eng = c.eng
    ∧ (Chip.yieldRecord c).trk.cycle = c.trk.cycle ∧ (Chip.yieldRecord c).trk.voids = c.trk.voids
    ∧ (Chip.yieldRecord c).trk.ctx = c.trk.ctx ∧ (Chip.yieldRecord c).load.life = c.load.life
    ∧ (Chip.yieldRecord c).role.state = c.role.state ∧ (Chip.yieldRecord c).role.resumeRole = c.role.resumeRole
    ∧ (Chip.yieldRecord c).role.named = c.role.named ∧ (Chip.yieldRecord c).role.conflict = c.role.conflict
    ∧ (Chip.yieldRecord c).cal = c.cal ∧ (Chip.yieldRecord c).panel.settings = c.panel.settings
    ∧ (Chip.yieldRecord c).panel.page = c.panel.page ∧ (Chip.yieldRecord c).panel.keys = c.panel.keys
    ∧ (Chip.yieldRecord c).panel.decoder = c.panel.decoder ∧ (Chip.yieldRecord c).store = c.store := by
  unfold Chip.yieldRecord
  (repeat' split) <;> simp

@[simp] theorem Chip.enterStandby_frame (c : Chip) :
    (Chip.enterStandby c).pins = c.pins ∧ (Chip.enterStandby c).sup = c.sup ∧ (Chip.enterStandby c).tick = c.tick
    ∧ (Chip.enterStandby c).link.station = c.link.station ∧ (Chip.enterStandby c).link.rateFast = c.link.rateFast
    ∧ (Chip.enterStandby c).link.rx = c.link.rx ∧ (Chip.enterStandby c).link.gapDone = c.link.gapDone
    ∧ (Chip.enterStandby c).inp = c.inp ∧ (Chip.enterStandby c).eng = c.eng
    ∧ (Chip.enterStandby c).trk.cycle = c.trk.cycle ∧ (Chip.enterStandby c).trk.voids = c.trk.voids
    ∧ (Chip.enterStandby c).trk.ctx = c.trk.ctx ∧ (Chip.enterStandby c).load.life = c.load.life
    ∧ (Chip.enterStandby c).role.resumeRole = c.role.resumeRole ∧ (Chip.enterStandby c).role.named = c.role.named
    ∧ (Chip.enterStandby c).role.conflict = c.role.conflict ∧ (Chip.enterStandby c).cal = c.cal
    ∧ (Chip.enterStandby c).panel.settings = c.panel.settings ∧ (Chip.enterStandby c).panel.page = c.panel.page
    ∧ (Chip.enterStandby c).panel.keys = c.panel.keys ∧ (Chip.enterStandby c).panel.decoder = c.panel.decoder
    ∧ (Chip.enterStandby c).store = c.store := by
  simp [Chip.enterStandby]

@[simp] theorem Chip.compareMirror_frame (seq : BitVec 8) (c : Chip) :
    (Chip.compareMirror seq c).pins = c.pins ∧ (Chip.compareMirror seq c).sup = c.sup
    ∧ (Chip.compareMirror seq c).tick = c.tick ∧ (Chip.compareMirror seq c).link = c.link
    ∧ (Chip.compareMirror seq c).inp = c.inp ∧ (Chip.compareMirror seq c).eng = c.eng
    ∧ (Chip.compareMirror seq c).trk = c.trk ∧ (Chip.compareMirror seq c).load = c.load
    ∧ (Chip.compareMirror seq c).role.state = c.role.state
    ∧ (Chip.compareMirror seq c).role.resumeRole = c.role.resumeRole
    ∧ (Chip.compareMirror seq c).role.mirrored = c.role.mirrored
    ∧ (Chip.compareMirror seq c).role.named = c.role.named
    ∧ (Chip.compareMirror seq c).role.conflict = c.role.conflict ∧ (Chip.compareMirror seq c).cal = c.cal
    ∧ (Chip.compareMirror seq c).alarm = c.alarm ∧ (Chip.compareMirror seq c).panel = c.panel
    ∧ (Chip.compareMirror seq c).store = c.store := by
  simp [Chip.compareMirror]

@[simp] theorem Chip.yieldTo_frame (station : Nat) (seq : BitVec 8) (c : Chip) :
    (Chip.yieldTo station seq c).pins = c.pins ∧ (Chip.yieldTo station seq c).sup = c.sup
    ∧ (Chip.yieldTo station seq c).tick = c.tick ∧ (Chip.yieldTo station seq c).link.station = c.link.station
    ∧ (Chip.yieldTo station seq c).link.rateFast = c.link.rateFast
    ∧ (Chip.yieldTo station seq c).link.rx = c.link.rx ∧ (Chip.yieldTo station seq c).link.gapDone = c.link.gapDone
    ∧ (Chip.yieldTo station seq c).inp = c.inp ∧ (Chip.yieldTo station seq c).eng = c.eng
    ∧ (Chip.yieldTo station seq c).trk.cycle = c.trk.cycle ∧ (Chip.yieldTo station seq c).trk.voids = c.trk.voids
    ∧ (Chip.yieldTo station seq c).trk.ctx = c.trk.ctx ∧ (Chip.yieldTo station seq c).load.life = c.load.life
    ∧ (Chip.yieldTo station seq c).role.resumeRole = c.role.resumeRole
    ∧ (Chip.yieldTo station seq c).role.conflict = c.role.conflict ∧ (Chip.yieldTo station seq c).cal = c.cal
    ∧ (Chip.yieldTo station seq c).panel.settings = c.panel.settings
    ∧ (Chip.yieldTo station seq c).panel.page = c.panel.page
    ∧ (Chip.yieldTo station seq c).panel.keys = c.panel.keys
    ∧ (Chip.yieldTo station seq c).panel.decoder = c.panel.decoder ∧ (Chip.yieldTo station seq c).store = c.store := by
  simp [Chip.yieldTo]

@[simp] theorem Chip.enterMute_frame (c : Chip) :
    (Chip.enterMute c).pins = c.pins ∧ (Chip.enterMute c).sup = c.sup ∧ (Chip.enterMute c).tick = c.tick
    ∧ (Chip.enterMute c).inp = c.inp ∧ (Chip.enterMute c).eng = c.eng ∧ (Chip.enterMute c).trk.cycle = c.trk.cycle
    ∧ (Chip.enterMute c).trk.voids = c.trk.voids ∧ (Chip.enterMute c).trk.ctx = c.trk.ctx
    ∧ (Chip.enterMute c).load.life = c.load.life ∧ (Chip.enterMute c).role.resumeRole = c.role.resumeRole
    ∧ (Chip.enterMute c).role.named = c.role.named ∧ (Chip.enterMute c).cal = c.cal
    ∧ (Chip.enterMute c).panel.settings = c.panel.settings ∧ (Chip.enterMute c).panel.page = c.panel.page
    ∧ (Chip.enterMute c).panel.keys = c.panel.keys ∧ (Chip.enterMute c).panel.decoder = c.panel.decoder
    ∧ (Chip.enterMute c).store = c.store := by
  simp only [Chip.enterMute]
  (repeat' split) <;> simp_all

@[simp] theorem Chip.conflictReport_frame (c : Chip) :
    (Chip.conflictReport c).pins = c.pins ∧ (Chip.conflictReport c).sup = c.sup
    ∧ (Chip.conflictReport c).tick = c.tick ∧ (Chip.conflictReport c).inp = c.inp
    ∧ (Chip.conflictReport c).eng = c.eng ∧ (Chip.conflictReport c).trk.cycle = c.trk.cycle
    ∧ (Chip.conflictReport c).trk.voids = c.trk.voids ∧ (Chip.conflictReport c).trk.ctx = c.trk.ctx
    ∧ (Chip.conflictReport c).load.life = c.load.life ∧ (Chip.conflictReport c).role.resumeRole = c.role.resumeRole
    ∧ (Chip.conflictReport c).role.named = c.role.named ∧ (Chip.conflictReport c).cal = c.cal
    ∧ (Chip.conflictReport c).panel.settings = c.panel.settings ∧ (Chip.conflictReport c).panel.page = c.panel.page
    ∧ (Chip.conflictReport c).panel.keys = c.panel.keys ∧ (Chip.conflictReport c).panel.decoder = c.panel.decoder
    ∧ (Chip.conflictReport c).store = c.store := by
  unfold Chip.conflictReport
  (repeat' split) <;> simp

@[simp] theorem Chip.peerRecordRemoval_frame (station : Nat) (c : Chip) :
    (Chip.peerRecordRemoval station c).pins = c.pins ∧ (Chip.peerRecordRemoval station c).sup = c.sup
    ∧ (Chip.peerRecordRemoval station c).tick = c.tick ∧ (Chip.peerRecordRemoval station c).link = c.link
    ∧ (Chip.peerRecordRemoval station c).inp = c.inp ∧ (Chip.peerRecordRemoval station c).eng = c.eng
    ∧ (Chip.peerRecordRemoval station c).trk = c.trk ∧ (Chip.peerRecordRemoval station c).load = c.load
    ∧ (Chip.peerRecordRemoval station c).role.state = c.role.state
    ∧ (Chip.peerRecordRemoval station c).role.resumeRole = c.role.resumeRole
    ∧ (Chip.peerRecordRemoval station c).role.mirrored = c.role.mirrored
    ∧ (Chip.peerRecordRemoval station c).role.named = c.role.named
    ∧ (Chip.peerRecordRemoval station c).role.conflict = c.role.conflict
    ∧ (Chip.peerRecordRemoval station c).cal = c.cal ∧ (Chip.peerRecordRemoval station c).alarm = c.alarm
    ∧ (Chip.peerRecordRemoval station c).panel = c.panel ∧ (Chip.peerRecordRemoval station c).store = c.store := by
  unfold Chip.peerRecordRemoval
  (repeat' split) <;> simp

@[simp] theorem Chip.nameStation_frame (station : Nat) (c : Chip) :
    (Chip.nameStation station c).pins = c.pins ∧ (Chip.nameStation station c).sup = c.sup
    ∧ (Chip.nameStation station c).tick = c.tick ∧ (Chip.nameStation station c).link = c.link
    ∧ (Chip.nameStation station c).inp = c.inp ∧ (Chip.nameStation station c).eng = c.eng
    ∧ (Chip.nameStation station c).trk = c.trk ∧ (Chip.nameStation station c).load = c.load
    ∧ (Chip.nameStation station c).role.state = c.role.state
    ∧ (Chip.nameStation station c).role.resumeRole = c.role.resumeRole
    ∧ (Chip.nameStation station c).role.mirrored = c.role.mirrored
    ∧ (Chip.nameStation station c).role.conflict = c.role.conflict ∧ (Chip.nameStation station c).cal = c.cal
    ∧ (Chip.nameStation station c).panel.settings = c.panel.settings
    ∧ (Chip.nameStation station c).panel.page = c.panel.page
    ∧ (Chip.nameStation station c).panel.keys = c.panel.keys
    ∧ (Chip.nameStation station c).panel.decoder = c.panel.decoder ∧ (Chip.nameStation station c).store = c.store := by
  simp only [Chip.nameStation]
  (repeat' split) <;> simp_all

@[simp] theorem Chip.watchExpired_frame (c : Chip) :
    (Chip.watchExpired c).pins = c.pins ∧ (Chip.watchExpired c).sup = c.sup ∧ (Chip.watchExpired c).tick = c.tick
    ∧ (Chip.watchExpired c).link.station = c.link.station ∧ (Chip.watchExpired c).link.rateFast = c.link.rateFast
    ∧ (Chip.watchExpired c).link.rx = c.link.rx ∧ (Chip.watchExpired c).link.gapDone = c.link.gapDone
    ∧ (Chip.watchExpired c).inp = c.inp ∧ (Chip.watchExpired c).eng = c.eng
    ∧ (Chip.watchExpired c).trk.cycle = c.trk.cycle ∧ (Chip.watchExpired c).trk.voids = c.trk.voids
    ∧ (Chip.watchExpired c).trk.ctx = c.trk.ctx ∧ (Chip.watchExpired c).load.life = c.load.life
    ∧ (Chip.watchExpired c).role.resumeRole = c.role.resumeRole
    ∧ (Chip.watchExpired c).role.conflict = c.role.conflict ∧ (Chip.watchExpired c).cal = c.cal
    ∧ (Chip.watchExpired c).panel.settings = c.panel.settings ∧ (Chip.watchExpired c).panel.page = c.panel.page
    ∧ (Chip.watchExpired c).panel.keys = c.panel.keys ∧ (Chip.watchExpired c).panel.decoder = c.panel.decoder
    ∧ (Chip.watchExpired c).store = c.store := by
  simp only [Chip.watchExpired]
  (repeat' split) <;> simp_all

@[simp] theorem Chip.noteStatus_frame (seq : BitVec 8) (c : Chip) :
    (Chip.noteStatus seq c).pins = c.pins ∧ (Chip.noteStatus seq c).sup = c.sup
    ∧ (Chip.noteStatus seq c).tick = c.tick ∧ (Chip.noteStatus seq c).link = c.link
    ∧ (Chip.noteStatus seq c).inp = c.inp ∧ (Chip.noteStatus seq c).eng = c.eng
    ∧ (Chip.noteStatus seq c).trk = c.trk ∧ (Chip.noteStatus seq c).load = c.load
    ∧ (Chip.noteStatus seq c).role.state = c.role.state
    ∧ (Chip.noteStatus seq c).role.resumeRole = c.role.resumeRole
    ∧ (Chip.noteStatus seq c).role.mirrored = c.role.mirrored ∧ (Chip.noteStatus seq c).role.named = c.role.named
    ∧ (Chip.noteStatus seq c).role.conflict = c.role.conflict ∧ (Chip.noteStatus seq c).cal = c.cal
    ∧ (Chip.noteStatus seq c).alarm = c.alarm ∧ (Chip.noteStatus seq c).panel = c.panel
    ∧ (Chip.noteStatus seq c).store = c.store := by
  unfold Chip.noteStatus
  (repeat' split) <;> simp

@[simp] theorem Chip.hearStatus_frame (station : Nat) (m : StatusMsg) (c : Chip) :
    (Chip.hearStatus station m c).pins = c.pins ∧ (Chip.hearStatus station m c).sup = c.sup
    ∧ (Chip.hearStatus station m c).tick = c.tick ∧ (Chip.hearStatus station m c).link.station = c.link.station
    ∧ (Chip.hearStatus station m c).link.rateFast = c.link.rateFast
    ∧ (Chip.hearStatus station m c).link.rx = c.link.rx
    ∧ (Chip.hearStatus station m c).link.gapDone = c.link.gapDone ∧ (Chip.hearStatus station m c).inp = c.inp
    ∧ (Chip.hearStatus station m c).eng = c.eng ∧ (Chip.hearStatus station m c).trk.cycle = c.trk.cycle
    ∧ (Chip.hearStatus station m c).trk.voids = c.trk.voids ∧ (Chip.hearStatus station m c).trk.ctx = c.trk.ctx
    ∧ (Chip.hearStatus station m c).load.life = c.load.life
    ∧ (Chip.hearStatus station m c).role.resumeRole = c.role.resumeRole
    ∧ (Chip.hearStatus station m c).role.conflict = c.role.conflict ∧ (Chip.hearStatus station m c).cal = c.cal
    ∧ (Chip.hearStatus station m c).panel.settings = c.panel.settings
    ∧ (Chip.hearStatus station m c).panel.page = c.panel.page
    ∧ (Chip.hearStatus station m c).panel.keys = c.panel.keys
    ∧ (Chip.hearStatus station m c).panel.decoder = c.panel.decoder
    ∧ (Chip.hearStatus station m c).store = c.store := by
  simp only [Chip.hearStatus]
  (repeat' split) <;> simp_all

@[simp] theorem Chip.weigherStatus_frame (src : Byte) (m : StatusMsg) (c : Chip) :
    (Chip.weigherStatus src m c).pins = c.pins ∧ (Chip.weigherStatus src m c).sup = c.sup
    ∧ (Chip.weigherStatus src m c).tick = c.tick ∧ (Chip.weigherStatus src m c).link.station = c.link.station
    ∧ (Chip.weigherStatus src m c).link.rateFast = c.link.rateFast
    ∧ (Chip.weigherStatus src m c).link.rx = c.link.rx ∧ (Chip.weigherStatus src m c).link.gapDone = c.link.gapDone
    ∧ (Chip.weigherStatus src m c).inp = c.inp ∧ (Chip.weigherStatus src m c).eng = c.eng
    ∧ (Chip.weigherStatus src m c).trk.cycle = c.trk.cycle ∧ (Chip.weigherStatus src m c).trk.voids = c.trk.voids
    ∧ (Chip.weigherStatus src m c).trk.ctx = c.trk.ctx ∧ (Chip.weigherStatus src m c).load.life = c.load.life
    ∧ (Chip.weigherStatus src m c).role.resumeRole = c.role.resumeRole
    ∧ (Chip.weigherStatus src m c).role.conflict = c.role.conflict ∧ (Chip.weigherStatus src m c).cal = c.cal
    ∧ (Chip.weigherStatus src m c).panel.settings = c.panel.settings
    ∧ (Chip.weigherStatus src m c).panel.page = c.panel.page
    ∧ (Chip.weigherStatus src m c).panel.keys = c.panel.keys
    ∧ (Chip.weigherStatus src m c).panel.decoder = c.panel.decoder ∧ (Chip.weigherStatus src m c).store = c.store := by
  simp only [Chip.weigherStatus]
  (repeat' split) <;> simp_all

@[simp] theorem Chip.dropShadowNote_frame (before : Option TruckRec) (c : Chip) :
    (Chip.dropShadowNote before c).pins = c.pins ∧ (Chip.dropShadowNote before c).sup = c.sup
    ∧ (Chip.dropShadowNote before c).tick = c.tick ∧ (Chip.dropShadowNote before c).link = c.link
    ∧ (Chip.dropShadowNote before c).inp = c.inp ∧ (Chip.dropShadowNote before c).eng = c.eng
    ∧ (Chip.dropShadowNote before c).trk.cycle = c.trk.cycle
    ∧ (Chip.dropShadowNote before c).trk.voids = c.trk.voids ∧ (Chip.dropShadowNote before c).trk.ctx = c.trk.ctx
    ∧ (Chip.dropShadowNote before c).load = c.load ∧ (Chip.dropShadowNote before c).role = c.role
    ∧ (Chip.dropShadowNote before c).cal = c.cal ∧ (Chip.dropShadowNote before c).alarm = c.alarm
    ∧ (Chip.dropShadowNote before c).panel = c.panel ∧ (Chip.dropShadowNote before c).store = c.store := by
  unfold Chip.dropShadowNote
  (repeat' split) <;> simp

@[simp] theorem Chip.truckStatus_frame (src : Byte) (m : TruckMsg) (c : Chip) :
    (Chip.truckStatus src m c).pins = c.pins ∧ (Chip.truckStatus src m c).sup = c.sup
    ∧ (Chip.truckStatus src m c).tick = c.tick ∧ (Chip.truckStatus src m c).link = c.link
    ∧ (Chip.truckStatus src m c).inp = c.inp ∧ (Chip.truckStatus src m c).eng = c.eng
    ∧ (Chip.truckStatus src m c).trk.cycle = c.trk.cycle ∧ (Chip.truckStatus src m c).trk.voids = c.trk.voids
    ∧ (Chip.truckStatus src m c).trk.ctx = c.trk.ctx ∧ (Chip.truckStatus src m c).load.shift = c.load.shift
    ∧ (Chip.truckStatus src m c).load.life = c.load.life ∧ (Chip.truckStatus src m c).load.history = c.load.history
    ∧ (Chip.truckStatus src m c).role.state = c.role.state
    ∧ (Chip.truckStatus src m c).role.resumeRole = c.role.resumeRole
    ∧ (Chip.truckStatus src m c).role.named = c.role.named
    ∧ (Chip.truckStatus src m c).role.conflict = c.role.conflict ∧ (Chip.truckStatus src m c).cal = c.cal
    ∧ (Chip.truckStatus src m c).panel.settings = c.panel.settings
    ∧ (Chip.truckStatus src m c).panel.page = c.panel.page ∧ (Chip.truckStatus src m c).panel.keys = c.panel.keys
    ∧ (Chip.truckStatus src m c).panel.decoder = c.panel.decoder ∧ (Chip.truckStatus src m c).store = c.store := by
  unfold Chip.truckStatus
  (repeat' split) <;> simp

@[simp] theorem Chip.countUnpaired_frame (c : Chip) :
    (Chip.countUnpaired c).pins = c.pins ∧ (Chip.countUnpaired c).sup = c.sup ∧ (Chip.countUnpaired c).tick = c.tick
    ∧ (Chip.countUnpaired c).link = c.link ∧ (Chip.countUnpaired c).inp = c.inp ∧ (Chip.countUnpaired c).eng = c.eng
    ∧ (Chip.countUnpaired c).trk = c.trk ∧ (Chip.countUnpaired c).load = c.load
    ∧ (Chip.countUnpaired c).role.state = c.role.state ∧ (Chip.countUnpaired c).role.resumeRole = c.role.resumeRole
    ∧ (Chip.countUnpaired c).role.mirrored = c.role.mirrored ∧ (Chip.countUnpaired c).role.named = c.role.named
    ∧ (Chip.countUnpaired c).role.conflict = c.role.conflict ∧ (Chip.countUnpaired c).cal = c.cal
    ∧ (Chip.countUnpaired c).alarm = c.alarm ∧ (Chip.countUnpaired c).panel = c.panel
    ∧ (Chip.countUnpaired c).store = c.store := by
  simp [Chip.countUnpaired]

@[simp] theorem Chip.crossCheckPass_frame (p : PassRec) (c : Chip) :
    (Chip.crossCheckPass p c).pins = c.pins ∧ (Chip.crossCheckPass p c).sup = c.sup
    ∧ (Chip.crossCheckPass p c).tick = c.tick ∧ (Chip.crossCheckPass p c).link = c.link
    ∧ (Chip.crossCheckPass p c).inp = c.inp ∧ (Chip.crossCheckPass p c).eng = c.eng
    ∧ (Chip.crossCheckPass p c).trk = c.trk ∧ (Chip.crossCheckPass p c).load = c.load
    ∧ (Chip.crossCheckPass p c).role.state = c.role.state
    ∧ (Chip.crossCheckPass p c).role.resumeRole = c.role.resumeRole
    ∧ (Chip.crossCheckPass p c).role.mirrored = c.role.mirrored
    ∧ (Chip.crossCheckPass p c).role.named = c.role.named
    ∧ (Chip.crossCheckPass p c).role.conflict = c.role.conflict ∧ (Chip.crossCheckPass p c).cal = c.cal
    ∧ (Chip.crossCheckPass p c).panel.settings = c.panel.settings
    ∧ (Chip.crossCheckPass p c).panel.page = c.panel.page ∧ (Chip.crossCheckPass p c).panel.keys = c.panel.keys
    ∧ (Chip.crossCheckPass p c).panel.decoder = c.panel.decoder ∧ (Chip.crossCheckPass p c).store = c.store := by
  unfold Chip.crossCheckPass
  (repeat' split) <;> simp

@[simp] theorem Chip.shadowCommitted_frame (payload : Option Nat) (c : Chip) :
    (Chip.shadowCommitted payload c).pins = c.pins ∧ (Chip.shadowCommitted payload c).sup = c.sup
    ∧ (Chip.shadowCommitted payload c).tick = c.tick ∧ (Chip.shadowCommitted payload c).link = c.link
    ∧ (Chip.shadowCommitted payload c).inp = c.inp ∧ (Chip.shadowCommitted payload c).eng = c.eng
    ∧ (Chip.shadowCommitted payload c).trk = c.trk ∧ (Chip.shadowCommitted payload c).load = c.load
    ∧ (Chip.shadowCommitted payload c).role.state = c.role.state
    ∧ (Chip.shadowCommitted payload c).role.resumeRole = c.role.resumeRole
    ∧ (Chip.shadowCommitted payload c).role.mirrored = c.role.mirrored
    ∧ (Chip.shadowCommitted payload c).role.named = c.role.named
    ∧ (Chip.shadowCommitted payload c).role.conflict = c.role.conflict
    ∧ (Chip.shadowCommitted payload c).cal = c.cal ∧ (Chip.shadowCommitted payload c).alarm = c.alarm
    ∧ (Chip.shadowCommitted payload c).panel = c.panel ∧ (Chip.shadowCommitted payload c).store = c.store := by
  unfold Chip.shadowCommitted
  (repeat' split) <;> simp

@[simp] theorem Chip.pairingTimerExpiry_frame (c : Chip) :
    (Chip.pairingTimerExpiry c).pins = c.pins ∧ (Chip.pairingTimerExpiry c).sup = c.sup
    ∧ (Chip.pairingTimerExpiry c).tick = c.tick ∧ (Chip.pairingTimerExpiry c).link = c.link
    ∧ (Chip.pairingTimerExpiry c).inp = c.inp ∧ (Chip.pairingTimerExpiry c).eng = c.eng
    ∧ (Chip.pairingTimerExpiry c).trk = c.trk ∧ (Chip.pairingTimerExpiry c).load = c.load
    ∧ (Chip.pairingTimerExpiry c).role.state = c.role.state
    ∧ (Chip.pairingTimerExpiry c).role.resumeRole = c.role.resumeRole
    ∧ (Chip.pairingTimerExpiry c).role.mirrored = c.role.mirrored
    ∧ (Chip.pairingTimerExpiry c).role.named = c.role.named
    ∧ (Chip.pairingTimerExpiry c).role.conflict = c.role.conflict ∧ (Chip.pairingTimerExpiry c).cal = c.cal
    ∧ (Chip.pairingTimerExpiry c).alarm = c.alarm ∧ (Chip.pairingTimerExpiry c).panel = c.panel
    ∧ (Chip.pairingTimerExpiry c).store = c.store := by
  unfold Chip.pairingTimerExpiry
  (repeat' split) <;> simp

@[simp] theorem Chip.passRecord_frame (src : Byte) (p : PassRec) (c : Chip) :
    (Chip.passRecord src p c).pins = c.pins ∧ (Chip.passRecord src p c).sup = c.sup
    ∧ (Chip.passRecord src p c).tick = c.tick ∧ (Chip.passRecord src p c).link = c.link
    ∧ (Chip.passRecord src p c).inp = c.inp ∧ (Chip.passRecord src p c).eng = c.eng
    ∧ (Chip.passRecord src p c).trk.cycle = c.trk.cycle ∧ (Chip.passRecord src p c).trk.voids = c.trk.voids
    ∧ (Chip.passRecord src p c).trk.ctx = c.trk.ctx ∧ (Chip.passRecord src p c).load.shift = c.load.shift
    ∧ (Chip.passRecord src p c).load.life = c.load.life ∧ (Chip.passRecord src p c).load.history = c.load.history
    ∧ (Chip.passRecord src p c).role.state = c.role.state
    ∧ (Chip.passRecord src p c).role.resumeRole = c.role.resumeRole
    ∧ (Chip.passRecord src p c).role.named = c.role.named
    ∧ (Chip.passRecord src p c).role.conflict = c.role.conflict ∧ (Chip.passRecord src p c).cal = c.cal
    ∧ (Chip.passRecord src p c).panel.settings = c.panel.settings
    ∧ (Chip.passRecord src p c).panel.page = c.panel.page ∧ (Chip.passRecord src p c).panel.keys = c.panel.keys
    ∧ (Chip.passRecord src p c).panel.decoder = c.panel.decoder ∧ (Chip.passRecord src p c).store = c.store := by
  simp only [Chip.passRecord]
  (repeat' split) <;> simp_all

@[simp] theorem Chip.truckClosed_frame (src : Byte) (m : ClosedMsg) (c : Chip) :
    (Chip.truckClosed src m c).pins = c.pins ∧ (Chip.truckClosed src m c).sup = c.sup
    ∧ (Chip.truckClosed src m c).tick = c.tick ∧ (Chip.truckClosed src m c).link = c.link
    ∧ (Chip.truckClosed src m c).inp = c.inp ∧ (Chip.truckClosed src m c).eng = c.eng
    ∧ (Chip.truckClosed src m c).trk = c.trk ∧ (Chip.truckClosed src m c).load.record = c.load.record
    ∧ (Chip.truckClosed src m c).load.life = c.load.life ∧ (Chip.truckClosed src m c).role = c.role
    ∧ (Chip.truckClosed src m c).cal = c.cal ∧ (Chip.truckClosed src m c).alarm = c.alarm
    ∧ (Chip.truckClosed src m c).panel.settings = c.panel.settings
    ∧ (Chip.truckClosed src m c).panel.page = c.panel.page ∧ (Chip.truckClosed src m c).panel.keys = c.panel.keys
    ∧ (Chip.truckClosed src m c).panel.decoder = c.panel.decoder ∧ (Chip.truckClosed src m c).store = c.store := by
  unfold Chip.truckClosed
  (repeat' split) <;> simp

@[simp] theorem Chip.settleRole_frame (c : Chip) :
    (Chip.settleRole c).pins = c.pins ∧ (Chip.settleRole c).sup = c.sup ∧ (Chip.settleRole c).tick = c.tick
    ∧ (Chip.settleRole c).inp = c.inp ∧ (Chip.settleRole c).eng = c.eng
    ∧ (Chip.settleRole c).trk.cycle = c.trk.cycle ∧ (Chip.settleRole c).trk.voids = c.trk.voids
    ∧ (Chip.settleRole c).trk.ctx = c.trk.ctx ∧ (Chip.settleRole c).load.life = c.load.life
    ∧ (Chip.settleRole c).role.resumeRole = c.role.resumeRole ∧ (Chip.settleRole c).cal = c.cal
    ∧ (Chip.settleRole c).panel.settings = c.panel.settings ∧ (Chip.settleRole c).panel.page = c.panel.page
    ∧ (Chip.settleRole c).panel.keys = c.panel.keys ∧ (Chip.settleRole c).panel.decoder = c.panel.decoder
    ∧ (Chip.settleRole c).store = c.store := by
  unfold Chip.settleRole
  (repeat' split) <;> simp

@[simp] theorem Chip.resumeRole_frame (c : Chip) :
    (Chip.resumeRole c).pins = c.pins ∧ (Chip.resumeRole c).sup = c.sup ∧ (Chip.resumeRole c).tick = c.tick
    ∧ (Chip.resumeRole c).link.station = c.link.station ∧ (Chip.resumeRole c).link.rateFast = c.link.rateFast
    ∧ (Chip.resumeRole c).link.rx = c.link.rx ∧ (Chip.resumeRole c).link.gapDone = c.link.gapDone
    ∧ (Chip.resumeRole c).inp = c.inp ∧ (Chip.resumeRole c).eng = c.eng
    ∧ (Chip.resumeRole c).trk.cycle = c.trk.cycle ∧ (Chip.resumeRole c).trk.voids = c.trk.voids
    ∧ (Chip.resumeRole c).trk.ctx = c.trk.ctx ∧ (Chip.resumeRole c).load.life = c.load.life
    ∧ (Chip.resumeRole c).role.resumeRole = c.role.resumeRole ∧ (Chip.resumeRole c).cal = c.cal
    ∧ (Chip.resumeRole c).panel.settings = c.panel.settings ∧ (Chip.resumeRole c).panel.page = c.panel.page
    ∧ (Chip.resumeRole c).panel.keys = c.panel.keys ∧ (Chip.resumeRole c).panel.decoder = c.panel.decoder
    ∧ (Chip.resumeRole c).store = c.store := by
  simp only [Chip.resumeRole]
  (repeat' split) <;> simp_all

@[simp] theorem Chip.takeCalibrating_frame (c : Chip) :
    (Chip.takeCalibrating c).pins = c.pins ∧ (Chip.takeCalibrating c).sup = c.sup
    ∧ (Chip.takeCalibrating c).tick = c.tick ∧ (Chip.takeCalibrating c).link.station = c.link.station
    ∧ (Chip.takeCalibrating c).link.rateFast = c.link.rateFast ∧ (Chip.takeCalibrating c).link.rx = c.link.rx
    ∧ (Chip.takeCalibrating c).link.gapDone = c.link.gapDone ∧ (Chip.takeCalibrating c).inp = c.inp
    ∧ (Chip.takeCalibrating c).eng = c.eng ∧ (Chip.takeCalibrating c).trk.cycle = c.trk.cycle
    ∧ (Chip.takeCalibrating c).trk.voids = c.trk.voids ∧ (Chip.takeCalibrating c).trk.ctx = c.trk.ctx
    ∧ (Chip.takeCalibrating c).load.record = c.load.record ∧ (Chip.takeCalibrating c).load.shift = c.load.shift
    ∧ (Chip.takeCalibrating c).load.life = c.load.life ∧ (Chip.takeCalibrating c).load.history = c.load.history
    ∧ (Chip.takeCalibrating c).role.resumeRole = c.role.resumeRole
    ∧ (Chip.takeCalibrating c).role.mirrored = c.role.mirrored ∧ (Chip.takeCalibrating c).role.named = c.role.named
    ∧ (Chip.takeCalibrating c).role.conflict = c.role.conflict ∧ (Chip.takeCalibrating c).cal = c.cal
    ∧ (Chip.takeCalibrating c).alarm = c.alarm ∧ (Chip.takeCalibrating c).panel = c.panel
    ∧ (Chip.takeCalibrating c).store = c.store := by
  unfold Chip.takeCalibrating
  (repeat' split) <;> simp

@[simp] theorem Chip.takeListen_frame (c : Chip) :
    (Chip.takeListen c).pins = c.pins ∧ (Chip.takeListen c).sup = c.sup ∧ (Chip.takeListen c).tick = c.tick
    ∧ (Chip.takeListen c).inp = c.inp ∧ (Chip.takeListen c).eng = c.eng
    ∧ (Chip.takeListen c).trk.cycle = c.trk.cycle ∧ (Chip.takeListen c).trk.voids = c.trk.voids
    ∧ (Chip.takeListen c).trk.ctx = c.trk.ctx ∧ (Chip.takeListen c).load.record = c.load.record
    ∧ (Chip.takeListen c).load.shift = c.load.shift ∧ (Chip.takeListen c).load.life = c.load.life
    ∧ (Chip.takeListen c).load.history = c.load.history ∧ (Chip.takeListen c).role.mirrored = c.role.mirrored
    ∧ (Chip.takeListen c).role.conflict = c.role.conflict ∧ (Chip.takeListen c).cal = c.cal
    ∧ (Chip.takeListen c).panel.settings = c.panel.settings ∧ (Chip.takeListen c).panel.page = c.panel.page
    ∧ (Chip.takeListen c).panel.keys = c.panel.keys ∧ (Chip.takeListen c).panel.decoder = c.panel.decoder
    ∧ (Chip.takeListen c).store = c.store := by
  unfold Chip.takeListen
  (repeat' split) <;> simp

@[simp] theorem Chip.statusTimerExpiry_frame (c : Chip) :
    (Chip.statusTimerExpiry c).pins = c.pins ∧ (Chip.statusTimerExpiry c).sup = c.sup
    ∧ (Chip.statusTimerExpiry c).tick = c.tick ∧ (Chip.statusTimerExpiry c).link.station = c.link.station
    ∧ (Chip.statusTimerExpiry c).link.rateFast = c.link.rateFast ∧ (Chip.statusTimerExpiry c).link.rx = c.link.rx
    ∧ (Chip.statusTimerExpiry c).link.gapDone = c.link.gapDone ∧ (Chip.statusTimerExpiry c).inp = c.inp
    ∧ (Chip.statusTimerExpiry c).eng = c.eng ∧ (Chip.statusTimerExpiry c).trk = c.trk
    ∧ (Chip.statusTimerExpiry c).load = c.load ∧ (Chip.statusTimerExpiry c).role.state = c.role.state
    ∧ (Chip.statusTimerExpiry c).role.resumeRole = c.role.resumeRole
    ∧ (Chip.statusTimerExpiry c).role.mirrored = c.role.mirrored
    ∧ (Chip.statusTimerExpiry c).role.named = c.role.named
    ∧ (Chip.statusTimerExpiry c).role.conflict = c.role.conflict ∧ (Chip.statusTimerExpiry c).cal = c.cal
    ∧ (Chip.statusTimerExpiry c).alarm = c.alarm ∧ (Chip.statusTimerExpiry c).panel = c.panel
    ∧ (Chip.statusTimerExpiry c).store = c.store := by
  unfold Chip.statusTimerExpiry
  (repeat' split) <;> simp

@[simp] theorem Chip.watchTimerExpiry_frame (c : Chip) :
    (Chip.watchTimerExpiry c).pins = c.pins ∧ (Chip.watchTimerExpiry c).sup = c.sup
    ∧ (Chip.watchTimerExpiry c).tick = c.tick ∧ (Chip.watchTimerExpiry c).link.station = c.link.station
    ∧ (Chip.watchTimerExpiry c).link.rateFast = c.link.rateFast ∧ (Chip.watchTimerExpiry c).link.rx = c.link.rx
    ∧ (Chip.watchTimerExpiry c).link.gapDone = c.link.gapDone ∧ (Chip.watchTimerExpiry c).inp = c.inp
    ∧ (Chip.watchTimerExpiry c).eng = c.eng ∧ (Chip.watchTimerExpiry c).trk.cycle = c.trk.cycle
    ∧ (Chip.watchTimerExpiry c).trk.voids = c.trk.voids ∧ (Chip.watchTimerExpiry c).trk.ctx = c.trk.ctx
    ∧ (Chip.watchTimerExpiry c).load.life = c.load.life
    ∧ (Chip.watchTimerExpiry c).role.resumeRole = c.role.resumeRole
    ∧ (Chip.watchTimerExpiry c).role.conflict = c.role.conflict ∧ (Chip.watchTimerExpiry c).cal = c.cal
    ∧ (Chip.watchTimerExpiry c).panel.settings = c.panel.settings
    ∧ (Chip.watchTimerExpiry c).panel.page = c.panel.page ∧ (Chip.watchTimerExpiry c).panel.keys = c.panel.keys
    ∧ (Chip.watchTimerExpiry c).panel.decoder = c.panel.decoder ∧ (Chip.watchTimerExpiry c).store = c.store := by
  unfold Chip.watchTimerExpiry
  (repeat' split) <;> simp

@[simp] theorem Chip.listenTimerExpiry_frame (c : Chip) :
    (Chip.listenTimerExpiry c).pins = c.pins ∧ (Chip.listenTimerExpiry c).sup = c.sup
    ∧ (Chip.listenTimerExpiry c).tick = c.tick ∧ (Chip.listenTimerExpiry c).link.station = c.link.station
    ∧ (Chip.listenTimerExpiry c).link.rateFast = c.link.rateFast ∧ (Chip.listenTimerExpiry c).link.rx = c.link.rx
    ∧ (Chip.listenTimerExpiry c).link.gapDone = c.link.gapDone ∧ (Chip.listenTimerExpiry c).inp = c.inp
    ∧ (Chip.listenTimerExpiry c).eng = c.eng ∧ (Chip.listenTimerExpiry c).trk.cycle = c.trk.cycle
    ∧ (Chip.listenTimerExpiry c).trk.voids = c.trk.voids ∧ (Chip.listenTimerExpiry c).trk.ctx = c.trk.ctx
    ∧ (Chip.listenTimerExpiry c).load.life = c.load.life
    ∧ (Chip.listenTimerExpiry c).role.resumeRole = c.role.resumeRole
    ∧ (Chip.listenTimerExpiry c).role.conflict = c.role.conflict ∧ (Chip.listenTimerExpiry c).cal = c.cal
    ∧ (Chip.listenTimerExpiry c).panel.settings = c.panel.settings
    ∧ (Chip.listenTimerExpiry c).panel.page = c.panel.page ∧ (Chip.listenTimerExpiry c).panel.keys = c.panel.keys
    ∧ (Chip.listenTimerExpiry c).panel.decoder = c.panel.decoder ∧ (Chip.listenTimerExpiry c).store = c.store := by
  unfold Chip.listenTimerExpiry
  (repeat' split) <;> simp

/-! ## Tracker -/

@[simp] theorem Chip.setCycle_frame (s : Cycle) (c : Chip) :
    (Chip.setCycle s c).pins = c.pins ∧ (Chip.setCycle s c).sup = c.sup ∧ (Chip.setCycle s c).tick = c.tick
    ∧ (Chip.setCycle s c).link = c.link ∧ (Chip.setCycle s c).inp = c.inp ∧ (Chip.setCycle s c).eng = c.eng
    ∧ (Chip.setCycle s c).trk.voids = c.trk.voids ∧ (Chip.setCycle s c).trk.ctx = c.trk.ctx
    ∧ (Chip.setCycle s c).load = c.load ∧ (Chip.setCycle s c).role = c.role ∧ (Chip.setCycle s c).cal = c.cal
    ∧ (Chip.setCycle s c).alarm = c.alarm ∧ (Chip.setCycle s c).panel = c.panel
    ∧ (Chip.setCycle s c).store = c.store := by
  simp [Chip.setCycle]

@[simp] theorem Chip.deliverPass_frame (p : PassRec) (c : Chip) :
    (Chip.deliverPass p c).2.pins = c.pins ∧ (Chip.deliverPass p c).2.sup = c.sup
    ∧ (Chip.deliverPass p c).2.tick = c.tick ∧ (Chip.deliverPass p c).2.link.station = c.link.station
    ∧ (Chip.deliverPass p c).2.link.rateFast = c.link.rateFast ∧ (Chip.deliverPass p c).2.link.rx = c.link.rx
    ∧ (Chip.deliverPass p c).2.link.gapDone = c.link.gapDone ∧ (Chip.deliverPass p c).2.inp = c.inp
    ∧ (Chip.deliverPass p c).2.eng = c.eng ∧ (Chip.deliverPass p c).2.trk = c.trk
    ∧ (Chip.deliverPass p c).2.load.shift = c.load.shift ∧ (Chip.deliverPass p c).2.load.life = c.load.life
    ∧ (Chip.deliverPass p c).2.load.history = c.load.history ∧ (Chip.deliverPass p c).2.role.state = c.role.state
    ∧ (Chip.deliverPass p c).2.role.resumeRole = c.role.resumeRole ∧ (Chip.deliverPass p c).2.role.named = c.role.named
    ∧ (Chip.deliverPass p c).2.role.conflict = c.role.conflict ∧ (Chip.deliverPass p c).2.cal = c.cal
    ∧ (Chip.deliverPass p c).2.panel.settings = c.panel.settings
    ∧ (Chip.deliverPass p c).2.panel.page = c.panel.page ∧ (Chip.deliverPass p c).2.panel.keys = c.panel.keys
    ∧ (Chip.deliverPass p c).2.panel.decoder = c.panel.decoder ∧ (Chip.deliverPass p c).2.store = c.store := by
  unfold Chip.deliverPass
  (repeat' split) <;> simp

@[simp] theorem Chip.commitPass_frame (p : PassRec) (c : Chip) :
    (Chip.commitPass p c).pins = c.pins ∧ (Chip.commitPass p c).sup = c.sup
    ∧ (Chip.commitPass p c).tick = c.tick ∧ (Chip.commitPass p c).link.station = c.link.station
    ∧ (Chip.commitPass p c).link.rateFast = c.link.rateFast ∧ (Chip.commitPass p c).link.rx = c.link.rx
    ∧ (Chip.commitPass p c).link.gapDone = c.link.gapDone ∧ (Chip.commitPass p c).inp = c.inp
    ∧ (Chip.commitPass p c).eng = c.eng ∧ (Chip.commitPass p c).trk.cycle = c.trk.cycle
    ∧ (Chip.commitPass p c).trk.voids = c.trk.voids ∧ (Chip.commitPass p c).trk.ctx = c.trk.ctx
    ∧ (Chip.commitPass p c).load.history = c.load.history ∧ (Chip.commitPass p c).role.state = c.role.state
    ∧ (Chip.commitPass p c).role.resumeRole = c.role.resumeRole
    ∧ (Chip.commitPass p c).role.named = c.role.named ∧ (Chip.commitPass p c).role.conflict = c.role.conflict
    ∧ (Chip.commitPass p c).cal = c.cal ∧ (Chip.commitPass p c).panel.settings = c.panel.settings
    ∧ (Chip.commitPass p c).panel.page = c.panel.page ∧ (Chip.commitPass p c).panel.keys = c.panel.keys
    ∧ (Chip.commitPass p c).panel.decoder = c.panel.decoder ∧ (Chip.commitPass p c).store = c.store := by
  simp only [Chip.commitPass]
  (repeat' split) <;> simp_all

@[simp] theorem Chip.enterDump_frame (c : Chip) :
    (Chip.enterDump c).pins = c.pins ∧ (Chip.enterDump c).sup = c.sup ∧ (Chip.enterDump c).tick = c.tick
    ∧ (Chip.enterDump c).link.station = c.link.station ∧ (Chip.enterDump c).link.rateFast = c.link.rateFast
    ∧ (Chip.enterDump c).link.rx = c.link.rx ∧ (Chip.enterDump c).link.gapDone = c.link.gapDone
    ∧ (Chip.enterDump c).inp = c.inp ∧ (Chip.enterDump c).eng = c.eng ∧ (Chip.enterDump c).trk.voids = c.trk.voids
    ∧ (Chip.enterDump c).load.history = c.load.history ∧ (Chip.enterDump c).role.state = c.role.state
    ∧ (Chip.enterDump c).role.resumeRole = c.role.resumeRole
    ∧ (Chip.enterDump c).role.named = c.role.named ∧ (Chip.enterDump c).role.conflict = c.role.conflict
    ∧ (Chip.enterDump c).cal = c.cal ∧ (Chip.enterDump c).panel.settings = c.panel.settings
    ∧ (Chip.enterDump c).panel.page = c.panel.page ∧ (Chip.enterDump c).panel.keys = c.panel.keys
    ∧ (Chip.enterDump c).panel.decoder = c.panel.decoder ∧ (Chip.enterDump c).store = c.store := by
  simp only [Chip.enterDump]
  (repeat' split) <;> simp_all

@[simp] theorem Chip.enterLift_frame (c : Chip) :
    (Chip.enterLift c).pins = c.pins ∧ (Chip.enterLift c).sup = c.sup ∧ (Chip.enterLift c).tick = c.tick
    ∧ (Chip.enterLift c).link.station = c.link.station ∧ (Chip.enterLift c).link.rateFast = c.link.rateFast
    ∧ (Chip.enterLift c).link.rx = c.link.rx ∧ (Chip.enterLift c).link.gapDone = c.link.gapDone
    ∧ (Chip.enterLift c).inp = c.inp ∧ (Chip.enterLift c).eng = c.eng ∧ (Chip.enterLift c).trk.voids = c.trk.voids
    ∧ (Chip.enterLift c).load.history = c.load.history ∧ (Chip.enterLift c).role.state = c.role.state
    ∧ (Chip.enterLift c).role.resumeRole = c.role.resumeRole
    ∧ (Chip.enterLift c).role.named = c.role.named ∧ (Chip.enterLift c).role.conflict = c.role.conflict
    ∧ (Chip.enterLift c).cal = c.cal ∧ (Chip.enterLift c).panel.settings = c.panel.settings
    ∧ (Chip.enterLift c).panel.page = c.panel.page ∧ (Chip.enterLift c).panel.keys = c.panel.keys
    ∧ (Chip.enterLift c).panel.decoder = c.panel.decoder ∧ (Chip.enterLift c).store = c.store := by
  simp only [Chip.enterLift]
  (repeat' split) <;> simp_all

@[simp] theorem Chip.enterFill_frame (c : Chip) :
    (Chip.enterFill c).pins = c.pins ∧ (Chip.enterFill c).sup = c.sup ∧ (Chip.enterFill c).tick = c.tick
    ∧ (Chip.enterFill c).link.station = c.link.station ∧ (Chip.enterFill c).link.rateFast = c.link.rateFast
    ∧ (Chip.enterFill c).link.rx = c.link.rx ∧ (Chip.enterFill c).link.gapDone = c.link.gapDone
    ∧ (Chip.enterFill c).inp = c.inp ∧ (Chip.enterFill c).eng = c.eng ∧ (Chip.enterFill c).trk.voids = c.trk.voids
    ∧ (Chip.enterFill c).load.history = c.load.history ∧ (Chip.enterFill c).role.state = c.role.state
    ∧ (Chip.enterFill c).role.resumeRole = c.role.resumeRole
    ∧ (Chip.enterFill c).role.named = c.role.named ∧ (Chip.enterFill c).role.conflict = c.role.conflict
    ∧ (Chip.enterFill c).cal = c.cal ∧ (Chip.enterFill c).panel.settings = c.panel.settings
    ∧ (Chip.enterFill c).panel.page = c.panel.page ∧ (Chip.enterFill c).panel.keys = c.panel.keys
    ∧ (Chip.enterFill c).panel.decoder = c.panel.decoder ∧ (Chip.enterFill c).store = c.store := by
  simp only [Chip.enterFill]
  (repeat' split) <;> simp_all

@[simp] theorem Chip.enterIdle_frame (c : Chip) :
    (Chip.enterIdle c).pins = c.pins ∧ (Chip.enterIdle c).sup = c.sup ∧ (Chip.enterIdle c).tick = c.tick
    ∧ (Chip.enterIdle c).link.station = c.link.station ∧ (Chip.enterIdle c).link.rateFast = c.link.rateFast
    ∧ (Chip.enterIdle c).link.rx = c.link.rx ∧ (Chip.enterIdle c).link.gapDone = c.link.gapDone
    ∧ (Chip.enterIdle c).inp = c.inp ∧ (Chip.enterIdle c).eng = c.eng ∧ (Chip.enterIdle c).trk.voids = c.trk.voids
    ∧ (Chip.enterIdle c).load.history = c.load.history ∧ (Chip.enterIdle c).role.state = c.role.state
    ∧ (Chip.enterIdle c).role.resumeRole = c.role.resumeRole
    ∧ (Chip.enterIdle c).role.named = c.role.named ∧ (Chip.enterIdle c).role.conflict = c.role.conflict
    ∧ (Chip.enterIdle c).cal = c.cal ∧ (Chip.enterIdle c).panel.settings = c.panel.settings
    ∧ (Chip.enterIdle c).panel.page = c.panel.page ∧ (Chip.enterIdle c).panel.keys = c.panel.keys
    ∧ (Chip.enterIdle c).panel.decoder = c.panel.decoder ∧ (Chip.enterIdle c).store = c.store := by
  simp only [Chip.enterIdle]
  (repeat' split) <;> simp_all

@[simp] theorem Chip.testRacked_frame (tilt : Int) (c : Chip) :
    (Chip.testRacked tilt c).pins = c.pins ∧ (Chip.testRacked tilt c).sup = c.sup
    ∧ (Chip.testRacked tilt c).tick = c.tick ∧ (Chip.testRacked tilt c).link = c.link
    ∧ (Chip.testRacked tilt c).inp = c.inp ∧ (Chip.testRacked tilt c).eng = c.eng
    ∧ (Chip.testRacked tilt c).trk.cycle = c.trk.cycle ∧ (Chip.testRacked tilt c).trk.voids = c.trk.voids
    ∧ (Chip.testRacked tilt c).trk.ctx = c.trk.ctx ∧ (Chip.testRacked tilt c).load = c.load
    ∧ (Chip.testRacked tilt c).role = c.role ∧ (Chip.testRacked tilt c).cal = c.cal
    ∧ (Chip.testRacked tilt c).alarm = c.alarm ∧ (Chip.testRacked tilt c).panel = c.panel
    ∧ (Chip.testRacked tilt c).store = c.store := by
  simp [Chip.testRacked]

@[simp] theorem Chip.enterReturn_frame (c : Chip) :
    (Chip.enterReturn c).pins = c.pins ∧ (Chip.enterReturn c).sup = c.sup ∧ (Chip.enterReturn c).tick = c.tick
    ∧ (Chip.enterReturn c).link.station = c.link.station ∧ (Chip.enterReturn c).link.rateFast = c.link.rateFast
    ∧ (Chip.enterReturn c).link.rx = c.link.rx ∧ (Chip.enterReturn c).link.gapDone = c.link.gapDone
    ∧ (Chip.enterReturn c).inp = c.inp ∧ (Chip.enterReturn c).eng = c.eng
    ∧ (Chip.enterReturn c).trk.voids = c.trk.voids ∧ (Chip.enterReturn c).load.history = c.load.history
    ∧ (Chip.enterReturn c).role.state = c.role.state ∧ (Chip.enterReturn c).role.resumeRole = c.role.resumeRole
    ∧ (Chip.enterReturn c).role.named = c.role.named ∧ (Chip.enterReturn c).role.conflict = c.role.conflict
    ∧ (Chip.enterReturn c).cal = c.cal ∧ (Chip.enterReturn c).panel.settings = c.panel.settings
    ∧ (Chip.enterReturn c).panel.page = c.panel.page ∧ (Chip.enterReturn c).panel.keys = c.panel.keys
    ∧ (Chip.enterReturn c).panel.decoder = c.panel.decoder ∧ (Chip.enterReturn c).store = c.store := by
  simp only [Chip.enterReturn]
  (repeat' split) <;> simp_all

@[simp] theorem Chip.shutIfWeigh_frame (c : Chip) :
    (Chip.shutIfWeigh c).pins = c.pins ∧ (Chip.shutIfWeigh c).sup = c.sup ∧ (Chip.shutIfWeigh c).tick = c.tick
    ∧ (Chip.shutIfWeigh c).link = c.link ∧ (Chip.shutIfWeigh c).inp = c.inp ∧ (Chip.shutIfWeigh c).trk = c.trk
    ∧ (Chip.shutIfWeigh c).load = c.load ∧ (Chip.shutIfWeigh c).role = c.role ∧ (Chip.shutIfWeigh c).cal = c.cal
    ∧ (Chip.shutIfWeigh c).alarm = c.alarm ∧ (Chip.shutIfWeigh c).panel = c.panel
    ∧ (Chip.shutIfWeigh c).store = c.store := by
  unfold Chip.shutIfWeigh
  (repeat' split) <;> simp

@[simp] theorem Chip.voidPass_frame (r : VoidReason) (c : Chip) :
    (Chip.voidPass r c).pins = c.pins ∧ (Chip.voidPass r c).sup = c.sup ∧ (Chip.voidPass r c).tick = c.tick
    ∧ (Chip.voidPass r c).link = c.link ∧ (Chip.voidPass r c).inp = c.inp
    ∧ (Chip.voidPass r c).trk.cycle = c.trk.cycle ∧ (Chip.voidPass r c).load = c.load
    ∧ (Chip.voidPass r c).role = c.role ∧ (Chip.voidPass r c).cal = c.cal ∧ (Chip.voidPass r c).alarm = c.alarm
    ∧ (Chip.voidPass r c).panel = c.panel ∧ (Chip.voidPass r c).store = c.store := by
  simp [Chip.voidPass]

@[simp] theorem Chip.enterWeigh_frame (c : Chip) :
    (Chip.enterWeigh c).pins = c.pins ∧ (Chip.enterWeigh c).sup = c.sup ∧ (Chip.enterWeigh c).tick = c.tick
    ∧ (Chip.enterWeigh c).link.station = c.link.station ∧ (Chip.enterWeigh c).link.rateFast = c.link.rateFast
    ∧ (Chip.enterWeigh c).link.rx = c.link.rx ∧ (Chip.enterWeigh c).link.gapDone = c.link.gapDone
    ∧ (Chip.enterWeigh c).inp = c.inp ∧ (Chip.enterWeigh c).trk.voids = c.trk.voids
    ∧ (Chip.enterWeigh c).load.history = c.load.history ∧ (Chip.enterWeigh c).role.state = c.role.state
    ∧ (Chip.enterWeigh c).role.resumeRole = c.role.resumeRole
    ∧ (Chip.enterWeigh c).role.named = c.role.named ∧ (Chip.enterWeigh c).role.conflict = c.role.conflict
    ∧ (Chip.enterWeigh c).cal = c.cal ∧ (Chip.enterWeigh c).panel.settings = c.panel.settings
    ∧ (Chip.enterWeigh c).panel.page = c.panel.page ∧ (Chip.enterWeigh c).panel.keys = c.panel.keys
    ∧ (Chip.enterWeigh c).panel.decoder = c.panel.decoder ∧ (Chip.enterWeigh c).store = c.store := by
  simp only [Chip.enterWeigh]
  (repeat' split) <;> simp_all

@[simp] theorem Chip.amend_frame (r : Nat) (c : Chip) :
    (Chip.amend r c).pins = c.pins ∧ (Chip.amend r c).sup = c.sup ∧ (Chip.amend r c).tick = c.tick
    ∧ (Chip.amend r c).link.station = c.link.station ∧ (Chip.amend r c).link.rateFast = c.link.rateFast
    ∧ (Chip.amend r c).link.rx = c.link.rx ∧ (Chip.amend r c).link.gapDone = c.link.gapDone
    ∧ (Chip.amend r c).inp = c.inp ∧ (Chip.amend r c).eng = c.eng ∧ (Chip.amend r c).trk.cycle = c.trk.cycle
    ∧ (Chip.amend r c).trk.voids = c.trk.voids ∧ (Chip.amend r c).load.history = c.load.history
    ∧ (Chip.amend r c).role.state = c.role.state ∧ (Chip.amend r c).role.resumeRole = c.role.resumeRole
    ∧ (Chip.amend r c).role.named = c.role.named ∧ (Chip.amend r c).role.conflict = c.role.conflict
    ∧ (Chip.amend r c).cal = c.cal ∧ (Chip.amend r c).panel.settings = c.panel.settings
    ∧ (Chip.amend r c).panel.page = c.panel.page ∧ (Chip.amend r c).panel.keys = c.panel.keys
    ∧ (Chip.amend r c).panel.decoder = c.panel.decoder ∧ (Chip.amend r c).store = c.store := by
  unfold Chip.amend
  (repeat' split) <;> simp

@[simp] theorem Chip.judgeRemainder_frame (c : Chip) :
    (Chip.judgeRemainder c).pins = c.pins ∧ (Chip.judgeRemainder c).sup = c.sup
    ∧ (Chip.judgeRemainder c).tick = c.tick ∧ (Chip.judgeRemainder c).link.station = c.link.station
    ∧ (Chip.judgeRemainder c).link.rateFast = c.link.rateFast ∧ (Chip.judgeRemainder c).link.rx = c.link.rx
    ∧ (Chip.judgeRemainder c).link.gapDone = c.link.gapDone ∧ (Chip.judgeRemainder c).inp = c.inp
    ∧ (Chip.judgeRemainder c).eng = c.eng ∧ (Chip.judgeRemainder c).trk.cycle = c.trk.cycle
    ∧ (Chip.judgeRemainder c).trk.voids = c.trk.voids ∧ (Chip.judgeRemainder c).load.history = c.load.history
    ∧ (Chip.judgeRemainder c).role.state = c.role.state
    ∧ (Chip.judgeRemainder c).role.resumeRole = c.role.resumeRole
    ∧ (Chip.judgeRemainder c).role.named = c.role.named
    ∧ (Chip.judgeRemainder c).role.conflict = c.role.conflict ∧ (Chip.judgeRemainder c).cal = c.cal
    ∧ (Chip.judgeRemainder c).panel.settings = c.panel.settings
    ∧ (Chip.judgeRemainder c).panel.page = c.panel.page ∧ (Chip.judgeRemainder c).panel.keys = c.panel.keys
    ∧ (Chip.judgeRemainder c).panel.decoder = c.panel.decoder ∧ (Chip.judgeRemainder c).store = c.store := by
  unfold Chip.judgeRemainder
  (repeat' split) <;> simp

@[simp] theorem Chip.enterCarry_frame (c : Chip) :
    (Chip.enterCarry c).pins = c.pins ∧ (Chip.enterCarry c).sup = c.sup ∧ (Chip.enterCarry c).tick = c.tick
    ∧ (Chip.enterCarry c).link.station = c.link.station ∧ (Chip.enterCarry c).link.rateFast = c.link.rateFast
    ∧ (Chip.enterCarry c).link.rx = c.link.rx ∧ (Chip.enterCarry c).link.gapDone = c.link.gapDone
    ∧ (Chip.enterCarry c).inp = c.inp ∧ (Chip.enterCarry c).load.history = c.load.history
    ∧ (Chip.enterCarry c).role.state = c.role.state ∧ (Chip.enterCarry c).role.resumeRole = c.role.resumeRole
    ∧ (Chip.enterCarry c).role.named = c.role.named ∧ (Chip.enterCarry c).role.conflict = c.role.conflict
    ∧ (Chip.enterCarry c).cal = c.cal ∧ (Chip.enterCarry c).panel.settings = c.panel.settings
    ∧ (Chip.enterCarry c).panel.page = c.panel.page ∧ (Chip.enterCarry c).panel.keys = c.panel.keys
    ∧ (Chip.enterCarry c).panel.decoder = c.panel.decoder ∧ (Chip.enterCarry c).store = c.store := by
  simp only [Chip.enterCarry]
  (repeat' split) <;> simp_all

@[simp] theorem Chip.closeWindow_frame (c : Chip) :
    (Chip.closeWindow c).pins = c.pins ∧ (Chip.closeWindow c).sup = c.sup ∧ (Chip.closeWindow c).tick = c.tick
    ∧ (Chip.closeWindow c).link.station = c.link.station ∧ (Chip.closeWindow c).link.rateFast = c.link.rateFast
    ∧ (Chip.closeWindow c).link.rx = c.link.rx ∧ (Chip.closeWindow c).link.gapDone = c.link.gapDone
    ∧ (Chip.closeWindow c).inp = c.inp ∧ (Chip.closeWindow c).load.history = c.load.history
    ∧ (Chip.closeWindow c).role.state = c.role.state ∧ (Chip.closeWindow c).role.resumeRole = c.role.resumeRole
    ∧ (Chip.closeWindow c).role.named = c.role.named ∧ (Chip.closeWindow c).role.conflict = c.role.conflict
    ∧ (Chip.closeWindow c).cal = c.cal ∧ (Chip.closeWindow c).panel.settings = c.panel.settings
    ∧ (Chip.closeWindow c).panel.page = c.panel.page ∧ (Chip.closeWindow c).panel.keys = c.panel.keys
    ∧ (Chip.closeWindow c).panel.decoder = c.panel.decoder ∧ (Chip.closeWindow c).store = c.store := by
  simp [Chip.closeWindow]

@[simp] theorem Chip.carryUnweighed_frame (c : Chip) :
    (Chip.carryUnweighed c).pins = c.pins ∧ (Chip.carryUnweighed c).sup = c.sup
    ∧ (Chip.carryUnweighed c).tick = c.tick ∧ (Chip.carryUnweighed c).link.station = c.link.station
    ∧ (Chip.carryUnweighed c).link.rateFast = c.link.rateFast ∧ (Chip.carryUnweighed c).link.rx = c.link.rx
    ∧ (Chip.carryUnweighed c).link.gapDone = c.link.gapDone ∧ (Chip.carryUnweighed c).inp = c.inp
    ∧ (Chip.carryUnweighed c).load.history = c.load.history ∧ (Chip.carryUnweighed c).role.state = c.role.state
    ∧ (Chip.carryUnweighed c).role.resumeRole = c.role.resumeRole ∧ (Chip.carryUnweighed c).role.named = c.role.named
    ∧ (Chip.carryUnweighed c).role.conflict = c.role.conflict ∧ (Chip.carryUnweighed c).cal = c.cal
    ∧ (Chip.carryUnweighed c).panel.settings = c.panel.settings ∧ (Chip.carryUnweighed c).panel.page = c.panel.page
    ∧ (Chip.carryUnweighed c).panel.keys = c.panel.keys ∧ (Chip.carryUnweighed c).panel.decoder = c.panel.decoder
    ∧ (Chip.carryUnweighed c).store = c.store := by
  simp [Chip.carryUnweighed]

@[simp] theorem Chip.abandonWindow_frame (c : Chip) :
    (Chip.abandonWindow c).pins = c.pins ∧ (Chip.abandonWindow c).sup = c.sup ∧ (Chip.abandonWindow c).tick = c.tick
    ∧ (Chip.abandonWindow c).link.station = c.link.station ∧ (Chip.abandonWindow c).link.rateFast = c.link.rateFast
    ∧ (Chip.abandonWindow c).link.rx = c.link.rx ∧ (Chip.abandonWindow c).link.gapDone = c.link.gapDone
    ∧ (Chip.abandonWindow c).inp = c.inp ∧ (Chip.abandonWindow c).trk.voids = c.trk.voids
    ∧ (Chip.abandonWindow c).load.history = c.load.history ∧ (Chip.abandonWindow c).role.state = c.role.state
    ∧ (Chip.abandonWindow c).role.resumeRole = c.role.resumeRole ∧ (Chip.abandonWindow c).role.named = c.role.named
    ∧ (Chip.abandonWindow c).role.conflict = c.role.conflict ∧ (Chip.abandonWindow c).cal = c.cal
    ∧ (Chip.abandonWindow c).panel.settings = c.panel.settings ∧ (Chip.abandonWindow c).panel.page = c.panel.page
    ∧ (Chip.abandonWindow c).panel.keys = c.panel.keys ∧ (Chip.abandonWindow c).panel.decoder = c.panel.decoder
    ∧ (Chip.abandonWindow c).store = c.store := by
  simp [Chip.abandonWindow]

@[simp] theorem Chip.openAndCross_frame (prev : Option Int) (theta : Int) (c : Chip) :
    (Chip.openAndCross prev theta c).pins = c.pins ∧ (Chip.openAndCross prev theta c).sup = c.sup
    ∧ (Chip.openAndCross prev theta c).tick = c.tick
    ∧ (Chip.openAndCross prev theta c).link.station = c.link.station
    ∧ (Chip.openAndCross prev theta c).link.rateFast = c.link.rateFast
    ∧ (Chip.openAndCross prev theta c).link.rx = c.link.rx
    ∧ (Chip.openAndCross prev theta c).link.gapDone = c.link.gapDone ∧ (Chip.openAndCross prev theta c).inp = c.inp
    ∧ (Chip.openAndCross prev theta c).load.history = c.load.history
    ∧ (Chip.openAndCross prev theta c).role.state = c.role.state
    ∧ (Chip.openAndCross prev theta c).role.resumeRole = c.role.resumeRole
    ∧ (Chip.openAndCross prev theta c).role.named = c.role.named
    ∧ (Chip.openAndCross prev theta c).role.conflict = c.role.conflict
    ∧ (Chip.openAndCross prev theta c).cal = c.cal
    ∧ (Chip.openAndCross prev theta c).panel.settings = c.panel.settings
    ∧ (Chip.openAndCross prev theta c).panel.page = c.panel.page
    ∧ (Chip.openAndCross prev theta c).panel.keys = c.panel.keys
    ∧ (Chip.openAndCross prev theta c).panel.decoder = c.panel.decoder
    ∧ (Chip.openAndCross prev theta c).store = c.store := by
  simp only [Chip.openAndCross]
  (repeat' split) <;> simp_all

@[simp] theorem Chip.angleInLift_frame (prev : Option Int) (theta : Int) (c : Chip) :
    (Chip.angleInLift prev theta c).pins = c.pins ∧ (Chip.angleInLift prev theta c).sup = c.sup
    ∧ (Chip.angleInLift prev theta c).tick = c.tick ∧ (Chip.angleInLift prev theta c).link.station = c.link.station
    ∧ (Chip.angleInLift prev theta c).link.rateFast = c.link.rateFast
    ∧ (Chip.angleInLift prev theta c).link.rx = c.link.rx
    ∧ (Chip.angleInLift prev theta c).link.gapDone = c.link.gapDone ∧ (Chip.angleInLift prev theta c).inp = c.inp
    ∧ (Chip.angleInLift prev theta c).load.history = c.load.history
    ∧ (Chip.angleInLift prev theta c).role.state = c.role.state
    ∧ (Chip.angleInLift prev theta c).role.resumeRole = c.role.resumeRole
    ∧ (Chip.angleInLift prev theta c).role.named = c.role.named
    ∧ (Chip.angleInLift prev theta c).role.conflict = c.role.conflict ∧ (Chip.angleInLift prev theta c).cal = c.cal
    ∧ (Chip.angleInLift prev theta c).panel.settings = c.panel.settings
    ∧ (Chip.angleInLift prev theta c).panel.page = c.panel.page
    ∧ (Chip.angleInLift prev theta c).panel.keys = c.panel.keys
    ∧ (Chip.angleInLift prev theta c).panel.decoder = c.panel.decoder
    ∧ (Chip.angleInLift prev theta c).store = c.store := by
  simp only [Chip.angleInLift]
  (repeat' split) <;> simp_all

@[simp] theorem Chip.angleInReturn_frame (prev : Option Int) (theta : Int) (c : Chip) :
    (Chip.angleInReturn prev theta c).pins = c.pins ∧ (Chip.angleInReturn prev theta c).sup = c.sup
    ∧ (Chip.angleInReturn prev theta c).tick = c.tick
    ∧ (Chip.angleInReturn prev theta c).link.station = c.link.station
    ∧ (Chip.angleInReturn prev theta c).link.rateFast = c.link.rateFast
    ∧ (Chip.angleInReturn prev theta c).link.rx = c.link.rx
    ∧ (Chip.angleInReturn prev theta c).link.gapDone = c.link.gapDone
    ∧ (Chip.angleInReturn prev theta c).inp = c.inp
    ∧ (Chip.angleInReturn prev theta c).load.history = c.load.history
    ∧ (Chip.angleInReturn prev theta c).role.state = c.role.state
    ∧ (Chip.angleInReturn prev theta c).role.resumeRole = c.role.resumeRole
    ∧ (Chip.angleInReturn prev theta c).role.named = c.role.named
    ∧ (Chip.angleInReturn prev theta c).role.conflict = c.role.conflict
    ∧ (Chip.angleInReturn prev theta c).cal = c.cal
    ∧ (Chip.angleInReturn prev theta c).panel.settings = c.panel.settings
    ∧ (Chip.angleInReturn prev theta c).panel.page = c.panel.page
    ∧ (Chip.angleInReturn prev theta c).panel.keys = c.panel.keys
    ∧ (Chip.angleInReturn prev theta c).panel.decoder = c.panel.decoder
    ∧ (Chip.angleInReturn prev theta c).store = c.store := by
  unfold Chip.angleInReturn
  (repeat' split) <;> simp

@[simp] theorem Chip.angleInWeigh_frame (prev : Option Int) (theta : Int) (c : Chip) :
    (Chip.angleInWeigh prev theta c).pins = c.pins ∧ (Chip.angleInWeigh prev theta c).sup = c.sup
    ∧ (Chip.angleInWeigh prev theta c).tick = c.tick
    ∧ (Chip.angleInWeigh prev theta c).link.station = c.link.station
    ∧ (Chip.angleInWeigh prev theta c).link.rateFast = c.link.rateFast
    ∧ (Chip.angleInWeigh prev theta c).link.rx = c.link.rx
    ∧ (Chip.angleInWeigh prev theta c).link.gapDone = c.link.gapDone ∧ (Chip.angleInWeigh prev theta c).inp = c.inp
    ∧ (Chip.angleInWeigh prev theta c).load.history = c.load.history
    ∧ (Chip.angleInWeigh prev theta c).role.state = c.role.state
    ∧ (Chip.angleInWeigh prev theta c).role.resumeRole = c.role.resumeRole
    ∧ (Chip.angleInWeigh prev theta c).role.named = c.role.named
    ∧ (Chip.angleInWeigh prev theta c).role.conflict = c.role.conflict
    ∧ (Chip.angleInWeigh prev theta c).cal = c.cal
    ∧ (Chip.angleInWeigh prev theta c).panel.settings = c.panel.settings
    ∧ (Chip.angleInWeigh prev theta c).panel.page = c.panel.page
    ∧ (Chip.angleInWeigh prev theta c).panel.keys = c.panel.keys
    ∧ (Chip.angleInWeigh prev theta c).panel.decoder = c.panel.decoder
    ∧ (Chip.angleInWeigh prev theta c).store = c.store := by
  simp only [Chip.angleInWeigh]
  (repeat' split) <;> simp_all

@[simp] theorem Chip.angleTransition_frame (prev : Option Int) (theta : Int) (c : Chip) :
    (Chip.angleTransition prev theta c).pins = c.pins ∧ (Chip.angleTransition prev theta c).sup = c.sup
    ∧ (Chip.angleTransition prev theta c).tick = c.tick
    ∧ (Chip.angleTransition prev theta c).link.station = c.link.station
    ∧ (Chip.angleTransition prev theta c).link.rateFast = c.link.rateFast
    ∧ (Chip.angleTransition prev theta c).link.rx = c.link.rx
    ∧ (Chip.angleTransition prev theta c).link.gapDone = c.link.gapDone
    ∧ (Chip.angleTransition prev theta c).inp = c.inp
    ∧ (Chip.angleTransition prev theta c).load.history = c.load.history
    ∧ (Chip.angleTransition prev theta c).role.state = c.role.state
    ∧ (Chip.angleTransition prev theta c).role.resumeRole = c.role.resumeRole
    ∧ (Chip.angleTransition prev theta c).role.named = c.role.named
    ∧ (Chip.angleTransition prev theta c).role.conflict = c.role.conflict
    ∧ (Chip.angleTransition prev theta c).cal = c.cal
    ∧ (Chip.angleTransition prev theta c).panel.settings = c.panel.settings
    ∧ (Chip.angleTransition prev theta c).panel.page = c.panel.page
    ∧ (Chip.angleTransition prev theta c).panel.keys = c.panel.keys
    ∧ (Chip.angleTransition prev theta c).panel.decoder = c.panel.decoder
    ∧ (Chip.angleTransition prev theta c).store = c.store := by
  unfold Chip.angleTransition
  (repeat' split) <;> simp

@[simp] theorem Chip.syncLoss_frame (c : Chip) :
    (Chip.syncLoss c).pins = c.pins ∧ (Chip.syncLoss c).sup = c.sup ∧ (Chip.syncLoss c).tick = c.tick
    ∧ (Chip.syncLoss c).link = c.link ∧ (Chip.syncLoss c).inp = c.inp ∧ (Chip.syncLoss c).eng = c.eng
    ∧ (Chip.syncLoss c).trk.cycle = c.trk.cycle ∧ (Chip.syncLoss c).trk.voids = c.trk.voids
    ∧ (Chip.syncLoss c).trk.ctx = c.trk.ctx ∧ (Chip.syncLoss c).load = c.load ∧ (Chip.syncLoss c).role = c.role
    ∧ (Chip.syncLoss c).cal = c.cal ∧ (Chip.syncLoss c).alarm = c.alarm ∧ (Chip.syncLoss c).panel = c.panel
    ∧ (Chip.syncLoss c).store = c.store := by
  simp [Chip.syncLoss]

@[simp] theorem Chip.inputLossExpiry_frame (side : LossSide) (c : Chip) :
    (Chip.inputLossExpiry side c).pins = c.pins ∧ (Chip.inputLossExpiry side c).sup = c.sup
    ∧ (Chip.inputLossExpiry side c).tick = c.tick ∧ (Chip.inputLossExpiry side c).link.station = c.link.station
    ∧ (Chip.inputLossExpiry side c).link.rateFast = c.link.rateFast
    ∧ (Chip.inputLossExpiry side c).link.rx = c.link.rx
    ∧ (Chip.inputLossExpiry side c).link.gapDone = c.link.gapDone ∧ (Chip.inputLossExpiry side c).inp = c.inp
    ∧ (Chip.inputLossExpiry side c).load.history = c.load.history
    ∧ (Chip.inputLossExpiry side c).role.state = c.role.state
    ∧ (Chip.inputLossExpiry side c).role.resumeRole = c.role.resumeRole
    ∧ (Chip.inputLossExpiry side c).role.named = c.role.named
    ∧ (Chip.inputLossExpiry side c).role.conflict = c.role.conflict ∧ (Chip.inputLossExpiry side c).cal = c.cal
    ∧ (Chip.inputLossExpiry side c).panel.settings = c.panel.settings
    ∧ (Chip.inputLossExpiry side c).panel.page = c.panel.page
    ∧ (Chip.inputLossExpiry side c).panel.keys = c.panel.keys
    ∧ (Chip.inputLossExpiry side c).panel.decoder = c.panel.decoder
    ∧ (Chip.inputLossExpiry side c).store = c.store := by
  simp only [Chip.inputLossExpiry]
  (repeat' split) <;> simp_all

@[simp] theorem Chip.trackAngle_frame (status : ArrStatus) (c : Chip) :
    (Chip.trackAngle status c).pins = c.pins ∧ (Chip.trackAngle status c).sup = c.sup
    ∧ (Chip.trackAngle status c).tick = c.tick ∧ (Chip.trackAngle status c).link.station = c.link.station
    ∧ (Chip.trackAngle status c).link.rateFast = c.link.rateFast ∧ (Chip.trackAngle status c).link.rx = c.link.rx
    ∧ (Chip.trackAngle status c).link.gapDone = c.link.gapDone ∧ (Chip.trackAngle status c).inp = c.inp
    ∧ (Chip.trackAngle status c).load.history = c.load.history
    ∧ (Chip.trackAngle status c).role.state = c.role.state
    ∧ (Chip.trackAngle status c).role.resumeRole = c.role.resumeRole
    ∧ (Chip.trackAngle status c).role.named = c.role.named
    ∧ (Chip.trackAngle status c).role.conflict = c.role.conflict ∧ (Chip.trackAngle status c).cal = c.cal
    ∧ (Chip.trackAngle status c).panel.settings = c.panel.settings
    ∧ (Chip.trackAngle status c).panel.page = c.panel.page ∧ (Chip.trackAngle status c).panel.keys = c.panel.keys
    ∧ (Chip.trackAngle status c).panel.decoder = c.panel.decoder ∧ (Chip.trackAngle status c).store = c.store := by
  simp only [Chip.trackAngle]
  (repeat' split) <;> simp_all

@[simp] theorem Chip.trackPressure_frame (status : ArrStatus) (c : Chip) :
    (Chip.trackPressure status c).pins = c.pins ∧ (Chip.trackPressure status c).sup = c.sup
    ∧ (Chip.trackPressure status c).tick = c.tick ∧ (Chip.trackPressure status c).link.station = c.link.station
    ∧ (Chip.trackPressure status c).link.rateFast = c.link.rateFast
    ∧ (Chip.trackPressure status c).link.rx = c.link.rx
    ∧ (Chip.trackPressure status c).link.gapDone = c.link.gapDone ∧ (Chip.trackPressure status c).inp = c.inp
    ∧ (Chip.trackPressure status c).eng = c.eng ∧ (Chip.trackPressure status c).trk.voids = c.trk.voids
    ∧ (Chip.trackPressure status c).load.history = c.load.history
    ∧ (Chip.trackPressure status c).role.state = c.role.state
    ∧ (Chip.trackPressure status c).role.resumeRole = c.role.resumeRole
    ∧ (Chip.trackPressure status c).role.named = c.role.named
    ∧ (Chip.trackPressure status c).role.conflict = c.role.conflict ∧ (Chip.trackPressure status c).cal = c.cal
    ∧ (Chip.trackPressure status c).panel.settings = c.panel.settings
    ∧ (Chip.trackPressure status c).panel.page = c.panel.page
    ∧ (Chip.trackPressure status c).panel.keys = c.panel.keys
    ∧ (Chip.trackPressure status c).panel.decoder = c.panel.decoder
    ∧ (Chip.trackPressure status c).store = c.store := by
  unfold Chip.trackPressure
  (repeat' split) <;> simp

@[simp] theorem Chip.trackTilt_frame (status : ArrStatus) (c : Chip) :
    (Chip.trackTilt status c).pins = c.pins ∧ (Chip.trackTilt status c).sup = c.sup
    ∧ (Chip.trackTilt status c).tick = c.tick ∧ (Chip.trackTilt status c).link.station = c.link.station
    ∧ (Chip.trackTilt status c).link.rateFast = c.link.rateFast ∧ (Chip.trackTilt status c).link.rx = c.link.rx
    ∧ (Chip.trackTilt status c).link.gapDone = c.link.gapDone ∧ (Chip.trackTilt status c).inp = c.inp
    ∧ (Chip.trackTilt status c).trk.voids = c.trk.voids ∧ (Chip.trackTilt status c).load.history = c.load.history
    ∧ (Chip.trackTilt status c).role.state = c.role.state
    ∧ (Chip.trackTilt status c).role.resumeRole = c.role.resumeRole
    ∧ (Chip.trackTilt status c).role.named = c.role.named
    ∧ (Chip.trackTilt status c).role.conflict = c.role.conflict ∧ (Chip.trackTilt status c).cal = c.cal
    ∧ (Chip.trackTilt status c).panel.settings = c.panel.settings
    ∧ (Chip.trackTilt status c).panel.page = c.panel.page ∧ (Chip.trackTilt status c).panel.keys = c.panel.keys
    ∧ (Chip.trackTilt status c).panel.decoder = c.panel.decoder ∧ (Chip.trackTilt status c).store = c.store := by
  unfold Chip.trackTilt
  (repeat' split) <;> simp

@[simp] theorem Chip.fillEmptyExpiry_frame (c : Chip) :
    (Chip.fillEmptyExpiry c).pins = c.pins ∧ (Chip.fillEmptyExpiry c).sup = c.sup
    ∧ (Chip.fillEmptyExpiry c).tick = c.tick ∧ (Chip.fillEmptyExpiry c).link.station = c.link.station
    ∧ (Chip.fillEmptyExpiry c).link.rateFast = c.link.rateFast ∧ (Chip.fillEmptyExpiry c).link.rx = c.link.rx
    ∧ (Chip.fillEmptyExpiry c).link.gapDone = c.link.gapDone ∧ (Chip.fillEmptyExpiry c).inp = c.inp
    ∧ (Chip.fillEmptyExpiry c).eng = c.eng ∧ (Chip.fillEmptyExpiry c).trk.voids = c.trk.voids
    ∧ (Chip.fillEmptyExpiry c).load.history = c.load.history ∧ (Chip.fillEmptyExpiry c).role.state = c.role.state
    ∧ (Chip.fillEmptyExpiry c).role.resumeRole = c.role.resumeRole ∧ (Chip.fillEmptyExpiry c).role.named = c.role.named
    ∧ (Chip.fillEmptyExpiry c).role.conflict = c.role.conflict ∧ (Chip.fillEmptyExpiry c).cal = c.cal
    ∧ (Chip.fillEmptyExpiry c).panel.settings = c.panel.settings
    ∧ (Chip.fillEmptyExpiry c).panel.page = c.panel.page ∧ (Chip.fillEmptyExpiry c).panel.keys = c.panel.keys
    ∧ (Chip.fillEmptyExpiry c).panel.decoder = c.panel.decoder ∧ (Chip.fillEmptyExpiry c).store = c.store := by
  unfold Chip.fillEmptyExpiry
  (repeat' split) <;> simp

@[simp] theorem Chip.carryExpiry_frame (c : Chip) :
    (Chip.carryExpiry c).pins = c.pins ∧ (Chip.carryExpiry c).sup = c.sup ∧ (Chip.carryExpiry c).tick = c.tick
    ∧ (Chip.carryExpiry c).link.station = c.link.station ∧ (Chip.carryExpiry c).link.rateFast = c.link.rateFast
    ∧ (Chip.carryExpiry c).link.rx = c.link.rx ∧ (Chip.carryExpiry c).link.gapDone = c.link.gapDone
    ∧ (Chip.carryExpiry c).inp = c.inp ∧ (Chip.carryExpiry c).load.history = c.load.history
    ∧ (Chip.carryExpiry c).role.state = c.role.state ∧ (Chip.carryExpiry c).role.resumeRole = c.role.resumeRole
    ∧ (Chip.carryExpiry c).role.named = c.role.named ∧ (Chip.carryExpiry c).role.conflict = c.role.conflict
    ∧ (Chip.carryExpiry c).cal = c.cal ∧ (Chip.carryExpiry c).panel.settings = c.panel.settings
    ∧ (Chip.carryExpiry c).panel.page = c.panel.page ∧ (Chip.carryExpiry c).panel.keys = c.panel.keys
    ∧ (Chip.carryExpiry c).panel.decoder = c.panel.decoder ∧ (Chip.carryExpiry c).store = c.store := by
  unfold Chip.carryExpiry
  (repeat' split) <;> simp

@[simp] theorem Chip.suspendPass_frame (c : Chip) :
    (Chip.suspendPass c).pins = c.pins ∧ (Chip.suspendPass c).sup = c.sup ∧ (Chip.suspendPass c).tick = c.tick
    ∧ (Chip.suspendPass c).link = c.link ∧ (Chip.suspendPass c).inp = c.inp ∧ (Chip.suspendPass c).load = c.load
    ∧ (Chip.suspendPass c).role = c.role ∧ (Chip.suspendPass c).cal = c.cal ∧ (Chip.suspendPass c).alarm = c.alarm
    ∧ (Chip.suspendPass c).panel = c.panel ∧ (Chip.suspendPass c).store = c.store := by
  unfold Chip.suspendPass
  (repeat' split) <;> simp

@[simp] theorem Chip.suspendPower_frame (c : Chip) :
    (Chip.suspendPower c).pins = c.pins ∧ (Chip.suspendPower c).sup = c.sup ∧ (Chip.suspendPower c).tick = c.tick
    ∧ (Chip.suspendPower c).link = c.link ∧ (Chip.suspendPower c).inp = c.inp ∧ (Chip.suspendPower c).load = c.load
    ∧ (Chip.suspendPower c).role = c.role ∧ (Chip.suspendPower c).cal = c.cal
    ∧ (Chip.suspendPower c).alarm = c.alarm ∧ (Chip.suspendPower c).panel = c.panel
    ∧ (Chip.suspendPower c).store = c.store := by
  simp [Chip.suspendPower]

@[simp] theorem Chip.suspendCal_frame (c : Chip) :
    (Chip.suspendCal c).pins = c.pins ∧ (Chip.suspendCal c).sup = c.sup ∧ (Chip.suspendCal c).tick = c.tick
    ∧ (Chip.suspendCal c).link = c.link ∧ (Chip.suspendCal c).inp = c.inp ∧ (Chip.suspendCal c).load = c.load
    ∧ (Chip.suspendCal c).role = c.role ∧ (Chip.suspendCal c).cal = c.cal ∧ (Chip.suspendCal c).alarm = c.alarm
    ∧ (Chip.suspendCal c).panel = c.panel ∧ (Chip.suspendCal c).store = c.store := by
  simp [Chip.suspendCal]

@[simp] theorem Chip.unsuspend_frame (c : Chip) :
    (Chip.unsuspend c).pins = c.pins ∧ (Chip.unsuspend c).sup = c.sup ∧ (Chip.unsuspend c).tick = c.tick
    ∧ (Chip.unsuspend c).link.station = c.link.station ∧ (Chip.unsuspend c).link.rateFast = c.link.rateFast
    ∧ (Chip.unsuspend c).link.rx = c.link.rx ∧ (Chip.unsuspend c).link.gapDone = c.link.gapDone
    ∧ (Chip.unsuspend c).inp = c.inp ∧ (Chip.unsuspend c).eng = c.eng ∧ (Chip.unsuspend c).trk.voids = c.trk.voids
    ∧ (Chip.unsuspend c).load.history = c.load.history ∧ (Chip.unsuspend c).role.state = c.role.state
    ∧ (Chip.unsuspend c).role.resumeRole = c.role.resumeRole
    ∧ (Chip.unsuspend c).role.named = c.role.named ∧ (Chip.unsuspend c).role.conflict = c.role.conflict
    ∧ (Chip.unsuspend c).cal = c.cal ∧ (Chip.unsuspend c).panel.settings = c.panel.settings
    ∧ (Chip.unsuspend c).panel.page = c.panel.page ∧ (Chip.unsuspend c).panel.keys = c.panel.keys
    ∧ (Chip.unsuspend c).panel.decoder = c.panel.decoder ∧ (Chip.unsuspend c).store = c.store := by
  unfold Chip.unsuspend
  (repeat' split) <;> simp

@[simp] theorem Chip.removeCal_frame (c : Chip) :
    (Chip.removeCal c).pins = c.pins ∧ (Chip.removeCal c).sup = c.sup ∧ (Chip.removeCal c).tick = c.tick
    ∧ (Chip.removeCal c).link.station = c.link.station ∧ (Chip.removeCal c).link.rateFast = c.link.rateFast
    ∧ (Chip.removeCal c).link.rx = c.link.rx ∧ (Chip.removeCal c).link.gapDone = c.link.gapDone
    ∧ (Chip.removeCal c).inp = c.inp ∧ (Chip.removeCal c).eng = c.eng ∧ (Chip.removeCal c).trk.voids = c.trk.voids
    ∧ (Chip.removeCal c).load.history = c.load.history ∧ (Chip.removeCal c).role.state = c.role.state
    ∧ (Chip.removeCal c).role.resumeRole = c.role.resumeRole
    ∧ (Chip.removeCal c).role.named = c.role.named ∧ (Chip.removeCal c).role.conflict = c.role.conflict
    ∧ (Chip.removeCal c).cal = c.cal ∧ (Chip.removeCal c).panel.settings = c.panel.settings
    ∧ (Chip.removeCal c).panel.page = c.panel.page ∧ (Chip.removeCal c).panel.keys = c.panel.keys
    ∧ (Chip.removeCal c).panel.decoder = c.panel.decoder ∧ (Chip.removeCal c).store = c.store := by
  simp [Chip.removeCal]

@[simp] theorem Chip.resumeTracker_frame (c : Chip) :
    (Chip.resumeTracker c).pins = c.pins ∧ (Chip.resumeTracker c).sup = c.sup
    ∧ (Chip.resumeTracker c).tick = c.tick ∧ (Chip.resumeTracker c).link.station = c.link.station
    ∧ (Chip.resumeTracker c).link.rateFast = c.link.rateFast ∧ (Chip.resumeTracker c).link.rx = c.link.rx
    ∧ (Chip.resumeTracker c).link.gapDone = c.link.gapDone ∧ (Chip.resumeTracker c).inp = c.inp
    ∧ (Chip.resumeTracker c).eng = c.eng ∧ (Chip.resumeTracker c).trk.voids = c.trk.voids
    ∧ (Chip.resumeTracker c).load.history = c.load.history ∧ (Chip.resumeTracker c).role.state = c.role.state
    ∧ (Chip.resumeTracker c).role.resumeRole = c.role.resumeRole
    ∧ (Chip.resumeTracker c).role.named = c.role.named ∧ (Chip.resumeTracker c).role.conflict = c.role.conflict
    ∧ (Chip.resumeTracker c).cal = c.cal ∧ (Chip.resumeTracker c).panel.settings = c.panel.settings
    ∧ (Chip.resumeTracker c).panel.page = c.panel.page ∧ (Chip.resumeTracker c).panel.keys = c.panel.keys
    ∧ (Chip.resumeTracker c).panel.decoder = c.panel.decoder ∧ (Chip.resumeTracker c).store = c.store := by
  simp [Chip.resumeTracker]

@[simp] theorem Chip.restartTracker_frame (c : Chip) :
    (Chip.restartTracker c).pins = c.pins ∧ (Chip.restartTracker c).sup = c.sup
    ∧ (Chip.restartTracker c).tick = c.tick ∧ (Chip.restartTracker c).link = c.link
    ∧ (Chip.restartTracker c).inp = c.inp ∧ (Chip.restartTracker c).load = c.load
    ∧ (Chip.restartTracker c).role = c.role ∧ (Chip.restartTracker c).cal = c.cal
    ∧ (Chip.restartTracker c).alarm = c.alarm ∧ (Chip.restartTracker c).panel = c.panel
    ∧ (Chip.restartTracker c).store = c.store := by
  simp only [Chip.restartTracker]
  (repeat' split) <;> simp_all

/-! ## Calib -/

@[simp] theorem Chip.enterCal_frame (c : Chip) :
    (Chip.enterCal c).pins = c.pins ∧ (Chip.enterCal c).sup = c.sup ∧ (Chip.enterCal c).tick = c.tick
    ∧ (Chip.enterCal c).link.station = c.link.station ∧ (Chip.enterCal c).link.rateFast = c.link.rateFast
    ∧ (Chip.enterCal c).link.rx = c.link.rx ∧ (Chip.enterCal c).link.gapDone = c.link.gapDone
    ∧ (Chip.enterCal c).inp = c.inp ∧ (Chip.enterCal c).load.record = c.load.record
    ∧ (Chip.enterCal c).load.shift = c.load.shift ∧ (Chip.enterCal c).load.life = c.load.life
    ∧ (Chip.enterCal c).load.history = c.load.history ∧ (Chip.enterCal c).role.resumeRole = c.role.resumeRole
    ∧ (Chip.enterCal c).role.mirrored = c.role.mirrored ∧ (Chip.enterCal c).role.named = c.role.named
    ∧ (Chip.enterCal c).role.conflict = c.role.conflict ∧ (Chip.enterCal c).alarm = c.alarm
    ∧ (Chip.enterCal c).panel.settings = c.panel.settings ∧ (Chip.enterCal c).panel.keys = c.panel.keys
    ∧ (Chip.enterCal c).panel.decoder = c.panel.decoder ∧ (Chip.enterCal c).store = c.store := by
  simp [Chip.enterCal]

@[simp] theorem Chip.showBusy_frame (c : Chip) :
    (Chip.showBusy c).pins = c.pins ∧ (Chip.showBusy c).sup = c.sup ∧ (Chip.showBusy c).tick = c.tick
    ∧ (Chip.showBusy c).link = c.link ∧ (Chip.showBusy c).inp = c.inp ∧ (Chip.showBusy c).eng = c.eng
    ∧ (Chip.showBusy c).trk = c.trk ∧ (Chip.showBusy c).load = c.load ∧ (Chip.showBusy c).role = c.role
    ∧ (Chip.showBusy c).cal = c.cal ∧ (Chip.showBusy c).alarm = c.alarm
    ∧ (Chip.showBusy c).panel.settings = c.panel.settings ∧ (Chip.showBusy c).panel.page = c.panel.page
    ∧ (Chip.showBusy c).panel.keys = c.panel.keys ∧ (Chip.showBusy c).panel.decoder = c.panel.decoder
    ∧ (Chip.showBusy c).store = c.store := by
  simp [Chip.showBusy]

@[simp] theorem Chip.requestCal_frame (c : Chip) :
    (Chip.requestCal c).pins = c.pins ∧ (Chip.requestCal c).sup = c.sup ∧ (Chip.requestCal c).tick = c.tick
    ∧ (Chip.requestCal c).link.station = c.link.station ∧ (Chip.requestCal c).link.rateFast = c.link.rateFast
    ∧ (Chip.requestCal c).link.rx = c.link.rx ∧ (Chip.requestCal c).link.gapDone = c.link.gapDone
    ∧ (Chip.requestCal c).inp = c.inp ∧ (Chip.requestCal c).load.record = c.load.record
    ∧ (Chip.requestCal c).load.shift = c.load.shift ∧ (Chip.requestCal c).load.life = c.load.life
    ∧ (Chip.requestCal c).load.history = c.load.history ∧ (Chip.requestCal c).role.resumeRole = c.role.resumeRole
    ∧ (Chip.requestCal c).role.mirrored = c.role.mirrored ∧ (Chip.requestCal c).role.named = c.role.named
    ∧ (Chip.requestCal c).role.conflict = c.role.conflict ∧ (Chip.requestCal c).alarm = c.alarm
    ∧ (Chip.requestCal c).panel.settings = c.panel.settings ∧ (Chip.requestCal c).panel.keys = c.panel.keys
    ∧ (Chip.requestCal c).panel.decoder = c.panel.decoder ∧ (Chip.requestCal c).store = c.store := by
  unfold Chip.requestCal
  (repeat' split) <;> simp

@[simp] theorem Chip.leaveCal_frame (c : Chip) :
    (Chip.leaveCal c).pins = c.pins ∧ (Chip.leaveCal c).sup = c.sup ∧ (Chip.leaveCal c).tick = c.tick
    ∧ (Chip.leaveCal c).inp = c.inp ∧ (Chip.leaveCal c).eng = c.eng ∧ (Chip.leaveCal c).trk.voids = c.trk.voids
    ∧ (Chip.leaveCal c).load.history = c.load.history
    ∧ (Chip.leaveCal c).role.conflict = c.role.conflict ∧ (Chip.leaveCal c).panel.settings = c.panel.settings
    ∧ (Chip.leaveCal c).panel.keys = c.panel.keys ∧ (Chip.leaveCal c).panel.decoder = c.panel.decoder
    ∧ (Chip.leaveCal c).store = c.store := by
  simp only [Chip.leaveCal]
  (repeat' split) <;> simp_all

@[simp] theorem Chip.requestCurve_frame (c : Chip) :
    (Chip.requestCurve c).pins = c.pins ∧ (Chip.requestCurve c).sup = c.sup ∧ (Chip.requestCurve c).tick = c.tick
    ∧ (Chip.requestCurve c).link = c.link ∧ (Chip.requestCurve c).inp = c.inp ∧ (Chip.requestCurve c).eng = c.eng
    ∧ (Chip.requestCurve c).trk = c.trk ∧ (Chip.requestCurve c).load = c.load ∧ (Chip.requestCurve c).role = c.role
    ∧ (Chip.requestCurve c).alarm = c.alarm ∧ (Chip.requestCurve c).panel = c.panel := by
  unfold Chip.requestCurve
  (repeat' split) <;> simp

@[simp] theorem Chip.curveWritten_frame (i : Fin 4) (s : CurveSet) (c : Chip) :
    (Chip.curveWritten i s c).pins = c.pins ∧ (Chip.curveWritten i s c).sup = c.sup
    ∧ (Chip.curveWritten i s c).tick = c.tick ∧ (Chip.curveWritten i s c).inp = c.inp
    ∧ (Chip.curveWritten i s c).eng = c.eng ∧ (Chip.curveWritten i s c).trk.voids = c.trk.voids
    ∧ (Chip.curveWritten i s c).load.history = c.load.history
    ∧ (Chip.curveWritten i s c).role.conflict = c.role.conflict
    ∧ (Chip.curveWritten i s c).panel.settings = c.panel.settings
    ∧ (Chip.curveWritten i s c).panel.keys = c.panel.keys
    ∧ (Chip.curveWritten i s c).panel.decoder = c.panel.decoder ∧ (Chip.curveWritten i s c).store.cfg = c.store.cfg
    ∧ (Chip.curveWritten i s c).store.window = c.store.window
    ∧ (Chip.curveWritten i s c).store.array = c.store.array := by
  simp only [Chip.curveWritten]
  (repeat' split) <;> simp_all

@[simp] theorem Chip.handCompletion_frame (w : WriteReq) (c : Chip) :
    (Chip.handCompletion w c).pins = c.pins ∧ (Chip.handCompletion w c).sup = c.sup
    ∧ (Chip.handCompletion w c).tick = c.tick ∧ (Chip.handCompletion w c).inp = c.inp
    ∧ (Chip.handCompletion w c).eng = c.eng ∧ (Chip.handCompletion w c).trk.voids = c.trk.voids
    ∧ (Chip.handCompletion w c).load.history = c.load.history
    ∧ (Chip.handCompletion w c).role.conflict = c.role.conflict
    ∧ (Chip.handCompletion w c).panel.settings = c.panel.settings
    ∧ (Chip.handCompletion w c).panel.keys = c.panel.keys
    ∧ (Chip.handCompletion w c).panel.decoder = c.panel.decoder ∧ (Chip.handCompletion w c).store.cfg = c.store.cfg
    ∧ (Chip.handCompletion w c).store.window = c.store.window
    ∧ (Chip.handCompletion w c).store.array = c.store.array := by
  unfold Chip.handCompletion
  (repeat' split) <;> simp

@[simp] theorem Chip.storeWriteComplete_frame (c : Chip) :
    (Chip.storeWriteComplete c).pins = c.pins ∧ (Chip.storeWriteComplete c).sup = c.sup
    ∧ (Chip.storeWriteComplete c).tick = c.tick ∧ (Chip.storeWriteComplete c).inp = c.inp
    ∧ (Chip.storeWriteComplete c).eng = c.eng ∧ (Chip.storeWriteComplete c).trk.voids = c.trk.voids
    ∧ (Chip.storeWriteComplete c).load.history = c.load.history
    ∧ (Chip.storeWriteComplete c).role.conflict = c.role.conflict
    ∧ (Chip.storeWriteComplete c).panel.settings = c.panel.settings
    ∧ (Chip.storeWriteComplete c).panel.keys = c.panel.keys
    ∧ (Chip.storeWriteComplete c).panel.decoder = c.panel.decoder := by
  simp only [Chip.storeWriteComplete]
  (repeat' split) <;> simp_all

@[simp] theorem Chip.calUpDown_frame (up : Bool) (c : Chip) :
    (Chip.calUpDown up c).pins = c.pins ∧ (Chip.calUpDown up c).sup = c.sup ∧ (Chip.calUpDown up c).tick = c.tick
    ∧ (Chip.calUpDown up c).link = c.link ∧ (Chip.calUpDown up c).inp = c.inp ∧ (Chip.calUpDown up c).eng = c.eng
    ∧ (Chip.calUpDown up c).trk = c.trk ∧ (Chip.calUpDown up c).load = c.load ∧ (Chip.calUpDown up c).role = c.role
    ∧ (Chip.calUpDown up c).cal.state = c.cal.state ∧ (Chip.calUpDown up c).alarm = c.alarm
    ∧ (Chip.calUpDown up c).panel = c.panel ∧ (Chip.calUpDown up c).store = c.store := by
  unfold Chip.calUpDown
  (repeat' split) <;> simp

@[simp] theorem Chip.calEnter_frame (c : Chip) :
    (Chip.calEnter c).pins = c.pins ∧ (Chip.calEnter c).sup = c.sup ∧ (Chip.calEnter c).tick = c.tick
    ∧ (Chip.calEnter c).link = c.link ∧ (Chip.calEnter c).inp = c.inp ∧ (Chip.calEnter c).eng = c.eng
    ∧ (Chip.calEnter c).trk = c.trk ∧ (Chip.calEnter c).load = c.load ∧ (Chip.calEnter c).role = c.role
    ∧ (Chip.calEnter c).alarm = c.alarm ∧ (Chip.calEnter c).panel = c.panel := by
  unfold Chip.calEnter
  (repeat' split) <;> simp

@[simp] theorem Chip.calMode_frame (c : Chip) :
    (Chip.calMode c).pins = c.pins ∧ (Chip.calMode c).sup = c.sup ∧ (Chip.calMode c).tick = c.tick
    ∧ (Chip.calMode c).inp = c.inp ∧ (Chip.calMode c).eng = c.eng ∧ (Chip.calMode c).trk.voids = c.trk.voids
    ∧ (Chip.calMode c).load.history = c.load.history
    ∧ (Chip.calMode c).role.conflict = c.role.conflict ∧ (Chip.calMode c).panel.settings = c.panel.settings
    ∧ (Chip.calMode c).panel.keys = c.panel.keys ∧ (Chip.calMode c).panel.decoder = c.panel.decoder
    ∧ (Chip.calMode c).store = c.store := by
  unfold Chip.calMode
  (repeat' split) <;> simp

@[simp] theorem Chip.calPress_frame (k : Key) (c : Chip) :
    (Chip.calPress k c).pins = c.pins ∧ (Chip.calPress k c).sup = c.sup ∧ (Chip.calPress k c).tick = c.tick
    ∧ (Chip.calPress k c).inp = c.inp ∧ (Chip.calPress k c).eng = c.eng
    ∧ (Chip.calPress k c).trk.voids = c.trk.voids ∧ (Chip.calPress k c).load.history = c.load.history
    ∧ (Chip.calPress k c).role.conflict = c.role.conflict
    ∧ (Chip.calPress k c).panel.settings = c.panel.settings ∧ (Chip.calPress k c).panel.keys = c.panel.keys
    ∧ (Chip.calPress k c).panel.decoder = c.panel.decoder := by
  unfold Chip.calPress
  (repeat' split) <;> simp

@[simp] theorem Chip.suspendCalibration_frame (c : Chip) :
    (Chip.suspendCalibration c).pins = c.pins ∧ (Chip.suspendCalibration c).sup = c.sup
    ∧ (Chip.suspendCalibration c).tick = c.tick ∧ (Chip.suspendCalibration c).inp = c.inp
    ∧ (Chip.suspendCalibration c).eng = c.eng ∧ (Chip.suspendCalibration c).trk.voids = c.trk.voids
    ∧ (Chip.suspendCalibration c).load.history = c.load.history
    ∧ (Chip.suspendCalibration c).role.conflict = c.role.conflict
    ∧ (Chip.suspendCalibration c).panel.settings = c.panel.settings
    ∧ (Chip.suspendCalibration c).panel.keys = c.panel.keys
    ∧ (Chip.suspendCalibration c).panel.decoder = c.panel.decoder ∧ (Chip.suspendCalibration c).store = c.store := by
  unfold Chip.suspendCalibration
  (repeat' split) <;> simp

/-! ## Panel -/

@[simp] theorem Chip.writeShadow_frame (c : Chip) :
    (Chip.writeShadow c).pins = c.pins ∧ (Chip.writeShadow c).sup = c.sup ∧ (Chip.writeShadow c).tick = c.tick
    ∧ (Chip.writeShadow c).link = c.link ∧ (Chip.writeShadow c).inp = c.inp ∧ (Chip.writeShadow c).eng = c.eng
    ∧ (Chip.writeShadow c).trk = c.trk ∧ (Chip.writeShadow c).load = c.load ∧ (Chip.writeShadow c).role = c.role
    ∧ (Chip.writeShadow c).cal = c.cal ∧ (Chip.writeShadow c).alarm = c.alarm
    ∧ (Chip.writeShadow c).panel.settings = c.panel.settings ∧ (Chip.writeShadow c).panel.page = c.panel.page
    ∧ (Chip.writeShadow c).panel.keys = c.panel.keys ∧ (Chip.writeShadow c).panel.decoder = c.panel.decoder
    ∧ (Chip.writeShadow c).store = c.store := by
  unfold Chip.writeShadow
  (repeat' split) <;> simp

@[simp] theorem Chip.bklPeriodStart_frame (c : Chip) :
    (Chip.bklPeriodStart c).pins = c.pins ∧ (Chip.bklPeriodStart c).sup = c.sup
    ∧ (Chip.bklPeriodStart c).tick = c.tick ∧ (Chip.bklPeriodStart c).link = c.link
    ∧ (Chip.bklPeriodStart c).inp = c.inp ∧ (Chip.bklPeriodStart c).eng = c.eng
    ∧ (Chip.bklPeriodStart c).trk = c.trk ∧ (Chip.bklPeriodStart c).load = c.load
    ∧ (Chip.bklPeriodStart c).role = c.role ∧ (Chip.bklPeriodStart c).cal = c.cal
    ∧ (Chip.bklPeriodStart c).alarm = c.alarm ∧ (Chip.bklPeriodStart c).panel.settings = c.panel.settings
    ∧ (Chip.bklPeriodStart c).panel.page = c.panel.page ∧ (Chip.bklPeriodStart c).panel.keys = c.panel.keys
    ∧ (Chip.bklPeriodStart c).panel.decoder = c.panel.decoder ∧ (Chip.bklPeriodStart c).store = c.store := by
  unfold Chip.bklPeriodStart
  (repeat' split) <;> simp

@[simp] theorem Chip.keyLineChange_frame (k : Key) (low : Bool) (c : Chip) :
    (Chip.keyLineChange k low c).sup = c.sup ∧ (Chip.keyLineChange k low c).tick = c.tick
    ∧ (Chip.keyLineChange k low c).link = c.link ∧ (Chip.keyLineChange k low c).inp = c.inp
    ∧ (Chip.keyLineChange k low c).eng = c.eng ∧ (Chip.keyLineChange k low c).trk = c.trk
    ∧ (Chip.keyLineChange k low c).load = c.load ∧ (Chip.keyLineChange k low c).role = c.role
    ∧ (Chip.keyLineChange k low c).cal = c.cal ∧ (Chip.keyLineChange k low c).alarm = c.alarm
    ∧ (Chip.keyLineChange k low c).panel.settings = c.panel.settings
    ∧ (Chip.keyLineChange k low c).panel.page = c.panel.page
    ∧ (Chip.keyLineChange k low c).panel.decoder = c.panel.decoder ∧ (Chip.keyLineChange k low c).store = c.store := by
  simp only [Chip.keyLineChange]
  (repeat' split) <;> simp_all

/-! ## Power -/

@[simp] theorem Chip.setPower_frame (p : Power) (c : Chip) :
    (Chip.setPower p c).pins = c.pins ∧ (Chip.setPower p c).sup.life = c.sup.life
    ∧ (Chip.setPower p c).sup.status = c.sup.status ∧ (Chip.setPower p c).sup.ignition = c.sup.ignition
    ∧ (Chip.setPower p c).tick = c.tick ∧ (Chip.setPower p c).link = c.link ∧ (Chip.setPower p c).inp = c.inp
    ∧ (Chip.setPower p c).eng = c.eng ∧ (Chip.setPower p c).trk = c.trk ∧ (Chip.setPower p c).load = c.load
    ∧ (Chip.setPower p c).role = c.role ∧ (Chip.setPower p c).cal = c.cal ∧ (Chip.setPower p c).alarm = c.alarm
    ∧ (Chip.setPower p c).panel = c.panel ∧ (Chip.setPower p c).store = c.store := by
  simp [Chip.setPower]

@[simp] theorem Chip.leaveRun_frame (c : Chip) :
    (Chip.leaveRun c).pins = c.pins ∧ (Chip.leaveRun c).sup.life = c.sup.life
    ∧ (Chip.leaveRun c).sup.power = c.sup.power ∧ (Chip.leaveRun c).sup.status = c.sup.status
    ∧ (Chip.leaveRun c).sup.ignition = c.sup.ignition ∧ (Chip.leaveRun c).tick = c.tick
    ∧ (Chip.leaveRun c).load.history = c.load.history
    ∧ (Chip.leaveRun c).role.conflict = c.role.conflict ∧ (Chip.leaveRun c).store = c.store := by
  simp [Chip.leaveRun]

@[simp] theorem Chip.enterHold_frame (c : Chip) :
    (Chip.enterHold c).pins = c.pins ∧ (Chip.enterHold c).sup.life = c.sup.life
    ∧ (Chip.enterHold c).sup.status = c.sup.status ∧ (Chip.enterHold c).sup.ignition = c.sup.ignition
    ∧ (Chip.enterHold c).tick = c.tick ∧ (Chip.enterHold c).load.history = c.load.history
    ∧ (Chip.enterHold c).role.conflict = c.role.conflict := by
  simp [Chip.enterHold]

@[simp] theorem Chip.dozeKeys_frame (wasWatched : Bool) (c : Chip) :
    (Chip.dozeKeys wasWatched c).pins = c.pins ∧ (Chip.dozeKeys wasWatched c).sup = c.sup
    ∧ (Chip.dozeKeys wasWatched c).tick = c.tick ∧ (Chip.dozeKeys wasWatched c).link = c.link
    ∧ (Chip.dozeKeys wasWatched c).inp = c.inp ∧ (Chip.dozeKeys wasWatched c).eng = c.eng
    ∧ (Chip.dozeKeys wasWatched c).trk = c.trk ∧ (Chip.dozeKeys wasWatched c).load = c.load
    ∧ (Chip.dozeKeys wasWatched c).role = c.role ∧ (Chip.dozeKeys wasWatched c).cal = c.cal
    ∧ (Chip.dozeKeys wasWatched c).alarm = c.alarm ∧ (Chip.dozeKeys wasWatched c).panel.settings = c.panel.settings
    ∧ (Chip.dozeKeys wasWatched c).panel.page = c.panel.page ∧ (Chip.dozeKeys wasWatched c).store = c.store := by
  simp [Chip.dozeKeys]

@[simp] theorem Chip.enterDoze_frame (c : Chip) :
    (Chip.enterDoze c).pins = c.pins ∧ (Chip.enterDoze c).sup.life = c.sup.life
    ∧ (Chip.enterDoze c).sup.status = c.sup.status ∧ (Chip.enterDoze c).sup.ignition = c.sup.ignition
    ∧ (Chip.enterDoze c).tick = c.tick ∧ (Chip.enterDoze c).load.history = c.load.history
    ∧ (Chip.enterDoze c).role.conflict = c.role.conflict := by
  simp [Chip.enterDoze]

@[simp] theorem Chip.holdToDoze_frame (c : Chip) :
    (Chip.holdToDoze c).pins = c.pins ∧ (Chip.holdToDoze c).sup.life = c.sup.life
    ∧ (Chip.holdToDoze c).sup.status = c.sup.status ∧ (Chip.holdToDoze c).sup.ignition = c.sup.ignition
    ∧ (Chip.holdToDoze c).tick = c.tick ∧ (Chip.holdToDoze c).link.station = c.link.station
    ∧ (Chip.holdToDoze c).link.rateFast = c.link.rateFast ∧ (Chip.holdToDoze c).inp = c.inp
    ∧ (Chip.holdToDoze c).eng = c.eng ∧ (Chip.holdToDoze c).trk = c.trk ∧ (Chip.holdToDoze c).load = c.load
    ∧ (Chip.holdToDoze c).role = c.role ∧ (Chip.holdToDoze c).cal = c.cal ∧ (Chip.holdToDoze c).alarm = c.alarm
    ∧ (Chip.holdToDoze c).panel.settings = c.panel.settings ∧ (Chip.holdToDoze c).panel.page = c.panel.page
    ∧ (Chip.holdToDoze c).store = c.store := by
  simp [Chip.holdToDoze]

@[simp] theorem Chip.enterPeek_frame (c : Chip) :
    (Chip.enterPeek c).pins = c.pins ∧ (Chip.enterPeek c).sup.life = c.sup.life
    ∧ (Chip.enterPeek c).sup.status = c.sup.status ∧ (Chip.enterPeek c).sup.ignition = c.sup.ignition
    ∧ (Chip.enterPeek c).tick = c.tick ∧ (Chip.enterPeek c).link.station = c.link.station
    ∧ (Chip.enterPeek c).link.rateFast = c.link.rateFast ∧ (Chip.enterPeek c).link.rx = c.link.rx
    ∧ (Chip.enterPeek c).link.gapDone = c.link.gapDone ∧ (Chip.enterPeek c).inp = c.inp
    ∧ (Chip.enterPeek c).eng = c.eng ∧ (Chip.enterPeek c).trk = c.trk ∧ (Chip.enterPeek c).load = c.load
    ∧ (Chip.enterPeek c).role = c.role ∧ (Chip.enterPeek c).cal = c.cal ∧ (Chip.enterPeek c).alarm = c.alarm
    ∧ (Chip.enterPeek c).panel.settings = c.panel.settings ∧ (Chip.enterPeek c).panel.page = c.panel.page
    ∧ (Chip.enterPeek c).panel.keys = c.panel.keys ∧ (Chip.enterPeek c).store = c.store := by
  simp [Chip.enterPeek]

@[simp] theorem Chip.peekToDoze_frame (c : Chip) :
    (Chip.peekToDoze c).pins = c.pins ∧ (Chip.peekToDoze c).sup.life = c.sup.life
    ∧ (Chip.peekToDoze c).sup.status = c.sup.status ∧ (Chip.peekToDoze c).sup.ignition = c.sup.ignition
    ∧ (Chip.peekToDoze c).tick = c.tick ∧ (Chip.peekToDoze c).link.station = c.link.station
    ∧ (Chip.peekToDoze c).link.rateFast = c.link.rateFast ∧ (Chip.peekToDoze c).link.rx = c.link.rx
    ∧ (Chip.peekToDoze c).link.gapDone = c.link.gapDone ∧ (Chip.peekToDoze c).inp = c.inp
    ∧ (Chip.peekToDoze c).eng = c.eng ∧ (Chip.peekToDoze c).trk = c.trk ∧ (Chip.peekToDoze c).load = c.load
    ∧ (Chip.peekToDoze c).role = c.role ∧ (Chip.peekToDoze c).cal = c.cal ∧ (Chip.peekToDoze c).alarm = c.alarm
    ∧ (Chip.peekToDoze c).store = c.store := by
  simp [Chip.peekToDoze]

@[simp] theorem Chip.peekTimerExpiry_frame (c : Chip) :
    (Chip.peekTimerExpiry c).pins = c.pins ∧ (Chip.peekTimerExpiry c).sup.life = c.sup.life
    ∧ (Chip.peekTimerExpiry c).sup.status = c.sup.status ∧ (Chip.peekTimerExpiry c).sup.ignition = c.sup.ignition
    ∧ (Chip.peekTimerExpiry c).tick = c.tick ∧ (Chip.peekTimerExpiry c).link.station = c.link.station
    ∧ (Chip.peekTimerExpiry c).link.rateFast = c.link.rateFast ∧ (Chip.peekTimerExpiry c).link.rx = c.link.rx
    ∧ (Chip.peekTimerExpiry c).link.gapDone = c.link.gapDone ∧ (Chip.peekTimerExpiry c).inp = c.inp
    ∧ (Chip.peekTimerExpiry c).eng = c.eng ∧ (Chip.peekTimerExpiry c).trk = c.trk
    ∧ (Chip.peekTimerExpiry c).load = c.load ∧ (Chip.peekTimerExpiry c).role = c.role
    ∧ (Chip.peekTimerExpiry c).cal = c.cal ∧ (Chip.peekTimerExpiry c).alarm = c.alarm
    ∧ (Chip.peekTimerExpiry c).store = c.store := by
  unfold Chip.peekTimerExpiry
  (repeat' split) <;> simp

@[simp] theorem Chip.finishStart_frame (c : Chip) :
    (Chip.finishStart c).pins = c.pins ∧ (Chip.finishStart c).sup = c.sup ∧ (Chip.finishStart c).tick = c.tick
    ∧ (Chip.finishStart c).link.station = c.link.station ∧ (Chip.finishStart c).link.rateFast = c.link.rateFast
    ∧ (Chip.finishStart c).link.rx = c.link.rx ∧ (Chip.finishStart c).link.gapDone = c.link.gapDone
    ∧ (Chip.finishStart c).inp = c.inp ∧ (Chip.finishStart c).eng = c.eng ∧ (Chip.finishStart c).trk = c.trk
    ∧ (Chip.finishStart c).load.shift = c.load.shift ∧ (Chip.finishStart c).load.life = c.load.life
    ∧ (Chip.finishStart c).load.history = c.load.history ∧ (Chip.finishStart c).role.state = c.role.state
    ∧ (Chip.finishStart c).role.resumeRole = c.role.resumeRole
    ∧ (Chip.finishStart c).role.mirrored = c.role.mirrored ∧ (Chip.finishStart c).role.named = c.role.named
    ∧ (Chip.finishStart c).role.conflict = c.role.conflict ∧ (Chip.finishStart c).cal = c.cal
    ∧ (Chip.finishStart c).panel.settings = c.panel.settings ∧ (Chip.finishStart c).panel.page = c.panel.page
    ∧ (Chip.finishStart c).panel.keys = c.panel.keys ∧ (Chip.finishStart c).panel.decoder = c.panel.decoder
    ∧ (Chip.finishStart c).store = c.store := by
  simp [Chip.finishStart]

@[simp] theorem Chip.resumeStart_frame (c : Chip) :
    (Chip.resumeStart c).pins = c.pins ∧ (Chip.resumeStart c).sup.life = c.sup.life
    ∧ (Chip.resumeStart c).sup.status = c.sup.status ∧ (Chip.resumeStart c).sup.ignition = c.sup.ignition
    ∧ (Chip.resumeStart c).tick = c.tick ∧ (Chip.resumeStart c).link.station = c.link.station
    ∧ (Chip.resumeStart c).link.rateFast = c.link.rateFast ∧ (Chip.resumeStart c).trk.voids = c.trk.voids
    ∧ (Chip.resumeStart c).role.resumeRole = c.role.resumeRole
    ∧ (Chip.resumeStart c).panel.settings = c.panel.settings ∧ (Chip.resumeStart c).store.cfg = c.store.cfg
    ∧ (Chip.resumeStart c).store.window = c.store.window ∧ (Chip.resumeStart c).store.array = c.store.array
    ∧ (Chip.resumeStart c).store.curves = c.store.curves := by
  simp [Chip.resumeStart]

@[simp] theorem Chip.setStraps_frame (s : Straps) (c : Chip) :
    (Chip.setStraps s c).sup = c.sup ∧ (Chip.setStraps s c).tick = c.tick ∧ (Chip.setStraps s c).link = c.link
    ∧ (Chip.setStraps s c).inp = c.inp ∧ (Chip.setStraps s c).eng = c.eng ∧ (Chip.setStraps s c).trk = c.trk
    ∧ (Chip.setStraps s c).load = c.load ∧ (Chip.setStraps s c).role = c.role ∧ (Chip.setStraps s c).cal = c.cal
    ∧ (Chip.setStraps s c).alarm = c.alarm ∧ (Chip.setStraps s c).panel = c.panel
    ∧ (Chip.setStraps s c).store = c.store := by
  simp [Chip.setStraps]

@[simp] theorem Chip.holdReset_frame (c : Chip) :
    (Chip.holdReset c).pins = c.pins ∧ (Chip.holdReset c).sup.power = c.sup.power
    ∧ (Chip.holdReset c).sup.status = c.sup.status ∧ (Chip.holdReset c).sup.ignition = c.sup.ignition
    ∧ (Chip.holdReset c).tick = c.tick ∧ (Chip.holdReset c).link.station = c.link.station
    ∧ (Chip.holdReset c).link.rateFast = c.link.rateFast ∧ (Chip.holdReset c).link.gapDone = c.link.gapDone
    ∧ (Chip.holdReset c).inp = c.inp ∧ (Chip.holdReset c).eng = c.eng ∧ (Chip.holdReset c).trk = c.trk
    ∧ (Chip.holdReset c).load = c.load ∧ (Chip.holdReset c).role = c.role ∧ (Chip.holdReset c).cal = c.cal
    ∧ (Chip.holdReset c).alarm = c.alarm ∧ (Chip.holdReset c).panel = c.panel
    ∧ (Chip.holdReset c).store = c.store := by
  simp [Chip.holdReset]

@[simp] theorem Chip.resetAssert_frame (c : Chip) :
    (Chip.resetAssert c).sup.power = c.sup.power ∧ (Chip.resetAssert c).sup.status = c.sup.status
    ∧ (Chip.resetAssert c).sup.ignition = c.sup.ignition ∧ (Chip.resetAssert c).tick = c.tick
    ∧ (Chip.resetAssert c).link.station = c.link.station ∧ (Chip.resetAssert c).link.rateFast = c.link.rateFast
    ∧ (Chip.resetAssert c).link.gapDone = c.link.gapDone ∧ (Chip.resetAssert c).inp = c.inp
    ∧ (Chip.resetAssert c).eng = c.eng ∧ (Chip.resetAssert c).trk = c.trk ∧ (Chip.resetAssert c).load = c.load
    ∧ (Chip.resetAssert c).role = c.role ∧ (Chip.resetAssert c).cal = c.cal ∧ (Chip.resetAssert c).alarm = c.alarm
    ∧ (Chip.resetAssert c).panel = c.panel ∧ (Chip.resetAssert c).store = c.store := by
  simp only [Chip.resetAssert]
  (repeat' split) <;> simp_all

@[simp] theorem Chip.wentLow_frame (c : Chip) :
    (Chip.wentLow c).pins = c.pins ∧ (Chip.wentLow c).sup.life = c.sup.life
    ∧ (Chip.wentLow c).sup.status = c.sup.status ∧ (Chip.wentLow c).sup.ignition = c.sup.ignition
    ∧ (Chip.wentLow c).tick = c.tick ∧ (Chip.wentLow c).load.history = c.load.history
    ∧ (Chip.wentLow c).role.conflict = c.role.conflict := by
  unfold Chip.wentLow
  (repeat' split) <;> simp

@[simp] theorem Chip.supplyFallsLow_frame (volts : Nat) (c : Chip) :
    (Chip.supplyFallsLow volts c).sup.life = c.sup.life
    ∧ (Chip.supplyFallsLow volts c).sup.ignition = c.sup.ignition ∧ (Chip.supplyFallsLow volts c).tick = c.tick
    ∧ (Chip.supplyFallsLow volts c).load.history = c.load.history
    ∧ (Chip.supplyFallsLow volts c).role.conflict = c.role.conflict := by
  simp only [Chip.supplyFallsLow]
  (repeat' split) <;> simp_all

@[simp] theorem Chip.wentOk_frame (c : Chip) :
    (Chip.wentOk c).pins = c.pins ∧ (Chip.wentOk c).sup.life = c.sup.life
    ∧ (Chip.wentOk c).sup.status = c.sup.status ∧ (Chip.wentOk c).sup.ignition = c.sup.ignition
    ∧ (Chip.wentOk c).tick = c.tick ∧ (Chip.wentOk c).link.station = c.link.station
    ∧ (Chip.wentOk c).link.rateFast = c.link.rateFast ∧ (Chip.wentOk c).trk.voids = c.trk.voids
    ∧ (Chip.wentOk c).role.resumeRole = c.role.resumeRole ∧ (Chip.wentOk c).panel.settings = c.panel.settings
    ∧ (Chip.wentOk c).store.cfg = c.store.cfg ∧ (Chip.wentOk c).store.window = c.store.window
    ∧ (Chip.wentOk c).store.array = c.store.array ∧ (Chip.wentOk c).store.curves = c.store.curves := by
  unfold Chip.wentOk
  (repeat' split) <;> simp

@[simp] theorem Chip.ignLineChange_frame (high : Bool) (c : Chip) :
    (Chip.ignLineChange high c).sup.life = c.sup.life ∧ (Chip.ignLineChange high c).sup.power = c.sup.power
    ∧ (Chip.ignLineChange high c).sup.status = c.sup.status
    ∧ (Chip.ignLineChange high c).sup.ignition = c.sup.ignition ∧ (Chip.ignLineChange high c).tick = c.tick
    ∧ (Chip.ignLineChange high c).link = c.link ∧ (Chip.ignLineChange high c).inp = c.inp
    ∧ (Chip.ignLineChange high c).eng = c.eng ∧ (Chip.ignLineChange high c).trk = c.trk
    ∧ (Chip.ignLineChange high c).load = c.load ∧ (Chip.ignLineChange high c).role = c.role
    ∧ (Chip.ignLineChange high c).cal = c.cal ∧ (Chip.ignLineChange high c).alarm = c.alarm
    ∧ (Chip.ignLineChange high c).panel = c.panel ∧ (Chip.ignLineChange high c).store = c.store := by
  simp only [Chip.ignLineChange]
  (repeat' split) <;> simp_all

@[simp] theorem Chip.ignitionChanged_frame (c : Chip) :
    (Chip.ignitionChanged c).pins = c.pins ∧ (Chip.ignitionChanged c).sup.life = c.sup.life
    ∧ (Chip.ignitionChanged c).sup.status = c.sup.status ∧ (Chip.ignitionChanged c).sup.ignition = c.sup.ignition
    ∧ (Chip.ignitionChanged c).tick = c.tick := by
  unfold Chip.ignitionChanged
  (repeat' split) <;> simp

@[simp] theorem Chip.ignitionChange_frame (c : Chip) :
    (Chip.ignitionChange c).pins = c.pins ∧ (Chip.ignitionChange c).sup.life = c.sup.life
    ∧ (Chip.ignitionChange c).sup.status = c.sup.status ∧ (Chip.ignitionChange c).tick = c.tick := by
  simp only [Chip.ignitionChange]
  (repeat' split) <;> simp_all

@[simp] theorem Chip.ignitionOffAfterStart_frame (c : Chip) :
    (Chip.ignitionOffAfterStart c).pins = c.pins ∧ (Chip.ignitionOffAfterStart c).sup.life = c.sup.life
    ∧ (Chip.ignitionOffAfterStart c).sup.status = c.sup.status
    ∧ (Chip.ignitionOffAfterStart c).sup.ignition = c.sup.ignition ∧ (Chip.ignitionOffAfterStart c).tick = c.tick
    ∧ (Chip.ignitionOffAfterStart c).load.history = c.load.history
    ∧ (Chip.ignitionOffAfterStart c).role.conflict = c.role.conflict := by
  unfold Chip.ignitionOffAfterStart
  (repeat' split) <;> simp

@[simp] theorem Chip.roleChangedInRun_frame (c : Chip) :
    (Chip.roleChangedInRun c).pins = c.pins ∧ (Chip.roleChangedInRun c).sup = c.sup
    ∧ (Chip.roleChangedInRun c).tick = c.tick ∧ (Chip.roleChangedInRun c).inp = c.inp
    ∧ (Chip.roleChangedInRun c).load.record = c.load.record ∧ (Chip.roleChangedInRun c).load.shift = c.load.shift
    ∧ (Chip.roleChangedInRun c).load.life = c.load.life ∧ (Chip.roleChangedInRun c).load.history = c.load.history
    ∧ (Chip.roleChangedInRun c).role.resumeRole = c.role.resumeRole
    ∧ (Chip.roleChangedInRun c).role.conflict = c.role.conflict ∧ (Chip.roleChangedInRun c).cal = c.cal
    ∧ (Chip.roleChangedInRun c).panel.settings = c.panel.settings
    ∧ (Chip.roleChangedInRun c).panel.page = c.panel.page ∧ (Chip.roleChangedInRun c).panel.keys = c.panel.keys
    ∧ (Chip.roleChangedInRun c).panel.decoder = c.panel.decoder ∧ (Chip.roleChangedInRun c).store = c.store := by
  simp only [Chip.roleChangedInRun]
  (repeat' split) <;> simp_all

@[simp] theorem Chip.roleChanged_frame (c : Chip) :
    (Chip.roleChanged c).pins = c.pins ∧ (Chip.roleChanged c).sup = c.sup ∧ (Chip.roleChanged c).tick = c.tick
    ∧ (Chip.roleChanged c).inp = c.inp ∧ (Chip.roleChanged c).load.record = c.load.record
    ∧ (Chip.roleChanged c).load.shift = c.load.shift ∧ (Chip.roleChanged c).load.life = c.load.life
    ∧ (Chip.roleChanged c).load.history = c.load.history ∧ (Chip.roleChanged c).role.conflict = c.role.conflict
    ∧ (Chip.roleChanged c).cal = c.cal ∧ (Chip.roleChanged c).panel.settings = c.panel.settings
    ∧ (Chip.roleChanged c).panel.page = c.panel.page ∧ (Chip.roleChanged c).panel.keys = c.panel.keys
    ∧ (Chip.roleChanged c).panel.decoder = c.panel.decoder ∧ (Chip.roleChanged c).store = c.store := by
  unfold Chip.roleChanged
  (repeat' split) <;> simp

@[simp] theorem Chip.wakeChanged_frame (old : Cfg) (c : Chip) :
    (Chip.wakeChanged old c).pins = c.pins ∧ (Chip.wakeChanged old c).sup = c.sup
    ∧ (Chip.wakeChanged old c).tick = c.tick ∧ (Chip.wakeChanged old c).link.station = c.link.station
    ∧ (Chip.wakeChanged old c).link.rateFast = c.link.rateFast ∧ (Chip.wakeChanged old c).inp = c.inp
    ∧ (Chip.wakeChanged old c).eng = c.eng ∧ (Chip.wakeChanged old c).trk = c.trk
    ∧ (Chip.wakeChanged old c).load = c.load ∧ (Chip.wakeChanged old c).role = c.role
    ∧ (Chip.wakeChanged old c).cal = c.cal ∧ (Chip.wakeChanged old c).alarm = c.alarm
    ∧ (Chip.wakeChanged old c).panel.settings = c.panel.settings
    ∧ (Chip.wakeChanged old c).panel.page = c.panel.page ∧ (Chip.wakeChanged old c).store = c.store := by
  simp only [Chip.wakeChanged]
  (repeat' split) <;> simp_all

@[simp] theorem Chip.takeConfig_frame (c : Chip) :
    (Chip.takeConfig c).pins = c.pins ∧ (Chip.takeConfig c).sup = c.sup ∧ (Chip.takeConfig c).tick = c.tick
    ∧ (Chip.takeConfig c).load.shift = c.load.shift ∧ (Chip.takeConfig c).load.life = c.load.life
    ∧ (Chip.takeConfig c).load.history = c.load.history ∧ (Chip.takeConfig c).role.conflict = c.role.conflict
    ∧ (Chip.takeConfig c).cal = c.cal ∧ (Chip.takeConfig c).panel.settings = c.panel.settings
    ∧ (Chip.takeConfig c).panel.page = c.panel.page ∧ (Chip.takeConfig c).store.array = c.store.array
    ∧ (Chip.takeConfig c).store.curves = c.store.curves := by
  simp only [Chip.takeConfig]
  (repeat' split) <;> simp_all

@[simp] theorem Chip.startWindowEnd_frame (c : Chip) :
    (Chip.startWindowEnd c).pins = c.pins ∧ (Chip.startWindowEnd c).sup = c.sup
    ∧ (Chip.startWindowEnd c).tick = c.tick ∧ (Chip.startWindowEnd c).load.shift = c.load.shift
    ∧ (Chip.startWindowEnd c).load.life = c.load.life ∧ (Chip.startWindowEnd c).load.history = c.load.history
    ∧ (Chip.startWindowEnd c).role.conflict = c.role.conflict ∧ (Chip.startWindowEnd c).cal = c.cal
    ∧ (Chip.startWindowEnd c).panel.settings = c.panel.settings ∧ (Chip.startWindowEnd c).panel.page = c.panel.page
    ∧ (Chip.startWindowEnd c).store.array = c.store.array ∧ (Chip.startWindowEnd c).store.curves = c.store.curves := by
  unfold Chip.startWindowEnd
  (repeat' split) <;> simp

/-! ## Keys -/

@[simp] theorem Chip.enterHistory_frame (c : Chip) :
    (Chip.enterHistory c).pins = c.pins ∧ (Chip.enterHistory c).sup = c.sup ∧ (Chip.enterHistory c).tick = c.tick
    ∧ (Chip.enterHistory c).link = c.link ∧ (Chip.enterHistory c).inp = c.inp ∧ (Chip.enterHistory c).eng = c.eng
    ∧ (Chip.enterHistory c).trk = c.trk ∧ (Chip.enterHistory c).load = c.load ∧ (Chip.enterHistory c).role = c.role
    ∧ (Chip.enterHistory c).cal = c.cal ∧ (Chip.enterHistory c).alarm = c.alarm
    ∧ (Chip.enterHistory c).panel.settings = c.panel.settings ∧ (Chip.enterHistory c).panel.page = c.panel.page
    ∧ (Chip.enterHistory c).panel.keys = c.panel.keys ∧ (Chip.enterHistory c).panel.decoder = c.panel.decoder
    ∧ (Chip.enterHistory c).store = c.store := by
  simp [Chip.enterHistory]

@[simp] theorem Chip.enterPage_frame (g : Page) (c : Chip) :
    (Chip.enterPage g c).pins = c.pins ∧ (Chip.enterPage g c).sup = c.sup ∧ (Chip.enterPage g c).tick = c.tick
    ∧ (Chip.enterPage g c).link.station = c.link.station ∧ (Chip.enterPage g c).link.rateFast = c.link.rateFast
    ∧ (Chip.enterPage g c).link.rx = c.link.rx ∧ (Chip.enterPage g c).link.gapDone = c.link.gapDone
    ∧ (Chip.enterPage g c).inp = c.inp ∧ (Chip.enterPage g c).eng = c.eng ∧ (Chip.enterPage g c).trk = c.trk
    ∧ (Chip.enterPage g c).load.record = c.load.record ∧ (Chip.enterPage g c).load.shift = c.load.shift
    ∧ (Chip.enterPage g c).load.life = c.load.life ∧ (Chip.enterPage g c).load.history = c.load.history
    ∧ (Chip.enterPage g c).role = c.role ∧ (Chip.enterPage g c).cal = c.cal ∧ (Chip.enterPage g c).alarm = c.alarm
    ∧ (Chip.enterPage g c).panel.settings = c.panel.settings ∧ (Chip.enterPage g c).panel.keys = c.panel.keys
    ∧ (Chip.enterPage g c).panel.decoder = c.panel.decoder ∧ (Chip.enterPage g c).store = c.store := by
  simp only [Chip.enterPage]
  (repeat' split) <;> simp_all

@[simp] theorem Chip.pageStep_frame (c : Chip) :
    (Chip.pageStep c).pins = c.pins ∧ (Chip.pageStep c).sup = c.sup ∧ (Chip.pageStep c).tick = c.tick
    ∧ (Chip.pageStep c).link.station = c.link.station ∧ (Chip.pageStep c).link.rateFast = c.link.rateFast
    ∧ (Chip.pageStep c).link.rx = c.link.rx ∧ (Chip.pageStep c).link.gapDone = c.link.gapDone
    ∧ (Chip.pageStep c).inp = c.inp ∧ (Chip.pageStep c).eng = c.eng ∧ (Chip.pageStep c).trk = c.trk
    ∧ (Chip.pageStep c).load.record = c.load.record ∧ (Chip.pageStep c).load.shift = c.load.shift
    ∧ (Chip.pageStep c).load.life = c.load.life ∧ (Chip.pageStep c).load.history = c.load.history
    ∧ (Chip.pageStep c).role = c.role ∧ (Chip.pageStep c).cal = c.cal ∧ (Chip.pageStep c).alarm = c.alarm
    ∧ (Chip.pageStep c).panel.settings = c.panel.settings ∧ (Chip.pageStep c).panel.keys = c.panel.keys
    ∧ (Chip.pageStep c).panel.decoder = c.panel.decoder ∧ (Chip.pageStep c).store = c.store := by
  unfold Chip.pageStep
  (repeat' split) <;> simp

@[simp] theorem Chip.truckSelect_frame (up : Bool) (c : Chip) :
    (Chip.truckSelect up c).pins = c.pins ∧ (Chip.truckSelect up c).sup = c.sup
    ∧ (Chip.truckSelect up c).tick = c.tick ∧ (Chip.truckSelect up c).link = c.link
    ∧ (Chip.truckSelect up c).inp = c.inp ∧ (Chip.truckSelect up c).eng = c.eng
    ∧ (Chip.truckSelect up c).trk = c.trk ∧ (Chip.truckSelect up c).load = c.load
    ∧ (Chip.truckSelect up c).role = c.role ∧ (Chip.truckSelect up c).cal = c.cal
    ∧ (Chip.truckSelect up c).alarm = c.alarm ∧ (Chip.truckSelect up c).panel.settings = c.panel.settings
    ∧ (Chip.truckSelect up c).panel.page = c.panel.page ∧ (Chip.truckSelect up c).panel.keys = c.panel.keys
    ∧ (Chip.truckSelect up c).panel.decoder = c.panel.decoder ∧ (Chip.truckSelect up c).store = c.store := by
  simp [Chip.truckSelect]

@[simp] theorem Chip.countSelect_frame (up : Bool) (c : Chip) :
    (Chip.countSelect up c).pins = c.pins ∧ (Chip.countSelect up c).sup = c.sup
    ∧ (Chip.countSelect up c).tick = c.tick ∧ (Chip.countSelect up c).link = c.link
    ∧ (Chip.countSelect up c).inp = c.inp ∧ (Chip.countSelect up c).eng = c.eng
    ∧ (Chip.countSelect up c).trk = c.trk ∧ (Chip.countSelect up c).load = c.load
    ∧ (Chip.countSelect up c).role = c.role ∧ (Chip.countSelect up c).cal = c.cal
    ∧ (Chip.countSelect up c).alarm = c.alarm ∧ (Chip.countSelect up c).panel.settings = c.panel.settings
    ∧ (Chip.countSelect up c).panel.page = c.panel.page ∧ (Chip.countSelect up c).panel.keys = c.panel.keys
    ∧ (Chip.countSelect up c).panel.decoder = c.panel.decoder ∧ (Chip.countSelect up c).store = c.store := by
  simp [Chip.countSelect]

@[simp] theorem Chip.diagSelect_frame (up : Bool) (c : Chip) :
    (Chip.diagSelect up c).pins = c.pins ∧ (Chip.diagSelect up c).sup = c.sup ∧ (Chip.diagSelect up c).tick = c.tick
    ∧ (Chip.diagSelect up c).link = c.link ∧ (Chip.diagSelect up c).inp = c.inp ∧ (Chip.diagSelect up c).eng = c.eng
    ∧ (Chip.diagSelect up c).trk = c.trk ∧ (Chip.diagSelect up c).load = c.load
    ∧ (Chip.diagSelect up c).role = c.role ∧ (Chip.diagSelect up c).cal = c.cal
    ∧ (Chip.diagSelect up c).alarm = c.alarm ∧ (Chip.diagSelect up c).panel.settings = c.panel.settings
    ∧ (Chip.diagSelect up c).panel.page = c.panel.page ∧ (Chip.diagSelect up c).panel.keys = c.panel.keys
    ∧ (Chip.diagSelect up c).panel.decoder = c.panel.decoder ∧ (Chip.diagSelect up c).store = c.store := by
  simp [Chip.diagSelect]

@[simp] theorem Chip.historySelect_frame (up : Bool) (c : Chip) :
    (Chip.historySelect up c).pins = c.pins ∧ (Chip.historySelect up c).sup = c.sup
    ∧ (Chip.historySelect up c).tick = c.tick ∧ (Chip.historySelect up c).link = c.link
    ∧ (Chip.historySelect up c).inp = c.inp ∧ (Chip.historySelect up c).eng = c.eng
    ∧ (Chip.historySelect up c).trk = c.trk ∧ (Chip.historySelect up c).load = c.load
    ∧ (Chip.historySelect up c).role = c.role ∧ (Chip.historySelect up c).cal = c.cal
    ∧ (Chip.historySelect up c).alarm = c.alarm ∧ (Chip.historySelect up c).panel.settings = c.panel.settings
    ∧ (Chip.historySelect up c).panel.page = c.panel.page ∧ (Chip.historySelect up c).panel.keys = c.panel.keys
    ∧ (Chip.historySelect up c).panel.decoder = c.panel.decoder ∧ (Chip.historySelect up c).store = c.store := by
  simp [Chip.historySelect]

@[simp] theorem Chip.historyNewest_frame (c : Chip) :
    (Chip.historyNewest c).pins = c.pins ∧ (Chip.historyNewest c).sup = c.sup ∧ (Chip.historyNewest c).tick = c.tick
    ∧ (Chip.historyNewest c).link = c.link ∧ (Chip.historyNewest c).inp = c.inp ∧ (Chip.historyNewest c).eng = c.eng
    ∧ (Chip.historyNewest c).trk = c.trk ∧ (Chip.historyNewest c).load = c.load
    ∧ (Chip.historyNewest c).role = c.role ∧ (Chip.historyNewest c).cal = c.cal
    ∧ (Chip.historyNewest c).alarm = c.alarm ∧ (Chip.historyNewest c).panel.settings = c.panel.settings
    ∧ (Chip.historyNewest c).panel.page = c.panel.page ∧ (Chip.historyNewest c).panel.keys = c.panel.keys
    ∧ (Chip.historyNewest c).panel.decoder = c.panel.decoder ∧ (Chip.historyNewest c).store = c.store := by
  simp [Chip.historyNewest]

@[simp] theorem Chip.settingChanged_frame (item : Nat) (c : Chip) :
    (Chip.settingChanged item c).pins = c.pins ∧ (Chip.settingChanged item c).sup = c.sup
    ∧ (Chip.settingChanged item c).tick = c.tick ∧ (Chip.settingChanged item c).link = c.link
    ∧ (Chip.settingChanged item c).inp = c.inp ∧ (Chip.settingChanged item c).eng = c.eng
    ∧ (Chip.settingChanged item c).trk = c.trk ∧ (Chip.settingChanged item c).load = c.load
    ∧ (Chip.settingChanged item c).role = c.role ∧ (Chip.settingChanged item c).cal = c.cal
    ∧ (Chip.settingChanged item c).panel.settings = c.panel.settings
    ∧ (Chip.settingChanged item c).panel.page = c.panel.page
    ∧ (Chip.settingChanged item c).panel.keys = c.panel.keys
    ∧ (Chip.settingChanged item c).panel.decoder = c.panel.decoder ∧ (Chip.settingChanged item c).store = c.store := by
  unfold Chip.settingChanged
  (repeat' split) <;> simp

@[simp] theorem Chip.setupStep_frame (up : Bool) (c : Chip) :
    (Chip.setupStep up c).pins = c.pins ∧ (Chip.setupStep up c).sup = c.sup ∧ (Chip.setupStep up c).tick = c.tick
    ∧ (Chip.setupStep up c).link = c.link ∧ (Chip.setupStep up c).inp = c.inp ∧ (Chip.setupStep up c).eng = c.eng
    ∧ (Chip.setupStep up c).trk = c.trk ∧ (Chip.setupStep up c).load = c.load ∧ (Chip.setupStep up c).role = c.role
    ∧ (Chip.setupStep up c).cal = c.cal ∧ (Chip.setupStep up c).panel.page = c.panel.page
    ∧ (Chip.setupStep up c).panel.keys = c.panel.keys ∧ (Chip.setupStep up c).panel.decoder = c.panel.decoder
    ∧ (Chip.setupStep up c).store = c.store := by
  simp only [Chip.setupStep]
  (repeat' split) <;> simp_all

@[simp] theorem Chip.setupNext_frame (c : Chip) :
    (Chip.setupNext c).pins = c.pins ∧ (Chip.setupNext c).sup = c.sup ∧ (Chip.setupNext c).tick = c.tick
    ∧ (Chip.setupNext c).link = c.link ∧ (Chip.setupNext c).inp = c.inp ∧ (Chip.setupNext c).eng = c.eng
    ∧ (Chip.setupNext c).trk = c.trk ∧ (Chip.setupNext c).load = c.load ∧ (Chip.setupNext c).role = c.role
    ∧ (Chip.setupNext c).cal = c.cal ∧ (Chip.setupNext c).alarm = c.alarm
    ∧ (Chip.setupNext c).panel.settings = c.panel.settings ∧ (Chip.setupNext c).panel.page = c.panel.page
    ∧ (Chip.setupNext c).panel.keys = c.panel.keys ∧ (Chip.setupNext c).panel.decoder = c.panel.decoder
    ∧ (Chip.setupNext c).store = c.store := by
  simp [Chip.setupNext]

@[simp] theorem Chip.calStep_frame (up : Bool) (c : Chip) :
    (Chip.calStep up c).pins = c.pins ∧ (Chip.calStep up c).sup = c.sup ∧ (Chip.calStep up c).tick = c.tick
    ∧ (Chip.calStep up c).link = c.link ∧ (Chip.calStep up c).inp = c.inp ∧ (Chip.calStep up c).eng = c.eng
    ∧ (Chip.calStep up c).trk = c.trk ∧ (Chip.calStep up c).load = c.load ∧ (Chip.calStep up c).role = c.role
    ∧ (Chip.calStep up c).cal.state = c.cal.state ∧ (Chip.calStep up c).alarm = c.alarm
    ∧ (Chip.calStep up c).panel.settings = c.panel.settings ∧ (Chip.calStep up c).panel.page = c.panel.page
    ∧ (Chip.calStep up c).panel.keys = c.panel.keys ∧ (Chip.calStep up c).panel.decoder = c.panel.decoder
    ∧ (Chip.calStep up c).store = c.store := by
  simp only [Chip.calStep]
  (repeat' split) <;> simp_all

@[simp] theorem Chip.routeCal_frame (k : Key) (c : Chip) :
    (Chip.routeCal k c).pins = c.pins ∧ (Chip.routeCal k c).sup = c.sup ∧ (Chip.routeCal k c).tick = c.tick
    ∧ (Chip.routeCal k c).inp = c.inp ∧ (Chip.routeCal k c).eng = c.eng
    ∧ (Chip.routeCal k c).trk.voids = c.trk.voids ∧ (Chip.routeCal k c).load.history = c.load.history
    ∧ (Chip.routeCal k c).role.conflict = c.role.conflict
    ∧ (Chip.routeCal k c).panel.settings = c.panel.settings ∧ (Chip.routeCal k c).panel.keys = c.panel.keys
    ∧ (Chip.routeCal k c).panel.decoder = c.panel.decoder := by
  unfold Chip.routeCal
  (repeat' split) <;> simp

@[simp] theorem Chip.routeUpDown_frame (up : Bool) (c : Chip) :
    (Chip.routeUpDown up c).pins = c.pins ∧ (Chip.routeUpDown up c).sup = c.sup
    ∧ (Chip.routeUpDown up c).tick = c.tick ∧ (Chip.routeUpDown up c).link = c.link
    ∧ (Chip.routeUpDown up c).inp = c.inp ∧ (Chip.routeUpDown up c).eng = c.eng
    ∧ (Chip.routeUpDown up c).trk = c.trk ∧ (Chip.routeUpDown up c).load = c.load
    ∧ (Chip.routeUpDown up c).role = c.role ∧ (Chip.routeUpDown up c).cal = c.cal
    ∧ (Chip.routeUpDown up c).panel.page = c.panel.page ∧ (Chip.routeUpDown up c).panel.keys = c.panel.keys
    ∧ (Chip.routeUpDown up c).panel.decoder = c.panel.decoder ∧ (Chip.routeUpDown up c).store = c.store := by
  unfold Chip.routeUpDown
  (repeat' split) <;> simp

@[simp] theorem Chip.routeEnter_frame (c : Chip) :
    (Chip.routeEnter c).pins = c.pins ∧ (Chip.routeEnter c).sup = c.sup ∧ (Chip.routeEnter c).tick = c.tick
    ∧ (Chip.routeEnter c).link.station = c.link.station ∧ (Chip.routeEnter c).link.rateFast = c.link.rateFast
    ∧ (Chip.routeEnter c).link.rx = c.link.rx ∧ (Chip.routeEnter c).link.gapDone = c.link.gapDone
    ∧ (Chip.routeEnter c).inp = c.inp ∧ (Chip.routeEnter c).eng = c.eng
    ∧ (Chip.routeEnter c).trk.cycle = c.trk.cycle ∧ (Chip.routeEnter c).trk.voids = c.trk.voids
    ∧ (Chip.routeEnter c).trk.ctx = c.trk.ctx ∧ (Chip.routeEnter c).load.life = c.load.life
    ∧ (Chip.routeEnter c).role.state = c.role.state ∧ (Chip.routeEnter c).role.resumeRole = c.role.resumeRole
    ∧ (Chip.routeEnter c).role.named = c.role.named ∧ (Chip.routeEnter c).role.conflict = c.role.conflict
    ∧ (Chip.routeEnter c).cal = c.cal ∧ (Chip.routeEnter c).panel.settings = c.panel.settings
    ∧ (Chip.routeEnter c).panel.page = c.panel.page ∧ (Chip.routeEnter c).panel.keys = c.panel.keys
    ∧ (Chip.routeEnter c).panel.decoder = c.panel.decoder ∧ (Chip.routeEnter c).store = c.store := by
  unfold Chip.routeEnter
  (repeat' split) <;> simp

@[simp] theorem Chip.routePage_frame (k : Key) (c : Chip) :
    (Chip.routePage k c).pins = c.pins ∧ (Chip.routePage k c).sup = c.sup ∧ (Chip.routePage k c).tick = c.tick
    ∧ (Chip.routePage k c).link.station = c.link.station ∧ (Chip.routePage k c).link.rateFast = c.link.rateFast
    ∧ (Chip.routePage k c).link.rx = c.link.rx ∧ (Chip.routePage k c).link.gapDone = c.link.gapDone
    ∧ (Chip.routePage k c).inp = c.inp ∧ (Chip.routePage k c).eng = c.eng
    ∧ (Chip.routePage k c).trk.cycle = c.trk.cycle ∧ (Chip.routePage k c).trk.voids = c.trk.voids
    ∧ (Chip.routePage k c).trk.ctx = c.trk.ctx ∧ (Chip.routePage k c).load.life = c.load.life
    ∧ (Chip.routePage k c).role.state = c.role.state ∧ (Chip.routePage k c).role.resumeRole = c.role.resumeRole
    ∧ (Chip.routePage k c).role.named = c.role.named ∧ (Chip.routePage k c).role.conflict = c.role.conflict
    ∧ (Chip.routePage k c).cal = c.cal ∧ (Chip.routePage k c).panel.keys = c.panel.keys
    ∧ (Chip.routePage k c).panel.decoder = c.panel.decoder ∧ (Chip.routePage k c).store = c.store := by
  unfold Chip.routePage
  (repeat' split) <;> simp

@[simp] theorem Chip.routePress_frame (k : Key) (c : Chip) :
    (Chip.routePress k c).pins = c.pins ∧ (Chip.routePress k c).sup = c.sup ∧ (Chip.routePress k c).tick = c.tick
    ∧ (Chip.routePress k c).inp = c.inp ∧ (Chip.routePress k c).eng = c.eng
    ∧ (Chip.routePress k c).trk.voids = c.trk.voids
    ∧ (Chip.routePress k c).role.conflict = c.role.conflict ∧ (Chip.routePress k c).panel.keys = c.panel.keys
    ∧ (Chip.routePress k c).panel.decoder = c.panel.decoder := by
  unfold Chip.routePress
  (repeat' split) <;> simp

@[simp] theorem Chip.pressInRun_frame (k : Key) (c : Chip) :
    (Chip.pressInRun k c).pins = c.pins ∧ (Chip.pressInRun k c).sup = c.sup ∧ (Chip.pressInRun k c).tick = c.tick
    ∧ (Chip.pressInRun k c).inp = c.inp ∧ (Chip.pressInRun k c).eng = c.eng
    ∧ (Chip.pressInRun k c).trk.voids = c.trk.voids
    ∧ (Chip.pressInRun k c).role.conflict = c.role.conflict ∧ (Chip.pressInRun k c).panel.keys = c.panel.keys
    ∧ (Chip.pressInRun k c).panel.decoder = c.panel.decoder := by
  unfold Chip.pressInRun
  (repeat' split) <;> simp

@[simp] theorem Chip.pressInDoze_frame (c : Chip) :
    (Chip.pressInDoze c).pins = c.pins ∧ (Chip.pressInDoze c).sup.life = c.sup.life
    ∧ (Chip.pressInDoze c).sup.status = c.sup.status ∧ (Chip.pressInDoze c).sup.ignition = c.sup.ignition
    ∧ (Chip.pressInDoze c).tick = c.tick ∧ (Chip.pressInDoze c).link.station = c.link.station
    ∧ (Chip.pressInDoze c).link.rateFast = c.link.rateFast ∧ (Chip.pressInDoze c).link.rx = c.link.rx
    ∧ (Chip.pressInDoze c).link.gapDone = c.link.gapDone ∧ (Chip.pressInDoze c).inp = c.inp
    ∧ (Chip.pressInDoze c).eng = c.eng ∧ (Chip.pressInDoze c).trk = c.trk ∧ (Chip.pressInDoze c).load = c.load
    ∧ (Chip.pressInDoze c).role = c.role ∧ (Chip.pressInDoze c).cal = c.cal ∧ (Chip.pressInDoze c).alarm = c.alarm
    ∧ (Chip.pressInDoze c).panel.settings = c.panel.settings ∧ (Chip.pressInDoze c).panel.page = c.panel.page
    ∧ (Chip.pressInDoze c).panel.keys = c.panel.keys ∧ (Chip.pressInDoze c).store = c.store := by
  unfold Chip.pressInDoze
  (repeat' split) <;> simp

@[simp] theorem Chip.peekMode_frame (c : Chip) :
    (Chip.peekMode c).pins = c.pins ∧ (Chip.peekMode c).sup = c.sup ∧ (Chip.peekMode c).tick = c.tick
    ∧ (Chip.peekMode c).link = c.link ∧ (Chip.peekMode c).inp = c.inp ∧ (Chip.peekMode c).eng = c.eng
    ∧ (Chip.peekMode c).trk = c.trk ∧ (Chip.peekMode c).load = c.load ∧ (Chip.peekMode c).role = c.role
    ∧ (Chip.peekMode c).cal = c.cal ∧ (Chip.peekMode c).alarm = c.alarm
    ∧ (Chip.peekMode c).panel.settings = c.panel.settings ∧ (Chip.peekMode c).panel.page = c.panel.page
    ∧ (Chip.peekMode c).panel.keys = c.panel.keys ∧ (Chip.peekMode c).panel.decoder = c.panel.decoder
    ∧ (Chip.peekMode c).store = c.store := by
  unfold Chip.peekMode
  (repeat' split) <;> simp

@[simp] theorem Chip.pressInPeek_frame (k : Key) (c : Chip) :
    (Chip.pressInPeek k c).pins = c.pins ∧ (Chip.pressInPeek k c).sup.life = c.sup.life
    ∧ (Chip.pressInPeek k c).sup.power = c.sup.power ∧ (Chip.pressInPeek k c).sup.status = c.sup.status
    ∧ (Chip.pressInPeek k c).sup.ignition = c.sup.ignition ∧ (Chip.pressInPeek k c).tick = c.tick
    ∧ (Chip.pressInPeek k c).link = c.link ∧ (Chip.pressInPeek k c).inp = c.inp ∧ (Chip.pressInPeek k c).eng = c.eng
    ∧ (Chip.pressInPeek k c).trk = c.trk ∧ (Chip.pressInPeek k c).load = c.load
    ∧ (Chip.pressInPeek k c).role = c.role ∧ (Chip.pressInPeek k c).cal = c.cal
    ∧ (Chip.pressInPeek k c).alarm = c.alarm ∧ (Chip.pressInPeek k c).panel.settings = c.panel.settings
    ∧ (Chip.pressInPeek k c).panel.page = c.panel.page ∧ (Chip.pressInPeek k c).panel.keys = c.panel.keys
    ∧ (Chip.pressInPeek k c).panel.decoder = c.panel.decoder ∧ (Chip.pressInPeek k c).store = c.store := by
  simp only [Chip.pressInPeek]
  (repeat' split) <;> simp_all

@[simp] theorem Chip.registered_frame (k : Key) (c : Chip) :
    (Chip.registered k c).pins = c.pins ∧ (Chip.registered k c).sup.life = c.sup.life
    ∧ (Chip.registered k c).sup.status = c.sup.status ∧ (Chip.registered k c).sup.ignition = c.sup.ignition
    ∧ (Chip.registered k c).tick = c.tick ∧ (Chip.registered k c).inp = c.inp ∧ (Chip.registered k c).eng = c.eng
    ∧ (Chip.registered k c).trk.voids = c.trk.voids
    ∧ (Chip.registered k c).role.conflict = c.role.conflict ∧ (Chip.registered k c).panel.keys = c.panel.keys := by
  simp only [Chip.registered]
  (repeat' split) <;> simp_all

@[simp] theorem Chip.keyDown_frame (k : Key) (c : Chip) :
    (Chip.keyDown k c).pins = c.pins ∧ (Chip.keyDown k c).sup.life = c.sup.life
    ∧ (Chip.keyDown k c).sup.status = c.sup.status ∧ (Chip.keyDown k c).sup.ignition = c.sup.ignition
    ∧ (Chip.keyDown k c).tick = c.tick ∧ (Chip.keyDown k c).inp = c.inp ∧ (Chip.keyDown k c).eng = c.eng
    ∧ (Chip.keyDown k c).trk.voids = c.trk.voids
    ∧ (Chip.keyDown k c).role.conflict = c.role.conflict ∧ (Chip.keyDown k c).panel.keys = c.panel.keys := by
  simp only [Chip.keyDown]
  (repeat' split) <;> simp_all

@[simp] theorem Chip.keyUp_frame (k : Key) (c : Chip) :
    (Chip.keyUp k c).pins = c.pins ∧ (Chip.keyUp k c).sup = c.sup ∧ (Chip.keyUp k c).tick = c.tick
    ∧ (Chip.keyUp k c).link = c.link ∧ (Chip.keyUp k c).inp = c.inp ∧ (Chip.keyUp k c).eng = c.eng
    ∧ (Chip.keyUp k c).trk = c.trk ∧ (Chip.keyUp k c).load = c.load ∧ (Chip.keyUp k c).role = c.role
    ∧ (Chip.keyUp k c).cal = c.cal ∧ (Chip.keyUp k c).alarm = c.alarm
    ∧ (Chip.keyUp k c).panel.settings = c.panel.settings ∧ (Chip.keyUp k c).panel.page = c.panel.page
    ∧ (Chip.keyUp k c).panel.keys = c.panel.keys ∧ (Chip.keyUp k c).store = c.store := by
  simp [Chip.keyUp]

@[simp] theorem Chip.keyDebounceExpiry_frame (k : Key) (c : Chip) :
    (Chip.keyDebounceExpiry k c).pins = c.pins ∧ (Chip.keyDebounceExpiry k c).sup.life = c.sup.life
    ∧ (Chip.keyDebounceExpiry k c).sup.status = c.sup.status
    ∧ (Chip.keyDebounceExpiry k c).sup.ignition = c.sup.ignition ∧ (Chip.keyDebounceExpiry k c).tick = c.tick
    ∧ (Chip.keyDebounceExpiry k c).inp = c.inp ∧ (Chip.keyDebounceExpiry k c).eng = c.eng
    ∧ (Chip.keyDebounceExpiry k c).trk.voids = c.trk.voids
    ∧ (Chip.keyDebounceExpiry k c).role.conflict = c.role.conflict := by
  simp only [Chip.keyDebounceExpiry]
  (repeat' split) <;> simp_all

@[simp] theorem Chip.routeLong_frame (h : Hold) (c : Chip) :
    (Chip.routeLong h c).pins = c.pins ∧ (Chip.routeLong h c).sup = c.sup ∧ (Chip.routeLong h c).tick = c.tick
    ∧ (Chip.routeLong h c).link.station = c.link.station ∧ (Chip.routeLong h c).link.rateFast = c.link.rateFast
    ∧ (Chip.routeLong h c).link.rx = c.link.rx ∧ (Chip.routeLong h c).link.gapDone = c.link.gapDone
    ∧ (Chip.routeLong h c).inp = c.inp ∧ (Chip.routeLong h c).load.life = c.load.life
    ∧ (Chip.routeLong h c).role.resumeRole = c.role.resumeRole
    ∧ (Chip.routeLong h c).role.mirrored = c.role.mirrored ∧ (Chip.routeLong h c).role.named = c.role.named
    ∧ (Chip.routeLong h c).role.conflict = c.role.conflict ∧ (Chip.routeLong h c).panel.settings = c.panel.settings
    ∧ (Chip.routeLong h c).panel.keys = c.panel.keys ∧ (Chip.routeLong h c).panel.decoder = c.panel.decoder := by
  unfold Chip.routeLong
  (repeat' split) <;> simp

@[simp] theorem Chip.longPress_frame (c : Chip) :
    (Chip.longPress c).pins = c.pins ∧ (Chip.longPress c).sup = c.sup ∧ (Chip.longPress c).tick = c.tick
    ∧ (Chip.longPress c).link.station = c.link.station ∧ (Chip.longPress c).link.rateFast = c.link.rateFast
    ∧ (Chip.longPress c).link.rx = c.link.rx ∧ (Chip.longPress c).link.gapDone = c.link.gapDone
    ∧ (Chip.longPress c).inp = c.inp ∧ (Chip.longPress c).load.life = c.load.life
    ∧ (Chip.longPress c).role.resumeRole = c.role.resumeRole ∧ (Chip.longPress c).role.mirrored = c.role.mirrored
    ∧ (Chip.longPress c).role.named = c.role.named ∧ (Chip.longPress c).role.conflict = c.role.conflict
    ∧ (Chip.longPress c).panel.settings = c.panel.settings ∧ (Chip.longPress c).panel.keys = c.panel.keys := by
  unfold Chip.longPress
  (repeat' split) <;> simp

@[simp] theorem Chip.repeatOn_frame (f : EditField) (up : Bool) (c : Chip) :
    (Chip.repeatOn f up c).pins = c.pins ∧ (Chip.repeatOn f up c).sup = c.sup ∧ (Chip.repeatOn f up c).tick = c.tick
    ∧ (Chip.repeatOn f up c).link = c.link ∧ (Chip.repeatOn f up c).inp = c.inp ∧ (Chip.repeatOn f up c).eng = c.eng
    ∧ (Chip.repeatOn f up c).trk = c.trk ∧ (Chip.repeatOn f up c).load = c.load
    ∧ (Chip.repeatOn f up c).role = c.role ∧ (Chip.repeatOn f up c).cal.state = c.cal.state
    ∧ (Chip.repeatOn f up c).panel.page = c.panel.page ∧ (Chip.repeatOn f up c).panel.keys = c.panel.keys
    ∧ (Chip.repeatOn f up c).panel.decoder = c.panel.decoder ∧ (Chip.repeatOn f up c).store = c.store := by
  unfold Chip.repeatOn
  (repeat' split) <;> simp

@[simp] theorem Chip.repeatStep_frame (c : Chip) :
    (Chip.repeatStep c).pins = c.pins ∧ (Chip.repeatStep c).sup = c.sup ∧ (Chip.repeatStep c).tick = c.tick
    ∧ (Chip.repeatStep c).link = c.link ∧ (Chip.repeatStep c).inp = c.inp ∧ (Chip.repeatStep c).eng = c.eng
    ∧ (Chip.repeatStep c).trk = c.trk ∧ (Chip.repeatStep c).load = c.load ∧ (Chip.repeatStep c).role = c.role
    ∧ (Chip.repeatStep c).cal.state = c.cal.state ∧ (Chip.repeatStep c).panel.page = c.panel.page
    ∧ (Chip.repeatStep c).panel.keys = c.panel.keys ∧ (Chip.repeatStep c).store = c.store := by
  unfold Chip.repeatStep
  (repeat' split) <;> simp

@[simp] theorem Chip.blinkTimer_frame (c : Chip) :
    (Chip.blinkTimer c).pins = c.pins ∧ (Chip.blinkTimer c).sup = c.sup ∧ (Chip.blinkTimer c).tick = c.tick
    ∧ (Chip.blinkTimer c).link = c.link ∧ (Chip.blinkTimer c).inp = c.inp ∧ (Chip.blinkTimer c).eng = c.eng
    ∧ (Chip.blinkTimer c).trk = c.trk ∧ (Chip.blinkTimer c).load = c.load ∧ (Chip.blinkTimer c).role = c.role
    ∧ (Chip.blinkTimer c).cal = c.cal ∧ (Chip.blinkTimer c).alarm = c.alarm
    ∧ (Chip.blinkTimer c).panel.settings = c.panel.settings ∧ (Chip.blinkTimer c).panel.page = c.panel.page
    ∧ (Chip.blinkTimer c).panel.keys = c.panel.keys ∧ (Chip.blinkTimer c).panel.decoder = c.panel.decoder
    ∧ (Chip.blinkTimer c).store = c.store := by
  unfold Chip.blinkTimer
  (repeat' split) <;> simp

@[simp] theorem Chip.historyViewTimer_frame (c : Chip) :
    (Chip.historyViewTimer c).pins = c.pins ∧ (Chip.historyViewTimer c).sup = c.sup
    ∧ (Chip.historyViewTimer c).tick = c.tick ∧ (Chip.historyViewTimer c).link = c.link
    ∧ (Chip.historyViewTimer c).inp = c.inp ∧ (Chip.historyViewTimer c).eng = c.eng
    ∧ (Chip.historyViewTimer c).trk = c.trk ∧ (Chip.historyViewTimer c).load = c.load
    ∧ (Chip.historyViewTimer c).role = c.role ∧ (Chip.historyViewTimer c).cal = c.cal
    ∧ (Chip.historyViewTimer c).alarm = c.alarm ∧ (Chip.historyViewTimer c).panel.settings = c.panel.settings
    ∧ (Chip.historyViewTimer c).panel.page = c.panel.page ∧ (Chip.historyViewTimer c).panel.keys = c.panel.keys
    ∧ (Chip.historyViewTimer c).panel.decoder = c.panel.decoder ∧ (Chip.historyViewTimer c).store = c.store := by
  unfold Chip.historyViewTimer
  (repeat' split) <;> simp

@[simp] theorem Chip.messageTimer_frame (c : Chip) :
    (Chip.messageTimer c).pins = c.pins ∧ (Chip.messageTimer c).sup = c.sup ∧ (Chip.messageTimer c).tick = c.tick
    ∧ (Chip.messageTimer c).link = c.link ∧ (Chip.messageTimer c).inp = c.inp ∧ (Chip.messageTimer c).eng = c.eng
    ∧ (Chip.messageTimer c).trk = c.trk ∧ (Chip.messageTimer c).load = c.load ∧ (Chip.messageTimer c).role = c.role
    ∧ (Chip.messageTimer c).cal = c.cal ∧ (Chip.messageTimer c).alarm = c.alarm
    ∧ (Chip.messageTimer c).panel.settings = c.panel.settings ∧ (Chip.messageTimer c).panel.page = c.panel.page
    ∧ (Chip.messageTimer c).panel.keys = c.panel.keys ∧ (Chip.messageTimer c).panel.decoder = c.panel.decoder
    ∧ (Chip.messageTimer c).store = c.store := by
  unfold Chip.messageTimer
  (repeat' split) <;> simp

/-! ## Display -/

@[simp] theorem Chip.frameTimer_frame (c : Chip) :
    (Chip.frameTimer c).pins = c.pins ∧ (Chip.frameTimer c).sup = c.sup ∧ (Chip.frameTimer c).tick = c.tick
    ∧ (Chip.frameTimer c).link = c.link ∧ (Chip.frameTimer c).inp = c.inp ∧ (Chip.frameTimer c).eng = c.eng
    ∧ (Chip.frameTimer c).trk = c.trk ∧ (Chip.frameTimer c).load = c.load ∧ (Chip.frameTimer c).role = c.role
    ∧ (Chip.frameTimer c).cal = c.cal ∧ (Chip.frameTimer c).alarm = c.alarm
    ∧ (Chip.frameTimer c).panel.settings = c.panel.settings ∧ (Chip.frameTimer c).panel.page = c.panel.page
    ∧ (Chip.frameTimer c).panel.keys = c.panel.keys ∧ (Chip.frameTimer c).panel.decoder = c.panel.decoder
    ∧ (Chip.frameTimer c).store = c.store := by
  unfold Chip.frameTimer
  (repeat' split) <;> simp

/-! ## Telegram -/

@[simp] theorem Chip.afterArrival_frame (c : Chip) :
    (Chip.afterArrival c).pins = c.pins ∧ (Chip.afterArrival c).sup = c.sup ∧ (Chip.afterArrival c).tick = c.tick
    ∧ (Chip.afterArrival c).link = c.link ∧ (Chip.afterArrival c).inp = c.inp ∧ (Chip.afterArrival c).eng = c.eng
    ∧ (Chip.afterArrival c).trk.cycle = c.trk.cycle ∧ (Chip.afterArrival c).trk.voids = c.trk.voids
    ∧ (Chip.afterArrival c).trk.ctx = c.trk.ctx ∧ (Chip.afterArrival c).load = c.load
    ∧ (Chip.afterArrival c).role = c.role ∧ (Chip.afterArrival c).cal = c.cal
    ∧ (Chip.afterArrival c).panel.settings = c.panel.settings ∧ (Chip.afterArrival c).panel.page = c.panel.page
    ∧ (Chip.afterArrival c).panel.keys = c.panel.keys ∧ (Chip.afterArrival c).panel.decoder = c.panel.decoder
    ∧ (Chip.afterArrival c).store = c.store := by
  simp [Chip.afterArrival]

@[simp] theorem Chip.pressureArrival_frame (m : PressureMsg) (c : Chip) :
    (Chip.pressureArrival m c).pins = c.pins ∧ (Chip.pressureArrival m c).sup = c.sup
    ∧ (Chip.pressureArrival m c).tick = c.tick ∧ (Chip.pressureArrival m c).link.station = c.link.station
    ∧ (Chip.pressureArrival m c).link.rateFast = c.link.rateFast ∧ (Chip.pressureArrival m c).link.rx = c.link.rx
    ∧ (Chip.pressureArrival m c).link.gapDone = c.link.gapDone
    ∧ (Chip.pressureArrival m c).eng.isOpen = c.eng.isOpen ∧ (Chip.pressureArrival m c).trk.voids = c.trk.voids
    ∧ (Chip.pressureArrival m c).load.history = c.load.history
    ∧ (Chip.pressureArrival m c).role.state = c.role.state
    ∧ (Chip.pressureArrival m c).role.resumeRole = c.role.resumeRole
    ∧ (Chip.pressureArrival m c).role.named = c.role.named
    ∧ (Chip.pressureArrival m c).role.conflict = c.role.conflict
    ∧ (Chip.pressureArrival m c).cal.state = c.cal.state
    ∧ (Chip.pressureArrival m c).panel.settings = c.panel.settings
    ∧ (Chip.pressureArrival m c).panel.page = c.panel.page ∧ (Chip.pressureArrival m c).panel.keys = c.panel.keys
    ∧ (Chip.pressureArrival m c).panel.decoder = c.panel.decoder ∧ (Chip.pressureArrival m c).store = c.store := by
  simp [Chip.pressureArrival]

@[simp] theorem Chip.calAngle_frame (status : ArrStatus) (c : Chip) :
    (Chip.calAngle status c).pins = c.pins ∧ (Chip.calAngle status c).sup = c.sup
    ∧ (Chip.calAngle status c).tick = c.tick ∧ (Chip.calAngle status c).link = c.link
    ∧ (Chip.calAngle status c).inp = c.inp ∧ (Chip.calAngle status c).eng = c.eng
    ∧ (Chip.calAngle status c).trk = c.trk ∧ (Chip.calAngle status c).load = c.load
    ∧ (Chip.calAngle status c).role = c.role ∧ (Chip.calAngle status c).cal.state = c.cal.state
    ∧ (Chip.calAngle status c).alarm = c.alarm ∧ (Chip.calAngle status c).panel = c.panel
    ∧ (Chip.calAngle status c).store = c.store := by
  unfold Chip.calAngle
  (repeat' split) <;> simp

@[simp] theorem Chip.angleArrival_frame (src : AngleSrc) (m : AngleMsg) (c : Chip) :
    (Chip.angleArrival src m c).pins = c.pins ∧ (Chip.angleArrival src m c).sup = c.sup
    ∧ (Chip.angleArrival src m c).tick = c.tick ∧ (Chip.angleArrival src m c).link.station = c.link.station
    ∧ (Chip.angleArrival src m c).link.rateFast = c.link.rateFast ∧ (Chip.angleArrival src m c).link.rx = c.link.rx
    ∧ (Chip.angleArrival src m c).link.gapDone = c.link.gapDone
    ∧ (Chip.angleArrival src m c).load.history = c.load.history
    ∧ (Chip.angleArrival src m c).role.state = c.role.state
    ∧ (Chip.angleArrival src m c).role.resumeRole = c.role.resumeRole
    ∧ (Chip.angleArrival src m c).role.named = c.role.named
    ∧ (Chip.angleArrival src m c).role.conflict = c.role.conflict
    ∧ (Chip.angleArrival src m c).cal.state = c.cal.state
    ∧ (Chip.angleArrival src m c).panel.settings = c.panel.settings
    ∧ (Chip.angleArrival src m c).panel.page = c.panel.page ∧ (Chip.angleArrival src m c).panel.keys = c.panel.keys
    ∧ (Chip.angleArrival src m c).panel.decoder = c.panel.decoder ∧ (Chip.angleArrival src m c).store = c.store := by
  unfold Chip.angleArrival
  (repeat' split) <;> simp

@[simp] theorem Chip.tiltArrival_frame (m : TiltMsg) (c : Chip) :
    (Chip.tiltArrival m c).pins = c.pins ∧ (Chip.tiltArrival m c).sup = c.sup
    ∧ (Chip.tiltArrival m c).tick = c.tick ∧ (Chip.tiltArrival m c).link.station = c.link.station
    ∧ (Chip.tiltArrival m c).link.rateFast = c.link.rateFast ∧ (Chip.tiltArrival m c).link.rx = c.link.rx
    ∧ (Chip.tiltArrival m c).link.gapDone = c.link.gapDone ∧ (Chip.tiltArrival m c).trk.voids = c.trk.voids
    ∧ (Chip.tiltArrival m c).load.history = c.load.history ∧ (Chip.tiltArrival m c).role.state = c.role.state
    ∧ (Chip.tiltArrival m c).role.resumeRole = c.role.resumeRole
    ∧ (Chip.tiltArrival m c).role.named = c.role.named ∧ (Chip.tiltArrival m c).role.conflict = c.role.conflict
    ∧ (Chip.tiltArrival m c).cal = c.cal ∧ (Chip.tiltArrival m c).panel.settings = c.panel.settings
    ∧ (Chip.tiltArrival m c).panel.page = c.panel.page ∧ (Chip.tiltArrival m c).panel.keys = c.panel.keys
    ∧ (Chip.tiltArrival m c).panel.decoder = c.panel.decoder ∧ (Chip.tiltArrival m c).store = c.store := by
  simp [Chip.tiltArrival]

@[simp] theorem Chip.driveArrival_frame (m : DriveMsg) (c : Chip) :
    (Chip.driveArrival m c).pins = c.pins ∧ (Chip.driveArrival m c).sup = c.sup
    ∧ (Chip.driveArrival m c).tick = c.tick ∧ (Chip.driveArrival m c).link = c.link
    ∧ (Chip.driveArrival m c).eng = c.eng ∧ (Chip.driveArrival m c).trk = c.trk
    ∧ (Chip.driveArrival m c).load = c.load ∧ (Chip.driveArrival m c).role = c.role
    ∧ (Chip.driveArrival m c).cal = c.cal ∧ (Chip.driveArrival m c).panel.settings = c.panel.settings
    ∧ (Chip.driveArrival m c).panel.page = c.panel.page ∧ (Chip.driveArrival m c).panel.keys = c.panel.keys
    ∧ (Chip.driveArrival m c).panel.decoder = c.panel.decoder ∧ (Chip.driveArrival m c).store = c.store := by
  simp [Chip.driveArrival]

@[simp] theorem Chip.inclineArrival_frame (m : InclineMsg) (c : Chip) :
    (Chip.inclineArrival m c).pins = c.pins ∧ (Chip.inclineArrival m c).sup = c.sup
    ∧ (Chip.inclineArrival m c).tick = c.tick ∧ (Chip.inclineArrival m c).link = c.link
    ∧ (Chip.inclineArrival m c).eng = c.eng ∧ (Chip.inclineArrival m c).trk = c.trk
    ∧ (Chip.inclineArrival m c).load = c.load ∧ (Chip.inclineArrival m c).role = c.role
    ∧ (Chip.inclineArrival m c).cal = c.cal ∧ (Chip.inclineArrival m c).panel.settings = c.panel.settings
    ∧ (Chip.inclineArrival m c).panel.page = c.panel.page ∧ (Chip.inclineArrival m c).panel.keys = c.panel.keys
    ∧ (Chip.inclineArrival m c).panel.decoder = c.panel.decoder ∧ (Chip.inclineArrival m c).store = c.store := by
  simp [Chip.inclineArrival]

@[simp] theorem Chip.tagArrival_frame (m : TagMsg) (c : Chip) :
    (Chip.tagArrival m c).pins = c.pins ∧ (Chip.tagArrival m c).sup = c.sup
    ∧ (Chip.tagArrival m c).tick = c.tick ∧ (Chip.tagArrival m c).link.station = c.link.station
    ∧ (Chip.tagArrival m c).link.rateFast = c.link.rateFast ∧ (Chip.tagArrival m c).link.rx = c.link.rx
    ∧ (Chip.tagArrival m c).link.gapDone = c.link.gapDone ∧ (Chip.tagArrival m c).eng = c.eng
    ∧ (Chip.tagArrival m c).trk.cycle = c.trk.cycle ∧ (Chip.tagArrival m c).trk.voids = c.trk.voids
    ∧ (Chip.tagArrival m c).trk.ctx = c.trk.ctx ∧ (Chip.tagArrival m c).load.life = c.load.life
    ∧ (Chip.tagArrival m c).role.state = c.role.state
    ∧ (Chip.tagArrival m c).role.resumeRole = c.role.resumeRole
    ∧ (Chip.tagArrival m c).role.named = c.role.named ∧ (Chip.tagArrival m c).role.conflict = c.role.conflict
    ∧ (Chip.tagArrival m c).cal = c.cal ∧ (Chip.tagArrival m c).panel.settings = c.panel.settings
    ∧ (Chip.tagArrival m c).panel.page = c.panel.page ∧ (Chip.tagArrival m c).panel.keys = c.panel.keys
    ∧ (Chip.tagArrival m c).panel.decoder = c.panel.decoder ∧ (Chip.tagArrival m c).store = c.store := by
  simp [Chip.tagArrival]

@[simp] theorem Chip.takeAngle_frame (src : Byte) (data : List Byte) (c : Chip) :
    (Chip.takeAngle src data c).pins = c.pins ∧ (Chip.takeAngle src data c).sup = c.sup
    ∧ (Chip.takeAngle src data c).tick = c.tick ∧ (Chip.takeAngle src data c).link.station = c.link.station
    ∧ (Chip.takeAngle src data c).link.rateFast = c.link.rateFast ∧ (Chip.takeAngle src data c).link.rx = c.link.rx
    ∧ (Chip.takeAngle src data c).link.gapDone = c.link.gapDone
    ∧ (Chip.takeAngle src data c).load.history = c.load.history
    ∧ (Chip.takeAngle src data c).role.state = c.role.state
    ∧ (Chip.takeAngle src data c).role.resumeRole = c.role.resumeRole
    ∧ (Chip.takeAngle src data c).role.named = c.role.named
    ∧ (Chip.takeAngle src data c).role.conflict = c.role.conflict
    ∧ (Chip.takeAngle src data c).cal.state = c.cal.state
    ∧ (Chip.takeAngle src data c).panel.settings = c.panel.settings
    ∧ (Chip.takeAngle src data c).panel.page = c.panel.page ∧ (Chip.takeAngle src data c).panel.keys = c.panel.keys
    ∧ (Chip.takeAngle src data c).panel.decoder = c.panel.decoder ∧ (Chip.takeAngle src data c).store = c.store := by
  unfold Chip.takeAngle Chip.take
  (repeat' split) <;> simp

@[simp] theorem Chip.consumeInRun_frame (k : Kind) (src dst : Byte) (data : List Byte) (c : Chip) :
    (Chip.consumeInRun k src dst data c).pins = c.pins ∧ (Chip.consumeInRun k src dst data c).sup = c.sup
    ∧ (Chip.consumeInRun k src dst data c).tick = c.tick
    ∧ (Chip.consumeInRun k src dst data c).link.station = c.link.station
    ∧ (Chip.consumeInRun k src dst data c).link.rateFast = c.link.rateFast
    ∧ (Chip.consumeInRun k src dst data c).link.rx = c.link.rx
    ∧ (Chip.consumeInRun k src dst data c).link.gapDone = c.link.gapDone
    ∧ (Chip.consumeInRun k src dst data c).role.resumeRole = c.role.resumeRole
    ∧ (Chip.consumeInRun k src dst data c).role.conflict = c.role.conflict
    ∧ (Chip.consumeInRun k src dst data c).cal.state = c.cal.state
    ∧ (Chip.consumeInRun k src dst data c).panel.settings = c.panel.settings
    ∧ (Chip.consumeInRun k src dst data c).panel.page = c.panel.page
    ∧ (Chip.consumeInRun k src dst data c).panel.keys = c.panel.keys
    ∧ (Chip.consumeInRun k src dst data c).panel.decoder = c.panel.decoder := by
  unfold Chip.consumeInRun Chip.take
  (repeat' split) <;> simp

@[simp] theorem Chip.consume_frame (k : Kind) (src dst : Byte) (data : List Byte) (c : Chip) :
    (Chip.consume k src dst data c).pins = c.pins ∧ (Chip.consume k src dst data c).sup = c.sup
    ∧ (Chip.consume k src dst data c).tick = c.tick ∧ (Chip.consume k src dst data c).link.station = c.link.station
    ∧ (Chip.consume k src dst data c).link.rateFast = c.link.rateFast
    ∧ (Chip.consume k src dst data c).link.rx = c.link.rx
    ∧ (Chip.consume k src dst data c).link.gapDone = c.link.gapDone
    ∧ (Chip.consume k src dst data c).role.resumeRole = c.role.resumeRole
    ∧ (Chip.consume k src dst data c).role.conflict = c.role.conflict
    ∧ (Chip.consume k src dst data c).cal.state = c.cal.state
    ∧ (Chip.consume k src dst data c).panel.settings = c.panel.settings
    ∧ (Chip.consume k src dst data c).panel.page = c.panel.page
    ∧ (Chip.consume k src dst data c).panel.keys = c.panel.keys
    ∧ (Chip.consume k src dst data c).panel.decoder = c.panel.decoder := by
  unfold Chip.consume
  (repeat' split) <;> simp

@[simp] theorem Chip.takeWhole_frame (t : WholeTelegram) (c : Chip) :
    (Chip.takeWhole t c).pins = c.pins ∧ (Chip.takeWhole t c).sup = c.sup ∧ (Chip.takeWhole t c).tick = c.tick
    ∧ (Chip.takeWhole t c).role.resumeRole = c.role.resumeRole ∧ (Chip.takeWhole t c).cal.state = c.cal.state
    ∧ (Chip.takeWhole t c).panel.settings = c.panel.settings ∧ (Chip.takeWhole t c).panel.page = c.panel.page
    ∧ (Chip.takeWhole t c).panel.keys = c.panel.keys ∧ (Chip.takeWhole t c).panel.decoder = c.panel.decoder := by
  unfold Chip.takeWhole
  (repeat' split) <;> simp

@[simp] theorem Chip.receive_frame (kind src dst : Byte) (data : List Byte) (c : Chip) :
    (Chip.receive kind src dst data c).pins = c.pins ∧ (Chip.receive kind src dst data c).sup = c.sup
    ∧ (Chip.receive kind src dst data c).tick = c.tick
    ∧ (Chip.receive kind src dst data c).role.resumeRole = c.role.resumeRole
    ∧ (Chip.receive kind src dst data c).cal.state = c.cal.state
    ∧ (Chip.receive kind src dst data c).panel.settings = c.panel.settings
    ∧ (Chip.receive kind src dst data c).panel.page = c.panel.page
    ∧ (Chip.receive kind src dst data c).panel.keys = c.panel.keys
    ∧ (Chip.receive kind src dst data c).panel.decoder = c.panel.decoder := by
  unfold Chip.receive
  (repeat' split) <;> simp

@[simp] theorem Chip.receiveUnknown_frame (kind src dst : Byte) (data : List Byte) (c : Chip) :
    (Chip.receiveUnknown kind src dst data c).pins = c.pins ∧ (Chip.receiveUnknown kind src dst data c).sup = c.sup
    ∧ (Chip.receiveUnknown kind src dst data c).tick = c.tick
    ∧ (Chip.receiveUnknown kind src dst data c).role.resumeRole = c.role.resumeRole
    ∧ (Chip.receiveUnknown kind src dst data c).cal.state = c.cal.state
    ∧ (Chip.receiveUnknown kind src dst data c).panel.settings = c.panel.settings
    ∧ (Chip.receiveUnknown kind src dst data c).panel.page = c.panel.page
    ∧ (Chip.receiveUnknown kind src dst data c).panel.keys = c.panel.keys
    ∧ (Chip.receiveUnknown kind src dst data c).panel.decoder = c.panel.decoder := by
  unfold Chip.receiveUnknown
  (repeat' split) <;> simp

@[simp] theorem Chip.receiveFailure_frame (run : List RxChar) (c : Chip) :
    (Chip.receiveFailure run c).pins = c.pins ∧ (Chip.receiveFailure run c).sup = c.sup
    ∧ (Chip.receiveFailure run c).tick = c.tick ∧ (Chip.receiveFailure run c).link.station = c.link.station
    ∧ (Chip.receiveFailure run c).link.rateFast = c.link.rateFast ∧ (Chip.receiveFailure run c).inp = c.inp
    ∧ (Chip.receiveFailure run c).eng = c.eng ∧ (Chip.receiveFailure run c).trk = c.trk
    ∧ (Chip.receiveFailure run c).load = c.load ∧ (Chip.receiveFailure run c).role = c.role
    ∧ (Chip.receiveFailure run c).cal = c.cal ∧ (Chip.receiveFailure run c).alarm = c.alarm
    ∧ (Chip.receiveFailure run c).panel = c.panel ∧ (Chip.receiveFailure run c).store = c.store := by
  unfold Chip.receiveFailure
  (repeat' split) <;> simp

@[simp] theorem Chip.frameEnded_frame (run : List RxChar) (c : Chip) :
    (Chip.frameEnded run c).pins = c.pins ∧ (Chip.frameEnded run c).sup = c.sup
    ∧ (Chip.frameEnded run c).tick = c.tick ∧ (Chip.frameEnded run c).role.resumeRole = c.role.resumeRole
    ∧ (Chip.frameEnded run c).cal.state = c.cal.state
    ∧ (Chip.frameEnded run c).panel.settings = c.panel.settings
    ∧ (Chip.frameEnded run c).panel.page = c.panel.page ∧ (Chip.frameEnded run c).panel.keys = c.panel.keys
    ∧ (Chip.frameEnded run c).panel.decoder = c.panel.decoder := by
  unfold Chip.frameEnded
  (repeat' split) <;> simp

@[simp] theorem Chip.settleGapComplete_frame (c : Chip) :
    (Chip.settleGapComplete c).pins = c.pins ∧ (Chip.settleGapComplete c).sup = c.sup
    ∧ (Chip.settleGapComplete c).tick = c.tick ∧ (Chip.settleGapComplete c).role.resumeRole = c.role.resumeRole
    ∧ (Chip.settleGapComplete c).cal.state = c.cal.state
    ∧ (Chip.settleGapComplete c).panel.settings = c.panel.settings
    ∧ (Chip.settleGapComplete c).panel.page = c.panel.page ∧ (Chip.settleGapComplete c).panel.keys = c.panel.keys
    ∧ (Chip.settleGapComplete c).panel.decoder = c.panel.decoder := by
  unfold Chip.settleGapComplete
  (repeat' split) <;> simp

@[simp] theorem Chip.staleExpiry_frame (i : ChanId) (c : Chip) :
    (Chip.staleExpiry i c).pins = c.pins ∧ (Chip.staleExpiry i c).sup = c.sup ∧ (Chip.staleExpiry i c).tick = c.tick
    ∧ (Chip.staleExpiry i c).link.station = c.link.station ∧ (Chip.staleExpiry i c).link.rateFast = c.link.rateFast
    ∧ (Chip.staleExpiry i c).link.rx = c.link.rx ∧ (Chip.staleExpiry i c).link.gapDone = c.link.gapDone
    ∧ (Chip.staleExpiry i c).eng = c.eng ∧ (Chip.staleExpiry i c).trk.cycle = c.trk.cycle
    ∧ (Chip.staleExpiry i c).trk.voids = c.trk.voids ∧ (Chip.staleExpiry i c).trk.ctx = c.trk.ctx
    ∧ (Chip.staleExpiry i c).load.life = c.load.life ∧ (Chip.staleExpiry i c).role = c.role
    ∧ (Chip.staleExpiry i c).cal = c.cal ∧ (Chip.staleExpiry i c).panel.settings = c.panel.settings
    ∧ (Chip.staleExpiry i c).panel.page = c.panel.page ∧ (Chip.staleExpiry i c).panel.keys = c.panel.keys
    ∧ (Chip.staleExpiry i c).panel.decoder = c.panel.decoder ∧ (Chip.staleExpiry i c).store = c.store := by
  unfold Chip.staleExpiry
  (repeat' split) <;> simp

@[simp] theorem Chip.lossTimerExpiry_frame (i : ChanId) (c : Chip) :
    (Chip.lossTimerExpiry i c).pins = c.pins ∧ (Chip.lossTimerExpiry i c).sup = c.sup
    ∧ (Chip.lossTimerExpiry i c).tick = c.tick ∧ (Chip.lossTimerExpiry i c).link = c.link
    ∧ (Chip.lossTimerExpiry i c).eng = c.eng ∧ (Chip.lossTimerExpiry i c).trk = c.trk
    ∧ (Chip.lossTimerExpiry i c).load = c.load ∧ (Chip.lossTimerExpiry i c).role = c.role
    ∧ (Chip.lossTimerExpiry i c).cal = c.cal ∧ (Chip.lossTimerExpiry i c).panel.settings = c.panel.settings
    ∧ (Chip.lossTimerExpiry i c).panel.page = c.panel.page ∧ (Chip.lossTimerExpiry i c).panel.keys = c.panel.keys
    ∧ (Chip.lossTimerExpiry i c).panel.decoder = c.panel.decoder ∧ (Chip.lossTimerExpiry i c).store = c.store := by
  simp [Chip.lossTimerExpiry]

@[simp] theorem Chip.rateTimerExpiry_frame (c : Chip) :
    (Chip.rateTimerExpiry c).pins = c.pins ∧ (Chip.rateTimerExpiry c).sup = c.sup
    ∧ (Chip.rateTimerExpiry c).tick = c.tick ∧ (Chip.rateTimerExpiry c).link = c.link
    ∧ (Chip.rateTimerExpiry c).eng = c.eng ∧ (Chip.rateTimerExpiry c).trk = c.trk
    ∧ (Chip.rateTimerExpiry c).load = c.load ∧ (Chip.rateTimerExpiry c).role = c.role
    ∧ (Chip.rateTimerExpiry c).cal = c.cal ∧ (Chip.rateTimerExpiry c).alarm = c.alarm
    ∧ (Chip.rateTimerExpiry c).panel = c.panel ∧ (Chip.rateTimerExpiry c).store = c.store := by
  simp [Chip.rateTimerExpiry]

end Sys2Proof.Machine
end

