-- ==== Sys2Proof/Laws/Alarm.lean ====
section
/-! SUPPORT. What the alarm unit's operations can do: one record changes, of the panel the buzzer alone, and in RUN a record
takes the condition it is handed. -/

namespace Sys2Proof.Machine

@[simp] theorem AlarmUnit.get_put_self (u : AlarmUnit) (a : Alarm) (r : AlarmRec) : (u.put a r).get a = r := by
  cases a <;> rfl

theorem AlarmUnit.get_put_ne (u : AlarmUnit) (a b : Alarm) (r : AlarmRec) (h : b ≠ a) :
    (u.put a r).get b = u.get b := by
  cases a <;> cases b <;> first | rfl | exact absurd rfl h

@[simp] theorem Chip.setAlarms_alarm (u : AlarmUnit) (c : Chip) : (Chip.setAlarms u c).alarm = u := by
  unfold Chip.setAlarms
  dsimp only
  (repeat' split) <;> simp

theorem Chip.setAlarms_panel (u : AlarmUnit) (c : Chip) : c.onlyBuzzer (Chip.setAlarms u c) := by
  unfold Chip.onlyBuzzer Chip.setAlarms
  dsimp only
  (repeat' split) <;> simp [Chip.mapBuz]

@[simp] theorem Chip.oneShot_alarm (a : Alarm) (c : Chip) : (Chip.oneShot a c).alarm = c.alarm := by
  unfold Chip.oneShot
  (repeat' split) <;> simp

theorem Chip.oneShot_panel (a : Alarm) (c : Chip) : c.onlyBuzzer (Chip.oneShot a c) := by
  unfold Chip.onlyBuzzer Chip.oneShot
  (repeat' split) <;> simp [Chip.mapBuz]

/-- A chain of changes of the buzzer is a change of the buzzer. -/
theorem Chip.onlyBuzzer_trans (c d e : Chip) (h : c.onlyBuzzer d) (h' : d.onlyBuzzer e) : c.onlyBuzzer e := by
  unfold Chip.onlyBuzzer at *
  rw [h', h]

theorem Chip.takeCond_others (a b : Alarm) (v : Bool) (c : Chip) (h : b ≠ a) :
    (Chip.takeCond a v c).alarm.get b = c.alarm.get b := by
  unfold Chip.takeCond
  dsimp only
  (repeat' split) <;> simp [AlarmUnit.get_put_ne _ _ _ _ h]

theorem Chip.takeCond_panel (a : Alarm) (v : Bool) (c : Chip) : c.onlyBuzzer (Chip.takeCond a v c) := by
  unfold Chip.takeCond
  dsimp only
  (repeat' split) <;>
    first
    | rfl
    | exact Chip.onlyBuzzer_trans _ _ _ (Chip.setAlarms_panel _ _) (Chip.oneShot_panel _ _)
    | exact Chip.setAlarms_panel _ _

theorem Chip.refresh_others (a b : Alarm) (c : Chip) (h : b ≠ a) :
    (Chip.refresh a c).alarm.get b = c.alarm.get b := Chip.takeCond_others _ _ _ _ h

theorem Chip.refresh_panel (a : Alarm) (c : Chip) : c.onlyBuzzer (Chip.refresh a c) := Chip.takeCond_panel _ _ _

/-- In RUN a record rises, falls, or stays by the value handed over (R123, R124). -/
theorem Chip.takeCond_self (a : Alarm) (v : Bool) (c : Chip) (h : c.inRun = true) :
    (Chip.takeCond a v c).alarm.get a =
      if (c.alarm.get a).cond = v then c.alarm.get a
      else if v then (c.alarm.get a).rise c.tick else (c.alarm.get a).fall := by
  unfold Chip.takeCond
  simp only [h, Bool.not_true, Bool.false_or, beq_iff_eq]
  (repeat' split) <;> simp_all

/-- Outside RUN no condition is taken (R130). -/
theorem Chip.takeCond_suspended (a : Alarm) (v : Bool) (c : Chip) (h : c.inRun = false) : Chip.takeCond a v c = c := by
  unfold Chip.takeCond
  simp [h]

@[simp] theorem AlarmRec.rise_cond (now : Tick) (r : AlarmRec) : (r.rise now).cond = true := rfl

@[simp] theorem AlarmRec.fall_cond (r : AlarmRec) : r.fall.cond = false := by
  unfold AlarmRec.fall
  dsimp only
  (repeat' split) <;> rfl

/-- In RUN a record that is handed its condition holds it (R122). -/
theorem Chip.refresh_cond (a : Alarm) (c : Chip) (h : c.inRun = true) :
    ((c.refresh a).alarm.get a).cond = c.cond a := by
  unfold Chip.refresh
  rw [Chip.takeCond_self _ _ _ h]
  (repeat' split) <;> simp_all

/-- A record at a change of its mode and mask (R125). -/
theorem AlarmRec.reconfigured_eq (r : AlarmRec) (mode mask)
    (now) : r.reconfigured mode mask now = r.reconfigure now mode mask := by
  obtain ⟨c, l, a, mo, ma, mt⟩ := r
  unfold AlarmRec.reconfigured AlarmRec.reconfigure AlarmRec.takeMode AlarmRec.takeMask AlarmRec.modeLatches
      AlarmRec.clearLatch
  cases mo <;> cases mode <;> cases ma <;> cases mask <;> cases l <;> cases a <;> cases c <;> simp

/-- A record handed a value (R123, R124). -/
theorem AlarmRec.handed_eq (r : AlarmRec)
    (v now) : r.handed v now = if r.cond = v then r else if v then r.rise now else r.fall := by
  obtain ⟨c, l, a, mo, ma, mt⟩ := r
  unfold AlarmRec.handed AlarmRec.rise AlarmRec.fall AlarmRec.riseTimer AlarmRec.clearLatch
  cases mo <;> cases ma <;> cases l <;> cases a <;> cases c <;> cases v <;> simp

/-- The value handed over is the condition. -/
theorem AlarmRec.handed_cond (r : AlarmRec) (v now) : (r.handed v now).cond = v := by
  rw [AlarmRec.handed_eq]; (repeat' split) <;> simp_all

/-- A value handed over twice moves nothing the second time. -/
theorem AlarmRec.handed_twice (r : AlarmRec) (v now) : (r.handed v now).handed v now = r.handed v now := by
  rw [AlarmRec.handed_eq (r.handed v now)]; rw [AlarmRec.handed_cond]; simp

/-- A record handed its present condition. -/
theorem Chip.refresh_handed (a : Alarm) (c : Chip)
    (h : c.inRun = true) : (c.refresh a).alarm.get a = (c.alarm.get a).handed (c.cond a) c.tick := by
  unfold Chip.refresh; rw [Chip.takeCond_self _ _ _ h, AlarmRec.handed_eq]

/-- A condition handed over leaves every condition. -/
theorem Chip.refresh_cond_eq (a b : Alarm) (c : Chip) : (c.refresh a).cond b = c.cond b := by
  cases b <;> simp [Chip.cond, Chip.inputFault, Chip.setInvalid, Chip.overloaded, Chip.isWeigher, Chip.cfg, Chip.inRun]

/-- A condition handed over leaves RUN. -/
theorem Chip.refresh_inRun (a : Alarm) (c : Chip) : (c.refresh a).inRun = c.inRun := by simp [Chip.inRun]

/-- Conditions handed over one after another reach their own records alone. -/
theorem Chip.refresh_list (l : List Alarm) (hn : l.Nodup) (c : Chip) (h : c.inRun = true) (a : Alarm) :
   (l.foldl (fun c a => c.refresh a) c).alarm.get a = if a ∈ l then (c.alarm.get a).handed
       (c.cond a) c.tick else c.alarm.get a := by
  induction l generalizing c with
  | nil => simp
  | cons b l ih =>
    rw [List.foldl, ih (by simp only [List.nodup_cons] at hn; exact hn.2) _ (by rw [Chip.refresh_inRun]; exact h)]
    rw [Chip.refresh_cond_eq]
    simp only [List.nodup_cons] at hn
    have ht : (c.refresh b).tick = c.tick := by simp
    rw [ht]
    by_cases hab : a = b
    · subst hab
      simp only [hn.1, if_false, List.mem_cons, true_or, if_true]
      exact Chip.refresh_handed a c h
    · rw [Chip.refresh_others _ _ _ hab]; simp [hab]

/-- Each record handed its present condition. -/
theorem Chip.refreshAlarms_get (c : Chip) (h : c.inRun = true)
    (a : Alarm) : c.refreshAlarms.alarm.get a = (c.alarm.get a).handed (c.cond a) c.tick := by
  unfold Chip.refreshAlarms
  rw [Chip.refresh_list _ (by decide) c h a]
  rw [if_pos (by cases a <;> decide)]

/-- Each record after a change of modes and masks in RUN (R125). -/
theorem Chip.reconfigureAlarms_get (c : Chip) (h : c.inRun = true) (a : Alarm) :
    c.reconfigureAlarms.alarm.get a = (c.alarm.get a).reconfigured (c.cfg.alarmMode a) (c.cfg.alarmMask a) c.tick := by
  unfold Chip.reconfigureAlarms
  rw [if_pos h]
  have : ∀ (l : List Alarm) (x : Chip), (l.foldl (fun c a => c.oneShot a) x).alarm = x.alarm := by
    intro l; induction l with
    | nil => intro x; rfl
    | cons b l ih => intro x; rw [List.foldl, ih]; simp
  rw [this, Chip.setAlarms_alarm, AlarmRec.reconfigured_eq]
  unfold AlarmUnit.reconfigure
  cases a <;> rfl

end Sys2Proof.Machine
end

