-- ==== Sys2Proof/Laws/Calib.lean ====
section
/-! SUPPORT. What the review of the kept lifts can answer (R97, Table 5-6): the lowest point at which a test fails, the spread
of the kept values at a point, and the first failure. -/

namespace Sys2Proof.Machine

/-- A test that no point fails has no lowest failing point. -/
theorem firstPoint_none (bad : Fin 16 → Bool) : firstPoint bad = none ↔ ∀ k, bad k = false := by
  simp [firstPoint]

/-- The lowest failing point. -/
theorem firstPoint_some (bad : Fin 16 → Bool) (i : Fin 16) (h : bad i = true) (hl : ∀ j, j < i → bad j = false) :
    firstPoint bad = some i.val := by
  have e : (List.finRange 16).find? bad = some i := by
    rw [List.find?_eq_some_iff_getElem]
    refine ⟨h, i.val, by simp, by simp, fun j hj => ?_⟩
    simp only [List.getElem_finRange, Bool.not_eq_true']
    exact hl ⟨j, by omega⟩ hj
  unfold firstPoint
  rw [e]; rfl

theorem foldl_max_le (xs : List Int) (a m : Int) : xs.foldl max a ≤ m ↔ a ≤ m ∧ ∀ x ∈ xs, x ≤ m := by
  induction xs generalizing a with
  | nil => simp
  | cons y ys ih => rw [List.foldl_cons, ih, Int.max_le, List.forall_mem_cons, and_assoc]

theorem le_foldl_min (xs : List Int) (a m : Int) : m ≤ xs.foldl min a ↔ m ≤ a ∧ ∀ x ∈ xs, m ≤ x := by
  induction xs generalizing a with
  | nil => simp
  | cons y ys ih => rw [List.foldl_cons, ih, Int.le_min, List.forall_mem_cons, and_assoc]

/-- The range of a list is at most m where no two of its values are further apart. -/
theorem rangeOf_le (l : List Int) (h : l ≠ []) (m : Int) : rangeOf l ≤ m ↔ ∀ x ∈ l, ∀ y ∈ l, x - y ≤ m := by
  cases l with
  | nil => exact absurd rfl h
  | cons a xs =>
    simp only [rangeOf]
    have hmax := (foldl_max_le xs a _).mp (Int.le_refl _)
    have hmin := (le_foldl_min xs a _).mp (Int.le_refl _)
    refine ⟨fun hh x hx y hy => ?_, fun hh => ?_⟩
    · have hx' : x ≤ xs.foldl max a := by
        rcases List.mem_cons.mp hx with q | q
        · rw [q]; exact hmax.1
        · exact hmax.2 x q
      have hy' : xs.foldl min a ≤ y := by
        rcases List.mem_cons.mp hy with q | q
        · rw [q]; exact hmin.1
        · exact hmin.2 y q
      omega
    · have above : ∀ y ∈ a :: xs, xs.foldl max a ≤ m + y := fun y hy =>
        (foldl_max_le _ _ _).mpr
          ⟨by have := hh a (List.mem_cons_self ..) y hy; omega,
           fun x hx => by have := hh x (List.mem_cons_of_mem _ hx) y hy; omega⟩
      have : xs.foldl max a - m ≤ xs.foldl min a :=
        (le_foldl_min _ _ _).mpr
          ⟨by have := above a (List.mem_cons_self ..); omega,
           fun x hx => by have := above x (List.mem_cons_of_mem _ hx); omega⟩
      omega

/-- Two kept lifts differ at a point by more than the spread limit. -/
def differAt (spread : Int) (ls : List (Vector Int 16)) (i : Fin 16) : Prop := ∃ v ∈ ls, ∃ w ∈ ls, spread < v[i] - w[i]

theorem rangeOf_gt (ls : List (Vector Int 16)) (h : ls ≠ []) (spread : Int) (i : Fin 16) :
    spread < rangeOf (ls.map fun v => v[i]) ↔ differAt spread ls i := by
  have hle := rangeOf_le (ls.map fun v => v[i]) (by simpa using h) spread
  rw [← Int.not_le, hle]
  unfold differAt
  constructor
  · intro hn
    refine Classical.byContradiction fun hc => hn fun x hx y hy => ?_
    obtain ⟨v, hv, rfl⟩ := List.mem_map.mp hx
    obtain ⟨w, hw, rfl⟩ := List.mem_map.mp hy
    exact Int.not_lt.mp fun q => hc ⟨v, hv, w, hw, q⟩
  · rintro ⟨v, hv, w, hw, q⟩ hn
    have := hn v[i] (List.mem_map.mpr ⟨v, hv, rfl⟩) w[i] (List.mem_map.mpr ⟨w, hw, rfl⟩)
    omega

/-- Tests 1 and 2 pass (Table 5-6). -/
theorem inconsistentAt_none (spread : Int) (ls : List (Vector Int 16)) (h : ls ≠ []) :
    inconsistentAt spread ls = none ↔ ∀ i, ¬differAt spread ls i := by
  unfold inconsistentAt
  rw [firstPoint_none]
  refine forall_congr' fun i => ?_
  rw [decide_eq_false_iff_not, rangeOf_gt ls h]

/-- Tests 1 and 2 fail at their lowest point (Table 5-6). -/
theorem inconsistentAt_some (spread : Int) (ls : List (Vector Int 16)) (h : ls ≠ []) (i : Fin 16)
    (hi : differAt spread ls i) (hl : ∀ j, j < i → ¬differAt spread ls j) : inconsistentAt spread ls = some i.val := by
  refine firstPoint_some _ i ?_ fun j hj => ?_
  · rw [decide_eq_true_iff, rangeOf_gt ls h]; exact hi
  · rw [decide_eq_false_iff_not, rangeOf_gt ls h]; exact hl j hj

/-- A value of a formed curve (R97). -/
theorem curveOf_get (ls : List (Vector Int 16)) (i : Fin 16) : (curveOf ls)[i] = meanAt ls i := by simp [curveOf]

/-- The review leaves the curves dropped and the failure recorded, or the curves formed (R97). -/
theorem CalUnit.review_facts (cfg : Cfg) (u : CalUnit) :
    (∀ f, reviewFailure cfg u = some f → u.review cfg = { u with curves := none, failure := some f, state := .failed })
      ∧ (reviewFailure cfg u = none → u.review cfg =
          { u with curves := some (curveOf u.keptEmpty, curveOf u.keptLoaded), browse := 0, state := .review }) := by
  unfold CalUnit.review
  exact ⟨fun f h => by rw [h], fun h => by rw [h]⟩

end Sys2Proof.Machine
end

