-- ==== Sys2Proof/Laws/Link.lean ====
section
/-! SUPPORT. What the link's operations can do: offers to the event queue, and the end of an event. -/

namespace Sys2Proof.Machine

@[simp] theorem Chip.settleLink_link (c : Chip) : c.settleLink.link = c.link.settle c.maySend := rfl

@[simp] theorem Chip.settleLink_maySend (c : Chip) : c.settleLink.maySend = c.maySend := rfl

/-- Permission depends on the power state and the role alone (R155). -/
theorem Chip.maySend_congr (c d : Chip) (h : d.sup = c.sup) (h' : d.role = c.role) : d.maySend = c.maySend := by
  simp [Chip.maySend, h, h']

theorem Chip.takesOffer_congr (c d : Chip) (k : Kind) (h : d.sup = c.sup) (h' : d.role = c.role) :
    d.takesOffer k = c.takesOffer k := by
  simp [Chip.takesOffer, h, h']

theorem Link.enqueue_queue (t : OutTg) (l : Link) (h : l.queue.length < 8) : (l.enqueue t).queue = l.queue ++ [t] := by
  simp only [Link.enqueue]
  rw [if_neg (by omega)]

theorem Chip.offer_queue (t : OutTg) (c : Chip) (h : c.takesOffer t.kind = true) (hl : c.link.queue.length < 8) :
    (c.offer t).link.queue = c.link.queue ++ [t] := by
  simp [Chip.offer, h, Link.enqueue_queue _ _ hl]

theorem Chip.offer_discarded (t : OutTg) (c : Chip) (h : c.takesOffer t.kind = false) : c.offer t = c := by
  simp [Chip.offer, h]

/-- Offers that are all taken join the newest end in order (R156). -/
theorem Chip.offerAll_queue (ts : List OutTg) (c : Chip) (h : ∀ t ∈ ts, c.takesOffer t.kind = true)
    (hl : c.link.queue.length + ts.length ≤ 8) : (c.offerAll ts).link.queue = c.link.queue ++ ts := by
  induction ts generalizing c with
  | nil => simp [Chip.offerAll]
  | cons t ts ih =>
    have ht : c.takesOffer t.kind = true := h t (by simp)
    have hq := Chip.offer_queue t c ht (by simp at hl; omega)
    have e : c.offerAll (t :: ts) = (c.offer t).offerAll ts := rfl
    rw [e, ih, hq]
    · simp
    · intro u hu
      rw [Chip.takesOffer_congr c]
      · exact h u (by simp [hu])
      · simp
      · simp
    · rw [hq]
      simp at hl ⊢
      omega

theorem Chip.offerAll_discarded (ts : List OutTg) (c : Chip) (h : ∀ t ∈ ts, c.takesOffer t.kind = false) :
    c.offerAll ts = c := by
  induction ts with
  | nil => rfl
  | cons t ts ih =>
    have e : c.offerAll (t :: ts) = (c.offer t).offerAll ts := rfl
    rw [e, Chip.offer_discarded _ _ (h t (by simp))]
    exact ih (fun u hu => h u (by simp [hu]))

/-- A slot written before the choice is chosen ahead of the TRUCK STATUS slot, which stays as it is (R158). -/
theorem Link.settle_tslot (m : Bool) (l : Link) (w : OutTg) (h : l.wslot = some w) : (l.settle m).tslot = l.tslot := by
  have hc : l.choose.tslot = l.tslot := by
    unfold Link.choose
    (repeat' split) <;> simp_all
  unfold Link.settle Link.opportunity
  dsimp only
  (repeat' split) <;> simp_all

/-- A slot written before the choice waits on, or is copied out as the telegram in hand (R158). -/
theorem Link.settle_wslot (m : Bool) (l : Link) (w : OutTg) (h : l.wslot = some w) :
    (l.settle m).wslot = some w ∨ ∃ x, (l.settle m).inHand = some x ∧ x.origin = .wslot w := by
  have hc : l.choose.wslot = some w ∨ ∃ x, l.choose.inHand = some x ∧ x.origin = .wslot w := by
    unfold Link.choose
    (repeat' split) <;> simp_all
  unfold Link.settle Link.opportunity
  dsimp only
  (repeat' split) <;> simp_all

end Sys2Proof.Machine
end

