-- ==== Sys2Proof/Laws/Load.lean ====
section
/-! SUPPORT. What the load register's operations can do to the load register: the sequence, an opening, a close, a pass
that joins, the target figures. -/

namespace Sys2Proof.Machine

/-- The figures of a record but for its flags. -/
def TruckRec.figures (r : TruckRec) : Nat × Option Nat × List PassRec × Nat × Nat × Nat :=
  (r.id, r.target, r.passes, r.count, r.unweighed, r.total)

theorem Chip.raiseSeq_load (c : Chip) : c.raiseSeq.load = { c.load with seq := c.load.seq + 1 } := by
  unfold Chip.raiseSeq Chip.writeTruckSlot
  (repeat' split) <;> simp

@[simp] theorem Chip.writeOwn_load (r : TruckRec) (c : Chip) :
    (c.writeOwn r).load = { c.load with record := some r } := rfl

/-- The part's own write makes the origin OWN, and moves nothing else of the arbiter (R104 note b). -/
@[simp] theorem Chip.writeOwn_role (r : TruckRec) (c : Chip) :
    (c.writeOwn r).role = { c.role with mirrored := false } := rfl

/-- The target figures move the record's flags alone (R71). -/
theorem Chip.evaluateRecord_load (c : Chip) :
    c.evaluateRecord.load = { c.load with record := c.evaluateRecord.load.record }
      ∧ c.evaluateRecord.load.record.map TruckRec.figures = c.load.record.map TruckRec.figures := by
  unfold Chip.evaluateRecord
  refine ⟨?_, ?_⟩
  · (repeat' split) <;> simp [Chip.setRecord]
  · (repeat' split) <;> simp [Chip.setRecord, TruckRec.evaluate, TruckRec.figures, *]

/-- A change of the flags raises the sequence once (R67, R111). -/
theorem Chip.reevaluate_load (c : Chip) :
    c.reevaluate.load = { c.load with
        record := c.reevaluate.load.record
        seq := if c.reevaluate.load.record = c.load.record then c.load.seq else c.load.seq + 1 }
      ∧ c.reevaluate.load.record.map TruckRec.figures = c.load.record.map TruckRec.figures := by
  obtain ⟨h1, h2⟩ := c.evaluateRecord_load
  unfold Chip.reevaluate
  dsimp only
  split
  · rename_i h
    refine ⟨?_, h2⟩
    simp only [h]
    rw [h1, h]
  · rename_i h
    rw [Chip.raiseSeq_load]
    refine ⟨?_, h2⟩
    simp only [h, if_false]
    rw [h1]

theorem Chip.openRecord_load (id : Nat) (target : Option Nat) (c : Chip) :
    (c.openRecord id target).load =
        { c.load with seq := c.load.seq + 1, record := (c.openRecord id target).load.record }
      ∧ (c.openRecord id target).load.record.map TruckRec.figures = some (id, target, [], 0, 0, 0) := by
  unfold Chip.openRecord
  simp only [Chip.raiseSeq_load, (Chip.evaluateRecord_load _).2]
  refine ⟨?_, ?_⟩
  · rw [(Chip.evaluateRecord_load _).1]
    simp
  · simp [TruckRec.fresh, TruckRec.figures]

@[simp] theorem Chip.openRecord_role (id : Nat) (target : Option Nat) (c : Chip) :
    (c.openRecord id target).role = { c.role with mirrored := false } := by
  simp [Chip.openRecord]

/-- A close of an open record (R79, R80): a record with passes joins the ring and, unless YIELDED, counts a truck. -/
theorem Chip.closeRecord_load (reason : CloseReason) (c : Chip) (r : TruckRec) (h : c.load.record = some r) :
    (c.closeRecord reason).load = { c.load with
      record := none
      seq := c.load.seq + 1
      history :=
        if r.count = 0 then c.load.history
        else (if 16 ≤ c.load.history.length then c.load.history.drop 1 else c.load.history)
          ++ [⟨c.load.nextHist, r.id, r.target, r.total, r.count, r.unweighed, reason, r.flags.amendedAny⟩]
      nextHist := if r.count = 0 then c.load.nextHist else c.load.nextHist + 1
      shift :=
        if r.count = 0 ∨ reason = .yielded then c.load.shift
        else { c.load.shift with trucks := min 65535 (c.load.shift.trucks + 1) } } := by
  unfold Chip.closeRecord
  simp only [h, Chip.removeRecord, Chip.raiseSeq_load]
  by_cases h0 : r.count = 0
  · simp [h0, Chip.setRecord]
  · simp only [h0, if_false, Chip.recordSummary]
    split
    · rename_i hy
      simp [hy, Chip.setRecord, Chip.appendSummary, LoadRegister.append, TruckRec.summary]
    · rename_i hy
      split <;>
        simp [hy, Chip.setRecord, Chip.countTruck, Chip.appendSummary, LoadRegister.append, TruckRec.summary, bump,
            satAdd]

/-- A pass joins the open record (R68, R69). -/
theorem Chip.joinRecord_load (p : PassRec) (c : Chip) (r : TruckRec) (h : c.load.record = some r) :
    (c.joinRecord p).1 = r.numbered p
      ∧ (c.joinRecord p).2.load =
          { c.load with seq := c.load.seq + 1, record := (c.joinRecord p).2.load.record }
      ∧ (c.joinRecord p).2.load.record.map TruckRec.figures =
          some (r.id, r.target, (r.join p).passes, (r.join p).count, (r.join p).unweighed, (r.join p).total) := by
  have e : c.joinRecord p =
      (r.numbered p,
        (let c' := c.writeOwn (r.join p)
         (if c'.isActive then c'.offer (sendPass (r.numbered p)) else c').evaluateRecord.raiseSeq)) := by
    simp [Chip.joinRecord, h]
  rw [e]
  refine ⟨rfl, ?_, ?_⟩
  · dsimp only
    rw [Chip.raiseSeq_load]
    split <;> rw [(Chip.evaluateRecord_load _).1] <;> simp
  · dsimp only
    simp only [Chip.raiseSeq_load]
    split <;> rw [(Chip.evaluateRecord_load _).2] <;> simp [TruckRec.join, TruckRec.figures]

/-- A pass that joins makes the origin OWN (R104 note b). -/
theorem Chip.joinRecord_role (p : PassRec) (c : Chip) (r : TruckRec) (h : c.load.record = some r) :
    (c.joinRecord p).2.role = { c.role with mirrored := false } := by
  have e : (c.joinRecord p).2 =
      (let c' := c.writeOwn (r.join p)
       (if c'.isActive then c'.offer (sendPass (r.numbered p)) else c').evaluateRecord.raiseSeq) := by
    simp [Chip.joinRecord, h]
  rw [e]
  dsimp only
  split <;> simp

/-- With no record open, a stockpile record opens for the pass: its first, and two raises (R78, R67). -/
theorem Chip.joinRecord_stockpile (p : PassRec) (c : Chip) (h : c.load.record = none) :
    (c.joinRecord p).1 = { p with truckId := 0, number := 1 }
      ∧ (c.joinRecord p).2.load =
          { c.load with seq := c.load.seq + 2, record := (c.joinRecord p).2.load.record }
      ∧ (c.joinRecord p).2.load.record.map TruckRec.figures =
          some (0, none, [{ p with truckId := 0, number := 1 }], 1, if p.payload.isNone then 1 else 0,
            min 99999 (p.payload.getD 0))
      ∧ (c.joinRecord p).2.role = { c.role with mirrored := false } := by
  obtain ⟨h1, h2⟩ := c.openRecord_load 0 none
  obtain ⟨r, hr, hf⟩ := Option.map_eq_some_iff.mp h2
  have e : c.joinRecord p = (c.openRecord 0 none).joinRecord p := by simp [Chip.joinRecord, h, hr]
  obtain ⟨j1, j2, j3⟩ := Chip.joinRecord_load p _ r hr
  simp only [TruckRec.figures, Prod.mk.injEq] at hf
  obtain ⟨hi, ht, hp, hc, hu, htot⟩ := hf
  rw [e]
  refine ⟨?_, ?_, ?_, ?_⟩
  · rw [j1]
    simp [TruckRec.numbered, hi, hc, satAdd]
  · rw [j2, h1]
    simp [BitVec.add_assoc]
  · rw [j3]
    simp [TruckRec.join, TruckRec.numbered, joinList, numbers, hi, ht, hp, hc, hu, htot, satAdd]
  · rw [Chip.joinRecord_role _ _ _ hr, Chip.openRecord_role]

/-- An amendment raises the sequence once and rewrites the pass in place (R45, R67). -/
theorem Chip.amendRecord_load (p : PassRec) (m : Nat) (c : Chip) (r : TruckRec) (h : c.load.record = some r) :
    (c.amendRecord p m).load = { c.load with seq := c.load.seq + 1, record := (c.amendRecord p m).load.record }
      ∧ (c.amendRecord p m).load.record.map TruckRec.figures =
          some (r.id, r.target, replacePass p r.passes, r.count, r.unweighed, r.total - m) := by
  unfold Chip.amendRecord
  simp only [h]
  refine ⟨?_, ?_⟩
  · rw [Chip.raiseSeq_load]
    split <;> rw [(Chip.evaluateRecord_load _).1] <;> simp
  · simp only [Chip.raiseSeq_load]
    split <;> rw [(Chip.evaluateRecord_load _).2] <;> simp [TruckRec.amend, TruckRec.figures]

/-- An amendment of the open record makes its origin OWN (R104 note b). -/
theorem Chip.amendRecord_role (p : PassRec) (m : Nat) (c : Chip) (r : TruckRec) (h : c.load.record = some r) :
    (c.amendRecord p m).role = { c.role with mirrored := false } := by
  simp only [Chip.amendRecord, h]
  split <;> simp

/-- A tag that names the open record brings its target to the tag's, as a change of the record where it differs (R74). -/
theorem Chip.retarget_load (target : Option Nat) (c : Chip) (r : TruckRec) (h : c.load.record = some r)
    (hn : r.target ≠ target) :
    (c.retarget target).load = { c.load with seq := c.load.seq + 1, record := (c.retarget target).load.record }
      ∧ (c.retarget target).load.record.map TruckRec.figures =
          some (r.id, target, r.passes, r.count, r.unweighed, r.total)
      ∧ (c.retarget target).role = { c.role with mirrored := false } := by
  simp only [Chip.retarget, h, if_neg hn]
  refine ⟨?_, ?_, by simp⟩
  · rw [Chip.raiseSeq_load, (Chip.evaluateRecord_load _).1]
    simp
  · simp only [Chip.raiseSeq_load, (Chip.evaluateRecord_load _).2]
    simp [TruckRec.figures]

/-- A tag leaves the arbiter as it stands, but that a record it opens or retargets is the part's own (R104 note b). -/
theorem Chip.takeTag_role (c : Chip) : c.takeTag.role = { c.role with mirrored := c.takeTag.role.mirrored } := by
  unfold Chip.takeTag Chip.tagPresent Chip.tagGone Chip.retarget Chip.setRefused
  dsimp only
  (repeat' split) <;> simp

theorem Chip.takeTag_mirrored (c : Chip) (h : c.role.mirrored = false) : c.takeTag.role.mirrored = false := by
  unfold Chip.takeTag Chip.tagPresent Chip.tagGone Chip.retarget Chip.setRefused
  dsimp only
  (repeat' split) <;> simp [h]

/-- In a part whose origin is OWN the held tag leaves the arbiter as it stands. -/
theorem Chip.takeHeldTag_role (c : Chip) (h : c.role.mirrored = false) : c.takeHeldTag.role = c.role := by
  unfold Chip.takeHeldTag
  split
  · rw [Chip.takeTag_role, Chip.takeTag_mirrored c h, ← h]
  · rfl

end Sys2Proof.Machine
end

