-- ==== Sys2Proof/Laws/Receive.lean ====
section
/-! SUPPORT. The path of a telegram to its consumer, once for every telegram command, and the step of every command. -/

namespace Sys2Proof.Machine

/-- A command whose meaning is an effect on the part gives what the effect gives. -/
theorem gives_act (i : Instr) (s : State) (f : Chip → Chip) (P : Chip → Prop) (hi : exec i s = s.act f)
    (h : P (f s.chip)) : Gives i s P := ⟨{ s with chip := f s.chip }, hi, rfl, h⟩

/-- While the part runs, a command taken only then has its effect. -/
theorem Chip.whenUp_up (f : Chip → Chip) (c : Chip) (h : c.sup.life = .up) : Chip.whenUp f c = f c := by
  simp [Chip.whenUp, h]

@[simp] theorem Link.runEnded_fields (l : Link) :
    l.runEnded.rx = .idle ∧ l.runEnded.gapDone = true ∧ l.runEnded.queue = l.queue ∧ l.runEnded.inHand = l.inHand
    ∧ l.runEnded.wslot = l.wslot ∧ l.runEnded.tslot = l.tslot := by
  unfold Link.runEnded Link.busTaken
  split <;> simp

/-- A receiver that is not in SKIP, or counts a delay, takes the run (R150, Table 9-6). -/
theorem Link.takes (l : Link) (h : l.rx = .skip → l.access = .delay) : l.skips = false := by
  unfold Link.skips
  cases hr : l.rx <;> simp_all

/-- A receiver in SKIP with no delay counted does not (R150). -/
theorem Link.skips_of (l : Link) (h : l.rx = .skip) (ha : l.access ≠ .delay) : l.skips = true := by
  simp [Link.skips, h, ha]

/-- A telegram that the part hears goes through the filter. -/
theorem Chip.receive_hears (code src dst : Byte) (data : List Byte) (c : Chip) (h : c.Hears src dst data) :
    Chip.whenUp (Chip.receive code src dst data) c =
      ((match (c.mapLink Link.runEnded).filter ⟨code, src, dst, data⟩ with
        | some k => (c.mapLink Link.runEnded).consumeInRun k src dst data
        | none => c.mapLink Link.runEnded)).settleLink := by
  obtain ⟨hl, hp, hr, hk, ha, hd, hs1, hs2, hs3, hdst⟩ := h
  have e1 : c.listening = true := by simp [Chip.listening, hl, hr, ha]
  have e2 : dataFits data = true := by simp [dataFits, hd]
  have e3 : ¬((c.mapLink Link.runEnded).link.station ≠ 0 ∧ src.toNat = (c.mapLink Link.runEnded).link.station
      ∧ (c.mapLink Link.runEnded).inRun = true) := by
    intro hh; exact hs3 (by simpa using hh.2.1)
  rw [Chip.whenUp_up _ _ hl]
  simp only [Chip.receive, e1, e2, Bool.and_self, if_true, Chip.takeWhole]
  rw [Link.takes _ hk, if_neg (by decide), if_neg e3]
  split <;> simp_all [Chip.consume]

/-- The filter accepts a telegram of a known kind that the part hears: of a sensor kind, from a source of one of its
channels; of a service kind, not to destination 0 (Table 9-3). -/
theorem Chip.filter_hears (code src dst : Byte) (data : List Byte) (c : Chip) (k : Kind) (h : c.Hears src dst data)
    (hk : Kind.ofCode code = some k) (hs : c.cfg.hears k src.toNat = true) (hd : k.isService = true → dst ≠ 0) :
    (c.mapLink Link.runEnded).filter ⟨code, src, dst, data⟩ = some k := by
  obtain ⟨hl, hp, hr, hq, ha, hf, hs1, hs2, hs3, hdst⟩ := h
  have e1 : ¬(dst ≠ 0 ∧ dst.toNat ≠ (c.mapLink Link.runEnded).link.station) := by
    rintro ⟨x, y⟩
    rcases hdst with hd | hd
    · exact x hd
    · exact y (by simpa using hd)
  have e2 : ¬(src.toNat < 1 ∨ 31 < src.toNat) := by omega
  have e3 : (c.mapLink Link.runEnded).cfg = c.cfg := rfl
  simp only [Chip.filter]
  rw [if_neg e1, if_neg e2]
  simp only [hk, e3, hs]
  cases hsv : k.isService <;> simp_all

/-- A telegram of a known kind that the part hears reaches its consumer. -/
theorem Chip.receive_consumes (code src dst : Byte) (data : List Byte) (c : Chip) (k : Kind) (h : c.Hears src dst data)
    (hk : Kind.ofCode code = some k) (hs : c.cfg.hears k src.toNat = true) (hd : k.isService = true → dst ≠ 0) :
    Chip.whenUp (Chip.receive code src dst data) c =
      ((c.mapLink Link.runEnded).consumeInRun k src dst data).settleLink := by
  rw [Chip.receive_hears _ _ _ _ _ h, Chip.filter_hears _ _ _ _ _ _ h hk hs hd]

/-- A timer that has run out is due. -/
theorem due_of_ranOut (len : Nat) (timer : Option Tick) (now : Tick) (h : ranOut len timer now) :
    due len timer now = true := by
  obtain ⟨since, rfl, h⟩ := h
  simp [due, h]

/-- A kind outside the known ones has no code (R153 test 3). -/
theorem Kind.ofCode_unknown (b : Byte) (h : knownCodes.contains b = false) : Kind.ofCode b = none := by
  revert b
  decide

/-- Every telegram command is the reception of its telegram. -/
theorem exec_telegram (s : State) (i : Instr) (src dst : Byte) (data : List Byte)
    (h : telegramOf i = some (src, dst, data)) (hw : i.wf = true) :
    exec i s = s.act (Chip.whenUp (Chip.receive (codeOf i) src dst data)) ∧ dataFits data = true := by
  cases i <;> simp only [telegramOf, Option.some.injEq, Prod.mk.injEq, reduceCtorEq] at h <;>
    obtain ⟨rfl, rfl, rfl⟩ := h
  case unknownKindTelegram k a b e =>
    simp only [Instr.wf, Bool.and_eq_true, Bool.not_eq_true'] at hw
    refine ⟨?_, hw.1⟩
    have e : Chip.receiveUnknown k a b e = Chip.receive k a b e := by
      funext c
      simp [Chip.receiveUnknown, Kind.ofCode_unknown _ hw.2]
    show s.act (Chip.whenUp (Chip.receiveUnknown _ _ _ _)) = _
    rw [e]
    rfl
  all_goals exact ⟨rfl, hw⟩

/-- A whole telegram that the part receives goes to the conflict test with the run ended (R150, R152). -/
theorem Chip.receive_whole (code src dst : Byte) (data : List Byte) (c : Chip) (h : c.receives)
    (hf : dataFits data = true) :
    Chip.whenUp (Chip.receive code src dst data) c =
      ((c.mapLink Link.runEnded).takeWhole ⟨code, src, dst, data⟩).settleLink := by
  obtain ⟨h1, h2, hk, h3⟩ := h
  rw [Chip.whenUp_up _ _ h1]
  simp [Chip.receive, Chip.listening, h1, h2, h3, Link.takes _ hk, hf]

/-- A telegram in SKIP, with no delay counted, is not taken: the settle gap that ends it leaves the receiver IDLE (R150,
log 5). -/
theorem Chip.receive_skips (code src dst : Byte) (data : List Byte) (c : Chip) (h : c.sup.life = .up)
    (hk : c.link.rx = .skip) (hd : c.link.access ≠ .delay) (ha : c.link.access ≠ .send) (hf : dataFits data = true) :
    Chip.whenUp (Chip.receive code src dst data) c = (c.mapLink Link.runEnded).settleLink := by
  rw [Chip.whenUp_up _ _ h]
  simp [Chip.receive, Chip.listening, h, hk, Link.skips_of _ hk hd, ha, hf]

/-- No sensor kind: every source passes the test of sources (Table 9-3 note a). -/
theorem Cfg.hears_family (c : Cfg) (k : Kind) (src : Nat) (h : k.channels = []) : c.hears k src = true := by
  simp [Cfg.hears, h]

/-- A telegram that fails tests 3 to 5 of the filter is dropped (Table 9-3). -/
theorem Chip.filter_rejects (c : Chip) (i : Instr) (src dst : Byte) (data : List Byte)
    (h : telegramOf i = some (src, dst, data)) (hw : i.wf = true) (hn : ¬c.passesKind i) :
    (c.mapLink Link.runEnded).filter ⟨codeOf i, src, dst, data⟩ = none := by
  have e : (c.mapLink Link.runEnded).cfg = c.cfg := rfl
  simp only [Chip.filter]
  split
  · rfl
  · split
    · rfl
    · cases i <;> simp only [telegramOf, Option.some.injEq, Prod.mk.injEq, reduceCtorEq] at h <;>
        obtain ⟨rfl, rfl, rfl⟩ := h
      case unknownKindTelegram k =>
        simp only [Instr.wf, Bool.and_eq_true, Bool.not_eq_true'] at hw
        simp [codeOf, Kind.ofCode_unknown _ hw.2]
      all_goals simp [Chip.passesKind] at hn
      all_goals
        simp [codeOf, Kind.ofCode, Kind.all, Kind.code, e, Cfg.hears, Kind.channels, Cfg.source, Kind.isService]
      all_goals first | exact hn | exact Ne.symm hn | exact ⟨Ne.symm hn.1, Ne.symm hn.2⟩

/-- Every command completes, and leaves the queue as it stood. -/
theorem exec_next (i : Instr) (s : State) : ∃ t, exec i s = .next t ∧ t.pending = s.pending := by
  cases i <;> exact ⟨_, rfl, rfl⟩

end Sys2Proof.Machine
end

