-- ==== Sys2Proof/Laws/Role.lean ====
section
/-! SUPPORT. What the role arbiter's operations can do: the entries to ACTIVE and STANDBY, adoption of a record,
  the WEIGHER STATUS slot, the fallback of the watch timer. -/

namespace Sys2Proof.Machine

/-- Adoption makes the record the part's own and changes nothing else of the role (R111). -/
theorem Chip.adoptRecord_role (c : Chip) : (c.adoptRecord).role = { c.role with mirrored := false } := by
  unfold Chip.adoptRecord
  obtain ⟨x, hx⟩ : ∃ x, x =
      ((c.setRecord (if c.role.mirrored then c.load.record.map TruckRec.adopt else c.load.record)).mapRole
        fun r => { r with mirrored := false }).evaluateRecord := ⟨_, rfl⟩
  have hr : x.role = { c.role with mirrored := false } := by rw [hx]; simp
  dsimp only
  rw [← hx]; split <;> simp [hr]

/-- What every exit from a role state leaves of role, load register and link. -/
theorem Chip.leaveRole_facts (c : Chip) :
    c.leaveRole.role = { c.role with pairing := [], behind := false, noWeigher := false }
      ∧ c.leaveRole.load = { c.load with refreshTimer := none, pollTimer := none }
      ∧ c.leaveRole.link = (if c.role.state = .active then c.link.emptyT else c.link) := by
  unfold Chip.leaveRole; dsimp only; split <;> exact ⟨rfl, rfl, rfl⟩

/-- In a role state that sends, WEIGHER STATUS stands in its slot with the present figures (R105). -/
theorem Chip.writeStatus_sends (c : Chip) (h : c.inRun = true)
  (h2 : c.role.state.sends = true) :
    c.writeStatus = { c with
      role := { c.role with status := some c.tick }
      link := { c.link with wslot := some ⟨.weigherStatus, 0, c.statusData⟩ } } := by
  simp only [Chip.writeStatus, h, h2, Bool.and_self, if_true]
  rfl

/-- The target figures of a record of the part's own are those of R71. -/
theorem Chip.evaluateRecord_own (c : Chip) (h : c.role.mirrored = false) :
    c.evaluateRecord.load.record = c.load.record.map (TruckRec.evaluate c.cfg) := by
  unfold Chip.evaluateRecord
  (repeat' split) <;> simp_all [Chip.setRecord]

/-- What adoption leaves of the load register: the record with its flags, the sequence raised by a change alone (R111, R67).
-/
theorem Chip.adoptRecord_load (c : Chip) :
    let taken := (if c.role.mirrored then c.load.record.map TruckRec.adopt else c.load.record).map
      (TruckRec.evaluate c.cfg)
    (c.adoptRecord).load =
      { c.load with record := taken, seq := if taken = c.load.record then c.load.seq else c.load.seq + 1 } := by
  dsimp only
  obtain ⟨a, ha⟩ : ∃ a, a = (if c.role.mirrored then c.load.record.map TruckRec.adopt else c.load.record) := ⟨_, rfl⟩
  obtain ⟨c0, hc0⟩ : ∃ c0, c0 = ((c.setRecord a).mapRole fun r => { r with mirrored := false }) := ⟨_, rfl⟩
  have e : c.adoptRecord =
      (if c0.evaluateRecord.load.record = c.load.record then c0.evaluateRecord
      else c0.evaluateRecord.raiseSeq) := by
    rw [hc0, ha]; rfl
  have hl0 : c0.load = { c.load with record := a } := by rw [hc0]; simp [Chip.setRecord]
  have h1 := (c0.evaluateRecord_load).1
  have h2 : c0.evaluateRecord.load.record = a.map (TruckRec.evaluate c.cfg) := by
    rw [Chip.evaluateRecord_own _ (by rw [hc0]; rfl), hl0, hc0]; rfl
  rw [h2, hl0] at h1
  rw [e, ← ha, h2]
  split
  · rw [h1]
  · rw [Chip.raiseSeq_load, h1]

/-- Adoption and evaluation make of a record what R111 says. -/
theorem TruckRec.adopts (c : Chip) (r : TruckRec) :
    c.adopts r ((if c.role.mirrored then r.adopt else r).evaluate c.cfg) := by
  unfold Chip.adopts
  cases hm : c.role.mirrored <;> cases ht : r.target <;>
    simp [TruckRec.adopt, TruckRec.evaluate, TruckRec.isReached, TruckRec.isLast, TruckRec.isOver, TruckRec.remaining,
      reachLevel, overloadLevel, ht] <;> omega

/-- What the held tag leaves of the load register in a part that owns its record (R73-R75). -/
theorem Chip.heldTag_load (c : Chip) (ho : c.ownsRecord = true) :
    let tag := if c.inp.tag.freshness = .fresh ∧ c.cfg.srcTag ≠ 0 then c.inp.held.tag else none
    c.takeHeldTag.load = match tag with
      | none => c.load
      | some t => (if t.present then c.tagPresent t.id t.target else c.tagGone).load := by
  unfold Chip.takeHeldTag Chip.takeTag Chip.tagMode
  by_cases hf : c.inp.tag.freshness = .fresh <;> by_cases hm : c.cfg.srcTag = 0 <;> simp [hf, hm, ho]
  cases c.inp.held.tag <;> simp

/-- A tag with present set, of a part with no record open (Table 4-4). -/
theorem Chip.tagPresent_none (id : Nat) (target : Option Nat) (c : Chip) (h : c.load.record = none) :
    (c.load.refused = some id → (c.tagPresent id target).load = c.load)
      ∧ (c.load.refused ≠ some id → ∃ r, r.figures = (id, target, [], 0, 0, 0)
          ∧ (c.tagPresent id target).load = { c.load with refused := none, seq := c.load.seq + 1, record := some r }) := by
  refine ⟨fun hr => by simp [Chip.tagPresent, hr, h], fun hr => ?_⟩
  obtain ⟨h1, h2⟩ := (c.setRefused none).openRecord_load id target
  obtain ⟨r, h3, h4⟩ := Option.map_eq_some_iff.mp h2
  have h0 : (c.setRefused none).load.record = none := h
  have e : c.tagPresent id target = (c.setRefused none).openRecord id target := by
    simp only [Chip.tagPresent, hr, if_false, h0]
  refine ⟨r, h4, ?_⟩
  rw [e, h1, h3]
  rfl

/-- A tag with present set, of a part with a record open (Table 4-4). -/
theorem Chip.tagPresent_open (id : Nat) (target : Option Nat) (c : Chip) (r : TruckRec) (h : c.load.record = some r) :
    let refused := if c.load.refused = some id then c.load.refused else none
    (r.id = id → r.target = target → (c.tagPresent id target).load = { c.load with refused := refused })
      ∧ (r.id = id → r.target ≠ target → ∃ r', r'.figures = (r.id, target, r.passes, r.count, r.unweighed, r.total)
          ∧ (c.tagPresent id target).load =
            { c.load with refused := refused, seq := c.load.seq + 1, record := some r' })
      ∧ (r.id ≠ id → c.load.refused = some id → (c.tagPresent id target).load = c.load)
      ∧ (r.id ≠ id → c.load.refused ≠ some id → ∃ r', r'.figures = (id, target, [], 0, 0, 0)
          ∧ (c.tagPresent id target).load = { c.load with
              refused := none, seq := c.load.seq + 2, record := some r'
              history := if r.count = 0 then c.load.history else c.ringWith r .newTruck
              nextHist := if r.count = 0 then c.load.nextHist else c.load.nextHist + 1
              shift :=
                if r.count = 0 then c.load.shift
                else { c.load.shift with trucks := min 65535 (c.load.shift.trucks + 1) } }) := by
  dsimp only
  obtain ⟨c0, hc0⟩ : ∃ c0, c0 = (if c.load.refused = some id then c else c.setRefused none) := ⟨_, rfl⟩
  have l0 : c0.load = { c.load with refused := if c.load.refused = some id then c.load.refused else none } := by
    rw [hc0]
    by_cases hr : c.load.refused = some id
    · rw [if_pos hr, if_pos hr]
    · rw [if_neg hr, if_neg hr]; rfl
  have h0 : c0.load.record = some r := by rw [l0]; exact h
  have e : c.tagPresent id target =
      (if r.id = id then c0.retarget target
      else if c.load.refused = some id then c0 else (c0.closeRecord .newTruck).openRecord id target) := by
    simp only [Chip.tagPresent, ← hc0, h0]
  rw [e]
  refine ⟨fun hi ht => ?_, fun hi ht => ?_, fun hi hr => ?_, fun hi hr => ?_⟩
  · rw [if_pos hi, ← l0]; simp [Chip.retarget, h0, ht]
  · obtain ⟨h1, h2, _⟩ := Chip.retarget_load target c0 r h0 ht
    obtain ⟨r', h3, h4⟩ := Option.map_eq_some_iff.mp h2
    refine ⟨r', h4, ?_⟩
    rw [if_pos hi, h1, h3, l0]
  · rw [if_neg hi, if_pos hr, l0, if_pos hr]
  · rw [if_neg hi, if_neg hr]
    obtain ⟨h1, h2⟩ := (c0.closeRecord .newTruck).openRecord_load id target
    obtain ⟨r', h3, h4⟩ := Option.map_eq_some_iff.mp h2
    refine ⟨r', h4, ?_⟩
    rw [h1, h3, Chip.closeRecord_load _ _ _ h0, l0]
    simp [hr, Chip.ringWith, BitVec.add_assoc]

/-- The truck has gone: a record of an identity closes DEPARTED, and the refused identity is none (R75). -/
theorem Chip.tagGone_load (c : Chip) :
    ((∀ r, c.load.record = some r → r.id = 0) → c.tagGone.load = { c.load with refused := none })
      ∧ ∀ r, c.load.record = some r → r.id ≠ 0 → c.tagGone.load = { c.load with
          refused := none, seq := c.load.seq + 1, record := none
          history := if r.count = 0 then c.load.history else c.ringWith r .departed
          nextHist := if r.count = 0 then c.load.nextHist else c.load.nextHist + 1
          shift :=
            if r.count = 0 then c.load.shift
            else { c.load.shift with trucks := min 65535 (c.load.shift.trucks + 1) } } := by
  refine ⟨fun h => ?_, fun r h hi => ?_⟩
  · unfold Chip.tagGone
    cases hr : c.load.record with
    | none => simp [Chip.setRefused]
    | some r => simp [Chip.setRefused, h r hr]
  · simp only [Chip.tagGone, h, if_neg hi, Chip.setRefused, Chip.mapLoad]
    rw [Chip.closeRecord_load _ _ _ h]
    simp [Chip.ringWith]

/-- The held tag leaves the poll timer (R73-R75). -/
theorem Chip.heldTag_poll (c : Chip) (ho : c.ownsRecord = true) : c.takeHeldTag.load.pollTimer = c.load.pollTimer := by
  rw [Chip.heldTag_load c ho]
  split
  · rfl
  · rename_i t _
    split
    · cases hr : c.load.record with
      | none =>
        obtain ⟨p1, p2⟩ := Chip.tagPresent_none t.id t.target c hr
        by_cases hf : c.load.refused = some t.id
        · rw [p1 hf]
        · obtain ⟨_, _, q⟩ := p2 hf; rw [q]
      | some r =>
        obtain ⟨p1, p2, p3, p4⟩ := Chip.tagPresent_open t.id t.target c r hr
        by_cases hi : r.id = t.id
        · by_cases hg : r.target = t.target
          · rw [p1 hi hg]
          · obtain ⟨_, _, q⟩ := p2 hi hg; rw [q]
        · by_cases hf : c.load.refused = some t.id
          · rw [p3 hi hf]
          · obtain ⟨_, _, q⟩ := p4 hi hf; rw [q]
    · obtain ⟨g1, g2⟩ := c.tagGone_load
      cases hr : c.load.record with
      | none => rw [g1 (by simp [hr])]
      | some r =>
        by_cases hi : r.id = 0
        · rw [g1 (by simp [hr, hi])]
        · rw [g2 r hr hi]

/-- An entry that makes the record the part's own takes record and held tag as R111 and R73 say. -/
theorem Chip.takesRecord (c c0 d : Chip) (ho : c0.ownsRecord = true) (hi : c0.inp = c.inp) (hs : c0.store = c.store)
    (hm : c0.role.mirrored = c.role.mirrored) (hl : ∃ a b, c0.load = { c.load with refreshTimer := a, pollTimer := b })
    (hd : ∃ a b, d.load = { c0.adoptRecord.takeHeldTag.load with refreshTimer := a, pollTimer := b })
    (hdm : d.role.mirrored = false) : c.tookRecord d := by
  obtain ⟨a, b, hl⟩ := hl
  obtain ⟨x, y, hd⟩ := hd
  have hcfg : c0.cfg = c.cfg := by simp [Chip.cfg, hs]
  obtain ⟨c1, h1⟩ : ∃ c1, c1 = c0.adoptRecord := ⟨_, rfl⟩
  have l1 := Chip.adoptRecord_load c0
  rw [← h1, hl, hm, hcfg] at l1
  rw [← h1] at hd
  have ho1 : c1.ownsRecord = true := by
    rw [h1]; rw [← ho]; unfold Chip.ownsRecord Chip.isWeigher; simp [Chip.adoptRecord_role]
  have ht := Chip.heldTag_load c1 ho1
  have e1 : c1.inp = c.inp := by rw [h1]; simp [hi]
  have e2 : c1.cfg = c.cfg := by rw [← hcfg, h1]; simp [Chip.cfg]
  dsimp only at ht l1
  rw [e1, e2] at ht
  unfold Chip.tookRecord
  dsimp only
  generalize (if c.inp.tag.freshness = .fresh ∧ c.cfg.srcTag ≠ 0 then c.inp.held.tag else none) = tag at ht ⊢
  refine ⟨hdm, ?_⟩
  cases hr : c.load.record with
  | none =>
    have l2 : c1.load = { c.load with refreshTimer := a, pollTimer := b } := by
      rw [l1]; simp only [hr]; split <;> simp
    have r1 : c1.load.record = none := by rw [l2]; exact hr
    cases tag with
    | none => simp only at ht; rw [hd, ht, l2]; simp [hr]
    | some t =>
      simp only at ht
      obtain ⟨p1, p2⟩ := Chip.tagPresent_none t.id t.target c1 r1
      have p3 := (Chip.tagGone_load c1).1 (by simp [r1])
      rw [l2] at p1 p2 p3
      cases hp : t.present <;> simp only [hp, if_true, if_false, Bool.false_eq_true] at ht
      · rw [hd, ht, p3]; simp [hp, hr]
      · by_cases hf : c.load.refused = some t.id
        · rw [hd, ht, p1 hf]; simp [hp, hr, hf]
        · obtain ⟨r', q1, q2⟩ := p2 hf
          rw [hd, ht, q2]; simp [hp, hf]
          simpa [TruckRec.figures] using q1
  | some r =>
    obtain ⟨r', hr'⟩ : ∃ r', r' = (if c.role.mirrored then r.adopt else r).evaluate c.cfg := ⟨_, rfl⟩
    have ha : c.adopts r r' := by rw [hr']; exact TruckRec.adopts c r
    have l2 : c1.load = { c.load with
        refreshTimer := a, pollTimer := b, record := some r'
        seq := if r' = r then c.load.seq else c.load.seq + 1 } := by
      rw [l1, hr']; simp only [hr]
      cases c.role.mirrored <;> simp
    have r1 : c1.load.record = some r' := by rw [l2]
    have hring : ∀ reason, c1.ringWith r' reason = c.ringWith r' reason := by
      intro reason; simp [Chip.ringWith, l2]
    obtain ⟨b1, b2, b3, b4, b5, _⟩ := id ha
    cases tag with
    | none =>
      simp only at ht; rw [hd, ht, l2]
      refine ⟨rfl, fun _ => rfl, by simp, by simp, ?_⟩
      rintro _ ⟨⟩
      exact ⟨r', ha, fun _ => ⟨rfl, rfl, rfl, rfl, rfl⟩, by simp, by simp, by simp, by simp, by simp, by simp⟩
    | some t =>
      simp only at ht
      obtain ⟨p1, p2, p3, p4⟩ := Chip.tagPresent_open t.id t.target c1 r' r1
      obtain ⟨g1, g2⟩ := Chip.tagGone_load c1
      simp only [hring, l2, Option.some.injEq, forall_eq', b1, b2, b3] at p1 p2 p3 p4 g1 g2
      cases hp : t.present <;> simp only [hp, if_true, if_false, Bool.false_eq_true] at ht
      · by_cases hi : r.id = 0
        · rw [hd, ht, g1 hi]
          refine ⟨rfl, by simp, by simp [hp], by simp, ?_⟩
          rintro _ ⟨⟩
          exact ⟨r', ha, by simp, by simp, by simp [hp], by simp, by simp [hp], by simp [hi], fun _ _ _ _ =>
            ⟨rfl, rfl, rfl, rfl, rfl⟩⟩
        · rw [hd, ht, g2 hi]
          refine ⟨rfl, by simp, by simp [hp], by simp, ?_⟩
          rintro _ ⟨⟩
          refine ⟨r', ha, by simp, by simp [hp], by simp [hp], by simp [hp], by simp [hp], ?_, by simp [hi]⟩
          intro _ _ _ _
          by_cases hc : r'.count = 0 <;> simp [hc]
      · by_cases hi : r.id = t.id
        · by_cases hg : r.target = t.target
          · rw [hd, ht, p1 hi hg]
            refine ⟨rfl, by simp, by simp [hp], by simp, ?_⟩
            rintro _ ⟨⟩
            exact ⟨r', ha, by simp, fun _ _ _ _ _ =>
              ⟨rfl, rfl, rfl, rfl, rfl⟩, by simp [hg], by simp [hi], by simp [hi], by simp [hp], by simp⟩
          · obtain ⟨r2, q1, q2⟩ := p2 hi hg
            rw [hd, ht, q2]
            refine ⟨rfl, by simp, by simp [hp], by simp, ?_⟩
            rintro _ ⟨⟩
            refine ⟨r', ha, by simp, by simp [hg], ?_, by simp [hi], by simp [hi], by simp [hp], by simp [hp]⟩
            rintro _ ⟨⟩ _ _ _
            exact ⟨by simpa [TruckRec.figures, b4, b5] using q1, rfl, rfl, rfl, rfl⟩
        · by_cases hf : c.load.refused = some t.id
          · rw [hd, ht, p3 hi hf]
            refine ⟨rfl, by simp, by simp [hp, hf], by simp, ?_⟩
            rintro _ ⟨⟩
            exact ⟨r', ha, by simp, by simp, by simp [hi], fun _ _ _ _ _ =>
              ⟨rfl, rfl, rfl, rfl, rfl⟩, by simp [hf], by simp [hp], by simp⟩
          · obtain ⟨r2, q1, q2⟩ := p4 hi hf
            rw [hd, ht, q2]
            refine ⟨rfl, by simp, by simp [hp, hf], by simp, ?_⟩
            rintro _ ⟨⟩
            refine ⟨r', ha, by simp, by simp [hi], by simp [hi], by simp [hf], ?_, by simp [hp], by simp [hp]⟩
            rintro _ ⟨⟩ _ _ _
            refine ⟨by simpa [TruckRec.figures] using q1, rfl, ?_⟩
            by_cases hc : r'.count = 0 <;> simp [hc]

/-- The entry to ACTIVE from a part that differs in link and role only (R111). -/
theorem Chip.enterActive_takes (c c0 : Chip) (hrun : c.sup.power = .run)
   (h : c0 = { c with link := c0.link, role := c0.role, load := c0.load }) (hm : c0.role.mirrored = c.role.mirrored)
     (hu : c0.role.unpaired = c.role.unpaired)
   (hl : c0.load = c.load) :
   c.tookActive c0.enterActive.settleLink := by
  obtain ⟨c1, h1⟩ : ∃ c1, c1 = ((c0.leaveRole.setRole .active).mapRole fun r =>
      { r with named := none, namedSeq := none, watch := none, listen := none }).clearCrossCheck := ⟨_, rfl⟩
  have e : c0.enterActive = ((c1.adoptRecord.takeHeldTag.writeStatus).mapLoad fun l =>
      { l with refreshTimer := some c1.adoptRecord.takeHeldTag.writeStatus.tick }).writeTruckSlot := by
    rw [h1]; rfl
  obtain ⟨v1, v2, v3⟩ := Chip.leaveRole_facts c0
  have r1 : c1.role = { c0.role with
      state := .active, named := none, namedSeq := none, watch := none, listen := none, pairing := []
      behind := false, noWeigher := false, mismatches := 0, crossCheck := false } := by
    rw [h1]; simp [Chip.clearCrossCheck, Chip.setRole, v1]
  have l1 : c1.load = { c.load with refreshTimer := none, pollTimer := none } := by
    rw [h1]; simp only [Chip.clearCrossCheck_frame, Chip.mapRole_load, Chip.setRole_frame, v2, hl]
  have o1 : c1.sup = c.sup ∧ c1.tick = c.tick ∧ c1.inp = c.inp ∧ c1.pins = c.pins ∧ c1.eng = c.eng ∧ c1.cal = c.cal
    ∧ c1.store = c.store := by
    rw [h1]; simp; rw [h]; simp
  obtain ⟨o1, o2, o3, o4, o5, o6, o7⟩ := o1
  obtain ⟨c2, h2⟩ : ∃ c2, c2 = c1.adoptRecord.takeHeldTag := ⟨_, rfl⟩
  have hin : c2.inRun = true := by rw [h2]; simp [Chip.inRun, o1, hrun]
  have r2 : c2.role = { c1.role with mirrored := false } := by
    rw [h2, Chip.takeHeldTag_role _ (by rw [Chip.adoptRecord_role]), Chip.adoptRecord_role]
  have e2 := Chip.writeStatus_sends c2 hin (by rw [r2, r1]; rfl)
  obtain ⟨c3, h3⟩ : ∃ c3, c3 = c2.writeStatus := ⟨_, rfl⟩
  have e3 : c0.enterActive = (c3.mapLoad fun l => { l with refreshTimer := some c3.tick }).writeTruckSlot := by rw [e, h3, h2]
  have hown : c1.ownsRecord = true := by simp [Chip.ownsRecord, r1]
  have t2 : c2.tick = c.tick := by rw [h2]; simp [o2]
  have lp : c2.load.pollTimer = none := by
    rw [h2, Chip.heldTag_poll _ (by rw [← hown]; simp [Chip.ownsRecord, Chip.isWeigher, Chip.adoptRecord_role])]
    rw [Chip.adoptRecord_load, l1]
  have hact : (c3.mapLoad fun l => { l with refreshTimer := some c3.tick }).isActive = true := by
    have hs : c3.role.state = .active := by rw [h3, e2]; simp [r2, r1]
    have hp : c3.inRun = true := by rw [h3]; simpa [Chip.inRun] using hin
    simp only [Chip.isActive]
    have : (c3.mapLoad fun l => { l with refreshTimer := some c3.tick }).inRun = true := hp
    rw [this]; simp [hs]
  obtain ⟨d, hd⟩ : ∃ d, d = c0.enterActive := ⟨_, rfl⟩
  have e4 : d = { c2 with
      role := { c2.role with status := some c2.tick }
      load := { c2.load with refreshTimer := some c2.tick }
      link := { c2.link with
        wslot := some ⟨.weigherStatus, 0, c2.statusData⟩
        tslot := some (sendTruck c2.load.record c2.load.seq) } } := by
    rw [hd, e3]
    simp only [Chip.writeTruckSlot, hact, if_true]
    rw [h3, e2]; rfl
  rw [← hd]
  have hsd : d.statusData = c2.statusData := by
    rw [e4]; rfl
  have hrd : d.settleLink.role = { c0.role with
      state := .active, named := none, namedSeq := none, watch := none, listen := none, pairing := []
      behind := false, noWeigher := false, mismatches := 0, crossCheck := false, mirrored := false
      status := some c.tick } := by
    have : d.settleLink.role = d.role := rfl
    rw [this, e4]; simp [r2, r1, t2]
  have hld : d.settleLink.load = { c2.load with refreshTimer := some c.tick } := by
    have : d.settleLink.load = d.load := rfl
    rw [this, e4]; simp [t2]
  unfold Chip.tookActive
  rw [hrd, hld]
  refine ⟨rfl, rfl, rfl, rfl, rfl, rfl, rfl, rfl, hu, rfl, rfl, lp, ?_, ?_, ?_, ?_⟩
  · have hsd2 : d.settleLink.statusData = d.statusData := rfl
    unfold Chip.statusWritten
    rw [hsd2, hsd]
    exact Link.settle_wslot _ _ _ (by rw [e4])
  · have : d.settleLink.link.tslot = d.link.tslot := Link.settle_tslot _ _ ⟨.weigherStatus, 0,
    c2.statusData⟩ (by rw [e4])
    rw [this, e4]
  · refine Chip.takesRecord c c1 _ hown o3 o7 (by rw [r1]; exact hm) ⟨none, none, l1⟩ ?_ (by rw [hrd])
    rw [hld, h2]; exact ⟨_, c1.adoptRecord.takeHeldTag.load.pollTimer, rfl⟩
  · intro b hb
    have : ∀ b, b ∉ [Block.link, .trk, .load, .role, .alarm, .panel] → c.sameAt c0 b := by
      intro b hb; rw [h]; cases b <;> simp [Chip.sameAt] at hb ⊢
    rw [hd]
    have := this b hb
    cases b <;> simp [Chip.sameAt] at hb this ⊢ <;> exact this

/-- A record of its own closes YIELDED, a mirrored one stays (R110). -/
theorem Chip.yieldRecord_facts (c : Chip) : c.yieldRecord.role = { c.role with mirrored := true } ∧
   (c.role.mirrored = true → c.yieldRecord.load = c.load) ∧ (c.role.mirrored = false →
     c.yieldRecord.load = (c.closeRecord .yielded).load) := by
  unfold Chip.yieldRecord; split <;> simp_all

/-- A close YIELDED counts no truck (R79). -/
theorem Chip.closeRecord_yielded (c : Chip) : (c.closeRecord .yielded).load.shift = c.load.shift
  ∧ (c.closeRecord .yielded).load.life = c.load.life
    ∧ (c.closeRecord .yielded).load.refreshTimer = c.load.refreshTimer
      ∧ (c.closeRecord .yielded).load.record = none := by
  cases h : c.load.record with
  | none => simp [Chip.closeRecord, h]
  | some r => rw [Chip.closeRecord_load _ _ _ h]; simp

/-- The entry to STANDBY, whatever is noted of the named station's sequence (R108, R110). -/
theorem Chip.standby_takes (c c0 : Chip) (hrun : c.sup.power = .run)
  (hs : c0.role.state = .standby) (hm : c0.role.mirrored = c.role.mirrored)
    (hl : c0.load = { c.load with refreshTimer := none, pollTimer := none })
  (hp : c0.sup = c.sup ∧ c0.tick = c.tick ∧ c0.inp = c.inp ∧ c0.pins = c.pins ∧ c0.eng = c.eng ∧ c0.cal = c.cal
    ∧ c0.store = c.store)
  (f : Chip → Chip) (hf : ∀ x, ∃ s b, f x = { x with role := { x.role with namedSeq := s, behind := b } }) :
   c.tookStandby (f c0.yieldRecord).writeStatus.settleLink
     ∧ (f c0.yieldRecord).writeStatus.settleLink.role = { (f c0.yieldRecord).role with status := some c.tick } := by
  obtain ⟨p1, p2, p3, p4, p5, p6, p7⟩ := hp
  obtain ⟨y1, y2, y3⟩ := Chip.yieldRecord_facts c0
  obtain ⟨s, b, e0⟩ := hf c0.yieldRecord
  obtain ⟨c2, h2⟩ : ∃ c2, c2 = f c0.yieldRecord := ⟨_, rfl⟩
  rw [← h2] at e0 ⊢
  have hr2 : c2.role = { c0.role with mirrored := true, namedSeq := s, behind := b } := by rw [e0]; simp [y1]
  have hl2 : c2.load = c0.yieldRecord.load := by rw [e0]
  have ht2 : c2.tick = c.tick := by rw [e0]; simp [p2]
  have hin : c2.inRun = true := by rw [e0]; simp [Chip.inRun, p1, hrun]
  have e2 := Chip.writeStatus_sends c2 hin (by rw [hr2]; simp [hs, RoleState.sends])
  have hrd : c2.writeStatus.settleLink.role = { c2.role with status := some c.tick } := by
    have : c2.writeStatus.settleLink.role = c2.writeStatus.role := rfl
    rw [this, e2]; simp [ht2]
  have hld : c2.writeStatus.settleLink.load = c0.yieldRecord.load := by
    have : c2.writeStatus.settleLink.load = c2.writeStatus.load := rfl
    rw [this, e2]; simp [hl2]
  have hsl : c0.yieldRecord.load.shift = c.load.shift ∧ c0.yieldRecord.load.life = c.load.life
    ∧ c0.yieldRecord.load.refreshTimer = none := by
    cases hmm : c0.role.mirrored
    · rw [y3 hmm]; obtain ⟨q1, q2, q3, q4⟩ := Chip.closeRecord_yielded c0; rw [q1, q2, q3, hl]; simp
    · rw [y2 hmm, hl]; simp
  refine ⟨⟨?_, ?_, ?_, ?_, ?_, ?_, ?_, ?_, ?_, ?_⟩, hrd⟩
  · rw [hrd, hr2]; exact hs
  · rw [hrd, hr2]
  · rw [hrd]
  · rw [hld]; exact hsl.1
  · rw [hld]; exact hsl.2.1
  · rw [hld]; exact hsl.2.2
  · have : c2.writeStatus.settleLink.statusData = c2.statusData := by
      have : c2.writeStatus.settleLink.statusData = c2.writeStatus.statusData := rfl
      rw [this, e2]; rfl
    unfold Chip.statusWritten
    rw [this]
    exact Link.settle_wslot _ _ _ (by rw [e2])
  · intro hmm; rw [hld, y2 (by rw [hm]; exact hmm), hl]; simp
  · intro hmm
    have := y3 (by rw [hm]; exact hmm)
    rw [hld, this]
    refine ⟨(Chip.closeRecord_yielded c0).2.2.2, ?_⟩
    intro r hr
    have hr0 : c0.load.record = some r := by rw [hl]; exact hr
    rw [Chip.closeRecord_load _ _ _ hr0, hl]
    refine ⟨rfl, ?_, ?_⟩
    · intro h0; simp [h0]
    · intro h0; simp [h0, Chip.ringWith]
  · intro b hb
    have hc0 : ∀ b, b ∉ [Block.link, .trk, .load, .role, .alarm, .panel] → c.sameAt c0 b := by
      intro b hb; cases b <;> simp [Chip.sameAt] at hb ⊢ <;> assumption
    have := hc0 b hb
    rw [e2, e0]
    cases b <;> simp [Chip.sameAt] at hb this ⊢ <;> exact this

/-- The fallback is the lowest peer last heard ACTIVE less than 1000 ms ago, or there is none (R107). -/
theorem fallbackPeer_spec (now : Tick) (ps : List Peer) :
   (∀ p, fallbackPeer now ps = some p → p ∈ ps ∧ p.state = .active ∧ age now p.at_ < 1000 ∧ ∀ q ∈ ps,
     q.state = .active ∧ age now q.at_ < 1000 → p.station ≤ q.station) ∧
   (fallbackPeer now ps = none → ∀ q ∈ ps, ¬(q.state = .active ∧ age now q.at_ < 1000)) := by
  have key : ∀ (fs : List Peer) (b : Option Peer), match fs.foldl (fun best p => match best with
      | none => some p
      | some b => if p.station < b.station then some p else some b) b with
     | none => b = none ∧ fs = []
     | some p => (p ∈ fs ∨ b = some p) ∧ (∀ q ∈ fs, p.station ≤ q.station) ∧ ∀ x, b = some x →
       p.station ≤ x.station := by
    intro fs
    induction fs with
    | nil => intro b; cases b <;> simp
    | cons f fs ih =>
      intro b
      simp only [List.foldl]
      have := ih (match b with
      | none => some f
      | some b => if f.station < b.station then some f else some b)
      split at this
      · cases b <;> simp at this; split at this <;> simp at this
      · rename_i p h
        obtain ⟨t1, t2, t3⟩ := this
        cases b with
        | none =>
          simp at t1 t3 ⊢
          refine ⟨by rcases t1 with h | h; exact Or.inr h; exact Or.inl h.symm, ?_, t2⟩
          exact t3
        | some x =>
          simp at t1 t3 ⊢
          split at t1 <;> rename_i hx
          · rw [if_pos hx] at t3; simp at t3 t1
            refine ⟨?_, ⟨t3, t2⟩, by omega⟩
            rcases t1 with h | h
            · exact Or.inl (Or.inr h)
            · exact Or.inl (Or.inl h.symm)
          · rw [if_neg hx] at t3; simp at t3 t1
            refine ⟨?_, ⟨by omega, t2⟩, t3⟩
            rcases t1 with h | h
            · exact Or.inl (Or.inr h)
            · exact Or.inr h
  have k := key (ps.filter fun p => p.state == .active && decide (age now p.at_ < 1000)) none
  have e : fallbackPeer now ps =
      (ps.filter fun p => p.state == .active && decide (age now p.at_ < 1000)).foldl (fun best p => match best with
      | none => some p
      | some b => if p.station < b.station then some p else some b) none := rfl
  rw [← e] at k
  refine ⟨?_, ?_⟩
  · intro p hp
    rw [hp] at k
    simp at k
    exact ⟨k.1.1, k.1.2.1, k.1.2.2, fun q hq hh => k.2 q hq hh.1 hh.2⟩
  · intro hn q hq hh
    rw [hn] at k
    simp at k
    have := k q hq hh.1; omega

/-- Entry to REPEATING (R108, R120): the watch begins, and with the COUNT page shown the poll timer (R86). -/
theorem Chip.enterRepeat_facts (c : Chip) (h : c.sup.power = .run) : c.enterRepeat.role.state = .repeating
    ∧ c.enterRepeat.role.watch = some c.tick
   ∧ c.enterRepeat.load.pollTimer = (if c.panel.page = .count then some c.tick else none)
   ∧ c.enterRepeat.trk = { c.trk with note := none } := by
  obtain ⟨x, hx⟩ : ∃ x, x = (((c.leaveRole.setRole .repeating).mapRole fun r =>
    { r with named := none, namedSeq := none, watch := some c.tick, listen := none }).refresh .noWeigher).writeStatus :=
        ⟨_, rfl⟩
  have a : x.role.state = .repeating ∧ x.role.watch = some c.tick ∧ x.load.pollTimer = none
      ∧ x.trk = { c.trk with note := none } ∧ x.panel.page = c.panel.page ∧ x.sup = c.sup ∧ x.tick = c.tick
      ∧ x.role.named = none := by
    rw [hx]
    unfold Chip.writeStatus Chip.leaveRole Chip.setRole Chip.discardNote
    dsimp only
    (repeat' split) <;> simp
  obtain ⟨a1, a2, a3, a4, a5, a6, a7, a8⟩ := a
  have e : c.enterRepeat = if x.polls then x.poll else x := by
    rw [hx]; unfold Chip.enterRepeat; simp
  have hp : x.polls = true ↔ c.panel.page = .count := by
    simp [Chip.polls, Chip.inRun, a6, h, a1, a5]
  have hpo : x.poll = x.mapLoad fun l => { l with pollTimer := some x.tick } := by
    unfold Chip.poll; rw [a8]
  rw [e]
  by_cases hc : c.panel.page = .count
  · rw [if_pos (hp.mpr hc), if_pos hc, hpo]
    exact ⟨a1, a2, by simp [a7], a4⟩
  · rw [if_neg (mt hp.mp hc), if_neg hc]
    exact ⟨a1, a2, a3, a4⟩

end Sys2Proof.Machine
end

