-- ==== Sys2Proof/Laws/Sends.lean ====
section
/-! SUPPORT. What the operations on the truck record send: TRUCK STATUS, TRUCK CLOSED and PASS RECORD (R70, R79). -/

namespace Sys2Proof.Machine

/-- An offered telegram joins the event queue, dropping its oldest entry that is not in SEND (R156). -/
theorem Link.enqueue_joined (t : OutTg) (l : Link) : l.enqueue t = l.joined t := by
  unfold Link.enqueue Link.joined Link.dropOldest
  by_cases h : 8 ≤ l.queue.length
  · simp only [h, if_true, Nat.not_lt.mpr h, if_false]
    by_cases hh : l.headInHand = true <;> by_cases ha : l.access = .send <;> simp [hh, ha, bump, satAdd]
  · simp [h, Nat.lt_of_not_le h]

/-- Offers that the part takes join the queue one after another (R155, R156). -/
theorem Chip.offerAll_joined (ts : List OutTg) (c : Chip) (h : ∀ t ∈ ts, c.takesOffer t.kind = true) :
    c.offerAll ts = { c with link := ts.foldl Link.joined c.link } := by
  induction ts generalizing c with
  | nil => rfl
  | cons t ts ih =>
    have e : c.offerAll (t :: ts) = (c.offer t).offerAll ts := rfl
    have e2 : c.offer t = { c with link := c.link.joined t } := by
      simp [Chip.offer, h t (by simp), Link.enqueue_joined, Chip.mapLink]
    rw [e, e2, ih]
    · rfl
    · intro u hu
      show c.takesOffer u.kind = true
      exact h u (by simp [hu])

/-- The bytes of a PASS RECORD (Table 12-3). -/
theorem sendPass_eq (p : PassRec) : sendPass p = passTelegram p := by
  obtain ⟨⟩ := p
  rename_i kind _ grade _ _ _ _ neg ov am un
  cases kind <;> cases grade <;> cases neg <;> cases ov <;> cases am <;> cases un <;>
    rfl

/-- A record with a pass closes with one TRUCK CLOSED (R79). -/
theorem closedTelegrams_eq (r : TruckRec) (reason : CloseReason) (h : r.count ≠ 0) :
    closedTelegrams r reason = [sendClosed (r.summary reason)] := by
  simp only [closedTelegrams, h, if_false]
  cases reason <;> cases hh : r.flags.amendedAny <;> simp
      [sendClosed, TruckRec.summary, hh, be8, bitVal, CloseReason.code]

/-- A raised sequence writes the TRUCK STATUS slot of an ACTIVE part (R70). -/
theorem Chip.raiseSeq_link (c : Chip) (h : c.inRun = true) : c.raiseSeq.link = c.raiseSeq.sends c.link [] := by
  have e : c.raiseSeq.load = { c.load with seq := c.load.seq + 1 } := c.raiseSeq_load
  unfold Chip.raiseSeq Chip.writeTruckSlot at e ⊢
  have h2 : (c.mapLoad fun l => { l with seq := l.seq + 1 }).inRun = true := h
  simp only [Chip.isActive, h2, Bool.true_and, beq_iff_eq] at e ⊢
  split
  · rename_i h3
    have h3' : c.role.state = .active := h3
    simp [Chip.sends, h3', Link.writeT, Chip.mapLink]
  · rename_i h3
    have h3' : ¬ c.role.state = .active := h3
    simp [Chip.sends, h3']

/-- An opened record is written into the TRUCK STATUS slot of an ACTIVE part (R70). -/
theorem Chip.openRecord_link (id : Nat) (target : Option Nat) (c : Chip) (h : c.inRun = true) :
    (c.openRecord id target).link = (c.openRecord id target).sends c.link [] := by
  unfold Chip.openRecord
  rw [Chip.raiseSeq_link _ (by simpa [Chip.inRun] using h)]
  simp
  rfl

/-- An ACTIVE part takes every offer (R155). -/
theorem Chip.offer_active (t : OutTg) (c : Chip) (h : c.inRun = true) (ha : c.role.state = .active) :
    c.offer t = { c with link := c.link.joined t } := by
  have e : c.takesOffer t.kind = true := by
    simp only [Chip.inRun, beq_iff_eq] at h
    simp [Chip.takesOffer, h, ha]
  simp [Chip.offer, e, Link.enqueue_joined, Chip.mapLink]

/-- What a close sends (R70, R79). -/
theorem Chip.closeRecord_link (reason : CloseReason) (c : Chip) (r : TruckRec) (hr : c.load.record = some r)
    (h : c.inRun = true) (hy : reason ≠ .yielded) :
    (c.closeRecord reason).link = (c.closeRecord reason).sends c.link (closedTelegrams r reason) := by
  simp only [Chip.closeRecord, hr, Chip.removeRecord]
  rw [Chip.raiseSeq_link _ (by split <;> simpa [Chip.inRun] using h)]
  by_cases h0 : r.count = 0
  · simp [h0, closedTelegrams]
  · simp only [h0, if_false, closedTelegrams_eq r reason h0, Chip.recordSummary, hy]
    by_cases ha : c.role.state = .active
    · have h1 : ((c.appendSummary (r.summary reason)).countTruck).isActive = true := by
        simp only [Chip.isActive, Bool.and_eq_true, beq_iff_eq]; exact ⟨by simpa [Chip.inRun] using h, by simpa using ha⟩
      simp only [h1, if_true]
      rw [Chip.offer_active _ _ (by simpa [Chip.inRun] using h) (by simpa using ha)]
      simp [Chip.sends, ha]
    · have h1 : ((c.appendSummary (r.summary reason)).countTruck).isActive = false := by
        simp [Chip.isActive, ha]
      simp [h1, Chip.sends, ha]

/-- A later write of the slot replaces an earlier one. -/
theorem Chip.sends_sends (d e : Chip) (l : Link) (ts : List OutTg) (h : e.role.state = d.role.state) :
    d.sends (e.sends l ts) [] = d.sends l ts := by
  unfold Chip.sends
  rw [h]; split <;> simp

/-- The evaluated flags are those that the rules give (R71). -/
theorem Chip.flagged_evaluate (c : Chip) (r : TruckRec) : c.flagged r.flags (r.evaluate c.cfg) := by
  refine ⟨?_, ?_, ?_, rfl, rfl⟩ <;> cases ht : r.target <;>
    simp [TruckRec.evaluate, TruckRec.isReached, TruckRec.isLast, TruckRec.isOver, TruckRec.remaining, reachLevel,
      overloadLevel, ht]
  · exact or_congr Iff.rfl decide_eq_true_iff
  · omega
  · exact decide_eq_true_iff

/-- A raised sequence leaves the record. -/
@[simp] theorem Chip.raiseSeq_record (c : Chip) : c.raiseSeq.load.record = c.load.record := by
  rw [Chip.raiseSeq_load]

/-- An own record that is written, evaluated and raised. -/
theorem Chip.writeOwn_evaluated (r : TruckRec) (c : Chip) :
    (c.writeOwn r).evaluateRecord.load.record = some (r.evaluate c.cfg) := by
  rw [Chip.evaluateRecord_own _ (by simp)]
  rfl

/-- The rule of the flags reads of the part its configuration alone. -/
theorem Chip.flagged_congr (c d : Chip) (f : RecFlags) (r : TruckRec) (h : d.cfg = c.cfg) : d.flagged f r
    ↔ c.flagged f r := by
  unfold Chip.flagged; rw [h]

/-- An opened record shows its evaluated flags. -/
theorem Chip.openRecord_flags (id : Nat) (target : Option Nat) (c : Chip) :
    (c.openRecord id target).load.record = some ((TruckRec.fresh id target).evaluate c.cfg) := by
  unfold Chip.openRecord
  rw [Chip.raiseSeq_record, Chip.writeOwn_evaluated]

/-- A pass joins the open record, all of it. -/
theorem Chip.joinRecord_all (p : PassRec) (c : Chip) (r : TruckRec) (h : c.load.record = some r) (hr : c.inRun = true) :
    (c.joinRecord p).2.load =
        { c.load with seq := c.load.seq + 1, record := some ((r.join p).evaluate c.cfg) }
      ∧ (c.joinRecord p).2.link = (c.joinRecord p).2.sends c.link [passTelegram (r.numbered p)] := by
  have e : (c.joinRecord p).2 =
      (let c' := c.writeOwn (r.join p)
       (if c'.isActive then c'.offer (sendPass (r.numbered p)) else c').evaluateRecord.raiseSeq) := by
    simp [Chip.joinRecord, h]
  have h1 : (c.writeOwn (r.join p)).inRun = true := hr
  obtain ⟨c1, hc1⟩ : ∃ c1, c1 = (if (c.writeOwn (r.join p)).isActive then
    (c.writeOwn (r.join p)).offer (sendPass (r.numbered p)) else c.writeOwn (r.join p)) := ⟨_, rfl⟩
  have e1 : c1 = { c.writeOwn (r.join p) with
      link := if c.role.state = .active then c.link.joined (passTelegram (r.numbered p)) else c.link } := by
    rw [hc1]
    simp only [Chip.isActive, h1, Bool.true_and, beq_iff_eq]
    by_cases ha : c.role.state = .active
    · rw [if_pos ha, if_pos (show (c.writeOwn (r.join p)).role.state = .active from ha), Chip.offer_active _ _ h1 ha,
        sendPass_eq]
      rfl
    · rw [if_neg ha, if_neg (show ¬ (c.writeOwn (r.join p)).role.state = .active from ha)]
      rfl
  have e2 : c.joinRecord p = ((c.joinRecord p).1, c1.evaluateRecord.raiseSeq) := by
    rw [hc1]; exact Prod.ext rfl e
  rw [e2]
  dsimp only
  have h3 : c1.evaluateRecord.load.record = some ((r.join p).evaluate c.cfg) := by
    rw [Chip.evaluateRecord_own _ (by rw [e1]; rfl), e1]; rfl
  refine ⟨?_, ?_⟩
  · rw [Chip.raiseSeq_load, (Chip.evaluateRecord_load _).1, h3, e1]
    rfl
  · rw [Chip.raiseSeq_link _ (by simp only [Chip.inRun, Chip.evaluateRecord_frame, e1]; exact hr)]
    have h4 : c1.evaluateRecord.link = c1.link := by simp
    have h5 : c1.evaluateRecord.raiseSeq.role.state = c.role.state := by simp [e1]
    rw [h4, e1]
    rw [e1] at h5
    simp only [Chip.sends, h5]
    by_cases ha : c.role.state = .active <;> simp [ha]

/-- The same once its sequence is raised. -/
theorem Chip.writeOwn_shows (r : TruckRec) (c : Chip) :
    (c.writeOwn r).evaluateRecord.raiseSeq.load.record = some (r.evaluate c.cfg) := by
  rw [Chip.raiseSeq_record, Chip.writeOwn_evaluated]

/-- What an event sends reads role state, record and sequence alone. -/
theorem Chip.sends_congr (c d : Chip) (l : Link) (ts : List OutTg) (h : d.role.state = c.role.state)
    (h' : d.load.record = c.load.record) (h2 : d.load.seq = c.load.seq) : d.sends l ts = c.sends l ts := by
  unfold Chip.sends; rw [h, h', h2]

/-- What of the load register no record operation moves. -/
def LoadRegister.still (l : LoadRegister) :=
    (l.nextManual, l.life, l.mirrorCounts, l.mirrorTonnage, l.mirrorLife, l.refreshTimer, l.pollTimer)

/-- A close leaves them. -/
theorem Chip.closeRecord_still (reason) (c : Chip) : (c.closeRecord reason).load.still = c.load.still := by
  cases h : c.load.record with
  | none => simp [Chip.closeRecord, h]
  | some r => rw [Chip.closeRecord_load reason c r h]; rfl

/-- An opening leaves them. -/
theorem Chip.openRecord_still (id t) (c : Chip) : (c.openRecord id t).load.still = c.load.still := by
  rw [(Chip.openRecord_load id t c).1]; rfl

/-- A new target leaves them. -/
theorem Chip.retarget_still (t) (c : Chip) : (c.retarget t).load.still = c.load.still := by
  cases h : c.load.record with
  | none => simp [Chip.retarget, h]
  | some r =>
    by_cases hn : r.target = t
    · simp [Chip.retarget, h, hn]
    · rw [(Chip.retarget_load t c r h hn).1]; rfl

/-- A refused identity leaves them. -/
theorem Chip.setRefused_still (r) (c : Chip) : (c.setRefused r).load.still = c.load.still := rfl

/-- The tag leaves them. -/
theorem Chip.takeTag_still (c : Chip) : c.takeTag.load.still = c.load.still := by
  unfold Chip.takeTag Chip.tagPresent Chip.tagGone
  dsimp only
  (repeat' split) <;> simp only
      [Chip.openRecord_still, Chip.closeRecord_still, Chip.retarget_still, Chip.setRefused_still]

/-- The same, item by item. -/
theorem Chip.takeTag_rest (c : Chip) : c.takeTag.load.nextManual = c.load.nextManual ∧ c.takeTag.load.life = c.load.life
    ∧ c.takeTag.load.mirrorCounts = c.load.mirrorCounts ∧ c.takeTag.load.mirrorTonnage = c.load.mirrorTonnage
    ∧ c.takeTag.load.mirrorLife = c.load.mirrorLife ∧ c.takeTag.load.refreshTimer = c.load.refreshTimer
    ∧ c.takeTag.load.pollTimer = c.load.pollTimer := by
  have := c.takeTag_still
  simp only [LoadRegister.still, Prod.mk.injEq] at this
  exact this

/-- What an amendment of the record shows and sends (R45, R70). -/
theorem Chip.amendRecord_link (p : PassRec) (m : Nat) (c : Chip) (r : TruckRec) (h : c.load.record = some r)
    (hr : c.inRun = true) :
    (c.amendRecord p m).load.record = some ((r.amend p m).evaluate c.cfg)
      ∧ (c.amendRecord p m).link = (c.amendRecord p m).sends c.link [passTelegram p] := by
  have e : c.amendRecord p m =
      (let c' := c.writeOwn (r.amend p m)
       (if c'.isActive then c'.offer (sendPass p) else c').evaluateRecord.raiseSeq) := by
    simp [Chip.amendRecord, h]
  have h1 : (c.writeOwn (r.amend p m)).inRun = true := hr
  obtain ⟨c1, hc1⟩ : ∃ c1, c1 = (if (c.writeOwn (r.amend p m)).isActive then
    (c.writeOwn (r.amend p m)).offer (sendPass p) else c.writeOwn (r.amend p m)) := ⟨_, rfl⟩
  have e1 : c1 = { c.writeOwn (r.amend p m) with
      link := if c.role.state = .active then c.link.joined (passTelegram p) else c.link } := by
    rw [hc1]
    simp only [Chip.isActive, h1, Bool.true_and, beq_iff_eq]
    by_cases ha : c.role.state = .active
    · have ha' : (c.writeOwn (r.amend p m)).role.state = .active := by simpa using ha
      rw [if_pos ha', if_pos ha, Chip.offer_active _ _ h1 ha', sendPass_eq]; rfl
    · have ha' : ¬(c.writeOwn (r.amend p m)).role.state = .active := by simpa using ha
      rw [if_neg ha', if_neg ha]; rfl
  have e2 : c.amendRecord p m = c1.evaluateRecord.raiseSeq := by rw [e, hc1]
  have hr1 : c1.inRun = true := by rw [e1]; exact hr
  have hrec : c1.load.record = some (r.amend p m) := by rw [e1]; rfl
  rw [e2]
  refine ⟨?_, ?_⟩
  · rw [Chip.raiseSeq_record, Chip.evaluateRecord_own _ (by rw [e1]; rfl), hrec, e1]; rfl
  · rw [Chip.raiseSeq_link _ (by simpa [Chip.inRun] using hr1)]
    have : c1.evaluateRecord.link = c1.link := by simp
    have hk : c1.link = if c.role.state = .active then c.link.joined (passTelegram p) else c.link := by rw [e1]
    have hs : (c1.evaluateRecord.raiseSeq).role.state = c.role.state := by rw [e1]; simp
    rw [this, hk]
    unfold Chip.sends
    rw [hs]
    by_cases ha : c.role.state = .active <;> simp [ha]

/-- A close drops the noted pass and moves nothing else of the tracker. -/
theorem Chip.closeRecord_trk (reason) (c : Chip) (r) (h : c.load.record = some r) :
    (c.closeRecord reason).trk = { c.trk with note := none } := by
  simp only [Chip.closeRecord, h, Chip.removeRecord]
  split <;> simp [Chip.discardNote, Chip.recordSummary] <;> (try split) <;> (try split) <;> simp

end Sys2Proof.Machine
end

