-- ==== Sys2Proof/Laws/Sounds.lean ====
section
/-! SUPPORT. What the target figures and the PASS OVER pulse do to alarms and buzzer (R43, R71). -/

namespace Sys2Proof.Machine

/-- A pattern asked for by an event (R145). -/
theorem Buzzer.eventRequest_asked (p : Pattern) (vol : Nat) (now : Tick) (b : Buzzer) :
    Buzzer.eventRequest p vol now b = b.asked p vol now := by
  obtain ⟨slot, queue, play⟩ := b
  unfold Buzzer.eventRequest Buzzer.asked Buzzer.begin Buzzer.sounding
  by_cases h : queue.length < 2
  · have h' : ¬ 2 ≤ queue.length := by omega
    simp only [h, h', if_true, if_false]
    cases slot <;> cases queue <;> simp
  · have h' : 2 ≤ queue.length := by omega
    simp only [h, h', if_true, if_false]

/-- An event pattern in RUN reaches the buzzer alone. -/
theorem Chip.beepEvent_run (p : Pattern) (c : Chip) (h : c.inRun = true) :
    c.beepEvent p = { c with panel := { c.panel with
      buz := c.panel.buz.asked p c.panel.settings.volume c.tick } } := by
  simp only [Chip.inRun, beq_iff_eq] at h
  simp [Chip.beepEvent, h, Chip.mapBuz, Chip.mapPanel, Buzzer.eventRequest_asked]

/-- A value handed over that leaves the record as it was leaves the part as it was. -/
theorem Chip.takeCond_same (a : Alarm) (v : Bool) (c : Chip)
    (h : (c.takeCond a v).alarm.get a = c.alarm.get a) : c.takeCond a v = c := by
  by_cases hr : c.inRun = true
  · have e := Chip.takeCond_self a v c hr
    rw [h] at e
    by_cases hc : (c.alarm.get a).cond = v
    · unfold Chip.takeCond; simp [hc]
    · exfalso
      rw [if_neg hc] at e
      cases v with
      | true => apply hc; rw [if_pos rfl] at e; rw [e]; rfl
      | false => apply hc; rw [if_neg (by simp)] at e; rw [e]; simp
  · exact Chip.takeCond_suspended a v c (by simpa using hr)

/-- PASS OVER has no TRILL: a demand rests on the other records. -/
theorem AlarmUnit.demand_congr (u w : AlarmUnit) (h : ∀ a, a ≠ .passOver → u.get a = w.get a) : u.demand = w.demand := by
  have h1 := h .lowSupply (by decide)
  have h2 := h .stationConflict (by decide)
  have h3 := h .inputFault (by decide)
  have h4 := h .overload (by decide)
  simp only [AlarmUnit.get] at h1 h2 h3 h4
  simp [AlarmUnit.demand, h1, h2, h3, h4]

/-- The demand is for a TRILL (R129). -/
theorem Chip.demand_trills (c : Chip) : c.alarm.demand = true ↔ c.trills := by
  simp [AlarmUnit.demand, Chip.trills, AlarmRec.shown, AlarmUnit.get, and_assoc, or_assoc]

/-- The PASS OVER pulse in RUN (R43, R122, R123). -/
theorem Chip.pulsePassOver_facts (c : Chip) (hr : c.inRun = true) (hc : (c.alarm.get .passOver).cond = false) :
    let o := c.alarm.get .passOver
    c.pulsePassOver.alarm.get .passOver = { o with
        latch := true, ack := false
        maskTimer := if o.mask = true ∧ (o.latch = false ∨ o.maskTimer.isSome = true) then some c.tick else o.maskTimer }
      ∧ (∀ a, a ≠ .passOver → c.pulsePassOver.alarm.get a = c.alarm.get a)
      ∧ (o.mask = true ∨ c.trills → c.pulsePassOver.panel = c.panel)
      ∧ (o.mask = false → ¬c.trills → c.pulsePassOver.panel = { c.panel with
          buz := ⟨some .long, if c.panel.buz.slot = none then c.panel.buz.queue.drop 1 else c.panel.buz.queue,
            some ⟨0, c.tick, c.panel.settings.volume⟩⟩ }) := by
  dsimp only
  obtain ⟨o, ho⟩ : ∃ o, o = c.alarm.get .passOver := ⟨_, rfl⟩
  obtain ⟨u, hu⟩ : ∃ u, u = c.alarm.put .passOver (o.rise c.tick) := ⟨_, rfl⟩
  have hg : u.get .passOver = o.rise c.tick := by rw [hu]; simp
  have hd : u.demand = c.alarm.demand := AlarmUnit.demand_congr _ _ fun a ha => by
    rw [hu]; exact AlarmUnit.get_put_ne _ _ _ _ ha
  have e1 : c.takeCond .passOver true = ({ c with alarm := u } : Chip).oneShot .passOver := by
    have hc' : o.cond = false := by rw [ho]; exact hc
    unfold Chip.takeCond
    simp only [hr, ← ho, ← hu, hc']
    simp only [Chip.setAlarms, hd]
    cases c.alarm.demand <;> simp
  have e2 : c.takeCond .passOver true =
      if o.mask = true ∨ c.alarm.demand = true then { c with alarm := u }
      else { c with alarm := u, panel := { c.panel with
          buz := ⟨some .long, if c.panel.buz.slot = none then c.panel.buz.queue.drop 1 else c.panel.buz.queue,
            some ⟨0, c.tick, c.panel.settings.volume⟩⟩ } } := by
    rw [e1]
    simp only [Chip.oneShot, oneShotOf, hg, hd]
    simp only [AlarmRec.rise_frame, Bool.or_eq_true]
    split
    · rfl
    · simp [Chip.mapBuz, Chip.mapPanel, Buzzer.alarmRequest, Buzzer.begin, Buzzer.sounding]
  obtain ⟨x, hx⟩ : ∃ x, x = c.takeCond .passOver true := ⟨_, rfl⟩
  have xa : x.alarm = u := by rw [hx, e2]; split <;> rfl
  have xs : x.sup = c.sup := by rw [hx]; simp
  have e3 : c.pulsePassOver = { x with alarm := x.alarm.put .passOver (o.rise c.tick).fall } := by
    unfold Chip.pulsePassOver
    rw [← hx]
    have hxr : x.inRun = true := by simpa [Chip.inRun, xs] using hr
    unfold Chip.takeCond
    simp only [hxr, xa, hg]
    have hd2 : (u.put .passOver (o.rise c.tick).fall).demand = u.demand := AlarmUnit.demand_congr _ _ fun a ha =>
      AlarmUnit.get_put_ne _ _ _ _ ha
    simp [Chip.setAlarms, xa, hd2]
  rw [e3]
  refine ⟨?_, ?_, ?_, ?_⟩
  · rw [← ho]
    simp only [AlarmUnit.get_put_self]
    rw [← ho] at hc
    simp [AlarmRec.rise, AlarmRec.fall, AlarmRec.riseTimer]
    cases o.mode <;> simp [hc]
  · intro a ha
    simp only [AlarmUnit.get_put_ne _ _ _ _ ha, xa, hu]
  · intro h
    rw [← ho, ← Chip.demand_trills] at h
    dsimp only
    rw [hx, e2, if_pos h]
  · intro h h2
    rw [← ho] at h
    rw [← Chip.demand_trills] at h2
    dsimp only
    rw [hx, e2, if_neg (by simp [h, h2])]

/-- A set record leaves the buzzer. -/
@[simp] theorem Chip.setRecord_buz (r : Option TruckRec) (c : Chip) : (c.setRecord r).panel.buz = c.panel.buz := by
  simp only [Chip.setRecord, Chip.mapPanel, Panel.keepSel]
  split
  · split <;> rfl
  · rfl

/-- A set record leaves the last pass. -/
@[simp] theorem Chip.setRecord_lastPass (r : Option TruckRec) (c : Chip) :
    (c.setRecord r).panel.lastPass = c.panel.lastPass := by
  simp only [Chip.setRecord, Chip.mapPanel, Panel.keepSel]
  split
  · split <;> rfl
  · rfl

/-- A set record leaves the alarms. -/
@[simp] theorem Chip.setRecord_alarm (r : Option TruckRec) (c : Chip) : (c.setRecord r).alarm = c.alarm := rfl

/-- A written record leaves the alarms. -/
@[simp] theorem Chip.writeOwn_alarm (r : TruckRec) (c : Chip) : (c.writeOwn r).alarm = c.alarm := rfl

/-- A written record leaves the buzzer. -/
@[simp] theorem Chip.writeOwn_buz (r : TruckRec) (c : Chip) : (c.writeOwn r).panel.buz = c.panel.buz := by
  simp [Chip.writeOwn]

/-- A raised sequence leaves alarms and panel. -/
theorem Chip.raiseSeq_quiet (c : Chip) : c.raiseSeq.alarm = c.alarm ∧ c.raiseSeq.panel = c.panel := by
  unfold Chip.raiseSeq Chip.writeTruckSlot; split <;> simp

/-- An offer leaves alarms and panel. -/
theorem Chip.offer_quiet (t : OutTg) (c : Chip) : (c.offer t).alarm = c.alarm ∧ (c.offer t).panel = c.panel := by
  unfold Chip.offer; split <;> simp

/-- TARGET REACHED has become set. -/
def TruckRec.risesTo (c : Chip) (r : TruckRec) : Prop :=
  r.flags.reached = false ∧ ∃ t, r.target = some t ∧ t * (100 - c.cfg.underTol) / 100 ≤ r.total

/-- The rise of TARGET REACHED as the operation computes it. -/
theorem TruckRec.reaches_iff (c : Chip) (r : TruckRec) : r.reaches c.cfg = true ↔ TruckRec.risesTo c r := by
  unfold TruckRec.reaches TruckRec.isReached TruckRec.risesTo
  cases r.target with
  | none => simp
  | some t =>
    simp only [Bool.and_eq_true, Bool.not_eq_true', decide_eq_true_iff, Option.some.injEq, exists_eq_left']
    exact Iff.rfl

/-- What the target figures do to alarms and buzzer (R71). -/
theorem Chip.evaluateRecord_sounds (c : Chip) (r : TruckRec) (h : c.load.record = some r) (hm : c.role.mirrored = false)
    (hr : c.inRun = true) :
    (∀ a, a ≠ .overload → c.evaluateRecord.alarm.get a = c.alarm.get a)
      ∧ (c.evaluateRecord.alarm.get .overload).cond = (r.evaluate c.cfg).flags.overload
      ∧ (c.evaluateRecord.alarm.get .overload = c.alarm.get .overload →
          (TruckRec.risesTo c r →
            c.evaluateRecord.panel.buz = c.panel.buz.asked .double c.panel.settings.volume c.tick)
          ∧ (¬TruckRec.risesTo c r → c.evaluateRecord.panel.buz = c.panel.buz)) := by
  obtain ⟨p, hp⟩ : ∃ p, p = (if r.reaches c.cfg && c.inRun then (c.setRecord (some (r.evaluate c.cfg))).beepEvent .double
    else c.setRecord (some (r.evaluate c.cfg))) := ⟨_, rfl⟩
  have e : c.evaluateRecord = p.refresh .overload := by
    rw [hp]; simp [Chip.evaluateRecord, h, hm]
  have hrec : p.load.record = some (r.evaluate c.cfg) := by
    rw [hp]; split <;> simp [Chip.setRecord]
  have hpr : p.inRun = true := by
    rw [hp]; split <;> simpa [Chip.inRun] using hr
  have hpa : p.alarm = c.alarm := by
    rw [hp]; split
    · rw [Chip.beepEvent_run _ _ (by simpa [Chip.inRun] using hr)]; rfl
    · rfl
  rw [e]
  refine ⟨fun a ha => ?_, ?_, fun hs => ?_⟩
  · rw [Chip.refresh_others _ _ _ ha, hpa]
  · rw [Chip.refresh_cond _ _ hpr]
    simp [Chip.cond, Chip.overloaded, hrec]
  · have : p.refresh .overload = p := Chip.takeCond_same _ _ _ (by rw [← hpa] at hs; exact hs)
    rw [this]
    refine ⟨fun hn => ?_, fun hn => ?_⟩
    · rw [hp, (TruckRec.reaches_iff c r).mpr hn, hr, if_pos (by rfl),
        Chip.beepEvent_run _ _ (by simpa [Chip.inRun] using hr)]
      simp
    · rw [hp, if_neg (by rw [Bool.and_eq_true, TruckRec.reaches_iff]; exact fun x => hn x.1)]
      simp

/-- What a pass that joins the record does to alarms and buzzer. -/
theorem Chip.joinRecord_sounds (p : PassRec) (c : Chip) (r : TruckRec) (h : c.load.record = some r)
    (hr : c.inRun = true) :
    (∀ a, a ≠ .overload → (c.joinRecord p).2.alarm.get a = c.alarm.get a)
      ∧ ((c.joinRecord p).2.alarm.get .overload).cond = ((r.join p).evaluate c.cfg).flags.overload
      ∧ ((c.joinRecord p).2.alarm.get .overload = c.alarm.get .overload →
          (TruckRec.risesTo c (r.join p) →
            (c.joinRecord p).2.panel.buz = c.panel.buz.asked .double c.panel.settings.volume c.tick)
          ∧ (¬TruckRec.risesTo c (r.join p) → (c.joinRecord p).2.panel.buz = c.panel.buz)) := by
  have e : (c.joinRecord p).2 =
      (let c' := c.writeOwn (r.join p)
       (if c'.isActive then c'.offer (sendPass (r.numbered p)) else c').evaluateRecord.raiseSeq) := by
    simp [Chip.joinRecord, h]
  obtain ⟨c1, hc1⟩ : ∃ c1, c1 = (if (c.writeOwn (r.join p)).isActive then
    (c.writeOwn (r.join p)).offer (sendPass (r.numbered p)) else c.writeOwn (r.join p)) := ⟨_, rfl⟩
  have e2 : (c.joinRecord p).2 = c1.evaluateRecord.raiseSeq := by rw [e, hc1]
  have f : c1.alarm = c.alarm ∧ c1.panel.buz = c.panel.buz ∧ c1.panel.settings = c.panel.settings
      ∧ c1.load.record = some (r.join p) ∧ c1.role.mirrored = false ∧ c1.sup = c.sup ∧ c1.tick = c.tick
      ∧ c1.cfg = c.cfg := by
    rw [hc1]
    split
    · refine ⟨(Chip.offer_quiet _ _).1, ?_, ?_, ?_, ?_, ?_, ?_, ?_⟩
      · rw [(Chip.offer_quiet _ _).2]; simp
      all_goals simp [Chip.writeOwn, Chip.cfg, Chip.setRecord]
    · refine ⟨rfl, ?_, ?_, ?_, ?_, ?_, ?_, ?_⟩
      all_goals simp [Chip.writeOwn, Chip.cfg, Chip.setRecord]
  obtain ⟨f1, f2, f3, f4, f5, f6, f7, f8⟩ := f
  have hr1 : c1.inRun = true := by simpa [Chip.inRun, f6] using hr
  obtain ⟨g1, g2, g3⟩ := Chip.evaluateRecord_sounds c1 (r.join p) f4 f5 hr1
  have hn : TruckRec.risesTo c1 (r.join p) ↔ TruckRec.risesTo c (r.join p) := by unfold TruckRec.risesTo; rw [f8]
  rw [e2, (Chip.raiseSeq_quiet _).1, (Chip.raiseSeq_quiet _).2]
  rw [f1] at g1 g3
  rw [f8] at g2
  rw [hn, f2, f3, f7] at g3
  exact ⟨g1, g2, g3⟩

/-- The same with no record open: a stockpile record opens for the pass, which has no target. -/
theorem Chip.joinRecord_sounds_none (p : PassRec) (c : Chip) (h : c.load.record = none) (hr : c.inRun = true) :
    (∀ a, a ≠ .overload → (c.joinRecord p).2.alarm.get a = c.alarm.get a)
      ∧ ((c.joinRecord p).2.alarm.get .overload = c.alarm.get .overload →
          (c.joinRecord p).2.panel.buz = c.panel.buz) := by
  have hrec := Chip.openRecord_flags 0 none c
  have ef : (TruckRec.fresh 0 none).evaluate c.cfg = TruckRec.fresh 0 none := rfl
  rw [ef] at hrec
  have e : c.joinRecord p = (c.openRecord 0 none).joinRecord p := by simp [Chip.joinRecord, h, hrec]
  have hr1 : (c.openRecord 0 none).inRun = true := by simpa [Chip.inRun] using hr
  obtain ⟨g1, g2, g3⟩ := Chip.joinRecord_sounds p _ _ hrec hr1
  rw [← e] at g1 g2 g3
  have e1 : c.openRecord 0 none = (c.writeOwn (TruckRec.fresh 0 none)).evaluateRecord.raiseSeq := rfl
  obtain ⟨k1, k2, k3⟩ := Chip.evaluateRecord_sounds (c.writeOwn (TruckRec.fresh 0 none)) _ rfl rfl hr
  rw [e1, (Chip.raiseSeq_quiet _).1] at g1 g3
  have nr : ∀ (x : Chip) (q : PassRec), ¬TruckRec.risesTo x ((TruckRec.fresh 0 none).join q) := by
    rintro x q ⟨_, t, ht, _⟩; simp [TruckRec.join, TruckRec.fresh] at ht
  have nr0 : ∀ (x : Chip), ¬TruckRec.risesTo x (TruckRec.fresh 0 none) := by
    rintro x ⟨_, t, ht, _⟩; simp [TruckRec.fresh] at ht
  refine ⟨fun a ha => ?_, fun hs => ?_⟩
  · rw [g1 a ha, k1 a ha]; rfl
  · have ho : (c.alarm.get .overload).cond = false := by rw [← hs, g2]; rfl
    have hk : (c.writeOwn (TruckRec.fresh 0 none)).evaluateRecord.alarm.get .overload = c.alarm.get .overload := by
      have := Chip.takeCond_self .overload false c hr
      rw [if_pos ho] at this
      have k2' := k2
      -- the record is handed false, which it holds
      have e3 : (c.writeOwn (TruckRec.fresh 0 none)).evaluateRecord =
          (((c.writeOwn (TruckRec.fresh 0 none)).setRecord (some (TruckRec.fresh 0 none)))).takeCond .overload false := by
        rfl
      rw [e3, Chip.takeCond_self _ _ _ (by exact hr)]
      rw [if_pos (by exact ho)]
      rfl
    rw [(g3 (by rw [hs, hk])).2 (nr _ _), (Chip.raiseSeq_quiet _).2, (k3 (by rw [hk]; rfl)).2 (nr0 _)]
    simp

end Sys2Proof.Machine
end

