-- ==== Sys2Proof/Laws/Commit.lean ====
section
/-! SUPPORT. The commit at a dump: its destination, and what an entry to DUMP leaves (R41-R43). -/

namespace Sys2Proof.Machine

/-- The destination of a commit is the record where the part owns it. -/
theorem Chip.destRecord_owns (c : Chip) : c.destRecord = true ↔ c.owns := by
  unfold Chip.destRecord Chip.ownsRecord Chip.owns Chip.isWeigher Chip.cfg
  cases c.role.state <;> simp

/-- The counters of a commit (R41). -/
theorem LoadRegister.counted_eq (l : LoadRegister) (y : PassCtx) :
    let m := l.countCommit y.kind y.payload
    (m.shift, m.life) = l.counted y ∧ m = { l with shift := m.shift, life := m.life } := by
  dsimp only
  unfold LoadRegister.countCommit LoadRegister.counted
  cases y.payload <;> simp [satAdd, bump]

/-- The pass record of a context, with a truck id and a number (Table 2-5). -/
theorem PassCtx.record_eq (x : PassCtx) (now : Tick) (id n : Nat) :
    { x.record now with truckId := id, number := n } =
      (if x.stage = .candidate then x.weighedNot else x).committedAs now id n := by
  unfold PassCtx.record PassCtx.committedAs
  by_cases h : x.stage = .candidate
  · simp only [h, if_true]; rfl
  · simp only [h, if_false]; rfl

/-- Kind and payload of the pass record: a candidate commits UNWEIGHED (R41). -/
theorem PassCtx.record_kp (x : PassCtx) (now : Tick) :
    (x.record now).kind = (if x.stage = .candidate then x.weighedNot else x).kind
      ∧ (x.record now).payload = (if x.stage = .candidate then x.weighedNot else x).payload := by
  unfold PassCtx.record
  by_cases h : x.stage = .candidate <;> simp [h, PassCtx.unweigh, PassCtx.weighedNot]

/-- The TRUCK STATUS slot has no part in the event queue. -/
theorem Link.joined_tslot (l : Link) (t : Option OutTg) (q : OutTg) :
    ({ l with tslot := t } : Link).joined q = { l.joined q with tslot := t } := by
  have e : ({ l with tslot := t } : Link).headInHand = l.headInHand := rfl
  unfold Link.joined
  rw [e]
  dsimp only
  split
  · rfl
  · split <;> rfl

/-- The destination of a commit. -/
theorem Chip.deliverPass_facts (x : PassCtx) (c : Chip) (hr : c.inRun = true) :
    let y := if x.stage = .candidate then x.weighedNot else x
    let r := c.load.record.getD ⟨0, none, [], 0, 0, 0, RecFlags.none⟩
    let number := min 255 (r.count + 1)
    let p := y.committedAs c.tick r.id number
    let total := min 99999 (r.total + y.payload.getD 0)
    let pairs := c.role.pairing
    let reached := c.owns ∧ ∃ r t, c.load.record = some r ∧ r.flags.reached = false ∧ r.target = some t
      ∧ t * (100 - c.cfg.underTol) / 100 ≤ min 99999 (r.total + y.payload.getD 0)
    let q := c.deliverPass (x.record c.tick)
    q.1 = p ∧ q.2.load = { c.load with record := q.2.load.record, seq := q.2.load.seq }
      ∧ (c.owns → q.2.role = { c.role with mirrored := false }
        ∧ (∃ r', q.2.load.record = some r'
            ∧ (r'.id, r'.target, r'.passes, r'.count, r'.unweighed, r'.total)
                = (r.id, r.target, joinList p r.passes, number,
                    if y.payload = none then min 255 (r.unweighed + 1) else r.unweighed, total)
            ∧ c.flagged r.flags r')
        ∧ q.2.load.seq = c.load.seq + (if c.load.record = none then 2 else 1)
        ∧ q.2.link = q.2.sends c.link [passTelegram p])
      ∧ (¬c.owns → q.2.load.record = c.load.record ∧ q.2.load.seq = c.load.seq
        ∧ q.2.link = c.link
        ∧ (c.role.state ≠ .standby ∨ y.payload = none → q.2.role = c.role)
        ∧ ∀ m, c.role.state = .standby → y.payload = some m → q.2.role = { c.role with
            pairing := (if 2 ≤ pairs.length then pairs.drop 1 else pairs) ++ [⟨m, c.tick⟩]
            unpaired := if 2 ≤ pairs.length then min 65535 (c.role.unpaired + 1) else c.role.unpaired })
      ∧ (∀ a, a ≠ .overload → q.2.alarm.get a = c.alarm.get a)
      ∧ (q.2.alarm.get .overload = c.alarm.get .overload →
          (reached → q.2.panel.buz = c.panel.buz.asked .double c.panel.settings.volume c.tick)
          ∧ (¬reached → q.2.panel.buz = c.panel.buz)) := by
  dsimp only
  obtain ⟨hk, hp⟩ := PassCtx.record_kp x c.tick
  by_cases ho : c.owns
  · have hq : c.deliverPass (x.record c.tick) = c.joinRecord (x.record c.tick) := by
      simp [Chip.deliverPass, (Chip.destRecord_owns c).mpr ho]
    rw [hq]
    cases hrec : c.load.record with
    | some r =>
      obtain ⟨j1, _, _⟩ := Chip.joinRecord_load (x.record c.tick) c r hrec
      obtain ⟨k1, k2⟩ := Chip.joinRecord_all (x.record c.tick) c r hrec hr
      obtain ⟨s1, _, s3⟩ := Chip.joinRecord_sounds (x.record c.tick) c r hrec hr
      have hn : r.numbered (x.record c.tick) =
          (if x.stage = .candidate then x.weighedNot else x).committedAs c.tick r.id (min 255 (r.count + 1)) := by
        rw [← PassCtx.record_eq]; rfl
      have hrole := Chip.joinRecord_role (x.record c.tick) c r hrec
      rw [hn] at j1 k2
      simp only [Option.getD_some]
      refine ⟨j1, ?_, fun _ => ⟨hrole, ⟨_, by rw [k1], ?_, ?_⟩, ?_, k2⟩, fun h => absurd ho h, s1, ?_⟩
      · rw [k1]
      · simp only [TruckRec.evaluate, TruckRec.join, hn, hp, satAdd, Option.isNone_iff_eq_none]
      · exact Chip.flagged_evaluate c (r.join (x.record c.tick))
      · rw [k1]; rfl
      · have e : (∃ r_1 t, some r = some r_1 ∧ r_1.flags.reached = false ∧ r_1.target = some t
            ∧ t * (100 - c.cfg.underTol) / 100 ≤ min 99999 (r_1.total +
              (if x.stage = .candidate then x.weighedNot else x).payload.getD 0))
            ↔ TruckRec.risesTo c (r.join (x.record c.tick)) := by
          unfold TruckRec.risesTo
          simp only [TruckRec.join, hp, satAdd, Option.some.injEq]
          constructor
          · rintro ⟨_, t, rfl, h1, h2, h3⟩; exact ⟨h1, t, h2, h3⟩
          · rintro ⟨h1, t, h2, h3⟩; exact ⟨r, t, rfl, h1, h2, h3⟩
        rw [e]
        intro hs
        obtain ⟨a1, a2⟩ := s3 hs
        exact ⟨fun h => a1 h.2, fun h => a2 fun h' => h ⟨ho, h'⟩⟩
    | none =>
      have hrec1 := Chip.openRecord_flags 0 none c
      have ef : (TruckRec.fresh 0 none).evaluate c.cfg = TruckRec.fresh 0 none := rfl
      rw [ef] at hrec1
      have e : c.joinRecord (x.record c.tick) = (c.openRecord 0 none).joinRecord (x.record c.tick) := by
        simp [Chip.joinRecord, hrec, hrec1]
      have hr1 : (c.openRecord 0 none).inRun = true := by simpa [Chip.inRun] using hr
      obtain ⟨j1, _, _⟩ := Chip.joinRecord_load (x.record c.tick) _ _ hrec1
      obtain ⟨k1, k2⟩ := Chip.joinRecord_all (x.record c.tick) _ _ hrec1 hr1
      obtain ⟨_, _, _, hrole⟩ := Chip.joinRecord_stockpile (x.record c.tick) c hrec
      obtain ⟨s1, s2⟩ := Chip.joinRecord_sounds_none (x.record c.tick) c hrec hr
      have hn : (TruckRec.fresh 0 none).numbered (x.record c.tick) =
          (if x.stage = .candidate then x.weighedNot else x).committedAs c.tick 0 1 := by
        rw [← PassCtx.record_eq]; rfl
      have hcfg : (c.openRecord 0 none).cfg = c.cfg := by simp [Chip.cfg]
      have hop := (Chip.openRecord_load 0 none c).1
      have hol := Chip.openRecord_link 0 none c hr
      rw [hn] at j1 k2
      rw [← e] at j1 k1 k2
      rw [hop, hcfg] at k1
      simp only [Option.getD_none]
      refine ⟨j1, ?_, fun _ => ⟨hrole, ⟨_, by rw [k1], ?_, ?_⟩, ?_, ?_⟩, fun h => absurd ho h, s1, ?_⟩
      · rw [k1]
      · simp only [TruckRec.evaluate, TruckRec.join, hn, hp, satAdd, Option.isNone_iff_eq_none]
        rfl
      · exact Chip.flagged_evaluate c ((TruckRec.fresh 0 none).join (x.record c.tick))
      · rw [k1]; simp [BitVec.add_assoc]
      · rw [k2, hol]
        unfold Chip.sends
        have h1 : (c.openRecord 0 none).role.state = c.role.state := by simp
        have h2 : (c.joinRecord (x.record c.tick)).2.role.state = c.role.state := by rw [hrole]
        rw [h1, h2]
        by_cases ha : c.role.state = .active
        · simp only [ha, if_true, List.foldl, Link.joined_tslot]
          rfl
        · simp [ha]
      · intro hs
        exact ⟨fun h => by simp at h, fun _ => s2 hs⟩
  · have hq : c.deliverPass (x.record c.tick) =
        (c.shadowPass (x.record c.tick), c.shadowCommitted (x.record c.tick).payload) := by
      simp [Chip.deliverPass, mt (Chip.destRecord_owns c).mp ho]
    rw [hq]
    refine ⟨?_, by simp, fun h => absurd h ho, fun _ => ⟨by simp, by simp, by simp, ?_, ?_⟩, by simp, ?_⟩
    · cases hrec : c.load.record with
      | some r => simp only [Chip.shadowPass, hrec, Option.getD_some]; exact PassCtx.record_eq x c.tick r.id _
      | none => simp only [Chip.shadowPass, hrec, Option.getD_none]; exact PassCtx.record_eq x c.tick 0 1
    · rw [hp]
      rintro (h | h)
      · unfold Chip.shadowCommitted
        split <;> simp_all
      · simp [Chip.shadowCommitted, h]
    · rw [hp]
      intro m h1 h2
      simp only [Chip.shadowCommitted, h1, h2]
      split <;> simp [Chip.countUnpaired, Chip.mapRole, bump, satAdd, *]
    · intro _
      exact ⟨fun h => absurd h.1 ho, fun _ => by simp⟩

/-- What the command adds to a commit: the input fault handed over, the link settled. -/
structure Closes (e d : Chip) : Prop where
  link : d.link = e.link.settle d.maySend
  trk : d.trk = e.trk
  load : d.load = e.load
  role : d.role = e.role
  last : d.panel.lastPass = e.panel.lastPass
  alarm : ∀ a, a ≠ .inputFault → d.alarm.get a = e.alarm.get a
  buz : d.alarm.get .inputFault = e.alarm.get .inputFault → d.panel.buz = e.panel.buz

/-- The input fault handed over and the link settled. -/
theorem Closes.refresh (e : Chip) : Closes e ((e.refresh .inputFault).settleLink) where
  link := by simp
  trk := by simp
  load := by simp
  role := by simp
  last := by
    have := e.refresh_panel .inputFault
    unfold Chip.onlyBuzzer at this
    have h : (e.refresh .inputFault).settleLink.panel = (e.refresh .inputFault).panel := by simp
    rw [h, this]
  alarm := fun a ha => by
    have h : (e.refresh .inputFault).settleLink.alarm = (e.refresh .inputFault).alarm := by simp
    rw [h, Chip.refresh_others _ _ _ ha]
  buz := fun hs => by
    have h : (e.refresh .inputFault).settleLink.alarm = (e.refresh .inputFault).alarm := by simp
    rw [h] at hs
    have : e.refresh .inputFault = e := Chip.takeCond_same _ _ _ hs
    rw [this]; rfl

/-- The link settled alone. -/
theorem Closes.settle (e : Chip) : Closes e e.settleLink where
  link := rfl
  trk := rfl
  load := rfl
  role := rfl
  last := rfl
  alarm := fun _ _ => rfl
  buz := fun _ => rfl

/-- An entry to DUMP with a pass in flight commits it (R41-R43, R68-R71, R78, R118). -/
theorem Chip.enterDump_commits (c0 c d : Chip) (x : PassCtx) (hx : c.trk.ctx = some x) (hr : c0.inRun = true)
    (h1 : c.load = c0.load) (h2 : c.role = c0.role) (h3 : c.panel = c0.panel) (h4 : c.alarm = c0.alarm)
    (h5 : c.tick = c0.tick) (h6 : c.sup = c0.sup) (h7 : c.store = c0.store) (hd : Closes c.enterDump d) :
    let y := if x.stage = .candidate then x.weighedNot else x
    c0.committed d y c.link ∧ c0.commitSounds d y ∧ d.trk.voids = c.trk.voids ∧ d.trk.prevAngle = c.trk.prevAngle := by
  intro y
  obtain ⟨c2, hc2⟩ : ∃ c2, c2 = ((((c.mapTrk Tracker.endPass).setCycle .dump).mapLoad
    (LoadRegister.countCommit (x.record c.tick).kind (x.record c.tick).payload)).beepEvent .beep) := ⟨_, rfl⟩
  have hr2' : c.inRun = true := by simpa [Chip.inRun, h6] using hr
  have e2 : c2 = { c with
      trk := { c.trk.without with cycle := .dump }
      load := c.load.countCommit (x.record c.tick).kind (x.record c.tick).payload
      panel := { c.panel with buz := c.panel.buz.asked .beep c.panel.settings.volume c.tick } } := by
    rw [hc2, Chip.beepEvent_run _ _ (show ((((c.mapTrk Tracker.endPass).setCycle .dump).mapLoad
      (LoadRegister.countCommit (x.record c.tick).kind (x.record c.tick).payload))).inRun = true from hr2')]; rfl
  have hr2 : c2.inRun = true := by rw [e2]; exact hr2'
  have cfg2 : c2.cfg = c0.cfg := by rw [e2]; simp [Chip.cfg, h7]
  have ow : c2.owns ↔ c0.owns := by
    have : c2.role = c0.role := by rw [e2]; exact h2
    unfold Chip.owns; rw [this, cfg2]
  have t2 : c2.tick = c0.tick := by rw [e2]; exact h5
  obtain ⟨f1, f2, f3, f4, f5, f6⟩ := Chip.deliverPass_facts x c2 hr2
  obtain ⟨p', c3, hq⟩ : ∃ p' c3, c2.deliverPass (x.record c2.tick) = (p', c3) := ⟨_, _, rfl⟩
  rw [hq] at f1 f2 f3 f4 f5 f6
  dsimp only at f1 f2 f3 f4 f5 f6
  have sup3 : c3.sup = c2.sup := by have : c3 = (c2.deliverPass (x.record c2.tick)).2 := by rw [hq]
                                    rw [this]; simp
  have tick3 : c3.tick = c2.tick := by have : c3 = (c2.deliverPass (x.record c2.tick)).2 := by rw [hq]
                                       rw [this]; simp
  have store3 : c3.store = c2.store := by have : c3 = (c2.deliverPass (x.record c2.tick)).2 := by rw [hq]
                                          rw [this]; simp
  have trk3 : c3.trk = c2.trk := by have : c3 = (c2.deliverPass (x.record c2.tick)).2 := by rw [hq]
                                    rw [this]; simp
  have set3 : c3.panel.settings = c2.panel.settings := by
    have : c3 = (c2.deliverPass (x.record c2.tick)).2 := by rw [hq]
    rw [this]; simp
  obtain ⟨c4, hc4⟩ : ∃ c4, c4 = (if c3.cfg.overfilled p' then c3.pulsePassOver else c3) := ⟨_, rfl⟩
  have e5 : c.enterDump = (c4.mapPanel fun q => { q with lastPass := some p' }).mapTrk fun t =>
      { t with note := some ⟨c2.destRecord, p', false⟩ } := by
    have hd2 : c2.destRecord = ((c.mapTrk Tracker.endPass).setCycle .dump).destRecord := by rw [e2]; rfl
    have ht : c2.tick = c.tick := by rw [e2]
    rw [ht] at hq
    have ht' : ((c.mapTrk Tracker.endPass).setCycle .dump).tick = c.tick := rfl
    unfold Chip.enterDump Chip.commitPass
    simp only [hx, ht']
    rw [← hc2, hq, hd2, hc4]
  have hov : c3.cfg.overfilled p' = true ↔ (y.payload.isSome = true ∧ ∃ f, y.fill = some f ∧ c0.cfg.passOver < f) := by
    have : c3.cfg = c0.cfg := by simp only [Chip.cfg, store3]; exact cfg2
    rw [this, f1]
    unfold Cfg.overfilled PassCtx.committedAs
    dsimp only
    show _ ↔ (y.payload.isSome = true ∧ ∃ f, y.fill = some f ∧ c0.cfg.passOver < f)
    change (match y.payload, y.fill with
      | some _, some f => decide (c0.cfg.passOver < f)
      | _, _ => false) = true ↔ _
    cases y.payload <;> cases y.fill <;> simp
  have sup0 : c3.sup = c0.sup := by rw [sup3, e2]; exact h6
  have hr3 : c3.inRun = true := by simpa [Chip.inRun, sup0] using hr
  have po3 : c3.alarm.get .passOver = c0.alarm.get .passOver := by
    rw [f5 _ (by decide), e2]; simp [h4]
  have a4 : ∀ a, a ≠ .passOver → c4.alarm.get a = c3.alarm.get a := by
    intro a ha
    rw [hc4]
    split
    · unfold Chip.pulsePassOver
      rw [Chip.takeCond_others _ _ _ _ ha, Chip.takeCond_others _ _ _ _ ha]
    · rfl
  have fr4 : c4.load = c3.load ∧ c4.role = c3.role ∧ c4.link = c3.link ∧ c4.trk = c3.trk
      ∧ c4.panel = { c3.panel with buz := c4.panel.buz } := by
    rw [hc4]
    split
    · refine ⟨by simp, by simp, by simp, by simp, ?_⟩
      have := Chip.onlyBuzzer_trans _ _ _ (Chip.takeCond_panel .passOver true c3) (Chip.takeCond_panel .passOver false _)
      exact this
    · exact ⟨rfl, rfl, rfl, rfl, rfl⟩
  obtain ⟨l4, r4, k4, t4, p4⟩ := fr4
  have de : ∀ {α : Type} (f : Chip → α), f c.enterDump = f ((c4.mapPanel fun q => { q with lastPass := some p' }).mapTrk
      fun t => { t with note := some ⟨c2.destRecord, p', false⟩ }) := fun f => by rw [e5]
  have d_trk : d.trk = { c2.trk with note := some ⟨c2.destRecord, p', false⟩ } := by
    rw [hd.trk, de (·.trk)]; simp [t4, trk3]
  have d_load : d.load = c3.load := by rw [hd.load, de (·.load)]; simp [l4]
  have d_role : d.role = c3.role := by rw [hd.role, de (·.role)]; simp [r4]
  have d_link : d.link = c3.link.settle d.maySend := by rw [hd.link, de (·.link)]; simp [k4]
  have d_last : d.panel.lastPass = some p' := by rw [hd.last, de (·.panel)]; simp
  have cyc : (c.trk.without).cycle = c.trk.cycle := rfl
  have load2 : c2.load = c0.load.countCommit (x.record c.tick).kind (x.record c.tick).payload := by rw [e2, h1]
  have rec2 : c2.load.record = c0.load.record := by
    rw [load2]; unfold LoadRegister.countCommit; dsimp only; split <;> rfl
  have seq2 : c2.load.seq = c0.load.seq := by
    rw [load2]; unfold LoadRegister.countCommit; dsimp only; split <;> rfl
  have role2 : c2.role = c0.role := by rw [e2]; exact h2
  have link2 : c2.link = c.link := by rw [e2]
  have snd : ∀ (z : Chip) (ts : List OutTg), z.load = d.load → z.role = d.role → z.sends c.link ts = d.sends c.link ts :=
      by
    intro z ts a b; unfold Chip.sends; rw [a, b]
  obtain ⟨hk, hp⟩ := PassCtx.record_kp x c.tick
  have cnt : (d.load.shift, d.load.life) = c0.load.counted y := by
    rw [d_load, f2, load2, hk, hp]
    exact (LoadRegister.counted_eq c0.load y).1
  rw [rec2, t2, link2, role2, seq2] at f3
  rw [rec2, t2] at f1
  rw [rec2, t2, link2, role2, seq2] at f4
  refine ⟨⟨?_, ?_, ?_, ?_, ?_, ?_, cnt, ?_, ?_, ?_, ?_⟩, ⟨?_, ?_, ?_, ?_⟩, ?_, ?_⟩
  · rw [d_trk, e2]
  · rw [d_trk, e2]; rfl
  · rw [d_trk, e2]; rfl
  · rw [d_trk, e2]; rfl
  · rw [d_trk, e2]; rfl
  · rw [d_trk, e2]; rfl
  · rw [d_load, f2, load2]
    unfold LoadRegister.countCommit; dsimp only; split <;> rfl
  · rw [d_last, f1]
  · intro ho
    obtain ⟨g1, g2, g3, g4⟩ := f3 (ow.mpr ho)
    have hdest : c2.destRecord = true := (Chip.destRecord_owns c2).mpr (ow.mpr ho)
    refine ⟨?_, ?_, ?_, ?_, ?_⟩
    · rw [d_trk, hdest, f1]
    · rw [d_role, g1]
    · obtain ⟨r', x1, x2, x3⟩ := g2
      exact ⟨r', by rw [d_load]; exact x1, x2, (Chip.flagged_congr c0 c2 _ _ cfg2).mp x3⟩
    · rw [d_load, g3]
    · rw [d_link, g4, snd c3 _ d_load.symm d_role.symm]; rfl
  · intro ho
    obtain ⟨g1, g2, g3, g4, g5⟩ := f4 (fun h => ho (ow.mp h))
    have hdest : c2.destRecord = false := by
      rw [Bool.eq_false_iff]; exact fun h => ho (ow.mp ((Chip.destRecord_owns c2).mp h))
    refine ⟨?_, ?_, ?_, ?_, ?_, ?_⟩
    · rw [d_trk, hdest, f1]
    · rw [d_load, g1]
    · rw [d_load, g2]
    · rw [d_link, g3]
    · intro h; rw [d_role, g4 h]
    · intro m a b; rw [d_role, g5 m a b]
  · intro a b1 b2 b3
    rw [hd.alarm a b3, de (·.alarm)]
    show c4.alarm.get a = _
    rw [a4 a b2, f5 a b1, e2]; simp [h4]
  · intro hno
    rw [hd.alarm _ (by decide), de (·.alarm)]
    show c4.alarm.get _ = _
    rw [hc4, if_neg (mt hov.mp hno), po3]
  · intro ho hoc
    rw [hd.alarm _ (by decide), de (·.alarm)]
    show c4.alarm.get _ = _
    rw [hc4, if_pos (hov.mpr ho)]
    obtain ⟨k1, _⟩ := Chip.pulsePassOver_facts c3 hr3 (by rw [po3]; exact hoc)
    rw [k1, po3, tick3, t2]
  · rw [ow, cfg2, rec2] at f6
    have buz2 : c2.panel.buz = c0.panel.buz.asked .beep c0.panel.settings.volume c0.tick := by
      rw [e2]; simp [h3, h5]
    have set2 : c2.panel.settings = c0.panel.settings := by rw [e2]; simp [h3]
    have hst : (∀ a, a ≠ .passOver → d.alarm.get a = c0.alarm.get a) → d.panel.buz = c4.panel.buz
        ∧ c3.alarm.get .overload = c2.alarm.get .overload
        ∧ (c3.trills ↔ c0.trills) := by
      intro hs
      have eal : c.enterDump.alarm = c4.alarm := de (·.alarm)
      have aa : ∀ a, a ≠ .passOver → c3.alarm.get a = c0.alarm.get a := by
        intro a ha
        by_cases hi : a = .overload
        · rw [← a4 a ha, ← hs a ha, hd.alarm a (by rw [hi]; decide), eal]
        · rw [f5 a hi, e2]; simp [h4]
      refine ⟨?_, ?_, ?_⟩
      · rw [hd.buz]
        · rw [de (·.panel)]; rfl
        · rw [hs _ (by decide), eal, a4 _ (by decide), aa _ (by decide)]
      · rw [aa _ (by decide), e2]; simp [h4]
      · rw [← Chip.demand_trills, ← Chip.demand_trills, AlarmUnit.demand_congr _ _ aa]
    rw [buz2, set2, t2] at f6
    have hb : ∀ b, ((c0.owns ∧ ∃ r t, c0.load.record = some r ∧ r.flags.reached = false ∧ r.target = some t
          ∧ t * (100 - c0.cfg.underTol) / 100 ≤ min 99999 (r.total + y.payload.getD 0)) →
          b = (c0.panel.buz.asked .beep c0.panel.settings.volume c0.tick).asked .double c0.panel.settings.volume c0.tick)
              →
        (¬(c0.owns ∧ ∃ r t, c0.load.record = some r ∧ r.flags.reached = false ∧ r.target = some t
          ∧ t * (100 - c0.cfg.underTol) / 100 ≤ min 99999 (r.total + y.payload.getD 0)) →
          b = (c0.panel.buz.asked .beep c0.panel.settings.volume c0.tick)) →
        c3.alarm.get .overload = c2.alarm.get .overload → c3.panel.buz = b := by
      intro b b1 b2 hh
      obtain ⟨x1, x2⟩ := f6 hh
      by_cases hre : (c0.owns ∧ ∃ r t, c0.load.record = some r ∧ r.flags.reached = false ∧ r.target = some t
          ∧ t * (100 - c0.cfg.underTol) / 100 ≤ min 99999 (r.total + y.payload.getD 0))
      · rw [b1 hre]; exact x1 hre
      · rw [b2 hre]; exact x2 hre
    have set3' : c3.panel.settings = c0.panel.settings := by rw [set3, set2]
    have tick3' : c3.tick = c0.tick := by rw [tick3, t2]
    have fin : ∀ b, c3.panel.buz = b → (∀ a, a ≠ .passOver → d.alarm.get a = c0.alarm.get a) →
        ((¬(y.payload.isSome = true ∧ ∃ f, y.fill = some f ∧ c0.cfg.passOver < f) ∨ (c0.alarm.get .passOver).cond = false
          ∧ ((c0.alarm.get .passOver).mask = true ∨ c0.trills) → d.panel.buz = b)
        ∧ ((y.payload.isSome = true ∧ ∃ f, y.fill = some f ∧ c0.cfg.passOver < f) →
            (c0.alarm.get .passOver).mask = false →
          ¬c0.trills → (c0.alarm.get .passOver).cond = false → d.panel.buz =
            ⟨some .long, if b.slot = none then b.queue.drop 1 else b.queue,
              some ⟨0, c0.tick, c0.panel.settings.volume⟩⟩)) := by
      intro b hb' hs
      obtain ⟨y1, y2, y3⟩ := hst hs
      refine ⟨?_, ?_⟩
      · rintro (h | ⟨h, h'⟩)
        · rw [y1, hc4, if_neg (mt hov.mp h), hb']
        · by_cases ho : (y.payload.isSome = true ∧ ∃ f, y.fill = some f ∧ c0.cfg.passOver < f)
          · obtain ⟨_, _, k3, _⟩ := Chip.pulsePassOver_facts c3 hr3 (by rw [po3]; exact h)
            rw [y1, hc4, if_pos (hov.mpr ho), k3 (by rw [po3, y3]; exact h'), hb']
          · rw [y1, hc4, if_neg (mt hov.mp ho), hb']
      · intro ho hm ht hoc
        obtain ⟨_, _, _, k4⟩ := Chip.pulsePassOver_facts c3 hr3 (by rw [po3]; exact hoc)
        rw [y1, hc4, if_pos (hov.mpr ho), k4 (by rw [po3]; exact hm) (by rw [y3]; exact ht), hb', set3', tick3']
    by_cases hre : (c0.owns ∧ ∃ r t, c0.load.record = some r ∧ r.flags.reached = false ∧ r.target = some t
          ∧ t * (100 - c0.cfg.underTol) / 100 ≤ min 99999 (r.total + y.payload.getD 0))
    · refine ⟨_, fun h => absurd hre h, fun _ => rfl, ?_, ?_⟩
      · intro hs h
        exact (fin _ (hb _ (fun _ => rfl) (fun h => absurd hre h) (hst hs).2.1) hs).1 h
      · intro hs a1 a2 a3 a4'
        exact (fin _ (hb _ (fun _ => rfl) (fun h => absurd hre h) (hst hs).2.1) hs).2 a1 a2 a3 a4'
    · refine ⟨_, fun _ => rfl, fun h => absurd h hre, ?_, ?_⟩
      · intro hs h
        exact (fin _ (hb _ (fun h => absurd h hre) (fun _ => rfl) (hst hs).2.1) hs).1 h
      · intro hs a1 a2 a3 a4'
        exact (fin _ (hb _ (fun h => absurd h hre) (fun _ => rfl) (hst hs).2.1) hs).2 a1 a2 a3 a4'
  · rw [d_trk, e2]; rfl
  · rw [d_trk, e2]; rfl

end Sys2Proof.Machine
end

