-- ==== Sys2Proof/Laws/Input.lean ====
section
/-! SUPPORT. What the input table's operations can do: a channel's record set and read, the selection, DISAGREE and the boom
rate after they are derived. -/

namespace Sys2Proof.Machine

@[simp] theorem InputTable.chan_setChan (t : InputTable) (i : ChanId) (r : ChanRec) : (t.setChan i r).chan i = r := by
  cases i <;> rfl

theorem InputTable.chan_setChan_ne (t : InputTable) (i j : ChanId) (r : ChanRec) (h : j ≠ i) :
    (t.setChan i r).chan j = t.chan j := by
  cases i <;> cases j <;> first | rfl | exact absurd rfl h

@[simp] theorem InputTable.setChan_rest (t : InputTable) (i : ChanId) (r : ChanRec) :
    (t.setChan i r).held = t.held ∧ (t.setChan i r).sel = t.sel ∧ (t.setChan i r).disagree = t.disagree
      ∧ (t.setChan i r).omega = t.omega ∧ (t.setChan i r).rateMem = t.rateMem
      ∧ (t.setChan i r).rateTimer = t.rateTimer := by
  cases i <;> exact ⟨rfl, rfl, rfl, rfl, rfl, rfl⟩

@[simp] theorem InputTable.derive_chan (limit : Nat) (t : InputTable) (i : ChanId) :
    (t.derive limit).chan i = t.chan i := by
  cases i <;> simp [InputTable.chan]

@[simp] theorem InputTable.reselect_sel (t : InputTable) : t.reselect.sel = t.selection := by
  unfold InputTable.reselect
  split <;> simp_all

@[simp] theorem InputTable.derive_sel (limit : Nat) (t : InputTable) : (t.derive limit).sel = t.selection := by
  simp [InputTable.derive]

/-- The boom rate and its memory are kept while the selection stands (R58, R60). -/
theorem InputTable.derive_rate (limit : Nat) (t : InputTable) :
    (t.derive limit).rateMem = (if t.selection = t.sel then t.rateMem else none)
      ∧ (t.derive limit).omega = (if t.selection = t.sel then t.omega else none) := by
  simp only [InputTable.derive, InputTable.reselect]
  split <;> simp_all [InputTable.dropRate]

/-- DISAGREE: both angle channels FRESH and further apart than the limit (R59). -/
theorem InputTable.derive_disagree (limit : Nat) (t : InputTable) :
    (t.derive limit).disagree = true ↔
      t.primary.freshness = .fresh ∧ t.secondary.freshness = .fresh
        ∧ ∃ p q, t.held.primary = some p ∧ t.held.secondary = some q ∧ limit < (p - q).natAbs := by
  simp only [InputTable.derive, InputTable.disagrees]
  cases h1 : t.reselect.held.primary <;> cases h2 : t.reselect.held.secondary <;> simp_all [and_assoc]

/-- A channel reset at the end of the start window: its record and its held value, and the selection that leaves it (R64). -/
theorem InputTable.rechannel_facts (now : Tick) (run : Bool) (i : ChanId) (t : InputTable) :
    let u := t.rechannel now run i
    (∀ j, u.chan j = if j = i then (t.chan i).rechannel now run else t.chan j) ∧ u.held = t.held.forget i
      ∧ u.rateTimer = t.rateTimer
      ∧ (t.sel.map AngleSrc.chan = some i → u.sel = none ∧ u.omega = none ∧ u.rateMem = none)
      ∧ (t.sel.map AngleSrc.chan ≠ some i → u.sel = t.sel ∧ u.omega = t.omega ∧ u.rateMem = t.rateMem) := by
  dsimp only
  unfold InputTable.rechannel
  by_cases h : t.sel.map AngleSrc.chan = some i
  · have h' : (t.setChan i ((t.chan i).rechannel now run)).sel.map AngleSrc.chan = some i := by rw [← h]; simp
    simp only [h', if_true]
    refine ⟨fun j => ?_, ?_, ?_, fun _ => by simp [InputTable.dropRate], fun hn => absurd h hn⟩
    · cases i <;> cases j <;> rfl
    all_goals cases i <;> rfl
  · have h' : ¬(t.setChan i ((t.chan i).rechannel now run)).sel.map AngleSrc.chan = some i := by simpa using h
    simp only [h', if_false]
    refine ⟨fun j => ?_, ?_, ?_, fun hn => absurd hn h, fun _ => ?_⟩
    · cases i <;> cases j <;> rfl
    all_goals cases i <;> simp [InputTable.setChan]

/-- A held value forgotten is none, and the others stand. -/
theorem HeldValues.forget_self (g : HeldValues) (i : ChanId) : (g.forget i).agree HeldValues.none i := by cases i <;> rfl

theorem HeldValues.forget_other (g h : HeldValues) (i j : ChanId) (hn : i ≠ j) :
    ((g.forget j).agree h i ↔ g.agree h i) ∧ (h.agree (g.forget j) i ↔ h.agree g i) := by
  cases i <;> cases j <;> first | exact absurd rfl hn | exact ⟨Iff.rfl, Iff.rfl⟩

/-- The channels of a list whose source changed are reset, each once, and the others stand; the selection leaves a channel
so reset (R64). -/
theorem InputTable.rechannel_list (old new : Cfg) (now : Tick) (run : Bool) (l : List ChanId) (hn : l.Nodup) :
    ∀ t : InputTable,
      let u := l.foldl (fun t i => if old.source i = new.source i then t else t.rechannel now run i) t
      let reset := ∃ a, t.sel = some a ∧ a.chan ∈ l ∧ old.source a.chan ≠ new.source a.chan
      (∀ i, i ∈ l → old.source i ≠ new.source i →
          u.chan i = (t.chan i).rechannel now run ∧ u.held.agree HeldValues.none i)
        ∧ (∀ i, t.held.agree HeldValues.none i → u.held.agree HeldValues.none i)
        ∧ (∀ i, i ∉ l ∨ old.source i = new.source i → u.chan i = t.chan i ∧ u.held.agree t.held i)
        ∧ (reset → u.sel = none ∧ u.omega = none ∧ u.rateMem = none)
        ∧ (¬reset → u.sel = t.sel ∧ u.omega = t.omega ∧ u.rateMem = t.rateMem) ∧ u.rateTimer = t.rateTimer := by
  induction l with
  | nil =>
    intro t
    refine ⟨fun i h => (nomatch h), fun i h => h, fun i _ => ⟨rfl, by cases i <;> rfl⟩, ?_,
      fun _ => ⟨rfl, rfl, rfl⟩, rfl⟩
    rintro ⟨a, _, h, _⟩
    exact nomatch h
  | cons j js ih =>
    intro t
    obtain ⟨hj, hjs⟩ := List.nodup_cons.mp hn
    dsimp only [List.foldl_cons]
    by_cases hs : old.source j = new.source j
    · rw [if_pos hs]
      obtain ⟨a1, a2, a3, a4, a5, a6⟩ := ih hjs t
      refine ⟨fun i hi hne => ?_, a2, fun i hi => ?_, ?_, fun h => ?_, a6⟩
      · rcases List.mem_cons.mp hi with q | q
        · rw [q] at hne; exact absurd hs hne
        · exact a1 i q hne
      · exact a3 i (hi.imp_left fun h q => h (List.mem_cons_of_mem _ q))
      · rintro ⟨a, h1, h2, h3⟩
        rcases List.mem_cons.mp h2 with q | q
        · rw [q] at h3; exact absurd hs h3
        · exact a4 ⟨a, h1, q, h3⟩
      · exact a5 fun ⟨a, h1, h2, h3⟩ => h ⟨a, h1, List.mem_cons_of_mem _ h2, h3⟩
    · rw [if_neg hs]
      obtain ⟨a1, a2, a3, a4, a5, a6⟩ := ih hjs (t.rechannel now run j)
      obtain ⟨r1, r2, r3, r4, r5⟩ := t.rechannel_facts now run j
      refine ⟨fun i hi hne => ?_, fun i hi => ?_, fun i hi => ?_, ?_, fun h => ?_, by rw [a6, r3]⟩
      · by_cases q : i = j
        · subst q
          refine ⟨?_, a2 i (by rw [r2]; exact HeldValues.forget_self ..)⟩
          rw [(a3 i (Or.inl hj)).1, r1, if_pos rfl]
        · obtain ⟨b1, b2⟩ := a1 i ((List.mem_cons.mp hi).resolve_left q) hne
          rw [b1, r1, if_neg q]
          exact ⟨rfl, b2⟩
      · refine a2 i ?_
        rw [r2]
        by_cases q : i = j
        · subst q; exact HeldValues.forget_self ..
        · exact (HeldValues.forget_other _ _ _ _ q).1.mpr hi
      · have q : i ≠ j := by
          rintro rfl
          exact hi.elim (fun h => h (List.mem_cons_self ..)) hs
        obtain ⟨b1, b2⟩ := a3 i (hi.imp_left fun h q => h (List.mem_cons_of_mem _ q))
        rw [b1, r1, if_neg q]
        rw [r2] at b2
        exact ⟨rfl, (HeldValues.forget_other _ _ _ _ q).2.mp b2⟩
      · rintro ⟨a, h1, h2, h3⟩
        by_cases q : a.chan = j
        · obtain ⟨e1, e2, e3⟩ := r4 (by rw [h1, ← q]; rfl)
          have := a5 (by rw [e1]; rintro ⟨b, hb, _⟩; cases hb)
          rw [e1, e2, e3] at this
          exact this
        · have e := r5 (by rw [h1]; simpa using q)
          exact a4 ⟨a, by rw [e.1]; exact h1, (List.mem_cons.mp h2).resolve_left q, h3⟩
      · have q : t.sel.map AngleSrc.chan ≠ some j := by
          intro q
          obtain ⟨a, ha, haj⟩ := Option.map_eq_some_iff.mp q
          exact h ⟨a, ha, by rw [haj]; exact List.mem_cons_self .., by rw [haj]; exact hs⟩
        obtain ⟨e1, e2, e3⟩ := r5 q
        have := a5 (by rw [e1]; exact fun ⟨a, h1, h2, h3⟩ => h ⟨a, h1, List.mem_cons_of_mem _ h2, h3⟩)
        rw [e1, e2, e3] at this
        exact this

/-- An angle arrival of the selected source computes the rate, a faulty one drops it (R60, R61). -/
theorem InputTable.takeRate_facts (src : AngleSrc) (st : ArrStatus) (a : Int) (now : Tick) (t : InputTable)
    (h : t.sel = some src) :
    (st = .ok → (t.takeRate src st a now).rateMem = some ⟨src, a, now⟩
        ∧ (t.takeRate src st a now).omega = t.rateMem.bind fun m => m.rate src a now)
      ∧ (st ≠ .ok → (t.takeRate src st a now).rateMem = none ∧ (t.takeRate src st a now).omega = none) := by
  unfold InputTable.takeRate
  refine ⟨fun h1 => ?_, fun h1 => ?_⟩ <;> simp_all [InputTable.dropRate]

end Sys2Proof.Machine
end

