-- ==== Sys2Proof/Laws/Tracker.lean ====
section
/-! SUPPORT. The path of a pressure and of a primary angle to the cycle tracker, and the entry to IDLE. -/

namespace Sys2Proof.Machine

/-- A LIFT PRESSURE that the part hears from its source is a pressure arrival. -/
theorem Chip.pressure_path (s : State) (src dst data) (h : s.chip.Hears src dst data)
    (hs : src.toNat = s.chip.cfg.srcPressure) (hl : 6 ≤ data.length) :
   Chip.whenUp (Chip.receive 0x08 src dst data) s.chip = (Chip.pressureArrival ⟨byteAt data 0, nat16 data 1,
       nat16 data 3, pressureStatus (nat8 data 5)⟩ (s.chip.mapLink Link.runEnded)).settleLink := by
  have hcfg : s.chip.cfg.hears .liftPressure src.toNat = true := by simp [Cfg.hears, Kind.channels, Cfg.source, hs]
  have hl' : ¬ data.length < 6 := by omega
  rw [Chip.receive_consumes _ _ _ _ _ .liftPressure h (by decide) hcfg (fun h => absurd h (by decide))]
  simp only [Chip.consumeInRun, Chip.take, readPressure, takeData, if_neg hl']

/-- A tilt that is not FRESH, or lies above, is not at or below an angle. -/
theorem Chip.atMost_freshTilt (c : Chip) (x : Int) (h : ∀ a, c.inp.tilt.freshness = .fresh →
    c.inp.held.tilt = some a → x < a) : atMost c.freshTilt x = false := by
  unfold Chip.freshTilt atMost
  by_cases hf : c.inp.tilt.freshness = .fresh
  · simp only [hf, if_true]
    cases ht : c.inp.held.tilt with
    | none => rfl
    | some a => have := h a hf ht; simp; omega
  · simp [hf]

/-- A BOOM ANGLE that the part hears from the primary source is a primary arrival. -/
theorem Chip.angle_path (s : State) (src dst data) (h : s.chip.Hears src dst data)
    (hs : src.toNat = s.chip.cfg.srcPrimary) (hl : 4 ≤ data.length) :
   Chip.whenUp (Chip.receive 0x09 src dst data) s.chip = (Chip.angleArrival .primary ⟨byteAt data 0, int16 data 1,
       angleStatus (nat8 data 3)⟩ (s.chip.mapLink Link.runEnded)).settleLink := by
  have hcfg : s.chip.cfg.hears .boomAngle src.toNat = true := by simp [Cfg.hears, Kind.channels, Cfg.source, hs]
  have hsrc' : (s.chip.mapLink Link.runEnded).cfg.angleSrc src.toNat = some .primary := by
    show s.chip.cfg.angleSrc src.toNat = _
    simp [Cfg.angleSrc, hs]
  have hl' : ¬ data.length < 4 := by omega
  rw [Chip.receive_consumes _ _ _ _ _ .boomAngle h (by decide) hcfg (fun h => absurd h (by decide))]
  simp only [Chip.consumeInRun, Chip.takeAngle, hsrc', Chip.take, readAngle, takeData, if_neg hl']

/-- The part as the tracker takes a usable primary angle. -/
theorem Chip.angle_arrives (s : State) (src dst data) (h : s.chip.Hears src dst data)
    (hs : src.toNat = s.chip.cfg.srcPrimary) (hl : 4 ≤ data.length) (hst : nat8 data 3 = 0)
        (hw : s.chip.cfg.role = .weigher) (hcy : s.chip.trk.cycle ≠ .suspended) :
   ∃ c1 : Chip, Chip.whenUp (Chip.receive 0x09 src dst data) s.chip = ((((c1.angleTransition s.chip.trk.prevAngle
       (clampInt (-4500) 6000 (int16 data 1))).syncLoss).refresh .inputFault).settleLink)
    ∧ c1.trk = { s.chip.trk with prevAngle := some (clampInt (-4500) 6000 (int16 data 1)) }
        ∧ c1.inp.tilt = s.chip.inp.tilt ∧ c1.inp.held.tilt = s.chip.inp.held.tilt
    ∧ c1.inp.primary.freshness = .fresh ∧ c1.inp.held.primary = some (clampInt (-4500) 6000 (int16 data 1))
        ∧ c1.eng = s.chip.eng ∧ c1.store = s.chip.store ∧ c1.load = s.chip.load ∧ c1.role = s.chip.role
            ∧ c1.alarm = s.chip.alarm ∧ c1.panel = s.chip.panel ∧ c1.sup = s.chip.sup ∧ c1.pins = s.chip.pins
                ∧ c1.tick = s.chip.tick ∧ c1.link = s.chip.link.runEnded
                ∧ c1.inp.pressure = s.chip.inp.pressure := by
  rw [Chip.angle_path s src dst data h hs hl]
  obtain ⟨m, hm⟩ : ∃ m : AngleMsg, m = ⟨byteAt data 0, int16 data 1, angleStatus (nat8 data 3)⟩ := ⟨_, rfl⟩
  rw [← hm]
  have hok : m.status = .ok := by simp [hm, hst, angleStatus]
  have hma : m.angle = int16 data 1 := by rw [hm]
  obtain ⟨c0, hc0⟩ : ∃ c0, c0 = ((s.chip.mapLink Link.runEnded).mapInp
      (InputTable.arriveAngle s.chip.cfg.disagreeLimit .primary m s.chip.tick)).calAngle m.status := ⟨_, rfl⟩
  have e : Chip.angleArrival .primary m (s.chip.mapLink Link.runEnded) =
      ((c0.trackAngle m.status).syncLoss).refresh .inputFault := by rw [hc0]; rfl
  have hp : c0.inp.held.primary = some (clampInt (-4500) 6000 (int16 data 1)) := by
    rw [hc0]; simp [InputTable.arriveAngle, hok, HeldValues.setAngle, hma]
  have hcy0 : c0.trk = s.chip.trk := by rw [hc0]; simp
  have hw0 : c0.isWeigher = true := by
    have : c0.store = s.chip.store := by rw [hc0]; simp
    simp [Chip.isWeigher, this]; exact hw
  refine ⟨c0.mapTrk fun t => { t with prevAngle := some (clampInt (-4500) 6000 (int16 data 1)) }, ?_, ?_, ?_, ?_, ?_,
      hp, ?_, ?_, ?_, ?_, ?_, ?_, ?_, ?_, ?_, ?_, ?_⟩
  · rw [e]
    have hw1 : (c0.mapTrk fun t => { t with prevAngle := some (clampInt (-4500) 6000
        (int16 data 1)) }).isWeigher = true := hw0
    have : c0.trackAngle m.status = (c0.mapTrk fun t => { t with prevAngle := some (clampInt (-4500) 6000
        (int16 data 1)) }).angleTransition s.chip.trk.prevAngle (clampInt (-4500) 6000 (int16 data 1)) := by
      simp only [Chip.trackAngle, hok, hp, hcy0, if_neg hcy, hw1, if_true]
    rw [this]
  · simp [hcy0]
  · rw [hc0]; simp [InputTable.arriveAngle, AngleSrc.chan, InputTable.setChan]
  · rw [hc0]; simp [InputTable.arriveAngle, AngleSrc.chan, InputTable.setChan, HeldValues.setAngle]; split <;> rfl
  · rw [hc0]; simp [InputTable.arriveAngle, AngleSrc.chan, InputTable.setChan, ChanRec.arrive, hok]
  all_goals (rw [hc0]; simp [InputTable.arriveAngle, AngleSrc.chan, InputTable.setChan])

/-- Where the pressure does not dig, the entry to IDLE stays there (R29). -/
theorem Chip.enterIdle_stays (c : Chip) (h : ∀ v, c.inp.pressure.freshness = .fresh → c.inp.held.pressure = some v →
    v.ph < c.cfg.digPressure) : c.enterIdle = c.mapTrk fun t => { t.endPass with cycle := .idle, racked := false } := by
  unfold Chip.enterIdle; dsimp only
  split
  · rename_i v hv
    have : (Chip.mapTrk (fun t => { t.endPass with cycle := .idle, racked := false }) c).digs v.ph = false := by
      have hh : c.freshPressure = some v := hv
      unfold Chip.freshPressure at hh
      split at hh
      · have := h v (by assumption) hh
        simp only [Chip.digs]
        have hn : ¬ (Chip.mapTrk (fun t => { t.endPass with cycle := .idle, racked := false }) c).cfg.digPressure ≤ v.ph := by
          show ¬ c.cfg.digPressure ≤ v.ph; omega
        rw [decide_eq_false hn]; simp
      · cases hh
    rw [this]; rfl
  · rfl

end Sys2Proof.Machine
end

