-- ==== Sys2Proof/Laws/Cycle.lean ====
section
/-! SUPPORT. The entries to the cycle states, the timers of the tracker, and a usable angle or tilt as the tracker takes it
(R28-R40). -/

namespace Sys2Proof.Machine

/-- The test of the dump angle. -/
theorem Chip.atMost_dumped (c : Chip) : atMost c.freshTilt c.cfg.dumpAngle = true ↔ c.isDumped := by
  unfold Chip.freshTilt Chip.isDumped freshAnd atMost
  by_cases hf : c.inp.tilt.freshness = .fresh
  · simp only [hf, if_true, true_and]; cases c.inp.held.tilt <;> simp
  · simp [hf]

/-- The test of the rack-back angle. -/
theorem Chip.atLeast_racked (c : Chip) : atLeast c.freshTilt c.cfg.rackAngle = true ↔ c.isRacked := by
  unfold Chip.freshTilt Chip.isRacked freshAnd atLeast
  by_cases hf : c.inp.tilt.freshness = .fresh
  · simp only [hf, if_true, true_and]; cases c.inp.held.tilt <;> simp
  · simp [hf]

/-- A test of the primary angle. -/
theorem Chip.below_angle (c : Chip) (x : Int) : below c.freshAngle x = true
    ↔ freshAnd c.inp.primary c.inp.held.primary (fun a => a < x) := by
  unfold Chip.freshAngle freshAnd below
  by_cases hf : c.inp.primary.freshness = .fresh
  · simp only [hf, if_true, true_and]; cases c.inp.held.primary <;> simp
  · simp [hf]

/-- Entry to LIFT: a tilt at the dump angle goes on to DUMP (R28, R32). -/
theorem Chip.enterLift_eq (c d : Chip) (hd : d = c.mapTrk fun t => { t with cycle := .lift, fillTimer := none }) :
    (¬c.isDumped → c.enterLift = d) ∧ (c.isDumped → c.enterLift = d.enterDump) := by
  have e : c.enterLift = if atMost d.freshTilt d.cfg.dumpAngle = true then d.enterDump else d := by rw [hd]; rfl
  have h : d.isDumped ↔ c.isDumped := by rw [hd]; exact Iff.rfl
  have h3 := d.atMost_dumped.trans h
  rw [e]
  exact ⟨fun x => if_neg (mt h3.mp x), fun x => if_pos (h3.mpr x)⟩

/-- Entry to FILL: a racked bucket goes on to LIFT, one at the dump angle too to DUMP (R28, R31). -/
theorem Chip.enterFill_facts (c : Chip) :
    let opened (s : Cycle) :=
        { c with trk := { c.trk with cycle := s, ctx := some (normalPass c.tick), fillTimer := none } }
    (¬c.isRacked → c.enterFill = opened .fill) ∧ (c.isRacked → ¬c.isDumped → c.enterFill = opened .lift)
      ∧ (c.isRacked → c.isDumped → c.enterFill = (opened .lift).enterDump) := by
  dsimp only
  obtain ⟨d, hd⟩ : ∃ d, d = (c.mapTrk fun t =>
    { t with cycle := .fill, ctx := some (PassCtx.open_ .normal c.tick), fillTimer := none }) := ⟨_, rfl⟩
  have e : c.enterFill = if atLeast d.freshTilt d.cfg.rackAngle = true then d.enterLift else d := by rw [hd]; rfl
  have h : d.isRacked ↔ c.isRacked := by rw [hd]; exact Iff.rfl
  have h2 : d.isDumped ↔ c.isDumped := by rw [hd]; exact Iff.rfl
  obtain ⟨l1, l2⟩ := Chip.enterLift_eq d _ rfl
  have h3 := d.atLeast_racked.trans h
  rw [e]
  refine ⟨fun h => ?_, fun h h' => ?_, fun h h' => ?_⟩
  · rw [if_neg (mt h3.mp h), hd]; rfl
  · rw [if_pos (h3.mpr h), l1 (by rw [h2]; exact h'), hd]; rfl
  · rw [if_pos (h3.mpr h), l2 (by rw [h2]; exact h'), hd]; rfl

/-- The test of the dig at a pressure (R30). -/
theorem Chip.digs_iff (c : Chip) (ph : Nat) : c.digs ph = true ↔ c.cfg.role = .weigher ∧ c.cfg.digPressure ≤ ph
        ∧ freshAnd c.inp.primary c.inp.held.primary (fun a => a < c.cfg.thetaS) := by
  unfold Chip.digs
  rw [Bool.and_eq_true, Bool.and_eq_true, Chip.below_angle]
  rw [decide_eq_true_iff, and_assoc]
  simp [Chip.isWeigher, Chip.cfg]

/-- Entry to IDLE: a held dig goes on to FILL, LIFT or DUMP (R28-R32). -/
theorem Chip.enterIdle_facts (c : Chip) :
    let opened (s : Cycle) :=
      { c with trk := { c.trk.without with cycle := s, racked := false, ctx := some (normalPass c.tick) } }
    (¬c.inDig → c.enterIdle = { c with trk := { c.trk.without with cycle := .idle, racked := false } })
      ∧ (c.inDig → ¬c.isRacked → c.enterIdle = opened .fill)
          ∧ (c.inDig → c.isRacked → ¬c.isDumped → c.enterIdle = opened .lift)
      ∧ (c.inDig → c.isRacked → c.isDumped → c.enterIdle = (opened .lift).enterDump) := by
  classical
  dsimp only
  obtain ⟨e, he⟩ : ∃ e, e = (c.mapTrk fun t => { t.endPass with cycle := .idle, racked := false }) := ⟨_, rfl⟩
  have hi : e.inDig ↔ c.inDig := by rw [he]; exact Iff.rfl
  have hr : e.isRacked ↔ c.isRacked := by rw [he]; exact Iff.rfl
  have hd : e.isDumped ↔ c.isDumped := by rw [he]; exact Iff.rfl
  have hk : (match e.freshPressure with
      | some v => if e.digs v.ph then e.enterFill else e
      | none => e) = if c.inDig then e.enterFill else e := by
    unfold Chip.freshPressure
    by_cases hf : e.inp.pressure.freshness = .fresh
    · simp only [hf, if_true]
      cases hh : e.inp.held.pressure with
      | none => rw [← hi]; simp [Chip.inDig, freshAnd, hh]
      | some v =>
        have : (e.digs v.ph = true) ↔ c.inDig := by
          rw [Chip.digs_iff, ← hi]; simp only [Chip.inDig]
          rw [show freshAnd e.inp.pressure e.inp.held.pressure (fun v => e.cfg.digPressure ≤ v.ph)
              ↔ e.cfg.digPressure ≤ v.ph by
            simp [freshAnd, hf, hh]]
        dsimp only
        by_cases hc : c.inDig
        · rw [if_pos hc, if_pos (this.mpr hc)]
        · rw [if_neg hc, if_neg (mt this.mp hc)]
    · simp only [hf, if_false]
      rw [← hi]
      simp [Chip.inDig, freshAnd, hf]
  have hx : c.enterIdle = if c.inDig then e.enterFill else e := by
    rw [← hk, he]; rfl
  obtain ⟨f1, f2, f3⟩ := e.enterFill_facts
  rw [hx]
  refine ⟨fun h => ?_, fun h h' => ?_, fun h h' h2 => ?_, fun h h' h2 => ?_⟩
  · rw [if_neg h, he]; rfl
  · rw [if_pos h, f1 (by rw [hr]; exact h'), he]; rfl
  · rw [if_pos h, f2 (by rw [hr]; exact h') (by rw [hd]; exact h2), he]; rfl
  · rw [if_pos h, f3 (by rw [hr]; exact h') (by rw [hd]; exact h2), he]; rfl

/-- Outside WEIGH and CARRY stopped loss timers stay stopped. -/
theorem Chip.syncLoss_idem (c : Chip) (h : c.trk.cycle ≠ .weigh) (h' : c.trk.cycle ≠ .carry)
    (h1 : c.trk.lossPressure = none) (h2 : c.trk.lossAngle = none) :
    c.syncLoss = c := by
  unfold Chip.syncLoss Chip.mapTrk lossTimer
  obtain ⟨p, su, t, l, i, e, k, lo, r, ca, al, pa, st⟩ := c
  obtain ⟨⟩ := k
  simp_all

/-- After an entry to DUMP no pass is in flight and no loss timer runs. -/
theorem Chip.enterDump_trk (c : Chip) : c.enterDump.trk.cycle = .dump ∧ c.enterDump.trk.ctx = none
    ∧ c.enterDump.trk.lossPressure = none ∧ c.enterDump.trk.lossAngle = none := by
  unfold Chip.enterDump
  dsimp only
  split
  · unfold Chip.commitPass
    refine ⟨?_, ?_, ?_, ?_⟩ <;> · dsimp only; simp; split <;> simp [Chip.setCycle, Tracker.endPass]
  · refine ⟨?_, ?_, ?_, ?_⟩ <;> simp [Chip.setCycle, Tracker.endPass]

/-- After an entry to IDLE the cycle is neither WEIGH nor CARRY and no loss timer runs. -/
theorem Chip.enterIdle_trk (c : Chip) : c.enterIdle.trk.cycle ≠ .weigh ∧ c.enterIdle.trk.cycle ≠ .carry
    ∧ c.enterIdle.trk.lossPressure = none ∧ c.enterIdle.trk.lossAngle = none := by
  obtain ⟨f1, f2, f3, f4⟩ := c.enterIdle_facts
  by_cases h1 : c.inDig
  · by_cases h2 : c.isRacked
    · by_cases h3 : c.isDumped
      · rw [f4 h1 h2 h3]
        obtain ⟨a, _, b, d⟩ := Chip.enterDump_trk
          ({ c with trk := { c.trk.without with cycle := .lift, racked := false, ctx := some (normalPass c.tick) } })
        rw [a, b, d]; simp
      · rw [f3 h1 h2 h3]; simp [Tracker.without]
    · rw [f2 h1 h2]; simp [Tracker.without]
  · rw [f1 h1]; simp [Tracker.without]

/-- An entry to DUMP leaves the loss timers stopped. -/
theorem Chip.enterDump_syncLoss (c : Chip) : c.enterDump.syncLoss = c.enterDump := by
  obtain ⟨h, _, hp, ha⟩ := c.enterDump_trk
  exact Chip.syncLoss_idem _ (by rw [h]; decide) (by rw [h]; decide) hp ha

/-- An entry to IDLE leaves the loss timers stopped. -/
theorem Chip.enterIdle_syncLoss (c : Chip) : c.enterIdle.syncLoss = c.enterIdle := by
  obtain ⟨h, h', hp, ha⟩ := c.enterIdle_trk
  exact Chip.syncLoss_idem _ h h' hp ha

/-- How a command ends after its effect on the part. -/
structure Ends (e d : Chip) : Prop extends Closes e d where
  inp : d.inp = e.inp
  store : d.store = e.store
  tick : d.tick = e.tick
  sup : d.sup = e.sup
  pins : d.pins = e.pins
  eng : d.eng = e.eng
  cal : d.cal = e.cal
  buzOnly : e.onlyBuzzer d

/-- The input fault handed over and the link settled. -/
theorem Ends.refresh (e : Chip) : Ends e ((e.refresh .inputFault).settleLink) where
  toCloses := Closes.refresh e
  inp := by simp
  store := by simp
  tick := by simp
  sup := by simp
  pins := by simp
  eng := by simp
  cal := by simp
  buzOnly := by
    have := e.refresh_panel .inputFault
    unfold Chip.onlyBuzzer at this ⊢
    have h : (e.refresh .inputFault).settleLink.panel = (e.refresh .inputFault).panel := by simp
    rw [h]; exact this

/-- The link settled alone. -/
theorem Ends.settle (e : Chip) : Ends e e.settleLink where
  toCloses := Closes.settle e
  inp := rfl
  store := rfl
  tick := rfl
  sup := rfl
  pins := rfl
  eng := rfl
  cal := rfl
  buzOnly := rfl

/-- An entry to IDLE that ends a command goes on as Chip.idles says. -/
theorem Chip.idles_of (c0 e d : Chip) (t : Tracker) (l : Link) (bs : List Block) (htrk : e.trk.without = t.without)
    (hv : e.trk.voids = t.voids)
    (h1 : e.load = c0.load) (h2 : e.role = c0.role) (h3 : e.panel = c0.panel) (h4 : e.alarm = c0.alarm)
    (h5 : e.tick = c0.tick) (h6 : e.sup = c0.sup) (h7 : e.store = c0.store) (h8 : e.link = l)
    (hbs : ∀ b, b ∉ bs → c0.sameAt e b) (hl : .link ∈ bs) (ht : .trk ∈ bs)
    (hd : Ends e.enterIdle d)
        (hal : d.alarm = e.enterIdle.alarm ∧ d.panel = e.enterIdle.panel ∨ .alarm ∈ bs ∧ .panel ∈ bs) :
    c0.idles d t l bs := by
  obtain ⟨f1, f2, f3, f4⟩ := e.enterIdle_facts
  have einp : d.inp = e.inp := by rw [hd.inp]; simp
  have est : d.store = e.store := by rw [hd.store]; simp
  have etick : d.tick = e.tick := by rw [hd.tick]; simp
  have hi : d.inDig ↔ e.inDig := by unfold Chip.inDig Chip.cfg; rw [einp, est]
  have hr : d.isRacked ↔ e.isRacked := by unfold Chip.isRacked Chip.cfg; rw [einp, est]
  have hdp : d.isDumped ↔ e.isDumped := by unfold Chip.isDumped Chip.cfg; rw [einp, est]
  have hsame : ∀ x, e.enterIdle = { e with trk := x } →
      (d.link = l.settle d.maySend ∧ c0.onlyBuzzer d ∧ c0.onlyChanges d bs) ∧ d.trk = x := by
    intro x hx
    refine ⟨⟨?_, ?_, ?_⟩, ?_⟩
    · rw [hd.link, hx]; rw [h8]
    · have := hd.buzOnly; rw [hx] at this; unfold Chip.onlyBuzzer at this ⊢; rw [← h3]; exact this
    · intro b hb
      have hh := hbs b hb
      cases b <;> simp only [Chip.sameAt] at hh ⊢
      · rw [hd.pins, hx]; exact hh
      · rw [hd.sup, hx]; exact hh
      · rw [hd.tick, hx]; exact hh
      · exact absurd hl hb
      · rw [hd.inp, hx]; exact hh
      · rw [hd.eng, hx]; exact hh
      · exact absurd ht hb
      · rw [hd.load, hx]; exact hh
      · rw [hd.role, hx]; exact hh
      · rw [hd.cal, hx]; exact hh
      · rcases hal with ⟨q, _⟩ | ⟨q, _⟩
        · rw [q, hx]; exact hh
        · exact absurd q hb
      · rcases hal with ⟨_, q⟩ | ⟨_, q⟩
        · rw [q, hx]; exact hh
        · exact absurd q hb
      · rw [hd.store, hx]; exact hh
    · rw [hd.trk, hx]
  unfold Chip.idles
  dsimp only
  refine ⟨fun hn => ?_, fun hn hrun => ?_⟩
  · by_cases g1 : d.inDig
    · by_cases g2 : d.isRacked
      · have g3 : ¬d.isDumped := fun g3 => hn ⟨g1, g2, g3⟩
        obtain ⟨x1, x2⟩ := hsame _ (f3 (hi.mp g1) (hr.mp g2) (mt hdp.mpr g3))
        refine ⟨⟨fun h => absurd g1 h, fun _ h => absurd g2 h, fun _ _ => ?_⟩, x1⟩
        rw [x2, htrk, etick]
      · obtain ⟨x1, x2⟩ := hsame _ (f2 (hi.mp g1) (mt hr.mpr g2))
        refine ⟨⟨fun h => absurd g1 h, fun _ _ => ?_, fun _ h => absurd h g2⟩, x1⟩
        rw [x2, htrk, etick]
    · obtain ⟨x1, x2⟩ := hsame _ (f1 (mt hi.mpr g1))
      refine ⟨⟨fun _ => ?_, fun h => absurd h g1, fun h => absurd h g1⟩, x1⟩
      rw [x2, htrk]
  · obtain ⟨g1, g2, g3⟩ := hn
    have ee := f4 (hi.mp g1) (hr.mp g2) (hdp.mp g3)
    have hcl := hd.toCloses
    rw [ee] at hcl
    have hrun' : c0.inRun = true := by simp [Chip.inRun, hrun]
    obtain ⟨a, b, c, _⟩ := Chip.enterDump_commits c0
      { e with trk := { e.trk.without with cycle := .lift, racked := false, ctx := some (normalPass e.tick) } }
      d (normalPass e.tick) rfl hrun' h1 h2 h3 h4 h5 h6 h7 hcl
    have hy : (if (normalPass e.tick).stage = .candidate then
        (normalPass e.tick).weighedNot else normalPass e.tick) = (normalPass c0.tick).weighedNot := by
      rw [h5]; rfl
    rw [hy] at a b
    refine ⟨?_, b, ?_, ?_⟩
    · rw [← h8]; exact a
    · rw [c]; exact hv
    · intro b hb
      simp only [List.mem_append, List.mem_cons, List.not_mem_nil, or_false, not_or] at hb
      obtain ⟨hb1, hb2, hb3, hb4, hb5, hb6, hb7⟩ := hb
      have hh := hbs b hb1
      cases b <;> simp only [Chip.sameAt] at hh ⊢
      · rw [hd.pins]; simp [hh]
      · rw [hd.sup]; simp [hh]
      · rw [hd.tick]; simp [hh]
      · exact absurd rfl hb2
      · rw [hd.inp]; simp [hh]
      · rw [hd.eng]; simp [hh]
      · exact absurd rfl hb3
      · exact absurd rfl hb4
      · exact absurd rfl hb5
      · rw [hd.cal]; simp [hh]
      · exact absurd rfl hb6
      · exact absurd rfl hb7
      · rw [hd.store]; simp [hh]

/-- The input-loss timer of one channel (R40). -/
theorem lossTimer_after (s : Cycle) (f : Freshness) (now : Tick) (t : Option Tick) :
    lossTimer (s == .weigh || s == .carry) (f == .fresh) now t = lossAfter s f t now := by
  unfold lossTimer lossAfter
  cases s <;> cases f <;> cases t <;> rfl

/-- Both input-loss timers (R40). -/
theorem Chip.syncLoss_trk (c : Chip) : c.syncLoss.trk = c.lossTimed c.trk := by
  unfold Chip.syncLoss Chip.lossTimed
  simp only [Chip.mapTrk, lossTimer_after]

/-- The input-loss timers of a part whose tracker is t. -/
theorem Chip.syncLoss_timed (c : Chip) (t : Tracker) :
    ({ c with trk := t } : Chip).syncLoss = { c with trk := c.lossTimed t } := by
  have h : ({ c with trk := t } : Chip).syncLoss = { c with trk := ({ c with trk := t } : Chip).syncLoss.trk } := rfl
  rw [h, Chip.syncLoss_trk]; rfl

/-- The FILL empty timer at a usable pressure (R31). -/
theorem Chip.fillTimerAfter_eq (c : Chip) (ph : Nat) : c.fillTimerAfter ph = c.fillAfter true ph := by
  unfold Chip.fillTimerAfter Chip.fillAfter
  simp only [if_true]
  split
  · cases c.trk.fillTimer <;> rfl
  · rfl

/-- A pressure arrival that opens no pass moves the FILL empty timer alone (R30, R31). -/
theorem Chip.trackPressure_quiet (st : ArrStatus) (v : PressureVal) (c : Chip)
    (hv : st = .ok → c.inp.held.pressure = some v ∧ c.inp.pressure.freshness = .fresh)
    (h : c.trk.cycle ≠ .idle ∨ ¬c.inDig) :
    c.trackPressure st = c.mapTrk fun t =>
      { t with fillTimer := if t.cycle = .fill then c.fillAfter (st == .ok) v.ph else t.fillTimer } := by
  have hid : ∀ c : Chip, (c.mapTrk fun t => { t with fillTimer := t.fillTimer }) = c := fun _ => rfl
  by_cases hok : st = .ok
  · obtain ⟨hv1, hv2⟩ := hv hok
    subst hok
    unfold Chip.trackPressure
    simp only [hv1]
    cases hcy : c.trk.cycle
    case idle =>
      have hn : c.digs v.ph = false := by
        rw [Bool.eq_false_iff, ne_eq, Chip.digs_iff]
        rintro ⟨a, b, d⟩
        rcases h with h | h
        · exact h hcy
        · exact h ⟨a, ⟨hv2, _, hv1, b⟩, d⟩
      simp only [hn, Chip.mapTrk, hcy]
      simp only [reduceCtorEq, if_false]
      simp only [← hcy]; try rfl
    case fill => simp only [Chip.mapTrk, hcy, if_true, Chip.fillTimerAfter_eq]; try rfl
    all_goals
      simp only [Chip.mapTrk, hcy, reduceCtorEq, if_false]
      simp only [← hcy]
  · have hb : (st == ArrStatus.ok) = false := by cases st <;> simp_all
    have e : c.trackPressure st = c := by unfold Chip.trackPressure; cases st <;> simp_all
    rw [e, hb]
    simp only [Chip.fillAfter, Bool.false_eq_true, if_false, Chip.mapTrk, ite_self]

/-- A usable primary angle as the tracker takes it. -/
structure AngleTaken (s : State) (theta : Int) (c1 : Chip) : Prop where
  trk : c1.trk = { s.chip.trk with prevAngle := some theta }
  tilt : c1.inp.tilt = s.chip.inp.tilt
  heldTilt : c1.inp.held.tilt = s.chip.inp.held.tilt
  fresh : c1.inp.primary.freshness = .fresh
  angle : c1.inp.held.primary = some theta
  eng : c1.eng = s.chip.eng
  store : c1.store = s.chip.store
  load : c1.load = s.chip.load
  role : c1.role = s.chip.role
  alarm : c1.alarm = s.chip.alarm
  panel : c1.panel = s.chip.panel
  sup : c1.sup = s.chip.sup
  pins : c1.pins = s.chip.pins
  tick : c1.tick = s.chip.tick
  link : c1.link = s.chip.link.runEnded
  pressure : c1.inp.pressure = s.chip.inp.pressure

namespace AngleTaken

variable {s : State} {theta : Int} {c1 : Chip}

/-- The configuration stands. -/
theorem cfg (a : AngleTaken s theta c1) : c1.cfg = s.chip.cfg := by unfold Chip.cfg; rw [a.store]

/-- The tilt stands against the dump angle as it did. -/
theorem dumped (a : AngleTaken s theta c1) : c1.isDumped ↔ s.chip.isDumped := by
  unfold Chip.isDumped; rw [a.tilt, a.heldTilt, a.cfg]

/-- The tilt stands against the rack-back angle as it did. -/
theorem racked (a : AngleTaken s theta c1) : c1.isRacked ↔ s.chip.isRacked := by
  unfold Chip.isRacked; rw [a.tilt, a.heldTilt, a.cfg]

/-- A transition within engine and tracker: what the command leaves. -/
theorem quiet (a : AngleTaken s theta c1) (e : Engine) (t : Tracker) (d : Chip)
    (hd : Ends { c1 with eng := e, trk := t } d) :
    d.trk = t ∧ d.eng = e ∧ d.load = s.chip.load ∧ d.role = s.chip.role ∧ s.chip.onlyBuzzer d ∧ s.chip.onlyHeard d
      ∧ s.chip.onlyChanges d [.link, .inp, .eng, .trk, .cal, .alarm, .panel] := by
  refine ⟨hd.trk, hd.eng, ?_, ?_, ?_, ?_, ?_⟩
  · rw [hd.load]; exact a.load
  · rw [hd.role]; exact a.role
  · have := hd.buzOnly; unfold Chip.onlyBuzzer at this ⊢; rw [← a.panel]; exact this
  · unfold Chip.onlyHeard; rw [hd.link]; show c1.link.settle _ = _; rw [a.link]
  · intro b hb
    cases b <;> simp [Chip.sameAt] at hb ⊢
    · rw [hd.pins]; exact a.pins
    · rw [hd.sup]; exact a.sup
    · rw [hd.tick]; exact a.tick
    · rw [hd.load]; exact a.load
    · rw [hd.role]; exact a.role
    · rw [hd.store]; exact a.store

/-- A transition to DUMP: what the command leaves. -/
theorem dumps (a : AngleTaken s theta c1) (hr : s.chip.sup.power = .run) (e : Engine) (t : Tracker) (x : PassCtx)
    (hx : t.ctx = some x) (d : Chip)
    (hd : Ends ({ c1 with eng := e, trk := t } : Chip).enterDump d) :
    let y := if x.stage = .candidate then x.weighedNot else x
    s.chip.committed d y s.chip.link.runEnded ∧ s.chip.commitSounds d y ∧ d.trk.voids = t.voids
        ∧ d.trk.prevAngle = t.prevAngle
      ∧ d.eng = e ∧ s.chip.onlyChanges d [.link, .inp, .eng, .trk, .load, .role, .cal, .alarm, .panel] := by
  have hrun' : s.chip.inRun = true := by simp [Chip.inRun, hr]
  obtain ⟨p, q, r, u⟩ :=
      Chip.enterDump_commits s.chip
      { c1 with eng := e, trk := t } d x hx hrun' a.load a.role a.panel a.alarm a.tick a.sup a.store hd.toCloses
  refine ⟨?_, q, r, u, ?_, ?_⟩
  · have : ({ c1 with eng := e, trk := t } : Chip).link = s.chip.link.runEnded := a.link
    rw [← this]; exact p
  · rw [hd.eng]; simp
  · intro b hb
    cases b <;> simp [Chip.sameAt] at hb ⊢
    · rw [hd.pins]; simp [a.pins]
    · rw [hd.sup]; simp [a.sup]
    · rw [hd.tick]; simp [a.tick]
    · rw [hd.store]; simp [a.store]

/-- The input-loss timers after a transition. -/
theorem sync (a : AngleTaken s theta c1) (e : Engine) (t : Tracker) : ({ c1 with eng := e, trk := t } : Chip).syncLoss
    = { c1 with eng := e, trk := { t with
      lossPressure := lossAfter t.cycle s.chip.inp.pressure.freshness t.lossPressure s.chip.tick
      lossAngle := none } } := by
  have := Chip.syncLoss_trk ({ c1 with eng := e, trk := t } : Chip)
  have h2 : ({ c1 with eng := e, trk := t } : Chip).syncLoss
      = { c1 with eng := e, trk := ({ c1 with eng := e, trk := t } : Chip).syncLoss.trk } := rfl
  rw [h2, this]
  unfold Chip.lossTimed
  simp only
  rw [a.pressure, a.tick, a.fresh]
  have : lossAfter t.cycle .fresh t.lossAngle s.chip.tick = none := by unfold lossAfter; simp
  rw [this]

end AngleTaken

/-- The crossing test reads the previous angle (R28). -/
theorem Chip.crossesUp_crosses (c : Chip) (theta x : Int) :
    crossesUp c.trk.prevAngle theta x = true ↔ c.crosses theta x := by
  unfold crossesUp Chip.crosses
  cases c.trk.prevAngle <;> simp

/-- A usable angle that moves no cycle state becomes the previous angle, but in SUSPENDED (R28, R48). -/
theorem Chip.trackAngle_idles (c : Chip) (theta : Int) (hp : c.inp.held.primary = some theta) (h : c.angleIdles theta) :
    c.trackAngle .ok = { c with trk := { c.trk with
      prevAngle := if c.trk.cycle ≠ .suspended then some theta else c.trk.prevAngle } } := by
  unfold Chip.trackAngle
  simp only [hp]
  by_cases hs : c.trk.cycle = .suspended
  · rw [if_pos hs, if_neg (by rw [hs]; decide)]
  rw [if_neg hs]
  simp only [hs, ne_eq, not_false_eq_true, if_true]
  obtain ⟨d, hd⟩ : ∃ d, d = (c.mapTrk fun t => { t with prevAngle := some theta }) := ⟨_, rfl⟩
  have hcfg : d.cfg = c.cfg := by rw [hd]; rfl
  have hcyc : d.trk.cycle = c.trk.cycle := by rw [hd]; rfl
  have hctx : d.trk.ctx = c.trk.ctx := by rw [hd]; rfl
  have heng : d.eng = c.eng := by rw [hd]; rfl
  have hrk : d.trk.racked = c.trk.racked := by rw [hd]; rfl
  have hcross : ∀ x, ¬c.crosses theta x → crossesUp c.trk.prevAngle theta x = false := fun x hx => by
    rw [Bool.eq_false_iff]; exact mt (c.crossesUp_crosses theta x).mp hx
  have hstay : d.isWeigher = true → d.angleTransition c.trk.prevAngle theta = d := by
    intro hw
    unfold Chip.angleTransition
    rw [hcyc]
    rcases h with h | h | ⟨h, h1, h2⟩ | ⟨h, l, hl, h1, h2⟩ | ⟨h, h1⟩ | ⟨h, h1, h2⟩
    · have : d.store.cfg.role = .repeater := by rw [show d.store.cfg = c.cfg from hcfg]; exact h
      simp [Chip.isWeigher, this] at hw
    · rcases h with h | h | h | h <;> rw [h]
    · rw [h]
      simp only [Chip.angleInLift, hcfg, hcross _ h1]
      rcases h2 with h2 | ⟨x, hx, hx2⟩
      · simp [hcross _ h2]
      · simp [Tracker.isUnweighed, hctx, hx, hx2]
    · rw [h]
      simp only [Chip.angleInWeigh, Chip.latchedWindow, heng, hl, hcross _ h1]
      simp; omega
    · rw [h]; simp only [hcfg]; rw [if_neg (by omega)]
    · rw [h]
      simp only [Chip.angleInReturn, hcfg, hrk]
      rw [if_neg (by omega)]
      rcases h2 with h2 | h2
      · simp [h2]
      · simp [hcross _ h2]
  rw [← hd]
  have hgoal : (if d.isWeigher = true then d.angleTransition c.trk.prevAngle theta else d) = d := by
    by_cases hw : d.isWeigher = true
    · rw [if_pos hw, hstay hw]
    · rw [if_neg hw]
  rw [hgoal, hd]; rfl

/-- A usable primary angle that the part hears from its source reaches the tracker's transition (R28). -/
theorem Chip.angle_arrived (s : State) (src dst data) (h : s.chip.Hears src dst data)
    (hs : src.toNat = s.chip.cfg.srcPrimary) (hl : 4 ≤ data.length) (hst : nat8 data 3 = 0)
        (hw : s.chip.cfg.role = .weigher) (hcy : s.chip.trk.cycle ≠ .suspended) :
   ∃ c1 : Chip, Chip.whenUp (Chip.receive 0x09 src dst data) s.chip = ((((c1.angleTransition s.chip.trk.prevAngle
       (clampInt (-4500) 6000 (int16 data 1))).syncLoss).refresh .inputFault).settleLink)
    ∧ AngleTaken s (clampInt (-4500) 6000 (int16 data 1)) c1 := by
  obtain ⟨c1, e, h1, h2, h3, h4, h5, h6, h7, h8, h9, h10, h11, h12, h13, h14, h15, h16⟩ :=
      Chip.angle_arrives s src dst data h hs hl hst hw hcy
  exact ⟨c1, e, h1, h2, h3, h4, h5, h6, h7, h8, h9, h10, h11, h12, h13, h14, h15, h16⟩

/-- Entry to WEIGH. -/
theorem Chip.enterWeigh_facts (c : Chip) :
    let idx := c.panel.settings.curveSet
    let e := Engine.openWindow c.cfg idx c.store.curves[idx]
    let t (f : PassCtx → PassCtx) : Tracker :=
      { c.trk with ctx := c.trk.ctx.map fun x => f { x with idx := some idx }, cycle := .weigh, racked := false }
    (¬c.isDumped → c.enterWeigh = { c with eng := e, trk := t id })
      ∧ (c.isDumped → c.enterWeigh = ({ c with eng := e.shut, trk := t PassCtx.weighedNot } : Chip).enterDump) := by
  dsimp only
  obtain ⟨d, hd⟩ : ∃ d,
      d = ((c.mapEng fun _ => Engine.openWindow c.cfg c.panel.settings.curveSet
      c.store.curves[c.panel.settings.curveSet]).mapTrk
    fun t => { t.mapCtx (fun x => { x with idx := some c.panel.settings.curveSet }) with cycle := .weigh, racked := false }) :=
  ⟨_, rfl⟩
  have e : c.enterWeigh = if atMost d.freshTilt d.cfg.dumpAngle = true then
      ((d.mapEng Engine.shut).mapTrk (Tracker.mapCtx PassCtx.unweigh)).enterDump else d := by rw [hd]; rfl
  have h : d.isDumped ↔ c.isDumped := by rw [hd]; exact Iff.rfl
  have h3 := d.atMost_dumped.trans h
  rw [e]
  refine ⟨fun x => ?_, fun x => ?_⟩
  · rw [if_neg (mt h3.mp x), hd]; rfl
  · rw [if_pos (h3.mpr x), hd]
    congr 1
    simp only [Chip.mapTrk, Chip.mapEng, Tracker.mapCtx, Option.map_map]
    rfl

/-- An amendment leaves inputs, store and engine. -/
theorem Chip.amend_still (r : Nat) (c : Chip) : (c.amend r).inp = c.inp ∧ (c.amend r).store = c.store
    ∧ (c.amend r).eng = c.eng := by
  unfold Chip.amend
  refine ⟨?_, ?_, ?_⟩ <;> (repeat' split) <;> simp

/-- Entry to CARRY with the angle at the dig angle or above. -/
theorem Chip.enterCarry_facts (c : Chip) (y : PassCtx) (hy : c.trk.ctx = some y)
    (hdig : ¬freshAnd c.inp.primary c.inp.held.primary (fun a => a < c.cfg.digAngle)) :
    let K : Chip := { c with trk := { c.trk with cycle := .carry, carryTimer := some c.tick } }
    (¬(y.kind = .remainder ∧ y.payload.isSome = true) → (¬c.isDumped → c.enterCarry = K)
        ∧ (c.isDumped → c.enterCarry = K.enterDump))
      ∧ (∀ r, y.kind = .remainder → y.payload = some r → r < c.cfg.residual →
          c.enterCarry = (K.voidPass .empty).enterReturn)
      ∧ (∀ r, y.kind = .remainder → y.payload = some r → ¬r < c.cfg.residual →
          (¬c.isDumped → c.enterCarry = K.amend r) ∧ (c.isDumped → c.enterCarry = (K.amend r).enterDump)) := by
  intro K
  have hK : K.trk.ctx = some y := hy
  have e0 : c.enterCarry = if K.emptyRemainder then (K.voidPass .empty).enterReturn
      else if atMost K.judgeRemainder.freshTilt K.judgeRemainder.cfg.dumpAngle then K.judgeRemainder.enterDump
        else if below K.judgeRemainder.freshAngle K.judgeRemainder.cfg.digAngle then
            (K.judgeRemainder.voidPass .returned).enterIdle
        else K.judgeRemainder := rfl
  have hd : ∀ z : Chip, z.inp = K.inp → z.store = K.store → (atMost z.freshTilt z.cfg.dumpAngle = true ↔ c.isDumped)
      ∧ below z.freshAngle z.cfg.digAngle = false := by
    intro z h1 h2
    have hc : z.cfg = c.cfg := by unfold Chip.cfg; rw [h2]
    refine ⟨?_, ?_⟩
    · rw [Chip.atMost_dumped]; unfold Chip.isDumped; rw [h1, hc]
    · rw [Bool.eq_false_iff, ne_eq, Chip.below_angle, h1, hc]; exact hdig
  refine ⟨fun hj => ?_, fun r h1 h2 h3 => ?_, fun r h1 h2 h3 => ?_⟩
  · have a1 : K.emptyRemainder = false := by
      unfold Chip.emptyRemainder; simp only [hK]
      cases hk : y.kind <;> cases hp : y.payload <;> simp_all
    have a2 : K.judgeRemainder = K := by
      unfold Chip.judgeRemainder; simp only [hK]
      cases hk : y.kind <;> cases hp : y.payload <;> simp_all
    obtain ⟨x1, x2⟩ := hd K rfl rfl
    rw [e0, a1, a2, x2]
    refine ⟨fun h => ?_, fun h => ?_⟩
    · rw [if_neg (mt x1.mp h)]; rfl
    · rw [if_pos (x1.mpr h)]; rfl
  · have a1 : K.emptyRemainder = true := by
      unfold Chip.emptyRemainder; simp only [hK, h1, h2]; exact decide_eq_true h3
    rw [e0, a1]; rfl
  · have a1 : K.emptyRemainder = false := by
      unfold Chip.emptyRemainder; simp only [hK, h1, h2]; exact decide_eq_false h3
    have a2 : K.judgeRemainder = K.amend r := by
      unfold Chip.judgeRemainder; simp only [hK, h1, h2]
    obtain ⟨s1, s2, _⟩ := K.amend_still r
    obtain ⟨x1, x2⟩ := hd _ s1 s2
    rw [e0, a1, a2, x2]
    refine ⟨fun h => ?_, fun h => ?_⟩
    · rw [if_neg (mt x1.mp h)]; rfl
    · rw [if_pos (x1.mpr h)]; rfl

/-- Entry to RETURN after a void in CARRY, with the angle at the dig angle or above. -/
theorem Chip.emptied_facts (c : Chip) (hc : c.trk.cycle = .carry)
    (hdig : ¬freshAnd c.inp.primary c.inp.held.primary (fun a => a < c.cfg.digAngle)) (theta : Int)
    (hth : c.inp.held.primary = some theta) (hth2 : c.cfg.digAngle ≤ theta) :
    ∃ b, (c.voidPass .empty).enterReturn
        = { c with trk := { c.trk.without with cycle := .ret, racked := b, voids := c.trk.voids.raise .empty } }
      ∧ (b = true ↔ c.isRacked ∧ ¬c.isDumped) := by
  have q : c.voidPass .empty = c.mapTrk fun t => { t.endPass with voids := t.voids.raise .empty } := by
    unfold Chip.voidPass Chip.shutIfWeigh; rw [if_neg (by rw [hc]; decide)]
  obtain ⟨z, hz⟩ : ∃ z : Chip, z =
      { c with trk := { c.trk.without with cycle := .ret, racked := false, voids := c.trk.voids.raise .empty } } :=
          ⟨_, rfl⟩
  have e : (c.voidPass .empty).enterReturn = (let z' := (match z.freshTilt with
      | some tilt => z.testRacked tilt
      | none => z)
    if below z'.freshAngle z'.cfg.digAngle then z'.enterIdle else z') := by
    rw [q, hz]; rfl
  have hb : ∀ t, below (({ z with trk := t } : Chip)).freshAngle ({ z with trk := t } : Chip).cfg.digAngle = false := by
    intro t
    rw [Bool.eq_false_iff, ne_eq, Chip.below_angle, hz]; exact hdig
  have hl : atLeast z.inp.held.primary z.cfg.digAngle = true := by
    rw [hz]; show atLeast c.inp.held.primary c.cfg.digAngle = true; rw [hth]; simpa [atLeast] using hth2
  rw [e]
  unfold Chip.freshTilt
  have zi : z.inp = c.inp := by rw [hz]
  have zc : z.cfg = c.cfg := by rw [hz]; rfl
  have zr : z.trk.racked = false := by rw [hz]
  by_cases hf : c.inp.tilt.freshness = .fresh
  · cases ht : c.inp.held.tilt with
    | none =>
      refine ⟨false, ?_, ?_⟩
      · simp only [zi, hf, ht, if_true]
        have := hb z.trk
        have h2 : ({ z with trk := z.trk } : Chip) = z := rfl
        rw [h2] at this; simp only [this]
        exact hz
      · simp [Chip.isRacked, freshAnd, ht]
    | some a =>
      refine ⟨if a ≤ c.cfg.dumpAngle then false else decide (c.cfg.rackAngle ≤ a), ?_, ?_⟩
      · simp only [zi, hf, ht, if_true]
        have e2 : z.testRacked a = { z with trk := { z.trk with
            racked := if a ≤ c.cfg.dumpAngle then false else decide (c.cfg.rackAngle ≤ a) } } := by
          unfold Chip.testRacked Chip.rackedAfter Chip.mapTrk
          rw [zc] at hl
          simp only [zr, zc]
          congr 1
          split
          · rfl
          · by_cases h3 : c.cfg.rackAngle ≤ a <;> simp [h3, hl]
        rw [e2, hb]
        simp only [Bool.false_eq_true, if_false]
        rw [hz]
      · simp only [Chip.isRacked, Chip.isDumped, freshAnd, hf, ht, true_and, Option.some.injEq, exists_eq_left']
        by_cases h3 : a ≤ c.cfg.dumpAngle <;> simp [h3]
  · refine ⟨false, ?_, ?_⟩
    · simp only [zi, hf, if_false]
      have := hb z.trk
      have h2 : ({ z with trk := z.trk } : Chip) = z := rfl
      rw [h2] at this; simp only [this]
      exact hz
    · simp [Chip.isRacked, freshAnd, hf]

/-- An opened window is the one the rules give (R2). -/
theorem Chip.windowOpened_of (c d : Chip) (x : PassCtx) (h1 : d.trk.cycle = .weigh)
    (h2 : d.trk.ctx = some { x with idx := some c.panel.settings.curveSet }) (h3 : d.trk.racked = false)
    (he : d.eng = Engine.openWindow c.cfg c.panel.settings.curveSet c.store.curves[c.panel.settings.curveSet]) :
    c.windowOpened d x := by
  refine ⟨h1, h2, h3, ?_, ?_, ?_, ?_, ?_⟩
  · rw [he]; rfl
  · intro k; rw [he]; simp [Engine.openWindow]
  · rw [he]; rfl
  · rw [he]; rfl
  · rw [he]; simp only [Engine.openWindow, Geom.usable, Cfg.geom, Bool.decide_and, Bool.and_assoc]; rfl

/-- An opened window latches the geometry (R2). -/
theorem Engine.openWindow_latched (cfg : Cfg) (i) (st) : ∃ l, (Engine.openWindow cfg i st).latched = some l
    ∧ l.geom.thetaS = cfg.thetaS ∧ l.geom.thetaE = cfg.thetaE :=
  ⟨_, rfl, rfl, rfl⟩

/-- A window just opened holds no sample: closed, it gives REJECT with 0 bins. -/
theorem Engine.openWindow_close (cfg : Cfg) (i : Fin 4) (st : CurveSet) (trim : Int) (hm : 1 ≤ cfg.minBins) :
    (Engine.openWindow cfg i st).close cfg trim = (WindowResult.rejected 0 i,
      { Engine.openWindow cfg i st with isOpen := false, last := some (WindowResult.rejected 0 i) }) := by
  have hpop : (Engine.openWindow cfg i st).populated = [] := by
    unfold Engine.populated Engine.openWindow
    simp only []
    rw [List.filter_eq_nil_iff]
    intro b hb
    simp at hb
    simp [hb, Bin.empty]
  have hres : ∀ l, (Engine.openWindow cfg i st).result cfg trim l = WindowResult.rejected 0 l.idx := by
    intro l
    unfold Engine.result
    simp only [hpop]
    rw [if_pos (by simp; omega)]; rfl
  show ((Engine.openWindow cfg i st).result cfg trim _, _) = _
  rw [hres]
  try rfl

/-- A BUCKET TILT that the part hears from its source is a tilt arrival. -/
theorem Chip.tilt_path (s : State) (src dst data) (h : s.chip.Hears src dst data)
    (hs : src.toNat = s.chip.cfg.srcTilt) (hl : 3 ≤ data.length) :
   Chip.whenUp (Chip.receive 0x0A src dst data) s.chip = (Chip.tiltArrival ⟨int16 data 0, angleStatus (nat8 data 2)⟩
      (s.chip.mapLink Link.runEnded)).settleLink := by
  have hcfg : s.chip.cfg.hears .bucketTilt src.toNat = true := by simp [Cfg.hears, Kind.channels, Cfg.source, hs]
  have hl' : ¬ data.length < 3 := by omega
  rw [Chip.receive_consumes _ _ _ _ _ .bucketTilt h (by decide) hcfg (fun h => absurd h (by decide))]
  simp only [Chip.consumeInRun, Chip.take, readTilt, takeData, if_neg hl']

/-- A usable tilt as the tracker takes it. -/
structure TiltTaken (s : State) (tilt : Int) (c1 : Chip) : Prop where
  trk : c1.trk = s.chip.trk
  fresh : c1.inp.tilt.freshness = .fresh
  held : c1.inp.held.tilt = some tilt
  primary : c1.inp.primary = s.chip.inp.primary
  heldPrimary : c1.inp.held.primary = s.chip.inp.held.primary
  pressure : c1.inp.pressure = s.chip.inp.pressure
  heldPressure : c1.inp.held.pressure = s.chip.inp.held.pressure
  eng : c1.eng = s.chip.eng
  store : c1.store = s.chip.store
  load : c1.load = s.chip.load
  role : c1.role = s.chip.role
  alarm : c1.alarm = s.chip.alarm
  panel : c1.panel = s.chip.panel
  sup : c1.sup = s.chip.sup
  pins : c1.pins = s.chip.pins
  tick : c1.tick = s.chip.tick
  cal : c1.cal = s.chip.cal
  link : c1.link = s.chip.link.runEnded

/-- The part as the tracker takes a usable tilt. -/
theorem Chip.tilt_arrived (s : State) (src dst data) (h : s.chip.Hears src dst data)
    (hs : src.toNat = s.chip.cfg.srcTilt) (hl : 3 ≤ data.length) (hst : nat8 data 2 = 0) :
   ∃ c1 : Chip, Chip.whenUp
       (Chip.receive 0x0A src dst data) s.chip = ((((c1.trackTilt .ok).syncLoss).refresh .inputFault).settleLink)
    ∧ TiltTaken s (clampInt (-6000) 6000 (int16 data 0)) c1 := by
  rw [Chip.tilt_path s src dst data h hs hl]
  refine ⟨(s.chip.mapLink Link.runEnded).mapInp (InputTable.arriveTilt ⟨int16 data 0, .ok⟩ s.chip.tick), ?_, ?_⟩
  · have : angleStatus (nat8 data 2) = .ok := by simp [angleStatus, hst]
    rw [this]; rfl
  · constructor <;> rfl

namespace TiltTaken

variable {s : State} {tilt : Int} {c1 : Chip}

/-- The configuration stands. -/
theorem cfg (a : TiltTaken s tilt c1) : c1.cfg = s.chip.cfg := by unfold Chip.cfg; rw [a.store]

/-- The test of the dump angle reads the new tilt. -/
theorem dumped (a : TiltTaken s tilt c1) : c1.isDumped ↔ tilt ≤ s.chip.cfg.dumpAngle := by
  unfold Chip.isDumped freshAnd; rw [a.fresh, a.held, a.cfg]; simp

/-- A transition within the tracker: what the command leaves. -/
theorem quiet (a : TiltTaken s tilt c1) (t : Tracker) (d : Chip) (hd : Ends { c1 with trk := t } d) :
    d.trk = t ∧ s.chip.onlyHeard d ∧ s.chip.onlyChanges d [.link, .inp, .trk, .alarm, .panel] ∧ s.chip.onlyBuzzer d := by
  refine ⟨hd.trk, ?_, ?_, ?_⟩
  · unfold Chip.onlyHeard; rw [hd.link]; show c1.link.settle _ = _; rw [a.link]
  · intro b hb
    cases b <;> simp [Chip.sameAt] at hb ⊢
    · rw [hd.pins]; exact a.pins
    · rw [hd.sup]; exact a.sup
    · rw [hd.tick]; exact a.tick
    · rw [hd.eng]; exact a.eng
    · rw [hd.load]; exact a.load
    · rw [hd.role]; exact a.role
    · rw [hd.cal]; exact a.cal
    · rw [hd.store]; exact a.store
  · have := hd.buzOnly; unfold Chip.onlyBuzzer at this ⊢; rw [← a.panel]; exact this

/-- A transition to DUMP: what the command leaves. -/
theorem dumps (a : TiltTaken s tilt c1) (hr : s.chip.sup.power = .run) (e : Engine) (t : Tracker) (x : PassCtx)
    (hx : t.ctx = some x) (d : Chip)
    (hd : Ends ({ c1 with eng := e, trk := t } : Chip).enterDump d) :
    let y := if x.stage = .candidate then x.weighedNot else x
    s.chip.committed d y s.chip.link.runEnded ∧ s.chip.commitSounds d y ∧ d.trk.voids = t.voids
      ∧ d.eng = e ∧ s.chip.onlyChanges d [.link, .inp, .eng, .trk, .load, .role, .alarm, .panel] := by
  have hrun' : s.chip.inRun = true := by simp [Chip.inRun, hr]
  obtain ⟨p, q, r, u⟩ :=
      Chip.enterDump_commits s.chip
      { c1 with eng := e, trk := t } d x hx hrun' a.load a.role a.panel a.alarm a.tick a.sup a.store hd.toCloses
  refine ⟨?_, q, r, ?_, ?_⟩
  · have : ({ c1 with eng := e, trk := t } : Chip).link = s.chip.link.runEnded := a.link
    rw [← this]; exact p
  · rw [hd.eng]; simp
  · intro b hb
    cases b <;> simp [Chip.sameAt] at hb ⊢
    · rw [hd.pins]; simp [a.pins]
    · rw [hd.sup]; simp [a.sup]
    · rw [hd.tick]; simp [a.tick]
    · rw [hd.cal]; simp [a.cal]
    · rw [hd.store]; simp [a.store]

end TiltTaken

end Sys2Proof.Machine
end

