-- ==== Sys2Proof/Laws/Display.lean ====
section
/-! SUPPORT. The lengths of the fields of the image: 4 digits in the main field, 2 in the aux field, 5 in the counter
field, and 16 bytes in a panel frame. -/

namespace Sys2Proof.Machine

@[simp] theorem blanks_length (n : Nat) : (blanks n).length = n := by simp [blanks]

@[simp] theorem dashes_length (n : Nat) : (dashes n).length = n := by simp [dashes]

@[simp] theorem legend_length (w : Nat) (gs : List Glyph) : (legend w gs).length = w := by
  simp [legend]

/-- Shown digits stand at the right of a field, or are replaced where they are too many. -/
theorem field_length (w : Nat) (shown : List Byte) (f : Nat → Byte) :
    (if w < shown.length then (List.range w).map f else blanks (w - shown.length) ++ shown).length = w := by
  split
  · simp
  · rw [List.length_append, blanks_length]
    omega

@[simp] theorem number_length (w d : Nat) (x : Int) : (number w d x).length = w := field_length _ _ _

@[simp] theorem natural_length (w n : Nat) : (natural w n).length = w := by simp [natural]

@[simp] theorem massMain_length (x : Int) : (massMain x).length = 4 := by
  unfold massMain
  (repeat' split) <;> simp

@[simp] theorem massCounter_length (x : Nat) : (massCounter x).length = 5 := by simp [massCounter]

@[simp] theorem countAux_length (n : Nat) : (countAux n).length = 2 := by
  unfold countAux
  split <;> simp

@[simp] theorem firstPointLit_length (on : Bool) (bs : List Byte) : (firstPointLit on bs).length = bs.length := by
  cases bs <;> rfl

@[simp] theorem lastPointLit_length (on : Bool) (bs : List Byte) : (lastPointLit on bs).length = bs.length := by
  simp [lastPointLit]

theorem orDashes_length {α : Type} (w : Nat) (f : α → List Byte) (v : Option α) (h : ∀ a, (f a).length = w) :
    (orDashes w f v).length = w := by
  cases v <;> simp [orDashes, h]

theorem orBlanks_length {α : Type} (w : Nat) (f : α → List Byte) (v : Option α) (h : ∀ a, (f a).length = w) :
    (orBlanks w f v).length = w := by
  cases v <;> simp [orBlanks, h]

@[simp] theorem counterField_length (n : Nat) : (counterField n).length = 5 := by
  unfold counterField
  (repeat' split) <;> simp

@[simp] theorem payloadMain_length (p : PassRec) : (payloadMain p).length = 4 :=
  orDashes_length _ _ _ (fun _ => by simp)

@[simp] theorem setupValue_length (s : Settings) (i : Nat) : (setupValue s i).length = 4 := by
  unfold setupValue
  split <;> simp

@[simp] theorem Chip.blinking_length (c : Chip) (f : List Byte) : (c.blinking f).length = f.length := by
  unfold Chip.blinking
  split <;> simp

/-- The three fields have their widths. -/
def Fields.sized (f : Fields) : Prop := f.main.length = 4 ∧ f.aux.length = 2 ∧ f.counter.length = 5

theorem Chip.runFields_sized (c : Chip) : c.runFields.sized := by
  unfold Fields.sized Chip.runFields
  refine ⟨?_, ?_, ?_⟩ <;> dsimp only <;> split <;> simp

theorem Chip.truckPage_sized (c : Chip) : c.truckPage.sized := by
  unfold Fields.sized Chip.truckPage
  split
  · simp
  · split
    · simp only [passFields, payloadMain_length, countAux_length, lastPointLit_length, true_and]
      split <;> simp
    · simp only [truckFields, countAux_length, true_and]
      refine ⟨?_, orDashes_length _ _ _ (fun _ => by simp)⟩
      split <;> simp

theorem Chip.countPage_sized (c : Chip) : c.countPage.sized :=
  ⟨by simp [Chip.countPage, Fields.of], by simp [Chip.countPage, Fields.of],
    orDashes_length _ _ _ (fun _ => by simp)⟩

theorem Chip.historyPage_sized (c : Chip) : c.historyPage.sized := by
  unfold Fields.sized Chip.historyPage Fields.of
  split
  · simp
  · split
    · exact ⟨orDashes_length _ _ _ (fun _ => by simp), by simp, by simp⟩
    · simp

theorem Chip.setupPage_sized (c : Chip) : c.setupPage.sized := by simp [Fields.sized, Chip.setupPage, Fields.of]

@[simp] theorem phaseField_length (f : Option CalFailure) : (phaseField f).length = 5 := by
  unfold phaseField
  split <;> simp

theorem Chip.calPage_sized (c : Chip) : c.calPage.sized := by
  unfold Fields.sized Chip.calPage Fields.of
  dsimp only
  split
  · simp
  · split <;> simp
  · refine ⟨by simp, by simp, orBlanks_length _ _ _ (fun _ => by simp)⟩
  · refine ⟨by simp, by simp, orBlanks_length _ _ _ (fun _ => by simp)⟩
  · unfold reviewFields
    split <;> simp [Fields.of]
  · simp
  · simp
  · exact ⟨orBlanks_length _ _ _ (fun _ => by simp), orBlanks_length _ _ _ (fun _ => by simp), by simp⟩

/-- The main and counter fields of a DIAG item have their widths. -/
def itemSized (f : List Byte × List Byte) : Prop := f.1.length = 4 ∧ f.2.length = 5

@[simp] theorem Chip.channelFigure_length (c : Chip) (i : ChanId) : (c.channelFigure i).length = 5 := by
  cases i <;> unfold Chip.channelFigure <;>
    first | exact natural_length _ _ | exact orDashes_length _ _ _ (fun _ => by simp)

theorem Chip.otherItem_sized (c : Chip) (item : Nat) : itemSized (c.otherItem item) := by
  unfold itemSized Chip.otherItem
  split
  · unfold Chip.startItem
    refine ⟨?_, by simp⟩
    dsimp only
    split <;> simp
  · unfold Chip.driveItem
    split <;> simp
  · unfold Chip.sourceItem
    refine ⟨by simp, ?_⟩
    rw [List.length_cons, orDashes_length _ _ _ (fun _ => by simp)]
  · unfold Chip.pairItem
    split <;> simp
  · simp
  · exact ⟨orDashes_length _ _ _ (fun _ => by simp), by simp⟩
  · simp
  · exact ⟨orDashes_length _ _ _ (fun _ => by simp), orDashes_length _ _ _ (fun _ => by simp)⟩
  · exact ⟨orDashes_length _ _ _ (fun _ => by simp), orDashes_length _ _ _ (fun _ => by simp)⟩
  · simp

theorem Chip.diagItem_sized (c : Chip) (item : Nat) : itemSized (c.diagItem item) := by
  unfold Chip.diagItem
  split
  · simp [itemSized, Chip.channelItem]
  · split
    · unfold itemSized tallyItem
      split <;> simp
    · split
      · unfold itemSized voidItem
        split <;> simp
      · split
        · unfold itemSized linkItem
          split <;> simp
        · split
          · unfold itemSized Chip.peerItem
            split <;> simp
          · split
            · simp [itemSized, Chip.alarmItem]
            · exact c.otherItem_sized item

theorem Chip.diagPage_sized (c : Chip) : c.diagPage.sized :=
  ⟨(c.diagItem_sized _).1, by simp [Chip.diagPage, Fields.of], (c.diagItem_sized _).2⟩

theorem Chip.pageFields_sized (c : Chip) : c.pageFields.sized := by
  unfold Chip.pageFields
  split
  · exact c.runFields_sized
  · exact c.truckPage_sized
  · exact c.countPage_sized
  · exact c.historyPage_sized
  · exact c.setupPage_sized
  · exact c.diagPage_sized
  · exact c.calPage_sized

theorem Chip.fields_sized (c : Chip) : c.fields.sized := by
  unfold Chip.fields
  have h := c.pageFields_sized
  dsimp only
  split
  · simp [Fields.sized]
  · split
    · exact ⟨h.1, h.2.1, by simp⟩
    · exact h

/-- A panel frame has 16 bytes (R143). -/
@[simp] theorem Chip.composeFrame_length (c : Chip) : c.composeFrame.length = 16 := by
  have h := c.fields_sized
  unfold Chip.composeFrame
  split <;> simp [blankFrame, h.1, h.2.1, h.2.2]

end Sys2Proof.Machine
end

