-- ==== Sys2Proof/Laws/Image.lean ====
section
/-! SUPPORT. What the fields, the pages and the frame of the image show, in the terms of Safety: numbers, masses, each
page, the banner, the bargraph, the annunciators. -/

namespace Sys2Proof.Machine

/-- A number has at most p digits where it is below the p-th power of ten. -/
theorem digitCount_le (fuel n p : Nat) (h : n < 10 ^ (fuel + 1)) (hp : 1 ≤ p) :
    digitCount fuel n ≤ p ↔ n < 10 ^ p := by
  induction fuel generalizing n p with
  | zero =>
    have : 10 ^ 1 ≤ 10 ^ p := Nat.pow_le_pow_right (by omega) hp
    simp [digitCount]
    omega
  | succ k ih =>
    unfold digitCount
    have h10 : 10 ^ 1 ≤ 10 ^ p := Nat.pow_le_pow_right (by omega) hp
    split
    · omega
    · rename_i hn
      obtain ⟨q, rfl⟩ : ∃ q, p = q + 1 := ⟨p - 1, by omega⟩
      have hk : n / 10 < 10 ^ (k + 1) := by
        rw [Nat.pow_succ] at h
        omega
      rcases Nat.eq_zero_or_pos q with rfl | hq
      · have := (ih (n / 10) 1 hk (by omega))
        simp
        have h1 : 1 ≤ digitCount k (n / 10) := by
          unfold digitCount
          split <;> (try split) <;> omega
        omega
      · have := ih (n / 10) q hk hq
        rw [Nat.pow_succ]
        omega

/-- What a number that fits its field shows, place by place. -/
theorem number_shown (width decimals : Nat) (x : Int) (h : fitsField width decimals x) (hw : width ≤ 12) :
    number width decimals x = shownNumber width decimals x := by
  have key : ∀ p, 1 ≤ p → (digitCount 12 x.natAbs ≤ p ↔ x.natAbs < 10 ^ p) := fun p hp => by
    refine digitCount_le _ _ _ ?_ hp
    have : x.natAbs < 10 ^ width := by
      unfold fitsField at h
      split at h
      · exact Nat.lt_of_lt_of_le h.1 (Nat.pow_le_pow_right (by omega) (by omega))
      · exact h.1
    exact Nat.lt_of_lt_of_le this (Nat.pow_le_pow_right (by omega) (by omega))
  have num : ∀ m, m < 10 → numeral m = numeralSegs.getD m 0 := by decide
  have dig : ∀ p, numeral (x.natAbs / 10 ^ p % 10) = numeralSegs.getD (x.natAbs / 10 ^ p % 10) 0 :=
    fun p => num _ (Nat.mod_lt _ (by omega))
  have one : 1 ≤ digitCount 12 x.natAbs := by
    unfold digitCount
    split <;> omega
  -- the places that are shown are those below cnt
  have shownIff : ∀ p, max (digitCount 12 x.natAbs) (decimals + 1) ≤ p ↔ decimals < p ∧ x.natAbs < 10 ^ p := fun p => by
    constructor
    · intro hc
      exact ⟨by omega, (key p (by omega)).1 (by omega)⟩
    · rintro ⟨h1, h2⟩
      have := (key p (by omega)).2 h2
      omega
  have fits : (if x < 0 then 1 else 0) + max (digitCount 12 x.natAbs) (decimals + 1) ≤ width := by
    unfold fitsField at h
    split at h
    · rename_i hx
      have := (shownIff (width - 1)).2 ⟨by omega, h.1⟩
      simp [hx]
      omega
    · rename_i hx
      have := (shownIff width).2 ⟨h.2, h.1⟩
      simp [hx]
      omega
  unfold number
  dsimp only
  generalize hc : max (digitCount 12 x.natAbs) (decimals + 1) = cnt at *
  have len : ((if x < 0 then [Glyph.dash.seg] else []) ++
      ((List.range cnt).map (digitByte decimals x.natAbs)).reverse).length = (if x < 0 then 1 else 0) + cnt := by
    split <;> simp
    omega
  rw [if_neg (by omega)]
  have all : (shownNumber width decimals x).length = width := by simp [shownNumber]
  refine List.ext_getElem (by rw [List.length_append, blanks_length, len, all]; omega) fun i h1 h2 => ?_
  have hi : i < width := by simpa [shownNumber] using h2
  simp only [shownNumber, List.getElem_map, List.getElem_reverse, List.getElem_range, List.length_range]
  by_cases hs : width - 1 - i < cnt
  · have hn : ¬(decimals < width - 1 - i ∧ x.natAbs < 10 ^ (width - 1 - i)) := fun hh => by
      have := (shownIff _).2 hh
      omega
    rw [if_neg hn]
    have point : ∀ b : Byte, withPoint (decimals != 0 && width - 1 - i == decimals) b
        = b ||| (if decimals ≠ 0 ∧ width - 1 - i = decimals then 0x80 else 0) := fun b => by
      unfold withPoint
      by_cases h0 : decimals = 0 <;> by_cases h1 : width - 1 - i = decimals <;> simp [h0, h1]
    rw [← dig, ← point]
    by_cases hx : x < 0
    · simp only [hx, if_true] at len fits ⊢
      rw [List.getElem_append_right (by simp at len ⊢; omega), List.getElem_append_right (by simp at len ⊢; omega)]
      have e : cnt - 1 - (i - (width - (cnt + 1)) - 1) = width - 1 - i := by omega
      simp [digitByte, e]
    · simp only [hx, if_false] at len fits ⊢
      rw [List.getElem_append_right (by simp at len ⊢; omega), List.getElem_append_right (by simp at len ⊢)]
      have e : cnt - 1 - (i - (width - cnt)) = width - 1 - i := by omega
      simp [digitByte, e]
  · have hn : (decimals < width - 1 - i ∧ x.natAbs < 10 ^ (width - 1 - i)) := (shownIff _).1 (by omega)
    rw [if_pos hn]
    by_cases hx : x < 0
    · simp only [hx, if_true, true_and] at len fits ⊢
      by_cases hd : width - 1 - i = cnt
      · have hq : ¬(decimals < width - 1 - i - 1 ∧ x.natAbs < 10 ^ (width - 1 - i - 1)) := fun hh => by
          have := (shownIff _).2 hh
          omega
        rw [if_pos hq]
        rw [List.getElem_append_right (by simp at len ⊢; omega), List.getElem_append_left (by simp; omega)]
        simp [Glyph.seg]
      · have hq : decimals < width - 1 - i - 1 ∧ x.natAbs < 10 ^ (width - 1 - i - 1) := (shownIff _).1 (by omega)
        rw [if_neg (fun hh : ¬(decimals < width - 1 - i - 1 ∧ x.natAbs < 10 ^ (width - 1 - i - 1)) => hh hq)]
        rw [List.getElem_append_left (by simp; omega)]
        simp [blanks, Glyph.seg]
    · simp only [hx, if_false, false_and] at len fits ⊢
      rw [List.getElem_append_left (by simp; omega)]
      simp [blanks, Glyph.seg]

theorem number_shows (w d : Nat) (x : Int) (hw : w ≤ 12) : shows w d x (number w d x) :=
  fun h => number_shown w d x h hw

theorem natural_shows (w n : Nat) (hw : w ≤ 12) : shows w 0 n (natural w n) := number_shows w 0 n hw

/-- The main field shows a mass as Table 8-6 formats it. -/
theorem massMain_shows (x : Int) : showsMass x (massMain x) := by
  intro h
  have t : ∀ k : Int, x < 0 → x.tdiv k = -(-x / k) := fun k hx => by
    have := Int.neg_tdiv (-x) k
    rw [Int.neg_neg] at this
    rw [this, Int.tdiv_eq_ediv_of_nonneg (by omega)]
  have e : ∀ d (y : Int), (0 ≤ y → y.natAbs < 10000) → (y < 0 → y.natAbs < 1000) → d ≤ 2 →
      number 4 d y = shownNumber 4 d y := fun d y h1 h2 hd => by
    refine number_shown 4 d y ?_ (by omega)
    unfold fitsField
    split
    · exact ⟨h2 (by omega), by omega⟩
    · exact ⟨h1 (by omega), by omega⟩
  unfold massMain
  split
  · rw [Int.tdiv_eq_ediv_of_nonneg (by omega)]
    exact e 1 _ (by omega) (by omega) (by omega)
  · split
    · rw [if_pos (by omega)]
      exact e 2 _ (by omega) (by omega) (by omega)
    · split
      · exact e 2 _ (by omega) (by omega) (by omega)
      · split
        · rw [t 10 (by omega)]
          exact e 1 _ (by omega) (by omega) (by omega)
        · rw [t 100 (by omega)]
          exact e 0 _ (by omega) (by omega) (by omega)

theorem countAux_shown (n : Nat) : countAux n = shownCount n := by
  unfold countAux shownCount
  split
  · refine number_shown 2 0 n ?_ (by omega)
    unfold fitsField
    rw [if_neg (by omega)]
    exact ⟨by omega, by omega⟩
  · rfl

theorem orDashes_shows {α : Type} (w : Nat) (f : α → List Byte) (P : α → List Byte → Prop) (v : Option α)
    (h : ∀ a, P a (f a)) : showsOr (dashField w) P v (orDashes w f v) := by
  cases v with
  | none => rfl
  | some a => exact h a

theorem orBlanks_shows {α : Type} (w : Nat) (f : α → List Byte) (P : α → List Byte → Prop) (v : Option α)
    (h : ∀ a, P a (f a)) : showsOr (blankField w) P v (orBlanks w f v) := by
  cases v with
  | none => rfl
  | some a => exact h a

theorem lastPointLit_pointed (on : Bool) (P : List Byte → Prop) (x : List Byte) (hx : x ≠ []) (h : P x) :
    lastPointed on P (lastPointLit on x) := by
  refine ⟨x, h, ?_⟩
  obtain ⟨y, b, rfl⟩ : ∃ y b, x = y ++ [b] := ⟨x.dropLast, x.getLast hx, (List.dropLast_concat_getLast hx).symm⟩
  cases on <;> simp [lastPointLit, firstPointLit, withPoint]

theorem firstPointLit_pointed (on : Bool) (P : List Byte → Prop) (x : List Byte) (hx : x ≠ []) (h : P x) :
    firstPointed on P (firstPointLit on x) := by
  refine ⟨x, h, ?_⟩
  cases x with
  | nil => exact absurd rfl hx
  | cons b y => cases on <;> simp [firstPointLit, withPoint]

theorem payloadMain_shows (p : PassRec) : showsPayload p.payload (payloadMain p) :=
  orDashes_shows 4 _ _ p.payload fun m => massMain_shows m

/-- Three fields as a page gives them. -/
def Fields.are (f : Fields) (P : List Byte → List Byte → List Byte → Prop) : Prop := P f.main f.aux f.counter

theorem Chip.runFields_shown (c : Chip) : c.runFields.are c.runShows := by
  refine ⟨?_, ?_, ?_⟩
  · unfold Chip.runFields showsOr
    cases c.panel.lastPass with
    | none => rfl
    | some p => exact payloadMain_shows p
  · intro h
    simp only [Chip.runFields, h]
    exact ⟨rfl, rfl⟩
  · intro r h
    simp only [Chip.runFields, h]
    exact ⟨countAux_shown _, number_shows 5 2 _ (by omega)⟩

theorem Chip.truckPage_shown (c : Chip) : c.truckPage.are c.truckShows := by
  refine ⟨?_, ?_, ?_⟩
  · intro h
    simp only [Chip.truckPage, h]
    exact ⟨rfl, rfl, rfl⟩
  · intro r p h hp
    simp only [Chip.selectedPass] at hp
    simp only [Chip.truckPage, h, hp, passFields]
    refine ⟨payloadMain_shows p, countAux_shown _, lastPointLit_pointed _ _ _ ?_ ?_⟩
    · cases p.fill <;> simp [blanks, List.replicate]
      intro hh
      have := congrArg List.length hh
      simp at this
    · cases hf : p.fill with
      | none => rfl
      | some f => exact natural_shows 5 f (by omega)
  · intro r h hp
    simp only [Chip.selectedPass] at hp
    simp only [Chip.truckPage, h, hp, truckFields, TruckRec.remaining]
    refine ⟨countAux_shown _, orDashes_shows 5 _ _ r.target fun t => number_shows 5 2 _ (by omega), ?_, ?_⟩
    · intro ht
      simp only [ht]
      exact massMain_shows _
    · intro t ht
      simp only [ht]
      exact massMain_shows _

theorem counterField_shown (n : Nat) : shownCounter n (counterField n) := by
  unfold shownCounter counterField
  have e : ∀ m : Nat, m ≤ 99999 → natural 5 m = shownNumber 5 0 m := fun m hm =>
    number_shown 5 0 m (by unfold fitsField; rw [if_neg (by omega)]; exact ⟨by omega, by omega⟩) (by omega)
  have ne : ∀ m, natural 5 m ≠ [] := fun m hh => by
    have := congrArg List.length hh
    simp at this
  split
  · exact e n (by omega)
  · split
    · refine lastPointLit_pointed _ _ _ (ne _) ?_
      rw [e _ (by omega), Nat.min_eq_right (by omega)]
    · refine lastPointLit_pointed _ _ _ (ne _) ?_
      rw [e _ (by omega), Nat.min_eq_left (by omega)]

theorem Chip.countPage_shown (c : Chip) : c.countPage.are c.countShows := by
  unfold Fields.are Chip.countPage Chip.countShows Fields.of Chip.countValue Chip.isWeigher Chip.cfg
  refine ⟨rfl, ?_⟩
  cases c.store.cfg.role <;> simp only [beq_self_eq_true, if_true, if_false, reduceCtorEq, beq_iff_eq] <;>
    split <;> rename_i hk <;> simp only [hk] <;>
    first
    | trivial
    | exact ⟨rfl, counterField_shown _⟩
    | exact ⟨rfl, orDashes_shows 5 _ _ _ counterField_shown⟩

theorem Chip.historyPage_shown (c : Chip) : c.historyPage.are c.historyShows := by
  unfold Fields.are Chip.historyPage Chip.historyShows
  dsimp only
  cases hh : c.panel.histSel.bind fun s => c.load.history.find? fun h => h.seq == s with
  | none => exact ⟨fun _ => ⟨rfl, rfl, rfl⟩, nofun, nofun⟩
  | some h =>
    refine ⟨nofun, ?_, ?_⟩
    · rintro h' ⟨⟩ hs
      simp only [hs]
      exact ⟨massMain_shows _, countAux_shown _, natural_shows 5 _ (by omega)⟩
    · rintro h' ⟨⟩ hs
      simp only [hs, if_true]
      refine ⟨orDashes_shows 4 _ _ _ fun t => massMain_shows t, countAux_shown _, lastPointLit_pointed _ _ _ ?_ ?_⟩
      · cases h.reason <;> decide
      · cases h.reason <;> rfl

theorem Chip.blinking_blinks (c : Chip) (P : List Byte → Prop) (f : List Byte) (hl : f.length = 4) (h : P f) :
    c.blinks P (c.blinking f) := by
  unfold Chip.blinks Chip.blinking
  refine ⟨fun hb => ?_, fun hb => ?_⟩
  · rw [if_pos hb, hl]
    rfl
  · rw [if_neg (by simp [hb])]
    exact h

theorem Chip.setupPage_shown (c : Chip) : c.setupPage.are c.setupShows := by
  unfold Fields.are Chip.setupPage Chip.setupShows Fields.of
  refine ⟨natural_shows 2 _ (by omega), rfl, ?_⟩
  split <;> rename_i hk <;> simp only [hk, setupValue] <;>
    first
    | trivial
    | exact c.blinking_blinks _ _ (by simp) (natural_shows 4 _ (by omega))
    | exact c.blinking_blinks _ _ (by simp) (massMain_shows _)

theorem Chip.calPage_shown (c : Chip) : c.calPage.are c.calShows := by
  unfold Fields.are Chip.calPage Chip.calShows Fields.of
  dsimp only
  split <;> rename_i hs <;> simp only [hs]
  · split
    · exact ⟨c.blinking_blinks _ _ (by simp) (natural_shows 4 _ (by omega)), natural_shows 2 _ (by omega), rfl⟩
    · exact ⟨c.blinking_blinks _ _ (by simp) (natural_shows 4 _ (by omega)), rfl, natural_shows 5 _ (by omega)⟩
  · refine ⟨?_, ?_, orBlanks_shows 5 _ _ _ fun n => natural_shows 5 n (by omega)⟩
    · cases c.cal.outcome with
      | none => rfl
      | some o => cases o <;> rfl
    · simp only [CalUnit.keptCount, hs]
      exact natural_shows 2 _ (by omega)
  · refine ⟨?_, ?_, orBlanks_shows 5 _ _ _ fun n => natural_shows 5 n (by omega)⟩
    · cases c.cal.outcome with
      | none => rfl
      | some o => cases o <;> rfl
    · simp only [CalUnit.keptCount, hs]
      exact natural_shows 2 _ (by omega)
  · unfold reviewFields
    refine ⟨?_, fun e l k hc hk => ?_⟩
    · split <;> exact natural_shows 2 _ (by omega)
    · simp only [hc]
      have hk' : Fin.ofNat 16 c.cal.browse = k := Fin.ext (by rw [← hk]; exact Nat.mod_eq_of_lt k.isLt)
      simp only [hk', Fields.of]
      exact ⟨number_shows 4 0 _ (by omega), number_shows 5 0 _ (by omega)⟩
  · exact ⟨rfl, natural_shows 2 _ (by omega), rfl⟩
  · exact ⟨rfl, natural_shows 2 _ (by omega), natural_shows 5 _ (by omega)⟩
  · cases hf : c.cal.failure with
    | none => trivial
    | some f =>
      cases f with
      | geometry => exact ⟨rfl, rfl, rfl⟩
      | isProtected => exact ⟨rfl, rfl, rfl⟩
      | inconsistent loaded k =>
        refine ⟨rfl, natural_shows 2 _ (by omega), ?_⟩
        cases loaded <;> exact natural_shows 5 _ (by omega)
      | span k => exact ⟨rfl, natural_shows 2 _ (by omega), rfl⟩

theorem natural_ne_nil (w n : Nat) (h : w ≠ 0) : natural w n ≠ [] := fun hh => by
  have := congrArg List.length hh
  simp at this
  omega

theorem numeral_segs (n : Nat) (h : n ≤ 9) : numeral n = numeralSegs.getD n 0 := by
  have : ∀ m, m < 10 → numeral m = numeralSegs.getD m 0 := by decide
  exact this n (by omega)

theorem Chip.channelItem_shown (c : Chip) (i : ChanId) : c.channelShows i (c.channelItem i).1 (c.channelItem i).2 := by
  unfold Chip.channelShows Chip.channelItem
  refine ⟨?_, firstPointLit_pointed _ _ _ ?_ ?_⟩
  · dsimp only
    cases (c.inp.chan i).freshness <;> rfl
  · intro hh
    have := congrArg List.length hh
    cases i <;> simp [Chip.channelFigure, orDashes_length] at this
  · cases i
    · exact natural_shows 5 _ (by omega)
    · exact natural_shows 5 _ (by omega)
    · exact natural_shows 5 _ (by omega)
    · exact orDashes_shows 5 _ _ _ fun v => number_shows 5 0 v (by omega)
    · exact orDashes_shows 5 _ _ _ fun v => natural_shows 5 _ (by omega)
    · exact orDashes_shows 5 _ _ _ fun v => number_shows 5 0 _ (by omega)
    · exact orDashes_shows 5 _ _ _ fun v => natural_shows 5 _ (by omega)

/-- The flag digits. -/
theorem flagDigit_segs (b : Bool) : flagDigit b = flagSegs b := by cases b <;> rfl

theorem Chip.otherItem_shown (c : Chip) (item : Nat) : c.otherShows item (c.otherItem item).1 (c.otherItem item).2 := by
  unfold Chip.otherShows Chip.otherItem
  split
  · refine ⟨?_, lastPointLit_pointed _ _ _ (natural_ne_nil _ _ (by omega)) (natural_shows 5 _ (by omega))⟩
    simp only [Chip.startItem]
    split <;> rfl
  · refine ⟨fun h => ?_, fun v h => ?_⟩
    · simp only [Chip.driveItem, h]
      exact ⟨rfl, rfl⟩
    · simp only [Chip.driveItem, h, flagDigit_segs]
      refine ⟨rfl, fun hg => ?_⟩
      rw [numeral_segs _ hg]
      cases v.dir <;> rfl
  · rw [← flagDigit_segs]
    refine ⟨?_, _, rfl, ?_⟩
    · simp only [Chip.sourceItem]
      cases c.inp.sel with
      | none => rfl
      | some a => cases a <;> rfl
    · exact orDashes_shows 4 _ _ _ fun v => number_shows 4 0 _ (by omega)
  · refine ⟨fun h => ?_, fun p h => ?_⟩
    · simp only [Chip.pairItem, h]
      exact ⟨rfl, rfl⟩
    · simp only [Chip.pairItem, h]
      exact ⟨natural_shows 4 _ (by omega),
        firstPointLit_pointed _ _ _ (natural_ne_nil _ _ (by omega)) (natural_shows 5 _ (by omega))⟩
  · exact ⟨natural_shows 4 _ (by omega), natural_shows 5 _ (by omega)⟩
  · exact ⟨orDashes_shows 4 _ _ _ fun n => natural_shows 4 n (by omega), natural_shows 5 _ (by omega)⟩
  · refine ⟨?_, natural_shows 5 _ (by omega)⟩
    split <;> exact natural_shows 4 _ (by omega)
  · exact ⟨orDashes_shows 4 _ _ _ fun w => natural_shows 4 _ (by omega),
      orDashes_shows 5 _ _ _ fun n => natural_shows 5 n (by omega)⟩
  · refine ⟨orDashes_shows 4 _ _ _ fun w => ?_, orDashes_shows 5 _ _ _ fun n => natural_shows 5 n (by omega)⟩
    cases w.grade <;> rfl
  · refine ⟨natural_shows 4 _ (by omega), ?_⟩
    split <;> exact natural_shows 5 _ (by omega)
  · trivial

theorem Chip.peerItem_shown (c : Chip) (n : Nat) :
    (c.role.peers[n]? = none → c.peerItem n = (dashField 4, dashField 5))
      ∧ ∀ p, c.role.peers[n]? = some p → shows 4 0 p.station (c.peerItem n).1
          ∧ ∃ since, (c.peerItem n).2 = numeralSegs.getD p.state.code 0 :: since
              ∧ shows 4 0 (min 199 (age c.tick p.at_ / 10) : Nat) since := by
  refine ⟨fun h => by simp only [Chip.peerItem, h]; rfl, fun p h => ?_⟩
  simp only [Chip.peerItem, h]
  refine ⟨natural_shows 4 _ (by omega), _, ?_, natural_shows 4 _ (by omega)⟩
  rw [numeral_segs _ (by cases p.state <;> decide)]

theorem Chip.diagPage_shown (c : Chip) : c.diagPage.are c.diagShows := by
  unfold Fields.are Chip.diagPage Chip.diagShows Fields.of
  generalize c.panel.diagItem = item
  refine ⟨natural_shows 2 _ (by omega), ?_, ?_, ?_, ?_, ?_, ?_⟩
  · intro i h
    unfold itemChannel at h
    split at h <;> cases h <;> exact c.channelItem_shown _
  · intro segs n h
    unfold Chip.countItem at h
    split at h <;> first
      | contradiction
      | (simp only [Option.some.injEq, Prod.mk.injEq] at h
         obtain ⟨rfl, rfl⟩ := h
         simp [Chip.diagItem, diagChannel, tallyItem, voidItem, linkItem]
         exact ⟨rfl, natural_shows 5 _ (by omega)⟩)
  · intro h1 h2 h
    have e : c.diagItem item = c.peerItem (item - 32) := by
      unfold Chip.diagItem diagChannel
      split
      · rename_i h'
        split at h' <;> simp_all
      · rw [if_neg (by omega), if_neg (by omega), if_neg (by omega), if_pos (by omega)]
    dsimp only
    rw [e, (c.peerItem_shown _).1 h]
    exact ⟨rfl, rfl⟩
  · intro p h1 h2 h
    have e : c.diagItem item = c.peerItem (item - 32) := by
      unfold Chip.diagItem diagChannel
      split
      · rename_i h'
        split at h' <;> simp_all
      · rw [if_neg (by omega), if_neg (by omega), if_neg (by omega), if_pos (by omega)]
    dsimp only
    rw [e]
    exact (c.peerItem_shown _).2 p h
  · intro a h
    unfold itemAlarm at h
    split at h <;> cases h <;>
      simp [Chip.diagItem, diagChannel, alarmOfItem, Chip.alarmItem, flagDigit_segs] <;> exact ⟨rfl, rfl⟩
  · by_cases h : item = 1 ∨ item = 9 ∨ item = 10 ∨ item = 18 ∨ item = 19 ∨ 48 ≤ item
    · have e : c.diagItem item = c.otherItem item := by
        rcases h with rfl | rfl | rfl | rfl | rfl | h
        · rfl
        · rfl
        · rfl
        · rfl
        · rfl
        · unfold Chip.diagItem diagChannel
          split
          · rename_i h'
            split at h' <;> simp_all
          · rw [if_neg (by omega), if_neg (by omega), if_neg (by omega), if_neg (by omega), if_neg (by omega)]
      dsimp only
      rw [e]
      exact c.otherItem_shown item
    · unfold Chip.otherShows
      split <;> trivial

theorem Chip.pageFields_shown (c : Chip) : c.pageFields.are c.pageShows := by
  unfold Chip.pageFields Fields.are Chip.pageShows Chip.shownPage Chip.pageInSight
  generalize (if c.sup.power = .peek then (if c.panel.peekHistory then Page.history else .count) else c.panel.page) = g
  cases g
  · exact c.runFields_shown
  · exact c.truckPage_shown
  · exact c.countPage_shown
  · exact c.historyPage_shown
  · exact c.setupPage_shown
  · exact c.diagPage_shown
  · exact c.calPage_shown

theorem Chip.banner_shown (c : Chip) (a : Alarm) : c.banner = some a ↔ c.onBanner a := by
  unfold Chip.banner Chip.onBanner AlarmUnit.banner Chip.inRun
  by_cases h : c.sup.power = .run
  · simp only [h, beq_self_eq_true, if_true, true_and]
    rw [List.find?_eq_some_iff_append]
    have e : ∀ b, (c.alarm.get b).shown = true ↔
        (c.alarm.get b).latch = true ∧ (c.alarm.get b).ack = false ∧ (c.alarm.get b).mask = false := fun b => by
      simp [AlarmRec.shown, and_assoc]
    have e' : ∀ b, (!(c.alarm.get b).shown) = true ↔
        ¬((c.alarm.get b).latch = true ∧ (c.alarm.get b).ack = false ∧ (c.alarm.get b).mask = false) := fun b => by
      rw [← e b]
      simp
    simp only [e, e']
    constructor
    · rintro ⟨h1, l, r, h2, h3⟩
      exact ⟨l, r, h2, h1, h3⟩
    · rintro ⟨l, r, h2, h1, h3⟩
      exact ⟨h1, l, r, h2, h3⟩
  · simp [h]

theorem Chip.bar_shown (c : Chip) : c.fields.bar = c.bargraph := by
  have e : c.fields.bar = c.pageFields.bar := by
    unfold Chip.fields
    dsimp only
    (repeat' split) <;> rfl
  rw [e]
  unfold Chip.pageFields Chip.bargraph Chip.shownPage Chip.pageInSight
  generalize (if c.sup.power = .peek then (if c.panel.peekHistory then Page.history else .count) else c.panel.page) = g
  have f : ∀ p : PassRec, fillBar p = if p.payload.isSome then min 20 (p.fill.getD 0 / 5) else 0 := fun p => by
    unfold fillBar
    cases p.payload <;> rfl
  cases g
  · simp only [Chip.runFields]
    cases c.panel.lastPass with
    | none => rfl
    | some p => exact f p
  · simp only [Chip.truckPage, Chip.selectedPass]
    cases c.load.record with
    | none => rfl
    | some r =>
      dsimp only
      cases c.panel.truckSel.bind fun n => r.passes.find? fun p => p.number == n with
      | none =>
        simp only [truckFields]
        cases r.target <;> rfl
      | some p => exact f p
  · rfl
  · unfold Chip.historyPage
    dsimp only
    (repeat' split) <;> rfl
  · rfl
  · rfl
  · unfold Chip.calPage reviewFields
    dsimp only
    (repeat' split) <;> rfl

theorem Chip.bargraph_le (c : Chip) : c.bargraph ≤ 20 := by
  unfold Chip.bargraph
  dsimp only
  split
  · cases c.panel.lastPass with
    | none => simp
    | some p => simp; split <;> omega
  · split
    · split <;> omega
    · omega
    · omega
  · omega

/-- The bits of a byte made of eight flags. -/
theorem byteOf_bits (b7 b6 b5 b4 b3 b2 b1 b0 : Bool) :
    let b : Byte := BitVec.ofNat 8 (bitVal b7 7 + bitVal b6 6 + bitVal b5 5 + bitVal b4 4 + bitVal b3 3 + bitVal b2 2
      + bitVal b1 1 + bitVal b0 0)
    b.getLsbD 7 = b7 ∧ b.getLsbD 6 = b6 ∧ b.getLsbD 5 = b5 ∧ b.getLsbD 4 = b4 ∧ b.getLsbD 3 = b3 ∧ b.getLsbD 2 = b2
      ∧ b.getLsbD 1 = b1 ∧ b.getLsbD 0 = b0 := by
  revert b7 b6 b5 b4 b3 b2 b1 b0
  decide +kernel

theorem barByte_bits : ∀ bar, bar ≤ 20 → ∀ k, k < 8 →
    (barByte 1 bar).getLsbD (7 - k) = decide (k < bar) ∧ (barByte 9 bar).getLsbD (7 - k) = decide (8 + k < bar) := by
  intro bar h k hk
  have : ∀ bar : Fin 21, ∀ k : Fin 8, (barByte 1 bar).getLsbD (7 - k) = decide (k.val < bar.val)
      ∧ (barByte 9 bar).getLsbD (7 - k) = decide (8 + k.val < bar.val) := by decide +kernel
  exact this ⟨bar, by omega⟩ ⟨k, hk⟩

/-- In RUN and PEEK the frame is the image that R138 to R143 describe. -/
theorem Chip.composeFrame_shows (c : Chip) (h : c.sup.power = .run ∨ c.sup.power = .peek) :
    c.frameShows c.composeFrame := by
  obtain ⟨l1, l2, l3⟩ := c.fields_sized
  have bar20 := c.bargraph_le
  have e : c.composeFrame = (c.fields.main ++ c.fields.aux ++ c.fields.counter)
      ++ [barByte 1 c.fields.bar, barByte 9 c.fields.bar, c.byte13 c.fields.bar, c.byte14, c.byte15] := by
    unfold Chip.composeFrame
    rcases h with h | h <;> rw [h]
  obtain ⟨m0, m1, m2, m3, em⟩ : ∃ a b d f, c.fields.main = [a, b, d, f] := by
    match hm : c.fields.main, l1 with
    | [a, b, d, f], _ => exact ⟨a, b, d, f, rfl⟩
  obtain ⟨a0, a1, ea⟩ : ∃ a b, c.fields.aux = [a, b] := by
    match hm : c.fields.aux, l2 with
    | [a, b], _ => exact ⟨a, b, rfl⟩
  obtain ⟨c0, c1, c2, c3, c4, ec⟩ : ∃ a b d f g, c.fields.counter = [a, b, d, f, g] := by
    match hm : c.fields.counter, l3 with
    | [a, b, d, f, g], _ => exact ⟨a, b, d, f, g, rfl⟩
  have t4 : c.composeFrame.take 4 = c.fields.main := by rw [e, em, ea, ec]; rfl
  have t5 : (c.composeFrame.drop 4).take 2 = c.fields.aux := by rw [e, em, ea, ec]; rfl
  have t6 : (c.composeFrame.drop 6).take 5 = c.fields.counter := by rw [e, em, ea, ec]; rfl
  have t11 : c.composeFrame.take 11 = c.fields.main ++ c.fields.aux ++ c.fields.counter := by rw [e, em, ea, ec]; rfl
  have g11 : c.composeFrame.getD 11 0 = barByte 1 c.bargraph := by rw [e, em, ea, ec, c.bar_shown]; rfl
  have g12 : c.composeFrame.getD 12 0 = barByte 9 c.bargraph := by rw [e, em, ea, ec, c.bar_shown]; rfl
  have g13 : c.composeFrame.getD 13 0 = c.byte13 c.bargraph := by rw [e, em, ea, ec, c.bar_shown]; rfl
  have g14 : c.composeFrame.getD 14 0 = c.byte14 := by rw [e, em, ea, ec]; rfl
  have g15 : c.composeFrame.getD 15 0 = c.byte15 := by rw [e, em, ea, ec]; rfl
  have b13 := byteOf_bits (17 ≤ c.bargraph) (18 ≤ c.bargraph) (19 ≤ c.bargraph) (20 ≤ c.bargraph)
    (c.recordFlag RecFlags.reached) (c.recordFlag RecFlags.last) c.overLit c.staleLit
  have b14 := byteOf_bits c.role.conflict (c.inRun && c.role.crossCheck) (c.cal.state != .out)
    (c.inRun && c.sup.status == .low) c.banner.isSome (c.load.record.isNone && c.onLoadPage)
    (c.recordFlag RecFlags.isPartial && c.onLoadPage) c.tonnesLit
  have g13bit : ∀ (i : Nat) (b : Bool) {P : Prop}, (c.byte13 c.bargraph).getLsbD i = b → (b = true ↔ P) →
      ((c.composeFrame.getD 13 0).getLsbD i = true ↔ P) := fun i b P h1 h2 => by rw [g13, h1, h2]
  have flag : ∀ f, c.recordFlag f = true ↔ ∃ r, c.load.record = some r ∧ f r.flags = true := fun f => by
    unfold Chip.recordFlag
    cases c.load.record <;> simp
  have page : c.shownPage = c.pageInSight := rfl
  refine ⟨?_, ?_, ?_, ?_, ?_⟩
  · intro hm
    rw [t11]
    unfold Chip.fields
    simp only [hm, if_true]
    rfl
  · intro hm
    refine ⟨c.pageFields.counter, ?_, ?_, ?_⟩
    · have := c.pageFields_shown
      rw [t4, t5]
      unfold Chip.fields
      simp only [hm]
      cases c.banner <;> exact this
    · intro a ha
      rw [t6]
      unfold Chip.fields
      rw [(c.banner_shown a).2 ha]
      simp only [hm]
      cases a <;> rfl
    · intro ha
      have : c.banner = none := by
        cases hb : c.banner with
        | none => rfl
        | some a => exact absurd ((c.banner_shown a).1 hb) (ha a)
      rw [t6]
      unfold Chip.fields
      simp only [hm, this]
      rfl
  · intro k hk
    by_cases h8 : k < 8
    · rw [Nat.div_eq_of_lt h8, Nat.mod_eq_of_lt h8, g11, (barByte_bits _ bar20 k h8).1]
      simp
    · by_cases h16 : k < 16
      · obtain ⟨j, rfl⟩ : ∃ j, k = 8 + j := ⟨k - 8, by omega⟩
        rw [show 11 + (8 + j) / 8 = 12 by omega, show (8 + j) % 8 = j by omega, g12,
          (barByte_bits _ bar20 j (by omega)).2]
        simp
      · rcases (show k = 16 ∨ k = 17 ∨ k = 18 ∨ k = 19 by omega) with rfl | rfl | rfl | rfl
        · exact g13bit 7 (17 ≤ c.bargraph) b13.1 (by simp; omega)
        · exact g13bit 6 (18 ≤ c.bargraph) b13.2.1 (by simp; omega)
        · exact g13bit 5 (19 ≤ c.bargraph) b13.2.2.1 (by simp; omega)
        · exact g13bit 4 (20 ≤ c.bargraph) b13.2.2.2.1 (by simp; omega)
  · obtain ⟨-, -, -, -, x3, x2, x1, x0⟩ := b13
    obtain ⟨y7, y6, y5, y4, y3, y2, y1, y0⟩ := b14
    change (c.byte13 c.bargraph).getLsbD 3 = _ at x3
    change (c.byte13 c.bargraph).getLsbD 2 = _ at x2
    change (c.byte13 c.bargraph).getLsbD 1 = _ at x1
    change (c.byte13 c.bargraph).getLsbD 0 = _ at x0
    change c.byte14.getLsbD 7 = _ at y7
    change c.byte14.getLsbD 6 = _ at y6
    change c.byte14.getLsbD 5 = _ at y5
    change c.byte14.getLsbD 4 = _ at y4
    change c.byte14.getLsbD 3 = _ at y3
    change c.byte14.getLsbD 2 = _ at y2
    change c.byte14.getLsbD 1 = _ at y1
    change c.byte14.getLsbD 0 = _ at y0
    have onLoad : c.onLoadPage = true ↔ c.pageInSight = .run ∨ c.pageInSight = .truck := by
      simp [Chip.onLoadPage, page]
    unfold Chip.annunciators
    simp only [List.mem_cons, List.not_mem_nil, or_false, forall_eq_or_imp, forall_eq]
    rw [g13, g14, g15, x3, x2, x1, x0, y7, y6, y5, y4, y3, y2, y1, y0]
    refine ⟨flag _, flag _, ?_, ?_, Iff.rfl, ?_, ?_, ?_, ?_, ?_, ?_, ?_, ?_, ?_⟩
    · unfold Chip.overLit
      rw [Bool.or_eq_true]
      refine or_congr ?_ ?_
      · unfold Chip.overloaded
        cases c.load.record <;> simp
      · rw [Bool.and_eq_true, page]
        refine and_congr (by simp) ?_
        cases c.panel.lastPass with
        | none => simp
        | some p => cases hf : p.fill <;> simp [hf]
    · unfold Chip.staleLit
      rw [Bool.or_eq_true]
      refine or_congr (by simp [Chip.inRun]) ?_
      rw [Bool.and_eq_true, page]
      refine and_congr (by simp) ?_
      change (match itemChannel c.panel.diagItem with
        | some i => (c.inp.chan i).freshness == .stale
        | none => false) = true ↔ _
      cases itemChannel c.panel.diagItem <;> simp
    · simp [Chip.inRun]
    · simp
    · simp [Chip.inRun]
    · constructor
      · intro hb
        obtain ⟨a, ha⟩ := Option.isSome_iff_exists.mp hb
        exact ⟨a, (c.banner_shown a).1 ha⟩
      · rintro ⟨a, ha⟩
        rw [(c.banner_shown a).2 ha]
        rfl
    · simp [onLoad]
    · simp [onLoad, flag]
    · unfold Chip.tonnesLit
      rw [page]
      cases c.pageInSight <;> simp
    · unfold Chip.byte15
      rw [page]
      by_cases hp : c.pageInSight = .cal
      · cases c.cal.state <;> simp [hp] <;> decide
      · simp [hp]
    · unfold Chip.byte15
      rw [page]
      by_cases hp : c.pageInSight = .cal
      · cases c.cal.state <;> simp [hp] <;> decide
      · simp [hp]
  · intro k hk
    rw [g15]
    unfold Chip.byte15
    split
    · have : ∀ a b : Bool, ∀ k : Fin 6,
          (BitVec.ofNat 8 (bitVal a 0 + bitVal b 1)).getLsbD (k.val + 2) = false := by decide
      by_cases h8 : k < 8
      · have := this (c.cal.state == .empty) (c.cal.state == .loaded) ⟨k - 2, by omega⟩
        simpa [show k - 2 + 2 = k by omega] using this
      · exact BitVec.getLsbD_of_ge _ _ (by omega)
    · simp

end Sys2Proof.Machine
end

