-- ==== Sys2Proof/Laws/Keys.lean ====
section
/-! SUPPORT. The path of a registered press to the RUN rules, and what the steps of a selection select. -/

namespace Sys2Proof.Machine

/-- A press that registers in READY is routed by the RUN rules, from the part with the key held (R133, R136). -/
theorem Chip.press_path (s : State) (k : Key) (hrun : s.chip.running) (hr : s.chip.panel.decoder = .ready)
    (hl : s.chip.pins.keys.get k = true) (hto : ranOut 20 (s.chip.panel.keys.get k).timer s.chip.tick) :
    ∃ x : Chip, x = { s.chip with panel := { s.chip.panel with
          keys := s.chip.panel.keys.set k ⟨true, none⟩
          decoder := .held (s.chip.holdOf k)
          message := none } }
      ∧ Chip.whenUp (Chip.keyDebounceExpiry k) s.chip = (x.pressInRun k).settleLink := by
  refine ⟨_, rfl, ?_⟩
  have hd := due_of_ranOut _ _ _ hto
  have hw : s.chip.watchesKeys = true := by simp [Chip.watchesKeys, hrun.2]
  rw [Chip.whenUp_up _ _ hrun.1]
  simp only [Chip.keyDebounceExpiry, hw, Bool.true_and]
  rw [if_pos hd, hl, if_pos rfl]
  have e2 : (s.chip.mapPanel fun p => { p with keys := p.keys.set k ⟨true, none⟩ }).keyDown k = Chip.registered k
      ((s.chip.mapPanel fun p => { p with keys := p.keys.set k ⟨true, none⟩ }).mapPanel fun p => { p with
          decoder := .held (s.chip.holdOf k) }) := by
    simp only [Chip.keyDown]; rw [if_pos (by exact hr)]; simp only [Chip.mapPanel, hr, Decoder.press]; rfl
  rw [e2]
  simp only [Chip.registered]
  have : (((s.chip.mapPanel fun p => { p with keys := p.keys.set k ⟨true,
      none⟩ }).mapPanel fun p => { p with decoder := .held (s.chip.holdOf k) }).mapPanel fun p => { p with
          message := none }).sup.power = .run := hrun.2
  rw [this]
  rfl

/-! ## Selections (R138, R139) -/

theorem takeWhile_before {α : Type} [DecidableEq α] (before rest : List α) (m n : α) (h : n ∉ before) (hm : n ≠ m) :
    (before ++ m :: n :: rest).takeWhile (fun x => x != n) = before ++ [m] := by
  rw [List.takeWhile_append_of_pos]
  · simp [Ne.symm hm]
  · intro a ha
    simp only [bne_iff_ne, ne_eq]
    rintro rfl
    exact h ha

theorem dropWhile_before {α : Type} [DecidableEq α] (before rest : List α) (n : α) (h : n ∉ before) :
    (before ++ n :: rest).dropWhile (fun x => x != n) = n :: rest := by
  rw [List.dropWhile_append_of_pos]
  · simp
  · intro a ha
    simp only [bne_iff_ne, ne_eq]
    rintro rfl
    exact h ha

theorem olderPass_older (ns : List Nat) (sel : Option Nat) : olderIn ns sel (olderPass ns sel) := by
  refine ⟨?_, ?_, ?_⟩
  · rintro rfl; rfl
  · rintro n rest rfl rfl; simp [olderPass]
  · rintro before m n rest rfl rfl h hm
    simp [olderPass, takeWhile_before before rest m n h hm]

theorem newerPass_newer (ns : List Nat) (sel : Option Nat) : newerIn ns (fun _ => none) sel (newerPass ns sel) := by
  refine ⟨?_, ?_⟩
  · rintro before n rfl rfl h
    simp [newerPass, dropWhile_before before [] n h]
  · rintro before n m rest rfl rfl h
    simp [newerPass, dropWhile_before before (m :: rest) n h]

theorem historyStep_older (seqs : List (BitVec 32)) (sel : Option (BitVec 32)) :
    olderIn seqs sel (historyStep seqs false sel) := by
  refine ⟨?_, ?_, ?_⟩
  · rintro rfl; rfl
  · rintro n rest rfl rfl; simp [historyStep]
  · rintro before m n rest rfl rfl h hm
    simp [historyStep, takeWhile_before before rest m n h hm]

theorem historyStep_newer (seqs : List (BitVec 32)) (sel : Option (BitVec 32)) :
    newerIn seqs some sel (historyStep seqs true sel) := by
  refine ⟨?_, ?_⟩
  · rintro before n rfl rfl h
    simp [historyStep, dropWhile_before before [] n h]
  · rintro before n m rest rfl rfl h
    simp [historyStep, dropWhile_before before (m :: rest) n h]

/-- A HISTORY selection restarts the view at FIRST where it changes, and else moves nothing (R139). -/
theorem Panel.selectHistory_facts (p : Panel) (sel : Option (BitVec 32)) (now : Tick) :
    let q := p.selectHistory sel now
    q = { p with histSel := sel, histSecond := q.histSecond, histTimer := q.histTimer }
      ∧ (q.histSel ≠ p.histSel → q.histSecond = false ∧ q.histTimer = some now)
      ∧ (q.histSel = p.histSel → q.histSecond = p.histSecond ∧ q.histTimer = p.histTimer) := by
  unfold Panel.selectHistory
  split
  · rename_i h; subst h; simp
  · rename_i h; simp [Ne.symm h]

/-- A step moves target and mass alone: where both stand, the unit does. -/
theorem CalUnit.step_eq (up : Bool) (u : CalUnit) (ht : (u.step up).target = u.target) (hm : (u.step up).mass = u.mass) :
    u.step up = u := by
  have e : u.step up = { u with target := (u.step up).target, mass := (u.step up).mass } := by
    unfold CalUnit.step; split <;> rfl
  rw [e, ht, hm]

/-- A step of CAL-SELECT moves the field edited and, where its value changes, the blink (R91, R143). -/
theorem Chip.calStep_stepped (c : Chip) (up : Bool) (h : c.cal.state = .select) :
    c.calStepped (c.calStep up) up ∧ c.onlyChanges (c.calStep up) [.cal, .panel]
      ∧ (c.calStep up).panel.decoder = c.panel.decoder
      ∧ (c.calStep up).panel.keys = c.panel.keys ∧ (c.calStep up).panel.page = c.panel.page
      ∧ (c.calStep up).panel.setupItem = c.panel.setupItem := by
  unfold Chip.calStep Chip.calUpDown
  rw [h]
  simp only []
  refine ⟨⟨?_, ?_, ?_, ?_⟩, ?_, ?_⟩
  · intro hm
    have : (CalUnit.step up c.cal).target.val = if up then min 3 (c.cal.target.val + 1) else c.cal.target.val - 1 := by
      simp only [CalUnit.step, hm, Bool.false_eq_true, if_false]
      have := c.cal.target.isLt
      rw [Fin.val_ofNat]
      split <;> omega
    refine ⟨?_, ?_⟩
    · split <;> simp [CalUnit.step, hm]
    · rw [← this]; split <;> rfl
  · intro hm
    split <;> simp [CalUnit.step, hm, clampNat, Nat.min_comm]
  · intro hd
    split
    · rename_i hh
      refine absurd ?_ hd
      rw [if_pos hh]
      exact CalUnit.step_eq up c.cal hh.1 hh.2
    · simp [Panel.restartBlink]
  · intro hd
    split
    · simp
    · rename_i hh
      exfalso; apply hh
      split at hd
      · exact absurd (by assumption) hh
      · simp only [Chip.mapPanel_cal] at hd
        rw [hd]; exact ⟨rfl, rfl⟩
  · intro b hb
    split <;> cases b <;> simp [Chip.sameAt] at hb ⊢
  · split <;> simp [Panel.restartBlink]

end Sys2Proof.Machine
end

