-- ==== Sys2Proof/Laws/Power.lean ====
section
/-! SUPPORT. What leaving RUN and a RETAIN request leave of the blocks. -/

namespace Sys2Proof.Machine

/-- What the blocks hold after an entry to HOLD or DOZE but for the link, the keys and the save (R177). -/
theorem Chip.leaveRun_facts (c : Chip) (p : Power) (hp : p = .hold ∨ p = .doze) :
  let left := c.cal.state = .out ∨ c.cal.state = .writing
  let flying := c.trk.cycle = .lift ∨ c.trk.cycle = .weigh ∨ c.trk.cycle = .carry
  let d := (c.setPower p).leaveRun
  d.sup.power = p ∧ d.sup = { c.sup with power := p, offAfterStart := false }
    ∧ (left → d.role = { c.role with
        resumeRole := c.role.state, watch := none, listen := none, status := none, pairing := [] }
        ∧ d.panel.keptPage = c.panel.page ∧ d.cal = c.cal)
    ∧ (¬left → d.cal.state = .out ∧ d.panel.keptPage = .run
        ∧ d.role.resumeRole = (if c.role.state = .mute then .mute else .listen))
    ∧ d.panel.bklLevel = 0 ∧ d.panel.buz = Buzzer.silent ∧ d.panel.settings = c.panel.settings
    ∧ d.trk.cycle = .suspended ∧ d.trk.suspPower = true
    ∧ (c.trk.cycle ≠ .suspended → d.trk.ctx = none)
    ∧ d.trk.voids.power = (if flying then min 65535 (c.trk.voids.power + 1) else c.trk.voids.power)
    ∧ (∀ a, d.alarm.get a = { c.alarm.get a with maskTimer := none })
    ∧ (∀ i, d.inp.chan i = { c.inp.chan i with staleTimer := none, loss := .stopped }) ∧ d.inp.held = c.inp.held
    ∧ d.load = { c.load with refreshTimer := none, pollTimer := none }
    ∧ d.link = c.link ∧ d.store = c.store ∧ d.tick = c.tick ∧ d.pins = c.pins := by
  intro left flying d
  have hp' : p ≠ .run := by rcases hp with rfl | rfl <;> simp
  have hsp : ∀ x : Chip, x.suspendPass.role = x.role ∧ x.suspendPass.panel = x.panel ∧ x.suspendPass.cal = x.cal
      ∧ x.suspendPass.alarm = x.alarm ∧ x.suspendPass.inp = x.inp ∧ x.suspendPass.load = x.load
          ∧ x.suspendPass.link = x.link ∧ x.suspendPass.store = x.store ∧ x.suspendPass.tick = x.tick
              ∧ x.suspendPass.pins = x.pins ∧ x.suspendPass.sup = x.sup ∧ x.suspendPass.trk.cycle = .suspended ∧
                  (x.trk.cycle ≠ .suspended → x.suspendPass.trk.ctx = none) ∧ x.suspendPass.trk.voids.power =
                      (if x.trk.cycle = .lift ∨ x.trk.cycle = .weigh ∨ x.trk.cycle = .carry then min 65535
                          (x.trk.voids.power + 1) else x.trk.voids.power) := by
    intro x
    unfold Chip.suspendPass Chip.voidPass Chip.shutIfWeigh
    cases hx : x.trk.cycle <;> simp [Tracker.inFlight, hx, Chip.mapTrk, Tracker.endPass, Voids.raise, bump, satAdd,
        Chip.mapEng]
  have hsc : ∀ x : Chip, x.sup.power ≠ .run → x.trk.suspPower = true → x.suspendCalibration = x ∧
      (x.cal.state = .out ∨ x.cal.state = .writing) ∨ (¬ (x.cal.state = .out ∨ x.cal.state = .writing)
          ∧ x.suspendCalibration = { x with
              cal := { x.cal with state := .out, liftOpen := false }
              role := { x.role with resumeRole := if x.role.resumeRole = .mute then .mute else .listen }
              trk := { x.trk with suspCal := false }
              panel := { x.panel with keptPage := .run } }) := by
    intro x h h2
    unfold Chip.suspendCalibration
    cases hc : x.cal.state <;> simp [Chip.leaveCal, Chip.takeListen, Chip.inRun, h, Chip.removeCal, Chip.unsuspend,
        Chip.mapTrk, Chip.mapCal, h2, Chip.mapPanel, Chip.mapRole] <;> ((split <;> simp_all); rename_i hm; rw [← hm])
  obtain ⟨a1,a2,a3,a4,a5,a6,a7,a8,a9,a10,a11,a12,a13,a14⟩ := hsp
      (((c.setPower p).mapRole RoleArbiter.suspend).mapPanel fun p => p.keepPage.darken)
  simp only [d, Chip.leaveRun, Chip.suspendPower]
  generalize hy : Chip.suspendPass _ = y at *
  have hx := hsc
    ((((y.mapTrk fun t => { t with suspPower := true }).mapAlarm AlarmUnit.suspend).mapInp InputTable.stop
      |>.mapLoad fun l => { l with refreshTimer := none, pollTimer := none }).mapSup
        fun s => { s with offAfterStart := false })
    (by simp [a11, Chip.setPower, hp']) rfl
  simp only [Chip.mapSup, Chip.mapLoad, Chip.mapInp, Chip.mapAlarm, Chip.mapTrk, Chip.mapRole, Chip.mapPanel,
      Chip.setPower] at hx a1 a2 a3 a4 a5 a6 a7 a8 a9 a10 a11 a12 a13 a14 ⊢
  rcases hx with ⟨hx, hc⟩ | ⟨hc, hx⟩ <;> rw [hx] <;> simp only [a1,a2,a3,a4,a5,a6,a7,a8,a9,a10,a11,a12, left,
      flying] at hc ⊢ <;>
  refine ⟨by simp, by simp, ?_, ?_, by simp [Panel.darken], by simp [Panel.darken], by simp [Panel.darken,
      Panel.keepPage], by simp, by simp, a13, a14, ?_, ?_, by simp [InputTable.stop], by simp, by simp, by simp,
          by simp, by simp⟩
  · simp [Panel.darken, Panel.keepPage, RoleArbiter.suspend]
  · intro h; exact absurd hc h
  · intro a; cases a <;> rfl
  · intro i; cases i <;> rfl
  · intro h; exact absurd h hc
  · intro _; simp [RoleArbiter.suspend]; split <;> simp_all
  · intro a; cases a <;> rfl
  · intro i; cases i <;> rfl

/-- A RETAIN request waits for a write in progress, else its write starts (R165). -/
theorem Chip.askRetain_store (c : Chip) (r) :
    (c.askRetain r).store =
      if c.store.writing.isSome then { c.store with reqRetain := some (c.retained r) }
      else { c.store with writing := some (.retain (c.retained r), c.tick), reqRetain := none } := by
  simp only [Chip.askRetain, Chip.mapStore, ParamStore.askRetain, ParamStore.kick]
  cases c.store.writing <;> simp

end Sys2Proof.Machine
end

