-- ==== Sys2Proof/Tests/Slice0.lean ====
section
/-! SUPPORT. Tests: ill-formed operands are refused by the check, worked cases of the spec as single steps, and for every
statement with hypotheses a state and operands that meet them together. -/

namespace Sys2Proof.Tests

-- One kernel evaluation at a time: each would hold a thread of its own while it waits for the ones before it.
set_option Elab.async false

open Sys2Proof.Machine

/-! ## States for the tests -/

/-- The part after a command. -/
def after (i : Instr) (c : Chip) : Chip :=
  match exec i ⟨c, []⟩ with
  | .next t => t.chip
  | .fault _ => c
  | .refused _ => c

/-- A configuration with every channel fitted. -/
def cfg : Cfg := { Cfg.defaults with srcSecondary := 8, srcIncline := 9, srcTag := 12, unlock := 7 }

/-- The curve set of the worked cases of chapter 1, but for its size: E = 77600 + 600 k, L = 102000 + 500 k. -/
def curve : CurveSet :=
  ⟨1000, Vector.ofFn fun k => 77600 + 600 * (k.val : Int), Vector.ofFn fun k => 102000 + 500 * (k.val : Int), true⟩

/-- Station 4, a WEIGHER in ACTIVE, its start window over and its receiver in IDLE. -/
def weigher : Chip :=
  { Chip.reset with
    tick := 10000
    link := { Link.reset with station := 4, wslot := none, rx := .idle }
    role := { RoleArbiter.reset with state := .active, watch := none, status := some 9750 }
    load := { LoadRegister.reset with refreshTimer := some 9000 }
    alarm := AlarmUnit.start cfg
    store := { ParamStore.reset with
      cfg := cfg, work := cfg, curves := Vector.replicate 4 curve, configDefault := false, retainLost := false
      window := none } }

/-- The same part in STANDBY, with station 3 named. -/
def standby : Chip :=
  { weigher with role := { weigher.role with state := .standby, mirrored := true, named := some 3, watch := some 9000 } }

/-- A REPEATER in REPEAT, with station 3 named. -/
def repeater : Chip :=
  { weigher with
    role := { weigher.role with state := .repeating, mirrored := true, named := some 3, watch := some 9000 }
    store := { weigher.store with cfg := { cfg with role := .repeater } } }

/-- An open record of truck 412 with one pass. -/
def pass : PassRec := ⟨412, 1, .normal, some 1300, .good, 13, 0, 200, some 108, false, false, false, false⟩

def record : TruckRec := ⟨412, some 4500, [pass], 1, 0, 1300, RecFlags.none⟩

def Chip.withRecord (r : TruckRec) (c : Chip) : Chip := { c with load := { c.load with record := some r } }

/-- A pass in LIFT, CANDIDATE. -/
def lifted : PassCtx :=
  { kind := .normal, stage := .candidate, start := 2000, reweigh := 0, idx := none, grade := none, bins := 0
    payload := none, fill := none, negative := false, overFlag := false, amendMade := false }

/-- The tracker in a cycle state with a pass, the angle before at a. -/
def Chip.inCycle (s : Cycle) (x : PassCtx) (a : Int) (c : Chip) : Chip :=
  { c with trk := { c.trk with cycle := s, ctx := some x, prevAngle := some a } }

/-- The primary angle is FRESH at theta, the boom rate w. -/
def Chip.boomAt (theta w : Int) (c : Chip) : Chip :=
  { c with inp := { c.inp with
      primary := ⟨.fresh, some (c.tick - 12), some .ok, Over.clear, some 3, 0, some (c.tick - 12), .stopped⟩
      held := { c.inp.held with primary := some theta }, sel := some .primary, omega := some w
      rateMem := some ⟨.primary, theta, c.tick - 12⟩, rateTimer := some (c.tick - 12) } }

/-- The tilt is FRESH. -/
def Chip.tiltAt (a : Int) (c : Chip) : Chip :=
  { c with inp := { c.inp with
      tilt := ⟨.fresh, some c.tick, some .ok, Over.clear, none, 0, some c.tick, .stopped⟩
      held := { c.inp.held with tilt := some a } } }

/-- The tracker in a cycle state with no pass, the racked note set or not, the angle before at a. -/
def Chip.between (s : Cycle) (racked : Bool) (a : Int) (c : Chip) : Chip :=
  { c with trk := { c.trk with cycle := s, ctx := none, racked := racked, prevAngle := some a } }

/-- The part under a configuration, in a power state, on a page. -/
def Chip.under (x : Cfg) (c : Chip) : Chip := { c with store := { c.store with cfg := x } }

def Chip.inPower (p : Power) (c : Chip) : Chip := { c with sup := { c.sup with power := p } }

def Chip.onPage (g : Page) (c : Chip) : Chip := { c with panel := { c.panel with page := g } }

/-- The window is open. -/
def Chip.weighing (c : Chip) : Chip :=
  { Chip.inCycle .weigh { lifted with idx := some 0 } 1437 c with eng := Engine.openWindow c.cfg 0 curve }

def press (ph pr : Nat) : List Byte := [1] ++ be16 ph ++ be16 pr ++ [0]

def angle (theta : Nat) : List Byte := [2] ++ be16 theta ++ [0]

/-- A key's debounce timer has run 20 ms with its line low, the decoder READY. -/
def Chip.pressing (k : Key) (c : Chip) : Chip :=
  { c with
    pins := { c.pins with keys := c.pins.keys.set k true }
    panel := { c.panel with decoder := .ready, keys := c.panel.keys.set k ⟨false, some (c.tick - 20)⟩ } }

/-- A key held for a time. -/
def Chip.holding (k : Key) (ms : Nat) (f : Option EditField) (c : Chip) : Chip :=
  { c with panel := { c.panel with decoder := .held ⟨k, c.tick - BitVec.ofNat 32 ms, true, true, f, none⟩ } }

/-! ## The check of operands refuses an ill-formed command -/

theorem test_wf_data_length : (Instr.liftPressure 2 0 (List.replicate 13 0)).wf = false := by decide
theorem test_wf_known_kind : (Instr.unknownKindTelegram 0x20 9 0 []).wf = false := by decide
theorem test_wf_unknown_data : (Instr.unknownKindTelegram 0x3F 9 0 (List.replicate 13 0)).wf = false := by decide
theorem test_wf_run : (Instr.receiveFailure ((frameChars ⟨0x24, 9, 0, []⟩).map fun b => ⟨b, true⟩)).wf = false := by
  decide +kernel
theorem test_wf_bit : (Instr.readbackMismatch 190).wf = false ∧ (Instr.readbackMismatch 189).wf = true := by decide
theorem test_wf_station :
    (Instr.peerRecordRemoval 0).wf = false ∧ (Instr.peerRecordRemoval 32).wf = false
      ∧ (Instr.peerRecordRemoval 31).wf = true := by decide
theorem test_wf_falls : (Instr.supplyFallsLow 160).wf = false ∧ (Instr.supplyFallsLow 159).wf = true := by decide
theorem test_wf_rises :
    (Instr.supplyRisesOk 180 ⟨1, false⟩).wf = false ∧ (Instr.supplyRisesOk 181 ⟨1, false⟩).wf = true := by decide
theorem test_wf_regulator : (Instr.regulatorFail 90).wf = false ∧ (Instr.regulatorFail 89).wf = true := by decide
theorem test_wf_cold : (Instr.coldStart 89 ⟨1, false⟩).wf = false ∧ (Instr.coldStart 90 ⟨1, false⟩).wf = true := by
  decide
theorem test_table_gives_no_bits : decodeTableWord 8 0 = none := by decide

/-! ## Worked cases -/

/-- 1.9: Ph 18500, Pr 1200 at 14.37 deg enter bin 4 with d = 31998 and s = 23963. -/
theorem test_sample_1_9 :
    ((after (.liftPressure 2 0 (press 18500 1200)) (Chip.weighing (Chip.boomAt 1437 900 weigher))).eng.bins)[4]
      = ⟨1, 31998, 23963, some (31998, 31998)⟩ := by decide +kernel

/-- The bins of case 1.10: 12 populated, none rough. -/
def bins110 : Vector Bin 15 :=
  let b (n : Nat) (d s lo hi : Int) : Bin := ⟨n, d, s * n, some (lo, hi)⟩
  #v[Bin.empty, b 6 191940 23940 31210 32540, b 7 223993 23948 31480 32620, b 7 224028 23955 30950 33100,
    b 7 223990 23961 31050 32870, b 7 223895 23963 31300 32700, b 8 255936 23966 31120 32910,
    b 7 224070 23968 31400 32800, b 7 223916 23970 30990 33020, b 6 191976 23972 31250 32640,
    b 7 223951 23969 31330 32590, b 6 192006 23972 31180 32760, b 6 191898 23972 31010 32880, Bin.empty, Bin.empty]

/-- The part of case 1.10 about to close its window: trim +3, the angle before at 24.94 deg. -/
def closing : Chip :=
  let c := Chip.weighing weigher
  { c with
    eng := { c.eng with bins := bins110 }
    trk := { c.trk with prevAngle := some 2494 }
    panel := { c.panel with settings := { c.panel.settings with trim := 3 } } }

/-- 1.10: payload 1338 (13.38 t), grade GOOD, fill 112. -/
theorem test_close_1_10 :
    (after (.boomAngle 5 0 (angle 2512)) closing).eng.last
      = some ⟨.good, 12, some 1338, some 112, false, false, 0⟩ := by decide +kernel

/-- R61: eighteen counts in 20 ms are 900; minus seven in 3 ms are -2333. -/
theorem test_rate_truncates :
    (after (.boomAngle 5 0 (angle 1437))
        { Chip.boomAt 1419 0 weigher with tick := weigher.tick + 8 }).inp.omega = some 900
      ∧ ((((-7 : Int) * 1000).tdiv 3) = -2333) := by decide +kernel

/-- R151: the check of 31h to 39h. -/
theorem test_check_value : crc16 [0x31, 0x32, 0x33, 0x34, 0x35, 0x36, 0x37, 0x38, 0x39] = 0x29B1#16 := by decide +kernel

/-- R36, R41: a dump in CARRY joins the open record and beeps. -/
theorem test_dump_joins :
    (after (.bucketTilt 6 0 [0xF4, 0x48, 0])
        (Chip.inCycle .carry { lifted with stage := .weighed, payload := some 1338, fill := some 112, grade := some .good }
          2512 (Chip.withRecord record weigher))).load.record.map (fun r => (r.count, r.total, r.passes.length))
      = some (2, 2638, 2) := by decide +kernel

/-- R76: ENTER on the TRUCK page in manual mode opens the next manual truck. -/
theorem test_manual_truck :
    let c := Chip.pressing .enter (Chip.withRecord record weigher)
    let c := { c with
      panel := { c.panel with page := .truck }, store := { c.store with cfg := { cfg with srcTag := 0 } }
      load := { c.load with nextManual := 999 } }
    let d := after (.keyDebounceExpiry .enter) c
    d.load.record.map TruckRec.id = some 999 ∧ d.load.nextManual = 1 ∧ d.load.history.length = 1 := by decide +kernel

/-- R150: a run of four characters counts LENGTH. -/
theorem test_short_run :
    (after (.receiveFailure [⟨0xC3, true⟩, ⟨0x24, true⟩, ⟨9, true⟩, ⟨0, true⟩]) weigher).link.length = 1 := by
  decide +kernel

/-! ## States and operands that meet the hypotheses of the statements -/

def tag (present id target : Nat) : List Byte := [BitVec.ofNat 8 present] ++ be16 id ++ be16 target

theorem test_meets_StepRunsTheFrontCommand :
    (⟨weigher, [.longPress, .frameTimer]⟩ : State).pending = .longPress :: [.frameTimer] := rfl

theorem test_meets_EmptyQueue : State.reset.pending = [] := rfl

theorem test_meets_Kept : ∃ t, step ⟨weigher, []⟩ = .next t := ⟨_, rfl⟩

theorem test_meets_LinkStaysLawful : weigher.link.inRange ∧ weigher.delaysLawfully :=
  ⟨⟨by decide, nofun, nofun, nofun, nofun, nofun, by decide⟩, nofun⟩

theorem test_config_in_range : cfg.inRange := by
  unfold Cfg.inRange
  repeat' refine And.intro (by decide +kernel) ?_
  decide +kernel

theorem test_meets_ConfigurationStaysInRange : weigher.store.configInRange := by
  refine ⟨test_config_in_range, test_config_in_range, ?_, ?_, ?_⟩ <;> intros <;> contradiction

theorem test_meets_RetainedItemsStayInRange :
    let c := Chip.withRecord record (Chip.inCycle .lift lifted 999 weigher)
    c.store.configInRange ∧ c.keptInRange := by
  refine ⟨test_meets_ConfigurationStaysInRange,
    ⟨?_, ⟨by decide, trivial, nofun⟩, ?_, ?_, ?_, by decide +kernel, by decide +kernel⟩, ?_, ?_, ?_, ?_, ?_, ?_, ?_⟩
  · rintro x ⟨⟩
    refine ⟨by decide, by decide, by decide, by decide, by decide, by decide, by decide, by decide, ?_, ?_⟩
    · rintro n ⟨⟩; decide
    · intro p h
      cases List.mem_singleton.mp h
      refine ⟨by decide, by decide, ?_, by decide, by decide, by decide, ?_⟩ <;> rintro m ⟨⟩ <;> decide
  · repeat' apply And.intro
    all_goals decide +kernel
  · repeat' apply And.intro
    all_goals decide +kernel
  · repeat' apply And.intro
    all_goals decide +kernel
  · rintro r ⟨⟩
  · rintro r t ⟨⟩
  · rintro r ⟨⟩
  · rintro x ⟨⟩
    exact ⟨by decide, by decide, nofun, nofun⟩
  · rintro n ⟨⟩
  · rintro q ⟨⟩
  · rintro t ⟨⟩

theorem test_meets_PassAndWindowStayTogether :
    weigher.passAndWindow ∧ (Chip.weighing weigher).passAndWindow
      ∧ (Chip.inCycle .carry lifted 2600 weigher).passAndWindow := by
  repeat' apply And.intro
  all_goals decide +kernel

theorem test_meets_BinCountsStayInRange : closing.eng.inRange := by
  repeat' apply And.intro
  all_goals decide +kernel

theorem test_meets_AlarmRecordsStayLawful : weigher.alarmsLawful := by
  intro a
  cases a <;> decide +kernel

theorem test_meets_AlarmConditionsStayCurrent : weigher.alarmsCurrent :=
  ⟨fun a => by cases a <;> decide +kernel, by decide +kernel⟩

theorem test_meets_SupplyStatusAgrees : weigher.supplyAgrees := fun _ => by decide +kernel

theorem test_meets_PressureIsRecorded :
    weigher.Hears 2 0 (press 40001 0) ∧ (2 : Byte).toNat = weigher.cfg.srcPressure ∧ (press 40001 0).length = 6
      ∧ weigher.cal.liftOpen = false ∧ weigher.eng.isOpen = false
      ∧ (Chip.weighing weigher).Hears 2 0 (press 40000 0) ∧ (Chip.weighing weigher).trk.cycle ≠ .idle := by
  repeat' apply And.intro
  all_goals decide +kernel

theorem test_meets_AngleIsRecorded :
    weigher.Hears 5 0 (angle 6000) ∧ (5 : Byte).toNat = weigher.cfg.srcPrimary ∧ (angle 6000).length = 4
      ∧ weigher.Hears 8 0 (angle 6001) ∧ (8 : Byte).toNat = weigher.cfg.srcSecondary
      ∧ (8 : Byte).toNat ≠ weigher.cfg.srcPrimary := by
  repeat' apply And.intro
  all_goals decide +kernel

/-- A fault report in WEIGH leaves the tracker and the previous angle. An angle that moves nothing becomes it: in IDLE, at θs
UNWEIGHED and short of a crossing in LIFT, inside the window, at the dig angle in CARRY, at θs in RETURN not racked. -/
theorem test_meets_AngleIsRecorded_idle :
    let window := Chip.weighing weigher
    let spent : PassCtx := { lifted with stage := .unweighed, grade := some .reject }
    let d (theta : Nat) (c : Chip) := (after (.boomAngle 5 0 (angle theta)) c).trk
    let fault := after (.boomAngle 5 0 ([2] ++ be16 2600 ++ [1])) window
    let stays (theta : Nat) (c : Chip) := 
      d theta c = { c.trk with prevAngle := some theta, lossPressure := (d theta c).lossPressure }
    (fault.trk.cycle, fault.trk.ctx, fault.trk.prevAngle, fault.eng) = (.weigh, window.trk.ctx, some 1437, window.eng)
      ∧ fault.trk.lossAngle = some window.tick ∧ stays 3000 (Chip.between .idle false 0 weigher)
      ∧ stays 1000 (Chip.inCycle .lift spent 999 weigher) ∧ stays 2499 (Chip.inCycle .lift lifted 1000 weigher)
      ∧ stays 1000 window ∧ stays 2499 window ∧ stays 0 (Chip.inCycle .carry spent 2600 weigher)
      ∧ stays 1000 (Chip.between .ret false 999 weigher) ∧ stays 1000 (Chip.between .ret true 1000 weigher) := by
  dsimp only
  repeat' apply And.intro
  all_goals decide +kernel

theorem test_meets_TiltInclineAndDriveAreRecorded :
    weigher.Hears 6 0 [0, 0, 0] ∧ (6 : Byte).toNat = weigher.cfg.srcTilt
      ∧ weigher.Hears 9 0 [0, 0, 0, 0] ∧ (9 : Byte).toNat = weigher.cfg.srcIncline
      ∧ weigher.Hears 7 0 [2, 4, 1, 0xF4, 1] ∧ (7 : Byte).toNat = weigher.cfg.srcDrive
      ∧ weigher.trk.cycle = .idle := by
  repeat' apply And.intro
  all_goals decide +kernel

/-- A tilt at the rack-back angle in IDLE and in SUSPENDED, and a fault report of it in FILL and in CARRY. -/
theorem test_meets_TiltInclineAndDriveAreRecorded_still :
    let fill := Chip.inCycle .fill lifted 500 weigher
    let carry := Chip.inCycle .carry { lifted with stage := .unweighed } 2512 weigher
    let asleep : Chip := { weigher with trk := { weigher.trk with cycle := .suspended, suspCal := true } }
    let d (data : List Byte) (c : Chip) := (after (.bucketTilt 6 0 data) c).trk
    d (be16 3500 ++ [0]) weigher = weigher.trk ∧ d (be16 3500 ++ [0]) asleep = asleep.trk
      ∧ fill.Hears 6 0 (be16 3500 ++ [1]) ∧ d (be16 3500 ++ [1]) fill = fill.trk
      ∧ (d ([0xF4, 0x48] ++ [1]) carry).cycle = .carry ∧ (d ([0xF4, 0x48] ++ [1]) carry).ctx = carry.trk.ctx := by
  dsimp only
  repeat' apply And.intro
  all_goals decide +kernel

/-- Ids 1 and 65534 open, keep and replace a record; 0 and 65535 are unusable; a truck departs; a STANDBY owns none. -/
theorem test_meets_TagMovesTheRecord :
    let held := Chip.withRecord record weigher
    weigher.Hears 12 0 (tag 1 1 100) ∧ weigher.Hears 12 0 (tag 1 65534 0) ∧ weigher.Hears 12 0 (tag 1 0 0)
      ∧ weigher.Hears 12 0 (tag 1 65535 0) ∧ (12 : Byte).toNat = weigher.cfg.srcTag ∧ (tag 1 1 100).length = 5
      ∧ weigher.load.record = none ∧ weigher.load.refused ≠ some 1 ∧ weigher.role.state = .active
      ∧ held.Hears 12 0 (tag 1 412 4500) ∧ held.load.record = some record ∧ record.id = 412
      ∧ record.target = some 4500 ∧ held.Hears 12 0 (tag 1 413 0) ∧ record.count ≠ 0
      ∧ (Chip.withRecord { record with passes := [], count := 0 } weigher).Hears 12 0 (tag 0 0 0)
      ∧ standby.Hears 12 0 (tag 1 1 100) ∧ standby.role.state = .standby ∧ weigher.inp.held.tag = none := by
  dsimp only
  repeat' apply And.intro
  all_goals decide +kernel

/-- A new target for the truck held, a refused identity beside another truck, and a stockpile record with no truck. -/
theorem test_meets_TagMovesTheRecord_kept :
    let held := Chip.withRecord record { weigher with role := { weigher.role with mirrored := true } }
    let refused := { held with load := { held.load with refused := some 5 } }
    let pile := Chip.withRecord { record with id := 0 } weigher
    held.Hears 12 0 (tag 1 412 4000) ∧ record.target ≠ some 4000
      ∧ (after (.truckTag 12 0 (tag 1 412 4000)) held).load.record.map TruckRec.target = some (some 4000)
      ∧ (after (.truckTag 12 0 (tag 1 412 4000)) held).role.mirrored = false
      ∧ refused.Hears 12 0 (tag 1 5 0) ∧ (after (.truckTag 12 0 (tag 1 5 0)) refused).load = refused.load
      ∧ pile.Hears 12 0 (tag 0 0 0) ∧ (after (.truckTag 12 0 (tag 0 0 0)) pile).load.record.isSome = true := by
  dsimp only
  repeat' apply And.intro
  all_goals decide +kernel

/-- Dig pressure at its limit, with no tilt heard, a tilt short of the rack-back angle, and one at it. -/
theorem test_meets_DigOpensAPass :
    let dug := Chip.boomAt 999 0 weigher
    (dug.Hears 2 0 (press 12000 0) ∧ dug.cfg.role = .weigher ∧ dug.trk.cycle = .idle ∧ dug.cfg.digPressure ≤ 12000
        ∧ dug.inp.primary.freshness = .fresh ∧ dug.inp.held.primary = some 999 ∧ 999 < dug.cfg.thetaS)
      ∧ dug.inp.tilt.freshness ≠ .fresh
      ∧ ((Chip.tiltAt 3499 dug).Hears 2 0 (press 12000 0) ∧ (Chip.tiltAt 3499 dug).inp.held.tilt = some 3499
        ∧ dug.cfg.dumpAngle < 3499 ∧ 3499 < dug.cfg.rackAngle)
      ∧ ((Chip.tiltAt 3500 dug).Hears 2 0 (press 12000 0) ∧ (Chip.tiltAt 3500 dug).inp.held.tilt = some 3500
        ∧ dug.cfg.rackAngle ≤ 3500) := by
  dsimp only
  repeat' apply And.intro
  all_goals decide +kernel

theorem test_meets_CrossingOpensTheWindow :
    let c := Chip.inCycle .lift lifted 999 weigher
    c.Hears 5 0 (angle 1000) ∧ c.Hears 5 0 (angle 2499) ∧ (5 : Byte).toNat = c.cfg.srcPrimary
      ∧ nat8 (angle 1000) 3 = 0 ∧ c.trk.ctx = some lifted ∧ lifted.stage ≠ .unweighed ∧ c.trk.prevAngle = some 999
      ∧ (999 : Int) < c.cfg.thetaS ∧ c.cfg.thetaS = clampInt (-4500) 6000 (int16 (angle 1000) 1)
      ∧ clampInt (-4500) 6000 (int16 (angle 2499) 1) < c.cfg.thetaE ∧ c.inp.tilt.freshness ≠ .fresh := by
  dsimp only
  repeat' apply And.intro
  all_goals decide +kernel

/-- A crossing of θs in RETURN with the racked note set; and θe at 8.00 deg, below θs, in LIFT from above it, and in RETURN
crossed by the same angle. -/
theorem test_meets_CrossingOpensTheWindow_return :
    let low : Cfg := { cfg with thetaE := 800 }
    let ret := Chip.between .ret true 999 weigher
    let lift := Chip.under low (Chip.inCycle .lift lifted 800 weigher)
    let both := Chip.under low (Chip.between .ret true 799 weigher)
    let d (c : Chip) := (after (.boomAngle 5 0 (angle 1000)) c).trk
    ret.Hears 5 0 (angle 1000) ∧ ret.cfg.digAngle ≤ 1000 ∧ (d ret).cycle = .weigh
      ∧ (d ret).ctx.map PassCtx.kind = some .remainder
      ∧ lift.Hears 5 0 (angle 1000) ∧ lift.cfg.thetaE < lift.cfg.thetaS ∧ lift.cfg.thetaE ≤ 800 ∧ (d lift).cycle = .weigh
      ∧ both.Hears 5 0 (angle 1000) ∧ (799 : Int) < both.cfg.thetaE ∧ both.cfg.thetaE ≤ 1000 ∧ (d both).cycle = .weigh := by
  dsimp only
  repeat' apply And.intro
  all_goals decide +kernel

/-- What SampleEntersItsBin asks, of the window of case 1.9 at an angle. -/
def sampleMeets (theta : Int) (k : Fin 15) : Prop :=
  let c := Chip.weighing (Chip.boomAt theta 900 weigher)
  c.Hears 2 0 (press 18500 1200) ∧ nat8 (press 18500 1200) 5 = 0 ∧ c.eng.isOpen = true
    ∧ ∃ l, c.eng.latched = some l ∧ l.usable = true ∧ l.geom.thetaS ≤ theta ∧ theta < l.geom.thetaE
      ∧ k.val = min 14 ((theta - l.geom.thetaS) / l.geom.step).toNat
      ∧ ∃ r, c.inp.selected = some (r, theta) ∧ r.latestTick = some (c.tick - 12) ∧ age c.tick (c.tick - 12) ≤ 40
        ∧ r.latestStatus = some .ok ∧ r.overRange.f1 = false ∧ c.inp.omega = some 900 ∧ c.cfg.rmin ≤ 900
        ∧ (900 : Int) ≤ c.cfg.rmax ∧ c.inp.disagree = false ∧ inclineOk c.cfg c.inp = true
        ∧ speedOk c.cfg c.inp = true ∧ (c.eng.bins[k]).count < 255

theorem test_meets_SampleEntersItsBin : sampleMeets 1000 0 ∧ sampleMeets 1437 4 ∧ sampleMeets 2499 14 := by
  unfold sampleMeets Chip.Hears
  refine ⟨⟨by decide +kernel, by decide +kernel, rfl, _, rfl, ?_⟩, ⟨by decide +kernel, by decide +kernel, rfl, _, rfl, ?_⟩,
    ⟨by decide +kernel, by decide +kernel, rfl, _, rfl, ?_⟩⟩
  · exact ⟨by decide +kernel, by decide +kernel, by decide +kernel, by decide +kernel, _, rfl, by decide +kernel⟩
  · exact ⟨by decide +kernel, by decide +kernel, by decide +kernel, by decide +kernel, _, rfl, by decide +kernel⟩
  · exact ⟨by decide +kernel, by decide +kernel, by decide +kernel, by decide +kernel, _, rfl, by decide +kernel⟩

/-- A rate below the least fails RATE; a sample that passes every check finds room in its bin, or none. -/
theorem test_meets_GateTalliesTheFirstFailure :
    let c := Chip.weighing (Chip.boomAt 1437 499 weigher)
    let ok (n : Nat) : Chip :=
      let w := Chip.weighing (Chip.boomAt 1437 900 weigher)
      { w with eng := { w.eng with bins := Vector.replicate 15 ⟨n, 0, 0, some (0, 0)⟩ } }
    let d (c : Chip) := (after (.liftPressure 2 0 (press 18500 1200)) c).eng
    c.Hears 2 0 (press 18500 1200) ∧ c.eng.isOpen = true
      ∧ (after (.liftPressure 2 0 (press 18500 1200)) c).eng.tallies.rate = 1
      ∧ (ok 254).Hears 2 0 (press 18500 1200) ∧ (ok 254).eng.latched.map Latched.usable = some true
      ∧ (ok 254).inp.selected.map Prod.snd = some 1437 ∧ ((d (ok 254)).bins[4]).count = 255
      ∧ (d (ok 254)).tallies.binfull = 0 ∧ (d (ok 255)).bins = (ok 255).eng.bins ∧ (d (ok 255)).tallies.binfull = 1 := by
  dsimp only
  repeat' apply And.intro
  all_goals decide +kernel

/-- The least and the greatest rate, an age of 40 ms, an incline and a speed at their limits pass. One more, an invalid rate,
an angle at fault and a required channel unheard fail. -/
theorem test_meets_GateTalliesTheFirstFailure_checks :
    let t := (Chip.boomAt 1437 500 weigher).inp
    let heard : InputTable := { t with pressure := { t.pressure with latestStatus := some .ok } }
    let rate (w : Option Int) := rateOk cfg { t with omega := w }
    let incline (p r : Int) : InputTable :=
      { t with incline := { t.incline with freshness := .fresh }, held := { t.held with incline := some ⟨p, r⟩ } }
    let speed (v : Nat) : InputTable :=
      { t with
        drive := { t.drive with freshness := .fresh }, held := { t.held with drive := some ⟨.f, 1, v, false, false⟩ } }
    (rate (some 500) && rate (some 2500)) = true ∧ (rate (some 499) || rate (some 2501) || rate none) = false
      ∧ ageOk t.primary (weigher.tick + 28) = true ∧ ageOk t.primary (weigher.tick + 29) = false
      ∧ sensorOk heard t.primary = true ∧ sensorOk heard { t.primary with latestStatus := some .fault } = false
      ∧ (inclineOk cfg (incline 800 (-800)) && speedOk cfg (speed 120)) = true
      ∧ (inclineOk cfg (incline (-801) 0) || inclineOk cfg (incline 0 801) || speedOk cfg (speed 121)) = false
      ∧ inclineOk { cfg with inclineReq := true } t = false ∧ speedOk { cfg with driveReq := true } t = false := by
  dsimp only
  repeat' apply And.intro
  all_goals decide +kernel

/-- The window of case 1.10 closed at θe itself, as a NORMAL pass and as a REMAINDER, above and below the residual
threshold, with a note to amend, and with too few bins. -/
theorem test_meets_CrossingWeighsThePass :
    let remainder (bins : Vector Bin 15) : Chip :=
      { closing with
        eng := { closing.eng with bins := bins }
        trk := { closing.trk with
          ctx := some { lifted with kind := .remainder }, note := some ⟨true, pass, false⟩ } }
    let light : Vector Bin 15 := Vector.replicate 15 ⟨1, 1000, 24000, some (0, 0)⟩
    let d (c : Chip) := after (.boomAngle 5 0 (angle 2500)) c
    closing.Hears 5 0 (angle 2500) ∧ closing.trk.ctx = some { lifted with idx := some 0 }
      ∧ closing.trk.prevAngle = some 2494 ∧ closing.cfg.digAngle ≤ 2500 ∧ closing.inp.tilt.freshness ≠ .fresh
      ∧ (d closing).trk.cycle = .carry ∧ (d (remainder light)).trk.cycle = .ret
      ∧ (d (remainder bins110)).trk.note
          = some ⟨true, { pass with payload := some 0, fill := some 0, amended := true }, true⟩
      ∧ (d (remainder (Vector.replicate 15 Bin.empty))).trk.cycle = .carry := by
  dsimp only
  repeat' apply And.intro
  all_goals decide +kernel

/-- A REMAINDER voided EMPTY with the bucket racked, under a configuration brought into force since its window opened, whose
θs is the latched θe: the next window opens, or opens and closes where θe is there too. -/
theorem test_meets_CrossingWeighsThePass_again :
    let light : Vector Bin 15 := Vector.replicate 15 ⟨1, 1000, 24000, some (0, 0)⟩
    let empty : Chip := Chip.tiltAt 3500 { closing with
      eng := { closing.eng with bins := light }
      trk := { closing.trk with ctx := some { lifted with kind := .remainder } } }
    let d (x : Cfg) := after (.boomAngle 5 0 (angle 2500)) (Chip.under x empty)
    let one := d { cfg with thetaS := 2500, thetaE := 4000 }
    let both := d { cfg with thetaS := 2500, thetaE := 2500 }
    empty.Hears 5 0 (angle 2500) ∧ empty.inp.held.tilt = some empty.cfg.rackAngle ∧ (d cfg).trk.racked = true
      ∧ (d cfg).trk.cycle = .ret ∧ (d cfg).eng.last.map WindowResult.grade = some .good
      ∧ one.trk.cycle = .weigh ∧ one.eng.isOpen = true ∧ one.trk.voids.empty = 1
      ∧ one.trk.ctx = some { lifted with kind := .remainder, start := weigher.tick, idx := some 0 }
      ∧ one.eng.latched.map (fun l => (l.usable, l.geom.thetaS)) = some (true, 2500)
      ∧ one.eng.bins = Vector.replicate 15 Bin.empty
      ∧ both.trk.cycle = .carry ∧ both.eng.last = some ⟨.reject, 0, none, none, false, false, 0⟩
      ∧ both.trk.ctx.map PassCtx.stage = some .unweighed ∧ both.trk.voids.empty = 1 := by
  dsimp only
  repeat' apply And.intro
  all_goals decide +kernel

/-- A crossing of θe in LIFT: an UNWEIGHED pass, one that has crossed θs before, one with θe below θs, and one angle that
crosses both; and the remainder of a noted pass that is in the open record. -/
theorem test_meets_CrossingWeighsThePass_lift :
    let at_ (x : PassCtx) (a : Int) := Chip.inCycle .lift x a weigher
    let spent : PassCtx := { lifted with stage := .unweighed, grade := some .reject }
    let reversed := Chip.under { cfg with thetaE := 800 } (at_ lifted 799)
    let d (theta : Nat) (c : Chip) := after (.boomAngle 5 0 (angle theta)) c
    let remainder := Chip.withRecord record { closing with
      trk := { closing.trk with ctx := some { lifted with kind := .remainder }, note := some ⟨true, pass, false⟩ } }
    (at_ spent 2499).Hears 5 0 (angle 2500) ∧ (d 2500 (at_ spent 2499)).trk.cycle = .carry
      ∧ (at_ lifted 1000).cfg.thetaS ≤ 1000 ∧ (d 2500 (at_ lifted 1000)).trk.cycle = .carry
      ∧ reversed.cfg.thetaE < reversed.cfg.thetaS ∧ (d 1000 reversed).trk.cycle = .carry
      ∧ (d 1000 reversed).eng = reversed.eng ∧ (999 : Int) < (at_ lifted 999).cfg.thetaS
      ∧ (d 2500 (at_ lifted 999)).trk.cycle = .carry ∧ 1 ≤ cfg.minBins
      ∧ (d 2500 (at_ lifted 999)).eng.last = some ⟨.reject, 0, none, none, false, false, 0⟩
      ∧ remainder.Hears 5 0 (angle 2500)
      ∧ (d 2500 remainder).load.record.map (fun r => r.passes.map PassRec.payload) = some [some 0] := by
  dsimp only
  repeat' apply And.intro
  all_goals decide +kernel

/-- One angle that crosses both thresholds in RETURN with the racked note set, the tilt not heard and at the dump angle. -/
theorem test_meets_CrossingWeighsThePass_return :
    let ret := Chip.between .ret true 999 weigher
    let d (c : Chip) := after (.boomAngle 5 0 (angle 2500)) c
    let dumped := Chip.tiltAt (-3000) ret
    ret.Hears 5 0 (angle 2500) ∧ ret.trk.prevAngle = some 999 ∧ (999 : Int) < ret.cfg.thetaS
      ∧ ret.cfg.thetaS ≤ ret.cfg.thetaE ∧ 1 ≤ ret.cfg.minBins ∧ (d ret).trk.cycle = .carry
      ∧ (d ret).trk.ctx.map (fun x => (x.kind, x.stage)) = some (.remainder, .unweighed)
      ∧ (d ret).eng.last = some ⟨.reject, 0, none, none, false, false, 0⟩
      ∧ dumped.Hears 5 0 (angle 2500) ∧ (d dumped).trk.cycle = .dump := by
  dsimp only
  repeat' apply And.intro
  all_goals decide +kernel

/-- An angle one count below θs in WEIGH, and one below the dig angle in CARRY and in RETURN. -/
theorem test_meets_FallingBelowAbandonsTheWindow :
    let c := Chip.weighing weigher
    let third := { c with trk := { c.trk with ctx := some { lifted with reweigh := 2 } } }
    let carry := Chip.under { cfg with digAngle := 500 } (Chip.inCycle .carry lifted 2600 weigher)
    let ret := Chip.under { cfg with digAngle := 500 } (Chip.between .ret false 2600 weigher)
    let d (c : Chip) := (after (.boomAngle 5 0 (angle 499)) c).trk
    c.Hears 5 0 (angle 999) ∧ c.trk.cycle = .weigh ∧ c.trk.ctx = some { lifted with idx := some 0 }
      ∧ clampInt (-4500) 6000 (int16 (angle 999) 1) < 1000 ∧ third.Hears 5 0 (angle 999)
      ∧ c.inp.tilt.freshness ≠ .fresh ∧ carry.Hears 5 0 (angle 499) ∧ carry.inp.pressure.freshness ≠ .fresh
      ∧ (d carry).cycle = .idle ∧ (d carry).voids.returned = 1 ∧ ret.Hears 5 0 (angle 499) ∧ (d ret).cycle = .idle
      ∧ (d ret).voids.returned = 0 := by
  dsimp only
  repeat' apply And.intro
  all_goals decide +kernel

/-- A dump at the dump angle of a WEIGHED and of an UNWEIGHED pass, with an own record, in STANDBY. -/
theorem test_meets_DumpCommitsThePass :
    let weighed := { lifted with stage := .weighed, payload := some 1338, fill := some 112, grade := some .good }
    let unweighed := { lifted with stage := .unweighed, grade := some .reject }
    let c := Chip.inCycle .carry weighed 2512 (Chip.withRecord record weigher)
    let e := Chip.inCycle .carry unweighed 2512 standby
    c.Hears 6 0 [0xF4, 0x48, 0] ∧ clampInt (-6000) 6000 (int16 [0xF4, 0x48, 0] 0) = c.cfg.dumpAngle
      ∧ c.trk.ctx = some weighed ∧ c.role.state = .active ∧ c.load.record = some record
      ∧ e.Hears 6 0 [0xF4, 0x48, 0] ∧ e.trk.ctx = some unweighed ∧ e.role.state = .standby := by
  dsimp only
  repeat' apply And.intro
  all_goals decide +kernel

def tiltOf (t : Nat) : List Byte := be16 t ++ [0]

/-- A dump in LIFT and in WEIGH, with no record open and with a mirrored one, and a third shadow pass. -/
theorem test_meets_DumpCommitsThePass_early :
    let lift := Chip.inCycle .lift lifted 1500 weigher
    let weigh := Chip.withRecord record (Chip.weighing weigher)
    let shadow := Chip.inCycle .carry { lifted with stage := .weighed, payload := some 1338, grade := some .good } 2512
      { standby with role := { standby.role with pairing := [⟨1300, 9000⟩, ⟨1310, 9500⟩] } }
    let d (c : Chip) := after (.bucketTilt 6 0 [0xF4, 0x48, 0]) c
    lift.Hears 6 0 [0xF4, 0x48, 0] ∧ lift.load.record = none
      ∧ (d lift).load.record.map (fun r => (r.id, r.count, r.unweighed)) = some (0, 1, 1) ∧ (d lift).trk.cycle = .dump
      ∧ weigh.Hears 6 0 [0xF4, 0x48, 0] ∧ (d weigh).eng.isOpen = false
      ∧ (d weigh).load.record.map (fun r => (r.count, r.unweighed)) = some (2, 1)
      ∧ shadow.Hears 6 0 [0xF4, 0x48, 0] ∧ (d shadow).role.pairing = [⟨1310, 9500⟩, ⟨1338, shadow.tick⟩]
      ∧ (d shadow).role.unpaired = 1 ∧ (d shadow).load.record = shadow.load.record := by
  dsimp only
  repeat' apply And.intro
  all_goals decide +kernel

/-- A tilt at the rack-back angle and below it in FILL; at 2.00 deg above the dump angle and below it in DUMP, with the boom
up, down and not heard; and the racked note in RETURN. -/
theorem test_meets_DumpCommitsThePass_return :
    let fill := Chip.inCycle .fill lifted 500 weigher
    let up (s : Cycle) := Chip.between s false 1500 (Chip.boomAt 1500 0 weigher)
    let down := Chip.between .dump false (-1) (Chip.boomAt (-1) 0 weigher)
    let d (t : Nat) (c : Chip) := (after (.bucketTilt 6 0 (tiltOf t)) c).trk
    fill.Hears 6 0 (tiltOf 3500) ∧ (d 3500 fill).cycle = .lift ∧ (d 3499 fill).cycle = .fill
      ∧ (up .dump).Hears 6 0 (tiltOf 62736) ∧ (d 62735 (up .dump)).cycle = .dump ∧ (d 62736 (up .dump)).cycle = .ret
      ∧ (d 62736 (up .dump)).racked = false ∧ (d 3500 (up .dump)).racked = true
      ∧ (d 3500 (Chip.between .dump false 0 weigher)).racked = false
      ∧ down.Hears 6 0 (tiltOf 62736) ∧ down.inp.pressure.freshness ≠ .fresh ∧ (d 62736 down).cycle = .idle
      ∧ (d 3500 (up .ret)).racked = true ∧ (d 3499 (Chip.between .ret true 1500 weigher)).racked = true
      ∧ (d 62536 (Chip.between .ret true 1500 weigher)).racked = false := by
  dsimp only
  repeat' apply And.intro
  all_goals decide +kernel

/-- A running part whose channels were heard long ago. -/
def silent : Chip :=
  let r (ms : Nat) : ChanRec := ⟨.fresh, none, none, Over.clear, none, 0, some (weigher.tick - BitVec.ofNat 32 ms), .stopped⟩
  { weigher with inp := { weigher.inp with
      pressure := r 61, primary := r 61, secondary := r 61, tilt := r 201, drive := r 501, incline := r 501, tag := r 2001
      rateTimer := some (weigher.tick - 100) } }

/-- Each channel at its stale limit and one millisecond more; a loss timer of 2000 ms; the rate timer of 100 ms. -/
theorem test_meets_InputTimersExpire :
    silent.running ∧ (∀ i, (silent.inp.chan i).freshness = .fresh)
      ∧ (∀ i, ranOut (staleLimit i + 1) (silent.inp.chan i).staleTimer silent.tick)
      ∧ ranOut 100 silent.inp.rateTimer silent.tick
      ∧ (weigher.inp.chan .tag).loss = .running 0 ∧ 2000 ≤ age weigher.tick 0 :=
  ⟨by unfold Chip.running; decide +kernel, fun i => by cases i <;> rfl,
    fun i => by cases i <;> exact ⟨_, rfl, by decide +kernel⟩, ⟨_, rfl, by decide +kernel⟩, rfl, by decide +kernel⟩

/-- The primary angle goes STALE beside a FRESH secondary and a silent one, the secondary beside it; the tag channel with a
record of a truck, an empty one and a stockpile record, and in a part that owns none; and the drive channel by night. -/
theorem test_meets_InputTimersExpire_derived :
    let inp := { silent.inp with
      sel := some .primary, omega := some 900, rateMem := some ⟨.primary, 1437, 9000⟩, disagree := true }
    let c : Chip := { silent with inp := inp }
    let alone : Chip := { c with inp := { inp with secondary := { inp.secondary with freshness := .stale } } }
    let refused (r : TruckRec) (c : Chip) : Chip :=
      let c := Chip.withRecord r c
      { c with load := { c.load with refused := some 9 } }
    let night : Chip := { c with panel := { c.panel with shadow := 16 } }
    let d (i : ChanId) (c : Chip) := after (.staleExpiry i) c
    (d .primary c).inp.sel = some .secondary ∧ (d .primary c).inp.omega = none ∧ (d .primary c).inp.disagree = false
      ∧ (d .primary alone).inp.sel = some .primary ∧ (d .primary alone).inp.omega = some 900
      ∧ (d .secondary c).inp.sel = some .primary ∧ (d .secondary c).inp.rateMem.isSome = true
      ∧ silent.cfg.srcTag ≠ 0 ∧ silent.role.state = .active
      ∧ (d .tag (refused record c)).load.record = none ∧ (d .tag (refused record c)).load.refused = none
      ∧ (d .tag (refused record c)).load.history.map Summary.reason = [.departed]
      ∧ (d .tag (refused { record with count := 0, passes := [] } c)).load.history = []
      ∧ (d .tag (refused { record with id := 0 } c)).load.record.isSome = true
      ∧ (d .tag (refused record { c with role := standby.role })).load.refused = some 9
      ∧ (d .drive night).panel.shadow = night.panel.settings.day ∧ (d .tilt night).panel.shadow = 16 := by
  dsimp only
  repeat' apply And.intro
  all_goals decide +kernel

theorem test_meets_PassTimersEndThePass :
    let fill : Chip := { weigher with trk := { weigher.trk with cycle := .fill, fillTimer := some (weigher.tick - 2000) } }
    let carry : Chip := { weigher with trk := { weigher.trk with cycle := .carry, carryTimer := some (weigher.tick - 120000) } }
    let loss : Chip :=
      { Chip.weighing weigher with trk := { (Chip.weighing weigher).trk with lossPressure := some 9500, lossAngle := some 9500 } }
    fill.sup.life = .up ∧ fill.inp.pressure.freshness ≠ .fresh ∧ ranOut 2000 fill.trk.fillTimer fill.tick
      ∧ carry.trk.cycle = .carry ∧ ranOut 120000 carry.trk.carryTimer carry.tick
      ∧ loss.trk.cycle = .weigh ∧ ranOut 500 loss.trk.lossPressure loss.tick ∧ ranOut 500 loss.trk.lossAngle loss.tick := by
  dsimp only
  repeat' apply And.intro
  all_goals first | decide +kernel | exact ⟨_, rfl, by decide +kernel⟩

theorem test_meets_SlotAndPollTimersWrite :
    let poll (n : Nat) : Chip :=
      { repeater with
        load := { repeater.load with pollTimer := some 8000 }
        link := { repeater.link with queue := List.replicate n ⟨.counterRequest, 3, []⟩ } }
    weigher.running ∧ weigher.role.state = .active ∧ ranOut 1000 weigher.load.refreshTimer weigher.tick
      ∧ ranOut 250 weigher.role.status weigher.tick ∧ (poll 7).running ∧ (poll 7).role.state ≠ .mute
      ∧ ranOut 2000 (poll 7).load.pollTimer (poll 7).tick ∧ (poll 7).role.named = some 3
      ∧ (poll 7).link.queue.length = 7 ∧ (poll 8).link.queue.length = 8 := by
  dsimp only
  repeat' apply And.intro
  all_goals first | decide +kernel | exact ⟨_, rfl, by decide +kernel⟩

theorem test_meets_CounterRequestIsAnswered :
    let held := { repeater with load := { repeater.load with mirrorCounts := some ⟨7, 6, 1, 2, true⟩ } }
    let five := { weigher with link := { weigher.link with queue := List.replicate 5 ⟨.counterRequest, 3, []⟩ } }
    five.Hears 20 0 [] ∧ five.link.queue.length = 5 ∧ five.role.state = .active
      ∧ repeater.Hears 20 4 [] ∧ repeater.load.mirrorCounts = none ∧ repeater.load.mirrorTonnage = none
      ∧ repeater.load.mirrorLife = none ∧ held.Hears 31 4 [] ∧ held.role.state = .repeating
      ∧ ({ weigher with role := { weigher.role with state := .mute } } : Chip).Hears 1 0 [] := by
  dsimp only
  repeat' apply And.intro
  all_goals decide +kernel

theorem test_meets_CounterReportIsMirrored :
    let one : List Byte := [1, 4, 0, 7, 0, 6, 0, 1, 0, 2]
    let two : List Byte := [2, 0, 0, 0, 0, 7, 0, 0, 0, 8]
    let three : List Byte := [3, 0, 0, 0, 0, 9]
    repeater.Hears 3 4 one ∧ layoutOf (.counterReport 3 4 one) = one.length ∧ repeater.cfg.role = .repeater
      ∧ repeater.role.named = some (3 : Byte).toNat ∧ (byteAt one 1).getLsbD 0 = false ∧ (byteAt one 1).getLsbD 1 = false
      ∧ repeater.Hears 3 4 two ∧ layoutOf (.counterReport 3 4 two) = two.length
      ∧ repeater.Hears 3 4 three ∧ layoutOf (.counterReport 3 4 three) = three.length
      ∧ repeater.Hears 3 4 (4 :: two.drop 1) ∧ layoutOf (.counterReport 3 4 (4 :: two.drop 1)) ≤ two.length
      ∧ (after (.counterReport 3 4 (4 :: two.drop 1)) repeater).load = repeater.load
      ∧ weigher.Hears 3 4 one ∧ weigher.cfg.role = .weigher := by
  dsimp only
  repeat' apply And.intro
  all_goals decide +kernel

/-- A TRUCK STATUS with OPEN set and one with OPEN clear, in STANDBY and in REPEAT, and one that ACTIVE ignores. -/
theorem test_meets_TruckStatusIsMirrored :
    let set : List Byte := be16 412 ++ be16 4500 ++ be24 1300 ++ [1, 0, 1, 7]
    let clear : List Byte := List.replicate 10 0 ++ [8]
    standby.Hears 3 0 set ∧ set.length = 11 ∧ (byteAt set 9).getLsbD 0 = true ∧ standby.role.state = .standby
      ∧ standby.role.named = some (3 : Byte).toNat ∧ repeater.Hears 3 0 clear ∧ clear.length = 11
      ∧ (byteAt clear 9).getLsbD 0 = false ∧ repeater.role.state = .repeating
      ∧ weigher.Hears 3 0 set ∧ weigher.role.state = .active := by
  dsimp only
  repeat' apply And.intro
  all_goals decide +kernel

def passData (payload flags : Nat) : List Byte := be16 412 ++ [2, 0] ++ be16 payload ++ [0xD0, 0, 200, 108, BitVec.ofNat 8 flags]

/-- The highest payload and an absent one, with a shadow pass pending and with none, and an amended record; the lowest and
the highest payload of the reserved range, and a payload with grade REJECT, are discarded. -/
theorem test_meets_PassRecordIsMirrored :
    let pending := { standby with role := { standby.role with pairing := [⟨1300, 9000⟩] } }
    pending.Hears 3 0 (passData 9999 0) ∧ (passData 9999 0).length = 11 ∧ nat16 (passData 9999 0) 4 < 10000
      ∧ nat8 (passData 9999 0) 3 % 4 ≠ 3 ∧ pending.role.pairing = [⟨1300, 9000⟩]
      ∧ (byteAt (passData 9999 0) 10).getLsbD 2 = false ∧ standby.Hears 3 0 (passData 65535 0)
      ∧ nat16 (passData 65535 0) 4 = 65535 ∧ standby.role.pairing = [] ∧ repeater.Hears 3 0 (passData 0 4)
      ∧ (byteAt (passData 0 4) 10).getLsbD 2 = true
      ∧ standby.Hears 3 0 (passData 10000 0) ∧ (after (.passRecord 3 0 (passData 10000 0)) standby).load = standby.load
      ∧ (after (.passRecord 3 0 (passData 65534 0)) standby).load = standby.load
      ∧ (after (.passRecord 3 0 ((passData 9999 0).set 3 3)) standby).load = standby.load := by
  dsimp only
  repeat' apply And.intro
  all_goals decide +kernel

theorem test_meets_TruckClosedJoinsTheHistory :
    let closed (reason : Nat) : List Byte := be16 412 ++ be16 4500 ++ be24 1300 ++ [1, 0, BitVec.ofNat 8 reason]
    standby.Hears 3 0 (closed 1) ∧ (closed 1).length = 10 ∧ nat8 (closed 1) 9 % 8 = 1 ∧ nat8 (closed 2) 9 % 8 = 2
      ∧ repeater.Hears 3 0 (closed 3) ∧ nat8 (closed 3) 9 % 8 = 3
      ∧ standby.Hears 3 0 (closed 0) ∧ (after (.truckClosed 3 0 (closed 0)) standby).load = standby.load
      ∧ (after (.truckClosed 3 0 (closed 4)) standby).load = standby.load
      ∧ standby.Hears 9 0 (closed 1) ∧ (after (.truckClosed 9 0 (closed 1)) standby).load = standby.load := by
  dsimp only
  repeat' apply And.intro
  all_goals decide +kernel

def statusOf (st : RoleState) : List Byte := [BitVec.ofNat 8 st.code, 0, 0, 0, 1, 7]

/-- A lower station, the named one and a higher one in ACTIVE; the named one in STANDBY; a full peer table. -/
theorem test_meets_WeigherStatusIsHeard :
    let full := { standby with role := { standby.role with
      peers := (List.range 8).map fun n => ⟨n + 10, .standby, BitVec.ofNat 32 (9000 + n)⟩ } }
    standby.Hears 2 0 (statusOf .active) ∧ standby.Hears 3 0 (statusOf .active) ∧ standby.Hears 5 0 (statusOf .active)
      ∧ standby.Hears 3 0 (statusOf .standby) ∧ standby.role.state ≠ .active
      ∧ nat8 (statusOf .active) 0 = RoleState.active.code ∧ nat8 (statusOf .standby) 0 = RoleState.standby.code
      ∧ standby.role.peers = [] ∧ full.Hears 20 0 (statusOf .standby) ∧ full.role.peers.length = 8
      ∧ (∀ p ∈ full.role.peers, p.station ≠ 20) ∧ ∃ p ∈ full.role.peers, p.station = 10 := by
  dsimp only
  repeat' apply And.intro
  all_goals decide +kernel

/-- A role state outside the listed ones, from a station lower than the part's own, in STANDBY and in ACTIVE. -/
theorem test_meets_WeigherStatusIsHeard_reserved :
    let odd : List Byte := [7, 0, 0, 0, 1, 7]
    (∀ st : RoleState, nat8 odd 0 ≠ st.code) ∧ standby.Hears 2 0 odd ∧ weigher.Hears 2 0 odd
      ∧ (after (.weigherStatus 2 0 odd) standby).role = standby.role
      ∧ (after (.weigherStatus 2 0 odd) weigher).role = weigher.role := by
  refine ⟨fun st => by cases st <;> decide, ?_⟩
  repeat' apply And.intro
  all_goals decide +kernel

theorem test_meets_LowerActiveStationTakesOver :
    weigher.Hears 3 0 (statusOf .active) ∧ weigher.Hears 5 0 (statusOf .active) ∧ weigher.Hears 3 0 (statusOf .standby)
      ∧ weigher.role.state = .active ∧ (3 : Byte).toNat < weigher.link.station ∧ weigher.link.station < (5 : Byte).toNat
      ∧ nat8 (statusOf .active) 0 = RoleState.active.code ∧ nat8 (statusOf .standby) 0 = RoleState.standby.code := by
  repeat' apply And.intro
  all_goals decide +kernel

/-- With a peer heard ACTIVE 999 ms ago, with one heard 1000 ms ago, in STANDBY, REPEAT and LISTEN; CALIBRATING heard. -/
theorem test_meets_WatchExpiryLosesTheStation :
    let peers (t : Tick) : Chip := { standby with role := { standby.role with peers := [⟨6, .active, t⟩] } }
    let listen : Chip := { standby with role := { standby.role with state := .listen } }
    standby.running ∧ standby.role.state ≠ .active ∧ ranOut 1000 standby.role.watch standby.tick
      ∧ (∃ p ∈ (peers 9001).role.peers, p.state = .active ∧ age (peers 9001).tick p.at_ < 1000)
      ∧ (∀ p ∈ (peers 9000).role.peers, ¬(p.state = .active ∧ age (peers 9000).tick p.at_ < 1000))
      ∧ ranOut 1000 repeater.role.watch repeater.tick ∧ repeater.role.state = .repeating
      ∧ ranOut 1000 listen.role.watch listen.tick ∧ listen.role.state = .listen
      ∧ standby.Hears 3 0 (statusOf .calibrating) ∧ nat8 (statusOf .calibrating) 0 = RoleState.calibrating.code
      ∧ standby.role.named = some (3 : Byte).toNat :=
  ⟨⟨rfl, rfl⟩, by decide, ⟨_, rfl, by decide +kernel⟩, by decide +kernel, by decide +kernel, ⟨_, rfl, by decide +kernel⟩,
    rfl, ⟨_, rfl, by decide +kernel⟩, rfl, by unfold Chip.Hears; decide +kernel, by decide +kernel, by decide +kernel⟩

/-- CALIBRATING heard from the named station while another is heard ACTIVE, with a sequence that differs and one that does
not. -/
theorem test_meets_WatchExpiryLosesTheStation_named :
    let c : Chip := { standby with role := { standby.role with peers := [⟨3, .active, 9500⟩, ⟨6, .active, 9500⟩] } }
    let d (c : Chip) := (after (.weigherStatus 3 0 (statusOf .calibrating)) c).role
    c.Hears 3 0 (statusOf .calibrating) ∧ c.role.named = some 3 ∧ (∃ q ∈ c.role.peers, q.station = 3)
      ∧ (d c).named = some 6 ∧ (d c).behind = true ∧ (d repeater).behind = true
      ∧ (d { c with load := { c.load with seq := 7 } }).behind = false := by
  dsimp only
  repeat' apply And.intro
  all_goals decide +kernel

theorem test_meets_ListenExpirySettlesTheRole :
    let listen (n : Option Nat) : Chip :=
      { weigher with role := { weigher.role with state := .listen, listen := some 9000, named := n } }
    (listen none).running ∧ (listen none).role.state = .listen ∧ ranOut 1000 (listen none).role.listen (listen none).tick
      ∧ (listen none).role.named = none ∧ (listen (some 3)).role.named = some 3
      ∧ ranOut 1000 (listen (some 3)).role.listen (listen (some 3)).tick :=
  ⟨⟨rfl, rfl⟩, rfl, ⟨_, rfl, by decide +kernel⟩, rfl, rfl, ⟨_, rfl, by decide +kernel⟩⟩

/-- The held tag at an entry to ACTIVE and to MUTE: another truck beside a mirrored record, the same truck with another
target, no truck, a refused one, and a channel that is not FRESH. -/
theorem test_meets_tookRecord :
    let heard (f : Freshness) (t : TagVal) (c : Chip) : Chip :=
      let c := Chip.withRecord record c
      { c with inp := { c.inp with tag := { c.inp.tag with freshness := f }, held := { c.inp.held with tag := some t } } }
    let d (f : Freshness) (t : TagVal) := after .watchTimerExpiry (heard f t standby)
    let muted := after (.counterRequest 4 0 []) (heard .fresh ⟨true, 7, none⟩ weigher)
    (d .fresh ⟨true, 7, none⟩).role.state = .active ∧ (d .fresh ⟨true, 7, none⟩).load.record.map TruckRec.id = some 7
      ∧ (d .fresh ⟨true, 7, none⟩).load.seq = standby.load.seq + 2
      ∧ (d .fresh ⟨true, 7, none⟩).load.history.map Summary.reason = [.newTruck]
      ∧ (d .fresh ⟨true, 412, none⟩).load.record.map TruckRec.target = some none
      ∧ (d .fresh ⟨true, 412, none⟩).load.seq = standby.load.seq + 1
      ∧ (d .fresh ⟨false, 0, none⟩).load.record = none ∧ (d .stale ⟨false, 0, none⟩).load.record = some record
      ∧ muted.role.state = .mute ∧ muted.load.record.map TruckRec.id = some 7 := by
  dsimp only
  repeat' apply And.intro
  all_goals decide +kernel

theorem test_meets_PairsAndPeersExpire :
    let c : Chip := { standby with role := { standby.role with
      pairing := [⟨1300, 8000⟩], peers := [⟨6, .active, 8000⟩, ⟨7, .active, 8001⟩] } }
    c.sup.life = .up ∧ c.role.pairing = ⟨1300, 8000⟩ :: [] ∧ 2000 ≤ age c.tick 8000 ∧ c.sup.power = .run
      ∧ age c.tick 8001 < 2000 := by
  dsimp only
  repeat' apply And.intro
  all_goals decide +kernel

theorem test_meets_StationConflictMutes :
    let i : Instr := .counterRequest 4 0 []
    let mute : Chip := { weigher with role := { weigher.role with state := .mute } }
    telegramOf i = some (4, 0, []) ∧ i.wf = true ∧ weigher.receives ∧ weigher.sup.power = .run ∧ weigher.link.station ≠ 0
      ∧ (4 : Byte).toNat = weigher.link.station ∧ weigher.role.state ≠ .mute ∧ mute.receives ∧ mute.role.state = .mute := by
  dsimp only
  repeat' apply And.intro
  all_goals decide +kernel

/-- Another's address, a source of 0 and of 32, an unknown kind, a sensor kind from no source, a broadcast service
telegram, a DIAG REPORT; and one byte short of a layout. -/
theorem test_meets_UnwantedTelegramsMoveNothing :
    let rx (r : Rx) : Chip := { weigher with link := { weigher.link with rx := r } }
    (rx .skip).sup.life = .up ∧ (rx .skip).link.rx = .skip ∧ (rx .skip).link.access ≠ .send ∧ (rx .skip).link.access ≠ .delay
      ∧ (rx .off).link.rx = .off
      ∧ weigher.receives ∧ (Instr.truckStatus 9 5 []).wf = true ∧ (5 : Byte) ≠ 0 ∧ (5 : Byte).toNat ≠ weigher.link.station
      ∧ (0 : Byte).toNat ≠ weigher.link.station ∧ 31 < (32 : Byte).toNat
      ∧ (Instr.unknownKindTelegram 0x3F 9 0 []).wf = true ∧ ¬weigher.passesKind (.unknownKindTelegram 0x3F 9 0 [])
      ∧ Kind.ofCode 0x3F = none ∧ ¬weigher.passesKind (.liftPressure 3 0 []) ∧ ¬weigher.passesKind (.configCommit 9 0 [])
      ∧ weigher.Hears 2 0 (List.replicate 5 0) ∧ weigher.passesKind (.liftPressure 2 0 (List.replicate 5 0))
      ∧ (List.replicate 5 (0 : Byte)).length < layoutOf (.liftPressure 2 0 (List.replicate 5 0)) := by
  repeat' apply And.intro
  all_goals first | decide +kernel | (unfold Chip.passesKind; decide +kernel)

theorem test_meets_DozeAnswersCounterRequests :
    let low (p : Power) : Chip := { weigher with sup := { weigher.sup with power := p } }
    (low .peek).receives ∧ (low .doze).receives ∧ (low .doze).sup.power = .doze ∧ (4 : Byte).toNat = (low .doze).link.station
      ∧ (low .doze).role.state = .active ∧ (low .doze).link.queue.length ≤ 5 ∧ (Instr.counterRequest 31 4 []).wf = true
      ∧ (Instr.counterRequest 31 0 []).wf = true := by
  dsimp only
  repeat' apply And.intro
  all_goals decide +kernel

/-- Runs that fail FORM, LENGTH and CHECK, in IDLE, SKIP and with the receiver off; a settle gap in each receiver state, with
a run taken over that fails and with a whole COUNTER REQUEST. -/
theorem test_meets_FailedRunsAreCounted :
    let run (b : List Byte) : List RxChar := b.map fun b => ⟨b, true⟩
    let rx (r : Rx) : Chip := { weigher with link := { weigher.link with rx := r } }
    let whole := run (frameChars ⟨0x24, 9, 0, []⟩)
    let d (i : Instr) (r : Rx) := (after i (rx r)).link
    weigher.sup.life = .up ∧ weigher.link.access ≠ .send ∧ receiveTests [⟨0xC3, false⟩] = .failed .form
      ∧ receiveTests (run [0x24]) = .failed .form ∧ receiveTests (run [0xC3, 0x24, 9, 0]) = .failed .length
      ∧ receiveTests (run [0xC3, 0x24, 9, 0, 0, 0, 0]) = .failed .check
      ∧ (d (.receiveFailure (run [0x24])) .idle).form = 1 ∧ (d (.receiveFailure (run [0x24])) .idle).rx = .skip
      ∧ (d (.receiveFailure (run [0xC3, 0x24, 9, 0])) .idle).length = 1
      ∧ (d (.receiveFailure (run [0x24])) .skip).form = 0 ∧ (d (.receiveFailure (run [0x24])) .off).form = 0
      ∧ (d .settleGapComplete .skip).rx = .idle ∧ (d .settleGapComplete .off).rx = .off
      ∧ (d .settleGapComplete (.frame (run [0xC3, 0x24, 9, 0]))).length = 1
      ∧ receiveTests whole = .whole ⟨0x24, 9, 0, []⟩ ∧ telegramOf (.counterRequest 9 0 []) = some (9, 0, [])
      ∧ codeOf (.counterRequest 9 0 []) = 0x24 ∧ (d .settleGapComplete (.frame whole)).queue.length = 3 := by
  dsimp only
  repeat' apply And.intro
  all_goals decide +kernel

/-- A counter report in hand at the head of the queue, in an access state, after some attempts and discards. -/
def sending (a : Access) (attempts discards : Nat) : Chip :=
  { weigher with link := { weigher.link with
      access := a, queue := [⟨.counterReport, 20, []⟩], inHand := some ⟨.queueHead, attempts, false⟩, discards := discards
      driven := frameChars ⟨0x25, 4, 20, []⟩, quietTimer := some 9000 } }

/-- A receiver in SKIP while a delay is counted takes the telegram that begins, and counts a run that fails. -/
theorem test_meets_delay_in_skip :
    let c : Chip := { sending .delay 0 0 with link := { (sending .delay 0 0).link with rx := .skip } }
    c.Hears 20 0 [] ∧ c.receives ∧ (after (.counterRequest 20 0 []) c).link.queue.length = 4
      ∧ (after (.counterRequest 20 0 []) (sending .gap 0 0)).link.queue.length = 4
      ∧ (after (.receiveFailure [⟨0x24, true⟩]) c).link.form = 1 ∧ (after .dominantDuringDelay c).link.rx = .frame [] := by
  dsimp only
  repeat' apply And.intro
  all_goals decide +kernel

theorem test_meets_TransmissionPhases :
    (sending .delay 0 0).sup.life = .up ∧ (sending .delay 0 0).link.access = .delay ∧ (sending .delay 0 0).maySend = true
      ∧ (sending .delay 0 0).link.handTelegram = some ⟨.counterReport, 20, []⟩ ∧ (sending .send 0 0).link.access = .send := by
  repeat' apply And.intro
  all_goals decide +kernel

/-- Bits 49 and 50 (the last of the length character, the first of the check), the first and the third attempt, the
fifteenth and the sixteenth discard; QUIET run out. -/
theorem test_meets_FailedAttemptsAreRetried :
    (sending .send 0 0).link.access = .send ∧ 50 / 10 < (sending .send 0 0).link.driven.length ∧ 49 / 10 < 5 ∧ 5 ≤ 50 / 10
      ∧ (sending .send 1 0).link.inHand = some ⟨.queueHead, 1, false⟩
      ∧ (sending .send 2 14).link.inHand = some ⟨.queueHead, 2, false⟩ ∧ (sending .send 2 14).link.discards + 1 < 16
      ∧ 16 ≤ (sending .send 2 15).link.discards + 1 ∧ (sending .quiet 0 16).link.access = .quiet
      ∧ ranOut 1000 (sending .quiet 0 16).link.quietTimer (sending .quiet 0 16).tick :=
  ⟨rfl, by decide +kernel, by decide, by decide, rfl, rfl, by decide, by decide, rfl, ⟨_, rfl, by decide +kernel⟩⟩

/-- A collision in the second character: its start bit, its first and its last data bit, its stop bit; and in the sixth. -/
theorem test_meets_FailedAttemptsAreRetried_collision :
    let d (bit : Nat) := (after (.readbackMismatch bit) (sending .send 0 0)).link
    (sending .send 0 0).link.rx ≠ .off ∧ (sending .send 0 0).link.driven.getD 1 0 = 0x25
      ∧ (d 10).rx = .frame [⟨0xC3, true⟩] ∧ (d 11).rx = .frame [⟨0xC3, true⟩, ⟨0xFE, true⟩]
      ∧ (d 18).rx = .frame [⟨0xC3, true⟩, ⟨0xA5, true⟩] ∧ (d 19).rx = .skip ∧ (d 19).form = 1
      ∧ (d 50).rx = .skip ∧ (d 50).form = 0 := by
  dsimp only
  repeat' apply And.intro
  all_goals decide +kernel

/-- A TRUCK STATUS copied from its slot, in an access state, to be abandoned or not, its slot since written or not. -/
def copied (a : Access) (abandon : Bool) (since : Option OutTg) : Chip :=
  { weigher with link := { weigher.link with
      access := a, inHand := some ⟨.tslot (sendTruck none 6), 1, abandon⟩, tslot := since, discards := 15
      driven := frameChars ⟨0x21, 4, 0, []⟩ } }

/-- An abandoned copy that fails leaves without a count; a slot that is emptied reaches its copy; a slot that has been written
since gives the newer value, its place taken by a queue entry or a WEIGHER STATUS. -/
theorem test_meets_FailedAttemptsAreRetried_copy :
    let new := sendTruck none 7
    let gap (since : Option OutTg) (queue : List OutTg) (w : Option OutTg) : Link :=
      let c := copied .gap false since
      (after .settleGapComplete { c with link := { c.link with queue := queue, wslot := w } }).link
    let request : OutTg := ⟨.counterRequest, 3, []⟩
    let failed := (after (.readbackMismatch 12) (copied .send true none)).link
    failed.inHand = none ∧ failed.txFail = 0 ∧ failed.discards = 15 ∧ failed.access = .gap
      ∧ (copied .send false none).link.emptyT.inHand = some ⟨.tslot (sendTruck none 6), 1, true⟩
      ∧ (copied .gap false none).link.emptyT.inHand = none ∧ (copied .gap false none).maySend = true
      ∧ (copied .gap false none).link.rx = .idle
      ∧ (gap none [request] none).inHand = some ⟨.tslot (sendTruck none 6), 1, false⟩
      ∧ (gap (some new) [request] none).inHand = some ⟨.queueHead, 0, false⟩
      ∧ (gap (some new) [] none).inHand = some ⟨.tslot new, 0, false⟩ ∧ (gap (some new) [] none).delay = 68
      ∧ (gap (some new) [] (some ⟨.weigherStatus, 0, []⟩)).tslot = some new := by
  dsimp only
  repeat' apply And.intro
  all_goals decide +kernel

theorem test_meets_DiagRequestIsAnswered :
    let four := { weigher with link := { weigher.link with queue := List.replicate 4 ⟨.counterReport, 20, []⟩ } }
    let mute : Chip := { weigher with role := { weigher.role with state := .mute } }
    four.Hears 20 0 [1] ∧ four.link.queue.length = 4 ∧ (byteAt [1] 0).getLsbD 0 = true ∧ mute.Hears 20 4 [0]
      ∧ (byteAt [0] 0).getLsbD 0 = false := by
  dsimp only
  repeat' apply And.intro
  all_goals decide +kernel

/-- An alarm record of the part, and its mask timer run out. -/
def alarmed (r : AlarmRec) : Chip := { weigher with alarm := { weigher.alarm with passOver := r } }

theorem test_meets_AlarmRecordsFollowTheirTables :
    weigher.running ∧ (weigher.alarm.get .passOver).cond = false ∧ (weigher.alarm.get .passOver).mask = false
      ∧ weigher.alarm.demand = false ∧ ((alarmed ⟨true, true, true, .held, false, none⟩).alarm.get .passOver).cond = true
      ∧ ((alarmed ⟨true, true, false, .held, true, some 9000⟩).alarm.get .passOver).latch = true
      ∧ ranOut 1000 ((alarmed ⟨true, true, false, .held, true, some 9000⟩).alarm.get .passOver).maskTimer weigher.tick :=
  ⟨⟨rfl, rfl⟩, rfl, by decide +kernel, by decide +kernel, rfl, rfl, ⟨_, rfl, by decide +kernel⟩⟩

/-- A calibration in a state. -/
def calibrating (u : CalUnit) : Chip :=
  { weigher with
    role := { weigher.role with state := .calibrating }
    trk := { weigher.trk with cycle := .suspended, suspCal := true }
    panel := { weigher.panel with page := .cal }
    cal := u }

def lift (x : Int) : Vector Int 16 := Vector.replicate 16 x

/-- Two kept lifts of each phase, and the curves they make. -/
def lifts (s : CalState) : CalUnit :=
  { CalUnit.start with
    state := s, geom := some cfg.geom, accepted := 3, keptEmpty := [lift 20000, lift 20100]
    keptLoaded := [lift 40000, lift 40100], curves := some (lift 20050, lift 40050) }

theorem test_meets_CalibrationFollowsItsKeys :
    let c (k : Key) (u : CalUnit) := Chip.pressing k (calibrating u)
    let d (k : Key) (u : CalUnit) := (after (.keyDebounceExpiry k) (c k u)).cal.state
    (c .enter (lifts .select)).running ∧ (c .enter (lifts .select)).panel.decoder = .ready
      ∧ (c .enter (lifts .select)).pins.keys.get .enter = true
      ∧ ranOut 20 ((c .enter (lifts .select)).panel.keys.get .enter).timer (c .enter (lifts .select)).tick
      ∧ (∀ a, ((c .enter (lifts .select)).alarm.get a).latch = false) ∧ (lifts .select).state ≠ .out
      ∧ d .enter { lifts .select with onMass := true } = .empty ∧ d .enter (lifts .empty) = .loaded
      ∧ d .enter { lifts .empty with keptEmpty := [] } = .empty ∧ d .enter (lifts .loaded) = .review
      ∧ d .enter { lifts .loaded with keptLoaded := [lift 20000, lift 20100] } = .failed
      ∧ d .enter (lifts .review) = .writing ∧ d .mode (lifts .writing) = .writing ∧ d .mode (lifts .failed) = .out := by
  refine ⟨⟨rfl, rfl⟩, rfl, rfl, ⟨_, rfl, by decide +kernel⟩, fun a => by cases a <;> rfl, ?_⟩
  dsimp only
  repeat' apply And.intro
  all_goals decide +kernel

/-- UP and DOWN on the SET field at its limits, on the MASS field at its upper one, in CAL-REVIEW at both ends, and in a
phase; the refused count shown passes on to CAL-LOADED. -/
theorem test_meets_CalibrationFollowsItsKeys_steps :
    let d (k : Key) (u : CalUnit) := after (.keyDebounceExpiry k) (Chip.pressing k (calibrating u))
    let set (n : Fin 4) : CalUnit := { lifts .select with target := n }
    let mass (n : Nat) : CalUnit := { lifts .select with onMass := true, mass := n }
    let browse (n : Nat) : CalUnit := { lifts .review with browse := n }
    (d .up (set 2)).cal.target = 3 ∧ (d .up (set 3)).cal.target = 3 ∧ (d .down (set 0)).cal.target = 0
      ∧ (d .up (set 2)).panel.blinkTimer = some weigher.tick
      ∧ (d .up (set 3)).panel.blinkTimer = weigher.panel.blinkTimer
      ∧ (d .up (mass 4999)).cal.mass = 5000 ∧ (d .up (mass 5000)).cal.mass = 5000 ∧ (d .down (mass 100)).cal.mass = 100
      ∧ (d .down (mass 5000)).panel.decoder = .held ⟨.down, weigher.tick, false, false, some .calMass, none⟩
      ∧ (d .up (browse 15)).cal.browse = 15 ∧ (d .down (browse 0)).cal.browse = 0 ∧ (d .up (browse 14)).cal.browse = 15
      ∧ (d .up (lifts .empty)).cal = lifts .empty
      ∧ (d .enter { lifts .empty with lastRefused := some 7 }).cal.lastRefused = some 7 := by
  dsimp only
  repeat' apply And.intro
  all_goals decide +kernel

/-- A lift in progress, with two samples at each point. -/
def lifting (accepted : Nat) : CalUnit :=
  { lifts .loaded with
    liftOpen := true, accepted := accepted, prevAngle := some 999, points := Vector.replicate 16 ⟨80000, 2⟩ }

/-- Each failure of the review, at the lowest of the points where its test fails: a spread of one more than the limit in the
kept lifts of each phase, a span of 99 at one point, and a set that the protect index keeps. -/
theorem test_meets_CalibrationFollowsItsKeys_failures :
    let u := lifts .loaded
    let failure (p : Nat) (u : CalUnit) :=
      let c := Chip.under { cfg with protect := p } (Chip.pressing .enter (calibrating u))
      (after (.keyDebounceExpiry .enter) c).cal.failure
    let far (x : Int) : List (Vector Int 16) := [lift x, ((lift (x + 3000)).set 5 (x + 3001)).set 9 (x + 4000)]
    failure 4 { u with keptEmpty := far 20000 } = some (.inconsistent false 5)
      ∧ failure 4 { u with keptEmpty := far 20000, keptLoaded := far 40000 } = some (.inconsistent false 5)
      ∧ failure 4 { u with keptLoaded := far 40000 } = some (.inconsistent true 5)
      ∧ failure 4 { u with keptLoaded := [(lift 20150).set 15 20149, (lift 20150).set 15 20149] } = some (.span 15)
      ∧ failure 0 u = some .isProtected ∧ failure 1 u = none ∧ u.keptEmpty ≠ [] := by
  dsimp only
  repeat' apply And.intro
  all_goals decide +kernel

theorem test_meets_LiftsAreTakenAndJudged :
    let d (theta : Nat) (u : CalUnit) := (after (.boomAngle 5 0 (angle theta)) (calibrating u)).cal
    (calibrating (lifting 0)).Hears 5 0 (angle 2501) ∧ (lifting 0).geom = some cfg.geom ∧ cfg.geom.thetaS < cfg.geom.thetaE
      ∧ (d 1000 { lifting 0 with liftOpen := false }).liftOpen = true ∧ (d 2500 (lifting 0)).liftOpen = true
      ∧ (d 999 (lifting 0)).outcome = some .abandoned ∧ (d 2501 (lifting 0)).outcome = some .settling
      ∧ (d 2501 (lifting 1)).keptLoaded.length = 3
      ∧ (d 2501 { lifting 0 with liftOpen := false }).outcome = some .incomplete
      ∧ ((after (.liftPressure 2 0 (press 18500 1200)) (Chip.boomAt 2500 900 (calibrating (lifting 0)))).cal.points[15]).count
          = 3
      ∧ (after (.liftPressure 2 0 (press 18500 1200)) (Chip.boomAt 1000 0 (calibrating (lifting 0)))).cal.refused = 1 := by
  dsimp only
  repeat' apply And.intro
  all_goals decide +kernel

/-- Two summaries, the newest with sequence 9. -/
def ring : List Summary := [⟨8, 7, none, 900, 1, 0, .departed, false⟩, ⟨9, 412, some 4500, 4490, 3, 0, .newTruck, false⟩]

theorem test_meets_KeysAreDebounced :
    let hold : Chip := { weigher with sup := { weigher.sup with power := .hold } }
    let up : Chip := { Chip.pressing .mode weigher with pins := weigher.pins }
    weigher.pins.keys.get .up ≠ true ∧ weigher.sup.life = .up ∧ weigher.sup.power = .run ∧ hold.sup.power = .hold
      ∧ (Chip.pressing .mode weigher).running ∧ (Chip.pressing .mode weigher).pins.keys.get .mode = true
      ∧ (Chip.pressing .mode weigher).panel.decoder = .ready ∧ up.pins.keys.get .mode = false
      ∧ ranOut 20 ((Chip.pressing .mode weigher).panel.keys.get .mode).timer weigher.tick :=
  ⟨by decide, rfl, rfl, rfl, ⟨rfl, rfl⟩, rfl, rfl, rfl, ⟨_, rfl, by decide +kernel⟩⟩

/-- A press in DOZE with the status OK and LOW, one in PEEK on each page, and one that is not watched. -/
theorem test_meets_KeysAreDebounced_low :
    let wakes := Chip.under { cfg with keyWake := true } weigher
    let in_ (p : Power) (k : Key) := Chip.inPower p (Chip.pressing k wakes)
    let low : Chip := { in_ .doze .up with sup := { (in_ .doze .up).sup with status := .low } }
    let page (h : Bool) (k : Key) : Chip := { in_ .peek k with
      panel := { (in_ .peek k).panel with peekHistory := h, countItem := 7 }, load := { wakes.load with history := ring } }
    let d (k : Key) (c : Chip) := after (.keyDebounceExpiry k) c
    (in_ .doze .up).cfg.keyWake = true ∧ (in_ .doze .up).panel.decoder = .ready
      ∧ ranOut 20 ((in_ .doze .up).panel.keys.get .up).timer weigher.tick
      ∧ (d .up (in_ .doze .up)).sup.power = .peek ∧ (d .up low).sup.power = .doze
      ∧ (d .up (page false .up)).panel.countItem = 1 ∧ (d .down (page false .down)).panel.countItem = 6
      ∧ (d .mode (page false .mode)).panel.histSel = some 9 ∧ (d .mode (page true .mode)).panel.countItem = 1
      ∧ (d .up (page true .up)).panel.histSel = some 9 ∧ (d .enter (page true .enter)).panel.histSel = some 9
      ∧ (d .enter (page false .enter)).panel.countItem = 7 ∧ (d .up (in_ .hold .up)).sup.power = .hold := by
  dsimp only
  repeat' apply And.intro
  all_goals first | decide +kernel | exact ⟨_, rfl, by decide +kernel⟩

theorem test_meets_PressesAreRouted :
    let shown := Chip.pressing .enter (alarmed ⟨false, true, false, .edge, false, none⟩)
    let truck := Chip.pressing .enter { weigher with
      panel := { weigher.panel with page := .truck }, store := { weigher.store with cfg := { cfg with srcTag := 0 } } }
    shown.running ∧ shown.panel.decoder = .ready
      ∧ Alarm.all = [.lowSupply, .stationConflict, .inputFault, .calInvalid, .crossCheck, .overload]
          ++ Alarm.passOver :: [.noWeigher]
      ∧ (shown.alarm.get .passOver).latch = true ∧ (∀ a, a ≠ .passOver → (shown.alarm.get a).latch = false)
      ∧ ranOut 20 (shown.panel.keys.get .enter).timer shown.tick ∧ (Chip.pressing .mode weigher).cal.state = .out
      ∧ truck.cal.state = .out ∧ truck.panel.page = .truck ∧ truck.cfg.srcTag = 0 ∧ truck.role.state = .active
      ∧ (∀ a, (truck.alarm.get a).latch = false) :=
  ⟨⟨rfl, rfl⟩, rfl, by decide, rfl, fun a => by cases a <;> decide +kernel, ⟨_, rfl, by decide +kernel⟩, rfl, rfl, rfl, rfl,
    rfl, fun a => by cases a <;> rfl⟩

/-- UP, DOWN and ENTER on every page, with no alarm shown: the ends of the lists and ranges, and the step between. -/
theorem test_meets_PressesAreRouted_pages :
    let two : TruckRec := { record with passes := [pass, { pass with number := 2 }], count := 2 }
    let c (k : Key) (g : Page) : Chip :=
      Chip.onPage g (Chip.pressing k (Chip.withRecord two { weigher with load := { weigher.load with history := ring } }))
    let d (k : Key) (c : Chip) := (after (.keyDebounceExpiry k) c).panel
    let pages (sel : Option Nat) (k : Key) : Chip :=
      { c k .truck with panel := { (c k .truck).panel with truckSel := sel } }
    let hist (sel : Option (BitVec 32)) (k : Key) : Chip :=
      { c k .history with panel := { (c k .history).panel with histSel := sel } }
    (∀ a, ((c .enter .diag).alarm.get a).latch = false) ∧ (c .enter .diag).cal.state = .out
      ∧ (c .enter .truck).cfg.srcTag ≠ 0 ∧ (after (.keyDebounceExpiry .enter) (c .enter .truck)).load.record = some two
      ∧ (d .enter (hist (some 8) .enter)).histSel = some 9 ∧ (d .enter (c .enter .setup)).setupItem = 2
      ∧ (d .up (c .up .run)).page = .run
      ∧ (d .down (pages none .down)).truckSel = some 2 ∧ (d .down (pages (some 2) .down)).truckSel = some 1
      ∧ (d .down (pages (some 1) .down)).truckSel = some 1 ∧ (d .up (pages (some 1) .up)).truckSel = some 2
      ∧ (d .up (pages (some 2) .up)).truckSel = none
      ∧ (d .down (c .down .count)).countItem = 7 ∧ (d .up (c .up .count)).countItem = 2
      ∧ (d .down (hist none .down)).histSel = some 9 ∧ (d .down (hist (some 9) .down)).histSel = some 8
      ∧ (d .up (hist (some 8) .up)).histSel = some 9 ∧ (d .up (hist (some 9) .up)).histSel = some 9
      ∧ (d .up (c .up .setup)).settings.day = 49 ∧ (d .up (c .up .setup)).shadow = 49
      ∧ (d .down (c .down .diag)).diagItem = 52 ∧ (d .up (c .up .diag)).diagItem = 2
      ∧ (d .mode (c .mode .count)).histTimer = some weigher.tick := by
  refine ⟨fun a => by cases a <;> rfl, ?_⟩
  dsimp only
  repeat' apply And.intro
  all_goals decide +kernel

theorem test_meets_LongPressesAreDelivered :
    let c := Chip.holding .enter 3000 none (Chip.withRecord record weigher)
    let on (g : Page) : Chip := { c with panel := { c.panel with page := g } }
    let mode := Chip.holding .mode 3000 none weigher
    let busy := Chip.holding .mode 3000 none (Chip.withRecord record (Chip.weighing weigher))
    c.running ∧ c.panel.decoder = .held ⟨.enter, 7000, true, true, none, none⟩ ∧ 3000 ≤ age c.tick 7000
      ∧ (on .count).panel.page = .count ∧ (on .count).cfg.role = .weigher ∧ (on .count).role.state ≠ .calibrating
      ∧ (on .count).store.writing = none ∧ (on .truck).load.record = some record ∧ (on .truck).role.state = .active
      ∧ mode.cal.state = .out ∧ mode.trk.cycle = .idle ∧ mode.store.window = none ∧ busy.trk.cycle ≠ .idle := by
  dsimp only
  repeat' apply And.intro
  all_goals decide +kernel

/-- CALIBRATING is taken from ACTIVE with its status written. ENTER on RUN and on TRUCK without a record, UP, and MODE of a
press that left a calibration do nothing. -/
theorem test_meets_LongPressesAreDelivered_rest :
    let d (c : Chip) := after .longPress c
    let loaded (c : Chip) : Chip := { c with
      link := { c.link with tslot := some ⟨.truckStatus, 0, []⟩ }, role := { c.role with pairing := [⟨1300, 9000⟩] }
      trk := { c.trk with note := some ⟨true, pass, false⟩ } }
    let mode := loaded (Chip.holding .mode 3000 none weigher)
    let left : Chip := { mode with panel := { mode.panel with
      decoder := .held ⟨.mode, 7000, true, false, none, none⟩ } }
    let still (c : Chip) := (d c).role = c.role ∧ (d c).load = c.load ∧ (d c).panel.message = c.panel.message
    (d mode).role.state = .calibrating ∧ (d mode).role.status = some weigher.tick ∧ (d mode).role.pairing = []
      ∧ (d mode).link.wslot.isSome = true ∧ (d mode).link.tslot = none ∧ (d mode).load.refreshTimer = none
      ∧ (d mode).trk.note = none ∧ left.running ∧ still left
      ∧ still (Chip.holding .enter 3000 none (Chip.withRecord record weigher))
      ∧ still (Chip.onPage .truck (Chip.holding .enter 3000 none weigher)) ∧ still (Chip.holding .up 3000 none weigher) := by
  dsimp only
  repeat' apply And.intro
  all_goals decide +kernel

/-- The first repeat at 600 ms, at a limit of the setting and within it. -/
theorem test_meets_RepeatStepsTheSetting :
    let c (n : Nat) : Chip := Chip.holding .up 600 (some .setup)
      { weigher with panel := { weigher.panel with page := .setup, setupItem := n } }
    (c 1).running ∧ (c 1).panel.decoder = .held ⟨.up, 9400, true, true, some .setup, none⟩ ∧ (c 1).panel.page = .setup
      ∧ 600 ≤ age (c 1).tick 9400 ∧ (after .repeatStep (c 1)).panel.settings.day = 49
      ∧ (after .repeatStep (c 5)).panel.settings.curveSet = 1 := by
  dsimp only
  repeat' apply And.intro
  all_goals decide +kernel

/-- A repeat on the SET and on the MASS field, 150 ms after the last, and at a limit. -/
theorem test_meets_RepeatStepsTheSetting_cal :
    let c (f : EditField) (u : CalUnit) : Chip :=
      let c := calibrating u
      { c with panel := { c.panel with decoder := .held ⟨.down, 9000, false, false, some f, some 9850⟩ } }
    let d (f : EditField) (u : CalUnit) := (after .repeatStep (c f u)).cal
    (c .calSet (lifts .select)).running ∧ (lifts .select).onMass = false ∧ 150 ≤ age weigher.tick 9850
      ∧ (d .calSet { lifts .select with target := 3 }).target = 2 ∧ (d .calSet (lifts .select)).target = 0
      ∧ (d .calMass { lifts .select with onMass := true, mass := 101 }).mass = 100 := by
  dsimp only
  repeat' apply And.intro
  all_goals decide +kernel

theorem test_meets_PanelTimersRun :
    let c : Chip := { weigher with panel := { weigher.panel with message := some 8000 } }
    c.sup.life = .up ∧ ranOut 50 c.panel.frameTimer c.tick ∧ ranOut 250 c.panel.blinkTimer c.tick
      ∧ ranOut 2000 c.panel.histTimer c.tick ∧ ranOut 2000 c.panel.message c.tick ∧ ranOut 5 c.panel.bklTimer c.tick := by
  dsimp only
  repeat' apply And.intro
  all_goals first | decide +kernel | exact ⟨_, rfl, by decide +kernel⟩

/-- The TRUCK page with a record of 13.00 t toward 45.00 t: remaining 32.00, one pass, target 45.00, bargraph 5; and the RUN
page after a pass of 13.38 t with fill 112. -/
theorem test_frame_of_truck :
    let truck := Chip.onPage .truck (Chip.withRecord record weigher)
    let run : Chip := { Chip.withRecord record weigher with
      panel := { weigher.panel with lastPass := some { pass with payload := some 1338, fill := some 112 } } }
    ((after .frameTimer truck).panel.frame.take 13
        = [0x4F, 0xDB, 0x3F, 0x3F, 0, 0x06, 0, 0x66, 0xED, 0x3F, 0x3F, 0xF8, 0]
      ∧ fitsField 4 2 3200 ∧ fitsField 5 2 4500 ∧ fitsField 2 0 1)
      ∧ (after .frameTimer run).panel.frame.take 13
        = [0x06, 0xCF, 0x4F, 0x7F, 0, 0x06, 0, 0x06, 0xCF, 0x3F, 0x3F, 0xFF, 0xFF] := by
  dsimp only
  repeat' apply And.intro
  all_goals decide +kernel

theorem test_meets_BuzzerPhasesFollow :
    let c (slot : Option Pattern) (q : List Pattern) (ms : Nat) : Chip :=
      { weigher with panel := { weigher.panel with buz := ⟨slot, q, some ⟨0, weigher.tick - BitVec.ofNat 32 ms, 10⟩⟩ } }
    (c none [.beep] 100).sup.life = .up ∧ (c none [.beep] 100).panel.buz.play = some ⟨0, 9900, 10⟩
      ∧ (c (some .trill) [] 250).panel.buz.slot = some .trill ∧ 250 ≤ age weigher.tick (weigher.tick - 250)
      ∧ (c (some .double) [.beep] 100).panel.buz.queue = [.beep] ∧ 100 ≤ age weigher.tick 9900
      ∧ 1000 ≤ age weigher.tick (weigher.tick - 1000) := by
  dsimp only
  repeat' apply And.intro
  all_goals decide +kernel

/-- The start window of a part in LISTEN, open 3000 ms. -/
def starting : Chip := { weigher with
  role := { weigher.role with state := .listen }, store := { weigher.store with window := some 7000 } }

def write (item value code : Nat) : List Byte := [BitVec.ofNat 8 item] ++ be32 value ++ be32 code

/-- Table 10-4 row by row: lockout, window closed, wrong code, unknown item, out of range by one, in range at its limit. -/
theorem test_meets_ConfigWriteIsChecked :
    let locked := { starting with store := { starting.store with lockout := true } }
    let answer (d : List Byte) := (after (.configWrite 30 4 d) starting).link.queue.map OutTg.data
    starting.Hears 30 4 (write 22 15 7) ∧ (4 : Byte) ≠ 0 ∧ (write 22 15 7).length = 9 ∧ starting.role.state ≠ .mute
      ∧ starting.link.queue.length < 8 ∧ locked.Hears 30 4 (write 22 15 7) ∧ locked.store.lockout = true
      ∧ weigher.store.window = none ∧ answer (write 22 15 8) = [[22, 2]] ∧ answer (write 45 1 7) = [[45, 3]]
      ∧ answer (write 22 16 7) = [[22, 4]] ∧ answer (write 22 15 7) = [[22, 0]] := by
  dsimp only
  repeat' apply And.intro
  all_goals decide +kernel

/-- A store write in progress since 9990 ms less its time. -/
def writing (w : WriteReq) (ms : Nat) : Chip :=
  { weigher with store := { weigher.store with writing := some (w, weigher.tick - BitVec.ofNat 32 ms), owed := [30] } }

/-- A commit taken during a CONFIG write is answered by it, and two of them, the second replacing the first, by the next. -/
theorem test_meets_StoreWritesInTurn :
    let waiting : Chip := { writing (.config cfg) 10 with
      store := { (writing (.config cfg) 10).store with window := some 7000 } }
    let d (c : Chip) := after (.configCommit 31 4 (be32 7)) c
    let done (c : Chip) := after .storeWriteComplete c
    let answered (c : Chip) := c.link.queue.map OutTg.dst
    starting.Hears 30 4 (be32 7) ∧ starting.store.window.isSome = true ∧ starting.store.lockout = false
      ∧ BitVec.ofNat 32 (nat32 (be32 7) 0) = starting.store.cfg.unlock ∧ starting.store.writing = none
      ∧ (writing (.config cfg) 10).sup.life = .up ∧ 10 ≤ age weigher.tick (weigher.tick - 10)
      ∧ starting.store.reqRetain = none ∧ starting.store.reqCurve = none
      ∧ (d waiting).store.owedNext = [31] ∧ (d waiting).store.replaced = false
      ∧ answered (done (d waiting)) = [30, 31] ∧ (done (d waiting)).store.owed = []
      ∧ (done (d waiting)).store.writing.isSome = true
      ∧ (d (d waiting)).store.replaced = true ∧ answered (done (d (d waiting))) = [30]
      ∧ (done (d (d waiting))).store.owed = [31, 31] ∧ (done (d (d waiting))).store.replaced = false
      ∧ (after .storeWriteComplete (writing (.config cfg) 10)).store.owed = []
      ∧ (after .storeWriteComplete (writing (.config cfg) 9)).store.owed = [30]
      ∧ (after .storeWriteComplete (writing (.curve 2 curve) 25)).store.writing = none
      ∧ (after .storeWriteComplete (writing (.retain (Retained.lost 0)) 80)).store.array.retained
          = some (Retained.lost 0) := by
  dsimp only
  repeat' apply And.intro
  all_goals decide +kernel

theorem test_meets_WindowEndBringsTheConfiguration :
    let changed : Chip := { starting with store := { starting.store with work := { cfg with role := .repeater, srcTilt := 13 } } }
    let doze : Chip := { changed with sup := { changed.sup with power := .doze } }
    starting.sup.life = .up ∧ ranOut 3000 starting.store.window starting.tick ∧ changed.store.cfg.role ≠ changed.store.work.role
      ∧ changed.sup.power = .run ∧ changed.role.state ≠ .mute ∧ doze.sup.power ≠ .run ∧ doze.role.resumeRole ≠ .mute :=
  ⟨rfl, ⟨_, rfl, by decide +kernel⟩, by decide +kernel, rfl, by decide, by decide, by decide⟩

/-- The part in a power state, its ignition timer run out with the line at a level. -/
def powered (p : Power) (ign : Bool) : Chip :=
  { weigher with
    pins := { weigher.pins with ign := ign }
    sup := { weigher.sup with power := p, ignition := !ign, ignTimer := some 9500, peekTimer := some (weigher.tick - 30000) } }

/-- The selected primary's source changed and tag mode left, with a record that the new figures flag LAST and OVERLOAD. -/
theorem test_meets_WindowEndBringsTheConfiguration_channels :
    let heard := (Chip.tiltAt 700 (Chip.boomAt 1437 900 starting))
    let ends (x w : Cfg) (c : Chip) := after .startWindowEnd { c with
      store := { starting.store with cfg := x, work := w }, load := { c.load with refused := some 9 } }
    let moved := ends cfg { cfg with srcPrimary := 15 } heard
    let manual := ends cfg { cfg with srcTag := 0 } heard
    let near := Chip.withRecord { record with total := 4900, target := some 4500 } starting
    let full := ends { cfg with overTol := 20 } { cfg with underTol := 0, overTol := 0 } near
    (heard.inp.sel, heard.inp.omega) = (some .primary, some 900)
      ∧ (moved.inp.sel, moved.inp.omega, moved.inp.held.primary) = (none, none, none)
      ∧ (moved.inp.primary.freshness, moved.inp.primary.staleTimer, moved.inp.primary.loss)
          = (.absent, none, .running starting.tick)
      ∧ moved.inp.tilt = heard.inp.tilt ∧ moved.inp.held.tilt = some 700 ∧ moved.load.refused = some 9
      ∧ manual.load.refused = none ∧ (manual.inp.sel, manual.inp.omega) = (some .primary, some 900)
      ∧ full.load.record.map (fun r => r.flags.overload) = some true ∧ full.load.seq = near.load.seq + 1 := by
  dsimp only
  repeat' apply And.intro
  all_goals decide +kernel

theorem test_meets_RunIsLeftForHoldOrDoze :
    let late : Chip := { weigher with sup := { weigher.sup with offAfterStart := true } }
    weigher.sup.life = .up ∧ weigher.sup.status = .ok ∧ weigher.sup.power = .run ∧ (159 : Nat) < 160
      ∧ (powered .hold true).sup.power = .hold ∧ weigher.pins.ign ≠ false ∧ (powered .run false).pins.ign = false
      ∧ ranOut 500 (powered .run false).sup.ignTimer weigher.tick ∧ late.sup.offAfterStart = true
      ∧ (powered .peek false).sup.status = .ok ∧ (after (.supplyFallsLow 159) (powered .peek false)).sup.power = .doze :=
  ⟨rfl, rfl, rfl, by decide, rfl, by decide, rfl, ⟨_, rfl, by decide +kernel⟩, rfl, rfl, by decide +kernel⟩

theorem test_meets_LowPowerIsLeft :
    let low (ignition : Bool) : Chip :=
      { powered .hold true with sup := { (powered .hold true).sup with status := .low, ignition := ignition } }
    let risen (p : Power) := (after (.supplyRisesOk 181 ⟨4, false⟩) (Chip.inPower p (low true))).sup
    (low true).sup.life = .up ∧ (180 : Nat) < 181 ∧ (low true).sup.status = .low ∧ (low true).sup.power = .hold
      ∧ (low false).sup.ignition = false ∧ (powered .doze true).pins.ign = true ∧ (powered .peek true).sup.power = .peek
      ∧ ranOut 500 (powered .doze true).sup.ignTimer weigher.tick
      ∧ ranOut 30000 (powered .peek true).sup.peekTimer weigher.tick ∧ (risen .run).status = .ok
      ∧ (risen .doze).status = .ok ∧ (risen .peek).power = .peek := by
  dsimp only
  repeat' apply And.intro
  all_goals first | decide +kernel | exact ⟨_, rfl, by decide +kernel⟩

theorem test_meets_ResetLineHoldsThePart :
    let held (l : Life) (s : SupplyStatus) : Chip := { weigher with sup := { weigher.sup with life := l, status := s } }
    weigher.sup.life = .up ∧ (held .held .ok).sup.life ≠ .up ∧ ¬reachesHeld .longPress ∧ (held .held .ok).sup.status = .ok
      ∧ (held .held .low).sup.status = .low ∧ (held .linePending .low).sup.life = .linePending ∧ (180 : Nat) < 181 :=
  ⟨rfl, by decide, nofun, rfl, rfl, rfl, by decide⟩

/-- The regulator fails at 8.9 V with a curve write in progress; the part starts at 9.0 V. -/
theorem test_meets_ColdStartReadsTheStore :
    let off : Chip := after (.regulatorFail 89) (writing (.curve 2 curve) 1)
    (89 : Nat) < 90 ∧ weigher.sup.life ≠ .off ∧ (writing (.curve 2 curve) 1).store.writing.isSome = true
      ∧ off.sup.life = .off ∧ off.pins.reset = false ∧ (after (.coldStart 90 ⟨4, false⟩) off).sup.life = .up
      ∧ off.store.array.config = none ∧ off.store.array.retained = none := by
  dsimp only
  repeat' apply And.intro
  all_goals decide +kernel

/-! ## Clauses over what a command sends, times and opens -/

/-- The pressure is FRESH. -/
def Chip.pressedAt (ph : Nat) (c : Chip) : Chip :=
  { c with inp := { c.inp with
      pressure := ⟨.fresh, some c.tick, some .ok, Over.clear, some 1, 0, some c.tick, .stopped⟩
      held := { c.inp.held with pressure := some ⟨ph, 0⟩ } } }

/-- A configuration under which a tilt of 0.00 to 1.00 deg is racked and at the dump angle. -/
def tipped : Cfg := { cfg with digAngle := 500, rackAngle := 0, dumpAngle := 100 }

/-- The pressure is at the dig pressure, under that configuration. -/
def Chip.digging (c : Chip) : Chip := Chip.pressedAt 12000 (Chip.under tipped c)

/-- An entry to IDLE with the dig held: from CARRY to FILL, with the tilt just past the dump angle to LIFT, with one at both
limits to DUMP; from RETURN, from FILL and CARRY by their timers, and from DUMP with the boom down. -/
theorem test_meets_entry_to_IDLE_digs :
    let carry (f : Chip → Chip) := Chip.inCycle .carry lifted 2600 (f (Chip.digging weigher))
    let ret := Chip.between .ret false 2600 (Chip.digging weigher)
    let timed (c : Chip) : Chip := Chip.boomAt 499 0 { c with trk := { c.trk with
      fillTimer := some (c.tick - 2000), carryTimer := some (c.tick - 120000), lossAngle := some (c.tick - 500) } }
    let down := Chip.between .dump false (-1) (Chip.boomAt (-1) 0 (Chip.pressedAt 12000 weigher))
    let d (c : Chip) := (after (.boomAngle 5 0 (angle 499)) c).trk
    (carry id).Hears 5 0 (angle 499) ∧ (carry id).cfg.digPressure = 12000 ∧ (d (carry id)).cycle = .fill
      ∧ (d (carry id)).ctx = some (normalPass weigher.tick) ∧ (d (carry id)).voids.returned = 1
      ∧ (d (carry (Chip.tiltAt 101))).cycle = .lift ∧ (d (carry (Chip.tiltAt 0))).cycle = .dump
      ∧ (d (carry (Chip.tiltAt 100))).note.map (fun n => n.pass.payload) = some none ∧ (d ret).cycle = .fill
      ∧ (after .fillEmptyTimerExpiry (timed (Chip.inCycle .fill lifted 0 (Chip.digging weigher)))).trk.ctx
          = some (normalPass weigher.tick)
      ∧ (after .carryTimerExpiry (timed (carry id))).trk.cycle = .fill
      ∧ (after (.inputLossTimerExpiry .angle) (timed (carry (Chip.tiltAt 50)))).trk.cycle = .dump
      ∧ (after (.bucketTilt 6 0 (tiltOf 62736)) down).trk.cycle = .fill
      ∧ (after (.liftPressure 2 0 (press 12000 0)) (Chip.tiltAt 50 (Chip.under tipped (Chip.boomAt 999 0 weigher)))).trk.cycle
          = .dump := by
  dsimp only
  repeat' apply And.intro
  all_goals decide +kernel

/-- In FILL, 2000 kPa below the dig pressure and one short of it; in WEIGH, a usable pressure, a faulty one, and a FRESH one
that goes STALE. -/
theorem test_meets_tracker_timers_start_and_stop :
    let fill (t : Option Tick) : Chip :=
      let c := Chip.inCycle .fill lifted 500 weigher
      { c with trk := { c.trk with fillTimer := t } }
    let weigh (t : Option Tick) : Chip :=
      let c := Chip.weighing (Chip.pressedAt 9000 weigher)
      { c with
        trk := { c.trk with lossPressure := t }
        inp := { c.inp with pressure := { c.inp.pressure with staleTimer := some (c.tick - 61) } } }
    let d (ph : Nat) (c : Chip) := (after (.liftPressure 2 0 (press ph 0)) c).trk
    let faulty : List Byte := [1] ++ be16 9000 ++ be16 0 ++ [1]
    (fill none).Hears 2 0 (press 9999 0) ∧ (d 9999 (fill none)).fillTimer = some weigher.tick
      ∧ (d 9999 (fill (some 9000))).fillTimer = some 9000 ∧ (d 10000 (fill (some 9000))).fillTimer = none
      ∧ (d 9000 (weigh (some 9700))).lossPressure = none
      ∧ (after (.liftPressure 2 0 faulty) (weigh none)).trk.lossPressure = some weigher.tick
      ∧ (after (.liftPressure 2 0 faulty) (weigh (some 9700))).trk.lossPressure = some 9700
      ∧ (after (.staleExpiry .pressure) (weigh none)).trk.lossPressure = some weigher.tick
      ∧ (after (.staleExpiry .pressure) (weigh none)).trk.lossAngle = some weigher.tick := by
  dsimp only
  repeat' apply And.intro
  all_goals decide +kernel

/-- An unusable id repeats the held tag: a truck held present opens its record and then moves nothing, one held gone closes
the record. -/
theorem test_meets_TagMovesTheRecord_unusable :
    let held (t : TagVal) (c : Chip) : Chip := { c with inp := { c.inp with held := { c.inp.held with tag := some t } } }
    let d (c : Chip) := (after (.truckTag 12 0 (tag 1 65535 0)) c).load
    let here := held ⟨true, 412, some 4500⟩ weigher
    here.Hears 12 0 (tag 1 65535 0) ∧ (d here).record.map TruckRec.id = some 412
      ∧ (d (held ⟨true, 412, some 4500⟩ (Chip.withRecord record weigher))).record = some record
      ∧ (d (held ⟨false, 412, none⟩ (Chip.withRecord record weigher))).record = none
      ∧ (after (.truckTag 12 0 (tag 1 65535 0)) here).inp.held.tag = here.inp.held.tag := by
  dsimp only
  repeat' apply And.intro
  all_goals decide +kernel

/-- A commit at the target and above the pass-over limit: ACTIVE queues its PASS RECORD and writes the slot, MUTE neither;
the pulse latches PASS OVER, its LONG dropped where a TRILL alarm stands. -/
theorem test_meets_DumpCommitsThePass_sends :
    let heaped := { lifted with stage := .weighed, payload := some 1500, fill := some 125, grade := some .good }
    let near : TruckRec := { record with target := some 2900 }
    let c (r : RoleState) : Chip :=
      let c := Chip.inCycle .carry heaped 2512 (Chip.withRecord near weigher)
      { c with role := { c.role with state := r } }
    let loud : Chip := { c .active with alarm := { (c .active).alarm with
      lowSupply := { (c .active).alarm.lowSupply with latch := true } } }
    let d (c : Chip) := after (.bucketTilt 6 0 [0xF4, 0x48, 0]) c
    (c .active).Hears 6 0 [0xF4, 0x48, 0] ∧ (c .active).cfg.passOver < 125
      ∧ (d (c .active)).link.queue.map OutTg.kind = [.passRecord] ∧ (d (c .active)).link.tslot.isSome = true
      ∧ (d (c .active)).load.record.map (fun r => (r.flags.reached, r.flags.last)) = some (true, true)
      ∧ (d (c .active)).panel.buz.queue = [.double] ∧ (d (c .active)).panel.buz.slot = some .long
      ∧ (d (c .active)).alarm.passOver.latch = true ∧ (d loud).panel.buz.slot = none
      ∧ (d loud).panel.buz.queue = [.beep, .double]
      ∧ (d (c .mute)).link.queue = [] ∧ (d (c .mute)).link.tslot = none ∧ (d (c .mute)).load.record.isSome = true := by
  dsimp only
  repeat' apply And.intro
  all_goals decide +kernel

/-- A close by another tag, by ENTER, by its long press and by a silent tag: ACTIVE queues TRUCK CLOSED and writes the slot,
MUTE neither. -/
theorem test_meets_close_sends :
    let held (r : RoleState) := Chip.withRecord record { weigher with role := { weigher.role with state := r } }
    let manual (c : Chip) := Chip.under { cfg with srcTag := 0 } (Chip.onPage .truck (Chip.pressing .enter c))
    let closes (i : Instr) (c : Chip) :=
      ((after i c).link.queue, (after i c).link.tslot.isSome) = (closedTelegrams record .newTruck, true)
    let sends (i : Instr) (c : Chip) := ((after i c).link.queue.map OutTg.kind, (after i c).link.tslot.isSome)
    (held .active).Hears 12 0 (tag 1 413 0) ∧ closes (.truckTag 12 0 (tag 1 413 0)) (held .active)
      ∧ sends (.keyDebounceExpiry .enter) (manual (held .active)) = ([.truckClosed], true)
      ∧ sends .longPress (Chip.onPage .truck (Chip.holding .enter 3000 none (held .active))) = ([.truckClosed], true)
      ∧ sends (.staleExpiry .tag) (Chip.withRecord record silent) = ([.truckClosed], true)
      ∧ sends (.truckTag 12 0 (tag 1 413 0)) (held .mute) = ([], false)
      ∧ sends (.keyDebounceExpiry .enter) (manual (held .mute)) = ([], false) := by
  dsimp only
  repeat' apply And.intro
  all_goals decide +kernel

/-- A REPEAT part that holds all three reports, and a queue of 6 that drops its oldest. -/
theorem test_meets_CounterRequestIsAnswered_held :
    let six : Chip := { repeater with
      link := { repeater.link with queue := List.replicate 6 ⟨.diagReport, 3, []⟩ }
      load := { repeater.load with
        mirrorCounts := some ⟨7, 6, 1, 2, true⟩, mirrorTonnage := some ⟨8, 9, false⟩, mirrorLife := some ⟨10, false⟩ } }
    let q := (after (.counterRequest 20 0 []) six).link.queue
    six.Hears 20 0 [] ∧ six.role.state = .repeating ∧ q.length = 8
      ∧ (q.drop 5).map OutTg.data
          = [[1, 5, 0, 7, 0, 6, 0, 1, 0, 2], [2, 1, 0, 0, 0, 8, 0, 0, 0, 9], [3, 1, 0, 0, 0, 10]] := by
  dsimp only
  repeat' apply And.intro
  all_goals decide +kernel

/-- MODE to COUNT and from it, in REPEAT and in ACTIVE. -/
theorem test_meets_PressesAreRouted_poll :
    let c (g : Page) (c : Chip) := Chip.onPage g (Chip.pressing .mode c)
    let d (c : Chip) := after (.keyDebounceExpiry .mode) c
    let polled : Chip := { repeater with load := { repeater.load with pollTimer := some 9000 } }
    (c .truck repeater).running ∧ (c .truck repeater).role.named = some 3
      ∧ (d (c .truck repeater)).load.pollTimer = some weigher.tick
      ∧ (d (c .truck repeater)).link.queue = [⟨.counterRequest, 3, []⟩]
      ∧ (d (c .count polled)).load.pollTimer = none ∧ (d (c .count polled)).link.queue = []
      ∧ (d (c .truck weigher)).load.pollTimer = none ∧ (d (c .truck weigher)).link.queue = [] := by
  dsimp only
  repeat' apply And.intro
  all_goals decide +kernel

/-- Table 10-4 for a commit: lockout, no window, and the second and third wrong code; a MUTE part's answer is discarded. -/
theorem test_meets_StoreWritesInTurn_refused :
    let c (wrong : Nat) (locked : Bool) (r : RoleState) : Chip := { starting with
      role := { starting.role with state := r }, store := { starting.store with wrongCodes := wrong, lockout := locked } }
    let shut : Chip := { c 0 false .active with store := { starting.store with window := none } }
    let d (code : Nat) (c : Chip) := after (.configCommit 30 4 (be32 code)) c
    let answers (c : Chip) := c.link.queue.map OutTg.data
    (c 1 false .active).Hears 30 4 (be32 8) ∧ (be32 8).length = 4 ∧ answers (d 7 (c 0 true .active)) = []
      ∧ answers (d 7 shut) = [[0, 1]] ∧ answers (d 8 (c 1 false .active)) = [[0, 2]]
      ∧ (d 8 (c 1 false .active)).store.lockout = false ∧ (d 8 (c 2 false .active)).store.lockout = true
      ∧ (d 8 (c 2 false .active)).store.wrongCodes = 3 ∧ answers (d 8 (c 0 false .mute)) = [] := by
  dsimp only
  repeat' apply And.intro
  all_goals decide +kernel

/-- A curve write that completes in HOLD with the calibration in CAL-WRITING, of a part with a role and of a MUTE one. -/
theorem test_meets_StoreWritesInTurn_asleep :
    let c (resume : RoleState) : Chip :=
      let c := Chip.inPower .hold (writing (.curve 2 curve) 25)
      { c with
        cal := { c.cal with state := .writing }
        trk := { c.trk with cycle := .suspended, suspCal := true, suspPower := true }
        role := { c.role with resumeRole := resume }, panel := { c.panel with keptPage := .cal } }
    let d (resume : RoleState) := after .storeWriteComplete (c resume)
    (c .calibrating).cal.state = .writing ∧ (c .calibrating).trk.suspPower = true ∧ (d .calibrating).cal.state = .out
      ∧ (d .calibrating).role.resumeRole = .listen ∧ (d .calibrating).panel.keptPage = .run
      ∧ (d .calibrating).trk.cycle = .suspended ∧ (d .mute).role.resumeRole = .mute := by
  dsimp only
  repeat' apply And.intro
  all_goals decide +kernel

/-- A change to REPEATER with a pass in WEIGH on the COUNT page, in LISTEN and in MUTE; and one of item 38 that makes a true
OVERLOAD condition HELD, of item 40 that masks a latched record, and of both in HOLD. -/
theorem test_meets_WindowEndBringsTheConfiguration_effects :
    let ends (w : Cfg) (c : Chip) := after .startWindowEnd { c with store := { starting.store with work := w } }
    let weigh (r : RoleState) : Chip := Chip.onPage .count
      { Chip.weighing starting with role := { starting.role with state := r } }
    let loaded (c : Chip) : Chip := Chip.withRecord
      { record with target := some 1000, flags := ⟨false, false, false, true, false⟩ }
      { c with alarm := { c.alarm with
          overload := { c.alarm.overload with cond := true, mode := .edge }
          inputFault := { c.alarm.inputFault with latch := true } } }
    let rep := ends { cfg with role := .repeater }
    let held : Cfg := { cfg with modeOverload := .held, mask := 4, underTol := 0, overTol := 0 }
    (weigh .listen).cfg.role ≠ .repeater ∧ (rep (weigh .listen)).role.state = .repeating
      ∧ (rep (weigh .listen)).trk.voids.restart = 1 ∧ (rep (weigh .listen)).trk.cycle = .idle
      ∧ (rep (weigh .listen)).eng.isOpen = false ∧ (rep (weigh .listen)).load.pollTimer = some starting.tick
      ∧ (rep (weigh .mute)).role.state = .mute ∧ (rep (weigh .mute)).trk.voids.restart = 1
      ∧ (rep (Chip.inCycle .fill lifted 0 starting)).trk.voids.restart = 0
      ∧ (ends held (loaded starting)).alarm.overload.latch = true
      ∧ (ends held (loaded starting)).alarm.inputFault.maskTimer = some starting.tick
      ∧ (ends held (loaded (Chip.inPower .hold starting))).alarm.overload.latch = false
      ∧ (ends held (loaded (Chip.inPower .hold starting))).alarm.inputFault.maskTimer = none := by
  dsimp only
  repeat' apply And.intro
  all_goals decide +kernel

end Sys2Proof.Tests
end

/-! SUPPORT and PROOFS. The sample gate and the bins (R7-R19): the checks of the gate one by one, what a LIFT PRESSURE
changes of what they read, and the two ways a sample goes, into a tally or into its bin. -/

namespace Sys2Proof.Machine

/-! ## The checks of the gate (R9-R13) -/

/-- RATE passes a valid boom rate within its bounds (R10). -/
theorem rateOk_iff (cfg : Cfg) (t : InputTable) :
    rateOk cfg t = true ↔ ∃ w, t.omega = some w ∧ cfg.rmin ≤ w ∧ w ≤ cfg.rmax := by
  unfold rateOk
  cases t.omega <;> simp

/-- AGE passes an angle that has arrived at most 40 ms ago (R11). -/
theorem ageOk_iff (r : ChanRec) (now : Tick) :
    ageOk r now = true ↔ ∃ at_, r.latestTick = some at_ ∧ age now at_ ≤ 40 := by
  unfold ageOk
  cases r.latestTick <;> simp

/-- SENSOR passes OK and in-range arrivals of the pressure and of the selected angle (R12). -/
theorem sensorOk_iff (t : InputTable) (r : ChanRec) :
    sensorOk t r = true ↔ t.pressure.latestStatus = some .ok ∧ t.pressure.overRange.f1 = false
      ∧ t.pressure.overRange.f2 = false ∧ r.latestStatus = some .ok ∧ r.overRange.f1 = false := by
  simp [sensorOk, and_assoc]

/-- INCLINE tests pitch and roll of a FRESH chassis incline (R13). -/
theorem inclineOk_iff_of_fresh (cfg : Cfg) (t : InputTable) (v : InclineVal) (hf : t.incline.freshness = .fresh)
    (hv : t.held.incline = some v) :
    inclineOk cfg t = true ↔ v.pitch.natAbs ≤ cfg.pitchLimit ∧ v.roll.natAbs ≤ cfg.rollLimit := by
  simp [inclineOk, hf, hv]

/-- INCLINE passes a chassis incline that is not FRESH where it is not required (R13). -/
theorem inclineOk_iff_of_not_fresh (cfg : Cfg) (t : InputTable) (hf : t.incline.freshness ≠ .fresh) :
    inclineOk cfg t = true ↔ cfg.inclineReq = false := by
  simp [inclineOk, hf]

/-- SPEED tests the speed of a FRESH drive state (R13). -/
theorem speedOk_iff_of_fresh (cfg : Cfg) (t : InputTable) (v : DriveVal) (hf : t.drive.freshness = .fresh)
    (hv : t.held.drive = some v) : speedOk cfg t = true ↔ v.speed ≤ cfg.speedLimit := by
  simp [speedOk, hf, hv]

/-- SPEED passes a drive state that is not FRESH where it is not required (R13). -/
theorem speedOk_iff_of_not_fresh (cfg : Cfg) (t : InputTable) (hf : t.drive.freshness ≠ .fresh) :
    speedOk cfg t = true ↔ cfg.driveReq = false := by
  simp [speedOk, hf]

/-! ## The gate (R9) -/

/-- The gate lets a sample through where all six checks pass, and only there (R9). -/
theorem gate_eq_none_iff (cfg : Cfg) (t : InputTable) (r : ChanRec) (now : Tick) :
    gate cfg t r now = none ↔ rateOk cfg t = true ∧ ageOk r now = true ∧ sensorOk t r = true ∧ t.disagree = false
      ∧ inclineOk cfg t = true ∧ speedOk cfg t = true := by
  unfold gate
  (repeat' split) <;> simp_all

/-- A check that fails after those before it have passed is the one the gate names (R9). -/
theorem gate_eq_first_failure (cfg : Cfg) (t : InputTable) (r : ChanRec) (now : Tick) :
    (rateOk cfg t = false → gate cfg t r now = some .rate)
      ∧ (rateOk cfg t = true → ageOk r now = false → gate cfg t r now = some .age)
      ∧ (rateOk cfg t = true → ageOk r now = true → sensorOk t r = false → gate cfg t r now = some .sensor)
      ∧ (rateOk cfg t = true → ageOk r now = true → sensorOk t r = true → t.disagree = true →
          gate cfg t r now = some .disagree)
      ∧ (rateOk cfg t = true → ageOk r now = true → sensorOk t r = true → t.disagree = false →
          inclineOk cfg t = false → gate cfg t r now = some .incline)
      ∧ (rateOk cfg t = true → ageOk r now = true → sensorOk t r = true → t.disagree = false →
          inclineOk cfg t = true → speedOk cfg t = false → gate cfg t r now = some .speed) := by
  refine ⟨fun hrate => ?_, fun hrate hage => ?_, fun hrate hage hsensor => ?_, fun hrate hage hsensor hdis => ?_,
    fun hrate hage hsensor hdis hincl => ?_, fun hrate hage hsensor hdis hincl hspeed => ?_⟩ <;> simp [gate, *]

/-! ## What a LIFT PRESSURE leaves of what the gate reads (R53) -/

/-- The selected angle is no part of the pressure channel. -/
@[simp] theorem InputTable.arrivePressure_selected (m : PressureMsg) (now : Tick) (t : InputTable) :
    (t.arrivePressure m now).selected = t.selected := by
  have hheld : ∀ a, (t.arrivePressure m now).heldAngle a = t.heldAngle a := by
    intro a
    cases a <;> simp only [InputTable.heldAngle, InputTable.arrivePressure] <;> split <;> rfl
  have hrec : ∀ a, (t.arrivePressure m now).angleRec a = t.angleRec a := by
    intro a
    cases a <;> rfl
  simp [InputTable.selected, hheld, hrec]

@[simp] theorem rateOk_arrivePressure (cfg : Cfg) (m : PressureMsg) (now : Tick) (t : InputTable) :
    rateOk cfg (t.arrivePressure m now) = rateOk cfg t := rfl

@[simp] theorem inclineOk_arrivePressure (cfg : Cfg) (m : PressureMsg) (now : Tick) (t : InputTable) :
    inclineOk cfg (t.arrivePressure m now) = inclineOk cfg t := by
  have hheld : (t.arrivePressure m now).held.incline = t.held.incline := by
    simp only [InputTable.arrivePressure]
    split <;> rfl
  simp [inclineOk, hheld]

@[simp] theorem speedOk_arrivePressure (cfg : Cfg) (m : PressureMsg) (now : Tick) (t : InputTable) :
    speedOk cfg (t.arrivePressure m now) = speedOk cfg t := by
  have hheld : (t.arrivePressure m now).held.drive = t.held.drive := by
    simp only [InputTable.arrivePressure]
    split <;> rfl
  simp [speedOk, hheld]

/-- The record holds the status of the pressure just heard. -/
@[simp] theorem InputTable.arrivePressure_latestStatus (m : PressureMsg) (now : Tick) (t : InputTable) :
    (t.arrivePressure m now).pressure.latestStatus = some m.status := rfl

/-- A pressure heard OK is held, each value clamped (R55). -/
theorem InputTable.arrivePressure_held (m : PressureMsg) (now : Tick) (t : InputTable) (hok : m.status = .ok) :
    (t.arrivePressure m now).held.pressure = some ⟨min m.ph 40000, min m.pr 40000⟩ := by
  simp [InputTable.arrivePressure, hok]

/-- SENSOR right after a pressure heard OK and in range is a test of the angle alone (R12). -/
theorem sensorOk_arrivePressure_iff (m : PressureMsg) (now : Tick) (t : InputTable) (r : ChanRec)
    (hok : m.status = .ok) (hph : m.ph ≤ 40000) (hpr : m.pr ≤ 40000) :
    sensorOk (t.arrivePressure m now) r = true ↔ r.latestStatus = some .ok ∧ r.overRange.f1 = false := by
  simp [sensorOk_iff, InputTable.arrivePressure, ChanRec.arrive, overNat, hok, hph, hpr]

/-- A sample that passes the gate right after a pressure was heard finds that pressure held: SENSOR fails any other
status (R12). -/
theorem InputTable.arrivePressure_held_of_gate (cfg : Cfg) (m : PressureMsg) (now : Tick) (t : InputTable) (r : ChanRec)
    (hg : gate cfg (t.arrivePressure m now) r now = none) :
    (t.arrivePressure m now).held.pressure = some ⟨min m.ph 40000, min m.pr 40000⟩ := by
  obtain ⟨-, -, hsensor, -⟩ := (gate_eq_none_iff ..).mp hg
  obtain ⟨hstatus, -⟩ := (sensorOk_iff ..).mp hsensor
  exact t.arrivePressure_held m now (by simpa using hstatus)

/-! ## A sample in the open window (R7-R9) -/

section Window

variable {cfg : Cfg} {t : InputTable} {now : Tick} {e : Engine} {l : Latched} {r : ChanRec} {theta : Int}

/-- A sample in the open window that fails a check raises that tally and does nothing else (R9). -/
theorem Engine.sample_of_gate_fails {f : GateFail} (hopen : e.isOpen = true) (hl : e.latched = some l)
    (hsel : t.selected = some (r, theta)) (hlo : l.geom.thetaS ≤ theta) (hhi : theta < l.geom.thetaE)
    (hg : gate cfg t r now = some f) : e.sample cfg t now = { e with tallies := e.tallies.raise f } := by
  simp [Engine.sample, hopen, hl, hsel, hlo, hhi, hg]

/-- A sample in the open window that passes the checks is accepted with the held pressure (R9, R18). -/
theorem Engine.sample_of_gate_passes {v : PressureVal} (hopen : e.isOpen = true) (hl : e.latched = some l)
    (hsel : t.selected = some (r, theta)) (hlo : l.geom.thetaS ≤ theta) (hhi : theta < l.geom.thetaE)
    (hg : gate cfg t r now = none) (hv : t.held.pressure = some v) : e.sample cfg t now = e.accept l theta v := by
  simp [Engine.sample, hopen, hl, hsel, hlo, hhi, hg, hv]

end Window

/-! ## A bin with room and a full one (R14, R16, R19) -/

/-- The segment of an angle, by its number (R16). -/
theorem Geom.segment_eq (g : Geom) (theta : Int) (k : Fin 15)
    (hk : k.val = min 14 ((theta - g.thetaS) / g.step).toNat) : g.segment theta = k := Fin.ext hk.symm

/-- An accepted sample enters the bin of its segment where that has room (R14, R19). -/
theorem Engine.accept_of_room (l : Latched) (theta : Int) (v : PressureVal) (e : Engine) (k : Fin 15)
    (husable : l.usable = true) (hk : l.geom.segment theta = k) (hroom : (e.bins[k]).count < 255) :
    e.accept l theta v = { e with bins := e.bins.set k ((e.bins[k]).add
      (l.geom.force v - interpolate l.set.e k (l.geom.remainder theta) l.geom.step)
      (interpolate l.set.l k (l.geom.remainder theta) l.geom.step
        - interpolate l.set.e k (l.geom.remainder theta) l.geom.step)) } := by
  subst hk
  have hnot : ¬255 ≤ (e.bins[l.geom.segment theta]).count := Nat.not_le.mpr hroom
  simp only [Engine.accept, husable, Bool.not_true, Bool.false_eq_true, if_false, if_neg hnot]

/-- At 255 samples the bin is full: the sample is tallied BINFULL and every bin stands (R14). -/
theorem Engine.accept_of_full (l : Latched) (theta : Int) (v : PressureVal) (e : Engine) (k : Fin 15)
    (husable : l.usable = true) (hk : l.geom.segment theta = k) (hfull : 255 ≤ (e.bins[k]).count) :
    e.accept l theta v = { e with tallies := { e.tallies with binfull := bump e.tallies.binfull } } := by
  subst hk
  simp only [Engine.accept, husable, Bool.not_true, Bool.false_eq_true, if_false, if_pos hfull]

/-- The bins are empty at a window's open (R2). -/
theorem Engine.openWindow_count (cfg : Cfg) (idx : Fin 4) (set : CurveSet) (k : Fin 15) :
    ((Engine.openWindow cfg idx set).bins[k]).count = 0 := by
  simp [Engine.openWindow, Bin.empty]

/-! ## A LIFT PRESSURE at the engine (R53, R63) -/

/-- The pressure telegram that a data field spells (R182). -/
def pressureMsgOf (data : List Byte) : PressureMsg :=
  ⟨byteAt data 0, nat16 data 1, nat16 data 3, pressureStatus (nat8 data 5)⟩

/-- What is asked of a LIFT PRESSURE that the part hears from its source is asked of a part whose input table has taken
the arrival and whose engine has then taken the sample. -/
theorem gives_liftPressure (s : State) (src dst : Byte) (data : List Byte) (P : Chip → Prop)
    (hears : s.chip.Hears src dst data) (hsrc : src.toNat = s.chip.cfg.srcPressure) (hlen : 6 ≤ data.length)
    (h : ∀ d : Chip, d.inp = s.chip.inp.arrivePressure (pressureMsgOf data) s.chip.tick →
      d.eng = s.chip.eng.sample s.chip.cfg d.inp s.chip.tick → P d) :
    Gives (.liftPressure src dst data) s P := by
  refine gives_act _ s (Chip.whenUp (Chip.receive 0x08 src dst data)) P rfl ?_
  rw [Chip.pressure_path s src dst data hears hsrc hlen]
  exact h _ (by simp [Chip.pressureArrival, pressureMsgOf]) (by simp [Chip.pressureArrival, Chip.cfg])

/-! ## The obligations -/

/-- Settles O19: the gate passes, so the sample is accepted, and its bin has room. -/
theorem sampleEntersItsBin : Obligations.SampleEntersItsBin := by
  unfold Obligations.SampleEntersItsBin
  intro s src dst data l r theta w at_ k hears hsrc hlen hstatus hph hpr hopen hl husable hsel hlo hhi homega hwmin hwmax
    htick hage hrstatus hrover hdis hincl hspeed hk hroom
  refine gives_liftPressure s src dst data _ hears hsrc hlen fun d hinp heng => ?_
  have hok : (pressureMsgOf data).status = .ok := by simp [pressureMsgOf, hstatus, pressureStatus]
  have hgate : gate s.chip.cfg d.inp r s.chip.tick = none := by
    rw [hinp, gate_eq_none_iff, sensorOk_arrivePressure_iff _ _ _ _ hok hph hpr, rateOk_arrivePressure, rateOk_iff,
      ageOk_iff, inclineOk_arrivePressure, speedOk_arrivePressure]
    exact ⟨⟨w, homega, hwmin, hwmax⟩, ⟨at_, htick, hage⟩, ⟨hrstatus, hrover⟩, hdis, hincl, hspeed⟩
  have hheld : d.inp.held.pressure = some ⟨nat16 data 1, nat16 data 3⟩ := by
    rw [hinp, InputTable.arrivePressure_held _ _ _ hok]
    simp [pressureMsgOf, hph, hpr]
  have hsel' : d.inp.selected = some (r, theta) := by rw [hinp, InputTable.arrivePressure_selected, hsel]
  have hseg := l.geom.segment_eq theta k hk
  rw [heng, Engine.sample_of_gate_passes hopen hl hsel' hlo hhi hgate hheld,
    Engine.accept_of_room l theta _ _ k husable hseg hroom]
  simp only [Geom.remainder, hseg]
  rfl

/-- Settles O20: the checks and the gate by their lemmas, and a sample of the open window either raises the tally of the
check that fails or is accepted. -/
theorem gateTalliesTheFirstFailure : Obligations.GateTalliesTheFirstFailure := by
  unfold Obligations.GateTalliesTheFirstFailure
  refine ⟨fun cfg t r now => ?_, Engine.openWindow_count, ?_⟩
  · obtain ⟨hrate, hage, hsensor, hdis, hincl, hspeed⟩ := gate_eq_first_failure cfg t r now
    exact ⟨hrate, hage, hsensor, hdis, hincl, hspeed, gate_eq_none_iff .., rateOk_iff .., ageOk_iff .., sensorOk_iff ..,
      inclineOk_iff_of_fresh cfg t, inclineOk_iff_of_not_fresh cfg t, speedOk_iff_of_fresh cfg t,
      speedOk_iff_of_not_fresh cfg t⟩
  · intro s src dst data l r theta hears hsrc hlen hopen hl hsel hlo hhi
    refine gives_liftPressure s src dst data _ hears hsrc hlen fun d hinp heng => ?_
    have hsel' : d.inp.selected = some (r, theta) := by rw [hinp, InputTable.arrivePressure_selected, hsel]
    refine ⟨fun k hgate husable hk => ?_, fun f hgate => ?_⟩
    · have hheld := InputTable.arrivePressure_held_of_gate s.chip.cfg _ _ _ r (hinp ▸ hgate)
      have hseg := l.geom.segment_eq theta k hk
      rw [heng, Engine.sample_of_gate_passes hopen hl hsel' hlo hhi hgate (hinp ▸ hheld)]
      refine ⟨fun hroom => ?_, fun hfull => ?_⟩
      · rw [Engine.accept_of_room l theta _ _ k husable hseg hroom]
        refine ⟨rfl, by simp [Bin.add], fun j hj => ?_⟩
        have hne : k.val ≠ j.val := fun h => hj (Fin.ext h.symm)
        simp [Vector.getElem_set_ne, hne]
      · rw [Engine.accept_of_full l theta _ _ k husable hseg hfull]
        rfl
    · rw [heng, Engine.sample_of_gate_fails hopen hl hsel' hlo hhi hgate]
      refine ⟨rfl, ?_⟩
      cases f <;> rfl

end Sys2Proof.Machine

/-! SUPPORT and PROOFS. The effect of every command on the part, the step seen through it, and the statements about step,
completion and reset. -/

namespace Sys2Proof.Machine

set_option Elab.async false

/-! ## The effect of a command -/

/-- The effect of a command on the part; the queue is the step's. -/
def effect : Instr → Chip → Chip
  | .liftPressure src dst data => Chip.whenUp (Chip.receive 0x08 src dst data)
  | .boomAngle src dst data => Chip.whenUp (Chip.receive 0x09 src dst data)
  | .bucketTilt src dst data => Chip.whenUp (Chip.receive 0x0A src dst data)
  | .chassisIncline src dst data => Chip.whenUp (Chip.receive 0x0B src dst data)
  | .driveState src dst data => Chip.whenUp (Chip.receive 0x0C src dst data)
  | .truckTag src dst data => Chip.whenUp (Chip.receive 0x10 src dst data)
  | .weigherStatus src dst data => Chip.whenUp (Chip.receive 0x20 src dst data)
  | .truckStatus src dst data => Chip.whenUp (Chip.receive 0x21 src dst data)
  | .passRecord src dst data => Chip.whenUp (Chip.receive 0x22 src dst data)
  | .truckClosed src dst data => Chip.whenUp (Chip.receive 0x23 src dst data)
  | .counterRequest src dst data => Chip.whenUp (Chip.receive 0x24 src dst data)
  | .counterReport src dst data => Chip.whenUp (Chip.receive 0x25 src dst data)
  | .diagRequest src dst data => Chip.whenUp (Chip.receive 0x26 src dst data)
  | .diagReport src dst data => Chip.whenUp (Chip.receive 0x27 src dst data)
  | .configWrite src dst data => Chip.whenUp (Chip.receive 0x30 src dst data)
  | .configCommit src dst data => Chip.whenUp (Chip.receive 0x31 src dst data)
  | .configStatus src dst data => Chip.whenUp (Chip.receive 0x32 src dst data)
  | .unknownKindTelegram kind src dst data => Chip.whenUp (Chip.receiveUnknown kind src dst data)
  | .receiveFailure run => Chip.whenUp (Chip.receiveFailure run)
  | .settleGapComplete => Chip.whenUp Chip.settleGapComplete
  | .dominantDuringDelay => Chip.whenUp Chip.dominantDuringDelay
  | .accessDelayEnd => Chip.whenUp Chip.accessDelayEnd
  | .telegramSent => Chip.whenUp Chip.telegramSent
  | .readbackMismatch bit => Chip.whenUp (Chip.readbackMismatch bit)
  | .quietTimerExpiry => Chip.whenUp Chip.quietTimerExpiry
  | .staleExpiry i => Chip.whenUp (Chip.staleExpiry i)
  | .lossTimerExpiry i => Chip.whenUp (Chip.lossTimerExpiry i)
  | .rateTimerExpiry => Chip.whenUp Chip.rateTimerExpiry
  | .fillEmptyTimerExpiry => Chip.whenUp Chip.fillEmptyExpiry
  | .carryTimerExpiry => Chip.whenUp Chip.carryExpiry
  | .inputLossTimerExpiry side => Chip.whenUp (Chip.inputLossExpiry side)
  | .truckStatusRefresh => Chip.whenUp Chip.truckStatusRefresh
  | .counterPollTimer => Chip.whenUp Chip.counterPollTimer
  | .keyLineChange k low => Chip.keyLineChange k low
  | .keyDebounceExpiry k => Chip.whenUp (Chip.keyDebounceExpiry k)
  | .longPress => Chip.whenUp Chip.longPress
  | .repeatStep => Chip.whenUp Chip.repeatStep
  | .frameTimer => Chip.whenUp Chip.frameTimer
  | .blinkTimer => Chip.whenUp Chip.blinkTimer
  | .historyViewTimer => Chip.whenUp Chip.historyViewTimer
  | .messageTimer => Chip.whenUp Chip.messageTimer
  | .buzzerPhaseEnd => Chip.whenUp Chip.buzzerPhaseEnd
  | .maskTimerExpiry a => Chip.whenUp (Chip.maskTimerExpiry a)
  | .statusTimerExpiry => Chip.whenUp Chip.statusTimerExpiry
  | .peerRecordRemoval station => Chip.whenUp (Chip.peerRecordRemoval station)
  | .watchTimerExpiry => Chip.whenUp Chip.watchTimerExpiry
  | .listenTimerExpiry => Chip.whenUp Chip.listenTimerExpiry
  | .pairingTimerExpiry => Chip.whenUp Chip.pairingTimerExpiry
  | .storeWriteComplete => Chip.storeWriteComplete
  | .startWindowEnd => Chip.whenUp Chip.startWindowEnd
  | .supplyFallsLow volts => Chip.supplyFallsLow volts
  | .supplyRisesOk volts straps => Chip.supplyRisesOk volts straps
  | .ignLineChange high => Chip.ignLineChange high
  | .ignitionChange => Chip.ignitionChange
  | .peekTimerExpiry => Chip.whenUp Chip.peekTimerExpiry
  | .regulatorFail volts => Chip.regulatorFail volts
  | .coldStart volts straps => Chip.coldStart volts straps
  | .resetAssert => Chip.resetAssert
  | .resetRelease straps => Chip.resetRelease straps
  | .ignitionOffAfterStart => Chip.whenUp Chip.ignitionOffAfterStart
  | .bklPeriodStart => Chip.whenUp Chip.bklPeriodStart

/-- Every command answers the next state with its effect on the part and the queue as it stood. -/
theorem exec_eq_effect (i : Instr) (s : State) : exec i s = .next { s with chip := effect i s.chip } := by
  cases i <;> rfl

/-- A command gives what its effect gives. -/
theorem gives_effect (i : Instr) (s : State) (P : Chip → Prop) (h : P (effect i s.chip)) : Gives i s P :=
  ⟨_, exec_eq_effect i s, rfl, h⟩

/-! ## The step -/

/-- The part after a step: with the effect of a command, or one millisecond later. -/
theorem step_chip (s t : State) (h : step s = .next t) :
    t.chip = s.chip.passTime ∨ ∃ i, t.chip = effect i s.chip := by
  unfold step at h
  split at h
  · cases h
    exact .inl rfl
  · rw [exec_eq_effect] at h
    cases h
    exact .inr ⟨_, rfl⟩

/-- A property that the passing of time and every command keep is kept by every step. -/
theorem kept_of_effect {P : Chip → Prop} (ht : ∀ c, P c → P c.passTime) (he : ∀ i c, P c → P (effect i c)) : Kept P := by
  intro s t hs hstep
  rcases step_chip s t hstep with h | ⟨i, h⟩
  · rw [h]
    exact ht _ hs
  · rw [h]
    exact he i _ hs

/-- Settles O1: the queue is not empty, so the step takes its front. -/
theorem stepRunsTheFrontCommand : Obligations.StepRunsTheFrontCommand := by
  unfold Obligations.StepRunsTheFrontCommand
  intro i rest s h
  simp only [step, h]

/-- Settles O2: time passes by the part's life. -/
theorem emptyQueuePassesOneMillisecond : Obligations.EmptyQueuePassesOneMillisecond := by
  unfold Obligations.EmptyQueuePassesOneMillisecond
  intro s h
  simp only [step, h, Chip.passTime]
  cases hl : s.chip.sup.life <;> simp

/-- Settles O3: every command has an effect, and an empty queue passes time. -/
theorem everyCommandCompletes : Obligations.EveryCommandCompletes := by
  unfold Obligations.EveryCommandCompletes
  refine ⟨exec_next, fun s => ?_⟩
  unfold State.safe step
  split
  · exact ⟨_, rfl⟩
  · exact ⟨_, exec_eq_effect _ _⟩

/-! ## Reset -/

/-- The COLD start of the blank part, evaluated. -/
theorem coldStart_blank : (Chip.unpowered Pins.idle StoreArray.blank).coldStart 240 ⟨1, false⟩ = Chip.reset := by
  decide +kernel

/-- Settles O4: the cold start of the blank part runs to State.reset, whose figures lie within their ranges. -/
theorem resetIsALawfulColdStart : Obligations.ResetIsALawfulColdStart := by
  unfold Obligations.ResetIsALawfulColdStart
  refine ⟨?_, ?_, ?_, ?_, ?_, ?_, ?_, ?_, ?_, ?_⟩
  · rw [exec_eq_effect, effect, coldStart_blank, State.reset]
  · simp [Link.inRange, Chip.reset, Link.reset, Link.headInHand]
  · simp [Chip.keptInRange, Chip.passesInRange, Retained.inRange, Chip.retained, Chip.reset, LoadRegister.reset, ringInRange,
      seqsBelow, ShiftCounters.inRange, ShiftCounters.zero, LifeCounters.inRange, LifeCounters.zero, Settings.inRange,
      Panel.reset, Settings.lost, ParamStore.reset, StoreArray.blank, Tracker.start, InputTable.start, HeldValues.none]
  · simp [ParamStore.configInRange, Cfg.inRange, Chip.reset, ParamStore.reset, StoreArray.blank, Cfg.fallback, Cfg.defaults]
  · simp [Chip.passAndWindow, Chip.reset, Tracker.start, Engine.start, CalUnit.start, Supply.reset]
  · simp [Engine.inRange, Chip.reset, Engine.start, Bin.empty, Tallies.zero]
  · intro a
    cases a <;> simp [Chip.reset, AlarmUnit.start, AlarmUnit.get, AlarmRec.start]
  · refine ⟨fun a => ?_, by simp [Chip.reset, RoleArbiter.reset], by simp [Chip.reset, RoleArbiter.reset]⟩
    cases a <;> decide
  · simp [Chip.supplyAgrees, Chip.reset, Supply.reset, Pins.idle]
  · simp [Chip.delaysLawfully, Chip.reset, Link.reset]

end Sys2Proof.Machine

/-! SUPPORT. The ranges of the link controller's figures, operation by operation. -/

namespace Sys2Proof.Machine

set_option Elab.async false

theorem satAdd_le (m a b : Nat) : satAdd m a b ≤ m := Nat.min_le_left _ _
theorem bump_le (n : Nat) : bump n ≤ 65535 := satAdd_le _ _ _

/-- Counters and slots as they stood, fewer telegrams in the queue. -/
theorem Link.inRange.joined {l : Link} (h : l.inRange) (t : OutTg) (ht : t.data.length ≤ 12) : (l.joined t).inRange := by
  obtain ⟨hq, hd, hw, hs, ha, hh, hdis, hc, hf, hl, hx, hqd, hqe⟩ := h
  have hdrop : ∀ x ∈ l.queue.drop 1 ++ [t], x.data.length ≤ 12 := by
    intro x hx
    rcases List.mem_append.1 hx with m | m
    · exact hd x (List.mem_of_mem_drop m)
    · rw [List.mem_singleton.1 m]
      exact ht
  have hkeep : ∀ x ∈ l.queue.take 1 ++ l.queue.drop 2 ++ [t], x.data.length ≤ 12 := by
    intro x hx
    rcases List.mem_append.1 hx with m | m
    · rcases List.mem_append.1 m with m | m
      · exact hd x (List.mem_of_mem_take m)
      · exact hd x (List.mem_of_mem_drop m)
    · rw [List.mem_singleton.1 m]
      exact ht
  have hall : ∀ x ∈ l.queue ++ [t], x.data.length ≤ 12 := by
    intro x hx
    rcases List.mem_append.1 hx with m | m
    · exact hd x m
    · rw [List.mem_singleton.1 m]
      exact ht
  unfold Link.joined
  split
  · exact ⟨by simp; omega, hall, hw, hs, ha, by simp, hdis, hc, hf, hl, hx, hqd, hqe⟩
  · split
    · exact ⟨by simp; omega, hkeep, hw, hs, ha, by simp, hdis, hc, hf, hl, hx, Nat.min_le_left _ _, hqe⟩
    · refine ⟨by simp; omega, hdrop, hw, hs, ?_, by simp, hdis, hc, hf, hl, hx, Nat.min_le_left _ _, hqe⟩
      intro x
      dsimp only
      split
      · simp
      · exact ha x

theorem Link.inRange.enqueue {l : Link} (h : l.inRange) (t : OutTg) (ht : t.data.length ≤ 12) : (l.enqueue t).inRange := by
  rw [Link.enqueue_joined]
  exact h.joined t ht

theorem Link.inRange.writeW {l : Link} (h : l.inRange) (t : OutTg) (ht : t.data.length ≤ 12) : (l.writeW t).inRange := by
  obtain ⟨hq, hd, hw, hs, rest⟩ := h
  exact ⟨hq, hd, by simpa [Link.writeW] using ht, hs, rest⟩

theorem Link.inRange.writeT {l : Link} (h : l.inRange) (t : OutTg) (ht : t.data.length ≤ 12) : (l.writeT t).inRange := by
  obtain ⟨hq, hd, hw, hs, rest⟩ := h
  exact ⟨hq, hd, hw, by simpa [Link.writeT] using ht, rest⟩

theorem Link.inRange.abandonCopy {l : Link} (h : l.inRange) (ours : Origin → Bool) : (l.abandonCopy ours).inRange := by
  unfold Link.abandonCopy
  split
  · exact h
  · next x hx =>
    obtain ⟨hq, hd, hw, hs, ha, hh, rest⟩ := h
    split
    · split
      · exact ⟨hq, hd, hw, hs, by simpa using ha x hx, by simpa [Link.headInHand, hx] using hh, rest⟩
      · exact ⟨hq, hd, hw, hs, by simp, by simp [Link.headInHand], rest⟩
    · exact ⟨hq, hd, hw, hs, ha, hh, rest⟩

theorem Link.inRange.emptyW {l : Link} (h : l.inRange) : l.emptyW.inRange := by
  obtain ⟨hq, hd, hw, hs, ha, hh, rest⟩ := h.abandonCopy Origin.isW
  exact ⟨hq, hd, by simp [Link.emptyW], hs, ha, hh, rest⟩

theorem Link.inRange.emptyT {l : Link} (h : l.inRange) : l.emptyT.inRange := by
  obtain ⟨hq, hd, hw, hs, ha, hh, rest⟩ := h.abandonCopy Origin.isT
  exact ⟨hq, hd, hw, by simp [Link.emptyT], ha, hh, rest⟩

/-- Queue empty, and the head of the queue is not in hand. -/
theorem Link.inRange.emptyQueue {l : Link} (h : l.inRange) : l.emptyQueue.inRange := by
  obtain ⟨hq, hd, hw, hs, ha, hh, rest⟩ := h
  unfold Link.emptyQueue
  cases hb : l.headInHand
  · exact ⟨by simp, by simp, hw, hs, ha, by simpa [Link.headInHand] using hb, rest⟩
  · exact ⟨by simp, by simp, hw, hs, by simp, by simp [Link.headInHand], rest⟩

theorem Link.inRange.choose {l : Link} (h : l.inRange) : l.choose.inRange := by
  obtain ⟨hq, hd, hw, hs, ha, hh, rest⟩ := h
  unfold Link.choose
  split
  · next x hx =>
    have hx' : l.inHand = some x := Option.eq_some_of_filter_eq_some hx
    exact ⟨hq, hd, hw, hs, by simpa using ha x hx', by simpa [Link.headInHand, hx'] using hh, rest⟩
  · split
    · next hne => exact ⟨hq, hd, hw, hs, by simp, fun _ => by simpa using hne, rest⟩
    · split
      · exact ⟨hq, hd, by simp, hs, by simp, by simp [Link.headInHand], rest⟩
      · exact ⟨hq, hd, hw, by simp, by simp, by simp [Link.headInHand], rest⟩
      · exact ⟨hq, hd, hw, hs, by simp, by simp [Link.headInHand], rest⟩

theorem Link.inRange.opportunity {l : Link} (h : l.inRange) : l.opportunity.inRange := by
  unfold Link.opportunity
  dsimp only
  split <;> exact h.choose

theorem Link.inRange.handEmpty {l : Link} (h : l.inRange) : ({ l with inHand := none } : Link).inRange := by
  obtain ⟨hq, hd, hw, hs, ha, hh, rest⟩ := h
  exact ⟨hq, hd, hw, hs, by simp, by simp [Link.headInHand], rest⟩

theorem Link.inRange.settle {l : Link} (h : l.inRange) (m : Bool) : (l.settle m).inRange := by
  unfold Link.settle
  (repeat' split) <;> first | exact h | exact h.handEmpty | exact h.opportunity

theorem Link.inRange.leaveHand {l : Link} (h : l.inRange) : l.leaveHand.inRange := by
  obtain ⟨hq, hd, hw, hs, ha, hh, rest⟩ := h
  unfold Link.leaveHand
  split
  · exact ⟨by simp; omega, fun t m => hd t (List.mem_of_mem_drop m), hw, hs, by simp, by simp [Link.headInHand], rest⟩
  · exact ⟨hq, hd, hw, hs, by simp, by simp [Link.headInHand], rest⟩

theorem Link.inRange.sent {l : Link} (h : l.inRange) : l.sent.inRange := by
  obtain ⟨hq, hd, hw, hs, ha, hh, hdis, rest⟩ := h.leaveHand
  exact ⟨hq, hd, hw, hs, ha, hh, by simp [Link.sent], rest⟩

theorem Link.inRange.discard {l : Link} (h : l.inRange) (now : Tick) : (l.discard now).inRange := by
  obtain ⟨hq, hd, hw, hs, ha, hh, hdis, hc, hf, hl, hx, hqd, hqe⟩ := h.leaveHand
  unfold Link.discard
  dsimp only
  split
  · exact ⟨hq, hd, hw, hs, ha, hh, satAdd_le _ _ _, hc, hf, hl, bump_le _, hqd, bump_le _⟩
  · exact ⟨hq, hd, hw, hs, ha, hh, satAdd_le _ _ _, hc, hf, hl, bump_le _, hqd, hqe⟩

theorem Link.inRange.attemptFailed {l : Link} (h : l.inRange) (now : Tick) : (l.attemptFailed now).inRange := by
  unfold Link.attemptFailed
  split
  · exact h
  · next x hx =>
    split
    · exact h.handEmpty
    · split
      · exact h.discard now
      · next h3 =>
        obtain ⟨hq, hd, hw, hs, ha, hh, rest⟩ := h
        refine ⟨hq, hd, hw, hs, ?_, by simpa [Link.headInHand, hx] using hh, rest⟩
        intro y hy
        cases hy
        dsimp only
        omega

theorem Link.inRange.takeOver {l : Link} (h : l.inRange) (bit : Nat) : (l.takeOver bit).inRange := by
  obtain ⟨hq, hd, hw, hs, ha, hh, hdis, hc, hf, rest⟩ := h
  unfold Link.takeOver
  (repeat' split)
  · exact ⟨hq, hd, hw, hs, ha, hh, hdis, hc, hf, rest⟩
  · exact ⟨hq, hd, hw, hs, ha, hh, hdis, hc, bump_le _, rest⟩
  · exact ⟨hq, hd, hw, hs, ha, hh, hdis, hc, hf, rest⟩
  · exact ⟨hq, hd, hw, hs, ha, hh, hdis, hc, hf, rest⟩

theorem Link.inRange.mismatch {l : Link} (h : l.inRange) (bit : Nat) (now : Tick) : (l.mismatch bit now).inRange := by
  have h' : ({ l.takeOver bit with
      lastAbort := if bit / 10 < 5 then .collision else .bitError
      access := .gap, gapDone := false, driven := [] } : Link).inRange := h.takeOver bit
  exact h'.attemptFailed now

/-- Queue, slots and telegram in hand empty, and discards as they stood or 0. -/
theorem Link.inRange.clear {l : Link} (h : l.inRange) : l.clear.inRange := by
  obtain ⟨hq, hd, hw, hs, ha, hh, hdis, rest⟩ := h
  refine ⟨by simp [Link.clear], by simp [Link.clear], by simp [Link.clear], by simp [Link.clear], by simp [Link.clear],
    by simp [Link.clear, Link.headInHand], ?_, rest⟩
  unfold Link.clear
  dsimp only
  split <;> omega

theorem Link.inRange.hold {l : Link} (h : l.inRange) : l.hold.inRange := h.clear
theorem Link.inRange.doze {l : Link} (h : l.inRange) (w : Bool) : (l.doze w).inRange := h.clear

theorem Link.inRange.undiscarded {l : Link} (h : l.inRange) : ({ l with discards := 0 } : Link).inRange := by
  obtain ⟨hq, hd, hw, hs, ha, hh, hdis, rest⟩ := h
  exact ⟨hq, hd, hw, hs, ha, hh, by simp, rest⟩

theorem Link.inRange.redoze {l : Link} (h : l.inRange) : l.redoze.inRange := by
  unfold Link.redoze
  split
  · exact h.undiscarded
  · exact h

theorem Link.inRange.resume {l : Link} (h : l.inRange) : l.resume.inRange := h.clear.undiscarded

theorem Link.start_inRange (s : Straps) : (Link.start s).inRange := by
  simp [Link.inRange, Link.start, Link.headInHand]

theorem Link.inRange.held {l : Link} (h : l.inRange) : l.held.inRange := h

theorem Link.inRange.count {l : Link} (h : l.inRange) (e : RxError) : (l.count e).inRange := by
  obtain ⟨hq, hd, hw, hs, ha, hh, hdis, hc, hf, hl, rest⟩ := h
  cases e
  · exact ⟨hq, hd, hw, hs, ha, hh, hdis, hc, bump_le _, hl, rest⟩
  · exact ⟨hq, hd, hw, hs, ha, hh, hdis, hc, hf, bump_le _, rest⟩
  · exact ⟨hq, hd, hw, hs, ha, hh, hdis, bump_le _, hf, hl, rest⟩

theorem Link.inRange.clearCounters {l : Link} (h : l.inRange) : l.clearCounters.inRange := by
  obtain ⟨hq, hd, hw, hs, ha, hh, hdis, rest⟩ := h
  exact ⟨hq, hd, hw, hs, ha, hh, hdis, by simp [Link.clearCounters]⟩

theorem Link.inRange.dominant {l : Link} (h : l.inRange) : l.dominant.inRange := by
  unfold Link.dominant
  split <;> exact h

theorem Link.inRange.delayEnd {l : Link} (h : l.inRange) : l.delayEnd.inRange := by
  unfold Link.delayEnd
  (repeat' split) <;> exact h

theorem Link.inRange.quietEnd {l : Link} (h : l.inRange) (now : Tick) : (l.quietEnd now).inRange := by
  unfold Link.quietEnd
  split
  · exact h.undiscarded
  · exact h

theorem Link.inRange.busTaken {l : Link} (h : l.inRange) : l.busTaken.inRange := by
  unfold Link.busTaken
  split <;> exact h

theorem Link.inRange.runEnded {l : Link} (h : l.inRange) : l.runEnded.inRange := h.busTaken

theorem Link.inRange.runFailed {l : Link} (h : l.inRange) (e : RxError) : (l.runFailed e).inRange := by
  have h' : (if l.skips then l else l.count e).inRange := by
    split
    · exact h
    · exact h.count e
  unfold Link.runFailed
  cases e <;> exact h'.busTaken

end Sys2Proof.Machine

/-! SUPPORT. The ranges of the weighing engine's bins and tallies and of the configuration, operation by operation. -/

namespace Sys2Proof.Machine

set_option Elab.async false

/-! ## The weighing engine -/

theorem Engine.inRange.openWindow (cfg : Cfg) (idx : Fin 4) (set : CurveSet) : (Engine.openWindow cfg idx set).inRange := by
  simp [Engine.inRange, Engine.openWindow, Bin.empty, Tallies.zero]

theorem Engine.start_inRange : Engine.start.inRange := by
  simp [Engine.inRange, Engine.start, Bin.empty, Tallies.zero]

theorem Engine.inRange.shut {e : Engine} (h : e.inRange) : e.shut.inRange := h

theorem Engine.inRange.raise {e : Engine} (h : e.inRange) (f : GateFail) :
    ({ e with tallies := e.tallies.raise f } : Engine).inRange := by
  obtain ⟨hb, h1, h2, h3, h4, h5, h6, h7⟩ := h
  cases f <;> exact ⟨hb, by simp [Tallies.raise, bump_le, *]⟩

theorem Engine.inRange.accept {e : Engine} (h : e.inRange) (l : Latched) (theta : Int) (v : PressureVal) :
    (e.accept l theta v).inRange := by
  unfold Engine.accept
  split
  · exact h
  · obtain ⟨hb, h1, h2, h3, h4, h5, h6, h7⟩ := h
    dsimp only
    split
    · exact ⟨hb, h1, h2, h3, h4, h5, h6, bump_le _⟩
    · next hroom =>
      refine ⟨fun k => ?_, h1, h2, h3, h4, h5, h6, h7⟩
      by_cases hk : (l.geom.segment theta).val = k.val
      · have hroom' : (e.bins[(l.geom.segment theta).val]).count < 255 := by
          simpa using hroom
        simp [hk, Bin.add]
        simp [hk] at hroom'
        omega
      · simpa [Vector.getElem_set, hk] using hb k

theorem Engine.inRange.sample {e : Engine} (h : e.inRange) (cfg : Cfg) (t : InputTable) (now : Tick) :
    (e.sample cfg t now).inRange := by
  unfold Engine.sample
  (repeat' split) <;> first | exact h | exact h.raise _ | exact h.accept _ _ _

theorem Engine.inRange.close {e : Engine} (h : e.inRange) (cfg : Cfg) (trim : Int) : (e.close cfg trim).2.inRange := by
  unfold Engine.close
  split <;> exact h

/-! ## The configuration and its copies -/

theorem Cfg.inRange_defaults : Cfg.defaults.inRange := by simp [Cfg.inRange, Cfg.defaults]
theorem Cfg.inRange_fallback : Cfg.fallback.inRange := by simp [Cfg.inRange, Cfg.fallback, Cfg.defaults]

theorem natItem_inRange {lo hi : Nat} {v : Int} {f : Nat → Cfg} {w : Cfg} (h : natItem lo hi v f = .written w)
    (hf : ∀ n, lo ≤ n → n ≤ hi → (f n).inRange) : w.inRange := by
  unfold natItem at h
  split at h <;> cases h
  exact hf _ (by omega) (by omega)

theorem intItem_inRange {lo hi v : Int} {f : Int → Cfg} {w : Cfg} (h : intItem lo hi v f = .written w)
    (hf : ∀ n, lo ≤ n → n ≤ hi → (f n).inRange) : w.inRange := by
  unfold intItem at h
  split at h <;> cases h
  next hv => exact hf _ hv.1 hv.2

theorem boolItem_inRange {v : Int} {f : Bool → Cfg} {w : Cfg} (h : boolItem v f = .written w)
    (hf : ∀ b, (f b).inRange) : w.inRange := by
  unfold boolItem at h
  (repeat' split at h) <;> cases h <;> exact hf _

/-- An item is written within its range (R171, Table 10-3). -/
theorem Cfg.inRange.writeItem {c w : Cfg} (hc : c.inRange) (item raw : Nat) (h : c.writeItem item raw = .written w) :
    w.inRange := by
  unfold Cfg.inRange at hc
  unfold Cfg.writeItem at h
  dsimp only at h
  split at h
  case h_33 =>
    split at h
    · cases h
      simp only [Cfg.inRange, hc, and_self, true_or]
    · exact natItem_inRange h fun n h1 h2 => by simp only [Cfg.inRange, hc, h1, h2, and_self, or_true]
  case h_44 =>
    cases h
    exact hc
  case h_45 => cases h
  all_goals
    first
    | exact natItem_inRange h fun n h1 h2 => by simp only [Cfg.inRange, hc, h1, h2, and_self]
    | exact intItem_inRange h fun n h1 h2 => by simp only [Cfg.inRange, hc, h1, h2, and_self]
    | exact boolItem_inRange h fun b => hc

/-- What a write in progress may hold of the configuration, whatever its kind. -/
theorem ParamStore.configInRange.kick {p : ParamStore} (h : p.configInRange) (now : Tick) : (p.kick now).configInRange := by
  obtain ⟨h1, h2, h3, h4, h5⟩ := h
  unfold ParamStore.kick
  split
  · exact ⟨h1, h2, h3, h4, h5⟩
  · split
    · exact ⟨h1, h2, h3, by simp, h5⟩
    · exact ⟨h1, h2, h3, by simp, h5⟩
    · next c _ _ hc =>
      refine ⟨h1, h2, by simp, fun x t hx => ?_, h5⟩
      simp only [Option.some.injEq, Prod.mk.injEq, WriteReq.config.injEq] at hx
      exact hx.1 ▸ h3 c hc
    · exact ⟨h1, h2, h3, h4, h5⟩

theorem ParamStore.configInRange.askRetain {p : ParamStore} (h : p.configInRange) (r : Retained) (now : Tick) :
    (p.askRetain r now).configInRange :=
  ParamStore.configInRange.kick (p := { p with reqRetain := some r }) h now

theorem ParamStore.configInRange.askCurve {p : ParamStore} (h : p.configInRange) (i : Fin 4) (s : CurveSet) (now : Tick) :
    (p.askCurve i s now).configInRange := by
  unfold ParamStore.askCurve
  split
  · exact ParamStore.configInRange.kick (p := { p with reqCurve := some (i, s) }) h now
  · exact h

theorem ParamStore.configInRange.askConfig {p : ParamStore} (h : p.configInRange) (now : Tick) :
    (p.askConfig now).configInRange := by
  obtain ⟨h1, h2, h3, rest⟩ := h
  exact ParamStore.configInRange.kick (p := { p with reqConfig := some p.work }) ⟨h1, h2, by simpa using h2, rest⟩ now

theorem ParamStore.configInRange.finishWrite {p : ParamStore} (h : p.configInRange) : p.finishWrite.configInRange := by
  unfold ParamStore.finishWrite
  split
  · exact h
  · next w t hw =>
    obtain ⟨h1, h2, h3, h4, h5⟩ := h
    refine ⟨h1, h2, h3, by simp, ?_⟩
    cases w with
    | config c => simpa [StoreArray.put] using h4 c t hw
    | curve i s => exact h5
    | retain r => exact h5

theorem ParamStore.configInRange.load {p : ParamStore} (h : p.configInRange) (now : Tick) : (p.load now).configInRange := by
  obtain ⟨h1, h2, h3, h4, h5⟩ := h
  have hread : (p.array.config.getD Cfg.fallback).inRange := by
    cases hc : p.array.config with
    | none => exact Cfg.inRange_fallback
    | some c => exact h5 c hc
  exact ⟨hread, hread, h3, h4, h5⟩

/-- The array alone decides: the rest starts empty. -/
theorem ParamStore.cold_configInRange (a : StoreArray) (now : Tick) (h : ∀ c, a.config = some c → c.inRange) :
    (ParamStore.cold a now).configInRange :=
  ParamStore.configInRange.load (p := _) ⟨Cfg.inRange_fallback, Cfg.inRange_fallback, by simp, by simp, h⟩ now

theorem ParamStore.configInRange.line {p : ParamStore} (h : p.configInRange) (now : Tick) : (p.line now).configInRange := by
  obtain ⟨h1, h2, h3, rest⟩ := h.finishWrite
  have h' : ({ p.finishWrite with reqCurve := none, reqConfig := none } : ParamStore).configInRange :=
    ⟨h1, h2, by simp, rest⟩
  exact (h'.load now).kick now

/-- A write cut off leaves the configuration of the array as it stood, or none (R165). -/
theorem ParamStore.configInRange.arrayAtFail {p : ParamStore} (h : p.configInRange) (now : Tick) :
    ∀ c, (p.arrayAtFail now).config = some c → c.inRange := by
  obtain ⟨h1, h2, h3, h4, h5⟩ := h
  unfold ParamStore.arrayAtFail
  split
  · exact h5
  · next w t hw => 
    cases w with
    | config c => simp [StoreArray.cut]
    | curve i s => exact h5
    | retain r => exact h5

end Sys2Proof.Machine

/-! SUPPORT. The ranges of the retained items: passes, records, the history ring, counters, settings and their saved
copies. -/

namespace Sys2Proof.Machine

set_option Elab.async false

/-! ## The retained items, block by block -/

/-- What the load register holds of Table 10-2. -/
def LoadRegister.inRange (l : LoadRegister) : Prop :=
  (∀ x, l.record = some x → x.inRange) ∧ ringInRange l.nextHist l.history ∧ l.shift.inRange ∧ l.life.inRange
    ∧ 1 ≤ l.nextManual ∧ l.nextManual ≤ 999

/-- The settings and the last pass shown. -/
def Panel.inRange (p : Panel) : Prop := p.settings.inRange ∧ ∀ q, p.lastPass = some q → q.inRange

/-- The pass in flight and the pass last committed. -/
def Tracker.inRange (t : Tracker) : Prop :=
  (∀ x, t.ctx = some x → x.inRange) ∧ ∀ n, t.note = some n → n.pass.inRange

/-- A held tag (Table 3-1). -/
def TagVal.inRange (t : TagVal) : Prop := t.id ≤ 65535 ∧ ∀ n, t.target = some n → 100 ≤ n ∧ n ≤ 50000

/-- The held tag of the input table. -/
def HeldValues.tagInRange (h : HeldValues) : Prop := ∀ t, h.tag = some t → t.inRange

/-- The saved and waiting copies of the retained record. -/
def ParamStore.retainsInRange (p : ParamStore) : Prop :=
  (∀ r, p.reqRetain = some r → r.inRange) ∧ (∀ r t, p.writing = some (.retain r, t) → r.inRange)
    ∧ ∀ r, p.array.retained = some r → r.inRange

/-- The ranges of the retained items are those of five blocks. -/
theorem Chip.keptInRange_iff (c : Chip) :
    c.keptInRange ↔ c.load.inRange ∧ c.panel.inRange ∧ c.trk.inRange ∧ c.inp.held.tagInRange ∧ c.store.retainsInRange := by
  constructor
  · rintro ⟨⟨h1, h2, h3, h4, h5, h6, h7⟩, h8, h9, h10, h11, h12, h13, h14⟩
    exact ⟨⟨h1, h2, h3, h4, h6, h7⟩, ⟨h5, h13⟩, ⟨h11, h12⟩, h14, h8, h9, h10⟩
  · rintro ⟨⟨h1, h2, h3, h4, h6, h7⟩, ⟨h5, h13⟩, ⟨h11, h12⟩, h14, h8, h9, h10⟩
    exact ⟨⟨h1, h2, h3, h4, h5, h6, h7⟩, h8, h9, h10, h11, h12, h13, h14⟩

/-! ## Pass records and contexts -/

theorem PassCtx.open_inRange (k : PassKind) (now : Tick) : (PassCtx.open_ k now).inRange := by
  simp [PassCtx.inRange, PassCtx.open_]

theorem PassCtx.inRange.unweigh {x : PassCtx} (h : x.inRange) : x.unweigh.inRange :=
  ⟨h.1, by simp [PassCtx.unweigh], by simp [PassCtx.unweigh], by simp [PassCtx.unweigh]⟩

theorem PassCtx.inRange.abandon {x : PassCtx} (h : x.inRange) : x.abandon.inRange := by
  have h' : ({ x with reweigh := satAdd 3 x.reweigh 1 } : PassCtx).inRange := ⟨satAdd_le _ _ _, h.2⟩
  unfold PassCtx.abandon
  dsimp only
  split
  · exact h'.unweigh
  · exact h'

theorem fillOf_le (p r : Nat) : fillOf p r ≤ 199 := by
  unfold fillOf clampInt
  omega

/-- A window result with the ranges of Table 1-4. -/
def WindowResult.inRange (w : WindowResult) : Prop :=
  w.bins ≤ 15 ∧ (∀ m, w.payload = some m → m ≤ 9999) ∧ ∀ f, w.fill = some f → f ≤ 199

theorem WindowResult.rejected_inRange (n : Nat) (i : Fin 4) (h : n ≤ 15) : (WindowResult.rejected n i).inRange := by
  simp [WindowResult.inRange, WindowResult.rejected, h]

theorem Engine.populated_length (e : Engine) : e.populated.length ≤ 15 := by
  unfold Engine.populated
  exact Nat.le_trans (List.length_filter_le _ _) (by simp)

theorem weighedResult_inRange (cfg : Cfg) (trim : Int) (l : Latched) (bins : List Bin) (h : bins.length ≤ 15) :
    (weighedResult cfg trim l bins).inRange := by
  refine ⟨h, fun m hm => ?_, fun f hf => ?_⟩
  · simp only [weighedResult, Option.some.injEq] at hm
    unfold clampInt at hm
    omega
  · simp only [weighedResult, Option.some.injEq] at hf
    exact hf ▸ fillOf_le _ _

theorem Engine.close_inRange (cfg : Cfg) (trim : Int) (e : Engine) : (e.close cfg trim).1.inRange := by
  unfold Engine.close
  split
  · unfold Engine.result
    dsimp only
    split
    · exact WindowResult.rejected_inRange _ _ e.populated_length
    · exact weighedResult_inRange _ _ _ _ e.populated_length
  · exact WindowResult.rejected_inRange _ _ (by omega)

theorem PassCtx.inRange.takeResult {x : PassCtx} (h : x.inRange) {w : WindowResult} (hw : w.inRange) :
    (x.takeResult w).inRange := ⟨h.1, hw.1, hw.2.1, hw.2.2⟩

theorem PassCtx.inRange.record {x : PassCtx} (h : x.inRange) (now : Tick) : (x.record now).inRange := by
  have h' : (if x.stage = .candidate then x.unweigh else x).inRange := by
    split
    · exact h.unweigh
    · exact h
  obtain ⟨h1, h2, h3, h4⟩ := h'
  exact ⟨by simp [PassCtx.record], by simp [PassCtx.record], h3, h2, h1, Nat.min_le_left _ _,
    fun f hf => Nat.le_trans (h4 f hf) (by omega)⟩

/-- A pass keeps its ranges under another truck id and number. -/
theorem PassRec.inRange.renumber {p : PassRec} (h : p.inRange) {id n : Nat} (hid : id ≤ 65535) (hn : n ≤ 255) :
    ({ p with truckId := id, number := n } : PassRec).inRange := ⟨hid, hn, h.2.2⟩

theorem PassRec.inRange.amend {p : PassRec} (h : p.inRange) (removed rated : Nat) : (p.amend removed rated).inRange := by
  obtain ⟨h1, h2, h3, h4, h5, h6, h7⟩ := h
  refine ⟨h1, h2, fun m hm => ?_, h4, h5, h6, fun f hf => ?_⟩
  · simp only [PassRec.amend, Option.map_eq_some_iff] at hm
    obtain ⟨a, ha, rfl⟩ := hm
    have := h3 a ha
    omega
  · simp only [PassRec.amend, Option.map_eq_some_iff] at hf
    obtain ⟨a, ha, rfl⟩ := hf
    exact Nat.le_trans (fillOf_le _ _) (by omega)

/-! ## Pass lists -/

theorem replacePass_numbers (p : PassRec) (ps : List PassRec) : numbers (replacePass p ps) = numbers ps := by
  unfold numbers replacePass
  rw [List.map_map]
  refine List.map_congr_left fun q _ => ?_
  simp only [Function.comp_apply]
  split <;> simp_all

theorem replacePass_length (p : PassRec) (ps : List PassRec) : (replacePass p ps).length = ps.length := by
  simp [replacePass]

theorem replacePass_inRange {p : PassRec} (hp : p.inRange) {ps : List PassRec} (h : ∀ q ∈ ps, q.inRange) :
    ∀ q ∈ replacePass p ps, q.inRange := by
  intro q hq
  obtain ⟨a, ha, rfl⟩ := List.mem_map.1 hq
  split
  · exact hp
  · exact h a ha

@[simp] theorem numbers_drop (n : Nat) (ps : List PassRec) : numbers (ps.drop n) = (numbers ps).drop n := by
  simp [numbers, List.map_drop]

@[simp] theorem numbers_append (ps qs : List PassRec) : numbers (ps ++ qs) = numbers ps ++ numbers qs := by simp [numbers]

@[simp] theorem numbers_length (ps : List PassRec) : (numbers ps).length = ps.length := by simp [numbers]

/-- The laws of a pass list of a record with a count (Table 4-2). -/
def passListInRange (count : Nat) (ps : List PassRec) : Prop :=
  ps.length ≤ 12 ∧ ps.length ≤ count ∧ (numbers ps).Nodup ∧ (∀ n ∈ numbers ps, n ≤ count) ∧ ∀ p ∈ ps, p.inRange

theorem TruckRec.inRange_iff (r : TruckRec) :
    r.inRange ↔ passListInRange r.count r.passes ∧ r.count ≤ 255 ∧ r.total ≤ 99999 ∧ r.unweighed ≤ 255 ∧ r.id ≤ 65535
      ∧ targetInRange r.target := by
  unfold TruckRec.inRange passListInRange
  constructor
  · rintro ⟨hlen, hle, hcount, hnodup, hmax, htotal, hunw, hid, htarget, hin⟩
    exact ⟨⟨hlen, hle, hnodup, hmax, hin⟩, hcount, htotal, hunw, hid, htarget⟩
  · rintro ⟨⟨hlen, hle, hnodup, hmax, hin⟩, hcount, htotal, hunw, hid, htarget⟩
    exact ⟨hlen, hle, hcount, hnodup, hmax, htotal, hunw, hid, htarget, hin⟩

theorem passListInRange_nil (n : Nat) : passListInRange n [] := by simp [passListInRange, numbers]

theorem passListInRange.mono {m n : Nat} {ps : List PassRec} (h : passListInRange m ps) (hmn : m ≤ n) :
    passListInRange n ps := by
  obtain ⟨h1, h2, h3, h4, h5⟩ := h
  exact ⟨h1, by omega, h3, fun k hk => Nat.le_trans (h4 k hk) hmn, h5⟩

theorem passListInRange.replace {n : Nat} {ps : List PassRec} (h : passListInRange n ps) {p : PassRec} (hp : p.inRange) :
    passListInRange n (replacePass p ps) := by
  obtain ⟨h1, h2, h3, h4, h5⟩ := h
  refine ⟨?_, ?_, ?_, ?_, replacePass_inRange hp h5⟩
  · rwa [replacePass_length]
  · rwa [replacePass_length]
  · rwa [replacePass_numbers]
  · rwa [replacePass_numbers]

theorem passListInRange.drop {n : Nat} {ps : List PassRec} (h : passListInRange n ps) :
    passListInRange n (ps.drop 1) ∧ (ps.drop 1).length ≤ 11 := by
  obtain ⟨h1, h2, h3, h4, h5⟩ := h
  refine ⟨⟨by simp; omega, by simp; omega, ?_, ?_, fun p hp => h5 p (List.mem_of_mem_drop hp)⟩, by simp; omega⟩
  · rw [numbers_drop]
    exact h3.sublist (List.drop_sublist _ _)
  · rw [numbers_drop]
    exact fun k hk => h4 k (List.mem_of_mem_drop hk)

/-- The list after a pass with the resulting count has joined (R68). -/
theorem passListInRange.joinList {n : Nat} {ps : List PassRec} (h : passListInRange n ps) {p : PassRec} (hp : p.inRange)
    (hn : p.number = satAdd 255 n 1) (h255 : n ≤ 255) : passListInRange (satAdd 255 n 1) (joinList p ps) := by
  have hup : n ≤ satAdd 255 n 1 := by unfold satAdd; omega
  unfold Machine.joinList
  split
  · exact (h.mono hup).replace hp
  · next hc =>
    have hcut : passListInRange n (if 12 ≤ ps.length then ps.drop 1 else ps)
        ∧ (if 12 ≤ ps.length then ps.drop 1 else ps).length ≤ 11
        ∧ (numbers (if 12 ≤ ps.length then ps.drop 1 else ps)) ⊆ numbers ps := by
      split
      · exact ⟨h.drop.1, h.drop.2, by rw [numbers_drop]; exact List.drop_subset _ _⟩
      · exact ⟨h, by omega, fun _ h => h⟩
    generalize (if 12 ≤ ps.length then ps.drop 1 else ps) = qs at hcut
    obtain ⟨⟨h1, h2, h3, h4, h5⟩, hlen, hsub⟩ := hcut
    have hnew : p.number ∉ numbers qs := fun hm => hc (by simpa using hsub hm)
    refine ⟨by simp; omega, ?_, ?_, ?_, ?_⟩
    · simp only [List.length_append, List.length_cons, List.length_nil]
      unfold satAdd
      omega
    · rw [numbers_append]
      exact List.nodup_append.2 ⟨h3, by simp [numbers], by
        intro a ha b hb
        simp only [numbers, List.map_cons, List.map_nil, List.mem_singleton] at hb
        rintro rfl
        exact hnew (hb ▸ ha)⟩
    · intro k hk
      rw [numbers_append, List.mem_append] at hk
      rcases hk with hk | hk
      · exact Nat.le_trans (h4 k hk) hup
      · simp only [numbers, List.map_cons, List.map_nil, List.mem_singleton] at hk
        omega
    · intro q hq
      rcases List.mem_append.1 hq with hq | hq
      · exact h5 q hq
      · rw [List.mem_singleton.1 hq]
        exact hp

theorem insertPass_perm (p : PassRec) (ps : List PassRec) : (insertPass p ps).Perm (p :: ps) := by
  induction ps with
  | nil => exact List.Perm.refl _
  | cons q qs ih =>
    unfold insertPass
    split
    · exact List.Perm.refl _
    · exact (ih.cons q).trans (List.Perm.swap _ _ _)

theorem insertPass_numbers (p : PassRec) (ps : List PassRec) :
    (numbers (insertPass p ps)).Perm (p.number :: numbers ps) := (insertPass_perm p ps).map _

/-- The greatest number of a list is at most m where every one is. -/
theorem foldl_max_le_iff (ns : List Nat) (a m : Nat) : ns.foldl max a ≤ m ↔ a ≤ m ∧ ∀ n ∈ ns, n ≤ m := by
  induction ns generalizing a with
  | nil => simp
  | cons n ns ih => rw [List.foldl_cons, ih, Nat.max_le, List.forall_mem_cons, and_assoc]

theorem le_foldl_max (ns : List Nat) (n : Nat) (h : n ∈ ns) : n ≤ ns.foldl max 0 :=
  ((foldl_max_le_iff ns 0 _).1 (Nat.le_refl _)).2 n h

/-- The raised count covers the list, and stays a byte. -/
theorem raisedCount_facts (count : Nat) (ps : List PassRec) :
    count ≤ raisedCount count ps ∧ ps.length ≤ raisedCount count ps ∧ (∀ n ∈ numbers ps, n ≤ raisedCount count ps)
      ∧ (count ≤ 255 → ps.length ≤ 12 → (∀ n ∈ numbers ps, n ≤ 255) → raisedCount count ps ≤ 255) := by
  unfold raisedCount
  refine ⟨by omega, by omega, fun n hn => ?_, fun h1 h2 h3 => ?_⟩
  · have := le_foldl_max _ n hn
    omega
  · have := (foldl_max_le_iff (numbers ps) 0 255).2 ⟨by omega, h3⟩
    omega

theorem PassRec.number_le {n : Nat} {ps : List PassRec} (h : ∀ p ∈ ps, p.inRange) (hn : n ∈ numbers ps) : n ≤ 255 := by
  obtain ⟨p, hp, rfl⟩ := List.mem_map.1 hn
  exact (h p hp).2.1

/-- A list whose own bounds hold fits its raised count. -/
theorem passListInRange.raised {ps : List PassRec} (count : Nat) (h12 : ps.length ≤ 12) (hnd : (numbers ps).Nodup)
    (hp : ∀ p ∈ ps, p.inRange) : passListInRange (raisedCount count ps) ps :=
  ⟨h12, (raisedCount_facts count ps).2.1, hnd, (raisedCount_facts count ps).2.2.1, hp⟩

/-- The list after a PASS RECORD (R114): at most 12 passes, their numbers distinct. -/
theorem mirrorList_facts {n : Nat} {ps : List PassRec} (h : passListInRange n ps) {p : PassRec} (hp : p.inRange) :
    (mirrorList p ps).length ≤ 12 ∧ (numbers (mirrorList p ps)).Nodup ∧ ∀ q ∈ mirrorList p ps, q.inRange := by
  obtain ⟨h1, h2, h3, h4, h5⟩ := h
  unfold mirrorList
  split
  · exact ⟨by rwa [replacePass_length], by rwa [replacePass_numbers], replacePass_inRange hp h5⟩
  · next hc =>
    have hmem : ∀ q ∈ insertPass p ps, q.inRange := by
      intro q hq
      rcases List.mem_cons.1 ((insertPass_perm p ps).mem_iff.1 hq) with rfl | hq
      · exact hp
      · exact h5 q hq
    have hnd : (numbers (insertPass p ps)).Nodup :=
      (insertPass_numbers p ps).nodup_iff.2 (List.nodup_cons.2 ⟨by simpa using hc, h3⟩)
    have hlen : (insertPass p ps).length ≤ 13 := by
      rw [(insertPass_perm p ps).length_eq, List.length_cons]
      omega
    dsimp only
    split
    · exact ⟨by simp; omega, by rw [numbers_drop]; exact hnd.sublist (List.drop_sublist _ _),
        fun q hq => hmem q (List.mem_of_mem_drop hq)⟩
    · exact ⟨by omega, hnd, hmem⟩

/-! ## Truck records -/

theorem TruckRec.fresh_inRange {id : Nat} {target : Option Nat} (hid : id ≤ 65535) (ht : targetInRange target) :
    (TruckRec.fresh id target).inRange :=
  (TruckRec.inRange_iff _).2 ⟨passListInRange_nil _, by simp [TruckRec.fresh], by simp [TruckRec.fresh],
    by simp [TruckRec.fresh], hid, ht⟩

/-- The flags are no part of the ranges. -/
theorem TruckRec.inRange.evaluate {r : TruckRec} (h : r.inRange) (cfg : Cfg) : (r.evaluate cfg).inRange := h

theorem TruckRec.inRange.numbered {r : TruckRec} (h : r.inRange) {p : PassRec} (hp : p.inRange) :
    (r.numbered p).inRange := by
  obtain ⟨-, -, -, -, hid, -⟩ := (TruckRec.inRange_iff r).1 h
  exact hp.renumber hid (satAdd_le _ _ _)

theorem TruckRec.inRange.join {r : TruckRec} (h : r.inRange) {p : PassRec} (hp : p.inRange) : (r.join p).inRange := by
  obtain ⟨hl, hc, ht, hu, hid, htg⟩ := (TruckRec.inRange_iff r).1 h
  refine (TruckRec.inRange_iff _).2 ⟨hl.joinList (h.numbered hp) rfl hc, satAdd_le _ _ _, satAdd_le _ _ _, ?_, hid, htg⟩
  unfold TruckRec.join
  dsimp only
  split
  · exact satAdd_le _ _ _
  · exact hu

theorem TruckRec.inRange.amend {r : TruckRec} (h : r.inRange) {p : PassRec} (hp : p.inRange) (m : Nat) :
    (r.amend p m).inRange := by
  obtain ⟨hl, hc, ht, hu, hid, htg⟩ := (TruckRec.inRange_iff r).1 h
  exact (TruckRec.inRange_iff _).2 ⟨hl.replace hp, hc, Nat.le_trans (Nat.sub_le _ _) ht, hu, hid, htg⟩

theorem TruckRec.inRange.retarget {r : TruckRec} (h : r.inRange) {t : Option Nat} (ht : targetInRange t) :
    ({ r with target := t } : TruckRec).inRange := by
  obtain ⟨hl, hc, hto, hu, hid, -⟩ := (TruckRec.inRange_iff r).1 h
  exact (TruckRec.inRange_iff _).2 ⟨hl, hc, hto, hu, hid, ht⟩

theorem TruckRec.inRange.adopt {r : TruckRec} (h : r.inRange) : r.adopt.inRange := by
  obtain ⟨hl, hc, ht, hu, hid, htg⟩ := (TruckRec.inRange_iff r).1 h
  obtain ⟨h1, h2, h3, h4, h5⟩ := hl
  exact (TruckRec.inRange_iff _).2 ⟨passListInRange.raised _ h1 h3 h5,
    (raisedCount_facts _ _).2.2.2 hc h1 fun n hn => PassRec.number_le h5 hn, ht, hu, hid, htg⟩

/-- A target that a tag holds is one a record may have. -/
theorem TagVal.inRange.target {t : TagVal} (h : t.inRange) : targetInRange t.target := by
  intro n hn
  have := h.2 n hn
  omega

/-! ## What a telegram may carry -/

theorem nat8_lt (d : List Byte) (i : Nat) : nat8 d i < 256 := (byteAt d i).isLt

theorem nat16_lt (d : List Byte) (i : Nat) : nat16 d i < 65536 := by
  have h1 := nat8_lt d i
  have h2 := nat8_lt d (i + 1)
  unfold nat16
  omega

theorem targetInRange_absentIfZero {n : Nat} (h : n ≤ 65535) : targetInRange (absentIfZero n) := by
  intro m hm
  unfold absentIfZero at hm
  split at hm <;> cases hm
  omega

/-- A data field that is taken has been read. -/
theorem takeData_taken {α : Type} {len : Nat} {d : List Byte} {read : List Byte → Option α} {a : α}
    (h : takeData len d read = .taken a) : len ≤ d.length ∧ read d = some a := by
  unfold takeData at h
  split at h
  · cases h
  · split at h <;> cases h
    exact ⟨by omega, by assumption⟩

theorem readPass_inRange {d : List Byte} {p : PassRec} (h : readPass d = .taken p) : p.inRange := by
  obtain ⟨-, h⟩ := takeData_taken h
  have h0 := nat16_lt d 0
  have h2 := nat8_lt d 2
  have h4 := nat16_lt d 4
  have h6 := nat8_lt d 6
  have h7 := nat16_lt d 7
  have h9 := nat8_lt d 9
  simp only [Option.ite_none_left_eq_some, Option.some.injEq] at h
  obtain ⟨hraw, -, rfl⟩ := h
  refine ⟨by dsimp only; omega, by dsimp only; omega, fun m hm => ?_, by dsimp only; omega, by dsimp only; omega,
    by dsimp only; omega, fun f hf => ?_⟩
  · simp only [Option.ite_none_left_eq_some, Option.some.injEq] at hm
    omega
  · simp only [Option.ite_none_left_eq_some, Option.some.injEq] at hf
    omega

/-- A TRUCK STATUS with the ranges of its fields. -/
def TruckMsg.inRange (m : TruckMsg) : Prop :=
  m.id ≤ 65535 ∧ targetInRange m.target ∧ m.count ≤ 255 ∧ m.unweighed ≤ 255

theorem readTruck_inRange {d : List Byte} {m : TruckMsg} (h : readTruck d = .taken m) : m.inRange := by
  obtain ⟨-, h⟩ := takeData_taken h
  cases h
  exact ⟨Nat.le_of_lt_succ (nat16_lt d 0), targetInRange_absentIfZero (Nat.le_of_lt_succ (nat16_lt d 2)),
    Nat.le_of_lt_succ (nat8_lt d 7), Nat.le_of_lt_succ (nat8_lt d 8)⟩

/-- A TRUCK CLOSED with the ranges of its fields. -/
def ClosedMsg.inRange (m : ClosedMsg) : Prop :=
  m.id ≤ 65535 ∧ targetInRange m.target ∧ m.count ≤ 255 ∧ m.unweighed ≤ 255

theorem readClosed_inRange {d : List Byte} {m : ClosedMsg} (h : readClosed d = .taken m) : m.inRange := by
  obtain ⟨-, h⟩ := takeData_taken h
  simp only [Option.map_eq_some_iff] at h
  obtain ⟨r, -, rfl⟩ := h
  exact ⟨Nat.le_of_lt_succ (nat16_lt d 0), targetInRange_absentIfZero (Nat.le_of_lt_succ (nat16_lt d 2)),
    Nat.le_of_lt_succ (nat8_lt d 7), Nat.le_of_lt_succ (nat8_lt d 8)⟩

theorem readTag_id {d : List Byte} {m : TagMsg} (h : readTag d = .taken m) : m.id ≤ 65535 := by
  obtain ⟨-, h⟩ := takeData_taken h
  cases h
  exact Nat.le_of_lt_succ (nat16_lt d 1)

/-- The target of a held tag is clamped at its arrival (Table 3-1, R55). -/
theorem InputTable.arriveTag_inRange {t : InputTable} (h : t.held.tagInRange) {m : TagMsg} (hm : m.id ≤ 65535)
    (now : Tick) : (t.arriveTag m now).held.tagInRange := by
  unfold InputTable.arriveTag
  dsimp only
  split
  · exact h
  · intro v hv
    cases hv
    refine ⟨hm, fun n hn => ?_⟩
    simp only [Option.map_eq_some_iff] at hn
    obtain ⟨a, -, rfl⟩ := hn
    unfold clampNat
    omega

/-! ## The mirror -/

theorem mirrorRecord_inRange {before : Option TruckRec} (hb : ∀ r, before = some r → r.inRange) {m : TruckMsg}
    (hm : m.inRange) : (mirrorRecord before m).inRange := by
  obtain ⟨hid, ht, hc, hu⟩ := hm
  have hps : ∀ ps : List PassRec, (∃ n, passListInRange n ps) →
      (⟨m.id, m.target, ps, raisedCount m.count ps, m.unweighed, min m.total 99999, m.flags⟩ : TruckRec).inRange := by
    rintro ps ⟨n, h1, h2, h3, h4, h5⟩
    exact (TruckRec.inRange_iff _).2 ⟨passListInRange.raised _ h1 h3 h5,
      (raisedCount_facts _ _).2.2.2 hc h1 fun n hn => PassRec.number_le h5 hn, Nat.min_le_right _ _, hu, hid, ht⟩
  unfold mirrorRecord
  refine hps _ ?_
  cases before with
  | none => exact ⟨0, passListInRange_nil _⟩
  | some r =>
    dsimp only
    split
    · exact ⟨_, ((TruckRec.inRange_iff r).1 (hb r rfl)).1⟩
    · exact ⟨0, passListInRange_nil _⟩

/-- A record that takes a PASS RECORD into its list (R114). -/
theorem TruckRec.inRange.mirrorJoin {r : TruckRec} (h : r.inRange) {p : PassRec} (hp : p.inRange) (b : Bool) :
    ({ r with
      passes := mirrorList p r.passes
      count := raisedCount r.count (mirrorList p r.passes)
      unweighed := if b then satAdd 255 r.unweighed 1 else r.unweighed } : TruckRec).inRange := by
  obtain ⟨hl, hc, ht, hu, hid, htg⟩ := (TruckRec.inRange_iff r).1 h
  obtain ⟨h12, hnd, hin⟩ := mirrorList_facts hl hp
  refine (TruckRec.inRange_iff _).2 ⟨passListInRange.raised _ h12 hnd hin,
    (raisedCount_facts _ _).2.2.2 hc h12 fun n hn => PassRec.number_le hin hn, ht, ?_, hid, htg⟩
  dsimp only
  split
  · exact satAdd_le _ _ _
  · exact hu

theorem mirrorJoin_inRange {before : Option TruckRec} (hb : ∀ r, before = some r → r.inRange) {p : PassRec}
    (hp : p.inRange) : (mirrorJoin before p).inRange := by
  have hfresh : (TruckRec.fresh p.truckId none).inRange := TruckRec.fresh_inRange hp.1 (by simp [targetInRange])
  cases before with
  | none => exact hfresh.mirrorJoin hp _
  | some r =>
    by_cases hid : r.id = p.truckId
    · simpa only [Machine.mirrorJoin, hid, if_true] using (hb r rfl).mirrorJoin hp _
    · simpa only [Machine.mirrorJoin, hid, if_false] using hfresh.mirrorJoin hp _

/-! ## The history ring (R80) -/

theorem seqsBelow_take (n : BitVec 32) (l : List (BitVec 32)) (k : Nat) (h : seqsBelow n l) : seqsBelow n (l.take k) := by
  induction l generalizing n k with
  | nil => simp [seqsBelow]
  | cons s l ih =>
    cases k with
    | zero => simp [seqsBelow]
    | succ k => exact ⟨h.1, ih s k h.2⟩

theorem TruckRec.inRange.summary {r : TruckRec} (h : r.inRange) (reason : CloseReason) : (r.summary reason).inRange := by
  obtain ⟨-, hc, ht, hu, hid, htg⟩ := (TruckRec.inRange_iff r).1 h
  exact ⟨hid, htg, ht, hc, hu⟩

theorem ClosedMsg.inRange.summary {m : ClosedMsg} (h : m.inRange) (seq : BitVec 32) :
    (⟨seq, m.id, m.target, min m.total 99999, m.count, m.unweighed, m.reason, m.amended⟩ : Summary).inRange :=
  ⟨h.1, h.2.1, Nat.min_le_right _ _, h.2.2.1, h.2.2.2⟩

theorem ringInRange.append {next : BitVec 32} {ring : List Summary} (h : ringInRange next ring) {s : Summary}
    (hs : s.inRange) :
    ringInRange (next + 1) ((if 16 ≤ ring.length then ring.drop 1 else ring) ++ [{ s with seq := next }]) := by
  obtain ⟨hlen, hseq, hin⟩ := h
  have hcut : (if 16 ≤ ring.length then ring.drop 1 else ring).length ≤ 15
      ∧ seqsBelow next ((if 16 ≤ ring.length then ring.drop 1 else ring).map Summary.seq).reverse
      ∧ ∀ x ∈ (if 16 ≤ ring.length then ring.drop 1 else ring), x.inRange := by
    split
    · refine ⟨by simp; omega, ?_, fun x hx => hin x (List.mem_of_mem_drop hx)⟩
      rw [List.map_drop, List.reverse_drop]
      exact seqsBelow_take _ _ _ hseq
    · exact ⟨by omega, hseq, hin⟩
  generalize (if 16 ≤ ring.length then ring.drop 1 else ring) = cut at hcut
  obtain ⟨h15, hcs, hci⟩ := hcut
  refine ⟨by simp; omega, ?_, ?_⟩
  · simp only [List.map_append, List.map_cons, List.map_nil, List.reverse_append, List.reverse_cons, List.reverse_nil,
      List.nil_append, List.cons_append]
    exact ⟨BitVec.eq_sub_iff_add_eq.mpr rfl, hcs⟩
  · intro x hx
    rcases List.mem_append.1 hx with hx | hx
    · exact hci x hx
    · rw [List.mem_singleton.1 hx]
      exact hs

/-! ## The load register and the settings -/

theorem LoadRegister.inRange.append {l : LoadRegister} (h : l.inRange) {s : Summary} (hs : s.inRange) :
    (l.append s).inRange := by
  obtain ⟨hr, hring, rest⟩ := h
  exact ⟨hr, hring.append hs, rest⟩

theorem LoadRegister.inRange.setRecord {l : LoadRegister} (h : l.inRange) {r : Option TruckRec}
    (hr : ∀ x, r = some x → x.inRange) : ({ l with record := r } : LoadRegister).inRange := ⟨hr, h.2⟩

theorem LoadRegister.inRange.countTruck {l : LoadRegister} (h : l.inRange) :
    ({ l with shift := { l.shift with trucks := bump l.shift.trucks } } : LoadRegister).inRange := by
  obtain ⟨hr, hring, ⟨s1, s2, s3, s4, s5⟩, rest⟩ := h
  exact ⟨hr, hring, ⟨s1, s2, s3, bump_le _, s5⟩, rest⟩

theorem LoadRegister.inRange.resetShift {l : LoadRegister} (h : l.inRange) :
    ({ l with shift := ShiftCounters.zero } : LoadRegister).inRange := by
  obtain ⟨hr, hring, -, rest⟩ := h
  exact ⟨hr, hring, by simp [ShiftCounters.inRange, ShiftCounters.zero], rest⟩

theorem LoadRegister.inRange.countCommit {l : LoadRegister} (h : l.inRange) (k : PassKind) (payload : Option Nat) :
    (l.countCommit k payload).inRange := by
  obtain ⟨hr, hring, ⟨s1, s2, s3, s4, s5⟩, ⟨l1, l2⟩, rest⟩ := h
  have hup : ∀ m n, n ≤ m → (if k = .normal then satAdd m n 1 else n) ≤ m := by
    intro m n hn
    split
    · exact satAdd_le _ _ _
    · exact hn
  unfold LoadRegister.countCommit
  cases payload with
  | some m =>
    exact ⟨hr, hring, ⟨hup _ _ s1, bump_le _, s3, s4, satAdd_le _ _ _⟩, ⟨hup _ _ l1, satAdd_le _ _ _⟩, rest⟩
  | none => exact ⟨hr, hring, ⟨hup _ _ s1, s2, bump_le _, s4, s5⟩, ⟨hup _ _ l1, l2⟩, rest⟩

theorem LoadRegister.inRange.lowerTonnage {l : LoadRegister} (h : l.inRange) (m : Nat) : (l.lowerTonnage m).inRange := by
  obtain ⟨hr, hring, ⟨s1, s2, s3, s4, s5⟩, ⟨l1, l2⟩, rest⟩ := h
  exact ⟨hr, hring, ⟨s1, s2, s3, s4, Nat.le_trans (Nat.sub_le _ _) s5⟩, ⟨l1, Nat.le_trans (Nat.sub_le _ _) l2⟩, rest⟩

theorem LoadRegister.inRange.nextId {l : LoadRegister} (h : l.inRange) {n : Nat} :
    ({ l with nextManual := Machine.nextId n } : LoadRegister).inRange := by
  obtain ⟨hr, hring, hs, hl, -, -⟩ := h
  refine ⟨hr, hring, hs, hl, ?_, ?_⟩ <;>
    · dsimp only
      unfold Machine.nextId
      split <;> omega

theorem LoadRegister.cold_inRange {r : Retained} (h : r.inRange) : (LoadRegister.cold r).inRange := by
  obtain ⟨h1, h2, h3, h4, h5, h6⟩ := h
  exact ⟨h1, h2, h3, h4, h6⟩

theorem Settings.inRange.step {s : Settings} (h : s.inRange) (item : Nat) (up : Bool) : (s.step item up).inRange := by
  obtain ⟨h1, h2, h3, h4, h5⟩ := h
  have hstep : ∀ hi n, n ≤ hi → stepNat hi up n ≤ hi := by
    intro hi n hn
    unfold stepNat
    split <;> omega
  have htrim : ∀ x, -50 ≤ clampInt (-50) 50 x ∧ clampInt (-50) 50 x ≤ 50 := by
    intro x
    unfold clampInt
    omega
  unfold Settings.step
  split
  · exact ⟨hstep _ _ h1, h2, h3, h4, h5⟩
  · exact ⟨h1, hstep _ _ h2, h3, h4, h5⟩
  · exact ⟨h1, h2, hstep _ _ h3, h4, h5⟩
  · exact ⟨h1, h2, h3, (htrim _).1, (htrim _).2⟩
  · exact ⟨h1, h2, h3, h4, h5⟩
  · exact ⟨h1, h2, h3, h4, h5⟩

theorem Retained.lost_inRange (i : Fin 4) : (Retained.lost i).inRange := by
  simp [Retained.inRange, Retained.lost, ringInRange, seqsBelow, ShiftCounters.inRange, ShiftCounters.zero,
    LifeCounters.inRange, LifeCounters.zero, Settings.inRange, Settings.lost]

/-! ## The saved copies -/

theorem ParamStore.retainsInRange.kick {p : ParamStore} (h : p.retainsInRange) (now : Tick) :
    (p.kick now).retainsInRange := by
  obtain ⟨h1, h2, h3⟩ := h
  unfold ParamStore.kick
  split
  · exact ⟨h1, h2, h3⟩
  · split
    · next r hr =>
      refine ⟨by simp, fun x t hx => ?_, h3⟩
      simp only [Option.some.injEq, Prod.mk.injEq, WriteReq.retain.injEq] at hx
      exact hx.1 ▸ h1 r hr
    · exact ⟨h1, by simp, h3⟩
    · exact ⟨h1, by simp, h3⟩
    · exact ⟨h1, h2, h3⟩

theorem ParamStore.retainsInRange.askRetain {p : ParamStore} (h : p.retainsInRange) {r : Retained} (hr : r.inRange)
    (now : Tick) : (p.askRetain r now).retainsInRange :=
  ParamStore.retainsInRange.kick (p := { p with reqRetain := some r }) ⟨by simpa using hr, h.2⟩ now

theorem ParamStore.retainsInRange.askCurve {p : ParamStore} (h : p.retainsInRange) (i : Fin 4) (s : CurveSet)
    (now : Tick) : (p.askCurve i s now).retainsInRange := by
  unfold ParamStore.askCurve
  split
  · exact ParamStore.retainsInRange.kick (p := { p with reqCurve := some (i, s) }) h now
  · exact h

theorem ParamStore.retainsInRange.askConfig {p : ParamStore} (h : p.retainsInRange) (now : Tick) :
    (p.askConfig now).retainsInRange :=
  ParamStore.retainsInRange.kick (p := { p with reqConfig := some p.work }) h now

theorem ParamStore.retainsInRange.finishWrite {p : ParamStore} (h : p.retainsInRange) :
    p.finishWrite.retainsInRange := by
  unfold ParamStore.finishWrite
  split
  · exact h
  · next w t hw =>
    obtain ⟨h1, h2, h3⟩ := h
    refine ⟨h1, by simp, ?_⟩
    cases w with
    | config c => exact h3
    | curve i s => exact h3
    | retain r => simpa [StoreArray.put] using h2 r t hw

theorem ParamStore.retainsInRange.line {p : ParamStore} (h : p.retainsInRange) (now : Tick) :
    (p.line now).retainsInRange :=
  ParamStore.retainsInRange.kick (p := ParamStore.load now { p.finishWrite with reqCurve := none, reqConfig := none })
    h.finishWrite now

theorem ParamStore.retainsInRange.arrayAtFail {p : ParamStore} (h : p.retainsInRange) (now : Tick) :
    ∀ r, (p.arrayAtFail now).retained = some r → r.inRange := by
  obtain ⟨h1, h2, h3⟩ := h
  unfold ParamStore.arrayAtFail
  split
  · exact h3
  · next w t hw =>
    cases w with
    | config c => exact h3
    | curve i s => exact h3
    | retain r => simp [StoreArray.cut]

end Sys2Proof.Machine

/-! SUPPORT. The laws that every operation of the part keeps, gathered in one relation between the part before an event
and the part on the way through it; and how a change of one block carries it on. -/

namespace Sys2Proof.Machine

set_option Elab.async false

/-! ## The laws that are kept -/

/-- NO WEIGHER stands in REPEAT alone, and the listen timer runs in LISTEN alone (R117, R108). -/
def RoleArbiter.lawful (r : RoleArbiter) : Prop :=
  (r.noWeigher = true → r.state = .repeating) ∧ (r.listen.isSome = true → r.state = .listen)

/-- Every alarm record has the latch mode and the mask of the configuration in force (7.2). -/
def Chip.modesInForce (c : Chip) : Prop :=
  ∀ a, (c.alarm.get a).mode = c.cfg.alarmMode a ∧ (c.alarm.get a).mask = c.cfg.alarmMask a

/-- In RUN every alarm record but those listed has the present condition of its source (R122). -/
def Chip.currentBut (D : List Alarm) (c : Chip) : Prop :=
  ∀ a, a ∉ D → c.sup.life = .up → c.sup.power = .run → (c.alarm.get a).cond = c.cond a

theorem Chip.alarmsCurrent_iff (c : Chip) : c.alarmsCurrent ↔ c.modesInForce ∧ c.currentBut [] ∧ c.role.lawful := by
  constructor
  · rintro ⟨h, hn, hl⟩
    exact ⟨fun a => ⟨(h a).1, (h a).2.1⟩, fun a _ => (h a).2.2, hn, hl⟩
  · rintro ⟨hm, hc, hn, hl⟩
    exact ⟨fun a => ⟨(hm a).1, (hm a).2, hc a (by simp)⟩, hn, hl⟩

/-- Configuration and retained items are within their ranges. -/
def Chip.ready (c : Chip) : Prop := c.store.configInRange ∧ c.keptInRange

/-- The law of one alarm record, in RUN or outside (R124, R126, R130). -/
def AlarmRec.lawful (run : Prop) (r : AlarmRec) : Prop :=
  (r.ack = true → r.latch = true) ∧ (r.maskTimer.isSome = true → run ∧ r.mask = true ∧ r.latch = true)
    ∧ (run → r.mode = .held → r.cond = true → r.latch = true)

/-- c comes from c0 by operations of the part: every law of c0 has been kept. In between, the alarms of D may not have heard
the present condition of their source yet; and a part that has woken to RUN has still to evaluate its alarms afresh (R121). -/
structure Chip.From (c0 : Chip) (woken : Bool) (D : List Alarm) (c : Chip) : Prop where
  link : c0.link.inRange → c.link.inRange
  eng : c0.eng.inRange → c.eng.inRange
  config : c0.store.configInRange → c.store.configInRange
  kept : c0.ready → c.keptInRange
  lawful : woken = false → c0.alarmsLawful → c.alarmsLawful
  modes : woken = false → c0.modesInForce → c.modesInForce
  current : woken = false → c0.currentBut [] → c0.role.lawful → c.currentBut D
  role : c0.role.lawful → c.role.lawful

/-- The conditions depend on configuration and curve sets alone of the store. -/
theorem Chip.mapStore_cond (f : ParamStore → ParamStore) (c : Chip) (a : Alarm)
    (hg : (f c.store).cfg = c.store.cfg) (hv : (f c.store).curves = c.store.curves) :
    (c.mapStore f).cond a = c.cond a := by
  cases a <;>
    simp [Chip.cond, Chip.inputFault, Chip.inRun, Chip.isWeigher, Chip.cfg, Chip.setInvalid, Chip.overloaded, hg, hv]

/-- The conditions read no alarm record, and of the panel the active curve set alone. -/
theorem Chip.cond_congr {c d : Chip} (hs : d.sup = c.sup) (hi : d.inp = c.inp) (hr : d.role = c.role)
    (hst : d.store = c.store) (hl : d.load.record = c.load.record)
    (hp : d.panel.settings.curveSet = c.panel.settings.curveSet) (a : Alarm) : d.cond a = c.cond a := by
  cases a <;>
    simp [Chip.cond, Chip.inputFault, Chip.inRun, Chip.isWeigher, Chip.cfg, Chip.setInvalid, Chip.overloaded, hs, hi, hr,
      hst, hl, hp]

/-- Of the arbiter they read the conflict, the cross-check and NO WEIGHER. -/
theorem Chip.cond_congr_role {f : RoleArbiter → RoleArbiter} {c : Chip} (hc : (f c.role).conflict = c.role.conflict)
    (hx : (f c.role).crossCheck = c.role.crossCheck) (hn : (f c.role).noWeigher = c.role.noWeigher) (a : Alarm) : (c.mapRole f).cond a = c.cond a := by
  cases a <;>
    simp [Chip.cond, Chip.inputFault, Chip.inRun, Chip.isWeigher, Chip.cfg, Chip.setInvalid, Chip.overloaded, hc, hx, hn]

namespace Chip.From

section
variable {c0 c : Chip} {w : Bool} {D : List Alarm}

theorem refl (c : Chip) : From c false [] c := ⟨id, id, id, fun h => h.2, fun _ => id, fun _ => id, fun _ h _ => h, id⟩

theorem ready (h : From c0 w D c) (h0 : c0.ready) : c.ready := ⟨h.config h0.1, h.kept h0⟩

theorem load (h : From c0 w D c) (h0 : c0.ready) : c.load.inRange := ((keptInRange_iff c).1 (h.kept h0)).1
theorem panel (h : From c0 w D c) (h0 : c0.ready) : c.panel.inRange := ((keptInRange_iff c).1 (h.kept h0)).2.1
theorem trk (h : From c0 w D c) (h0 : c0.ready) : c.trk.inRange := ((keptInRange_iff c).1 (h.kept h0)).2.2.1
theorem tag (h : From c0 w D c) (h0 : c0.ready) : c.inp.held.tagInRange := ((keptInRange_iff c).1 (h.kept h0)).2.2.2.1
theorem saved (h : From c0 w D c) (h0 : c0.ready) : c.store.retainsInRange := ((keptInRange_iff c).1 (h.kept h0)).2.2.2.2

/-- More alarms may wait for their source. -/
theorem dirty (h : From c0 w D c) (a : Alarm) : From c0 w (a :: D) c :=
  { h with current := fun hw h0 h1 b hb => h.current hw h0 h1 b fun hd => hb (List.mem_cons_of_mem _ hd) }

theorem allDirty (h : From c0 w D c) : From c0 w Alarm.all c :=
  { h with current := fun _ _ _ b hb => absurd (by cases b <;> decide) hb }

/-- Outside RUN, or not running, no condition is to be heard. -/
theorem unheard (h : From c0 w D c) (E : List Alarm) (hp : c.sup.life = .up → c.sup.power = .run → False) :
    From c0 w E c :=
  { h with current := fun _ _ _ _ _ hl hr => (hp hl hr).elim }

theorem ite {p : Prop} [Decidable p] {x y : Chip} (hx : p → From c0 w D x) (hy : ¬p → From c0 w D y) :
    From c0 w D (if p then x else y) := by
  split
  · exact hx ‹_›
  · exact hy ‹_›

/-! ## One block changes -/

theorem mapLink (h : From c0 w D c) (f : Link → Link) (hf : c.link.inRange → (f c.link).inRange) :
    From c0 w D (c.mapLink f) := { h with link := fun h0 => hf (h.link h0) }

theorem mapCal (h : From c0 w D c) (f : CalUnit → CalUnit) : From c0 w D (c.mapCal f) := { h with }

theorem pins (h : From c0 w D c) (p : Pins) : From c0 w D { c with pins := p } := { h with }

theorem tick (h : From c0 w D c) (t : Tick) : From c0 w D { c with tick := t } := { h with }

theorem mapEng (h : From c0 w D c) (f : Engine → Engine) (hf : c.eng.inRange → (f c.eng).inRange) :
    From c0 w D (c.mapEng f) := { h with eng := fun h0 => hf (h.eng h0) }

theorem mapTrk (h : From c0 w D c) (f : Tracker → Tracker) (hf : c0.ready → c.trk.inRange → (f c.trk).inRange) :
    From c0 w D (c.mapTrk f) :=
  { h with
    kept := fun h0 => by
      obtain ⟨h1, h2, h3, h4, h5⟩ := (keptInRange_iff c).1 (h.kept h0)
      exact (keptInRange_iff _).2 ⟨h1, h2, hf h0 h3, h4, h5⟩ }

theorem mapInp (h : From c0 w D c) (f : InputTable → InputTable)
    (ht : c0.ready → c.inp.held.tagInRange → (f c.inp).held.tagInRange)
    (hc : ∀ a, a ∉ D → c.sup.power = .run → (c.mapInp f).cond a = c.cond a) : From c0 w D (c.mapInp f) :=
  { h with
    kept := fun h0 => by
      obtain ⟨h1, h2, h3, h4, h5⟩ := (keptInRange_iff c).1 (h.kept h0)
      exact (keptInRange_iff _).2 ⟨h1, h2, h3, ht h0 h4, h5⟩
    current := fun hw h0 h1 a ha hl hr => (h.current hw h0 h1 a ha hl hr).trans (hc a ha hr).symm }

theorem mapLoad (h : From c0 w D c) (f : LoadRegister → LoadRegister)
    (hf : c0.ready → c.load.inRange → (f c.load).inRange := by exact fun _ h => h)
    (hc : ∀ a, a ∉ D → c.sup.power = .run → (c.mapLoad f).cond a = c.cond a := by
      exact fun a _ _ => Chip.cond_congr rfl rfl rfl rfl rfl rfl a) :
    From c0 w D (c.mapLoad f) :=
  { h with
    kept := fun h0 => by
      obtain ⟨h1, h2, h3, h4, h5⟩ := (keptInRange_iff c).1 (h.kept h0)
      exact (keptInRange_iff _).2 ⟨hf h0 h1, h2, h3, h4, h5⟩
    current := fun hw h0 h1 a ha hl hr => (h.current hw h0 h1 a ha hl hr).trans (hc a ha hr).symm }

theorem mapRole (h : From c0 w D c) (f : RoleArbiter → RoleArbiter)
    (hf : c.role.lawful → (f c.role).lawful := by exact fun h => h)
    (hc : w = false → c0.role.lawful → ∀ a, a ∉ D → c.sup.power = .run → (c.mapRole f).cond a = c.cond a := by
      exact fun _ _ a _ _ => Chip.cond_congr_role rfl rfl rfl a) :
    From c0 w D (c.mapRole f) :=
  { h with
    current := fun hw h0 h1 a ha hl hr => (h.current hw h0 h1 a ha hl hr).trans (hc hw h1 a ha hr).symm
    role := fun h0 => hf (h.role h0) }

theorem mapPanel (h : From c0 w D c) (f : Panel → Panel)
    (hf : c0.ready → c.panel.inRange → (f c.panel).inRange := by exact fun _ h => h)
    (hc : ∀ a, a ∉ D → c.sup.power = .run → (c.mapPanel f).cond a = c.cond a := by
      exact fun a _ _ => Chip.cond_congr rfl rfl rfl rfl rfl rfl a) :
    From c0 w D (c.mapPanel f) :=
  { h with
    kept := fun h0 => by
      obtain ⟨h1, h2, h3, h4, h5⟩ := (keptInRange_iff c).1 (h.kept h0)
      exact (keptInRange_iff _).2 ⟨h1, hf h0 h2, h3, h4, h5⟩
    current := fun hw h0 h1 a ha hl hr => (h.current hw h0 h1 a ha hl hr).trans (hc a ha hr).symm }

/-- The configuration in force stands, and the curve sets do or CAL INVALID waits for them. -/
theorem mapStore (h : From c0 w D c) (f : ParamStore → ParamStore)
    (hf : c.store.configInRange → (f c.store).configInRange)
    (hk : c0.ready → c.store.retainsInRange → (f c.store).retainsInRange)
    (hg : (f c.store).cfg = c.store.cfg)
    (hc : ∀ a, a ∉ D → c.sup.power = .run → (c.mapStore f).cond a = c.cond a) : From c0 w D (c.mapStore f) :=
  { h with
    config := fun h0 => hf (h.config h0)
    kept := fun h0 => by
      obtain ⟨h1, h2, h3, h4, h5⟩ := (keptInRange_iff c).1 (h.kept h0)
      exact (keptInRange_iff _).2 ⟨h1, h2, h3, h4, hk h0 h5⟩
    modes := fun hw h0 a => by
      have hm := h.modes hw h0 a
      simp only [Chip.cfg] at hm
      simpa only [Chip.mapStore_alarm, Chip.cfg, Chip.mapStore_store, hg] using hm
    current := fun hw h0 h1 a ha hl hr => (h.current hw h0 h1 a ha hl hr).trans (hc a ha hr).symm }

/-- The supply monitor changes, its power state but for a start: the conditions that listen to its status wait for it. -/
theorem mapSup (h : From c0 w D c) (f : Supply → Supply) (hp : (f c.sup).power = c.sup.power)
    (hl : (f c.sup).life = .up → c.sup.life = .up) (hs : .lowSupply ∈ D ∨ (f c.sup).status = c.sup.status) :
    From c0 w D (c.mapSup f) :=
  { h with
    lawful := fun hw h0 a => by simpa [hp] using h.lawful hw h0 a
    current := fun hw h0 h1 a ha hu hr => by
      simp only [Chip.mapSup_sup, hp] at hu hr
      have hcond : (c.mapSup f).cond a = c.cond a := by
        cases a <;> simp_all [Chip.cond, Chip.inputFault, Chip.inRun, Chip.isWeigher, Chip.cfg, Chip.setInvalid,
          Chip.overloaded]
      exact (h.current hw h0 h1 a ha (hl hu) hr).trans hcond.symm }

/-- A part that wakes to RUN has its alarms still to evaluate. -/
theorem wake (h : From c0 w D c) (f : Supply → Supply) (E : List Alarm) : From c0 true E (c.mapSup f) :=
  { h with lawful := fun hw => absurd hw (by decide), modes := fun hw => absurd hw (by decide)
           current := fun hw => absurd hw (by decide) }

end

end Chip.From

end Sys2Proof.Machine

/-! SUPPORT. The laws of the alarm records: how a source that hands over its condition, an acknowledgement, a mask timer
and the first evaluation of a start keep them. -/

namespace Sys2Proof.Machine

set_option Elab.async false

/-! ## Alarm records -/

theorem AlarmRec.start_lawful (run : Prop) (m : LatchMode) (k : Bool) : (AlarmRec.start m k).lawful run := by
  simp [AlarmRec.lawful, AlarmRec.start]

theorem AlarmUnit.start_get (cfg : Cfg) (a : Alarm) :
    (AlarmUnit.start cfg).get a = AlarmRec.start (cfg.alarmMode a) (cfg.alarmMask a) := by cases a <;> rfl

theorem AlarmRec.lawful.rise {r : AlarmRec} (h : r.lawful True) (now : Tick) : (r.rise now).lawful True := by
  obtain ⟨h1, h2, h3⟩ := h
  refine ⟨by simp [AlarmRec.rise], fun ht => ⟨trivial, ?_, rfl⟩, fun _ _ _ => rfl⟩
  cases hm : r.mask
  · simp [AlarmRec.rise, AlarmRec.riseTimer, hm] at ht
    simp [hm] at h2
    simp [h2] at ht
  · exact hm

theorem AlarmRec.lawful.clearLatch {run : Prop} {r : AlarmRec} (hc : run → r.mode = .held → r.cond = false) :
    r.clearLatch.lawful run := by
  refine ⟨by simp [AlarmRec.clearLatch], by simp [AlarmRec.clearLatch], fun hr hm ht => ?_⟩
  have := hc hr hm
  simp_all [AlarmRec.clearLatch]

theorem AlarmRec.lawful.fall {r : AlarmRec} (h : r.lawful True) : r.fall.lawful True := by
  obtain ⟨h1, h2, h3⟩ := h
  have hf : ({ r with cond := false } : AlarmRec).lawful True := ⟨h1, h2, by simp⟩
  unfold AlarmRec.fall
  dsimp only
  split
  · exact hf
  · split
    · exact AlarmRec.lawful.clearLatch fun _ _ => rfl
    · exact hf

theorem AlarmRec.lawful.handed {r : AlarmRec} (h : r.lawful True) (v : Bool) (now : Tick) :
    (r.handed v now).lawful True := by
  rw [AlarmRec.handed_eq]
  (repeat' split)
  · exact h
  · exact h.rise now
  · exact h.fall

theorem AlarmRec.lawful.acknowledge {run : Prop} {r : AlarmRec} (h : r.lawful run) : r.acknowledge.lawful run := by
  unfold AlarmRec.acknowledge
  split
  · exact h
  · next hl =>
    simp only [Bool.not_eq_true', Bool.not_eq_false] at hl
    split
    · next hm => exact AlarmRec.lawful.clearLatch fun _ hh => by simp [hm] at hh
    · next hm =>
      split
      · exact ⟨fun _ => hl, h.2.1, h.2.2⟩
      · next hc => exact AlarmRec.lawful.clearLatch fun _ _ => by simpa using hc

theorem AlarmRec.lawful.untimed {run : Prop} {r : AlarmRec} (h : r.lawful run) :
    ({ r with maskTimer := none } : AlarmRec).lawful run := ⟨h.1, by simp, h.2.2⟩

/-- Outside RUN no mask timer runs, so that the mode and the mask may change alone. -/
theorem AlarmRec.lawful.asleep {run run' : Prop} {r : AlarmRec} (h : r.lawful run) (hn : ¬run') :
    ({ r with maskTimer := none } : AlarmRec).lawful run' := ⟨h.1, by simp, fun hr => absurd hr hn⟩

theorem AlarmRec.lawful.setMode {run : Prop} {r : AlarmRec} (h : r.lawful run) (hn : ¬run) (m : LatchMode) (k : Bool) :
    ({ r with mode := m, mask := k } : AlarmRec).lawful run :=
  ⟨h.1, fun ht => absurd (h.2.1 ht).1 hn, fun hr => absurd hr hn⟩

theorem AlarmRec.reconfigured_lawful {r : AlarmRec} (h : r.lawful True) (m : LatchMode) (k : Bool) (now : Tick) :
    (r.reconfigured m k now).lawful True := by
  obtain ⟨h1, h2, h3⟩ := h
  unfold AlarmRec.reconfigured AlarmRec.lawful
  dsimp only
  split
  · exact ⟨h1, h2, h3⟩
  · refine ⟨fun ha => ?_, fun ht => ?_, fun _ hm hc => ?_⟩
    · dsimp only at ha ⊢
      grind
    · dsimp only at ht ⊢
      grind
    · cases hr : r.mode <;> cases hl : r.latch <;> simp_all

theorem AlarmRec.reconfigured_mode (r : AlarmRec) (m : LatchMode) (k : Bool) (now : Tick) :
    (r.reconfigured m k now).mode = m ∧ (r.reconfigured m k now).mask = k ∧ (r.reconfigured m k now).cond = r.cond := by
  unfold AlarmRec.reconfigured
  dsimp only
  split
  · next h => exact ⟨h.1, h.2, rfl⟩
  · exact ⟨rfl, rfl, rfl⟩

theorem AlarmRec.handed_modes (r : AlarmRec) (v : Bool) (now : Tick) :
    (r.handed v now).mode = r.mode ∧ (r.handed v now).mask = r.mask := by
  unfold AlarmRec.handed
  (repeat' split) <;> exact ⟨rfl, rfl⟩

/-- A source that hands over a value moves its own record (R122). -/
theorem Chip.takeCond_get (a b : Alarm) (v : Bool) (c : Chip) (h : c.inRun = true) :
    (c.takeCond a v).alarm.get b = if b = a then (c.alarm.get a).handed v c.tick else c.alarm.get b := by
  split
  · next hb =>
    rw [hb, Chip.takeCond_self a v c h, AlarmRec.handed_eq]
  · next hb => exact Chip.takeCond_others a b v c hb

theorem Chip.inRun_iff (c : Chip) : c.inRun = true ↔ c.sup.power = .run := by simp [Chip.inRun]

namespace Chip.From

section
variable {c0 c : Chip} {w : Bool} {D : List Alarm}

/-- Alarm records and buzzer change alone, and the records keep their laws. -/
theorem alarms (h : From c0 w D c) (E : List Alarm) {d : Chip} (hd : c.onlyChanges d [.alarm, .panel])
    (hb : c.onlyBuzzer d) (hl : w = false → c.alarmsLawful → d.alarmsLawful)
    (hm : w = false → c.modesInForce → d.modesInForce)
    (hc : w = false → c.currentBut D → d.currentBut E) : From c0 w E d where
  link h0 := by
    have e : d.link = c.link := hd .link (by decide)
    exact e ▸ h.link h0
  eng h0 := by
    have e : d.eng = c.eng := hd .eng (by decide)
    exact e ▸ h.eng h0
  config h0 := by
    have e : d.store = c.store := hd .store (by decide)
    exact e ▸ h.config h0
  kept h0 := by
    have e1 : d.load = c.load := hd .load (by decide)
    have e2 : d.trk = c.trk := hd .trk (by decide)
    have e3 : d.inp = c.inp := hd .inp (by decide)
    have e4 : d.store = c.store := hd .store (by decide)
    rw [keptInRange_iff, e1, e2, e3, e4, hb]
    exact (keptInRange_iff c).1 (h.kept h0)
  lawful hw h0 := hl hw (h.lawful hw h0)
  modes hw h0 := hm hw (h.modes hw h0)
  current hw h0 h1 := hc hw (h.current hw h0 h1)
  role h0 := by
    have e : d.role = c.role := hd .role (by decide)
    exact e ▸ h.role h0

/-- A source hands over a value in RUN, or nothing is heard. -/
theorem takeCond (h : From c0 w D c) (E : List Alarm) (a : Alarm) (v : Bool)
    (hE : ∀ b, b ∉ E → b ∉ D ∨ b = a) (hv : a ∉ E → c.sup.power = .run → c.cond a = v) :
    From c0 w E (c.takeCond a v) := by
  cases hr : c.inRun with
  | false =>
    rw [Chip.takeCond_suspended a v c hr]
    exact h.unheard E fun _ hp => by simp [(Chip.inRun_iff c).2 hp] at hr
  | true =>
    have hrun := (Chip.inRun_iff c).1 hr
    refine h.alarms E (fun b hb => by cases b <;> simp_all [Chip.sameAt]) (Chip.takeCond_panel a v c) ?_ ?_ ?_
    · intro _ hl b
      have hb := hl b
      have ha := hl a
      simp only [Chip.takeCond_frame, hrun] at ha hb ⊢
      rw [Chip.takeCond_get a b v c hr]
      split
      · exact AlarmRec.lawful.handed (by simpa [AlarmRec.lawful] using ha) v c.tick |>.imp id fun h => by simpa using h
      · simpa using hb
    · intro _ hm b
      have hb := hm b
      have ha := hm a
      simp only [Chip.cfg, Chip.takeCond_frame] at ha hb ⊢
      rw [Chip.takeCond_get a b v c hr]
      split
      · next e =>
        rw [(AlarmRec.handed_modes _ _ _).1, (AlarmRec.handed_modes _ _ _).2, e]
        exact ha
      · exact hb
    · intro _ hc b hb hl hp
      have hcond : (c.takeCond a v).cond b = c.cond b := by
        apply Chip.cond_congr <;> simp
      rw [hcond, Chip.takeCond_get a b v c hr]
      split
      · next e =>
        subst e
        rw [AlarmRec.handed_cond]
        exact (hv hb hrun).symm
      · next e => exact hc b ((hE b hb).resolve_right e) (by simpa using hl) (by simpa using hp)

/-- The source of one alarm hands over its present condition. -/
theorem refresh (h : From c0 w D c) (a : Alarm) : From c0 w D (c.refresh a) :=
  h.takeCond D a _ (fun _ hb => .inl hb) fun _ _ => rfl

theorem heard {a : Alarm} (h : From c0 w (a :: D) c) : From c0 w D (c.refresh a) :=
  h.takeCond D a _ (fun b hb => by by_cases e : b = a <;> simp [e, hb]) fun _ _ => rfl

theorem pulsePassOver (h : From c0 w D c) : From c0 w D c.pulsePassOver :=
  (h.takeCond (.passOver :: D) .passOver true (fun b hb => .inl fun hd => hb (List.mem_cons_of_mem _ hd))
      fun hn => absurd (List.mem_cons_self ..) hn).takeCond D .passOver false
    (fun b hb => by by_cases e : b = .passOver <;> simp [e, hb]) fun _ _ => rfl

/-- One record changes as the latching laws allow, its condition standing. -/
theorem putAlarm (h : From c0 w D c) (a : Alarm) (r : AlarmRec) (hm : r.mode = (c.alarm.get a).mode)
    (hk : r.mask = (c.alarm.get a).mask) (hc : r.cond = (c.alarm.get a).cond)
    (hl : (c.alarm.get a).lawful (c.sup.power = .run) → r.lawful (c.sup.power = .run)) :
    From c0 w D (c.setAlarms (c.alarm.put a r)) := by
  have hget : ∀ b, (c.setAlarms (c.alarm.put a r)).alarm.get b = if b = a then r else c.alarm.get b := by
    intro b
    rw [Chip.setAlarms_alarm]
    split
    · next e => rw [e, AlarmUnit.get_put_self]
    · next e => exact AlarmUnit.get_put_ne _ _ _ _ e
  refine h.alarms D (fun b hb => by cases b <;> simp_all [Chip.sameAt]) (Chip.setAlarms_panel _ c) ?_ ?_ ?_
  · intro _ h1 b
    simp only [Chip.setAlarms_frame]
    rw [hget b]
    split
    · exact hl (h1 a)
    · exact h1 b
  · intro _ h1 b
    have hb := h1 b
    have ha := h1 a
    simp only [Chip.cfg, Chip.setAlarms_frame] at ha hb ⊢
    rw [hget b]
    split
    · next e =>
      rw [hm, hk, e]
      exact ha
    · exact hb
  · intro _ h1 b hb hlf hp
    have hcond : (c.setAlarms (c.alarm.put a r)).cond b = c.cond b := by apply Chip.cond_congr <;> simp
    rw [hcond, hget b]
    have h2 := h1 b hb (by simpa using hlf) (by simpa using hp)
    split
    · next e =>
      subst e
      rw [hc]
      exact h2
    · exact h2

theorem acknowledge (h : From c0 w D c) (a : Alarm) : From c0 w D (c.acknowledge a) :=
  h.putAlarm a _ (by simp) (by simp) (by simp) AlarmRec.lawful.acknowledge

theorem maskTimerExpiry (h : From c0 w D c) (a : Alarm) : From c0 w D (c.maskTimerExpiry a) := by
  unfold Chip.maskTimerExpiry
  exact .ite (fun _ => h.putAlarm a _ (by simp) (by simp) (by simp) fun hl => hl.acknowledge.untimed) fun _ => h

theorem heardAll {as : List Alarm} (h : From c0 w as c) : From c0 w [] (as.foldl (fun c a => c.refresh a) c) := by
  induction as generalizing c with
  | nil => exact h
  | cons a as ih => exact ih h.heard

theorem refreshAlarms (h : From c0 w Alarm.all c) : From c0 w [] c.refreshAlarms := h.heardAll

/-- The first evaluation in RUN leaves every record as its laws ask, whatever it was before (R121). -/
theorem alarmStart (h : From c0 w D c) (hr : c.inRun = true) : From c0 false [] c.alarmStart := by
  have hrun := (Chip.inRun_iff c).1 hr
  have hget : ∀ a, c.alarmStart.alarm.get a
      = (AlarmRec.start (c.cfg.alarmMode a) (c.cfg.alarmMask a)).handed (c.cond a) c.tick := by
    intro a
    have hr' : ({ c.mapBuz Buzzer.alarmEnd with alarm := AlarmUnit.start c.cfg } : Chip).inRun = true := hr
    rw [Chip.alarmStart, Chip.refreshAlarms_get _ hr', AlarmUnit.start_get]
    congr 1
  have hcond : ∀ a, c.alarmStart.cond a = c.cond a := fun a => by apply Chip.cond_congr <;> simp
  have hbuz : c.onlyBuzzer c.alarmStart := by
    have h1 : c.onlyBuzzer { c.mapBuz Buzzer.alarmEnd with alarm := AlarmUnit.start c.cfg } := rfl
    have h2 : ∀ (as : List Alarm) (d : Chip), d.onlyBuzzer (as.foldl (fun c a => c.refresh a) d) := by
      intro as
      induction as with
      | nil => exact fun d => rfl
      | cons a as ih => exact fun d => Chip.onlyBuzzer_trans _ _ _ (Chip.refresh_panel a d) (ih _)
    exact Chip.onlyBuzzer_trans _ _ _ h1 (h2 _ _)
  have h' : From c0 true [] c :=
    { h with lawful := fun hw => absurd hw (by decide), modes := fun hw => absurd hw (by decide)
             current := fun hw => absurd hw (by decide) }
  have ha := h'.alarms [] (d := c.alarmStart) (fun b hb => by cases b <;> simp_all [Chip.sameAt]) hbuz
    (fun hw => absurd hw (by decide)) (fun hw => absurd hw (by decide)) (fun hw => absurd hw (by decide))
  refine { ha with lawful := fun _ _ a => ?_, modes := fun _ _ a => ?_, current := fun _ _ _ a _ _ _ => ?_ }
  · rw [hget a]
    have := (AlarmRec.start_lawful True (c.cfg.alarmMode a) (c.cfg.alarmMask a)).handed (c.cond a) c.tick
    simpa [AlarmRec.lawful, hrun] using this
  · rw [hget a, (AlarmRec.handed_modes _ _ _).1, (AlarmRec.handed_modes _ _ _).2]
    simp [Chip.cfg, AlarmRec.start]
  · rw [hget a, hcond a, AlarmRec.handed_cond]

/-! ## The buzzer -/

theorem mapBuz (h : From c0 w D c) (f : Nat → Tick → Buzzer → Buzzer) : From c0 w D (c.mapBuz f) :=
  h.mapPanel fun p => { p with buz := f p.settings.volume c.tick p.buz }

theorem beepEvent (h : From c0 w D c) (p : Pattern) : From c0 w D (c.beepEvent p) := by
  unfold Chip.beepEvent
  split
  · exact h.mapBuz _
  · exact h.mapBuz _
  · exact h
  · exact h

end

end Chip.From

end Sys2Proof.Machine

/-! SUPPORT. The laws are kept by the operations of the link controller, the parameter store and the load register. -/

namespace Sys2Proof.Machine

set_option Elab.async false

/-! ## What the part sends fits a telegram (R149, Table 12-4) -/

@[simp] theorem be8_length (n : Nat) : (be8 n).length = 1 := rfl
@[simp] theorem be16_length (n : Nat) : (be16 n).length = 2 := rfl
@[simp] theorem be24_length (n : Nat) : (be24 n).length = 3 := rfl
@[simp] theorem be32_length (n : Nat) : (be32 n).length = 4 := rfl

theorem sendStatus_fits (r : RoleState) (l x : Nat) (i : Fin 4) (k : StartKind) (q : BitVec 8) :
    (sendStatus r l x i k q).data.length ≤ 12 := by simp [sendStatus]

theorem sendTruck_fits (r : Option TruckRec) (q : BitVec 8) : (sendTruck r q).data.length ≤ 12 := by
  cases r <;> simp [sendTruck]

theorem sendPass_fits (p : PassRec) : (sendPass p).data.length ≤ 12 := by simp [sendPass]
theorem sendClosed_fits (s : Summary) : (sendClosed s).data.length ≤ 12 := by simp [sendClosed]
theorem sendCounterRequest_fits (dst : Byte) : (sendCounterRequest dst).data.length ≤ 12 := by simp [sendCounterRequest]

theorem sendCounts_fits (dst : Byte) (f a b c d : Nat) : (sendCounts dst f a b c d).data.length ≤ 12 := by
  simp [sendCounts]

theorem sendTonnage_fits (dst : Byte) (f a b : Nat) : (sendTonnage dst f a b).data.length ≤ 12 := by simp [sendTonnage]
theorem sendLife_fits (dst : Byte) (f a : Nat) : (sendLife dst f a).data.length ≤ 12 := by simp [sendLife]

theorem sendConfigStatus_fits (dst : Byte) (i : Nat) (a : ConfigCode) : (sendConfigStatus dst i a).data.length ≤ 12 := by
  simp [sendConfigStatus]

theorem Chip.diagParts_fit (c : Chip) (dst : Byte) : ∀ t ∈ c.diagParts dst, t.data.length ≤ 12 := by
  simp [Chip.diagParts, sendDiagCounters, sendDiagState]

theorem Chip.ownReports_fit (c : Chip) (dst : Byte) : ∀ t ∈ c.ownReports dst, t.data.length ≤ 12 := by
  simp [Chip.ownReports, sendCounts, sendTonnage, sendLife]

theorem Chip.mirrorReports_fit (c : Chip) (dst : Byte) : ∀ t ∈ c.mirrorReports dst, t.data.length ≤ 12 := by
  simp only [Chip.mirrorReports, List.forall_mem_cons]
  refine ⟨?_, ?_, ?_, by simp⟩
  · split <;> exact sendCounts_fits ..
  · split <;> exact sendTonnage_fits ..
  · split <;> exact sendLife_fits ..

theorem Chip.counterAnswer_fit (c : Chip) (dst : Byte) : ∀ t ∈ c.counterAnswer dst, t.data.length ≤ 12 := by
  unfold Chip.counterAnswer
  split
  · exact c.ownReports_fit dst
  · exact c.ownReports_fit dst
  · exact c.ownReports_fit dst
  · exact c.mirrorReports_fit dst
  · simp
  · simp

/-- The retained record as it stands is made of the blocks that hold its items. -/
theorem Chip.retained_inRange {c : Chip} (hl : c.load.inRange) (hp : c.panel.inRange) (s : RoleState) :
    (c.retained s).inRange := by
  obtain ⟨h1, h2, h3, h4, h5, h6⟩ := hl
  exact ⟨h1, h2, h3, h4, hp.1, h5, h6⟩

/-! ## What a request leaves -/

@[simp] theorem ParamStore.kick_frame (now : Tick) (p : ParamStore) :
    (p.kick now).cfg = p.cfg ∧ (p.kick now).work = p.work ∧ (p.kick now).curves = p.curves
      ∧ (p.kick now).configDefault = p.configDefault ∧ (p.kick now).retainLost = p.retainLost
      ∧ (p.kick now).window = p.window ∧ (p.kick now).array = p.array := by
  unfold ParamStore.kick
  split
  · simp
  · split <;> simp

@[simp] theorem ParamStore.askRetain_frame (r : Retained) (now : Tick) (p : ParamStore) :
    (p.askRetain r now).cfg = p.cfg ∧ (p.askRetain r now).curves = p.curves := by simp [ParamStore.askRetain]

@[simp] theorem ParamStore.askConfig_frame (now : Tick) (p : ParamStore) :
    (p.askConfig now).cfg = p.cfg ∧ (p.askConfig now).curves = p.curves := by simp [ParamStore.askConfig]

@[simp] theorem ParamStore.askCurve_frame (i : Fin 4) (s : CurveSet) (now : Tick) (p : ParamStore) :
    (p.askCurve i s now).cfg = p.cfg ∧ (p.askCurve i s now).curves = p.curves := by
  unfold ParamStore.askCurve
  split <;> simp

/-- A requester of a commit is owed its answer (R172). -/
def ParamStore.owe (src : Byte) (p : ParamStore) : ParamStore :=
  { p with owedNext := p.owedNext ++ [src], replaced := p.reqConfig.isSome }

/-- The manual target of the configuration in force (item 33). -/
theorem Cfg.inRange.defaultTarget {c : Cfg} (h : c.inRange) : targetInRange (absentIfZero c.defaultTarget) :=
  targetInRange_absentIfZero (by unfold Cfg.inRange at h; omega)

namespace Chip.From

section
variable {c0 c : Chip} {w : Bool} {D : List Alarm}

/-! ## The link controller -/

theorem offer (h : From c0 w D c) {t : OutTg} (ht : t.data.length ≤ 12) : From c0 w D (c.offer t) :=
  .ite (fun _ => h.mapLink _ fun hl => hl.enqueue t ht) fun _ => h

theorem offerAll {ts : List OutTg} (h : From c0 w D c) (ht : ∀ t ∈ ts, t.data.length ≤ 12) :
    From c0 w D (c.offerAll ts) := by
  induction ts generalizing c with
  | nil => exact h
  | cons t ts ih => exact ih (h.offer (ht t (by simp))) fun u hu => ht u (by simp [hu])

theorem settleLink (h : From c0 w D c) : From c0 w D c.settleLink := h.mapLink _ fun hl => hl.settle _

theorem countShort (h : From c0 w D c) : From c0 w D c.countShort := h.mapLink _ fun hl => hl.count _

theorem diagRequest (h : From c0 w D c) (src : Byte) (clear : Bool) : From c0 w D (c.diagRequest src clear) :=
  .ite (fun _ => (h.offerAll (c.diagParts_fit src)).mapLink _ fun hl => hl.clearCounters)
    fun _ => h.offerAll (c.diagParts_fit src)

theorem dominantDuringDelay (h : From c0 w D c) : From c0 w D c.dominantDuringDelay :=
  (h.mapLink _ fun hl => hl.dominant).settleLink

theorem accessDelayEnd (h : From c0 w D c) : From c0 w D c.accessDelayEnd := h.mapLink _ fun hl => hl.delayEnd

theorem telegramSent (h : From c0 w D c) : From c0 w D c.telegramSent :=
  .ite (fun _ => (h.mapLink _ fun hl => hl.sent).settleLink) fun _ => h

theorem readbackMismatch (h : From c0 w D c) (bit : Nat) : From c0 w D (c.readbackMismatch bit) :=
  .ite (fun _ => (h.mapLink _ fun hl => hl.mismatch bit _).settleLink) fun _ => h

theorem quietTimerExpiry (h : From c0 w D c) : From c0 w D c.quietTimerExpiry :=
  (h.mapLink _ fun hl => hl.quietEnd _).settleLink

/-! ## The parameter store -/

theorem askRetain (h : From c0 w D c) (s : RoleState) : From c0 w D (c.askRetain s) :=
  h.mapStore _ (fun hc => hc.askRetain _ _)
    (fun h0 hr => hr.askRetain (Chip.retained_inRange (h.load h0) (h.panel h0) s) _) (ParamStore.askRetain_frame ..).1
    fun a _ _ => Chip.mapStore_cond _ _ a (ParamStore.askRetain_frame ..).1 (ParamStore.askRetain_frame ..).2

theorem wrongCode (h : From c0 w D c) : From c0 w D (c.mapStore ParamStore.countWrong) :=
  h.mapStore _ id (fun _ => id) rfl fun a _ _ => Chip.mapStore_cond _ _ a rfl rfl

theorem configWrite (h : From c0 w D c) (src : Byte) (m : WriteMsg) : From c0 w D (c.configWrite src m) := by
  unfold Chip.configWrite
  split
  · exact h
  · exact h.offer (sendConfigStatus_fits ..)
  · exact h.wrongCode.offer (sendConfigStatus_fits ..)
  · split
    · exact h.offer (sendConfigStatus_fits ..)
    · exact h.offer (sendConfigStatus_fits ..)
    · next wr hw =>
      refine (h.mapStore _ (fun hc => ?_) (fun _ => id) rfl fun a _ _ => Chip.mapStore_cond _ _ a rfl rfl).offer
        (sendConfigStatus_fits ..)
      obtain ⟨h1, h2, h3⟩ := hc
      exact ⟨h1, h2.writeItem _ _ hw, h3⟩

theorem configCommit (h : From c0 w D c) (src : Byte) (code : BitVec 32) : From c0 w D (c.configCommit src code) := by
  unfold Chip.configCommit
  split
  · exact h
  · exact h.offer (sendConfigStatus_fits ..)
  · exact h.wrongCode.offer (sendConfigStatus_fits ..)
  · exact h.mapStore (fun p => (p.owe src).askConfig c.tick)
      (fun hc => ParamStore.configInRange.askConfig (p := c.store.owe src) hc _)
      (fun _ hr => ParamStore.retainsInRange.askConfig (p := c.store.owe src) hr _) (ParamStore.askConfig_frame ..).1
      fun a _ _ => Chip.mapStore_cond _ _ a (ParamStore.askConfig_frame ..).1 (ParamStore.askConfig_frame ..).2

theorem answerCommits (h : From c0 w D c) : From c0 w D c.answerCommits :=
  (h.offerAll fun t ht => by
    obtain ⟨src, _, rfl⟩ := List.mem_map.1 ht
    exact sendConfigStatus_fits ..).mapStore _ id (fun _ => id) rfl fun a _ _ => Chip.mapStore_cond _ _ a rfl rfl

/-! ## The load register -/

theorem writeTruckSlot (h : From c0 w D c) : From c0 w D c.writeTruckSlot :=
  .ite (fun _ => h.mapLink _ fun hl => hl.writeT _ (sendTruck_fits ..)) fun _ => h

theorem raiseSeq (h : From c0 w D c) : From c0 w D c.raiseSeq := (h.mapLoad _).writeTruckSlot

theorem setRecord (h : From c0 w (.overload :: D) c) {r : Option TruckRec}
    (hr : c0.ready → ∀ x, r = some x → x.inRange) : From c0 w (.overload :: D) (c.setRecord r) :=
  (h.mapLoad _ (fun h0 hl => hl.setRecord (hr h0)) fun a ha _ => by
      by_cases ho : a = .overload
      · exact absurd (ho ▸ List.mem_cons_self ..) ha
      · cases a <;> simp_all <;> rfl).mapPanel _
    (fun _ hp => by
      obtain ⟨h1, h2⟩ := hp
      exact ⟨by simpa using h1, by simpa using h2⟩)
    fun a _ _ => by apply Chip.cond_congr <;> simp

theorem writeOwn (h : From c0 w (.overload :: D) c) {r : TruckRec} (hr : c0.ready → r.inRange) :
    From c0 w (.overload :: D) (c.writeOwn r) :=
  (h.setRecord fun h0 x hx => by cases hx; exact hr h0).mapRole _

theorem evaluateRecord (h : From c0 w (.overload :: D) c) : From c0 w D c.evaluateRecord := by
  unfold Chip.evaluateRecord
  split
  · exact h.heard
  · next r hr =>
    refine .ite (fun _ => h.heard) fun _ => heard ?_
    have hs := h.setRecord (r := some (r.evaluate c.cfg)) fun h0 x hx => by
      cases hx
      exact ((h.load h0).1 r hr).evaluate c.cfg
    exact .ite (fun _ => hs.beepEvent _) fun _ => hs

theorem reevaluate (h : From c0 w D c) : From c0 w D c.reevaluate :=
  .ite (fun _ => (h.dirty .overload).evaluateRecord) fun _ => (h.dirty .overload).evaluateRecord.raiseSeq

theorem openRecord (h : From c0 w D c) {id : Nat} {target : Option Nat} (hid : c0.ready → id ≤ 65535)
    (ht : c0.ready → targetInRange target) : From c0 w D (c.openRecord id target) :=
  ((h.dirty .overload).writeOwn fun h0 => TruckRec.fresh_inRange (hid h0) (ht h0)).evaluateRecord.raiseSeq

theorem appendSummary (h : From c0 w D c) {s : Summary} (hs : c0.ready → s.inRange) : From c0 w D (c.appendSummary s) :=
  (h.mapLoad _ (fun h0 hl => hl.append (hs h0))).mapPanel _
    (fun _ hp => by
      obtain ⟨h1, h2⟩ := hp
      exact ⟨by simpa using h1, by simpa using h2⟩)
    fun a _ _ => by apply Chip.cond_congr <;> simp

theorem countTruck (h : From c0 w D c) : From c0 w D c.countTruck := h.mapLoad _ fun _ hl => hl.countTruck

theorem discardNote (h : From c0 w D c) : From c0 w D c.discardNote :=
  h.mapTrk _ fun _ ht => ⟨ht.1, by simp⟩

theorem recordSummary (h : From c0 w D c) {r : TruckRec} (reason : CloseReason) (hr : c0.ready → r.inRange) :
    From c0 w D (c.recordSummary r reason) := by
  have ha := h.appendSummary fun h0 => (hr h0).summary reason
  exact .ite (fun _ => ha) fun _ => .ite (fun _ => ha.countTruck.offer (sendClosed_fits _)) fun _ => ha.countTruck

theorem removeRecord (h : From c0 w D c) : From c0 w D c.removeRecord :=
  ((h.dirty .overload).setRecord fun _ x hx => by cases hx).heard.discardNote.raiseSeq

theorem closeRecord (h : From c0 w D c) (reason : CloseReason) : From c0 w D (c.closeRecord reason) := by
  unfold Chip.closeRecord
  split
  · exact h
  · next r hr =>
    exact removeRecord (.ite (fun _ => h) fun _ => h.recordSummary reason fun h0 => (h.load h0).1 r hr)

theorem offerPass (h : From c0 w D c) (p : PassRec) : From c0 w D (if c.isActive then c.offer (sendPass p) else c) :=
  .ite (fun _ => h.offer (sendPass_fits p)) fun _ => h

theorem amendRecord (h : From c0 w D c) {p : PassRec} (removed : Nat) (hp : c0.ready → p.inRange) :
    From c0 w D (c.amendRecord p removed) := by
  unfold Chip.amendRecord
  split
  · exact h
  · next r hr =>
    exact (((h.dirty .overload).writeOwn fun h0 => ((h.load h0).1 r hr).amend (hp h0) removed).offerPass p).evaluateRecord.raiseSeq

/-- The chip's part, and the pass as joined. -/
theorem joinRecord (h : From c0 w D c) {p : PassRec} (hp : c0.ready → p.inRange) :
    From c0 w D (c.joinRecord p).2 ∧ (c0.ready → (c.joinRecord p).1.inRange) := by
  have ho : From c0 w D (if c.load.record.isNone then c.openRecord 0 none else c) :=
    .ite (fun _ => h.openRecord (fun _ => by omega) fun _ => by simp [targetInRange]) fun _ => h
  unfold Chip.joinRecord
  dsimp only
  split
  · exact ⟨ho, hp⟩
  · next r hr =>
    exact ⟨(((ho.dirty .overload).writeOwn fun h0 => ((ho.load h0).1 r hr).join (hp h0)).offerPass _).evaluateRecord.raiseSeq,
      fun h0 => ((ho.load h0).1 r hr).numbered (hp h0)⟩

theorem adoptRecord (h : From c0 w D c) : From c0 w D c.adoptRecord := by
  have hs : From c0 w D (((c.setRecord (if c.role.mirrored then c.load.record.map TruckRec.adopt else c.load.record)).mapRole
      fun r => { r with mirrored := false }).evaluateRecord) := by
    refine evaluateRecord (mapRole (setRecord (h.dirty .overload) fun h0 x hx => ?_) _)
    split at hx
    · obtain ⟨r, hr, rfl⟩ := Option.map_eq_some_iff.1 hx
      exact ((h.load h0).1 r hr).adopt
    · exact (h.load h0).1 x hx
  exact .ite (fun _ => hs) fun _ => hs.raiseSeq

theorem shiftReset (h : From c0 w D c) : From c0 w D c.shiftReset :=
  .ite (fun _ => (h.mapLoad _ fun _ hl => hl.resetShift).askRetain _) fun _ => h

theorem setRefused (h : From c0 w D c) (r : Option Nat) : From c0 w D (c.setRefused r) := h.mapLoad _

theorem retarget (h : From c0 w D c) {t : Option Nat} (ht : c0.ready → targetInRange t) : From c0 w D (c.retarget t) := by
  unfold Chip.retarget
  split
  · exact h
  · next r hr =>
    exact .ite (fun _ => h) fun _ =>
      ((h.dirty .overload).writeOwn fun h0 => ((h.load h0).1 r hr).retarget (ht h0)).evaluateRecord.raiseSeq

theorem tagPresent (h : From c0 w D c) {id : Nat} {t : Option Nat} (hid : c0.ready → id ≤ 65535)
    (ht : c0.ready → targetInRange t) : From c0 w D (c.tagPresent id t) := by
  have hr : From c0 w D (if c.load.refused = some id then c else c.setRefused none) := .ite (fun _ => h) fun _ => h.setRefused _
  unfold Chip.tagPresent
  dsimp only
  split
  · exact .ite (fun _ => hr) fun _ => hr.openRecord hid ht
  · exact .ite (fun _ => hr.retarget ht) fun _ => .ite (fun _ => hr) fun _ => (hr.closeRecord _).openRecord hid ht

theorem tagGone (h : From c0 w D c) : From c0 w D c.tagGone := by
  refine setRefused ?_ none
  split
  · exact .ite (fun _ => h) fun _ => h.closeRecord _
  · exact h

theorem takeTag (h : From c0 w D c) : From c0 w D c.takeTag := by
  refine .ite (fun _ => ?_) fun _ => h
  split
  · exact h
  · next t ht =>
    exact .ite (fun _ => h.tagPresent (fun h0 => (h.tag h0 t ht).1) fun h0 => (h.tag h0 t ht).target) fun _ => h.tagGone

theorem tagStale (h : From c0 w D c) : From c0 w D c.tagStale := .ite (fun _ => h.tagGone) fun _ => h
theorem takeHeldTag (h : From c0 w D c) : From c0 w D c.takeHeldTag := .ite (fun _ => h.takeTag) fun _ => h

theorem nextManualTruck (h : From c0 w D c) : From c0 w D c.nextManualTruck := by
  refine .ite (fun _ => ?_) fun _ => h
  have hid : c0.ready → c.load.nextManual ≤ 999 := fun h0 => (h.load h0).2.2.2.2.2
  refine ((h.closeRecord .operator).openRecord (fun h0 => by have := hid h0; omega) fun h0 => ?_).mapLoad _
    fun _ hl => hl.nextId
  simpa [Chip.cfg] using (h.config h0.1).1.defaultTarget

theorem operatorClose (h : From c0 w D c) : From c0 w D c.operatorClose := by
  refine .ite (fun _ => ?_) fun _ => h
  split
  · exact h
  · exact .ite (fun _ => (h.closeRecord _).setRefused _) fun _ => h.closeRecord _

theorem counterRequest (h : From c0 w D c) (src dst : Byte) : From c0 w D (c.counterRequest src dst) := by
  unfold Chip.counterRequest
  split
  · exact h.offerAll (c.counterAnswer_fit src)
  · exact .ite (fun _ => h) fun _ => h.offerAll (c.counterAnswer_fit src)
  · exact h
  · exact h

theorem counterReport (h : From c0 w D c) (src : Byte) (m : CounterMsg) : From c0 w D (c.counterReport src m) := by
  refine .ite (fun _ => h.mapLoad _ (fun _ hl => ?_) fun a _ _ => ?_) fun _ => h
  · cases hm : m.figures <;> exact hl
  · apply Chip.cond_congr <;> first | rfl | (cases hm : m.figures <;> rfl)

theorem poll (h : From c0 w D c) : From c0 w D c.poll := by
  unfold Chip.poll
  split
  · exact (h.offer (sendCounterRequest_fits _)).mapLoad _
  · exact h.mapLoad _

theorem counterPollTimer (h : From c0 w D c) : From c0 w D c.counterPollTimer :=
  .ite (fun _ => h.poll.settleLink) fun _ => h

theorem truckStatusRefresh (h : From c0 w D c) : From c0 w D c.truckStatusRefresh :=
  .ite (fun _ => (h.mapLoad _).writeTruckSlot.settleLink) fun _ => h

end

end Chip.From

end Sys2Proof.Machine

/-! SUPPORT. The laws are kept by the operations of the role arbiter. -/

namespace Sys2Proof.Machine

set_option Elab.async false

/-- With NO WEIGHER clear and the listen timer stopped nothing is asked of the state. -/
theorem RoleArbiter.lawful_of {r : RoleArbiter} (hn : r.noWeigher = false) (hl : r.listen = none) : r.lawful := by
  simp [RoleArbiter.lawful, hn, hl]

theorem RoleArbiter.listening_lawful {r : RoleArbiter} (hn : r.noWeigher = false) (hs : r.state = .listen) : r.lawful := by
  simp [RoleArbiter.lawful, hn, hs]

/-- The arbiter as the exit from a role state leaves it, with another state in place. -/
def RoleArbiter.arrived (s : RoleState) (r : RoleArbiter) : RoleArbiter :=
  { r with pairing := [], behind := false, noWeigher := false, state := s }

/-- The refresh and poll timers stop at the exit from a role state (R70, R86). -/
def LoadRegister.untimed (l : LoadRegister) : LoadRegister := { l with refreshTimer := none, pollTimer := none }

/-- The exit from a role state, the entry to another and what the entry writes, block by block. -/
theorem Chip.arrive_eq (s : RoleState) (f : RoleArbiter → RoleArbiter) (c : Chip) :
    (c.leaveRole.setRole s).mapRole f
      = (((if c.role.state = .active then c.mapLink Link.emptyT else c).mapRole fun r => f (r.arrived s)).mapLoad
          LoadRegister.untimed).discardNote := rfl

namespace Chip.From

section
variable {c0 c : Chip} {w : Bool} {D : List Alarm}

/-! ## Role states -/

/-- NO WEIGHER is clear outside REPEAT. -/
theorem noWeigher_clear (h : From c0 w D c) (hs : c.role.state ≠ .repeating) (h0 : c0.role.lawful) :
    c.role.noWeigher = false := by
  cases hn : c.role.noWeigher with
  | false => rfl
  | true => exact absurd ((h.role h0).1 hn) hs

theorem writeStatus (h : From c0 w D c) : From c0 w D c.writeStatus :=
  .ite (fun _ => (h.mapRole _).mapLink _ fun hl => hl.writeW _ (sendStatus_fits ..)) fun _ => h

/-- The arbiter changes, and the conditions that it changes wait for it. -/
theorem mapRoleHeard (h : From c0 w D c) (f : RoleArbiter → RoleArbiter) (hf : c.role.lawful → (f c.role).lawful)
    (hc : .stationConflict ∈ D ∨ (f c.role).conflict = c.role.conflict := by exact .inr rfl)
    (hx : .crossCheck ∈ D ∨ (f c.role).crossCheck = c.role.crossCheck := by exact .inr rfl)
    (hn : .noWeigher ∈ D ∨ (c0.role.lawful → (f c.role).noWeigher = c.role.noWeigher) := by exact .inr fun _ => rfl) :
    From c0 w D (c.mapRole f) :=
  h.mapRole f hf fun _ h0 a ha _ =>
    match a with
    | .lowSupply | .inputFault | .calInvalid | .overload | .passOver => rfl
    | .stationConflict => hc.resolve_left ha
    | .crossCheck => hx.resolve_left ha
    | .noWeigher => hn.resolve_left ha h0

/-- A role state is left and another taken: what the entry writes leaves NO WEIGHER clear and CROSS-CHECK alone. -/
theorem arrive (h : From c0 w D c) (s : RoleState) (f : RoleArbiter → RoleArbiter)
    (hn : .noWeigher ∈ D ∨ (c0.role.lawful → c.role.noWeigher = false))
    (hf : c.role.lawful → (f (c.role.arrived s)).lawful)
    (hc : .stationConflict ∈ D ∨ (f (c.role.arrived s)).conflict = c.role.conflict := by exact .inr rfl)
    (hn' : (f (c.role.arrived s)).noWeigher = false := by exact rfl)
    (hx : (f (c.role.arrived s)).crossCheck = c.role.crossCheck := by exact rfl) :
    From c0 w D ((c.leaveRole.setRole s).mapRole f) := by
  rw [Chip.arrive_eq]
  have hl : From c0 w D (if c.role.state = .active then c.mapLink Link.emptyT else c) :=
    .ite (fun _ => h.mapLink _ fun hl => hl.emptyT) fun _ => h
  have hrole : (if c.role.state = .active then c.mapLink Link.emptyT else c).role = c.role := by split <;> rfl
  refine ((hl.mapRoleHeard (fun r => f (r.arrived s)) ?_ ?_ ?_ ?_).mapLoad LoadRegister.untimed).discardNote
  · rwa [hrole]
  · rwa [hrole]
  · exact .inr (by rw [hrole, hx])
  · exact hn.imp_right fun hn h0 => by rw [hrole, hn', hn h0]

theorem clearCrossCheck (h : From c0 w D c) : From c0 w D c.clearCrossCheck :=
  ((h.dirty .crossCheck).mapRoleHeard _ id (hx := .inl (by simp))).heard

theorem enterListen (h : From c0 w D c) : From c0 w D c.enterListen :=
  heard (((h.dirty .noWeigher).arrive .listen _ (.inl (by simp)) fun _ => by exact RoleArbiter.listening_lawful rfl rfl).mapLink _ fun hl => hl.emptyW)

theorem pollIf (h : From c0 w D c) : From c0 w D (if c.polls then c.poll else c) := .ite (fun _ => h.poll) fun _ => h

theorem enterRepeat (h : From c0 w D c) : From c0 w D c.enterRepeat :=
  ((h.dirty .noWeigher).arrive .repeating _ (.inl (by simp)) fun _ => by exact RoleArbiter.lawful_of rfl rfl).heard.writeStatus.pollIf

theorem startRefresh (h : From c0 w D c) : From c0 w D (c.mapLoad fun l => { l with refreshTimer := some c.tick }) :=
  h.mapLoad _

theorem enterActive (h : From c0 w D c) (hn : c0.role.lawful → c.role.noWeigher = false) : From c0 w D c.enterActive := by
  have ha := h.arrive .active (fun r => { r with named := none, namedSeq := none, watch := none, listen := none }) (.inr hn)
    fun _ => RoleArbiter.lawful_of rfl rfl
  exact ha.clearCrossCheck.adoptRecord.takeHeldTag.writeStatus.startRefresh.writeTruckSlot

theorem yieldRecord (h : From c0 w D c) : From c0 w D c.yieldRecord :=
  mapRole (.ite (fun _ => h) fun _ => h.closeRecord _) fun r => { r with mirrored := true }

theorem enterStandby (h : From c0 w D c) (hn : c0.role.lawful → c.role.noWeigher = false) : From c0 w D c.enterStandby :=
  (h.arrive .standby (fun r => { r with listen := none }) (.inr hn) fun _ => by exact RoleArbiter.lawful_of rfl rfl).yieldRecord.writeStatus

theorem compareMirror (h : From c0 w D c) (seq : BitVec 8) : From c0 w D (c.compareMirror seq) := h.mapRole _

theorem yieldTo (h : From c0 w D c) (hs : c.role.state = .active) (station : Nat) (seq : BitVec 8) :
    From c0 w D (c.yieldTo station seq) :=
  ((h.arrive .standby (fun r => { r with named := some station, watch := some c.tick }) (.inr fun h0 => h.noWeigher_clear (by simp [hs]) h0)
    fun hl => by
      refine RoleArbiter.lawful_of rfl ?_
      have hn := mt hl.2 (by simp [hs])
      simpa [RoleArbiter.arrived] using hn).yieldRecord.compareMirror seq).writeStatus

theorem enterMute (h : From c0 w D c) : From c0 w D c.enterMute := by
  have ha := (((((((h.dirty .noWeigher).dirty .stationConflict).arrive .mute
    (fun r => { r with conflict := true, listen := none, status := none }) (.inl (by simp))
    (fun _ => by exact RoleArbiter.lawful_of rfl rfl) (.inl (by simp))).mapLink (fun l => l.emptyW.emptyQueue)
      fun hl => hl.emptyW.emptyQueue).heard).heard).clearCrossCheck)
  exact .ite (fun _ => ha.adoptRecord.takeHeldTag) fun _ => ha

theorem conflictReport (h : From c0 w D c) : From c0 w D c.conflictReport := .ite (fun _ => h) fun _ => h.enterMute

theorem peerRecordRemoval (h : From c0 w D c) (station : Nat) : From c0 w D (c.peerRecordRemoval station) :=
  .ite (fun _ => h.mapRole _) fun _ => h

theorem nameStation (h : From c0 w D c) (station : Nat) : From c0 w D (c.nameStation station) :=
  .ite (fun _ => ((h.dirty .noWeigher).mapRoleHeard _ (fun hl => by exact ⟨fun e => Bool.noConfusion e, hl.2⟩) (hn := .inl (by simp))).heard) fun _ => h

theorem watchExpired (h : From c0 w D c) : From c0 w D c.watchExpired := by
  unfold Chip.watchExpired
  split
  · exact h.mapRole _
  · have hm := h.mapRole fun r => { r with named := none, namedSeq := none, watch := none }
    dsimp only
    split
    · next hs => exact hm.enterActive fun h0 => hm.noWeigher_clear (by rw [hs]; decide) h0
    · next hs =>
      exact ((hm.dirty .noWeigher).mapRoleHeard _ (fun hl => ⟨fun _ => hs, hl.2⟩) (hn := .inl (by simp))).heard
    all_goals exact hm

theorem noteStatus (h : From c0 w D c) (seq : BitVec 8) : From c0 w D (c.noteStatus seq) :=
  .ite (fun _ => h.compareMirror seq) fun _ => h.mapRole _

theorem hearStatus (h : From c0 w D c) (station : Nat) (m : StatusMsg) : From c0 w D (c.hearStatus station m) := by
  unfold Chip.hearStatus
  split
  · exact .ite (fun _ => (h.nameStation station).noteStatus _) fun _ => h.nameStation station
  · exact .ite (fun _ => (h.noteStatus _).watchExpired) fun _ => h
  all_goals exact .ite (fun _ => h.noteStatus _) fun _ => h

theorem weigherStatus (h : From c0 w D c) (src : Byte) (m : StatusMsg) : From c0 w D (c.weigherStatus src m) := by
  have hm := h.mapRole fun r => { r with peers := hearPeer src.toNat m.state c.tick r.peers }
  exact .ite (fun hs => .ite (fun _ => .ite (fun _ => hm.yieldTo hs _ _) fun _ => hm.writeStatus) fun _ => hm)
    fun _ => hm.hearStatus _ m

theorem dropShadowNote (h : From c0 w D c) (before : Option TruckRec) : From c0 w D (c.dropShadowNote before) := by
  refine .ite (fun _ => h) fun _ => ?_
  split
  · exact .ite (fun _ => h) fun _ => h.discardNote
  · exact h

theorem truckStatus (h : From c0 w D c) (src : Byte) {m : TruckMsg} (hm : m.inRange) :
    From c0 w D (c.truckStatus src m) := by
  refine .ite (fun _ => heard (((setRecord (h.dirty .overload) fun h0 x hx => ?_).mapLoad _).mapRole _ |>.dropShadowNote _))
    fun _ => h
  split at hx
  · cases hx
    exact mirrorRecord_inRange (h.load h0).1 hm
  · cases hx

theorem countUnpaired (h : From c0 w D c) : From c0 w D c.countUnpaired := h.mapRole _

theorem crossCheckPass (h : From c0 w D c) (p : PassRec) : From c0 w D (c.crossCheckPass p) := by
  unfold Chip.crossCheckPass
  split
  · split
    · exact h.countUnpaired
    · exact ((h.dirty .crossCheck).mapRoleHeard _ id (hx := .inl (by simp))).heard
  · exact h

theorem shadowCommitted (h : From c0 w D c) (payload : Option Nat) : From c0 w D (c.shadowCommitted payload) := by
  unfold Chip.shadowCommitted
  split
  · exact mapRole (.ite (fun _ => (h.mapRole _).countUnpaired) fun _ => h) _
  · exact h

theorem pairingTimerExpiry (h : From c0 w D c) : From c0 w D c.pairingTimerExpiry := by
  unfold Chip.pairingTimerExpiry
  split
  · exact h
  · exact .ite (fun _ => (h.mapRole _).countUnpaired) fun _ => h

theorem lastPass (h : From c0 w D c) {p : PassRec} (hp : c0.ready → p.inRange) :
    From c0 w D (c.mapPanel fun q => { q with lastPass := some p }) :=
  h.mapPanel _ fun h0 hq => ⟨hq.1, fun q e => by cases e; exact hp h0⟩

theorem passRecord (h : From c0 w D c) (src : Byte) {p : PassRec} (hp : p.inRange) : From c0 w D (c.passRecord src p) := by
  refine .ite (fun _ => ?_) fun _ => h
  have hs := ((((h.dirty .overload).setRecord (r := some (mirrorJoin c.load.record p)) fun h0 x hx => by
    cases hx
    exact mirrorJoin_inRange (h.load h0).1 hp).mapRole fun r => { r with mirrored := true }).dropShadowNote
      c.load.record).heard.crossCheckPass p
  exact .ite (fun _ => hs.lastPass fun _ => hp) fun _ => hs

theorem truckClosed (h : From c0 w D c) (src : Byte) {m : ClosedMsg} (hm : m.inRange) : From c0 w D (c.truckClosed src m) :=
  .ite (fun _ => (h.appendSummary fun _ => hm.summary 0).countTruck) fun _ => h

theorem settleRole (h : From c0 w D c) : From c0 w D c.settleRole :=
  .ite (fun _ => h.enterMute) fun _ => .ite (fun _ => h.enterListen) fun _ => h.enterRepeat

/-- The resume role is taken while the start is under way. -/
theorem resumeRole (h : From c0 true D c) : From c0 true D c.resumeRole := by
  have hr := (h.mapRole RoleArbiter.resume (fun _ => by exact RoleArbiter.lawful_of rfl rfl) nofun).discardNote
  unfold Chip.resumeRole
  dsimp only
  split
  · exact hr.enterActive fun _ => rfl
  · exact (hr.mapRole _).writeStatus
  · next hs => exact hr.mapRole _ (fun _ => by exact RoleArbiter.listening_lawful rfl hs)
  · exact hr.writeStatus
  · exact ((hr.mapRole _).writeStatus).pollIf
  · exact hr.mapRole _ id nofun

theorem takeCalibrating (h : From c0 w D c) (hn : c0.role.lawful → c.role.noWeigher = false) :
    From c0 w D c.takeCalibrating :=
  .ite (fun _ => h) fun _ => (h.arrive .calibrating _ (.inr hn) fun _ => by exact RoleArbiter.lawful_of rfl rfl).writeStatus

theorem takeListen (h : From c0 w D c) : From c0 w D c.takeListen :=
  .ite (fun _ => .ite (fun _ => h) fun _ => h.enterListen) fun _ => .ite (fun _ => h) fun _ => h.mapRole _

theorem statusTimerExpiry (h : From c0 w D c) : From c0 w D c.statusTimerExpiry :=
  .ite (fun _ => h.writeStatus.settleLink) fun _ => h

theorem watchTimerExpiry (h : From c0 w D c) : From c0 w D c.watchTimerExpiry :=
  .ite (fun _ => h.watchExpired.settleLink) fun _ => h

theorem listenTimerExpiry (h : From c0 w D c) : From c0 w D c.listenTimerExpiry := by
  refine .ite (fun hd => settleLink ?_) fun _ => h
  have hl : c.role.listen.isSome = true := by
    cases hl : c.role.listen with
    | none => simp [hl, due] at hd
    | some t => rfl
  have hn : c0.role.lawful → c.role.noWeigher = false := fun h0 =>
    h.noWeigher_clear (by rw [(h.role h0).2 hl]; decide) h0
  exact .ite (fun _ => h.enterStandby hn) fun _ => h.enterActive hn

end

end Chip.From

end Sys2Proof.Machine

/-! SUPPORT. The laws are kept by the operations of the cycle tracker. -/

namespace Sys2Proof.Machine

set_option Elab.async false

/-! ## The tracker's ranges -/

theorem Tracker.inRange.endPass {t : Tracker} (h : t.inRange) : t.endPass.inRange := ⟨nofun, h.2⟩

theorem Tracker.inRange.mapCtx {t : Tracker} (h : t.inRange) {f : PassCtx → PassCtx}
    (hf : ∀ x, x.inRange → (f x).inRange) : (t.mapCtx f).inRange := by
  refine ⟨fun x hx => ?_, h.2⟩
  obtain ⟨y, hy, rfl⟩ := Option.map_eq_some_iff.1 hx
  exact hf y (h.1 y hy)

theorem Tracker.inRange.opened {t : Tracker} (h : t.inRange) (k : PassKind) (now : Tick) :
    ({ t with ctx := some (PassCtx.open_ k now) } : Tracker).inRange :=
  ⟨fun x hx => by cases hx; exact PassCtx.open_inRange k now, h.2⟩

theorem PassRec.inRange.counted {p : PassRec} (h : p.inRange) {id n : Nat} (hid : id ≤ 65535) :
    ({ p with truckId := id, number := satAdd 255 n 1 } : PassRec).inRange := h.renumber hid (satAdd_le _ _ _)

theorem TruckRec.inRange.id_le {r : TruckRec} (h : r.inRange) : r.id ≤ 65535 := by
  obtain ⟨-, -, -, -, hid, -⟩ := (TruckRec.inRange_iff r).1 h
  exact hid

namespace Chip.From

section
variable {c0 c : Chip} {w : Bool} {D : List Alarm}

/-! ## The commit -/

theorem shadowPass (h : From c0 w D c) {p : PassRec} (hp : c0.ready → p.inRange) (h0 : c0.ready) :
    (c.shadowPass p).inRange := by
  unfold Chip.shadowPass
  split
  · next r hr => exact (hp h0).counted ((h.load h0).1 r hr).id_le
  · exact (hp h0).renumber (by omega) (by omega)

theorem deliverPass (h : From c0 w D c) {p : PassRec} (hp : c0.ready → p.inRange) :
    From c0 w D (c.deliverPass p).2 ∧ (c0.ready → (c.deliverPass p).1.inRange) := by
  unfold Chip.deliverPass
  split
  · exact h.joinRecord hp
  · exact ⟨h.shadowCommitted _, h.shadowPass hp⟩

theorem passOver (h : From c0 w D c) (b : Bool) : From c0 w D (if b then c.pulsePassOver else c) :=
  .ite (fun _ => h.pulsePassOver) fun _ => h

theorem noted (h : From c0 w D c) {n : Note} (hn : c0.ready → n.pass.inRange) :
    From c0 w D (c.mapTrk fun t => { t with note := some n }) :=
  h.mapTrk _ fun h0 ht => ⟨ht.1, fun m e => by cases e; exact hn h0⟩

theorem commitPass (h : From c0 w D c) {p : PassRec} (hp : c0.ready → p.inRange) : From c0 w D (c.commitPass p) := by
  have hn := h.mapLoad (LoadRegister.countCommit p.kind p.payload) (fun _ hl => hl.countCommit ..)
    fun a _ _ => by apply Chip.cond_congr <;> simp
  obtain ⟨hd, hp'⟩ := (hn.beepEvent .beep).deliverPass hp
  exact ((hd.passOver _).lastPass hp').noted hp'

theorem enterDump (h : From c0 w D c) : From c0 w D c.enterDump := by
  have he : From c0 w D ((c.mapTrk Tracker.endPass).setCycle .dump) :=
    (h.mapTrk _ fun _ ht => ht.endPass).mapTrk _ fun _ ht => ht
  unfold Chip.enterDump
  dsimp only
  split
  · next x hx => exact he.commitPass fun h0 => ((h.trk h0).1 x hx).record _
  · exact he

/-! ## The states of a cycle -/

theorem enterLift (h : From c0 w D c) : From c0 w D c.enterLift :=
  have hl := h.mapTrk (fun t => { t with cycle := .lift, fillTimer := none }) fun _ ht => ht
  .ite (fun _ => hl.enterDump) fun _ => hl

theorem enterFill (h : From c0 w D c) : From c0 w D c.enterFill :=
  have hf := h.mapTrk (fun t => { t with cycle := .fill, ctx := some (PassCtx.open_ .normal c.tick), fillTimer := none })
    fun _ ht => ht.opened _ _
  .ite (fun _ => hf.enterLift) fun _ => hf

theorem enterIdle (h : From c0 w D c) : From c0 w D c.enterIdle := by
  have hi := h.mapTrk (fun t => { t.endPass with cycle := .idle, racked := false }) fun _ ht => ht.endPass
  unfold Chip.enterIdle
  dsimp only
  split
  · exact .ite (fun _ => hi.enterFill) fun _ => hi
  · exact hi

theorem testRacked (h : From c0 w D c) (tilt : Int) : From c0 w D (c.testRacked tilt) := h.mapTrk _ fun _ ht => ht

theorem enterReturn (h : From c0 w D c) : From c0 w D c.enterReturn := by
  have hr := h.mapTrk (fun t => { t.endPass with cycle := .ret, racked := false }) fun _ ht => ht.endPass
  unfold Chip.enterReturn
  dsimp only
  split
  · exact .ite (fun _ => (hr.testRacked _).enterIdle) fun _ => hr.testRacked _
  · exact .ite (fun _ => hr.enterIdle) fun _ => hr

theorem shut (h : From c0 w D c) : From c0 w D (c.mapEng Engine.shut) := h.mapEng _ fun he => he.shut

theorem shutIfWeigh (h : From c0 w D c) : From c0 w D c.shutIfWeigh := .ite (fun _ => h.shut) fun _ => h

theorem voidPass (h : From c0 w D c) (r : VoidReason) : From c0 w D (c.voidPass r) :=
  h.shutIfWeigh.mapTrk _ fun _ ht => ht.endPass

theorem mapCtx (h : From c0 w D c) {f : PassCtx → PassCtx} (hf : ∀ x, x.inRange → (f x).inRange) :
    From c0 w D (c.mapTrk (Tracker.mapCtx f)) := h.mapTrk _ fun _ ht => ht.mapCtx hf

/-- The dump tilt is at hand while the window is open (R35). -/
theorem dumpWeigh (h : From c0 w D c) :
    From c0 w D ((c.mapEng Engine.shut).mapTrk (Tracker.mapCtx PassCtx.unweigh)).enterDump :=
  (h.shut.mapCtx fun _ hx => hx.unweigh).enterDump

theorem enterWeigh (h : From c0 w D c) : From c0 w D c.enterWeigh := by
  have hw := (h.mapEng (fun _ => Engine.openWindow c.cfg c.panel.settings.curveSet
      c.store.curves[c.panel.settings.curveSet]) fun _ => Engine.inRange.openWindow ..).mapTrk
    (fun t => { t.mapCtx (fun x => { x with idx := some c.panel.settings.curveSet }) with cycle := .weigh, racked := false })
    fun _ ht => ht.mapCtx fun _ hx => hx
  exact .ite (fun _ => hw.dumpWeigh) fun _ => hw

theorem amend (h : From c0 w D c) (r : Nat) : From c0 w D (c.amend r) := by
  unfold Chip.amend
  split
  · exact h
  · next n hn =>
    split
    · next prev _ _ =>
      have hp : c0.ready → (n.pass.amend (min prev r) c.cfg.rated).inRange := fun h0 => ((h.trk h0).2 n hn).amend _ _
      have hl := h.mapLoad (LoadRegister.lowerTonnage (min prev r)) fun _ hl => hl.lowerTonnage _
      have ha := ite (p := n.isRecord = true) (fun _ => hl.amendRecord (min prev r) hp) fun _ => hl
      exact ha.mapTrk _ fun h0 ht =>
        ⟨(ht.mapCtx (f := fun x => { x with amendMade := true }) fun _ hx => hx).1, fun m hm => by cases hm; exact hp h0⟩
    · exact h

theorem judgeRemainder (h : From c0 w D c) : From c0 w D c.judgeRemainder := by
  unfold Chip.judgeRemainder
  split
  · split
    · exact h.amend _
    · exact h
  · exact h

theorem enterCarry (h : From c0 w D c) : From c0 w D c.enterCarry := by
  have hc := h.mapTrk (fun t => { t with cycle := .carry, carryTimer := some c.tick }) fun _ ht => ht
  exact .ite (fun _ => (hc.voidPass _).enterReturn) fun _ => .ite (fun _ => hc.judgeRemainder.enterDump) fun _ =>
    .ite (fun _ => (hc.judgeRemainder.voidPass _).enterIdle) fun _ => hc.judgeRemainder

theorem closeWindow (h : From c0 w D c) : From c0 w D c.closeWindow :=
  ((h.mapEng (fun e => (e.close c.cfg c.panel.settings.trim).2) fun he => he.close ..).mapCtx
    fun _ hx => hx.takeResult (Engine.close_inRange ..)).enterCarry

theorem carryUnweighed (h : From c0 w D c) : From c0 w D c.carryUnweighed :=
  (h.mapCtx fun x hx => by
    split
    · exact hx
    · exact hx.unweigh).enterCarry

theorem abandonWindow (h : From c0 w D c) : From c0 w D c.abandonWindow :=
  (h.shut.mapCtx fun _ hx => hx.abandon).enterLift

/-! ## Angle arrivals -/

theorem openAndCross (h : From c0 w D c) (prev : Option Int) (theta : Int) : From c0 w D (c.openAndCross prev theta) :=
  .ite (fun _ => h.enterWeigh.closeWindow) fun _ => h.enterWeigh

theorem angleInLift (h : From c0 w D c) (prev : Option Int) (theta : Int) : From c0 w D (c.angleInLift prev theta) :=
  .ite (fun _ => h.openAndCross prev theta) fun _ => .ite (fun _ => h.carryUnweighed) fun _ => h

theorem angleInReturn (h : From c0 w D c) (prev : Option Int) (theta : Int) : From c0 w D (c.angleInReturn prev theta) :=
  .ite (fun _ => h.enterIdle) fun _ =>
    .ite (fun _ => (h.mapTrk _ fun _ ht => ht.opened _ _).openAndCross prev theta) fun _ => h

theorem angleInWeigh (h : From c0 w D c) (prev : Option Int) (theta : Int) : From c0 w D (c.angleInWeigh prev theta) :=
  .ite (fun _ => .ite (fun _ => h.closeWindow.angleInReturn prev theta) fun _ => h.closeWindow) fun _ =>
    .ite (fun _ => h.abandonWindow) fun _ => h

theorem angleTransition (h : From c0 w D c) (prev : Option Int) (theta : Int) :
    From c0 w D (c.angleTransition prev theta) := by
  unfold Chip.angleTransition
  split
  · exact h.angleInLift prev theta
  · exact h.angleInWeigh prev theta
  · exact .ite (fun _ => (h.voidPass _).enterIdle) fun _ => h
  · exact h.angleInReturn prev theta
  all_goals exact h

/-! ## Input loss, arrivals and timers -/

theorem syncLoss (h : From c0 w D c) : From c0 w D c.syncLoss := by
  unfold Chip.syncLoss
  exact h.mapTrk _ fun _ ht => ht

theorem inputLossExpiry (h : From c0 w D c) (side : LossSide) : From c0 w D (c.inputLossExpiry side) :=
  .ite (fun _ => (h.voidPass _).enterIdle.settleLink) fun _ => h

theorem trackAngle (h : From c0 w D c) (status : ArrStatus) : From c0 w D (c.trackAngle status) := by
  unfold Chip.trackAngle
  split
  · next theta _ =>
    have ht := h.mapTrk (fun t => { t with prevAngle := some theta }) fun _ ht => ht
    exact .ite (fun _ => h) fun _ => .ite (fun _ => ht.angleTransition _ _) fun _ => ht
  · exact h

theorem trackPressure (h : From c0 w D c) (status : ArrStatus) : From c0 w D (c.trackPressure status) := by
  unfold Chip.trackPressure
  split
  · split
    · exact .ite (fun _ => h.enterFill) fun _ => h
    · exact h.mapTrk _ fun _ ht => ht
    all_goals exact h
  · exact h

theorem trackTilt (h : From c0 w D c) (status : ArrStatus) : From c0 w D (c.trackTilt status) := by
  unfold Chip.trackTilt
  split
  · split
    · exact .ite (fun _ => h.enterLift) fun _ => h
    · exact .ite (fun _ => h.enterDump) fun _ => h
    · exact .ite (fun _ => h.dumpWeigh) fun _ => h
    · exact .ite (fun _ => h.enterDump) fun _ => h
    · exact .ite (fun _ => h.enterReturn) fun _ => h
    · exact h.testRacked _
    all_goals exact h
  · exact h

theorem fillEmptyExpiry (h : From c0 w D c) : From c0 w D c.fillEmptyExpiry :=
  .ite (fun _ => h.enterIdle.settleLink) fun _ => h

theorem carryExpiry (h : From c0 w D c) : From c0 w D c.carryExpiry :=
  .ite (fun _ => (h.voidPass _).enterIdle.settleLink) fun _ => h

/-! ## Suspension -/

theorem suspendPass (h : From c0 w D c) : From c0 w D c.suspendPass :=
  .ite (fun _ => h) fun _ =>
    mapTrk (.ite (fun _ => h.voidPass _) fun _ => h.mapTrk _ fun _ ht => ht.endPass) _ fun _ ht => ht

theorem suspendPower (h : From c0 w D c) : From c0 w D c.suspendPower := h.suspendPass.mapTrk _ fun _ ht => ht

theorem suspendCal (h : From c0 w D c) : From c0 w D c.suspendCal := h.suspendPass.mapTrk _ fun _ ht => ht

theorem unsuspend (h : From c0 w D c) : From c0 w D c.unsuspend := .ite (fun _ => h) fun _ => h.enterIdle

theorem removeCal (h : From c0 w D c) : From c0 w D c.removeCal := (h.mapTrk _ fun _ ht => ht).unsuspend

theorem resumeTracker (h : From c0 w D c) : From c0 w D c.resumeTracker :=
  (h.mapTrk (fun t => { t with suspPower := false, prevAngle := none, note := none }) fun _ ht => ⟨ht.1, nofun⟩).unsuspend

theorem restartTracker (h : From c0 w D c) : From c0 w D c.restartTracker := by
  have hv := ite (p := c.trk.inFlight = true) (fun _ => h.voidPass .restart) fun _ => h
  exact .ite (fun _ => hv) fun _ => hv.mapTrk _ fun _ ht => ht.endPass

end

end Chip.From

end Sys2Proof.Machine

/-! SUPPORT. The laws are kept by the operations of the calibration unit and the panel. -/

namespace Sys2Proof.Machine

set_option Elab.async false

/-! ## Which conditions an operation can move -/

/-- Of the input table only INPUT FAULT reads anything, the channels that can be required. -/
theorem Chip.mapInp_cond (f : InputTable → InputTable) (c : Chip) (a : Alarm)
    (h : a = .inputFault → ∀ i, i ≠ .secondary → i ≠ .tag → (f c.inp).chan i = c.inp.chan i) :
    (c.mapInp f).cond a = c.cond a := by
  cases a <;> try rfl
  have hc := h rfl
  have h1 := hc .pressure (by decide) (by decide)
  have h2 := hc .primary (by decide) (by decide)
  have h3 := hc .tilt (by decide) (by decide)
  have h4 := hc .drive (by decide) (by decide)
  have h5 := hc .incline (by decide) (by decide)
  simp only [Chip.cond, Chip.inputFault, Chip.inRun, Chip.isWeigher, Chip.cfg, Chip.mapInp_inp, Chip.mapInp_sup,
    Chip.mapInp_store, ChanId.all, List.any_cons, List.any_nil, h1, h2, h3, h4, h5]
  simp [Cfg.requires]

/-- Of the curve sets only CAL INVALID reads anything. -/
theorem Chip.mapStore_cond_ne (f : ParamStore → ParamStore) (c : Chip) (a : Alarm) (hg : (f c.store).cfg = c.store.cfg)
    (ha : a ≠ .calInvalid) : (c.mapStore f).cond a = c.cond a := by
  cases a <;>
    simp_all [Chip.cond, Chip.inputFault, Chip.inRun, Chip.isWeigher, Chip.cfg, Chip.overloaded]

/-- Of the panel only CAL INVALID reads anything, the active curve set. -/
theorem Chip.mapPanel_cond_ne (f : Panel → Panel) (c : Chip) (a : Alarm) (ha : a ≠ .calInvalid) :
    (c.mapPanel f).cond a = c.cond a := by
  cases a <;> first | rfl | exact absurd rfl ha

theorem InputTable.arriveAngle_tag (limit : Nat) (src : AngleSrc) (m : AngleMsg) (now : Tick) (t : InputTable) :
    (t.arriveAngle limit src m now).held.tag = t.held.tag := by
  cases src <;> cases h : decide (m.status = .ok) <;> simp_all [InputTable.arriveAngle, InputTable.setChan, AngleSrc.chan,
    HeldValues.setAngle]

/-- An arrival of the secondary angle moves its own record alone. -/
theorem InputTable.arriveSecondary_chan (limit : Nat) (m : AngleMsg) (now : Tick) (t : InputTable) (i : ChanId)
    (hi : i ≠ .secondary) : (t.arriveAngle limit .secondary m now).chan i = t.chan i := by
  cases i <;> first | exact absurd rfl hi | simp [InputTable.arriveAngle, InputTable.chan, InputTable.setChan, AngleSrc.chan]

theorem InputTable.setChan_held (t : InputTable) (i : ChanId) (r : ChanRec) : (t.setChan i r).held = t.held := by
  cases i <;> rfl

namespace Chip.From

section
variable {c0 c : Chip} {w : Bool} {D : List Alarm}

/-- The input table changes but for its tag, and INPUT FAULT waits for it. -/
theorem inputs (h : From c0 w D c) (f : InputTable → InputTable) (ht : (f c.inp).held.tag = c.inp.held.tag) :
    From c0 w (.inputFault :: D) (c.mapInp f) :=
  (h.dirty .inputFault).mapInp f (fun _ hh t e => hh t (ht ▸ e)) fun a ha _ =>
    Chip.mapInp_cond f c a fun e => absurd (e ▸ List.mem_cons_self ..) ha

/-- The input table changes but for the channels that can be required. -/
theorem unrequired (h : From c0 w D c) (f : InputTable → InputTable)
    (ht : c0.ready → c.inp.held.tagInRange → (f c.inp).held.tagInRange)
    (hc : ∀ i, i ≠ .secondary → i ≠ .tag → (f c.inp).chan i = c.inp.chan i) : From c0 w D (c.mapInp f) :=
  h.mapInp f ht fun a _ _ => Chip.mapInp_cond f c a fun _ => hc

/-- The panel changes but for its settings and the last pass. -/
theorem display (h : From c0 w D c) (f : Panel → Panel) (hs : (f c.panel).settings = c.panel.settings := by exact rfl)
    (hp : (f c.panel).lastPass = c.panel.lastPass := by exact rfl) : From c0 w D (c.mapPanel f) :=
  h.mapPanel f (fun _ hh => ⟨hs ▸ hh.1, hp ▸ hh.2⟩) fun a _ _ => by
    apply Chip.cond_congr <;> simp [hs]

/-! ## The calibration unit -/

theorem stopPoll (h : From c0 w D c) : From c0 w D c.stopPoll := h.mapLoad _

theorem enterCal (h : From c0 w D c) (hs : c.role.state ≠ .repeating) : From c0 w D c.enterCal := by
  have ht := h.suspendCal.takeCalibrating fun h0 => h.suspendCal.noWeigher_clear (by simpa using hs) h0
  unfold Chip.enterCal
  exact (ht.mapCal _).stopPoll.display _

theorem requestCal (h : From c0 w D c) : From c0 w D c.requestCal := by
  refine .ite (fun hm => h.enterCal fun hs => ?_) fun _ => h.display _
  simp [Chip.mayCalibrate, hs] at hm

theorem leaveCal (h : From c0 w D c) : From c0 w D c.leaveCal := by
  have hl := (h.mapCal fun u => { u with state := .out, liftOpen := false }).takeListen.removeCal
  unfold Chip.leaveCal
  refine hl.display _ ?_ ?_ <;> split <;> rfl

theorem requestCurve (h : From c0 w D c) : From c0 w D c.requestCurve := by
  unfold Chip.requestCurve
  split
  · exact h
  · refine .ite (fun _ => mapCal ?_ _) fun _ => h.mapCal _
    exact h.mapStore _ (fun hc => hc.askCurve _ _ _) (fun _ hr => hr.askCurve _ _ _) (ParamStore.askCurve_frame ..).1
      fun a _ _ => Chip.mapStore_cond _ _ a (ParamStore.askCurve_frame ..).1 (ParamStore.askCurve_frame ..).2

theorem curveWritten (h : From c0 w D c) (i : Fin 4) (s : CurveSet) : From c0 w D (c.curveWritten i s) := by
  have hs := (h.dirty .calInvalid).mapStore (fun p => { p with curves := p.curves.set i s }) id (fun _ => id) rfl
    fun a ha _ => Chip.mapStore_cond_ne _ _ a rfl fun e => ha (e ▸ List.mem_cons_self ..)
  exact heard (.ite (fun _ => .ite (fun _ => hs.mapCal _) fun _ => hs.leaveCal) fun _ => hs)

theorem handCompletion (h : From c0 w D c) (wr : WriteReq) : From c0 w D (c.handCompletion wr) := by
  cases wr with
  | config _ => exact h.answerCommits
  | curve i s => exact h.curveWritten i s
  | retain _ => exact h

theorem kick (h : From c0 w D c) (now : Tick) : From c0 w D (c.mapStore (ParamStore.kick now)) :=
  h.mapStore _ (fun hc => hc.kick _) (fun _ hr => hr.kick _) (ParamStore.kick_frame ..).1
    fun a _ _ => Chip.mapStore_cond _ _ a (ParamStore.kick_frame ..).1 (ParamStore.kick_frame ..).2.2.1

theorem storeWriteComplete (h : From c0 w D c) : From c0 w D c.storeWriteComplete := by
  have hf := h.mapStore ParamStore.finishWrite (fun hc => hc.finishWrite) (fun _ hr => hr.finishWrite) (by simp)
    fun a _ _ => Chip.mapStore_cond _ _ a (by simp) (by simp)
  unfold Chip.storeWriteComplete
  split
  · exact h
  · refine .ite (fun _ => ?_) fun _ => h
    dsimp only
    split
    · exact ((hf.handCompletion _).kick _).settleLink
    all_goals exact hf

theorem calUpDown (h : From c0 w D c) (up : Bool) : From c0 w D (c.calUpDown up) := by
  unfold Chip.calUpDown
  split
  · exact h.mapCal _
  · exact h.mapCal _
  all_goals exact h

theorem calEnter (h : From c0 w D c) : From c0 w D c.calEnter := by
  unfold Chip.calEnter
  split
  · exact .ite (fun _ => h.mapCal _) fun _ => h.mapCal _
  · exact .ite (fun _ => h.mapCal _) fun _ => h
  · exact .ite (fun _ => h.mapCal _) fun _ => h
  · exact h.requestCurve
  all_goals exact h

theorem calMode (h : From c0 w D c) : From c0 w D c.calMode := by
  unfold Chip.calMode
  split
  all_goals first | exact h.leaveCal | exact h

theorem calPress (h : From c0 w D c) (k : Key) : From c0 w D (c.calPress k) :=
  match k with
  | .mode => h.calMode
  | .up => h.calUpDown true
  | .down => h.calUpDown false
  | .enter => h.calEnter

theorem suspendCalibration (h : From c0 w D c) : From c0 w D c.suspendCalibration := by
  unfold Chip.suspendCalibration
  split
  all_goals first | exact h.leaveCal | exact h

/-! ## The panel -/

theorem writeShadow (h : From c0 w D c) : From c0 w D c.writeShadow := by
  unfold Chip.writeShadow
  split
  · exact h.display _
  · exact h.display _
  all_goals exact h

theorem bklPeriodStart (h : From c0 w D c) : From c0 w D c.bklPeriodStart := by
  refine .ite (fun _ => ?_) fun _ => h
  split <;> exact h.display _

theorem keyLineChange (h : From c0 w D c) (k : Key) (low : Bool) : From c0 w D (c.keyLineChange k low) :=
  have hp := h.pins { c.pins with keys := c.pins.keys.set k low }
  .ite (fun _ => h) fun _ => .ite (fun _ => hp.display _) fun _ => hp

theorem enterHistory (h : From c0 w D c) : From c0 w D c.enterHistory := h.display _

theorem enterPage (h : From c0 w D c) (g : Page) : From c0 w D (c.enterPage g) := by
  have hg := h.display fun p => { p with page := g }
  unfold Chip.enterPage
  dsimp only
  split
  · exact hg.display _
  · exact (hg.display fun p => { p with countItem := 1 }).pollIf
  · exact hg.enterHistory
  · exact hg.display _
  all_goals exact hg

theorem pageStep (h : From c0 w D c) : From c0 w D c.pageStep :=
  enterPage (.ite (fun _ => h.stopPoll) fun _ => h) _

theorem historySelect (h : From c0 w D c) (up : Bool) : From c0 w D (c.historySelect up) :=
  h.display _ (by simp) (by simp)

theorem historyNewest (h : From c0 w D c) : From c0 w D c.historyNewest := h.display _ (by simp) (by simp)

/-- A changed setting is in range, and CAL INVALID waits for a change of the active curve set. -/
theorem setSettings (h : From c0 w D c) {s : Settings} (hs : c0.ready → s.inRange) :
    From c0 w (.calInvalid :: D) (c.mapPanel fun p => { p with settings := s }.restartBlink c.tick) :=
  (h.dirty .calInvalid).mapPanel _ (fun h0 hh => ⟨hs h0, hh.2⟩) fun a ha _ =>
    Chip.mapPanel_cond_ne _ _ a fun e => ha (e ▸ List.mem_cons_self ..)

end

end Chip.From

end Sys2Proof.Machine

/-! SUPPORT. The laws are kept by the keys, the arrivals of the channels and the reception of a telegram. -/

namespace Sys2Proof.Machine

set_option Elab.async false
namespace Chip.From

section
variable {c0 c : Chip} {w : Bool} {D : List Alarm}

/-! ## Keys -/

theorem settingChanged (h : From c0 w (.calInvalid :: D) c) (item : Nat)
    (hc : item ≠ 5 → From c0 w D c) : From c0 w D (c.settingChanged item) := by
  unfold Chip.settingChanged
  split
  · exact .ite (fun _ => hc (by decide)) fun _ => (hc (by decide)).writeShadow
  · exact .ite (fun _ => (hc (by decide)).writeShadow) fun _ => hc (by decide)
  · exact (hc (by decide)).beepEvent _
  · exact h.heard
  · next h5 => exact hc h5

/-- A SETUP item but the active curve set leaves the active curve set. -/
theorem step_curveSet (s : Settings) (item : Nat) (up : Bool) (h : item ≠ 5) :
    (s.step item up).curveSet = s.curveSet := by
  unfold Settings.step
  split <;> first | rfl | exact absurd rfl h

theorem setupStep (h : From c0 w D c) (up : Bool) : From c0 w D (c.setupStep up) := by
  have hs : c0.ready → (c.panel.settings.step c.panel.setupItem up).inRange := fun h0 => (h.panel h0).1.step _ _
  refine .ite (fun _ => h) fun _ => (h.setSettings hs).settingChanged _ fun h5 => ?_
  exact h.mapPanel _ (fun h0 hh => ⟨hs h0, hh.2⟩) fun a _ _ => by
    apply Chip.cond_congr <;> first | rfl | exact step_curveSet _ _ _ h5

theorem calStep (h : From c0 w D c) (up : Bool) : From c0 w D (c.calStep up) :=
  .ite (fun _ => h.calUpDown up) fun _ => (h.calUpDown up).display _

theorem routeCal (h : From c0 w D c) (k : Key) : From c0 w D (c.routeCal k) :=
  match k with
  | .up => h.calStep true
  | .down => h.calStep false
  | .mode => h.calPress .mode
  | .enter => h.calPress .enter

theorem routeUpDown (h : From c0 w D c) (up : Bool) : From c0 w D (c.routeUpDown up) := by
  unfold Chip.routeUpDown
  split
  · exact h
  · exact h
  · exact h.display _
  · exact h.display _
  · exact h.historySelect up
  · exact h.setupStep up
  · exact h.display _

theorem routeEnter (h : From c0 w D c) : From c0 w D c.routeEnter := by
  unfold Chip.routeEnter
  split
  · exact h.nextManualTruck
  · exact h.historyNewest
  · exact h.display _
  all_goals exact h

theorem routePage (h : From c0 w D c) (k : Key) : From c0 w D (c.routePage k) :=
  match k with
  | .mode => h.pageStep
  | .up => h.routeUpDown true
  | .down => h.routeUpDown false
  | .enter => h.routeEnter

theorem routePress (h : From c0 w D c) (k : Key) : From c0 w D (c.routePress k) :=
  .ite (fun _ => h.routePage k) fun _ => h.routeCal k

theorem pressInRun (h : From c0 w D c) (k : Key) : From c0 w D (c.pressInRun k) := by
  unfold Chip.pressInRun
  split
  · exact h.acknowledge _
  · exact h.routePress _

/-- The PEEK timer runs or stops. -/
theorem peekTimer (h : From c0 w D c) (t : Option Tick) : From c0 w D (c.mapSup fun s => { s with peekTimer := t }) :=
  h.mapSup _ rfl id (.inr rfl)

/-- A change of power state outside RUN: no condition is heard there, and no record has more to obey. -/
theorem setPower (h : From c0 w D c) {p : Power} (hr : c.sup.power ≠ .run) (hp : p ≠ .run) :
    From c0 w D (c.setPower p) :=
  { h with
    lawful := fun hw h0 a => by
      obtain ⟨h1, h2, h3⟩ := h.lawful hw h0 a
      exact ⟨h1, fun ht => absurd (h2 ht).1 hr, fun he => absurd he hp⟩
    current := fun _ _ _ _ _ _ he => absurd he hp }

theorem enterPeek (h : From c0 w D c) (hr : c.sup.power ≠ .run) : From c0 w D c.enterPeek :=
  ((((h.setPower hr (by decide)).peekTimer _).display Panel.peek).writeShadow).settleLink

theorem dozeKeys (h : From c0 w D c) (was : Bool) : From c0 w D (c.dozeKeys was) := by
  refine h.display _ ?_ ?_ <;> unfold Panel.dozeKeys <;> (repeat' split) <;> rfl

theorem peekToDoze (h : From c0 w D c) (hr : c.sup.power ≠ .run) : From c0 w D c.peekToDoze :=
  (((((h.setPower hr (by decide)).peekTimer _).mapLink Link.redoze fun hl => hl.redoze).display Panel.darken).dozeKeys
    true).settleLink

theorem peekTimerExpiry (h : From c0 w D c) : From c0 w D c.peekTimerExpiry :=
  .ite (fun hp => h.peekToDoze (by simp [hp.1])) fun _ => h

theorem pressInDoze (h : From c0 w D c) (hr : c.sup.power ≠ .run) : From c0 w D c.pressInDoze :=
  .ite (fun _ => h.enterPeek hr) fun _ => h

theorem peekMode (h : From c0 w D c) : From c0 w D c.peekMode :=
  .ite (fun _ => h.display _) fun _ => (h.display fun p => { p with peekHistory := true }).enterHistory

theorem pressInPeek (h : From c0 w D c) (k : Key) : From c0 w D (c.pressInPeek k) := by
  have hp := h.peekTimer (some c.tick)
  unfold Chip.pressInPeek
  dsimp only
  split
  · exact hp.peekMode
  · exact hp.display _
  · exact hp.display _
  · exact hp.historySelect _
  · exact hp.historySelect _
  · exact hp.historyNewest
  · exact hp

theorem registered (h : From c0 w D c) (k : Key) : From c0 w D (c.registered k) := by
  have hm := h.display fun p => { p with message := none }
  unfold Chip.registered
  dsimp only
  split
  · exact hm.pressInRun k
  · next hp => exact hm.pressInDoze (by rw [hp]; decide)
  · exact hm.pressInPeek k
  · exact hm

theorem keyDown (h : From c0 w D c) (k : Key) : From c0 w D (c.keyDown k) :=
  have hd := h.display fun p => { p with decoder := p.decoder.press (c.holdOf k) }
  .ite (fun _ => hd.registered k) fun _ => hd

theorem keyUp (h : From c0 w D c) (k : Key) : From c0 w D (c.keyUp k) := h.display _

theorem keyDebounceExpiry (h : From c0 w D c) (k : Key) : From c0 w D (c.keyDebounceExpiry k) := by
  have hd := h.display fun p => { p with keys := p.keys.set k ⟨c.pins.keys.get k, none⟩ }
  exact .ite (fun _ => settleLink (.ite (fun _ => hd.keyDown k) fun _ => hd.keyUp k)) fun _ => h

theorem routeLong (h : From c0 w D c) (x : Hold) : From c0 w D (c.routeLong x) := by
  unfold Chip.routeLong
  split
  · exact .ite (fun _ => h.requestCal) fun _ => h
  · refine .ite (fun _ => ?_) fun _ => h
    split
    · exact h.operatorClose
    · exact h.shiftReset
    all_goals exact h
  all_goals exact h

theorem longPress (h : From c0 w D c) : From c0 w D c.longPress := by
  unfold Chip.longPress
  split
  · next x _ =>
    exact .ite (fun _ => ((h.display fun p => { p with decoder := .held { x with long := false } }).routeLong x).settleLink)
      fun _ => h
  all_goals exact h

theorem repeatOn (h : From c0 w D c) (f : EditField) (up : Bool) : From c0 w D (c.repeatOn f up) := by
  unfold Chip.repeatOn
  split
  · exact .ite (fun _ => h.setupStep up) fun _ => h
  all_goals exact .ite (fun _ => h.calStep up) fun _ => h

theorem repeatStep (h : From c0 w D c) : From c0 w D c.repeatStep := by
  unfold Chip.repeatStep
  split
  · next x _ =>
    split
    · exact .ite (fun _ => (h.display fun p =>
        { p with decoder := .held { x with lastRepeat := some c.tick } }).repeatOn _ _) fun _ => h
    · exact h
  all_goals exact h

theorem frameTimer (h : From c0 w D c) : From c0 w D c.frameTimer := .ite (fun _ => h.display _) fun _ => h
theorem blinkTimer (h : From c0 w D c) : From c0 w D c.blinkTimer := .ite (fun _ => h.display _) fun _ => h
theorem historyViewTimer (h : From c0 w D c) : From c0 w D c.historyViewTimer := .ite (fun _ => h.display _) fun _ => h
theorem messageTimer (h : From c0 w D c) : From c0 w D c.messageTimer := .ite (fun _ => h.display _) fun _ => h

/-! ## Arrivals -/

theorem afterArrival (h : From c0 w (.inputFault :: D) c) : From c0 w D c.afterArrival := h.syncLoss.heard

theorem pressureArrival (h : From c0 w D c) (m : PressureMsg) : From c0 w D (c.pressureArrival m) := by
  have hi := h.inputs (InputTable.arrivePressure m c.tick) (by unfold InputTable.arrivePressure; dsimp only; split <;> rfl)
  unfold Chip.pressureArrival
  exact (((hi.mapEng _ fun he => he.sample ..).mapCal _).trackPressure _).afterArrival

theorem calAngle (h : From c0 w D c) (status : ArrStatus) : From c0 w D (c.calAngle status) := by
  unfold Chip.calAngle
  split
  · exact h
  · exact h.mapCal _
  · exact h

theorem angleArrival (h : From c0 w D c) (src : AngleSrc) (m : AngleMsg) : From c0 w D (c.angleArrival src m) :=
  match src with
  | .primary =>
    (((h.inputs (InputTable.arriveAngle c.cfg.disagreeLimit .primary m c.tick) (InputTable.arriveAngle_tag ..)).calAngle
      m.status).trackAngle m.status).afterArrival
  | .secondary => h.unrequired _ (fun _ ht t e => ht t ((InputTable.arriveAngle_tag ..).symm.trans e))
      fun i hi _ => InputTable.arriveSecondary_chan _ _ _ _ i hi

theorem tiltArrival (h : From c0 w D c) (m : TiltMsg) : From c0 w D (c.tiltArrival m) :=
  ((h.inputs (InputTable.arriveTilt m c.tick) (by unfold InputTable.arriveTilt; dsimp only; split <;> rfl)).trackTilt
    _).afterArrival

theorem driveArrival (h : From c0 w D c) (m : DriveMsg) : From c0 w D (c.driveArrival m) :=
  (h.inputs (InputTable.arriveDrive m c.tick) rfl).writeShadow.heard

theorem inclineArrival (h : From c0 w D c) (m : InclineMsg) : From c0 w D (c.inclineArrival m) :=
  (h.inputs (InputTable.arriveIncline m c.tick) rfl).heard

theorem tagArrival (h : From c0 w D c) {m : TagMsg} (hm : m.id ≤ 65535) : From c0 w D (c.tagArrival m) :=
  (h.unrequired (InputTable.arriveTag m c.tick) (fun _ ht => InputTable.arriveTag_inRange ht hm _) fun i _ hi => by
    cases i <;> first | rfl | exact absurd rfl hi).takeTag

/-! ## Reception -/

theorem take {α : Type} {t : Taken α} {f : α → Chip → Chip} (h : From c0 w D c)
    (hf : ∀ a, t = .taken a → From c0 w D (f a c)) : From c0 w D (c.take t f) := by
  unfold Chip.take
  split
  · exact h.countShort
  · exact h
  · exact hf _ rfl

theorem takeAngle (h : From c0 w D c) (src : Byte) (data : List Byte) : From c0 w D (c.takeAngle src data) := by
  unfold Chip.takeAngle
  split
  · exact h.take fun m _ => h.angleArrival _ m
  · exact h

theorem consumeInRun (h : From c0 w D c) (k : Kind) (src dst : Byte) (data : List Byte) :
    From c0 w D (c.consumeInRun k src dst data) :=
  match k with
  | .liftPressure => h.take fun m _ => h.pressureArrival m
  | .boomAngle => h.takeAngle src data
  | .bucketTilt => h.take fun m _ => h.tiltArrival m
  | .chassisIncline => h.take fun m _ => h.inclineArrival m
  | .driveState => h.take fun m _ => h.driveArrival m
  | .truckTag => h.take fun _ e => h.tagArrival (readTag_id e)
  | .weigherStatus => h.take fun m _ => h.weigherStatus src m
  | .truckStatus => h.take fun _ e => h.truckStatus src (readTruck_inRange e)
  | .passRecord => h.take fun _ e => h.passRecord src (readPass_inRange e)
  | .truckClosed => h.take fun _ e => h.truckClosed src (readClosed_inRange e)
  | .counterRequest => h.counterRequest src dst
  | .counterReport => h.take fun m _ => h.counterReport src m
  | .diagRequest => h.take fun m _ => h.diagRequest src m
  | .configWrite => h.take fun m _ => h.configWrite src m
  | .configCommit => h.take fun m _ => h.configCommit src m
  | .diagReport => h
  | .configStatus => h

theorem consume (h : From c0 w D c) (k : Kind) (src dst : Byte) (data : List Byte) :
    From c0 w D (c.consume k src dst data) := by
  unfold Chip.consume
  split
  · exact h.consumeInRun k src dst data
  · exact .ite (fun _ => h.counterRequest src dst) fun _ => h
  · exact .ite (fun _ => h.counterRequest src dst) fun _ => h
  · exact h

theorem takeWhole (h : From c0 w D c) (t : WholeTelegram) : From c0 w D (c.takeWhole t) := by
  refine .ite (fun _ => h.conflictReport) fun _ => ?_
  split
  · exact h.consume _ _ _ _
  · exact h

theorem runEnded (h : From c0 w D c) : From c0 w D (c.mapLink Link.runEnded) := h.mapLink _ fun hl => hl.runEnded

theorem receive (h : From c0 w D c) (kind src dst : Byte) (data : List Byte) : From c0 w D (c.receive kind src dst data) :=
  .ite (fun _ => settleLink (.ite (fun _ => h.runEnded) fun _ => h.runEnded.takeWhole _)) fun _ => h

theorem receiveUnknown (h : From c0 w D c) (kind src dst : Byte) (data : List Byte) :
    From c0 w D (c.receiveUnknown kind src dst data) := .ite (fun _ => h) fun _ => h.receive _ _ _ _

theorem receiveFailure (h : From c0 w D c) (run : List RxChar) : From c0 w D (c.receiveFailure run) := by
  refine .ite (fun _ => ?_) fun _ => h
  split
  · exact h
  · exact (h.mapLink _ fun hl => hl.runFailed _).settleLink

theorem frameEnded (h : From c0 w D c) (run : List RxChar) : From c0 w D (c.frameEnded run) := by
  unfold Chip.frameEnded
  split
  · exact h.mapLink _ fun hl => hl.runEnded.count _
  · exact h.runEnded.takeWhole _

theorem settleGapComplete (h : From c0 w D c) : From c0 w D c.settleGapComplete := by
  refine .ite (fun _ => h) fun _ => settleLink ?_
  split
  · exact h.frameEnded _
  all_goals exact h.mapLink _ id

theorem staleExpiry (h : From c0 w D c) (i : ChanId) : From c0 w D (c.staleExpiry i) := by
  refine .ite (fun _ => ?_) fun _ => h
  have hi := h.inputs (InputTable.staleExpiry c.cfg.disagreeLimit i c.tick) (by
    unfold InputTable.staleExpiry
    dsimp only
    split <;> simp)
  refine settleLink (afterArrival ?_)
  split
  · exact hi.tagStale
  · exact hi.writeShadow
  all_goals exact hi

theorem lossTimerExpiry (h : From c0 w D c) (i : ChanId) : From c0 w D (c.lossTimerExpiry i) :=
  (h.inputs (InputTable.lossTimerExpiry i c.tick) (by simp [InputTable.lossTimerExpiry])).heard

theorem rateTimerExpiry (h : From c0 w D c) : From c0 w D c.rateTimerExpiry :=
  h.unrequired _ (fun _ ht => by simpa [HeldValues.tagInRange] using ht) fun i _ _ => by
    cases i <;> simp [InputTable.chan]

end

end Chip.From

end Sys2Proof.Machine

/-! SUPPORT. The laws are kept by the way out of RUN and by the starts. -/

namespace Sys2Proof.Machine

set_option Elab.async false

theorem Alarm.mem_all (a : Alarm) : a ∈ Alarm.all := by cases a <;> decide

theorem AlarmUnit.suspend_get (u : AlarmUnit) (a : Alarm) : u.suspend.get a = { u.get a with maskTimer := none } := by
  cases a <;> rfl

theorem AlarmUnit.setModes_get (cfg : Cfg) (u : AlarmUnit) (a : Alarm) :
    (Alarm.all.foldl (fun u a => u.setMode cfg a) u).get a
      = { u.get a with mode := cfg.alarmMode a, mask := cfg.alarmMask a } := by
  cases a <;> rfl

theorem Chip.reconfigureAlarms_asleep (c : Chip) (h : c.inRun = false) (a : Alarm) :
    c.reconfigureAlarms.alarm.get a
      = { c.alarm.get a with mode := c.cfg.alarmMode a, mask := c.cfg.alarmMask a } := by
  rw [Chip.reconfigureAlarms, if_neg (by simp [h])]
  exact AlarmUnit.setModes_get _ _ a

theorem Chip.reconfigureAlarms_panel (c : Chip) : c.onlyBuzzer c.reconfigureAlarms := by
  unfold Chip.reconfigureAlarms
  split
  · have h : ∀ (as : List Alarm) (d : Chip), c.onlyBuzzer d → c.onlyBuzzer (as.foldl (fun c a => c.oneShot a) d) := by
      intro as
      induction as with
      | nil => exact fun _ hd => hd
      | cons a as ih => exact fun d hd => ih _ (Chip.onlyBuzzer_trans _ _ _ hd (Chip.oneShot_panel a d))
    exact h _ _ (Chip.setAlarms_panel _ c)
  · rfl

theorem InputTable.takeConfig_tag (old new : Cfg) (now : Tick) (run : Bool) (t : InputTable) :
    (t.takeConfig old new now run).held.tag = t.held.tag ∨ (t.takeConfig old new now run).held.tag = none := by
  have hre : ∀ (i : ChanId) (t : InputTable), (t.rechannel now run i).held.tag = t.held.tag
      ∨ (t.rechannel now run i).held.tag = none := by
    intro i t
    unfold InputTable.rechannel
    dsimp only
    cases i <;> split <;> simp [HeldValues.forget]
  have hf : ∀ (is : List ChanId) (u : InputTable), u.held.tag = t.held.tag ∨ u.held.tag = none →
      (is.foldl (fun t i => if old.source i = new.source i then t else t.rechannel now run i) u).held.tag = t.held.tag
        ∨ (is.foldl (fun t i => if old.source i = new.source i then t else t.rechannel now run i) u).held.tag = none := by
    intro is
    induction is with
    | nil => exact fun _ hu => hu
    | cons i is ih =>
      intro u hu
      rw [List.foldl_cons]
      refine ih _ ?_
      split
      · exact hu
      · exact (hre i u).elim (fun e => e ▸ hu) .inr
  simpa [InputTable.takeConfig] using hf ChanId.all t (.inl rfl)

theorem Retained.inRange.settings {r : Retained} (h : r.inRange) : r.settings.inRange := by
  obtain ⟨-, -, -, -, hs, -⟩ := h
  exact hs

theorem ParamStore.cold_retainsInRange {a : StoreArray} (h : ∀ r, a.retained = some r → r.inRange) (now : Tick) :
    (ParamStore.cold a now).retainsInRange :=
  ⟨fun _ e => (by cases e), fun _ _ e => (by cases e), h⟩

theorem Chip.coldValues_keptInRange {a : StoreArray} (volts : Nat) (s : Straps) (pins : Pins)
    (h : ∀ r, a.retained = some r → r.inRange) : (Chip.coldValues volts s pins a).keptInRange := by
  have hr : (a.retained.getD (Retained.lost (ParamStore.cold a 0).cfg.defaultSet)).inRange := by
    cases e : a.retained with
    | none => exact Retained.lost_inRange _
    | some r => exact h r e
  exact (Chip.keptInRange_iff _).2 ⟨LoadRegister.cold_inRange hr, ⟨hr.settings, fun _ e => (by cases e)⟩,
    ⟨fun _ e => (by cases e), fun _ e => (by cases e)⟩, fun _ e => (by cases e), ParamStore.cold_retainsInRange h 0⟩

namespace Chip.From

section
variable {c0 c : Chip} {w : Bool} {D : List Alarm}

/-- What a part that has come this far keeps, its alarms set aside. -/
theorem aside (h : From c0 w D c) : From c0 true Alarm.all c :=
  { h with lawful := fun hw => absurd hw (by decide), modes := fun hw => absurd hw (by decide)
           current := fun hw => absurd hw (by decide) }

/-- The alarms set aside are suspended on the way out of RUN. -/
theorem sleep {d : Chip} (hd : From c0 true Alarm.all d) (h : From c0 w D c) (E : List Alarm) (ha : d.alarm = c.alarm)
    (hs : d.store = c.store) (hp : d.sup.power ≠ .run) : From c0 w E (d.mapAlarm AlarmUnit.suspend) :=
  { hd with
    lawful := fun hw h0 a => by
      have hl := h.lawful hw h0 a
      simp only [Chip.mapAlarm_alarm, AlarmUnit.suspend_get, Chip.mapAlarm_sup, ha]
      exact AlarmRec.lawful.asleep hl hp
    modes := fun hw h0 a => by
      have hm := h.modes hw h0 a
      simp only [Chip.cfg] at hm
      simpa only [Chip.mapAlarm_alarm, AlarmUnit.suspend_get, Chip.cfg, Chip.mapAlarm_store, ha, hs] using hm
    current := fun _ _ _ _ _ _ hr => absurd hr hp }

theorem leaveRun (h : From c0 w D c) {p : Power} (hp : p ≠ .run) (E : List Alarm) : From c0 w E (c.setPower p).leaveRun := by
  have h1 := (((h.wake (fun s => { s with power := p }) Alarm.all).mapRole RoleArbiter.suspend (fun hl => ⟨hl.1, nofun⟩)
    nofun).display fun q => q.keepPage.darken).suspendPower
  have h2 := h1.sleep h E (by simp) (by simp) (by simpa using hp)
  have h3 := h2.mapInp InputTable.stop (fun _ ht => ht) fun a _ hr => by simp at hr; exact absurd hr hp
  exact ((h3.mapLoad fun l => { l with refreshTimer := none, pollTimer := none }).mapSup
    (fun s => { s with offAfterStart := false }) rfl id (.inr rfl)).suspendCalibration

theorem enterHold (h : From c0 w D c) (E : List Alarm) : From c0 w E c.enterHold :=
  (((h.leaveRun (by decide) E).mapLink Link.hold fun hl => hl.hold).display
    fun q => { q.unwatch with decoder := .awaitRelease }).askRetain _

theorem enterDoze (h : From c0 w D c) : From c0 w D c.enterDoze :=
  ((((h.leaveRun (by decide) D).mapLink (Link.doze _) fun hl => hl.doze _).dozeKeys true).askRetain _).settleLink

theorem holdToDoze (h : From c0 w D c) (hr : c.sup.power ≠ .run) : From c0 w D c.holdToDoze :=
  (((h.setPower hr (by decide)).mapLink (Link.doze _) fun hl => hl.doze _).dozeKeys false).settleLink

/-! ## The starts -/

/-- The end of a start evaluates every alarm afresh (R121). -/
theorem finishStart (h : From c0 true Alarm.all c) (hr : c.inRun = true) : From c0 false [] c.finishStart := by
  have h1 := h.reevaluate.writeShadow
  exact (h1.alarmStart (by simpa [Chip.inRun] using hr)).writeStatus.settleLink

theorem resumeStart (h : From c0 w D c) : From c0 false [] c.resumeStart := by
  have h1 := h.wake (fun s => { s with power := .run, startKind := .resume, peekTimer := none }) Alarm.all
  have h2 := h1.mapStore (fun p => { p with wrongCodes := 0, lockout := false }) id (fun _ => id) rfl
    fun a ha _ => absurd (Alarm.mem_all a) ha
  have h3 := ((h2.mapLink Link.resume fun hl => hl.resume).mapInp (InputTable.resume c.tick)
    (fun _ ht => by simpa using ht) fun a ha _ => absurd (Alarm.mem_all a) ha).mapEng (fun _ => Engine.start)
      fun _ => Engine.start_inRange
  have h4 := (h3.mapLoad LoadRegister.resume).display (Panel.resume c.pins.keys c.tick)
  have h5 := (h4.mapCal CalUnit.resume).resumeTracker.resumeRole
  exact h5.finishStart (by simp [Chip.inRun])

theorem settleStart (h : From c0 true Alarm.all c) (hr : c.inRun = true) : From c0 false [] c.settleRole.finishStart :=
  h.settleRole.finishStart (by simpa [Chip.inRun] using hr)

theorem lineStart (h : From c0 w D c) (s : Straps) : From c0 false [] (c.lineStart s) := by
  refine settleStart (c := _) ?_ rfl
  exact
    { link := fun _ => Link.start_inRange s
      eng := fun _ => Engine.start_inRange
      config := fun h0 => (h.config h0).line _
      kept := fun h0 => (keptInRange_iff _).2 ⟨h.load h0, ⟨(h.panel h0).1, nofun⟩, ⟨nofun, nofun⟩, nofun, (h.saved h0).line _⟩
      lawful := nofun
      modes := nofun
      current := nofun
      role := fun _ => RoleArbiter.lawful_of rfl rfl }

theorem coldValues (h : From c0 w D c) (volts : Nat) (s : Straps) (pins : Pins) :
    From c0 true Alarm.all (Chip.coldValues volts s pins c.store.array) :=
  { link := fun _ => Link.start_inRange s
    eng := fun _ => Engine.start_inRange
    config := fun h0 => ParamStore.cold_configInRange _ _ (h.config h0).2.2.2.2
    kept := fun h0 => Chip.coldValues_keptInRange volts s pins (h.saved h0).2.2
    lawful := nofun
    modes := nofun
    current := nofun
    role := fun _ => RoleArbiter.lawful_of rfl rfl }

theorem holdReset (h : From c0 w D c) : From c0 w D c.holdReset :=
  (h.mapSup (fun s => { s with life := .held }) rfl (fun e => by cases e) (.inr rfl)).mapLink Link.held fun hl => hl.held

theorem coldStart (h : From c0 false [] c) (volts : Nat) (s : Straps) : From c0 false [] (c.coldStart volts s) := by
  unfold Chip.coldStart
  split
  · have hs := (h.coldValues volts s c.pins).settleStart rfl
    exact .ite (fun _ => .ite (fun _ => hs.holdReset) fun _ => hs) fun _ => h
  all_goals exact h

end

end Chip.From

end Sys2Proof.Machine

/-! SUPPORT. The laws are kept by the supply, the reset line, the ignition and the end of the start window. -/

namespace Sys2Proof.Machine

set_option Elab.async false

theorem ParamStore.retainsInRange.takeWork {p : ParamStore} (h : p.retainsInRange) :
    ({ p with cfg := p.work, window := none } : ParamStore).retainsInRange := h

theorem ParamStore.configInRange.takeWork {p : ParamStore} (h : p.configInRange) :
    ({ p with cfg := p.work, window := none } : ParamStore).configInRange := by
  obtain ⟨-, hw, hr, ht, ha⟩ := h
  exact ⟨hw, hw, hr, ht, ha⟩

theorem StoreArray.blank_configInRange (a : StoreArray) (ha : ∀ c, a.config = some c → c.inRange) :
    ({ ParamStore.cold StoreArray.blank 0 with array := a, window := none } : ParamStore).configInRange := by
  obtain ⟨hc, hw, hr, ht, -⟩ := ParamStore.cold_configInRange StoreArray.blank 0 (fun _ e => (by cases e))
  exact ⟨hc, hw, hr, ht, ha⟩

namespace Chip.From

section
variable {c0 c : Chip} {w : Bool} {D : List Alarm}

/-- Where the part does not run in RUN nothing waits to be heard. -/
theorem quiet (h : From c0 w D c) (hr : c.sup.life ≠ .up ∨ c.sup.power ≠ .run) (E : List Alarm := []) : From c0 w E c :=
  h.unheard E fun hl hp => hr.elim (fun e => e hl) fun e => e hp

/-! ## Supply, reset line and ignition -/

theorem regulatorFail (h : From c0 false [] c) (volts : Nat) : From c0 false [] (c.regulatorFail volts) := by
  refine .ite (fun _ => ?_) fun _ => h
  have hk := Chip.coldValues_keptInRange (a := StoreArray.blank) volts ⟨c.pins.stn, c.pins.rateClosed⟩
    { c.pins with vsense := volts } fun _ e => (by cases e)
  exact
    { link := fun _ => (Link.start_inRange _).hold
      eng := fun _ => Engine.start_inRange
      config := fun h0 => StoreArray.blank_configInRange _ ((h.config h0).arrayAtFail _)
      kept := fun h0 => by
        obtain ⟨h1, h2, h3, h4, h5, h6, -⟩ := (keptInRange_iff _).1 hk
        exact (keptInRange_iff _).2 ⟨h1, h2, h3, h4, h5, h6, (h.saved h0).arrayAtFail _⟩
      lawful := fun _ _ a => by
        change (AlarmRec.lawful _ ((AlarmUnit.start (ParamStore.cold StoreArray.blank 0).cfg).get a))
        rw [AlarmUnit.start_get]
        exact AlarmRec.start_lawful _ _ _
      modes := fun _ _ a => by
        change ((AlarmUnit.start (ParamStore.cold StoreArray.blank 0).cfg).get a).mode
            = (ParamStore.cold StoreArray.blank 0).cfg.alarmMode a
          ∧ ((AlarmUnit.start (ParamStore.cold StoreArray.blank 0).cfg).get a).mask
            = (ParamStore.cold StoreArray.blank 0).cfg.alarmMask a
        rw [AlarmUnit.start_get]
        exact ⟨rfl, rfl⟩
      current := fun _ _ _ _ _ hl _ => (by cases hl)
      role := fun _ => RoleArbiter.lawful_of rfl rfl }

theorem resetAssert (h : From c0 w D c) : From c0 w D c.resetAssert := by
  have hp := h.pins { c.pins with reset := true }
  unfold Chip.resetAssert
  dsimp only
  split
  · exact hp.holdReset
  · exact hp.holdReset
  all_goals exact hp

theorem resetRelease (h : From c0 false [] c) (s : Straps) : From c0 false [] (c.resetRelease s) := by
  have hp := h.pins { c.pins.setStraps s with reset := false }
  unfold Chip.resetRelease
  dsimp only
  split
  · exact hp.lineStart s
  · exact hp.mapSup (fun p => { p with life := .linePending }) rfl (fun e => (by cases e)) (.inr rfl)
  all_goals exact hp

theorem wentLow (h : From c0 w [.lowSupply] c) : From c0 w [] c.wentLow := by
  unfold Chip.wentLow
  split
  · exact h.enterHold []
  · next hp => exact (h.quiet (.inr (by rw [hp]; decide))).peekToDoze (by rw [hp]; decide)
  · next hp => exact h.quiet (.inr (by rw [hp]; decide))
  · next hp => exact h.quiet (.inr (by rw [hp]; decide))

theorem supplyFallsLow (h : From c0 w [] c) (volts : Nat) : From c0 w [] (c.supplyFallsLow volts) := by
  refine .ite (fun _ => ?_) fun _ => h
  have hs := ((h.pins { c.pins with vsense := volts }).dirty .lowSupply).mapSup (fun s => { s with status := .low }) rfl id
    (.inl (by simp))
  dsimp only
  split
  · exact hs.wentLow
  all_goals next hl => exact hs.quiet (.inl (by rw [hl]; decide))

theorem wentOk (h : From c0 false [.lowSupply] c) : From c0 false [] c.wentOk := by
  unfold Chip.wentOk
  split
  · next hp =>
    exact .ite (fun _ => h.resumeStart) fun _ => (h.quiet (.inr (by rw [hp]; decide))).holdToDoze (by rw [hp]; decide)
  · exact h.heard
  · next hp => exact h.quiet (.inr (by rw [hp]; decide))
  · next hp => exact h.quiet (.inr (by rw [hp]; decide))

theorem supplyRisesOk (h : From c0 false [] c) (volts : Nat) (s : Straps) : From c0 false [] (c.supplyRisesOk volts s) := by
  refine .ite (fun _ => ?_) fun _ => h
  have hs := ((h.pins { c.pins.setStraps s with vsense := volts }).dirty .lowSupply).mapSup
    (fun p => { p with status := .ok }) rfl id (.inl (by simp))
  dsimp only
  split
  · exact hs.wentOk
  · exact hs.lineStart s
  all_goals next hl => exact hs.quiet (.inl (by rw [hl]; decide))

theorem ignLineChange (h : From c0 w D c) (high : Bool) : From c0 w D (c.ignLineChange high) := by
  refine .ite (fun _ => h) fun _ => ?_
  have hp := h.pins { c.pins with ign := high }
  dsimp only
  split
  · exact hp
  all_goals exact hp.mapSup _ rfl id (.inr rfl)

theorem ignitionChanged (h : From c0 false [] c) : From c0 false [] c.ignitionChanged := by
  unfold Chip.ignitionChanged
  split
  · exact h.enterDoze
  · exact h.resumeStart
  · exact h.resumeStart
  all_goals exact h

theorem ignitionChange (h : From c0 false [] c) : From c0 false [] c.ignitionChange := by
  refine .ite (fun _ => ?_) fun _ => h
  have hs := h.mapSup (fun s => { s with
    ignition := c.pins.ign, ignTimer := none, offAfterStart := s.offAfterStart && !c.pins.ign }) rfl id (.inr rfl)
  dsimp only
  split
  · exact hs.ignitionChanged
  all_goals exact hs

theorem ignitionOffAfterStart (h : From c0 w D c) : From c0 w D c.ignitionOffAfterStart :=
  .ite (fun _ => h.enterDoze) fun _ => h

/-! ## The end of the start window -/

theorem mirror (h : From c0 w D c) : From c0 w D (c.mapRole fun r => { r with mirrored := true }) := h.mapRole _

theorem roleChangedInRun (h : From c0 w D c) : From c0 w D c.roleChangedInRun := by
  have hr : From c0 w D (if c.isWeigher then c else c.restartTracker) := .ite (fun _ => h) fun _ => h.restartTracker
  exact .ite (fun _ => hr) fun _ => .ite (fun _ => hr.enterListen) fun _ => hr.enterRepeat.mirror

theorem roleChanged (h : From c0 w D c) : From c0 w D c.roleChanged := by
  refine .ite (fun _ => h.roleChangedInRun) fun _ => h.mapRoleHeard _ ?_ ?_ ?_ ?_ <;> unfold RoleArbiter.roleChangedAsleep
  · (repeat' split) <;> exact id
  · exact .inr (by (repeat' split) <;> rfl)
  · exact .inr (by (repeat' split) <;> rfl)
  · exact .inr fun _ => by (repeat' split) <;> rfl

theorem wakeChanged (h : From c0 w D c) (old : Cfg) : From c0 w D (c.wakeChanged old) := by
  have hk : From c0 w D (if old.keyWake = c.cfg.keyWake ∨ c.sup.power ≠ .doze then c
      else c.mapPanel (Panel.dozeKeys c.cfg.keyWake false c.pins.keys)) := .ite (fun _ => h) fun _ => h.dozeKeys false
  unfold Chip.wakeChanged
  dsimp only
  split
  · exact .ite (fun _ => hk) fun _ => hk.mapLink _ id
  · exact .ite (fun _ => hk) fun _ => hk.mapLink _ id
  all_goals exact hk

/-- The alarm records take the modes and masks of a configuration that has just come into force (R125). -/
theorem reconfigured {d : Chip} (h : From c0 false D c) (hd : From c0 true Alarm.all d) (ha : d.alarm = c.alarm)
    (hs : d.sup = c.sup) : From c0 false Alarm.all d.reconfigureAlarms := by
  have hb := hd.alarms Alarm.all (fun b hb => by cases b <;> simp_all [Chip.sameAt]) (Chip.reconfigureAlarms_panel d) nofun
    nofun nofun
  refine { hb with lawful := fun _ h0 a => ?_, modes := fun _ _ a => ?_,
                   current := fun _ _ _ a hn => absurd (Alarm.mem_all a) hn }
  · have hl : (c.alarm.get a).lawful (c.sup.power = .run) := h.lawful rfl h0 a
    rw [← ha, ← hs] at hl
    simp only [Chip.reconfigureAlarms_frame]
    cases hr : d.inRun with
    | true =>
      have hrun := (Chip.inRun_iff d).1 hr
      rw [Chip.reconfigureAlarms_get d hr]
      simpa [AlarmRec.lawful, hrun] using AlarmRec.reconfigured_lawful (by simpa [AlarmRec.lawful, hrun] using hl) _ _ _
    | false =>
      rw [Chip.reconfigureAlarms_asleep d hr]
      exact AlarmRec.lawful.setMode hl (fun he => by simp [(Chip.inRun_iff d).2 he] at hr) _ _
  · simp only [Chip.cfg, Chip.reconfigureAlarms_frame]
    cases hr : d.inRun with
    | true =>
      rw [Chip.reconfigureAlarms_get d hr]
      obtain ⟨hm, hk, -⟩ := AlarmRec.reconfigured_mode (d.alarm.get a) (d.cfg.alarmMode a) (d.cfg.alarmMask a) d.tick
      exact ⟨hm, hk⟩
    | false =>
      rw [Chip.reconfigureAlarms_asleep d hr]
      exact ⟨rfl, rfl⟩

/-- The working configuration comes into force, the alarms set aside. -/
theorem takeWork (h : From c0 w D c) : From c0 true Alarm.all (c.mapStore fun p => { p with cfg := p.work, window := none }) :=
  { h.aside with
    config := fun h0 => (h.config h0).takeWork
    kept := fun h0 => by
      obtain ⟨h1, h2, h3, h4, h5⟩ := (keptInRange_iff c).1 (h.kept h0)
      exact (keptInRange_iff _).2 ⟨h1, h2, h3, h4, h5.takeWork⟩
    modes := nofun
    current := nofun }

theorem refusedUnless (h : From c0 w D c) (p : Prop) [Decidable p] : From c0 w D (if p then c else c.setRefused none) :=
  .ite (fun _ => h) fun _ => h.setRefused none

theorem roleUnless (h : From c0 w D c) (p : Prop) [Decidable p] : From c0 w D (if p then c else c.roleChanged) :=
  .ite (fun _ => h) fun _ => h.roleChanged

theorem shadowInRun (h : From c0 w D c) : From c0 w D (if c.inRun then c.writeShadow else c) :=
  .ite (fun _ => h.writeShadow) fun _ => h

theorem takeConfig (h : From c0 false [] c) : From c0 false [] c.takeConfig := by
  have h1 := h.takeWork
  have ha : (c.mapStore fun p => { p with cfg := p.work, window := none }).alarm = c.alarm := rfl
  have hs : (c.mapStore fun p => { p with cfg := p.work, window := none }).sup = c.sup := rfl
  unfold Chip.takeConfig
  dsimp only
  generalize (c.mapStore fun p => { p with cfg := p.work, window := none }) = d at h1 ha hs ⊢
  have h2 := h1.mapInp (InputTable.takeConfig c.cfg d.cfg d.tick d.inRun) (fun _ ht t e => by
    rcases InputTable.takeConfig_tag c.cfg d.cfg d.tick d.inRun d.inp with hs | hs
    · exact ht t (hs ▸ e)
    · simp [hs] at e) fun a ha _ => absurd (Alarm.mem_all a) ha
  have h3 := h2.refusedUnless ((c.cfg.srcTag == 0) = ((d.mapInp (InputTable.takeConfig c.cfg d.cfg d.tick d.inRun)).cfg.srcTag == 0))
  have h4 := h.reconfigured h3 (by split <;> exact ha) (by split <;> exact hs)
  exact ((h4.roleUnless _).reevaluate.syncLoss.shadowInRun.refreshAlarms.wakeChanged c.cfg).settleLink

theorem startWindowEnd (h : From c0 false [] c) : From c0 false [] c.startWindowEnd :=
  .ite (fun _ => h.takeConfig) fun _ => h

end

end Chip.From

end Sys2Proof.Machine

/-! PROOFS. Every step keeps the laws: the invariants of records, configuration, bins and alarms. -/

namespace Sys2Proof.Machine

set_option Elab.async false
namespace Chip.From

section
variable {c0 c : Chip} {w : Bool} {D : List Alarm}

/-! ## The step -/

theorem whenUp (h : From c0 w D c) {f : Chip → Chip} (hf : From c0 w D (f c)) : From c0 w D (c.whenUp f) := by
  unfold Chip.whenUp
  split
  · exact hf
  all_goals exact h

theorem passTime (h : From c0 w D c) : From c0 w D c.passTime := by
  unfold Chip.passTime
  split
  · exact h
  all_goals exact h.tick _

/-- Every command leads from a part to one that has kept its laws. -/
theorem command (h : From c0 false [] c) (i : Instr) : From c0 false [] (effect i c) :=
  match i with
  | .liftPressure .. | .boomAngle .. | .bucketTilt .. | .chassisIncline .. | .driveState .. | .truckTag ..
  | .weigherStatus .. | .truckStatus .. | .passRecord .. | .truckClosed .. | .counterRequest .. | .counterReport ..
  | .diagRequest .. | .diagReport .. | .configWrite .. | .configCommit .. | .configStatus .. =>
    h.whenUp (h.receive _ _ _ _)
  | .unknownKindTelegram .. => h.whenUp (h.receiveUnknown _ _ _ _)
  | .receiveFailure run => h.whenUp (h.receiveFailure run)
  | .settleGapComplete => h.whenUp h.settleGapComplete
  | .dominantDuringDelay => h.whenUp h.dominantDuringDelay
  | .accessDelayEnd => h.whenUp h.accessDelayEnd
  | .telegramSent => h.whenUp h.telegramSent
  | .readbackMismatch bit => h.whenUp (h.readbackMismatch bit)
  | .quietTimerExpiry => h.whenUp h.quietTimerExpiry
  | .staleExpiry i => h.whenUp (h.staleExpiry i)
  | .lossTimerExpiry i => h.whenUp (h.lossTimerExpiry i)
  | .rateTimerExpiry => h.whenUp h.rateTimerExpiry
  | .fillEmptyTimerExpiry => h.whenUp h.fillEmptyExpiry
  | .carryTimerExpiry => h.whenUp h.carryExpiry
  | .inputLossTimerExpiry side => h.whenUp (h.inputLossExpiry side)
  | .truckStatusRefresh => h.whenUp h.truckStatusRefresh
  | .counterPollTimer => h.whenUp h.counterPollTimer
  | .keyLineChange k low => h.keyLineChange k low
  | .keyDebounceExpiry k => h.whenUp (h.keyDebounceExpiry k)
  | .longPress => h.whenUp h.longPress
  | .repeatStep => h.whenUp h.repeatStep
  | .frameTimer => h.whenUp h.frameTimer
  | .blinkTimer => h.whenUp h.blinkTimer
  | .historyViewTimer => h.whenUp h.historyViewTimer
  | .messageTimer => h.whenUp h.messageTimer
  | .buzzerPhaseEnd => h.whenUp (h.mapBuz _)
  | .maskTimerExpiry a => h.whenUp (h.maskTimerExpiry a)
  | .statusTimerExpiry => h.whenUp h.statusTimerExpiry
  | .peerRecordRemoval station => h.whenUp (h.peerRecordRemoval station)
  | .watchTimerExpiry => h.whenUp h.watchTimerExpiry
  | .listenTimerExpiry => h.whenUp h.listenTimerExpiry
  | .pairingTimerExpiry => h.whenUp h.pairingTimerExpiry
  | .storeWriteComplete => h.storeWriteComplete
  | .startWindowEnd => h.whenUp h.startWindowEnd
  | .supplyFallsLow volts => h.supplyFallsLow volts
  | .supplyRisesOk volts straps => h.supplyRisesOk volts straps
  | .ignLineChange high => h.ignLineChange high
  | .ignitionChange => h.ignitionChange
  | .peekTimerExpiry => h.whenUp h.peekTimerExpiry
  | .regulatorFail volts => h.regulatorFail volts
  | .coldStart volts straps => h.coldStart volts straps
  | .resetAssert => h.resetAssert
  | .resetRelease straps => h.resetRelease straps
  | .ignitionOffAfterStart => h.whenUp h.ignitionOffAfterStart
  | .bklPeriodStart => h.whenUp h.bklPeriodStart

end

/-- A step leads from a part to one that has kept its laws. -/
theorem step {s t : State} (h : Machine.step s = .next t) : From s.chip false [] t.chip := by
  rcases step_chip s t h with e | ⟨i, e⟩
  · exact e ▸ (From.refl s.chip).passTime
  · exact e ▸ (From.refl s.chip).command i

end Chip.From

/-! ## The statements -/

/-- Settles O6: a step makes records from items within their ranges. -/
theorem retainedItemsStayInRange : Obligations.RetainedItemsStayInRange := by
  unfold Obligations.RetainedItemsStayInRange
  intro s t hc hk h
  exact (Chip.From.step h).kept ⟨hc, hk⟩

/-- Settles O7: a configuration comes from the array, from a write in range, or from the defaults. -/
theorem configurationStaysInRange : Obligations.ConfigurationStaysInRange := by
  unfold Obligations.ConfigurationStaysInRange
  intro s t hs h
  exact (Chip.From.step h).config hs

/-- Settles O9: a bin takes at most 255 samples, and the tallies saturate. -/
theorem binCountsStayInRange : Obligations.BinCountsStayInRange := by
  unfold Obligations.BinCountsStayInRange
  intro s t hs h
  exact (Chip.From.step h).eng hs

/-- Settles O10: every change of a record is a rise, a fall, an acknowledgement or a change of its mode and mask. -/
theorem alarmRecordsStayLawful : Obligations.AlarmRecordsStayLawful := by
  unfold Obligations.AlarmRecordsStayLawful
  intro s t hs h
  exact (Chip.From.step h).lawful rfl hs

/-- Settles O11: an operation that moves a condition hands it over before its event ends. -/
theorem alarmConditionsStayCurrent : Obligations.AlarmConditionsStayCurrent := by
  unfold Obligations.AlarmConditionsStayCurrent
  intro s t hs h
  obtain ⟨hm, hc, hr⟩ := (Chip.alarmsCurrent_iff _).1 hs
  have hf := Chip.From.step h
  exact (Chip.alarmsCurrent_iff _).2 ⟨hf.modes rfl hm, hf.current rfl hc hr, hf.role hr⟩

end Sys2Proof.Machine

/-! PROOFS. A delay belongs to a telegram in hand that may be sent: the end of an event establishes it, and the events that
end without one leave the link as it stands. -/

namespace Sys2Proof.Machine

set_option Elab.async false

theorem Link.handTelegram_isSome {l : Link} {t : OutTg} (h : l.handTelegram = some t) : l.inHand.isSome = true := by
  unfold Link.handTelegram at h
  split at h
  · cases h
  · next hh => simp [hh]

theorem Link.opportunity_delay {l : Link} (h : l.opportunity.access = .delay) : l.opportunity.inHand.isSome = true := by
  unfold Link.opportunity at h ⊢
  dsimp only at h ⊢
  split
  · next ht => exact Link.handTelegram_isSome (l := l.choose) ht
  · next ht => simp [ht] at h

/-- After the end of an event a delay has its telegram and its permission (R155, R158). -/
theorem Link.settle_delay {l : Link} {m : Bool} (h : (l.settle m).access = .delay) :
    m = true ∧ (l.settle m).inHand.isSome = true := by
  unfold Link.settle at h ⊢
  cases ha : l.access <;> cases m <;> simp only [ha, Bool.not_true, Bool.not_false, if_true, if_false, Bool.false_eq_true] at h ⊢ <;>
    try simp at h
  case delay.true =>
    split at h
    · next hi => simp [hi]
    · next hi => simp only [hi]; exact ⟨trivial, Link.opportunity_delay h⟩
  all_goals
    split at h
    · next hg => simp only [hg, if_true]; exact ⟨trivial, Link.opportunity_delay h⟩
    · cases h

namespace Chip

theorem settleLink_delaysLawfully (c : Chip) : c.settleLink.delaysLawfully := fun h => by
  rw [settleLink_maySend]
  exact Link.settle_delay h

theorem delaysLawfully_of_idle {c : Chip} (h : c.link.access = .off) : c.delaysLawfully := fun hd => by
  rw [h] at hd
  cases hd

namespace delaysLawfully

section
variable {c d : Chip}

/-- Link, power state and role state stand. -/
theorem stand (h : c.delaysLawfully) (hl : d.link = c.link := by simp) (hp : d.sup.power = c.sup.power := by simp)
    (hr : d.role.state = c.role.state := by simp) : d.delaysLawfully := fun hd => by
  rw [hl] at hd ⊢
  simpa [Chip.maySend, hp, hr] using h hd

theorem ite {p : Prop} [Decidable p] {x y : Chip} (hx : p → x.delaysLawfully) (hy : ¬p → y.delaysLawfully) :
    (if p then x else y).delaysLawfully := by
  split
  · exact hx ‹_›
  · exact hy ‹_›

/-- An event that ends as every event does, or does not happen. -/
theorem settled {p : Prop} [Decidable p] {x : Chip} (h : c.delaysLawfully) :
    (if p then x.settleLink else c).delaysLawfully := ite (fun _ => x.settleLink_delaysLawfully) fun _ => h

theorem whenUp (h : c.delaysLawfully) {f : Chip → Chip} (hf : (f c).delaysLawfully) : (c.whenUp f).delaysLawfully := by
  unfold Chip.whenUp
  split
  · exact hf
  all_goals exact h

theorem passTime (h : c.delaysLawfully) : c.passTime.delaysLawfully := by
  unfold Chip.passTime
  split
  · exact h
  all_goals exact h.stand rfl rfl rfl

/-! ## The events that end without the link's settling -/

theorem accessDelayEnd (h : c.delaysLawfully) : c.accessDelayEnd.delaysLawfully := by
  unfold delaysLawfully Chip.accessDelayEnd Chip.maySend
  simp only [Chip.mapLink_link, Chip.mapLink_sup, Chip.mapLink_role]
  unfold Link.delayEnd
  split
  · split
    · exact nofun
    · exact h
  · exact h

theorem readbackMismatch (h : c.delaysLawfully) (bit : Nat) : (c.readbackMismatch bit).delaysLawfully := h.settled

theorem receiveFailure (h : c.delaysLawfully) (run : List RxChar) : (c.receiveFailure run).delaysLawfully := by
  refine ite (fun _ => ?_) fun _ => h
  split
  · exact h
  · exact settleLink_delaysLawfully _

theorem settleGapComplete (h : c.delaysLawfully) : c.settleGapComplete.delaysLawfully :=
  ite (fun _ => h) fun _ => settleLink_delaysLawfully _

theorem receiveUnknown (h : c.delaysLawfully) (kind src dst : Byte) (data : List Byte) :
    (c.receiveUnknown kind src dst data).delaysLawfully := ite (fun _ => h) fun _ => h.settled

theorem keyLineChange (h : c.delaysLawfully) (k : Key) (low : Bool) : (c.keyLineChange k low).delaysLawfully :=
  ite (fun _ => h) fun _ => ite (fun _ => h.stand rfl rfl rfl) fun _ => h.stand rfl rfl rfl

theorem longPress (h : c.delaysLawfully) : c.longPress.delaysLawfully := by
  unfold Chip.longPress
  split
  · exact h.settled
  all_goals exact h

theorem storeWriteComplete (h : c.delaysLawfully) : c.storeWriteComplete.delaysLawfully := by
  unfold Chip.storeWriteComplete
  split
  · exact h
  · refine ite (fun _ => ?_) fun _ => h
    dsimp only
    split
    · exact settleLink_delaysLawfully _
    all_goals exact h.stand rfl rfl rfl

theorem enterHold (c : Chip) : c.enterHold.delaysLawfully :=
  delaysLawfully_of_idle (by simp [Chip.enterHold, Link.hold, Link.clear])

theorem supplyFallsLow (h : c.delaysLawfully) (volts : Nat) : (c.supplyFallsLow volts).delaysLawfully := by
  refine ite (fun _ => ?_) fun _ => h
  dsimp only
  split
  · unfold Chip.wentLow
    split
    · exact enterHold _
    · exact settleLink_delaysLawfully _
    all_goals exact h.stand rfl rfl rfl
  all_goals exact h.stand rfl rfl rfl

theorem supplyRisesOk (h : c.delaysLawfully) (volts : Nat) (s : Straps) : (c.supplyRisesOk volts s).delaysLawfully := by
  refine ite (fun _ => ?_) fun _ => h
  dsimp only
  split
  · unfold Chip.wentOk
    split
    · exact ite (fun _ => settleLink_delaysLawfully _) fun _ => settleLink_delaysLawfully _
    · exact h.stand
    all_goals exact h.stand rfl rfl rfl
  · exact settleLink_delaysLawfully _
  all_goals exact h.stand rfl rfl rfl

theorem ignLineChange (h : c.delaysLawfully) (high : Bool) : (c.ignLineChange high).delaysLawfully := by
  refine ite (fun _ => h) fun _ => ?_
  dsimp only
  split
  all_goals exact h.stand rfl rfl rfl

theorem ignitionChange (h : c.delaysLawfully) : c.ignitionChange.delaysLawfully := by
  refine ite (fun _ => ?_) fun _ => h
  dsimp only
  split
  · unfold Chip.ignitionChanged
    split
    · exact settleLink_delaysLawfully _
    · exact settleLink_delaysLawfully _
    · exact settleLink_delaysLawfully _
    all_goals exact h.stand rfl rfl rfl
  all_goals exact h.stand rfl rfl rfl

theorem peekTimerExpiry (h : c.delaysLawfully) : c.peekTimerExpiry.delaysLawfully :=
  ite (fun _ => settleLink_delaysLawfully _) fun _ => h

theorem regulatorFail (h : c.delaysLawfully) (volts : Nat) : (c.regulatorFail volts).delaysLawfully :=
  ite (fun _ => delaysLawfully_of_idle rfl) fun _ => h

theorem coldStart (h : c.delaysLawfully) (volts : Nat) (s : Straps) : (c.coldStart volts s).delaysLawfully := by
  unfold Chip.coldStart
  split
  · exact ite (fun _ => ite (fun _ => delaysLawfully_of_idle rfl) fun _ => settleLink_delaysLawfully _) fun _ => h
  all_goals exact h

theorem resetAssert (h : c.delaysLawfully) : c.resetAssert.delaysLawfully := by
  unfold Chip.resetAssert
  dsimp only
  split
  · exact delaysLawfully_of_idle rfl
  · exact delaysLawfully_of_idle rfl
  all_goals exact h.stand rfl rfl rfl

theorem resetRelease (h : c.delaysLawfully) (s : Straps) : (c.resetRelease s).delaysLawfully := by
  unfold Chip.resetRelease
  dsimp only
  split
  · exact settleLink_delaysLawfully _
  all_goals exact h.stand rfl rfl rfl

theorem ignitionOffAfterStart (h : c.delaysLawfully) : c.ignitionOffAfterStart.delaysLawfully :=
  ite (fun _ => settleLink_delaysLawfully _) fun _ => h

theorem startWindowEnd (h : c.delaysLawfully) : c.startWindowEnd.delaysLawfully :=
  ite (fun _ => settleLink_delaysLawfully _) fun _ => h

/-- Every command leaves delays lawful. -/
theorem command (h : c.delaysLawfully) (i : Instr) : (effect i c).delaysLawfully :=
  match i with
  | .liftPressure .. | .boomAngle .. | .bucketTilt .. | .chassisIncline .. | .driveState .. | .truckTag ..
  | .weigherStatus .. | .truckStatus .. | .passRecord .. | .truckClosed .. | .counterRequest .. | .counterReport ..
  | .diagRequest .. | .diagReport .. | .configWrite .. | .configCommit .. | .configStatus ..
  | .telegramSent | .readbackMismatch _ | .staleExpiry _ | .fillEmptyTimerExpiry | .carryTimerExpiry
  | .inputLossTimerExpiry _ | .truckStatusRefresh | .counterPollTimer | .keyDebounceExpiry _ | .statusTimerExpiry
  | .watchTimerExpiry | .listenTimerExpiry => h.whenUp h.settled
  | .unknownKindTelegram .. => h.whenUp (h.receiveUnknown _ _ _ _)
  | .receiveFailure run => h.whenUp (h.receiveFailure run)
  | .settleGapComplete => h.whenUp h.settleGapComplete
  | .dominantDuringDelay | .quietTimerExpiry => h.whenUp (settleLink_delaysLawfully _)
  | .accessDelayEnd => h.whenUp h.accessDelayEnd
  | .keyLineChange k low => h.keyLineChange k low
  | .longPress => h.whenUp h.longPress
  | .lossTimerExpiry _ | .rateTimerExpiry | .repeatStep | .frameTimer | .blinkTimer | .historyViewTimer | .messageTimer
  | .buzzerPhaseEnd | .maskTimerExpiry _ | .peerRecordRemoval _ | .pairingTimerExpiry | .bklPeriodStart =>
    h.whenUp h.stand
  | .storeWriteComplete => h.storeWriteComplete
  | .startWindowEnd => h.whenUp h.startWindowEnd
  | .supplyFallsLow volts => h.supplyFallsLow volts
  | .supplyRisesOk volts straps => h.supplyRisesOk volts straps
  | .ignLineChange high => h.ignLineChange high
  | .ignitionChange => h.ignitionChange
  | .peekTimerExpiry => h.whenUp h.peekTimerExpiry
  | .regulatorFail volts => h.regulatorFail volts
  | .coldStart volts straps => h.coldStart volts straps
  | .resetAssert => h.resetAssert
  | .resetRelease straps => h.resetRelease straps
  | .ignitionOffAfterStart => h.whenUp h.ignitionOffAfterStart

end

end delaysLawfully

end Chip

/-- Settles O5: the figures by the laws of the part, the delay by the end of every event. -/
theorem linkStaysLawful : Obligations.LinkStaysLawful := by
  unfold Obligations.LinkStaysLawful
  intro s t hs h
  obtain ⟨hr, hd⟩ := hs
  refine ⟨(Chip.From.step h).link hr, ?_⟩
  rcases step_chip s t h with e | ⟨i, e⟩ <;> rw [e]
  · exact hd.passTime
  · exact hd.command i

end Sys2Proof.Machine

/-! PROOFS. The status of the supply agrees with its voltage: three commands move it, each by the voltage of the event. -/

namespace Sys2Proof.Machine

set_option Elab.async false
namespace Chip.supplyAgrees

section
variable {c d : Chip}

/-- Voltage and status stand, and no regulator comes up. -/
theorem stand (h : c.supplyAgrees) (hp : d.pins.vsense = c.pins.vsense := by simp)
    (hs : d.sup.status = c.sup.status := by simp) (hl : d.sup.life = .off ∨ c.sup.life ≠ .off := by simp [em]) :
    d.supplyAgrees := fun hd => by
  rw [hp, hs]
  exact h (hl.resolve_left hd)

/-- Voltage, status and life stand. -/
theorem same (h : c.supplyAgrees) (hp : d.pins.vsense = c.pins.vsense := by simp)
    (hs : d.sup.status = c.sup.status := by simp) (hl : d.sup.life = c.sup.life := by simp) : d.supplyAgrees :=
  h.stand hp hs (by rw [hl]; exact Classical.em _)

theorem ite {p : Prop} [Decidable p] {x y : Chip} (hx : p → x.supplyAgrees) (hy : ¬p → y.supplyAgrees) :
    (if p then x else y).supplyAgrees := by
  split
  · exact hx ‹_›
  · exact hy ‹_›

theorem whenUp (h : c.supplyAgrees) {f : Chip → Chip} (hf : (f c).supplyAgrees) : (c.whenUp f).supplyAgrees := by
  unfold Chip.whenUp
  split
  · exact hf
  all_goals exact h

theorem passTime (h : c.supplyAgrees) : c.passTime.supplyAgrees := by
  unfold Chip.passTime
  split
  · exact h
  all_goals exact h.same rfl rfl rfl

theorem low (hs : c.sup.status = .low) (hv : c.pins.vsense < 160) : c.supplyAgrees := fun _ => by
  simp only [hs, reduceCtorEq, false_implies, true_and, forall_const]
  omega

theorem ok (hs : c.sup.status = .ok) (hv : 180 < c.pins.vsense) : c.supplyAgrees := fun _ => by
  simp only [hs, reduceCtorEq, false_implies, and_true, forall_const]
  omega

theorem holdReset (h : c.supplyAgrees) (hl : c.sup.life ≠ .off) : c.holdReset.supplyAgrees := h.stand rfl rfl (.inr hl)

theorem lineStart (h : c.supplyAgrees) (hl : c.sup.life ≠ .off) (s : Straps) : (c.lineStart s).supplyAgrees :=
  h.stand (by simp [Chip.lineStart]) (by simp [Chip.lineStart]) (.inr hl)

theorem coldValues (volts : Nat) (s : Straps) (pins : Pins) (a : StoreArray) :
    (Chip.coldValues volts s pins a).settleRole.finishStart.supplyAgrees := fun _ => by
  simp only [Chip.finishStart_frame, Chip.settleRole_frame, Chip.coldValues, Supply.cold]
  split <;> simp <;> omega

theorem supplyFallsLow (h : c.supplyAgrees) (volts : Nat) : (c.supplyFallsLow volts).supplyAgrees := by
  refine ite (fun hv => ?_) fun _ => h
  obtain ⟨hv, -, -⟩ := hv
  dsimp only
  split
  · exact low (by simp) (by simpa using hv)
  all_goals exact low rfl hv

theorem supplyRisesOk (h : c.supplyAgrees) (volts : Nat) (s : Straps) : (c.supplyRisesOk volts s).supplyAgrees := by
  refine ite (fun hv => ?_) fun _ => h
  obtain ⟨hv, -, -⟩ := hv
  dsimp only
  split
  · exact ok (by simp) (by simpa using hv)
  · exact ok (by simp [Chip.lineStart]) (by simpa [Chip.lineStart] using hv)
  all_goals exact ok rfl hv

theorem ignLineChange (h : c.supplyAgrees) (high : Bool) : (c.ignLineChange high).supplyAgrees := by
  refine ite (fun _ => h) fun _ => ?_
  dsimp only
  split
  all_goals exact h.same rfl rfl rfl

theorem keyLineChange (h : c.supplyAgrees) (k : Key) (l : Bool) : (c.keyLineChange k l).supplyAgrees :=
  ite (fun _ => h) fun _ => ite (fun _ => h.same rfl rfl rfl) fun _ => h.same rfl rfl rfl

theorem regulatorFail (h : c.supplyAgrees) (volts : Nat) : (c.regulatorFail volts).supplyAgrees :=
  ite (fun _ hl => absurd rfl hl) fun _ => h

theorem coldStart (h : c.supplyAgrees) (volts : Nat) (s : Straps) : (c.coldStart volts s).supplyAgrees := by
  unfold Chip.coldStart
  split
  · have hs := coldValues volts s c.pins c.store.array
    exact ite (fun _ => ite (fun _ => hs.holdReset (by simp [Chip.coldValues, Supply.cold])) fun _ => hs) fun _ => h
  all_goals exact h

theorem resetAssert (h : c.supplyAgrees) : c.resetAssert.supplyAgrees := by
  have hp : ({ c with pins := { c.pins with reset := true } } : Chip).supplyAgrees := h
  unfold Chip.resetAssert
  dsimp only
  split
  · next hl => exact hp.holdReset (by rw [hl]; decide)
  · next hl => exact hp.holdReset (by rw [hl]; decide)
  all_goals exact hp

theorem resetRelease (h : c.supplyAgrees) (s : Straps) : (c.resetRelease s).supplyAgrees := by
  have hp : ({ c with pins := { c.pins.setStraps s with reset := false } } : Chip).supplyAgrees := h
  unfold Chip.resetRelease
  dsimp only
  split
  · next hl _ => exact hp.lineStart (by rw [hl]; decide) s
  · next hl _ => exact hp.stand rfl rfl (.inr (by rw [hl]; decide))
  all_goals exact hp

/-- Every command leaves the status agreeing with the supply. -/
theorem command (h : c.supplyAgrees) (i : Instr) : (effect i c).supplyAgrees :=
  match i with
  | .liftPressure .. | .boomAngle .. | .bucketTilt .. | .chassisIncline .. | .driveState .. | .truckTag ..
  | .weigherStatus .. | .truckStatus .. | .passRecord .. | .truckClosed .. | .counterRequest .. | .counterReport ..
  | .diagRequest .. | .diagReport .. | .configWrite .. | .configCommit .. | .configStatus .. | .unknownKindTelegram ..
  | .receiveFailure _ | .settleGapComplete | .dominantDuringDelay | .accessDelayEnd | .telegramSent | .readbackMismatch _
  | .quietTimerExpiry | .staleExpiry _ | .lossTimerExpiry _ | .rateTimerExpiry | .fillEmptyTimerExpiry | .carryTimerExpiry
  | .inputLossTimerExpiry _ | .truckStatusRefresh | .counterPollTimer | .keyDebounceExpiry _ | .longPress | .repeatStep
  | .frameTimer | .blinkTimer | .historyViewTimer | .messageTimer | .buzzerPhaseEnd | .maskTimerExpiry _
  | .statusTimerExpiry | .peerRecordRemoval _ | .watchTimerExpiry | .listenTimerExpiry | .pairingTimerExpiry
  | .startWindowEnd | .peekTimerExpiry | .ignitionOffAfterStart | .bklPeriodStart => h.whenUp h.same
  | .keyLineChange k low => h.keyLineChange k low
  | .storeWriteComplete => show c.storeWriteComplete.supplyAgrees from h.same
  | .ignitionChange => show c.ignitionChange.supplyAgrees from h.same
  | .supplyFallsLow volts => h.supplyFallsLow volts
  | .supplyRisesOk volts straps => h.supplyRisesOk volts straps
  | .ignLineChange high => h.ignLineChange high
  | .regulatorFail volts => h.regulatorFail volts
  | .coldStart volts straps => h.coldStart volts straps
  | .resetAssert => h.resetAssert
  | .resetRelease straps => h.resetRelease straps

end

end Chip.supplyAgrees

/-- Settles O12: the falling and the rising event set status and voltage together, as a COLD start does. -/
theorem supplyStatusAgrees : Obligations.SupplyStatusAgrees :=
  kept_of_effect (fun _ h => h.passTime) fun i _ h => h.command i

end Sys2Proof.Machine

/-! SUPPORT. The course of the tracker: what of it the pass, the window and the timers go by; and the operations that leave
it, which of the tracker change the note of the last commit alone. -/

namespace Sys2Proof.Machine

set_option Elab.async false

/-- The cycle state, whether a pass is in flight, the timers and the reasons of suspension. -/
def Tracker.course (t : Tracker) :
    Cycle × Bool × Option Tick × Option Tick × Option Tick × Option Tick × Bool × Bool :=
  (t.cycle, t.ctx.isSome, t.fillTimer, t.carryTimer, t.lossPressure, t.lossAngle, t.suspCal, t.suspPower)

@[simp] theorem Tracker.course_note (t : Tracker) (n : Option Note) : ({ t with note := n } : Tracker).course = t.course := rfl

@[simp] theorem Tracker.course_prevAngle (t : Tracker) (a : Option Int) :
    ({ t with prevAngle := a } : Tracker).course = t.course := rfl

@[simp] theorem Tracker.course_racked (t : Tracker) (r : Bool) : ({ t with racked := r } : Tracker).course = t.course := rfl

@[simp] theorem Tracker.course_mapCtx (t : Tracker) (f : PassCtx → PassCtx) : (t.mapCtx f).course = t.course := by
  simp [Tracker.course, Tracker.mapCtx]

namespace Chip

/-! ## The load register -/

@[simp] theorem discardNote_course (c : Chip) : c.discardNote.trk.course = c.trk.course := rfl

@[simp] theorem closeRecord_course (r : CloseReason) (c : Chip) : (c.closeRecord r).trk.course = c.trk.course := by
  cases h : c.load.record with
  | none => simp [Chip.closeRecord, h]
  | some x => rw [Chip.closeRecord_trk r c x h, Tracker.course_note]

@[simp] theorem tagPresent_course (id : Nat) (t : Option Nat) (c : Chip) : (c.tagPresent id t).trk.course = c.trk.course := by
  unfold Chip.tagPresent
  dsimp only
  (repeat' split) <;> simp

@[simp] theorem tagGone_course (c : Chip) : c.tagGone.trk.course = c.trk.course := by
  unfold Chip.tagGone
  (repeat' split) <;> simp

@[simp] theorem takeTag_course (c : Chip) : c.takeTag.trk.course = c.trk.course := by
  unfold Chip.takeTag
  (repeat' split) <;> simp

@[simp] theorem tagStale_course (c : Chip) : c.tagStale.trk.course = c.trk.course := by
  unfold Chip.tagStale
  split <;> simp

@[simp] theorem takeHeldTag_course (c : Chip) : c.takeHeldTag.trk.course = c.trk.course := by
  unfold Chip.takeHeldTag
  split <;> simp

@[simp] theorem nextManualTruck_course (c : Chip) : c.nextManualTruck.trk.course = c.trk.course := by
  unfold Chip.nextManualTruck
  split <;> simp

@[simp] theorem operatorClose_course (c : Chip) : c.operatorClose.trk.course = c.trk.course := by
  unfold Chip.operatorClose
  dsimp only
  (repeat' split) <;> simp

@[simp] theorem routeEnter_course (c : Chip) : c.routeEnter.trk.course = c.trk.course := by
  unfold Chip.routeEnter
  split <;> simp

@[simp] theorem routePage_course (k : Key) (c : Chip) : (c.routePage k).trk.course = c.trk.course := by
  cases k <;> simp [Chip.routePage]

/-! ## The role arbiter -/

@[simp] theorem setRole_course (s : RoleState) (c : Chip) : (c.setRole s).trk.course = c.trk.course := rfl

@[simp] theorem enterListen_course (c : Chip) : c.enterListen.trk.course = c.trk.course := by simp [Chip.enterListen]

@[simp] theorem enterRepeat_course (c : Chip) : c.enterRepeat.trk.course = c.trk.course := by
  unfold Chip.enterRepeat
  dsimp only
  split <;> simp

@[simp] theorem enterActive_course (c : Chip) : c.enterActive.trk.course = c.trk.course := by simp [Chip.enterActive]

@[simp] theorem yieldRecord_course (c : Chip) : c.yieldRecord.trk.course = c.trk.course := by
  unfold Chip.yieldRecord
  split <;> simp

@[simp] theorem enterStandby_course (c : Chip) : c.enterStandby.trk.course = c.trk.course := by simp [Chip.enterStandby]

@[simp] theorem yieldTo_course (n : Nat) (q : BitVec 8) (c : Chip) : (c.yieldTo n q).trk.course = c.trk.course := by
  simp [Chip.yieldTo]

@[simp] theorem enterMute_course (c : Chip) : c.enterMute.trk.course = c.trk.course := by
  unfold Chip.enterMute
  dsimp only
  split <;> simp

@[simp] theorem conflictReport_course (c : Chip) : c.conflictReport.trk.course = c.trk.course := by
  unfold Chip.conflictReport
  split <;> simp

@[simp] theorem watchExpired_course (c : Chip) : c.watchExpired.trk.course = c.trk.course := by
  unfold Chip.watchExpired
  dsimp only
  (repeat' split) <;> simp

@[simp] theorem hearStatus_course (n : Nat) (m : StatusMsg) (c : Chip) : (c.hearStatus n m).trk.course = c.trk.course := by
  unfold Chip.hearStatus
  dsimp only
  (repeat' split) <;> simp

@[simp] theorem weigherStatus_course (src : Byte) (m : StatusMsg) (c : Chip) :
    (c.weigherStatus src m).trk.course = c.trk.course := by
  unfold Chip.weigherStatus
  dsimp only
  (repeat' split) <;> simp

@[simp] theorem dropShadowNote_course (b : Option TruckRec) (c : Chip) : (c.dropShadowNote b).trk.course = c.trk.course := by
  unfold Chip.dropShadowNote
  (repeat' split) <;> simp

@[simp] theorem truckStatus_course (src : Byte) (m : TruckMsg) (c : Chip) :
    (c.truckStatus src m).trk.course = c.trk.course := by
  unfold Chip.truckStatus
  split <;> simp

@[simp] theorem passRecord_course (src : Byte) (p : PassRec) (c : Chip) :
    (c.passRecord src p).trk.course = c.trk.course := by
  unfold Chip.passRecord
  dsimp only
  (repeat' split) <;> simp

@[simp] theorem settleRole_course (c : Chip) : c.settleRole.trk.course = c.trk.course := by
  unfold Chip.settleRole
  (repeat' split) <;> simp

@[simp] theorem resumeRole_course (c : Chip) : c.resumeRole.trk.course = c.trk.course := by
  unfold Chip.resumeRole
  dsimp only
  (repeat' split) <;> simp

@[simp] theorem takeCalibrating_course (c : Chip) : c.takeCalibrating.trk.course = c.trk.course := by
  unfold Chip.takeCalibrating
  split <;> simp

@[simp] theorem takeListen_course (c : Chip) : c.takeListen.trk.course = c.trk.course := by
  unfold Chip.takeListen
  (repeat' split) <;> simp

@[simp] theorem watchTimerExpiry_course (c : Chip) : c.watchTimerExpiry.trk.course = c.trk.course := by
  unfold Chip.watchTimerExpiry
  split <;> simp

@[simp] theorem listenTimerExpiry_course (c : Chip) : c.listenTimerExpiry.trk.course = c.trk.course := by
  unfold Chip.listenTimerExpiry
  (repeat' split) <;> simp

/-! ## The commit and the amendment -/

@[simp] theorem commitPass_course (p : PassRec) (c : Chip) : (c.commitPass p).trk.course = c.trk.course := by
  unfold Chip.commitPass
  dsimp only
  split <;> simp

theorem amended_course (f : PassCtx → PassCtx) (n : Option Note) (c : Chip) :
    (c.mapTrk fun t => { t.mapCtx f with note := n }).trk.course = c.trk.course := Tracker.course_mapCtx c.trk f

@[simp] theorem amend_course (r : Nat) (c : Chip) : (c.amend r).trk.course = c.trk.course := by
  unfold Chip.amend
  split
  · rfl
  · split
    · refine (amended_course _ _ _).trans ?_
      split <;> simp
    · rfl

@[simp] theorem judgeRemainder_course (c : Chip) : c.judgeRemainder.trk.course = c.trk.course := by
  unfold Chip.judgeRemainder
  (repeat' split) <;> simp

end Chip

end Sys2Proof.Machine

/-! SUPPORT. Pass, window and timers stand together: the law of the tracker and the engine, and how the operations of the
tracker keep it. -/

namespace Sys2Proof.Machine

set_option Elab.async false

/-- A cycle state with a pass in flight (R27). -/
def Cycle.carries : Cycle → Bool
  | .fill | .lift | .weigh | .carry => true
  | .idle | .dump | .ret | .suspended => false

/-- The laws of pass, window and timers, with the reasons of suspension sc (CAL) and sp (POWER). While an arrival is under way
the input-loss timers may lag behind the state (x false) until R40 brings them up. -/
structure Chip.Paired (x sc sp : Bool) (c : Chip) : Prop where
  pass : c.trk.ctx.isSome = c.trk.cycle.carries
  window : c.eng.isOpen = true ↔ c.trk.cycle = .weigh
  latched : c.eng.isOpen = true → c.eng.latched.isSome = true
  fill : c.trk.cycle ≠ .fill → c.trk.fillTimer = none
  carry : c.trk.cycle ≠ .carry → c.trk.carryTimer = none
  loss : x = true → c.trk.cycle ≠ .weigh → c.trk.cycle ≠ .carry → c.trk.lossPressure = none ∧ c.trk.lossAngle = none
  susp : c.trk.cycle = .suspended ↔ sc = true ∨ sp = true
  cal : c.trk.suspCal = sc
  power : c.trk.suspPower = sp

/-- No window is open and nothing suspends: where a pass ends, the tracker stands free to enter its next state. -/
structure Chip.Free (c : Chip) : Prop where
  shut : c.eng.isOpen = false
  cal : c.trk.suspCal = false
  power : c.trk.suspPower = false

namespace Chip.Paired

section
variable {c d : Chip} {x sc sp : Bool}

theorem weaken (h : c.Paired x sc sp) : c.Paired false sc sp := { h with loss := nofun }

/-- Where course and window stand, the laws do. -/
theorem stand (h : c.Paired x sc sp) (ht : d.trk.course = c.trk.course := by simp)
    (ho : d.eng.isOpen = c.eng.isOpen := by simp) (hl : d.eng.latched = c.eng.latched := by simp) : d.Paired x sc sp := by
  simp only [Tracker.course, Prod.mk.injEq] at ht
  obtain ⟨h1, h2, h3, h4, h5, h6, h7, h8⟩ := ht
  exact
    { pass := by rw [h1, h2, h.pass]
      window := by rw [h1, ho, h.window]
      latched := by rw [ho, hl]; exact h.latched
      fill := by rw [h1, h3]; exact h.fill
      carry := by rw [h1, h4]; exact h.carry
      loss := by rw [h1, h5, h6]; exact h.loss
      susp := by rw [h1, h.susp]
      cal := by rw [h7, h.cal]
      power := by rw [h8, h.power] }

theorem ite {p : Prop} [Decidable p] {a b : Chip} (ha : p → a.Paired x sc sp) (hb : ¬p → b.Paired x sc sp) :
    (if p then a else b).Paired x sc sp := by
  split
  · exact ha ‹_›
  · exact hb ‹_›

theorem settleLink (h : c.Paired x sc sp) : c.settleLink.Paired x sc sp := h.stand rfl rfl rfl

theorem refresh (h : c.Paired x sc sp) (a : Alarm) : (c.refresh a).Paired x sc sp := h.stand

/-- Nothing suspends a tracker that is not suspended. -/
theorem awake (h : c.Paired x sc sp) (hs : c.trk.cycle ≠ .suspended) : sc = false ∧ sp = false := by
  have := mt h.susp.2 hs
  simpa using this

theorem shut (h : c.Paired x sc sp) (hw : c.trk.cycle ≠ .weigh) : c.eng.isOpen = false := by
  simpa using mt h.window.1 hw

theorem free (h : c.Paired x sc sp) (hs : c.trk.cycle ≠ .suspended) (hw : c.trk.cycle ≠ .weigh) : c.Free :=
  ⟨h.shut hw, h.cal.trans (h.awake hs).1, h.power.trans (h.awake hs).2⟩

end

end Chip.Paired

/-! ## The ends of a pass -/

section
variable {c : Chip} {x sc sp : Bool}

theorem Chip.Paired.voidPass_free (h : c.Paired x sc sp) (hs : c.trk.cycle ≠ .suspended) (r : VoidReason) :
    (c.voidPass r).Free := by
  have hshut : (c.voidPass r).eng.isOpen = false := by
    unfold Chip.voidPass Chip.shutIfWeigh
    split
    · rfl
    · next hw => exact h.shut hw
  exact ⟨hshut, (by unfold Chip.voidPass Chip.shutIfWeigh; split <;> exact h.cal.trans (h.awake hs).1),
    by unfold Chip.voidPass Chip.shutIfWeigh; split <;> exact h.power.trans (h.awake hs).2⟩

/-- A pass in flight in the state before is dropped or committed: no pass, no timer, no window (R27). -/
theorem Chip.Free.settled (h : c.Free) (hc : c.trk.ctx = none) (hcy : c.trk.cycle.carries = false)
    (hcs : c.trk.cycle ≠ .suspended) (hf : c.trk.fillTimer = none) (hca : c.trk.carryTimer = none)
    (hl : c.trk.lossPressure = none ∧ c.trk.lossAngle = none) : c.Paired true false false where
  pass := by rw [hc, hcy]; rfl
  window := by
    rw [h.shut]
    exact ⟨nofun, fun e => by simp [e, Cycle.carries] at hcy⟩
  latched e := by simp [h.shut] at e
  fill _ := hf
  carry _ := hca
  loss _ _ _ := hl
  susp := by simpa using hcs
  cal := h.cal
  power := h.power

theorem Chip.Free.enterDump (h : c.Free) : c.enterDump.Paired true false false := by
  have hd : ((c.mapTrk Tracker.endPass).setCycle .dump).Paired true false false :=
    Chip.Free.settled ⟨h.shut, h.cal, h.power⟩ rfl rfl (by simp [Chip.setCycle]) rfl rfl ⟨rfl, rfl⟩
  unfold Chip.enterDump
  dsimp only
  split
  · exact hd.stand
  · exact hd

/-- Entry to LIFT: the pass is in flight, and the CARRY timer has not started. -/
theorem Chip.Free.enterLift (h : c.Free) (hp : c.trk.ctx.isSome = true) (hc : c.trk.carryTimer = none)
    (hl : x = true → c.trk.lossPressure = none ∧ c.trk.lossAngle = none) : c.enterLift.Paired x false false := by
  unfold Chip.enterLift
  dsimp only
  split
  · exact { Chip.Free.enterDump (c := c.mapTrk fun t => { t with cycle := .lift, fillTimer := none }) ⟨h.shut, h.cal, h.power⟩
      with loss := fun _ => (Chip.Free.enterDump (c := c.mapTrk fun t => { t with cycle := .lift, fillTimer := none })
        ⟨h.shut, h.cal, h.power⟩).loss rfl }
  · exact
      { pass := hp
        window := by simp [h.shut]
        latched := fun e => by simp [h.shut] at e
        fill := fun _ => rfl
        carry := fun _ => hc
        loss := fun e _ _ => hl e
        susp := by simp
        cal := h.cal
        power := h.power }

theorem Chip.Free.enterFill (h : c.Free) (hc : c.trk.carryTimer = none)
    (hl : x = true → c.trk.lossPressure = none ∧ c.trk.lossAngle = none) : c.enterFill.Paired x false false := by
  unfold Chip.enterFill
  dsimp only
  split
  · exact Chip.Free.enterLift ⟨h.shut, h.cal, h.power⟩ rfl hc hl
  · exact
      { pass := rfl
        window := by simp [h.shut]
        latched := fun e => by simp [h.shut] at e
        fill := fun hn => absurd rfl hn
        carry := fun _ => hc
        loss := fun e _ _ => hl e
        susp := by simp
        cal := h.cal
        power := h.power }

theorem Chip.Free.enterIdle (h : c.Free) : c.enterIdle.Paired true false false := by
  have hf : (c.mapTrk fun t => { t.endPass with cycle := .idle, racked := false }).Free := ⟨h.shut, h.cal, h.power⟩
  have hi := hf.settled rfl rfl (by simp) rfl rfl ⟨rfl, rfl⟩
  unfold Chip.enterIdle
  dsimp only
  split
  · exact .ite (fun _ => hf.enterFill rfl fun _ => ⟨rfl, rfl⟩) fun _ => hi
  · exact hi

theorem Chip.Free.enterReturn (h : c.Free) : c.enterReturn.Paired true false false := by
  have hf : (c.mapTrk fun t => { t.endPass with cycle := .ret, racked := false }).Free := ⟨h.shut, h.cal, h.power⟩
  have hr := hf.settled rfl rfl (by simp) rfl rfl ⟨rfl, rfl⟩
  unfold Chip.enterReturn
  dsimp only
  split
  · exact .ite (fun _ => Chip.Free.enterIdle ⟨h.shut, h.cal, h.power⟩) fun _ => hr.stand rfl rfl rfl
  · exact .ite (fun _ => hf.enterIdle) fun _ => hr

/-! ## WEIGH and CARRY -/

/-- Entry to WEIGH with a pass at hand; the loss timers follow at the end of the arrival. -/
theorem Chip.enterWeigh_paired (hp : c.trk.ctx.isSome = true) (hf : c.trk.fillTimer = none) (hc : c.trk.carryTimer = none)
    (hsc : c.trk.suspCal = false) (hsp : c.trk.suspPower = false) : c.enterWeigh.Paired false false false := by
  unfold Chip.enterWeigh
  dsimp only
  split
  · refine (Chip.Free.enterDump ?_).weaken
    exact ⟨rfl, hsc, hsp⟩
  · exact
      { pass := by simpa [Tracker.mapCtx, Cycle.carries] using hp
        window := by simp [Engine.openWindow]
        latched := fun _ => rfl
        fill := fun _ => hf
        carry := fun _ => hc
        loss := nofun
        susp := by simp
        cal := hsc
        power := hsp }

theorem Chip.Free.enterCarry (h : c.Free) (hp : c.trk.ctx.isSome = true) (hf : c.trk.fillTimer = none) :
    c.enterCarry.Paired false false false := by
  have hc : (c.mapTrk fun t => { t with cycle := .carry, carryTimer := some c.tick }).Paired false false false :=
    { pass := hp
      window := by simp [h.shut]
      latched := fun e => by simp [h.shut] at e
      fill := fun _ => hf
      carry := fun hn => absurd rfl hn
      loss := nofun
      susp := by simp
      cal := h.cal
      power := h.power }
  have hj := hc.stand (d := (c.mapTrk fun t => { t with cycle := .carry, carryTimer := some c.tick }).judgeRemainder)
  unfold Chip.enterCarry
  dsimp only
  have hjc : (c.mapTrk fun t => { t with cycle := .carry, carryTimer := some c.tick }).judgeRemainder.trk.cycle = .carry := by
    simp
  exact .ite (fun _ => (hc.voidPass_free (by simp) _).enterReturn.weaken) fun _ =>
    .ite (fun _ => (hj.free (by rw [hjc]; decide) (by rw [hjc]; decide)).enterDump.weaken) fun _ =>
    .ite (fun _ => (hj.voidPass_free (by rw [hjc]; decide) _).enterIdle.weaken) fun _ => hj

/-! ## Crossings -/

theorem Engine.close_isOpen (cfg : Cfg) (trim : Int) {e : Engine} (h : e.isOpen = true → e.latched.isSome = true) :
    (e.close cfg trim).2.isOpen = false := by
  unfold Engine.close
  split
  · rfl
  · next hn =>
    cases ho : e.isOpen with
    | false => rfl
    | true =>
      obtain ⟨l, hl⟩ := Option.isSome_iff_exists.1 (h ho)
      exact absurd hl (hn l ho)

theorem Chip.Paired.closeWindow (h : c.Paired x sc sp) (hw : c.trk.cycle = .weigh) :
    c.closeWindow.Paired false false false := by
  obtain ⟨hsc, hsp⟩ := h.awake (by rw [hw]; decide)
  have hp := h.pass
  rw [hw] at hp
  unfold Chip.closeWindow
  refine Chip.Free.enterCarry ⟨Engine.close_isOpen _ _ h.latched, h.cal.trans hsc, h.power.trans hsp⟩ ?_
    (h.fill (by rw [hw]; decide))
  simpa [Tracker.mapCtx, Cycle.carries] using hp

theorem Chip.Paired.carryUnweighed (h : c.Paired x sc sp) (hl : c.trk.cycle = .lift) :
    c.carryUnweighed.Paired false false false := by
  obtain ⟨hshut, hsc, hsp⟩ := h.free (by rw [hl]; decide) (by rw [hl]; decide)
  have hp := h.pass
  rw [hl] at hp
  refine Chip.Free.enterCarry ⟨hshut, hsc, hsp⟩ ?_ (h.fill (by rw [hl]; decide))
  simpa [Tracker.mapCtx, Cycle.carries] using hp

theorem Chip.Paired.abandonWindow (h : c.Paired x sc sp) (hw : c.trk.cycle = .weigh) :
    c.abandonWindow.Paired false false false := by
  obtain ⟨hsc, hsp⟩ := h.awake (by rw [hw]; decide)
  have hp := h.pass
  rw [hw] at hp
  refine Chip.Free.enterLift ⟨rfl, h.cal.trans hsc, h.power.trans hsp⟩ ?_ (h.carry (by rw [hw]; decide)) nofun
  simpa [Tracker.mapCtx, Cycle.carries] using hp

theorem Chip.openAndCross_paired (prev : Option Int) (theta : Int) (hp : c.trk.ctx.isSome = true)
    (hf : c.trk.fillTimer = none) (hc : c.trk.carryTimer = none) (hsc : c.trk.suspCal = false)
    (hsp : c.trk.suspPower = false) : (c.openAndCross prev theta).Paired false false false := by
  have hw := Chip.enterWeigh_paired hp hf hc hsc hsp
  refine .ite (fun hcy => hw.closeWindow ?_) fun _ => hw
  simp only [Bool.and_eq_true, decide_eq_true_eq] at hcy
  exact hcy.1.1

theorem Chip.Paired.angleInLift (h : c.Paired x sc sp) (hl : c.trk.cycle = .lift) (prev : Option Int) (theta : Int) :
    (c.angleInLift prev theta).Paired false sc sp := by
  obtain ⟨rfl, rfl⟩ := h.awake (by rw [hl]; decide)
  have hp := h.pass
  rw [hl] at hp
  exact .ite (fun _ => Chip.openAndCross_paired prev theta hp (h.fill (by rw [hl]; decide)) (h.carry (by rw [hl]; decide))
    h.cal h.power) fun _ => .ite (fun _ => h.carryUnweighed hl) fun _ => h.weaken

theorem Chip.Paired.angleInReturn (h : c.Paired x sc sp) (hr : c.trk.cycle = .ret) (prev : Option Int) (theta : Int) :
    (c.angleInReturn prev theta).Paired false sc sp := by
  have hf := h.free (by rw [hr]; decide) (by rw [hr]; decide)
  obtain ⟨rfl, rfl⟩ := h.awake (by rw [hr]; decide)
  exact .ite (fun _ => hf.enterIdle.weaken) fun _ => .ite (fun _ => Chip.openAndCross_paired prev theta rfl
    (h.fill (by rw [hr]; decide)) (h.carry (by rw [hr]; decide)) h.cal h.power) fun _ => h.weaken

theorem Chip.Paired.angleInWeigh (h : c.Paired x sc sp) (hw : c.trk.cycle = .weigh) (prev : Option Int) (theta : Int) :
    (c.angleInWeigh prev theta).Paired false sc sp := by
  obtain ⟨rfl, rfl⟩ := h.awake (by rw [hw]; decide)
  have hc := h.closeWindow hw
  refine .ite (fun _ => .ite (fun hr => hc.angleInReturn ?_ prev theta) fun _ => hc) fun _ =>
    .ite (fun _ => h.abandonWindow hw) fun _ => h.weaken
  simp only [Bool.and_eq_true, decide_eq_true_eq] at hr
  exact hr.1

theorem Chip.Paired.angleTransition (h : c.Paired x sc sp) (prev : Option Int) (theta : Int) :
    (c.angleTransition prev theta).Paired false sc sp := by
  unfold Chip.angleTransition
  split
  · next hl => exact h.angleInLift hl prev theta
  · next hw => exact h.angleInWeigh hw prev theta
  · next hc =>
    obtain ⟨rfl, rfl⟩ := h.awake (by rw [hc]; decide)
    exact .ite (fun _ => (h.voidPass_free (by rw [hc]; decide) _).enterIdle.weaken) fun _ => h.weaken
  · next hr => exact h.angleInReturn hr prev theta
  all_goals exact h.weaken

/-! ## Arrivals -/

theorem Chip.Paired.trackAngle (h : c.Paired x sc sp) (status : ArrStatus) : (c.trackAngle status).Paired false sc sp := by
  unfold Chip.trackAngle
  split
  · next theta _ =>
    have ht := h.stand (d := c.mapTrk fun t => { t with prevAngle := some theta }) rfl rfl rfl
    exact .ite (fun _ => h.weaken) fun _ => .ite (fun _ => ht.angleTransition _ _) fun _ => ht.weaken
  · exact h.weaken

theorem Chip.Paired.trackPressure (h : c.Paired x sc sp) (status : ArrStatus) :
    (c.trackPressure status).Paired false sc sp := by
  unfold Chip.trackPressure
  split
  · split
    · next hi =>
      obtain ⟨rfl, rfl⟩ := h.awake (by rw [hi]; decide)
      exact .ite (fun _ => (h.free (by rw [hi]; decide) (by rw [hi]; decide)).enterFill (h.carry (by rw [hi]; decide)) nofun)
        fun _ => h.weaken
    · next hf => exact { h.weaken with fill := fun hn => absurd hf hn }
    all_goals exact h.weaken
  · exact h.weaken

theorem Chip.Paired.dumpWeigh (h : c.Paired x sc sp) (hw : c.trk.cycle = .weigh) :
    ((c.mapEng Engine.shut).mapTrk (Tracker.mapCtx PassCtx.unweigh)).enterDump.Paired true sc sp := by
  obtain ⟨rfl, rfl⟩ := h.awake (by rw [hw]; decide)
  exact Chip.Free.enterDump ⟨rfl, h.cal, h.power⟩

theorem Chip.Paired.trackTilt (h : c.Paired x sc sp) (status : ArrStatus) : (c.trackTilt status).Paired false sc sp := by
  unfold Chip.trackTilt
  split
  · split
    · next hf =>
      obtain ⟨rfl, rfl⟩ := h.awake (by rw [hf]; decide)
      have hp := h.pass
      rw [hf] at hp
      exact .ite (fun _ => (h.free (by rw [hf]; decide) (by rw [hf]; decide)).enterLift hp (h.carry (by rw [hf]; decide)) nofun)
        fun _ => h.weaken
    · next hl =>
      obtain ⟨rfl, rfl⟩ := h.awake (by rw [hl]; decide)
      exact .ite (fun _ => (h.free (by rw [hl]; decide) (by rw [hl]; decide)).enterDump.weaken) fun _ => h.weaken
    · next hw => exact .ite (fun _ => (h.dumpWeigh hw).weaken) fun _ => h.weaken
    · next hc =>
      obtain ⟨rfl, rfl⟩ := h.awake (by rw [hc]; decide)
      exact .ite (fun _ => (h.free (by rw [hc]; decide) (by rw [hc]; decide)).enterDump.weaken) fun _ => h.weaken
    · next hd =>
      obtain ⟨rfl, rfl⟩ := h.awake (by rw [hd]; decide)
      exact .ite (fun _ => (h.free (by rw [hd]; decide) (by rw [hd]; decide)).enterReturn.weaken) fun _ => h.weaken
    · exact h.weaken.stand rfl rfl rfl
    all_goals exact h.weaken
  · exact h.weaken

theorem lossTimer_idle (fresh : Bool) (now : Tick) (t : Option Tick) : lossTimer false fresh now t = none := by
  simp [lossTimer]

/-- The input-loss timers come up with the state (R40). -/
theorem Chip.Paired.syncLoss (h : c.Paired x sc sp) : c.syncLoss.Paired true sc sp := by
  unfold Chip.syncLoss
  exact
    { h with
      loss := fun _ hw hc => by
        have hruns : (c.trk.cycle == .weigh || c.trk.cycle == .carry) = false := by
          simp only [Bool.or_eq_false_iff, beq_eq_false_iff_ne]
          exact ⟨hw, hc⟩
        simp only [Chip.mapTrk_trk, hruns, lossTimer_idle, and_self] }

theorem Chip.Paired.afterArrival (h : c.Paired x sc sp) : c.afterArrival.Paired true sc sp := h.syncLoss.refresh _

/-! ## Timers -/

theorem Chip.Paired.fillEmptyExpiry (h : c.Paired true sc sp) : c.fillEmptyExpiry.Paired true sc sp := by
  refine .ite (fun hd => ?_) fun _ => h
  have hf : c.trk.cycle = .fill := by
    refine Classical.byContradiction fun hn => ?_
    simp [h.fill hn, due] at hd
  obtain ⟨rfl, rfl⟩ := h.awake (by rw [hf]; decide)
  exact (h.free (by rw [hf]; decide) (by rw [hf]; decide)).enterIdle.settleLink

theorem Chip.Paired.carryExpiry (h : c.Paired true sc sp) : c.carryExpiry.Paired true sc sp := by
  refine .ite (fun hd => ?_) fun _ => h
  have hf : c.trk.cycle = .carry := by
    refine Classical.byContradiction fun hn => ?_
    simp [h.carry hn, due] at hd
  obtain ⟨rfl, rfl⟩ := h.awake (by rw [hf]; decide)
  exact (h.voidPass_free (by rw [hf]; decide) _).enterIdle.settleLink

theorem Chip.Paired.inputLossExpiry (h : c.Paired true sc sp) (side : LossSide) :
    (c.inputLossExpiry side).Paired true sc sp := by
  refine .ite (fun hd => ?_) fun _ => h
  have hs : c.trk.cycle ≠ .suspended := by
    intro hs
    obtain ⟨h1, h2⟩ := h.loss rfl (by rw [hs]; decide) (by rw [hs]; decide)
    cases side <;> simp [h1, h2, due] at hd
  obtain ⟨rfl, rfl⟩ := h.awake hs
  exact (h.voidPass_free hs _).enterIdle.settleLink

/-! ## Suspension -/

/-- The pass in flight at an entry to SUSPENDED: whatever the reasons were, nothing of it stays. -/
theorem Chip.Paired.suspendPass (h : c.Paired true sc sp) :
    c.suspendPass.trk.cycle = .suspended ∧ c.suspendPass.trk.ctx = none ∧ c.suspendPass.trk.fillTimer = none
      ∧ c.suspendPass.trk.carryTimer = none
      ∧ (c.suspendPass.trk.lossPressure = none ∧ c.suspendPass.trk.lossAngle = none) ∧ c.suspendPass.eng.isOpen = false
      ∧ c.suspendPass.trk.suspCal = sc ∧ c.suspendPass.trk.suspPower = sp := by
  unfold Chip.suspendPass
  split
  · next hs =>
    have hp := h.pass
    rw [hs] at hp
    exact ⟨hs, by simpa [Cycle.carries] using hp, h.fill (by rw [hs]; decide), h.carry (by rw [hs]; decide),
      h.loss rfl (by rw [hs]; decide) (by rw [hs]; decide), h.shut (by rw [hs]; decide), h.cal, h.power⟩
  · next hs =>
    dsimp only
    split
    · have hf := h.voidPass_free hs .power
      obtain ⟨rfl, rfl⟩ := h.awake hs
      exact ⟨rfl, rfl, rfl, rfl, ⟨rfl, rfl⟩, hf.shut, hf.cal, hf.power⟩
    · next hf =>
      refine ⟨rfl, rfl, rfl, rfl, ⟨rfl, rfl⟩, h.shut fun hw => hf (by simp [Tracker.inFlight, hw]), h.cal, h.power⟩

theorem Chip.paired_of_suspended {c : Chip} {sc sp : Bool} (hc : c.trk.cycle = .suspended) (hx : c.trk.ctx = none)
    (hf : c.trk.fillTimer = none) (hca : c.trk.carryTimer = none)
    (hl : c.trk.lossPressure = none ∧ c.trk.lossAngle = none) (ho : c.eng.isOpen = false)
    (hsc : c.trk.suspCal = sc) (hsp : c.trk.suspPower = sp) (hs : sc = true ∨ sp = true) : c.Paired true sc sp where
  pass := by rw [hx, hc]; rfl
  window := by simp [ho, hc]
  latched e := by simp [ho] at e
  fill _ := hf
  carry _ := hca
  loss _ _ _ := hl
  susp := by simp [hc, hs]
  cal := hsc
  power := hsp

theorem Chip.Paired.suspendPower (h : c.Paired true sc sp) : c.suspendPower.Paired true sc true := by
  obtain ⟨h1, h2, h3, h4, h5, h6, h7, -⟩ := h.suspendPass
  exact Chip.paired_of_suspended h1 h2 h3 h4 h5 h6 h7 rfl (.inr rfl)

theorem Chip.Paired.suspendCal (h : c.Paired true sc sp) : c.suspendCal.Paired true true sp := by
  obtain ⟨h1, h2, h3, h4, h5, h6, -, h8⟩ := h.suspendPass
  exact Chip.paired_of_suspended h1 h2 h3 h4 h5 h6 rfl h8 (.inl rfl)

/-- With one reason gone the tracker stays suspended by the other, or enters IDLE (R48). -/
theorem Chip.unsuspend_paired {sc sp : Bool} (hc : c.trk.cycle = .suspended) (hx : c.trk.ctx = none)
    (hf : c.trk.fillTimer = none) (hca : c.trk.carryTimer = none)
    (hl : c.trk.lossPressure = none ∧ c.trk.lossAngle = none) (ho : c.eng.isOpen = false)
    (hsc : c.trk.suspCal = sc) (hsp : c.trk.suspPower = sp) : c.unsuspend.Paired true sc sp := by
  unfold Chip.unsuspend
  split
  · next hs => exact Chip.paired_of_suspended hc hx hf hca hl ho hsc hsp (by simpa [hsc, hsp] using hs)
  · next hs =>
    simp only [Bool.or_eq_true, not_or, Bool.not_eq_true] at hs
    obtain ⟨h1, h2⟩ := hs
    rw [← hsc, ← hsp, h1, h2]
    exact Chip.Free.enterIdle ⟨ho, h1, h2⟩

theorem Chip.Paired.suspended (h : c.Paired true sc sp) (hs : sc = true ∨ sp = true) :
    c.trk.cycle = .suspended ∧ c.trk.ctx = none ∧ c.trk.fillTimer = none ∧ c.trk.carryTimer = none
      ∧ (c.trk.lossPressure = none ∧ c.trk.lossAngle = none) ∧ c.eng.isOpen = false := by
  have hc := h.susp.2 hs
  have hp := h.pass
  rw [hc] at hp
  exact ⟨hc, by simpa [Cycle.carries] using hp, h.fill (by rw [hc]; decide), h.carry (by rw [hc]; decide),
    h.loss rfl (by rw [hc]; decide) (by rw [hc]; decide), h.shut (by rw [hc]; decide)⟩

theorem Chip.Paired.removeCal (h : c.Paired true true sp) : c.removeCal.Paired true false sp := by
  obtain ⟨hc, hx, hf, hca, hl, ho⟩ := h.suspended (.inl rfl)
  exact Chip.unsuspend_paired hc hx hf hca hl ho rfl h.power

theorem Chip.Paired.resumeTracker (h : c.Paired true sc true) : c.resumeTracker.Paired true sc false := by
  obtain ⟨hc, hx, hf, hca, hl, ho⟩ := h.suspended (.inr rfl)
  exact Chip.unsuspend_paired hc hx hf hca hl ho h.cal rfl

theorem Chip.Paired.restartTracker (h : c.Paired true sc sp) : c.restartTracker.Paired true sc sp := by
  unfold Chip.restartTracker
  dsimp only
  split
  · next hfl =>
    have hs : c.trk.cycle ≠ .suspended := by
      intro hs
      simp [Tracker.inFlight, hs] at hfl
    have hf := h.voidPass_free hs .restart
    obtain ⟨rfl, rfl⟩ := h.awake hs
    refine .ite (fun he => absurd ?_ hs) fun _ => Chip.Free.settled ⟨hf.shut, hf.cal, hf.power⟩ rfl rfl (by simp) rfl rfl ⟨rfl, rfl⟩
    rw [← he]
    unfold Chip.voidPass Chip.shutIfWeigh
    split <;> rfl
  · next hfl =>
    refine .ite (fun _ => h) fun hs => ?_
    have hw : c.trk.cycle ≠ .weigh := fun hw => hfl (by simp [Tracker.inFlight, hw])
    obtain ⟨ho, h1, h2⟩ := h.free hs hw
    obtain ⟨rfl, rfl⟩ := h.awake hs
    exact Chip.Free.settled ⟨ho, h1, h2⟩ rfl rfl (by simp) rfl rfl ⟨rfl, rfl⟩

end

end Sys2Proof.Machine

/-! PROOFS. Every step keeps pass, window, timers and suspension together. -/

namespace Sys2Proof.Machine

set_option Elab.async false

/-- A calibration is under way. -/
def Chip.calRuns (c : Chip) : Bool := c.cal.state != .out

/-- The part is outside RUN. -/
def Chip.asleep (c : Chip) : Bool := c.sup.power != .run

theorem Chip.calRuns_iff (c : Chip) : c.calRuns = true ↔ c.cal.state ≠ .out := by simp [Chip.calRuns]

theorem Chip.asleep_iff (c : Chip) : c.asleep = true ↔ c.sup.power ≠ .run := by simp [Chip.asleep]

/-- The invariant is the law of pass, window and timers with the two reasons of suspension as calibration and power state
give them; and of a calibration only CAL-WRITING goes on outside RUN (R48, R102). -/
theorem Chip.passAndWindow_iff (c : Chip) :
    c.passAndWindow ↔ c.Paired true c.calRuns c.asleep
      ∧ (c.sup.power ≠ .run → c.cal.state = .out ∨ c.cal.state = .writing) := by
  have hcar : c.trk.cycle.carries = true ↔
      c.trk.cycle = .fill ∨ c.trk.cycle = .lift ∨ c.trk.cycle = .weigh ∨ c.trk.cycle = .carry := by
    cases c.trk.cycle <;> decide
  constructor
  · rintro ⟨h1, h2, h3, h4, h5, h6, h7, h8, h9, h10⟩
    have hc : c.trk.suspCal = c.calRuns := by
      rw [Bool.eq_iff_iff, h9, c.calRuns_iff]
    have hp : c.trk.suspPower = c.asleep := by
      rw [Bool.eq_iff_iff, h8, c.asleep_iff]
    refine ⟨⟨?_, h2, h3, fun hn => ?_, fun hn => ?_, fun _ hw hn => ?_, ?_, hc, hp⟩, h10⟩
    · rw [Bool.eq_iff_iff, h1, hcar]
    · simpa using mt h4 hn
    · simpa using mt h5 hn
    · have := mt h6 (by simp [hw, hn])
      simpa using this
    · rw [h7, hc, hp]
  · rintro ⟨h, h10⟩
    refine ⟨?_, h.window, h.latched, fun ht => ?_, fun ht => ?_, fun ht => ?_, ?_, ?_, ?_, h10⟩
    · rw [h.pass, hcar]
    · refine Classical.byContradiction fun hn => ?_
      simp [h.fill hn] at ht
    · refine Classical.byContradiction fun hn => ?_
      simp [h.carry hn] at ht
    · refine Classical.byContradiction fun hn => ?_
      obtain ⟨hw, hc⟩ := not_or.1 hn
      obtain ⟨h1, h2⟩ := h.loss rfl hw hc
      simp [h1, h2] at ht
    · rw [h.susp, h.cal, h.power]
    · rw [h.power, c.asleep_iff]
    · rw [h.cal, c.calRuns_iff]

namespace Chip.Paired

section
variable {c : Chip} {sc sp : Bool}

/-! ## Reception and arrivals -/

theorem mapInp (h : c.Paired true sc sp) (f : InputTable → InputTable) : (c.mapInp f).Paired true sc sp := h.stand rfl rfl rfl

theorem mapCal (h : c.Paired true sc sp) (f : CalUnit → CalUnit) : (c.mapCal f).Paired true sc sp := h.stand rfl rfl rfl

theorem sample (h : c.Paired true sc sp) (cfg : Cfg) (t : InputTable) (now : Tick) :
    (c.mapEng (Engine.sample cfg t now)).Paired true sc sp := h.stand rfl (by simp) (by simp)

theorem pressureArrival (h : c.Paired true sc sp) (m : PressureMsg) : (c.pressureArrival m).Paired true sc sp :=
  ((((h.mapInp _).sample _ _ _).mapCal _).trackPressure _).afterArrival

theorem angleArrival (h : c.Paired true sc sp) (src : AngleSrc) (m : AngleMsg) :
    (c.angleArrival src m).Paired true sc sp := by
  unfold Chip.angleArrival
  cases src with
  | primary =>
    have hc := h.stand (d := (c.mapInp (InputTable.arriveAngle c.cfg.disagreeLimit .primary m c.tick)).calAngle m.status)
    exact (hc.trackAngle _).afterArrival
  | secondary => exact h.stand rfl rfl rfl

theorem tiltArrival (h : c.Paired true sc sp) (m : TiltMsg) : (c.tiltArrival m).Paired true sc sp :=
  ((h.stand (d := c.mapInp (InputTable.arriveTilt m c.tick)) rfl rfl rfl).trackTilt _).afterArrival

theorem tagArrival (h : c.Paired true sc sp) (m : TagMsg) : (c.tagArrival m).Paired true sc sp :=
  h.stand (by simp [Chip.tagArrival]) (by simp [Chip.tagArrival]) (by simp [Chip.tagArrival])

theorem take {α : Type} {t : Taken α} {f : α → Chip → Chip} (h : c.Paired true sc sp)
    (hf : ∀ a, (f a c).Paired true sc sp) : (c.take t f).Paired true sc sp := by
  unfold Chip.take
  split
  · exact h.stand rfl rfl rfl
  · exact h
  · exact hf _

theorem takeAngle (h : c.Paired true sc sp) (src : Byte) (data : List Byte) :
    (c.takeAngle src data).Paired true sc sp := by
  unfold Chip.takeAngle
  split
  · exact h.take fun m => h.angleArrival _ m
  · exact h

theorem consumeInRun (h : c.Paired true sc sp) (k : Kind) (src dst : Byte) (data : List Byte) :
    (c.consumeInRun k src dst data).Paired true sc sp :=
  match k with
  | .liftPressure => h.take fun m => h.pressureArrival m
  | .boomAngle => h.takeAngle src data
  | .bucketTilt => h.take fun m => h.tiltArrival m
  | .chassisIncline => h.take fun m => h.stand (d := c.inclineArrival m)
  | .driveState => h.take fun m => h.stand (d := c.driveArrival m)
  | .truckTag => h.take fun m => h.tagArrival m
  | .weigherStatus => h.take fun m => h.stand (d := c.weigherStatus src m)
  | .truckStatus => h.take fun m => h.stand (d := c.truckStatus src m)
  | .passRecord => h.take fun m => h.stand (d := c.passRecord src m)
  | .truckClosed => h.take fun m => h.stand (d := c.truckClosed src m)
  | .counterRequest => h.stand (d := c.counterRequest src dst)
  | .counterReport => h.take fun m => h.stand (d := c.counterReport src m)
  | .diagRequest => h.take fun m => h.stand (d := c.diagRequest src m)
  | .configWrite => h.take fun m => h.stand (d := c.configWrite src m)
  | .configCommit => h.take fun m => h.stand (d := c.configCommit src m)
  | .diagReport => h
  | .configStatus => h

theorem takeWhole (h : c.Paired true sc sp) (t : WholeTelegram) : (c.takeWhole t).Paired true sc sp := by
  refine .ite (fun _ => h.stand) fun _ => ?_
  split
  · unfold Chip.consume
    split
    · exact h.consumeInRun _ _ _ _
    · exact .ite (fun _ => h.stand) fun _ => h
    · exact .ite (fun _ => h.stand) fun _ => h
    · exact h
  · exact h

theorem receive (h : c.Paired true sc sp) (kind src dst : Byte) (data : List Byte) :
    (c.receive kind src dst data).Paired true sc sp := by
  have hr := h.stand (d := c.mapLink Link.runEnded) rfl rfl rfl
  exact .ite (fun _ => settleLink (.ite (fun _ => hr) fun _ => hr.takeWhole _)) fun _ => h

theorem receiveUnknown (h : c.Paired true sc sp) (kind src dst : Byte) (data : List Byte) :
    (c.receiveUnknown kind src dst data).Paired true sc sp := .ite (fun _ => h) fun _ => h.receive _ _ _ _

theorem settleGapComplete (h : c.Paired true sc sp) : c.settleGapComplete.Paired true sc sp := by
  refine .ite (fun _ => h) fun _ => settleLink ?_
  split
  · unfold Chip.frameEnded
    split
    · exact h.stand rfl rfl rfl
    · exact (h.stand (d := c.mapLink Link.runEnded) rfl rfl rfl).takeWhole _
  all_goals exact h.stand rfl rfl rfl

theorem staleExpiry (h : c.Paired true sc sp) (i : ChanId) : (c.staleExpiry i).Paired true sc sp := by
  refine .ite (fun _ => settleLink (afterArrival (x := true) ?_)) fun _ => h
  split <;> exact h.stand

/-! ## Calibration -/

/-- Calibration is left: the CAL reason goes with it (R48, R101). -/
theorem leaveCal (h : c.Paired true true sp) : c.leaveCal.Paired true false sp ∧ c.leaveCal.cal.state = .out := by
  have ht := h.stand (d := (c.mapCal fun u => { u with state := .out, liftOpen := false }).takeListen)
  exact ⟨ht.removeCal.stand rfl rfl rfl, by simp [Chip.leaveCal]⟩

/-- A new engine under a suspended tracker has no window open either. -/
theorem restart (h : c.Paired true sc true) : (c.mapEng fun _ => Engine.start).Paired true sc true := by
  obtain ⟨hc, hx, hf, hca, hl, -⟩ := h.suspended (.inr rfl)
  exact Chip.paired_of_suspended hc hx hf hca hl rfl h.cal h.power (.inr rfl)

theorem enterCal (h : c.Paired true sc sp) : c.enterCal.Paired true true sp :=
  h.suspendCal.stand (by simp [Chip.enterCal]) (by simp [Chip.enterCal]) (by simp [Chip.enterCal])

end

end Chip.Paired

namespace Chip.passAndWindow

section
variable {c d : Chip}

theorem paired (h : c.passAndWindow) : c.Paired true c.calRuns c.asleep := ((Chip.passAndWindow_iff c).1 h).1

theorem writing (h : c.passAndWindow) (hp : c.sup.power ≠ .run) : c.cal.state = .out ∨ c.cal.state = .writing :=
  ((Chip.passAndWindow_iff c).1 h).2 hp

theorem intro {sc sp : Bool} (h : d.Paired true sc sp) (hc : sc = d.calRuns) (hp : sp = d.asleep)
    (hw : d.sup.power ≠ .run → d.cal.state = .out ∨ d.cal.state = .writing) : d.passAndWindow :=
  (Chip.passAndWindow_iff d).2 ⟨hc ▸ hp ▸ h, hw⟩

/-- Calibration and power state stand. -/
theorem carry (h : c.passAndWindow) (hd : d.Paired true c.calRuns c.asleep)
    (hc : d.cal.state = c.cal.state := by simp) (hp : d.sup.power = c.sup.power := by simp) : d.passAndWindow :=
  intro hd (by rw [Chip.calRuns, Chip.calRuns, hc]) (by rw [Chip.asleep, Chip.asleep, hp])
    fun hr => by rw [hc]; exact h.writing (hp ▸ hr)

/-- The course, the window, calibration and power state stand. -/
theorem stand (h : c.passAndWindow) (ht : d.trk.course = c.trk.course := by simp)
    (he : d.eng = c.eng := by simp) (hc : d.cal.state = c.cal.state := by simp)
    (hp : d.sup.power = c.sup.power := by simp) : d.passAndWindow :=
  h.carry (h.paired.stand ht (by rw [he]) (by rw [he])) hc hp

theorem ite {p : Prop} [Decidable p] {a b : Chip} (ha : p → a.passAndWindow) (hb : ¬p → b.passAndWindow) :
    (if p then a else b).passAndWindow := by
  split
  · exact ha ‹_›
  · exact hb ‹_›

theorem whenUp (h : c.passAndWindow) {f : Chip → Chip} (hf : (f c).passAndWindow) : (c.whenUp f).passAndWindow := by
  unfold Chip.whenUp
  split
  · exact hf
  all_goals exact h

theorem passTime (h : c.passAndWindow) : c.passTime.passAndWindow := by
  unfold Chip.passTime
  split
  · exact h
  all_goals exact h.stand rfl rfl rfl rfl

theorem settleLink (h : c.passAndWindow) : c.settleLink.passAndWindow := h.stand rfl rfl rfl rfl

theorem mapPanel (h : c.passAndWindow) (f : Panel → Panel) : (c.mapPanel f).passAndWindow := h.stand rfl rfl rfl rfl

theorem refresh (h : c.passAndWindow) (a : Alarm) : (c.refresh a).passAndWindow := h.stand

/-! ## Calibration and keys -/

theorem leaveCal (h : c.passAndWindow) (hc : c.cal.state ≠ .out) : c.leaveCal.passAndWindow := by
  have hp := h.paired
  rw [(Chip.calRuns_iff c).2 hc] at hp
  obtain ⟨hl, ho⟩ := hp.leaveCal
  exact intro hl (by simp [Chip.calRuns, ho]) (by simp [Chip.asleep]) fun _ => .inl ho

/-- ENTER moves a calibration on, and never out. -/
theorem calEnter_runs (hc : c.cal.state ≠ .out) : c.calEnter.cal.state ≠ .out := by
  unfold Chip.calEnter
  split
  · split
    · simp only [Chip.mapCal_cal, CalUnit.endSelection]
      split <;> simp
    · simpa using hc
  · split
    · simp only [Chip.mapCal_cal, CalUnit.advance, CalUnit.review]
      (repeat' split) <;> simp
    · exact hc
  · split
    · simp only [Chip.mapCal_cal, CalUnit.advance, CalUnit.review]
      (repeat' split) <;> simp
    · exact hc
  · unfold Chip.requestCurve
    (repeat' split)
    · exact hc
    · simp
    · simp
  all_goals exact hc

theorem calEnter (h : c.passAndWindow) (hc : c.cal.state ≠ .out) (hr : c.sup.power = .run) : c.calEnter.passAndWindow :=
  intro (h.paired.stand (d := c.calEnter)) (by rw [(Chip.calRuns_iff c).2 hc, (Chip.calRuns_iff _).2 (calEnter_runs hc)])
    (by simp [Chip.asleep]) fun hn => absurd (by simpa using hr) hn

theorem routePress (h : c.passAndWindow) (hr : c.sup.power = .run) (k : Key) : (c.routePress k).passAndWindow := by
  refine ite (fun _ => h.stand (d := c.routePage k)) fun hc => ?_
  cases k with
  | up => exact h.stand (d := c.calStep true)
  | down => exact h.stand (d := c.calStep false)
  | mode =>
    change c.calMode.passAndWindow
    unfold Chip.calMode
    split
    all_goals first | exact h.leaveCal hc | exact h
  | enter => exact h.calEnter hc hr

theorem registered (h : c.passAndWindow) (k : Key) : (c.registered k).passAndWindow := by
  have hm := h.stand (d := c.mapPanel fun p => { p with message := none }) rfl rfl rfl rfl
  unfold Chip.registered
  dsimp only
  split
  · next hr =>
    unfold Chip.pressInRun
    split
    · exact hm.stand
    · exact hm.routePress hr _
  · next hr =>
    refine ite (fun _ => intro (hm.paired.stand) ?_ ?_ fun _ => ?_) fun _ => hm
    · simp [Chip.calRuns]
    · rw [(Chip.asleep_iff _).2 (by rw [hr]; decide)]
      simp [Chip.asleep, Chip.enterPeek, Chip.setPower]
    · simpa using hm.writing (by rw [hr]; decide)
  · exact hm.stand
  · exact hm

theorem keyDown (h : c.passAndWindow) (k : Key) : (c.keyDown k).passAndWindow :=
  have hd := h.mapPanel fun p => { p with decoder := p.decoder.press (c.holdOf k) }
  ite (fun _ => hd.registered k) fun _ => hd

theorem keyDebounceExpiry (h : c.passAndWindow) (k : Key) : (c.keyDebounceExpiry k).passAndWindow := by
  have hd := h.mapPanel fun p => { p with keys := p.keys.set k ⟨c.pins.keys.get k, none⟩ }
  exact ite (fun _ => settleLink (ite (fun _ => hd.keyDown k) fun _ => hd.mapPanel _)) fun _ => h

theorem requestCal (h : c.passAndWindow) : c.requestCal.passAndWindow := by
  refine ite (fun hm => ?_) fun _ => h.stand rfl rfl rfl rfl
  have hr : c.sup.power = .run := by
    simp only [Chip.mayCalibrate, Bool.and_eq_true] at hm
    exact (Chip.inRun_iff c).1 hm.1.1.1.1.2
  exact intro h.paired.enterCal (by simp [Chip.calRuns, Chip.enterCal, CalUnit.enter]) (by simp [Chip.asleep])
    fun hn => absurd (by simpa using hr) hn

theorem longPress (h : c.passAndWindow) : c.longPress.passAndWindow := by
  unfold Chip.longPress
  split
  · next x _ =>
    have hd := h.stand (d := c.mapPanel fun p => { p with decoder := .held { x with long := false } }) rfl rfl rfl rfl
    refine ite (fun _ => settleLink ?_) fun _ => h
    unfold Chip.routeLong
    split
    · exact ite (fun _ => hd.requestCal) fun _ => hd
    · refine ite (fun _ => ?_) fun _ => hd
      split
      · exact hd.stand
      · exact hd.stand
      all_goals exact hd
    all_goals exact hd
  all_goals exact h

/-- A calibration in CAL-WRITING is done in RUN, and out elsewhere (R99, R102). -/
theorem curveWritten (h : c.passAndWindow) (i : Fin 4) (s : CurveSet) : (c.curveWritten i s).passAndWindow := by
  have hs := h.stand (d := c.mapStore fun p => { p with curves := p.curves.set i s }) rfl rfl rfl rfl
  refine refresh (ite (fun hw => ite (fun hr => ?_) fun _ => hs.leaveCal (by rw [hw]; decide)) fun _ => hs) _
  have hrun := (Chip.inRun_iff _).1 hr
  exact intro (hs.paired.mapCal _) (by rw [(Chip.calRuns_iff _).2 (by rw [hw]; decide)]; rfl) rfl fun hn => absurd hrun hn

theorem storeWriteComplete (h : c.passAndWindow) : c.storeWriteComplete.passAndWindow := by
  have hf := h.stand (d := c.mapStore ParamStore.finishWrite) rfl rfl rfl rfl
  unfold Chip.storeWriteComplete
  split
  · exact h
  · next wr _ _ =>
    refine ite (fun _ => ?_) fun _ => h
    dsimp only
    split
    · refine settleLink (stand (c := (c.mapStore ParamStore.finishWrite).handCompletion wr) ?_ rfl rfl rfl rfl)
      cases wr with
      | config _ => exact hf.stand (d := (c.mapStore ParamStore.finishWrite).answerCommits)
      | retain _ => exact hf
      | curve i s => exact hf.curveWritten i s
    all_goals exact hf

/-! ## Power states and starts -/

/-- Leaving RUN: the POWER reason comes, and a calibration but CAL-WRITING ends (R48, R102, R177). -/
theorem leaveRun (h : c.passAndWindow) {p : Power} (hp : p ≠ .run) : (c.setPower p).leaveRun.passAndWindow := by
  have h0 := h.paired.stand (d := ((c.setPower p).mapRole RoleArbiter.suspend).mapPanel fun q => q.keepPage.darken) rfl rfl rfl
  have h1 : (((((((c.setPower p).mapRole RoleArbiter.suspend).mapPanel fun q => q.keepPage.darken).suspendPower.mapAlarm
      AlarmUnit.suspend).mapInp InputTable.stop).mapLoad fun l => { l with refreshTimer := none, pollTimer := none }).mapSup
        fun s => { s with offAfterStart := false }).Paired true c.calRuns true := h0.suspendPower.stand rfl rfl rfl
  unfold Chip.leaveRun
  dsimp only
  generalize hd : ((((((c.setPower p).mapRole RoleArbiter.suspend).mapPanel fun q => q.keepPage.darken).suspendPower.mapAlarm
      AlarmUnit.suspend).mapInp InputTable.stop).mapLoad fun l => { l with refreshTimer := none, pollTimer := none }).mapSup
        (fun s => { s with offAfterStart := false }) = d at h1 ⊢
  have hcal : d.cal = c.cal := by simp [← hd, Chip.setPower]
  have hpow : d.sup.power = p := by simp [← hd, Chip.setPower]
  have hruns : c.calRuns = d.calRuns := by rw [Chip.calRuns, Chip.calRuns, hcal]
  unfold Chip.suspendCalibration
  split
  · next hs => exact intro h1 hruns (by simp [Chip.asleep, hpow, hp]) fun _ => .inl hs
  · next hs => exact intro h1 hruns (by simp [Chip.asleep, hpow, hp]) fun _ => .inr hs
  all_goals
    next hs =>
    rw [hruns, (Chip.calRuns_iff d).2 (by rw [hs]; decide)] at h1
    obtain ⟨hl, ho⟩ := h1.leaveCal
    exact intro hl (by simp [Chip.calRuns, ho]) (by simp [Chip.asleep, hpow, hp]) fun _ => .inl ho

theorem enterHold (h : c.passAndWindow) : c.enterHold.passAndWindow :=
  (h.leaveRun (p := .hold) (by decide)).stand rfl rfl rfl rfl

theorem enterDoze (h : c.passAndWindow) : c.enterDoze.passAndWindow :=
  (h.leaveRun (p := .doze) (by decide)).stand rfl rfl rfl rfl

/-- A change between the power states outside RUN. -/
theorem moved {p : Power} (h : c.passAndWindow) (hr : c.sup.power ≠ .run) (hp : p ≠ .run)
    (ht : d.trk = c.trk := by simp) (he : d.eng = c.eng := by simp) (hc : d.cal = c.cal := by simp)
    (hd : d.sup.power = p := by rfl) : d.passAndWindow :=
  intro (h.paired.stand (by rw [ht]) (by rw [he]) (by rw [he])) (by rw [Chip.calRuns, Chip.calRuns, hc])
    (by rw [(Chip.asleep_iff c).2 hr, (Chip.asleep_iff d).2 (hd ▸ hp)]) fun _ => by rw [hc]; exact h.writing hr

theorem peekToDoze (h : c.passAndWindow) (hr : c.sup.power ≠ .run) : c.peekToDoze.passAndWindow :=
  h.moved (p := .doze) hr (by decide)

theorem holdToDoze (h : c.passAndWindow) (hr : c.sup.power ≠ .run) : c.holdToDoze.passAndWindow :=
  h.moved (p := .doze) hr (by decide)

/-- The RESUME start: the POWER reason goes; a calibration in CAL-WRITING goes on (R180, Table 5-3). -/
theorem resumeStart (h : c.passAndWindow) (hr : c.sup.power ≠ .run) : c.resumeStart.passAndWindow := by
  have hp := h.paired
  rw [(Chip.asleep_iff c).2 hr] at hp
  have h1 := Chip.Paired.restart (c := (((c.mapSup fun s => { s with power := .run, startKind := .resume, peekTimer := none }).mapStore
    fun p => { p with wrongCodes := 0, lockout := false }).mapLink Link.resume).mapInp (InputTable.resume c.tick)) (hp.stand rfl rfl rfl)
  have h2 := (h1.stand (d := (((((((c.mapSup fun s => { s with power := .run, startKind := .resume, peekTimer := none }).mapStore
    fun p => { p with wrongCodes := 0, lockout := false }).mapLink Link.resume).mapInp (InputTable.resume c.tick)).mapEng fun _ =>
      Engine.start).mapLoad LoadRegister.resume).mapPanel (Panel.resume c.pins.keys c.tick)).mapCal CalUnit.resume)
        rfl rfl rfl).resumeTracker
  have hcal : c.resumeStart.cal = c.cal.resume := by simp [Chip.resumeStart]
  have hpow : c.resumeStart.sup.power = .run := by simp [Chip.resumeStart]
  refine intro (h2.stand (d := c.resumeStart) (by simp [Chip.resumeStart]) (by simp [Chip.resumeStart]) (by simp [Chip.resumeStart]))
    ?_ (by simp [Chip.asleep, hpow]) fun hn => absurd hpow hn
  rcases h.writing hr with hw | hw <;> simp [Chip.calRuns, hcal, CalUnit.resume, hw, CalUnit.clearPoints]

/-- A start that finds nothing under way (Tables 1-1, 2-2, 5-3). -/
theorem started (hc : c.trk.course = Tracker.start.course) (he : c.eng = Engine.start) (hcal : c.cal = CalUnit.start)
    (hp : c.sup.power = .run) : c.passAndWindow := by
  simp only [Tracker.course, Tracker.start, Prod.mk.injEq] at hc
  obtain ⟨h1, h2, h3, h4, h5, h6, h7, h8⟩ := hc
  simp [Chip.passAndWindow, h1, h2, h3, h4, h5, h6, h7, h8, he, hcal, hp, Engine.start, CalUnit.start]

theorem lineStart (c : Chip) (s : Straps) : (c.lineStart s).passAndWindow := by
  refine started ?_ ?_ ?_ ?_
  · simp only [Chip.lineStart, Chip.finishStart_frame, Chip.settleRole_course]
    rfl
  all_goals simp [Chip.lineStart]

theorem holdReset (h : c.passAndWindow) : c.holdReset.passAndWindow := h.stand rfl rfl rfl rfl

theorem coldStart (h : c.passAndWindow) (volts : Nat) (s : Straps) : (c.coldStart volts s).passAndWindow := by
  have hs : (Chip.coldValues volts s c.pins c.store.array).settleRole.finishStart.passAndWindow := by
    refine started ?_ ?_ ?_ ?_
    · simp only [Chip.finishStart_frame, Chip.settleRole_course]
      rfl
    all_goals simp [Chip.coldValues, Supply.cold]
  unfold Chip.coldStart
  split
  · exact ite (fun _ => ite (fun _ => hs.holdReset) fun _ => hs) fun _ => h
  all_goals exact h

theorem regulatorFail (h : c.passAndWindow) (volts : Nat) : (c.regulatorFail volts).passAndWindow :=
  ite (fun _ => started rfl rfl rfl rfl) fun _ => h

/-! ## Supply, reset line and ignition -/

theorem supplyFallsLow (h : c.passAndWindow) (volts : Nat) : (c.supplyFallsLow volts).passAndWindow := by
  refine ite (fun _ => ?_) fun _ => h
  have hs := h.stand (d := { c with pins := { c.pins with vsense := volts } }.mapSup fun s => { s with status := .low })
    rfl rfl rfl rfl
  dsimp only
  split
  · unfold Chip.wentLow
    split
    · exact hs.enterHold
    · next hp => exact hs.peekToDoze (by rw [hp]; decide)
    all_goals exact hs
  all_goals exact hs

theorem supplyRisesOk (h : c.passAndWindow) (volts : Nat) (s : Straps) : (c.supplyRisesOk volts s).passAndWindow := by
  refine ite (fun _ => ?_) fun _ => h
  have hs := h.stand (d := { c with pins := { c.pins.setStraps s with vsense := volts } }.mapSup fun p =>
    { p with status := .ok }) rfl rfl rfl rfl
  dsimp only
  split
  · unfold Chip.wentOk
    split
    · next hp => exact ite (fun _ => hs.resumeStart (by rw [hp]; decide)) fun _ => hs.holdToDoze (by rw [hp]; decide)
    · exact hs.refresh _
    all_goals exact hs
  · exact lineStart _ s
  all_goals exact hs

theorem ignLineChange (h : c.passAndWindow) (high : Bool) : (c.ignLineChange high).passAndWindow := by
  refine ite (fun _ => h) fun _ => ?_
  dsimp only
  split
  all_goals exact h.stand rfl rfl rfl rfl

theorem ignitionChange (h : c.passAndWindow) : c.ignitionChange.passAndWindow := by
  refine ite (fun _ => ?_) fun _ => h
  have hs := h.stand (d := c.mapSup fun s => { s with
    ignition := c.pins.ign, ignTimer := none, offAfterStart := s.offAfterStart && !c.pins.ign }) rfl rfl rfl rfl
  dsimp only
  split
  · unfold Chip.ignitionChanged
    split
    · exact hs.enterDoze
    · next hp _ => exact hs.resumeStart (by rw [hp]; decide)
    · next hp _ => exact hs.resumeStart (by rw [hp]; decide)
    all_goals exact hs
  all_goals exact hs

theorem resetAssert (h : c.passAndWindow) : c.resetAssert.passAndWindow := by
  unfold Chip.resetAssert
  dsimp only
  split
  all_goals exact h.stand rfl rfl rfl rfl

theorem resetRelease (h : c.passAndWindow) (s : Straps) : (c.resetRelease s).passAndWindow := by
  unfold Chip.resetRelease
  dsimp only
  split
  · exact lineStart _ s
  all_goals exact h.stand rfl rfl rfl rfl

theorem keyLineChange (h : c.passAndWindow) (k : Key) (low : Bool) : (c.keyLineChange k low).passAndWindow :=
  ite (fun _ => h) fun _ => ite (fun _ => h.stand rfl rfl rfl rfl) fun _ => h.stand rfl rfl rfl rfl

/-! ## The end of the start window -/

theorem roleChanged (h : c.passAndWindow) : c.roleChanged.passAndWindow := by
  refine ite (fun _ => ?_) fun _ => h.stand rfl rfl rfl rfl
  have hr : (if c.isWeigher then c else c.restartTracker).passAndWindow :=
    ite (fun _ => h) fun _ => h.carry h.paired.restartTracker
  exact ite (fun _ => hr) fun _ => ite (fun _ => hr.stand) fun _ => hr.stand (by simp) (by simp) (by simp) (by simp)

theorem roleUnless (h : c.passAndWindow) (p : Prop) [Decidable p] : (if p then c else c.roleChanged).passAndWindow :=
  ite (fun _ => h) fun _ => h.roleChanged

theorem mapInp (h : c.passAndWindow) (f : InputTable → InputTable) : (c.mapInp f).passAndWindow := h.stand rfl rfl rfl rfl

theorem mapStore (h : c.passAndWindow) (f : ParamStore → ParamStore) : (c.mapStore f).passAndWindow := h.stand rfl rfl rfl rfl

theorem refusedUnless (h : c.passAndWindow) (p : Prop) [Decidable p] : (if p then c else c.setRefused none).passAndWindow :=
  ite (fun _ => h) fun _ => h.stand rfl rfl rfl rfl

theorem reconfigureAlarms (h : c.passAndWindow) : c.reconfigureAlarms.passAndWindow := h.stand

theorem reevaluate (h : c.passAndWindow) : c.reevaluate.passAndWindow := h.stand

theorem syncLoss (h : c.passAndWindow) : c.syncLoss.passAndWindow := h.carry h.paired.syncLoss

theorem shadowInRun (h : c.passAndWindow) : (if c.inRun then c.writeShadow else c).passAndWindow :=
  ite (fun _ => h.stand) fun _ => h

theorem refreshAlarms (h : c.passAndWindow) : c.refreshAlarms.passAndWindow := h.stand

theorem wakeChanged (h : c.passAndWindow) (old : Cfg) : (c.wakeChanged old).passAndWindow := h.stand

theorem takeConfig (h : c.passAndWindow) : c.takeConfig.passAndWindow :=
  (((((h.mapStore _).mapInp _).refusedUnless _).reconfigureAlarms.roleUnless
    _).reevaluate.syncLoss.shadowInRun.refreshAlarms.wakeChanged _).settleLink

theorem startWindowEnd (h : c.passAndWindow) : c.startWindowEnd.passAndWindow := ite (fun _ => h.takeConfig) fun _ => h

/-- Every command keeps pass and window together. -/
theorem command (h : c.passAndWindow) (i : Instr) : (effect i c).passAndWindow :=
  match i with
  | .liftPressure .. | .boomAngle .. | .bucketTilt .. | .chassisIncline .. | .driveState .. | .truckTag ..
  | .weigherStatus .. | .truckStatus .. | .passRecord .. | .truckClosed .. | .counterRequest .. | .counterReport ..
  | .diagRequest .. | .diagReport .. | .configWrite .. | .configCommit .. | .configStatus .. =>
    h.whenUp (h.carry (h.paired.receive _ _ _ _))
  | .unknownKindTelegram .. => h.whenUp (h.carry (h.paired.receiveUnknown _ _ _ _))
  | .settleGapComplete => h.whenUp (h.carry h.paired.settleGapComplete)
  | .staleExpiry i => h.whenUp (h.carry (h.paired.staleExpiry i))
  | .fillEmptyTimerExpiry => h.whenUp (h.carry h.paired.fillEmptyExpiry)
  | .carryTimerExpiry => h.whenUp (h.carry h.paired.carryExpiry)
  | .inputLossTimerExpiry side => h.whenUp (h.carry (h.paired.inputLossExpiry side))
  | .receiveFailure _ | .dominantDuringDelay | .accessDelayEnd | .telegramSent | .readbackMismatch _
  | .quietTimerExpiry | .lossTimerExpiry _ | .rateTimerExpiry | .truckStatusRefresh | .counterPollTimer | .repeatStep
  | .frameTimer | .blinkTimer | .historyViewTimer | .messageTimer | .buzzerPhaseEnd | .maskTimerExpiry _
  | .statusTimerExpiry | .peerRecordRemoval _ | .watchTimerExpiry | .listenTimerExpiry | .pairingTimerExpiry
  | .bklPeriodStart => h.whenUp h.stand
  | .keyLineChange k low => h.keyLineChange k low
  | .keyDebounceExpiry k => h.whenUp (h.keyDebounceExpiry k)
  | .longPress => h.whenUp h.longPress
  | .storeWriteComplete => h.storeWriteComplete
  | .startWindowEnd => h.whenUp h.startWindowEnd
  | .supplyFallsLow volts => h.supplyFallsLow volts
  | .supplyRisesOk volts straps => h.supplyRisesOk volts straps
  | .ignLineChange high => h.ignLineChange high
  | .ignitionChange => h.ignitionChange
  | .peekTimerExpiry => h.whenUp (ite (fun hp => h.peekToDoze (by rw [hp.1]; decide)) fun _ => h)
  | .regulatorFail volts => h.regulatorFail volts
  | .coldStart volts straps => h.coldStart volts straps
  | .resetAssert => h.resetAssert
  | .resetRelease straps => h.resetRelease straps
  | .ignitionOffAfterStart => h.whenUp (ite (fun _ => h.enterDoze) fun _ => h)

end

end Chip.passAndWindow

/-- Settles O8: the states of a cycle open and end pass and window together, and a reason of suspension comes and goes with
its cause. -/
theorem passAndWindowStayTogether : Obligations.PassAndWindowStayTogether :=
  kept_of_effect (fun _ h => h.passTime) fun i _ h => h.command i

end Sys2Proof.Machine

/-! SUPPORT and PROOFS. What a timer that has run out does: the pairs and peers of the arbiter, the panel, the buzzer. -/

namespace Sys2Proof.Machine

set_option Elab.async false

/-! ## Commands of a part that runs, and the blocks they leave -/

/-- A command taken while the part runs gives what its meaning there gives. -/
theorem gives_whenUp (i : Instr) (s : State) (f : Chip → Chip) (P : Chip → Prop) (hi : effect i = Chip.whenUp f)
    (hup : s.chip.sup.life = .up) (h : P (f s.chip)) : Gives i s P := by
  refine gives_effect i s P ?_
  rw [hi, Chip.whenUp_up f s.chip hup]
  exact h

theorem Chip.sameAt.trans {c d e : Chip} {b : Block} (h : c.sameAt d b) (h' : d.sameAt e b) : c.sameAt e b := by
  cases b <;> exact Eq.trans h' h

theorem Chip.onlyChanges_refl (c : Chip) (bs : List Block) : c.onlyChanges c bs := by
  intro b _
  cases b <;> rfl

theorem Chip.onlyChanges.trans {c d e : Chip} {bs : List Block} (h : c.onlyChanges d bs) (h' : d.onlyChanges e bs) :
    c.onlyChanges e bs := fun b hb => (h b hb).trans (h' b hb)

/-- More blocks may change than those that do. -/
theorem Chip.onlyChanges.mono {c d : Chip} {bs bs' : List Block} (h : c.onlyChanges d bs) (hs : bs ⊆ bs') :
    c.onlyChanges d bs' := fun b hb => h b fun hb' => hb (hs hb')

theorem Chip.onlyChanges_mapLink (f : Link → Link) (c : Chip) : c.onlyChanges (c.mapLink f) [.link] := by
  intro b hb
  cases b with
  | link => exact absurd (List.mem_singleton.mpr rfl) hb
  | _ => rfl

theorem Chip.onlyChanges_settleLink (c : Chip) : c.onlyChanges c.settleLink [.link] := c.onlyChanges_mapLink _

/-- A change and the access state that follows it. -/
theorem Chip.onlyChanges.settleLink {c d : Chip} {bs : List Block} (h : c.onlyChanges d bs) (hl : .link ∈ bs) :
    c.onlyChanges d.settleLink bs :=
  h.trans (d.onlyChanges_settleLink.mono fun _ hb => List.mem_singleton.mp hb ▸ hl)

/-! ## Pairs and peers (R106, R118) -/

/-- Settles O36: the oldest pair is due, and the peers due are those the filter drops. -/
theorem pairsAndPeersExpire : Obligations.PairsAndPeersExpire := by
  unfold Obligations.PairsAndPeersExpire
  intro s hup
  refine ⟨fun e rest hp hage => ?_, fun station hrun => ?_⟩
  · refine gives_whenUp _ s Chip.pairingTimerExpiry _ rfl hup ?_
    simp only [Chip.pairingTimerExpiry, hp, if_pos hage]
    rfl
  · refine gives_whenUp _ s (Chip.peerRecordRemoval station) _ rfl hup ?_
    have hin : s.chip.inRun = true := by simp [Chip.inRun, hrun]
    have hkeep : (fun p : Peer => !(p.station == station && decide (2000 ≤ age s.chip.tick p.at_)))
        = fun p => decide (p.station ≠ station ∨ age s.chip.tick p.at_ < 2000) := by
      funext p
      by_cases hs : p.station = station <;> by_cases ha : 2000 ≤ age s.chip.tick p.at_ <;>
        simp [hs, ha, Nat.lt_of_not_le]
    simp only [Chip.peerRecordRemoval, hin, if_true, hkeep]
    rfl

/-! ## The panel's timers (R139, R142-R144) -/

/-- In HOLD and DOZE the image is blank (R143). -/
theorem Chip.composeFrame_dark (c : Chip) (h : c.sup.power = .hold ∨ c.sup.power = .doze) :
    c.composeFrame = List.replicate 16 0 := by
  rcases h with h | h <;> simp only [Chip.composeFrame, h] <;> rfl

/-- The image is dark or shown by the power state. -/
theorem Power.shown_of_not_dark (p : Power) (h : ¬(p = .hold ∨ p = .doze)) : p = .run ∨ p = .peek := by
  cases p <;> simp_all

theorem Chip.bklPeriodStart_due (c : Chip) (h : due 5 c.panel.bklTimer c.tick = true) :
    c.bklPeriodStart = { c with panel := { c.panel with
      bklLevel := if c.sup.power = .hold ∨ c.sup.power = .doze then 0 else c.panel.shadow
      bklTimer := some c.tick } } := by
  simp only [Chip.bklPeriodStart, h, if_true]
  cases c.sup.power <;> rfl

/-- Settles O51: each timer is due; the frame is the image of the part, dark or shown. -/
theorem panelTimersRun : Obligations.PanelTimersRun := by
  unfold Obligations.PanelTimersRun
  intro s hup
  refine ⟨fun h => ?_, fun h => ?_, fun h => ?_, fun h => ?_, fun h => ?_⟩
  · refine gives_whenUp _ s Chip.frameTimer _ rfl hup ?_
    rw [Chip.frameTimer, if_pos (due_of_ranOut _ _ _ h)]
    exact ⟨rfl, s.chip.composeFrame_length, s.chip.composeFrame_dark,
      fun hd => s.chip.composeFrame_shows (Power.shown_of_not_dark _ hd)⟩
  · refine gives_whenUp _ s Chip.blinkTimer _ rfl hup ?_
    rw [Chip.blinkTimer, if_pos (due_of_ranOut _ _ _ h)]
    rfl
  · refine gives_whenUp _ s Chip.historyViewTimer _ rfl hup ?_
    rw [Chip.historyViewTimer, if_pos (due_of_ranOut _ _ _ h)]
    rfl
  · refine gives_whenUp _ s Chip.messageTimer _ rfl hup ?_
    rw [Chip.messageTimer, if_pos (due_of_ranOut _ _ _ h)]
    rfl
  · exact gives_whenUp _ s Chip.bklPeriodStart _ rfl hup (s.chip.bklPeriodStart_due (due_of_ranOut _ _ _ h))

/-! ## The buzzer (R145, R146) -/

section Phase

variable {b : Buzzer} {p : Pattern} {y : Play} {len : Nat} {on : Bool} {vol : Nat} {now : Tick}

/-- A phase that is not the last is followed by the next. -/
theorem Buzzer.phaseEnd_next (hs : b.sounding = some p) (hp : b.play = some y)
    (hl : p.phases[y.phase]? = some (len, on)) (ha : len ≤ age now y.since) (hn : y.phase + 1 < p.phases.length) :
    b.phaseEnd vol now = { b with play := some { y with phase := y.phase + 1, since := now } } := by
  simp only [Buzzer.phaseEnd, hs, hp, hl, if_pos ha, if_pos hn]

/-- The last phase of a pattern that does not go round ends it. -/
theorem Buzzer.phaseEnd_last (hs : b.sounding = some p) (hp : b.play = some y)
    (hl : p.phases[y.phase]? = some (len, on)) (ha : len ≤ age now y.since) (hn : ¬y.phase + 1 < p.phases.length)
    (ht : p ≠ .trill) : b.phaseEnd vol now = b.patternEnd vol now := by
  simp only [Buzzer.phaseEnd, hs, hp, hl, if_pos ha, if_neg hn, if_neg ht]

/-- A TRILL goes round. -/
theorem Buzzer.phaseEnd_round (hs : b.sounding = some .trill) (hp : b.play = some y)
    (hl : Pattern.trill.phases[y.phase]? = some (len, on)) (ha : len ≤ age now y.since)
    (hn : ¬y.phase + 1 < Pattern.trill.phases.length) :
    b.phaseEnd vol now = { b with play := some { y with phase := 0, since := now } } := by
  simp only [Buzzer.phaseEnd, hs, hp, hl, if_pos ha, if_neg hn, if_true]

end Phase

/-- The buzzer with an empty slot and a queue, its head started (R146). -/
def Buzzer.fromQueue (q : List Pattern) (vol : Nat) (now : Tick) : Buzzer :=
  ⟨none, q, if q = [] then none else some ⟨0, now, vol⟩⟩

theorem Buzzer.begin_empty_slot (b : Buzzer) (vol : Nat) (now : Tick) (h : b.slot = none) :
    Buzzer.begin vol now b = Buzzer.fromQueue b.queue vol now := by
  obtain ⟨slot, queue, play⟩ := b
  subst h
  cases queue <;> rfl

theorem Buzzer.patternEnd_slot (b : Buzzer) (vol : Nat) (now : Tick) (p : Pattern) (h : b.slot = some p) :
    b.patternEnd vol now = Buzzer.fromQueue b.queue vol now := by
  simp [Buzzer.patternEnd, h, Buzzer.alarmEnd, Buzzer.begin_empty_slot]

theorem Buzzer.patternEnd_queue (b : Buzzer) (vol : Nat) (now : Tick) (h : b.slot = none) :
    b.patternEnd vol now = Buzzer.fromQueue (b.queue.drop 1) vol now := by
  simp [Buzzer.patternEnd, h, Buzzer.begin_empty_slot]

/-- What the phase end makes of the buzzer is what BUZZER_PHASE_END gives. -/
theorem gives_buzzerPhaseEnd (s : State) (b : Buzzer) (hup : s.chip.sup.life = .up)
    (h : s.chip.panel.buz.phaseEnd s.chip.panel.settings.volume s.chip.tick = b) :
    Gives .buzzerPhaseEnd s fun d => d = { s.chip with panel := { s.chip.panel with buz := b } } := by
  refine gives_whenUp _ s Chip.buzzerPhaseEnd _ rfl hup ?_
  subst h
  rfl

/-- Settles O52: by the pattern that sounds and its phase. -/
theorem buzzerPhasesFollow : Obligations.BuzzerPhasesFollow := by
  unfold Obligations.BuzzerPhasesFollow
  intro s y hup hplay
  have slot {p : Pattern} (h : s.chip.panel.buz.slot = some p) : s.chip.panel.buz.sounding = some p := by
    simp [Buzzer.sounding, h]
  have head {p : Pattern} {q : List Pattern} (h : s.chip.panel.buz.slot = none) (hq : s.chip.panel.buz.queue = p :: q) :
      s.chip.panel.buz.sounding = some p := by
    simp [Buzzer.sounding, h, hq]
  refine ⟨fun hs ha => ⟨fun hy => ?_, fun hy => ?_⟩, fun hs ha => ⟨fun hy => ?_, fun hy => ?_, fun hy => ?_⟩,
    fun hs ha hy => ?_, fun q hs hq ha => ⟨fun hy => ?_, fun hy => ?_, fun hy => ?_⟩, fun q hs hq ha hy => ?_⟩ <;>
    refine gives_buzzerPhaseEnd s _ hup ?_
  · rw [Buzzer.phaseEnd_next (slot hs) hplay (by rw [hy]; rfl) ha (by rw [hy]; decide), hy]
  · rw [Buzzer.phaseEnd_round (slot hs) hplay (by rw [hy]; rfl) ha (by rw [hy]; decide)]
  · rw [Buzzer.phaseEnd_next (slot hs) hplay (by rw [hy]; rfl) ha (by rw [hy]; decide), hy]
  · rw [Buzzer.phaseEnd_next (slot hs) hplay (by rw [hy]; rfl) ha (by rw [hy]; decide), hy]
  · rw [Buzzer.phaseEnd_last (slot hs) hplay (by rw [hy]; rfl) ha (by rw [hy]; decide) (by decide),
      Buzzer.patternEnd_slot _ _ _ _ hs]
    rfl
  · rw [Buzzer.phaseEnd_last (slot hs) hplay (by rw [hy]; rfl) ha (by rw [hy]; decide) (by decide),
      Buzzer.patternEnd_slot _ _ _ _ hs]
    rfl
  · rw [Buzzer.phaseEnd_next (head hs hq) hplay (by rw [hy]; rfl) ha (by rw [hy]; decide), hy]
  · rw [Buzzer.phaseEnd_next (head hs hq) hplay (by rw [hy]; rfl) ha (by rw [hy]; decide), hy]
  · rw [Buzzer.phaseEnd_last (head hs hq) hplay (by rw [hy]; rfl) ha (by rw [hy]; decide) (by decide),
      Buzzer.patternEnd_queue _ _ _ hs, hq]
    rfl
  · rw [Buzzer.phaseEnd_last (head hs hq) hplay (by rw [hy]; rfl) ha (by rw [hy]; decide) (by decide),
      Buzzer.patternEnd_queue _ _ _ hs, hq]
    rfl

end Sys2Proof.Machine

/-! SUPPORT and PROOFS. The path of a family telegram to its consumer; the slots and the poll, the counters asked for and
reported, a record closed elsewhere. -/

namespace Sys2Proof.Machine

set_option Elab.async false

/-! ## The path of a telegram that is heard -/

/-- What is asked of a telegram that the part hears, of a known kind that the filter passes, is asked of its consumer. -/
theorem gives_heard (i : Instr) (s : State) (code src dst : Byte) (data : List Byte) (k : Kind) (P : Chip → Prop)
    (hi : effect i = Chip.whenUp (Chip.receive code src dst data)) (h : s.chip.Hears src dst data)
    (hk : Kind.ofCode code = some k) (hs : s.chip.cfg.hears k src.toNat = true) (hd : k.isService = true → dst ≠ 0)
    (hP : P ((s.chip.mapLink Link.runEnded).consumeInRun k src dst data).settleLink) : Gives i s P := by
  refine gives_effect i s P ?_
  rw [hi, Chip.receive_consumes code src dst data s.chip k h hk hs hd]
  exact hP

/-- The same for a family telegram, which every source may send. -/
theorem gives_family (i : Instr) (s : State) (code src dst : Byte) (data : List Byte) (k : Kind) (P : Chip → Prop)
    (hi : effect i = Chip.whenUp (Chip.receive code src dst data)) (h : s.chip.Hears src dst data)
    (hk : Kind.ofCode code = some k) (hc : k.channels = []) (hv : k.isService = false)
    (hP : P ((s.chip.mapLink Link.runEnded).consumeInRun k src dst data).settleLink) : Gives i s P :=
  gives_heard i s code src dst data k P hi h hk (Cfg.hears_family _ _ _ hc) (fun hv' => by simp [hv] at hv') hP

theorem Chip.Hears.inRun {c : Chip} {src dst : Byte} {data : List Byte} (h : c.Hears src dst data) :
    c.inRun = true := by
  obtain ⟨-, hrun, -⟩ := h
  simp [Chip.inRun, hrun]

/-- A field as long as its layout is read. -/
theorem takeData_long {α : Type} {len : Nat} {d : List Byte} (read : List Byte → Option α) (h : len ≤ d.length) :
    takeData len d read = match read d with
      | none => .dropped
      | some a => .taken a := by
  rw [takeData]
  exact if_neg (Nat.not_lt.mpr h)

/-- A part that the consumer leaves with the link as the run left it has only heard. -/
theorem Chip.onlyHeard_settleLink {c x : Chip} (h : x.link = c.link.runEnded) : c.onlyHeard x.settleLink := by
  simp [Chip.onlyHeard, h]

/-- A telegram that no consumer takes moves nothing but the link. -/
theorem Chip.onlyHeard_untaken (c : Chip) : c.onlyHeard (c.mapLink Link.runEnded).settleLink
    ∧ c.onlyChanges (c.mapLink Link.runEnded).settleLink [.link] :=
  ⟨Chip.onlyHeard_settleLink rfl, (c.onlyChanges_mapLink _).settleLink (by simp)⟩

/-- What the consumer leaves, with the link that every reception moves. -/
theorem Chip.onlyChanges_heard {c x : Chip} {bs bs' : List Block} (h : (c.mapLink Link.runEnded).onlyChanges x bs)
    (hs : .link :: bs ⊆ bs') : c.onlyChanges x.settleLink bs' :=
  Chip.onlyChanges.settleLink
    (((c.onlyChanges_mapLink _).mono fun _ hb => hs (by simp_all)).trans (h.mono fun _ hb => hs (by simp [hb])))
    (hs (by simp))

/-! ## Permission -/

theorem Chip.maySend_of_sends {c : Chip} (h : c.sup.power = .run) (hs : c.role.state.sends = true) :
    c.maySend = true := by
  revert hs
  cases hr : c.role.state <;> simp [Chip.maySend, h, hr, RoleState.sends]

theorem Chip.takesOffer_of_not_mute {c : Chip} (k : Kind) (h : c.sup.power = .run) (hm : c.role.state ≠ .mute) :
    c.takesOffer k = true := by
  simp [Chip.takesOffer, h, hm]

/-! ## The slots and the poll (R70, R86, R105) -/

theorem Chip.isActive_of {c : Chip} (h : c.sup.power = .run) (ha : c.role.state = .active) : c.isActive = true := by
  simp [Chip.isActive, Chip.inRun, h, ha]

/-- The offer to a full queue: the oldest entry not in SEND leaves, and is counted (R156). -/
theorem Link.enqueue_full (t : OutTg) (l : Link) (h : 8 ≤ l.queue.length) :
    (l.enqueue t).queue =
        (if l.headInHand = true ∧ l.access = .send then l.queue.take 1 ++ l.queue.drop 2 else l.queue.drop 1) ++ [t]
      ∧ (l.enqueue t).qDrop = min 65535 (l.qDrop + 1) := by
  simp only [Link.enqueue, if_pos h, Link.dropOldest, bump, satAdd]
  by_cases hh : l.headInHand = true <;> by_cases ha : l.access = .send <;> simp [hh, ha]

/-- A part that is not MUTE asks the station it has named (R86). -/
theorem Chip.poll_link (c : Chip) (h : c.sup.power = .run) (hm : c.role.state ≠ .mute) :
    c.poll.link = match c.role.named with
      | some n => c.link.enqueue ⟨.counterRequest, BitVec.ofNat 8 n, []⟩
      | none => c.link := by
  unfold Chip.poll
  cases c.role.named with
  | none => rfl
  | some n =>
    simp only [Chip.offer, sendCounterRequest, Chip.takesOffer_of_not_mute _ h hm, if_true]
    rfl

theorem Chip.poll_load (c : Chip) : c.poll.load = { c.load with pollTimer := some c.tick } := by
  unfold Chip.poll
  cases c.role.named <;> simp

theorem Chip.poll_onlyChanges (c : Chip) : c.onlyChanges c.poll [.link, .load] := by
  intro b hb
  cases b <;> simp_all [Chip.sameAt]

/-- Settles O26: each timer is due, and the part may send. -/
theorem slotAndPollTimersWrite : Obligations.SlotAndPollTimersWrite := by
  unfold Obligations.SlotAndPollTimersWrite
  rintro s ⟨hup, hrun⟩
  have hin : s.chip.inRun = true := by simp [Chip.inRun, hrun]
  refine ⟨fun ha h => ?_, fun hst h => ?_, fun hm h => ?_⟩
  · refine gives_whenUp _ s Chip.truckStatusRefresh _ rfl hup ?_
    have hsend : s.chip.maySend = true := Chip.maySend_of_sends hrun (by simp [ha, RoleState.sends])
    have hact : (s.chip.mapLoad fun l => { l with refreshTimer := some s.chip.tick }).isActive = true :=
      Chip.isActive_of hrun ha
    rw [Chip.truckStatusRefresh, if_pos (due_of_ranOut _ _ _ h), Chip.writeTruckSlot, if_pos hact]
    refine ⟨rfl, ?_, fun b hb => ?_⟩
    · rw [← hsend]
      rfl
    · cases b <;> simp_all [Chip.sameAt, Chip.settleLink]
  · refine gives_whenUp _ s Chip.statusTimerExpiry _ rfl hup ?_
    have hs : s.chip.role.state.sends = true := by rcases hst with h | h | h | h <;> simp [h, RoleState.sends]
    rw [Chip.statusTimerExpiry, if_pos (due_of_ranOut _ _ _ h), Chip.writeStatus_sends s.chip hin hs]
    refine ⟨rfl, ?_, fun b hb => ?_⟩
    · rw [← Chip.maySend_of_sends hrun hs]
      rfl
    · cases b <;> simp_all [Chip.sameAt, Chip.settleLink]
  · refine gives_whenUp _ s Chip.counterPollTimer _ rfl hup ?_
    rw [Chip.counterPollTimer, if_pos (due_of_ranOut _ _ _ h)]
    have hl := s.chip.poll_link hrun hm
    refine ⟨s.chip.poll_load, fun n hn hq => ?_, fun n hn hq => ?_, fun hn => ?_,
      s.chip.poll_onlyChanges.settleLink (by simp)⟩
    · simp [hl, hn, Link.enqueue_queue _ _ hq]
    · simpa [hl, hn] using Link.enqueue_full ⟨.counterRequest, BitVec.ofNat 8 n, []⟩ s.chip.link hq
    · simp [hl, hn]

/-! ## A COUNTER REPORT (R85) -/

/-- The figures of a COUNTER REPORT by the part it names (R85, R182). -/
def reportOf (data : List Byte) : Option ReportMsg :=
  let lost := (byteAt data 1).getLsbD 2
  match nat8 data 0 with
  | 1 => some (.counts ⟨nat16 data 2, nat16 data 4, nat16 data 6, nat16 data 8, lost⟩)
  | 2 => some (.tonnage ⟨nat32 data 2, nat32 data 6, lost⟩)
  | 3 => some (.life ⟨nat32 data 2, lost⟩)
  | _ => none

/-- A byte is a number where its value is. -/
theorem byteAt_eq_iff (data : List Byte) (i n : Nat) (hn : n < 256) :
    byteAt data i = BitVec.ofNat 8 n ↔ nat8 data i = n := by
  unfold nat8
  constructor
  · intro h
    rw [h, BitVec.toNat_ofNat]
    exact Nat.mod_eq_of_lt hn
  · intro h
    rw [← h, BitVec.ofNat_toNat, BitVec.setWidth_eq]

theorem readReport_long (data : List Byte) (src dst : Byte)
    (h : layoutOf (.counterReport src dst data) ≤ data.length) :
    readReport data = match reportOf data with
      | none => .dropped
      | some f => .taken ⟨(byteAt data 1).getLsbD 0, (byteAt data 1).getLsbD 1, f⟩ := by
  have hlen : reportLength (nat8 data 0) = layoutOf (.counterReport src dst data) := by
    have h1 := byteAt_eq_iff data 0 1 (by omega)
    have h2 := byteAt_eq_iff data 0 2 (by omega)
    simp only [reportLength, layoutOf, ← h1, ← h2]
    rfl
  rw [readReport, takeData_long _ (hlen ▸ h)]
  unfold reportOf
  split <;> rename_i heq <;> split at heq <;> simp_all

/-- A REPEATER takes the figures of the station it has named, own and not empty (R85). -/
theorem Chip.counterReport_load (src : Byte) (m : CounterMsg) (c : Chip) :
    (c.counterReport src m).load =
      if c.cfg.role = .repeater ∧ c.role.named = some src.toNat ∧ m.mirrored = false ∧ m.empty = false then
        c.load.holdReport m.figures
      else c.load := by
  unfold Chip.counterReport Chip.isWeigher Chip.cfg
  cases c.store.cfg.role <;> by_cases hn : c.role.named = some src.toNat <;> cases m.mirrored <;> cases m.empty <;>
    simp [hn]

theorem Chip.counterReport_onlyChanges (src : Byte) (m : CounterMsg) (c : Chip) :
    c.onlyChanges (c.counterReport src m) [.load] ∧ (c.counterReport src m).link = c.link := by
  unfold Chip.counterReport
  split
  · refine ⟨fun b hb => ?_, rfl⟩
    cases b <;> simp_all [Chip.sameAt]
  · exact ⟨c.onlyChanges_refl _, rfl⟩

/-- What a COUNTER REPORT long enough leaves of the load register: the figures it names are held where they are taken. -/
theorem Chip.take_report (c : Chip) (src dst : Byte) (data : List Byte)
    (h : layoutOf (.counterReport src dst data) ≤ data.length) :
    let d := c.take (readReport data) (Chip.counterReport src)
    d.load = (match reportOf data with
        | none => c.load
        | some f =>
          if c.cfg.role = .repeater ∧ c.role.named = some src.toNat ∧ (byteAt data 1).getLsbD 0 = false
              ∧ (byteAt data 1).getLsbD 1 = false then c.load.holdReport f
          else c.load)
      ∧ c.onlyChanges d [.load] ∧ d.link = c.link := by
  rw [readReport_long data src dst h]
  cases hf : reportOf data with
  | none => exact ⟨rfl, c.onlyChanges_refl _, rfl⟩
  | some f => exact ⟨Chip.counterReport_load .., Chip.counterReport_onlyChanges ..⟩

/-- Settles O28: by the part that the report names. -/
theorem counterReportIsMirrored : Obligations.CounterReportIsMirrored := by
  unfold Obligations.CounterReportIsMirrored
  intro s src dst data hears hlen
  refine gives_family _ s 0x25 src dst data .counterReport _ rfl hears rfl rfl rfl ?_
  obtain ⟨hload, hrest, hlink⟩ := (s.chip.mapLink Link.runEnded).take_report src dst data hlen
  have h1 := byteAt_eq_iff data 0 1 (by omega)
  have h2 := byteAt_eq_iff data 0 2 (by omega)
  have h3 := byteAt_eq_iff data 0 3 (by omega)
  refine ⟨fun ht hp => ?_, fun ht hp => ?_, fun ht hp => ?_, fun hn => ?_, Chip.onlyHeard_settleLink hlink,
    Chip.onlyChanges_heard hrest (by simp)⟩
  · exact hload.trans (by simp [reportOf, h1.mp hp]; exact if_pos ht)
  · exact hload.trans (by simp [reportOf, h2.mp hp]; exact if_pos ht)
  · exact hload.trans (by simp [reportOf, h3.mp hp]; exact if_pos ht)
  · refine hload.trans ?_
    rcases hn with hn | ⟨n1, n2, n3⟩
    · cases reportOf data with
      | none => rfl
      | some f => exact if_neg hn
    · have hnone : reportOf data = none := by
        have m1 : nat8 data 0 ≠ 1 := fun h => n1 (h1.mpr h)
        have m2 : nat8 data 0 ≠ 2 := fun h => n2 (h2.mpr h)
        have m3 : nat8 data 0 ≠ 3 := fun h => n3 (h3.mpr h)
        unfold reportOf
        split <;> simp_all
      simp [hnone]

end Sys2Proof.Machine

/-! SUPPORT and PROOFS. The answer to a COUNTER REQUEST, and the mirror of the named station's record (R84, R113-R115). -/

namespace Sys2Proof.Machine

set_option Elab.async false

/-! ## A COUNTER REQUEST (R84) -/

/-- A part's own reports carry the figures of Table 12-4. -/
theorem Chip.ownReports_eq (c : Chip) (dst : Byte) : c.ownReports dst = c.ownCounters dst := by
  unfold Chip.ownReports Chip.ownCounters
  cases c.store.retainLost <;> rfl

/-- The data of a repeater's three reports: what it holds of each part, or zeros flagged EMPTY (R85). -/
def LoadRegister.mirrorBytes (l : LoadRegister) : List (List Byte) :=
  let flags (lost : Bool) : Byte := if lost then 5 else 1
  [match l.mirrorCounts with
    | none => [1, 3, 0, 0, 0, 0, 0, 0, 0, 0]
    | some m => [1, flags m.retainLost] ++ be16 m.cycles ++ be16 m.weighed ++ be16 m.unweighed ++ be16 m.trucks,
   match l.mirrorTonnage with
    | none => [2, 3, 0, 0, 0, 0, 0, 0, 0, 0]
    | some m => [2, flags m.retainLost] ++ be32 m.shift ++ be32 m.life,
   match l.mirrorLife with
    | none => [3, 3, 0, 0, 0, 0]
    | some m => [3, flags m.retainLost] ++ be32 m.cycles]

theorem sendCounts_mirrored (dst : Byte) (m : MirrorCounts) :
    sendCounts dst (reportFlags true false m.retainLost) m.cycles m.weighed m.unweighed m.trucks
      = ⟨.counterReport, dst, [1, if m.retainLost then 5 else 1] ++ be16 m.cycles ++ be16 m.weighed
          ++ be16 m.unweighed ++ be16 m.trucks⟩ := by
  cases h : m.retainLost <;> rfl

theorem sendTonnage_mirrored (dst : Byte) (m : MirrorTonnage) :
    sendTonnage dst (reportFlags true false m.retainLost) m.shift m.life
      = ⟨.counterReport, dst, [2, if m.retainLost then 5 else 1] ++ be32 m.shift ++ be32 m.life⟩ := by
  cases h : m.retainLost <;> rfl

theorem sendLife_mirrored (dst : Byte) (m : MirrorLife) :
    sendLife dst (reportFlags true false m.retainLost) m.cycles
      = ⟨.counterReport, dst, [3, if m.retainLost then 5 else 1] ++ be32 m.cycles⟩ := by
  cases h : m.retainLost <;> rfl

/-- Zeros flagged MIRRORED and EMPTY, part by part (R85). -/
theorem sendEmpty_eq (dst : Byte) :
    sendCounts dst (reportFlags true true false) 0 0 0 0 = ⟨.counterReport, dst, [1, 3, 0, 0, 0, 0, 0, 0, 0, 0]⟩
      ∧ sendTonnage dst (reportFlags true true false) 0 0 = ⟨.counterReport, dst, [2, 3, 0, 0, 0, 0, 0, 0, 0, 0]⟩
      ∧ sendLife dst (reportFlags true true false) 0 = ⟨.counterReport, dst, [3, 3, 0, 0, 0, 0]⟩ := ⟨rfl, rfl, rfl⟩

theorem Chip.mirrorReports_eq (c : Chip) (dst : Byte) :
    c.mirrorReports dst = c.load.mirrorBytes.map fun bytes => ⟨.counterReport, dst, bytes⟩ := by
  obtain ⟨h1, h2, h3⟩ := sendEmpty_eq dst
  unfold Chip.mirrorReports LoadRegister.mirrorBytes
  cases c.load.mirrorCounts <;> cases c.load.mirrorTonnage <;> cases c.load.mirrorLife <;>
    simp only [h1, h2, h3, sendCounts_mirrored, sendTonnage_mirrored, sendLife_mirrored, List.map]

/-- A part that is not MUTE offers every telegram of a list in RUN (R156). -/
theorem Chip.offerAll_run (c : Chip) (ts : List OutTg) (h : c.sup.power = .run) (hm : c.role.state ≠ .mute) :
    c.offerAll ts = { c with link := ts.foldl Link.joined c.link } :=
  Chip.offerAll_joined ts c fun _ _ => Chip.takesOffer_of_not_mute _ h hm

/-- The answer to a COUNTER REQUEST in RUN, of three reports or none. -/
theorem Chip.counterRequest_answers (c : Chip) (src dst : Byte) (h : c.sup.power = .run) (hm : c.role.state ≠ .mute) :
    let ts := c.counterAnswer src
    let d := (c.counterRequest src dst).settleLink
    d.link = (ts.foldl Link.joined c.link).settle d.maySend
      ∧ (c.link.queue.length + ts.length ≤ 8 → d.link.queue = c.link.queue ++ ts) := by
  intro ts d
  have hq : c.link.queue.length + ts.length ≤ 8 → (c.offerAll ts).link.queue = c.link.queue ++ ts :=
    fun hl => Chip.offerAll_queue ts c (fun _ _ => Chip.takesOffer_of_not_mute _ h hm) hl
  have hc : c.counterRequest src dst = c.offerAll ts := by simp only [Chip.counterRequest, h, ts]
  simp only [d, hc]
  exact ⟨by simp [Chip.offerAll_run c ts h hm], by simpa using hq⟩

theorem Chip.counterRequest_onlyChanges (c : Chip) (src dst : Byte) :
    c.onlyChanges (c.counterRequest src dst) [.link] := by
  intro b hb
  unfold Chip.counterRequest
  cases c.sup.power <;> dsimp only <;> (repeat' split) <;> cases b <;> simp_all [Chip.sameAt]

/-- Settles O27: by the role state. -/
theorem counterRequestIsAnswered : Obligations.CounterRequestIsAnswered := by
  unfold Obligations.CounterRequestIsAnswered
  intro s src dst data hears
  obtain ⟨-, hrun, -⟩ := id hears
  refine gives_family _ s 0x24 src dst data .counterRequest _ rfl hears rfl rfl rfl ?_
  have hans (ts : List OutTg) (hm : s.chip.role.state ≠ .mute) (hlen : ts.length = 3)
      (ht : (s.chip.mapLink Link.runEnded).counterAnswer src = ts) :
      let d := ((s.chip.mapLink Link.runEnded).counterRequest src dst).settleLink
      d.link = (ts.foldl Link.joined s.chip.link.runEnded).settle d.maySend
        ∧ (s.chip.link.queue.length ≤ 5 → d.link.queue = s.chip.link.queue ++ ts) := by
    obtain ⟨h1, h2⟩ := (s.chip.mapLink Link.runEnded).counterRequest_answers src dst hrun hm
    rw [ht] at h1 h2
    exact ⟨h1, fun hq => by simpa using h2 (by simpa [hlen] using hq)⟩
  refine ⟨fun hst => ?_, fun hst => ?_, fun hst => ?_, ?_⟩
  · refine hans _ (by rcases hst with h | h | h <;> simp [h]) rfl ?_
    rw [show s.chip.ownCounters src = (s.chip.mapLink Link.runEnded).ownReports src from
      ((s.chip.mapLink Link.runEnded).ownReports_eq src).symm]
    rcases hst with h | h | h <;> simp [Chip.counterAnswer, h]
  · refine hans _ (by simp [hst]) rfl ?_
    have h := (s.chip.mapLink Link.runEnded).mirrorReports_eq src
    simp only [Chip.counterAnswer, Chip.mapLink_role, hst, h]
    rfl
  · refine Chip.onlyHeard_settleLink ?_
    have hnone : (s.chip.mapLink Link.runEnded).counterAnswer src = [] := by
      rcases hst with h | h <;> simp [Chip.counterAnswer, h]
    simp only [Chip.consumeInRun, Chip.counterRequest, Chip.mapLink_sup, hrun, hnone]
    rfl
  · exact Chip.onlyChanges_heard (Chip.counterRequest_onlyChanges _ src dst) (by simp)

/-! ## The mirror rules (R113-R115) -/

/-- The mirror rules take the telegrams of the named station in STANDBY and REPEAT. -/
theorem Chip.mirrorsFrom_iff (src : Byte) (c : Chip) :
    c.mirrorsFrom src = true ↔
      (c.role.state = .standby ∨ c.role.state = .repeating) ∧ c.role.named = some src.toNat := by
  unfold Chip.mirrorsFrom
  cases c.role.state <;> simp [RoleState.mirrors]

/-! ## A TRUCK STATUS (R113) -/

/-- The TRUCK STATUS that a data field spells (R182). -/
def truckMsgOf (data : List Byte) : TruckMsg :=
  ⟨(byteAt data 9).getLsbD 0, nat16 data 0, absentIfZero (nat16 data 2), nat24 data 4, nat8 data 7, nat8 data 8,
    RecFlags.ofByte (byteAt data 9), byteAt data 10⟩

theorem Chip.dropShadowNote_onlyChanges (before : Option TruckRec) (c : Chip) :
    c.onlyChanges (c.dropShadowNote before) [.trk] := by
  intro b hb
  cases b <;> simp_all [Chip.sameAt]

theorem Chip.refresh_onlyChanges (a : Alarm) (c : Chip) : c.onlyChanges (c.refresh a) [.alarm, .panel] := by
  intro b hb
  cases b <;> simp_all [Chip.sameAt]

theorem Chip.truckStatus_facts (src : Byte) (m : TruckMsg) (c : Chip) :
    let d := c.truckStatus src m
    (c.mirrorsFrom src = true →
        d.load = { c.load with
            seq := m.seq, record := if m.isOpen then some (mirrorRecord c.load.record m) else none }
          ∧ d.role = { c.role with
              mirrored := true, behind := if c.role.namedSeq = some m.seq then false else c.role.behind })
      ∧ (c.mirrorsFrom src = false → d = c) ∧ d.link = c.link
      ∧ c.onlyChanges d [.trk, .load, .role, .alarm, .panel] := by
  intro d
  refine ⟨fun h => ?_, fun h => ?_, ?_, fun b hb => ?_⟩
  · simp only [d, Chip.truckStatus, h, if_true]
    refine ⟨by simp [Chip.setRecord], ?_⟩
    simp [Chip.setRecord]
    rfl
  · simp [d, Chip.truckStatus, h]
  · simp only [d, Chip.truckStatus]
    split <;> simp [Chip.setRecord]
  · simp only [d, Chip.truckStatus]
    split <;> cases b <;> simp_all [Chip.sameAt, Chip.setRecord]

/-- Settles O29: the mirror takes the fields as they are read. -/
theorem truckStatusIsMirrored : Obligations.TruckStatusIsMirrored := by
  unfold Obligations.TruckStatusIsMirrored
  intro s src dst data hears hlen
  refine gives_family _ s 0x21 src dst data .truckStatus _ rfl hears rfl rfl rfl ?_
  have hread : readTruck data = .taken (truckMsgOf data) := by
    rw [readTruck, takeData_long _ hlen]
    rfl
  obtain ⟨hm, hn, hlink, hrest⟩ := (s.chip.mapLink Link.runEnded).truckStatus_facts src (truckMsgOf data)
  have hiff := (s.chip.mapLink Link.runEnded).mirrorsFrom_iff src
  simp only [Chip.consumeInRun, hread, Chip.take]
  refine ⟨fun hmir hopen => ?_, fun hmir hopen => ?_, fun hmir => (hm (hiff.mpr hmir)).2, fun hnot => ?_,
    Chip.onlyHeard_settleLink hlink,
    Chip.onlyChanges_heard hrest (by simp)⟩
  · refine (hm (hiff.mpr hmir)).1.trans ?_
    have ho : (truckMsgOf data).isOpen = true := hopen
    rw [if_pos ho]
    rfl
  · refine (hm (hiff.mpr hmir)).1.trans ?_
    have ho : (truckMsgOf data).isOpen = false := hopen
    simp only [ho]
    rfl
  · rw [hn (by simpa using fun h => hnot (hiff.mp h))]
    exact (s.chip.onlyHeard_untaken).2

/-! ## A TRUCK CLOSED (R115) -/

/-- A TRUCK CLOSED of reason 1-3 as its data field spells it (R182). -/
def closedMsgOf (data : List Byte) (reason : CloseReason) : ClosedMsg :=
  ⟨nat16 data 0, absentIfZero (nat16 data 2), nat24 data 4, nat8 data 7, nat8 data 8, reason, (byteAt data 9).getLsbD 7⟩

theorem readClosed_long (data : List Byte) (h : 10 ≤ data.length) :
    readClosed data = match CloseReason.ofCode (nat8 data 9 % 8) with
      | none => .dropped
      | some r => .taken (closedMsgOf data r) := by
  rw [readClosed, takeData_long _ h]
  cases CloseReason.ofCode (nat8 data 9 % 8) <;> rfl

theorem CloseReason.ofCode_none (n : Nat) (h : n = 0 ∨ 3 < n) : CloseReason.ofCode n = none := by
  unfold CloseReason.ofCode
  split <;> simp_all

theorem Chip.truckClosed_facts (src : Byte) (m : ClosedMsg) (c : Chip) :
    let d := c.truckClosed src m
    (c.mirrorsFrom src = true →
        d.load = { c.load with
            history :=
              (if 16 ≤ c.load.history.length then c.load.history.drop 1 else c.load.history)
                ++ [⟨c.load.nextHist, m.id, m.target, min m.total 99999, m.count, m.unweighed, m.reason, m.amended⟩]
            nextHist := c.load.nextHist + 1
            shift := { c.load.shift with trucks := min 65535 (c.load.shift.trucks + 1) } })
      ∧ (c.mirrorsFrom src = false → d = c) ∧ d.link = c.link ∧ c.onlyChanges d [.load, .panel] := by
  intro d
  refine ⟨fun h => ?_, fun h => ?_, ?_, fun b hb => ?_⟩
  · simp only [d, Chip.truckClosed, h, if_true]
    rfl
  · simp [d, Chip.truckClosed, h]
  · simp only [d, Chip.truckClosed]
    split <;> simp
  · simp only [d, Chip.truckClosed]
    split <;> cases b <;> simp_all [Chip.sameAt]

/-- Settles O31: by the reason and the mirror rules. -/
theorem truckClosedJoinsTheHistory : Obligations.TruckClosedJoinsTheHistory := by
  unfold Obligations.TruckClosedJoinsTheHistory
  intro s src dst data hears hlen
  have hread := readClosed_long data hlen
  have hiff := (s.chip.mapLink Link.runEnded).mirrorsFrom_iff src
  refine ⟨fun h => ?_, fun reason hmir hcode => ?_⟩ <;>
    refine gives_family _ s 0x23 src dst data .truckClosed _ rfl hears rfl rfl rfl ?_ <;>
    simp only [Chip.consumeInRun, hread]
  · cases ho : CloseReason.ofCode (nat8 data 9 % 8) with
    | none => exact s.chip.onlyHeard_untaken
    | some r =>
      have hnot : (s.chip.mapLink Link.runEnded).mirrorsFrom src = false := by
        rcases h with h | h
        · simpa using fun hm => h (hiff.mp hm)
        · simp [CloseReason.ofCode_none _ h] at ho
      simp only [Chip.take, ((s.chip.mapLink Link.runEnded).truckClosed_facts src (closedMsgOf data r)).2.1 hnot]
      exact s.chip.onlyHeard_untaken
  · have hr : CloseReason.ofCode (nat8 data 9 % 8) = some reason := by
      rcases hcode with ⟨h, rfl⟩ | ⟨h, rfl⟩ | ⟨h, rfl⟩ <;> rw [h] <;> rfl
    obtain ⟨hm, -, hlink, hrest⟩ := (s.chip.mapLink Link.runEnded).truckClosed_facts src (closedMsgOf data reason)
    simp only [hr, Chip.take]
    exact ⟨hm (hiff.mpr hmir), Chip.onlyHeard_settleLink hlink,
      Chip.onlyChanges_heard hrest (by simp)⟩

end Sys2Proof.Machine

/-! SUPPORT and PROOFS. A PASS RECORD of the named station: the mirror, the cross-check, the last pass shown (R114, R118,
R119); the answer to a DIAG REQUEST (R162). -/

namespace Sys2Proof.Machine

set_option Elab.async false

/-! ## Reading a PASS RECORD (R182) -/

/-- The grade of the two low bits of a byte, by its value (Table 12-4). -/
theorem Grade.ofByte_eq : ∀ b : Byte, Grade.ofByte b =
    if b.toNat % 4 = 0 then .good else if b.toNat % 4 = 1 then .fair else if b.toNat % 4 = 2 then .poor
    else .reject := by
  decide

theorem Grade.ofByte_reject_iff : ∀ b : Byte, Grade.ofByte b = .reject ↔ b.toNat % 4 = 3 := by
  decide

/-- The pass that a data field spells (R182). -/
def passOf (data : List Byte) : PassRec :=
  { truckId := nat16 data 0, number := nat8 data 2
    kind := if (byteAt data 3).getLsbD 7 then .remainder else .normal
    payload := if nat16 data 4 = 65535 then none else some (nat16 data 4)
    grade := Grade.ofByte (byteAt data 3)
    bins := nat8 data 6 / 16, reweigh := nat8 data 6 % 4, cycleTime := nat16 data 7
    fill := if nat8 data 9 = 255 then none else some (nat8 data 9)
    negative := (byteAt data 10).getLsbD 0, overFlag := (byteAt data 10).getLsbD 1
    amended := (byteAt data 10).getLsbD 2, unamended := (byteAt data 10).getLsbD 3 }

/-- The payload and the grade of a data field agree (R182). -/
def passAgrees (data : List Byte) : Prop :=
  nat16 data 4 < 10000 ∧ nat8 data 3 % 4 ≠ 3 ∨ nat16 data 4 = 65535

theorem readPass_agrees (data : List Byte) (h : 11 ≤ data.length) (ha : passAgrees data) :
    readPass data = .taken (passOf data) := by
  have hr := Grade.ofByte_reject_iff (byteAt data 3)
  rw [readPass, takeData_long _ h]
  rcases ha with ⟨hp, hg⟩ | hp
  · have hne : nat16 data 4 ≠ 65535 := by omega
    have hg' : Grade.ofByte (byteAt data 3) ≠ .reject := fun he => hg (hr.mp he)
    have hlow : ¬10000 ≤ nat16 data 4 := by omega
    simp [passOf, hne, hg', hlow]
  · simp [passOf, hp]

theorem readPass_drops (data : List Byte) (h : 11 ≤ data.length) (ha : ¬passAgrees data) :
    readPass data = .dropped := by
  have hr := Grade.ofByte_reject_iff (byteAt data 3)
  rw [readPass, takeData_long _ h]
  have hne : nat16 data 4 ≠ 65535 := fun he => ha (.inr he)
  by_cases hp : 10000 ≤ nat16 data 4
  · simp [hne, hp]
  · have hg : Grade.ofByte (byteAt data 3) = .reject := by
      refine hr.mpr (Classical.not_not.mp fun he => ha (.inl ⟨by omega, he⟩))
    simp [hne, hp, hg]

/-! ## The cross-check (R118, R119) -/

/-- A pair that is judged: the mismatch count and CROSS-CHECK by the difference of its payloads (R119). -/
theorem RoleArbiter.judge_facts (active shadow : Nat) (r : RoleArbiter) :
    let differs := max (roundDiv ((active : Int) * 2) 100) 20 < (((active : Int) - shadow).natAbs : Int)
    let q := r.judge active shadow
    q.pairing = r.pairing ∧ q.lastPair = some ⟨shadow, active, decide differs⟩
      ∧ q.mismatches = (if differs then min 255 (r.mismatches + 1) else 0)
      ∧ (differs → q.crossCheck = (r.crossCheck || decide (3 ≤ min 255 (r.mismatches + 1))))
      ∧ (¬differs → q.crossCheck = false) ∧ q.unpaired = r.unpaired := by
  intro differs q
  have hbad : pairDiffers active shadow = decide differs := rfl
  refine ⟨rfl, rfl, ?_, fun h => ?_, fun h => ?_, rfl⟩
  · by_cases h : differs <;> simp [q, RoleArbiter.judge, hbad, h, satAdd]
  · simp [q, RoleArbiter.judge, hbad, h, satAdd]
  · simp [q, RoleArbiter.judge, hbad, h]

/-- The arbiter after the cross-check of a pass: in STANDBY a weighed, unamended one takes the oldest pending shadow pass or
counts as unpaired. -/
theorem Chip.crossCheckPass_role (p : PassRec) (c : Chip) :
    (c.role.state ≠ .standby ∨ p.payload = none ∨ p.amended = true → (c.crossCheckPass p).role = c.role)
      ∧ ∀ active, c.role.state = .standby → p.payload = some active → p.amended = false →
          (c.role.pairing = [] → (c.crossCheckPass p).role = { c.role with unpaired := bump c.role.unpaired })
          ∧ ∀ e rest, c.role.pairing = e :: rest →
              (c.crossCheckPass p).role = { c.role with pairing := rest }.judge active e.payload := by
  refine ⟨fun h => ?_, fun active hs hp ha => ⟨fun hl => ?_, fun e rest hl => ?_⟩⟩
  · unfold Chip.crossCheckPass
    split <;> simp_all
  · simp [Chip.crossCheckPass, hs, hp, ha, hl, Chip.countUnpaired]
  · simp [Chip.crossCheckPass, hs, hp, ha, hl]

/-! ## The mirror after a PASS RECORD (R114) -/

/-- The mirror's record after a pass, the unweighed count by its condition. -/
theorem mirrorJoin_eq (before : Option TruckRec) (p : PassRec) : mirrorJoin before p =
    let r := match before with
      | some r => if r.id = p.truckId then r else TruckRec.fresh p.truckId none
      | none => TruckRec.fresh p.truckId none
    let ps := mirrorList p r.passes
    { r with
      passes := ps
      count := max r.count (max ps.length ((numbers ps).foldl max 0))
      unweighed :=
        if (numbers r.passes).contains p.number = false ∧ p.payload = none then min 255 (r.unweighed + 1)
        else r.unweighed } := by
  have hcond (b : Bool) : (!b && p.payload.isNone) = true ↔ b = false ∧ p.payload = none := by
    cases b <;> simp
  simp only [mirrorJoin, hcond]
  rfl

/-- The part after the mirror has taken a pass, before the cross-check. -/
def Chip.mirrorsPass (p : PassRec) (c : Chip) : Chip :=
  (((c.setRecord (some (mirrorJoin c.load.record p))).mapRole fun r => { r with mirrored := true }).dropShadowNote
    c.load.record).refresh .overload

theorem Chip.mirrorsPass_facts (p : PassRec) (c : Chip) :
    (c.mirrorsPass p).load = { c.load with record := some (mirrorJoin c.load.record p) }
      ∧ (c.mirrorsPass p).role = { c.role with mirrored := true } ∧ (c.mirrorsPass p).link = c.link := by
  refine ⟨?_, ?_, ?_⟩ <;> simp [Chip.mirrorsPass, Chip.setRecord]

/-- A PASS RECORD that the mirror rules take: the mirror, then the cross-check, then in REPEAT the last pass shown. -/
theorem Chip.passRecord_mirrors (src : Byte) (p : PassRec) (c : Chip) (h : c.mirrorsFrom src = true) :
    let e := c.mirrorsPass p
    let d := c.passRecord src p
    d.load = e.load ∧ d.role = (e.crossCheckPass p).role ∧ d.link = e.link
      ∧ (c.role.state = .repeating → p.amended = false → d.panel.lastPass = some p) := by
  intro e d
  have hd : d = if (e.crossCheckPass p).role.state = .repeating ∧ (!p.amended) = true then
      (e.crossCheckPass p).mapPanel fun q => { q with lastPass := some p } else e.crossCheckPass p := by
    simp only [d, Chip.passRecord, h, if_true]
    rfl
  rw [hd]
  refine ⟨?_, ?_, ?_, fun hs ha => ?_⟩
  · split <;> simp
  · split <;> rfl
  · split <;> simp
  · have hr : (e.crossCheckPass p).role.state = .repeating := by
      rw [(e.crossCheckPass_role p).1 (.inl (by simp [e, (c.mirrorsPass_facts p).2.1, hs]))]
      simp [e, (c.mirrorsPass_facts p).2.1, hs]
    rw [if_pos ⟨hr, by simp [ha]⟩]
    rfl

theorem Chip.passRecord_onlyChanges (src : Byte) (p : PassRec) (c : Chip) :
    c.onlyChanges (c.passRecord src p) [.trk, .load, .role, .alarm, .panel] := by
  intro b hb
  cases b <;> simp_all [Chip.sameAt]

/-- Settles O30: by the mirror rules and the agreement of payload and grade. -/
theorem passRecordIsMirrored : Obligations.PassRecordIsMirrored := by
  unfold Obligations.PassRecordIsMirrored
  intro s src dst data hears hlen
  have hiff := (s.chip.mapLink Link.runEnded).mirrorsFrom_iff src
  refine ⟨fun h => ?_, fun hmir hag => ?_⟩ <;>
    refine gives_family _ s 0x22 src dst data .passRecord _ rfl hears rfl rfl rfl ?_
  · dsimp only [Chip.consumeInRun]
    by_cases hag : passAgrees data
    · have hnot : ¬(s.chip.mapLink Link.runEnded).mirrorsFrom src = true := fun hm =>
        h.elim (fun hn => hn (hiff.mp hm)) fun hn => hn hag
      simp only [readPass_agrees data hlen hag, Chip.take, Chip.passRecord, hnot]
      exact s.chip.onlyHeard_untaken
    · simp only [readPass_drops data hlen hag, Chip.take]
      exact s.chip.onlyHeard_untaken
  · have htake : (s.chip.mapLink Link.runEnded).consumeInRun .passRecord src dst data =
        (s.chip.mapLink Link.runEnded).passRecord src (passOf data) := by
      simp only [Chip.consumeInRun, readPass_agrees data hlen hag, Chip.take]
    rw [htake]
    obtain ⟨el, er, ek⟩ := (s.chip.mapLink Link.runEnded).mirrorsPass_facts (passOf data)
    obtain ⟨hload, hrole, hlink, hlast⟩ :=
      (s.chip.mapLink Link.runEnded).passRecord_mirrors src (passOf data) (hiff.mpr hmir)
    have hcross := ((s.chip.mapLink Link.runEnded).mirrorsPass (passOf data)).crossCheckPass_role (passOf data)
    intro b p
    have hp : p = passOf data := by
      simp only [p, passOf, Grade.ofByte_eq]
      rfl
    clear_value p
    subst hp
    rw [er] at hcross
    obtain ⟨hno, hyes⟩ := hcross
    intro r ps
    refine ⟨(hload.trans el).trans ?_, ?_, ?_, fun active e rest hst hpay ham hpair => ?_,
      fun hst hpay ham hpair => ?_, fun h => hrole.trans (hno ?_), fun hst ham => hlast hst ham,
      Chip.onlyHeard_settleLink (hlink.trans ek),
      Chip.onlyChanges_heard (Chip.passRecord_onlyChanges src (passOf data) _) (by simp)⟩
    · rw [mirrorJoin_eq]
      rfl
    · simp [hrole, er]
    · simp [hrole, er]
    · have h := hrole.trans ((hyes active hst hpay ham).2 e rest hpair)
      simp only [Chip.settleLink, Chip.mapLink_role, h]
      exact RoleArbiter.judge_facts ..
    · obtain ⟨active, hact⟩ := Option.isSome_iff_exists.mp hpay
      have h := hrole.trans ((hyes active hst hact ham).1 hpair)
      simp only [Chip.settleLink, Chip.mapLink_role, h]
      exact ⟨rfl, trivial⟩
    · rcases h with h | h | h
      · exact .inl (by simp [h])
      · exact .inr (.inl h)
      · exact .inr (.inr h)

/-! ## A DIAG REQUEST (R162) -/

/-- The four parts carry the figures of Table 9-7 byte by byte. -/
theorem Chip.diagParts_eq (c : Chip) (dst : Byte) : c.diagParts dst =
    let part (n : Nat) (counters : List Nat) : OutTg :=
      ⟨.diagReport, dst, BitVec.ofNat 8 n :: counters.flatMap be16⟩
    let flags := (if c.link.access = .quiet then 1 else 0) + (if c.store.retainLost then 2 else 0)
      + (if c.store.configDefault then 4 else 0)
    let abort := match c.link.lastAbort with
      | .none => 0
      | .collision => 1
      | .bitError => 2
    [part 1 [c.link.check, c.link.form, c.link.length, c.link.txFail, c.link.qDrop],
     ⟨.diagReport, dst, [2] ++ be16 c.link.quietEntries ++
       [BitVec.ofNat 8 abort, BitVec.ofNat 8 flags, BitVec.ofNat 8 c.link.queue.length,
        BitVec.ofNat 8 c.role.state.code, BitVec.ofNat 8 c.sup.startKind.code]⟩,
     part 3 [c.trk.voids.returned, c.trk.voids.carryTimeout, c.trk.voids.empty, c.trk.voids.inputLoss, c.trk.voids.power],
     part 4 [c.trk.voids.restart, c.inp.pressure.gap, c.inp.primary.gap, c.inp.secondary.gap, c.role.unpaired]] := by
  have hflags : diagFlags (c.link.access == .quiet) c.store.retainLost c.store.configDefault =
      (if c.link.access = .quiet then 1 else 0) + (if c.store.retainLost then 2 else 0)
        + (if c.store.configDefault then 4 else 0) := by
    unfold diagFlags bitVal
    by_cases hq : c.link.access = .quiet <;> cases c.store.retainLost <;> cases c.store.configDefault <;> simp [hq]
  dsimp only
  rw [← hflags]
  rfl

/-- A DIAG REQUEST offers the four parts, and CLEAR then zeroes the counters (R162). -/
theorem Chip.diagRequest_facts (src : Byte) (clear : Bool) (c : Chip) :
    let d := c.diagRequest src clear
    d.link = (if clear then (c.offerAll (c.diagParts src)).link.clearCounters else (c.offerAll (c.diagParts src)).link)
      ∧ c.onlyChanges d [.link] := by
  cases clear <;> refine ⟨rfl, fun b hb => ?_⟩ <;> cases b <;> simp_all [Chip.sameAt, Chip.diagRequest]

/-- Offers to a queue with room move the queue alone. -/
theorem Chip.offerAll_link (ts : List OutTg) (c : Chip) (hl : c.link.queue.length + ts.length ≤ 8) :
    (c.offerAll ts).link = { c.link with queue := (c.offerAll ts).link.queue } := by
  induction ts generalizing c with
  | nil => rfl
  | cons t ts ih =>
    have e : c.offerAll (t :: ts) = (c.offer t).offerAll ts := rfl
    rw [List.length_cons] at hl
    have hroom : ¬8 ≤ c.link.queue.length := by omega
    have ht : (c.offer t).link = { c.link with queue := (c.offer t).link.queue }
        ∧ (c.offer t).link.queue.length ≤ c.link.queue.length + 1 := by
      unfold Chip.offer
      split
      · simp [Link.enqueue, hroom]
      · simp
    rw [e, ih _ (by omega), ht.1]

/-- Settles O43: by the role state, and by CLEAR. -/
theorem diagRequestIsAnswered : Obligations.DiagRequestIsAnswered := by
  unfold Obligations.DiagRequestIsAnswered
  intro s src dst data hears hlen hroom
  obtain ⟨-, hrun, -⟩ := id hears
  refine gives_family _ s 0x26 src dst data .diagRequest _ rfl hears rfl rfl rfl ?_
  have hread : readDiagRequest data = .taken ((byteAt data 0).getLsbD 0) := by
    rw [readDiagRequest, takeData_long _ hlen]
  have htake : (s.chip.mapLink Link.runEnded).consumeInRun .diagRequest src dst data =
      (s.chip.mapLink Link.runEnded).diagRequest src ((byteAt data 0).getLsbD 0) := by
    simp only [Chip.consumeInRun, hread, Chip.take]
  rw [htake]
  obtain ⟨hlink, hrest⟩ := (s.chip.mapLink Link.runEnded).diagRequest_facts src ((byteAt data 0).getLsbD 0)
  have hparts := (s.chip.mapLink Link.runEnded).diagParts_eq src
  have hroom' : (s.chip.mapLink Link.runEnded).link.queue.length
      + ((s.chip.mapLink Link.runEnded).diagParts src).length ≤ 8 := by
    simpa [hparts] using hroom
  have hl := (s.chip.mapLink Link.runEnded).offerAll_link _ hroom'
  have hquiet : s.chip.link.runEnded.access = .quiet ↔ s.chip.link.access = .quiet := by
    unfold Link.runEnded Link.busTaken
    split <;> simp_all
  refine ⟨fun hm => ?_, fun hm => ?_, fun hc => ?_, fun hc => ?_, Chip.onlyChanges_heard hrest (by simp)⟩
  · have hq := Chip.offerAll_queue _ (s.chip.mapLink Link.runEnded)
      (fun _ _ => Chip.takesOffer_of_not_mute _ hrun hm) hroom'
    replace hq := hq.trans (congrArg (_ ++ ·) hparts)
    simp only [Chip.mapLink_link, Link.runEnded_frame, hquiet] at hq
    simp only [Chip.settleLink_link, Link.settle_frame, hlink]
    split <;> exact hq
  · have hoff : ((s.chip.mapLink Link.runEnded).offerAll ((s.chip.mapLink Link.runEnded).diagParts src)) =
        s.chip.mapLink Link.runEnded := by
      refine Chip.offerAll_discarded _ _ fun t _ => ?_
      simp [Chip.takesOffer, hrun, hm]
    simp only [Chip.settleLink_link, Link.settle_frame, hlink, hoff]
    split <;> simp [Link.clearCounters]
  · simp only [Chip.settleLink_link, Link.settle_frame, hlink, if_pos hc, Link.clearCounters, and_self]
  · simp only [Chip.settleLink_link, Link.settle_frame, hlink, if_neg hc]
    rw [hl]
    simp

end Sys2Proof.Machine

/-! SUPPORT and PROOFS. A WEIGHER STATUS: the peer table, the named station, the yielding; the timers that settle the role
(R106-R113). -/

namespace Sys2Proof.Machine

set_option Elab.async false

/-! ## Reading a WEIGHER STATUS (R182) -/

theorem RoleState.ofCode_code (st : RoleState) : RoleState.ofCode st.code = some st := by
  cases st <;> rfl

theorem RoleState.ofCode_none (n : Nat) (h : ∀ st : RoleState, n ≠ st.code) : RoleState.ofCode n = none := by
  unfold RoleState.ofCode
  split
  · exact absurd rfl (h .listen)
  · exact absurd rfl (h .active)
  · exact absurd rfl (h .standby)
  · exact absurd rfl (h .calibrating)
  · exact absurd rfl (h .repeating)
  · exact absurd rfl (h .mute)
  · rfl

theorem readStatus_long (data : List Byte) (h : 6 ≤ data.length) :
    readStatus data = match RoleState.ofCode (nat8 data 0) with
      | none => .dropped
      | some st => .taken ⟨st, byteAt data 5⟩ := by
  rw [readStatus, takeData_long _ h]
  cases RoleState.ofCode (nat8 data 0) <;> rfl

/-- A WEIGHER STATUS of a listed role state reaches the arbiter. -/
theorem gives_weigherStatus (s : State) (src dst : Byte) (data : List Byte) (st : RoleState) (P : Chip → Prop)
    (h : s.chip.Hears src dst data) (hlen : 6 ≤ data.length) (hst : nat8 data 0 = st.code)
    (hP : P ((s.chip.mapLink Link.runEnded).weigherStatus src ⟨st, byteAt data 5⟩).settleLink) :
    Gives (.weigherStatus src dst data) s P := by
  refine gives_family _ s 0x20 src dst data .weigherStatus _ rfl h rfl rfl rfl ?_
  simp only [Chip.consumeInRun, readStatus_long data hlen, hst, RoleState.ofCode_code]
  exact hP

/-! ## The peer table (R106) -/

/-- The peer that goes is the oldest, of equals the highest station. -/
theorem oldestPeer_spec (now : Tick) (ps : List Peer) (h : ps ≠ []) :
    ∃ old ∈ ps, oldestPeer now ps = some old ∧ ∀ p ∈ ps, age now p.at_ < age now old.at_
      ∨ age now p.at_ = age now old.at_ ∧ p.station ≤ old.station := by
  induction ps with
  | nil => exact absurd rfl h
  | cons p ps ih =>
    cases ps with
    | nil => exact ⟨p, by simp, rfl, by simp⟩
    | cons q qs =>
      obtain ⟨old, hmem, hold, hle⟩ := ih (by simp)
      have hgo : old.goesBefore now p = true ↔
          age now p.at_ < age now old.at_ ∨ age now p.at_ = age now old.at_ ∧ p.station < old.station := by
        simp [Peer.goesBefore]
      rw [oldestPeer, hold]
      by_cases hb : old.goesBefore now p = true
      · refine ⟨old, List.mem_cons_of_mem _ hmem, by simp [hb], fun r hr => ?_⟩
        rcases List.mem_cons.mp hr with rfl | hr
        · rcases hgo.mp hb with hb | hb <;> omega
        · exact hle r hr
      · refine ⟨p, by simp, by simp [hb], fun r hr => ?_⟩
        have hn := mt hgo.mpr hb
        rcases List.mem_cons.mp hr with rfl | hr
        · omega
        · have := hle r hr
          omega

/-- The table after a WEIGHER STATUS: a record refreshed, added, or taking the place of the oldest. -/
theorem hearPeer_facts (station : Nat) (st : RoleState) (now : Tick) (ps : List Peer) :
    let new : Peer := ⟨station, st, now⟩
    ((∃ p ∈ ps, p.station = station) →
        hearPeer station st now ps = ps.map fun p => if p.station = station then new else p)
      ∧ ((∀ p ∈ ps, p.station ≠ station) → ps.length < 8 → hearPeer station st now ps = ps ++ [new])
      ∧ ((∀ p ∈ ps, p.station ≠ station) → 8 ≤ ps.length → ∃ old ∈ ps,
          (∀ p ∈ ps, age now p.at_ < age now old.at_ ∨ age now p.at_ = age now old.at_ ∧ p.station ≤ old.station)
          ∧ hearPeer station st now ps = ps.map fun p => if p.station = old.station then new else p) := by
  intro new
  have hany : ps.any (fun p => p.station == station) = true ↔ ∃ p ∈ ps, p.station = station := by simp
  refine ⟨fun h => ?_, fun h hl => ?_, fun h hl => ?_⟩
  · rw [hearPeer, if_pos (hany.mpr h)]
    rfl
  · have hn : ¬ps.any (fun p => p.station == station) = true := fun he =>
      (hany.mp he).elim fun p hp => h p hp.1 hp.2
    rw [hearPeer, if_neg hn, if_pos hl]
    rfl
  · have hn : ¬ps.any (fun p => p.station == station) = true := fun he =>
      (hany.mp he).elim fun p hp => h p hp.1 hp.2
    obtain ⟨old, hmem, hold, hle⟩ := oldestPeer_spec now ps (by rintro rfl; simp at hl)
    refine ⟨old, hmem, hle, ?_⟩
    rw [hearPeer, if_neg hn, if_neg (by omega), hold]
    rfl

/-! ## The named station (R107, R113) -/

theorem RoleState.mirrors_iff (st : RoleState) : st.mirrors = true ↔ st = .standby ∨ st = .repeating := by
  cases st <;> simp [RoleState.mirrors]

/-- The sequence of the named station is noted, and compared where the mirror rules apply. -/
theorem Chip.noteStatus_eq (seq : BitVec 8) (c : Chip) :
    c.noteStatus seq = { c with role := { c.role with
      namedSeq := some seq
      behind := if c.role.state = .standby ∨ c.role.state = .repeating then seq != c.load.seq else c.role.behind } } := by
  unfold Chip.noteStatus
  by_cases h : c.role.state.mirrors = true
  · rw [if_pos h, if_pos ((RoleState.mirrors_iff _).mp h)]
    rfl
  · rw [if_neg h, if_neg (mt (RoleState.mirrors_iff _).mpr h)]
    rfl

/-- An ACTIVE status names a station no higher than the named one. -/
theorem Chip.nameStation_eq (station : Nat) (c : Chip) :
    ((∀ n, c.role.named = some n → station ≤ n) → c.nameStation station =
        (c.mapRole fun r => { r with named := some station, watch := some c.tick, noWeigher := false }).refresh .noWeigher)
      ∧ (¬(∀ n, c.role.named = some n → station ≤ n) → c.nameStation station = c) := by
  unfold Chip.nameStation
  cases c.role.named with
  | none => simp
  | some n => by_cases hle : station ≤ n <;> simp [hle]

/-- A part that a WEIGHER STATUS has changed in role and NO WEIGHER alone. -/
structure Chip.HearsStatus (c d : Chip) : Prop where
  only : c.onlyChanges d [.role, .alarm, .panel]
  alarm : c.onlyAlarm .noWeigher d
  buz : c.onlyBuzzer d
  link : d.link = c.link

theorem Chip.onlyBuzzer_refl (c : Chip) : c.onlyBuzzer c := rfl

theorem Chip.onlyBuzzer_of_eq {c d : Chip} (h : d.panel = c.panel) : c.onlyBuzzer d := by
  simp [Chip.onlyBuzzer, h]

theorem Chip.onlyChanges_role (c : Chip) (r : RoleArbiter) : c.onlyChanges { c with role := r } [.role] := by
  intro b hb
  cases b with
  | role => exact absurd (List.mem_singleton.mpr rfl) hb
  | _ => rfl

/-- A change of the arbiter alone. -/
theorem Chip.hearsStatus_role (c : Chip) (r : RoleArbiter) : c.HearsStatus { c with role := r } where
  only := (c.onlyChanges_role r).mono (by simp)
  alarm := fun _ _ => rfl
  buz := rfl
  link := rfl

/-- A change of the arbiter, with the condition of NO WEIGHER handed over. -/
theorem Chip.hearsStatus_refresh (c : Chip) (r : RoleArbiter) :
    c.HearsStatus (({ c with role := r } : Chip).refresh .noWeigher) where
  only := ((c.onlyChanges_role r).mono (by simp)).trans ((Chip.refresh_onlyChanges _ _).mono (by simp))
  alarm := fun b hb => Chip.refresh_others .noWeigher b { c with role := r } hb
  buz := Chip.refresh_panel .noWeigher { c with role := r }
  link := by simp

theorem Chip.HearsStatus.then_role {c d : Chip} (h : c.HearsStatus d) (r : RoleArbiter) :
    c.HearsStatus { d with role := r } where
  only := h.only.trans ((d.onlyChanges_role r).mono (by simp))
  alarm := h.alarm
  buz := h.buz
  link := h.link

/-- An ACTIVE status that names its station, in a part that is not ACTIVE (R107, R113). -/
theorem Chip.hearStatus_names (station : Nat) (m : StatusMsg) (c : Chip) (hst : m.state = .active)
    (h : ∀ n, c.role.named = some n → station ≤ n) :
    (c.hearStatus station m).role = { c.role with
        named := some station, watch := some c.tick, noWeigher := false, namedSeq := some m.seq
        behind := if c.role.state = .standby ∨ c.role.state = .repeating then m.seq != c.load.seq else c.role.behind }
      ∧ c.HearsStatus (c.hearStatus station m) := by
  have hn := (c.nameStation_eq station).1 h
  have hr : (c.nameStation station).role =
      { c.role with named := some station, watch := some c.tick, noWeigher := false } := by simp [hn]
  have hl : (c.nameStation station).load = c.load := by simp [hn]
  have he : c.hearStatus station m = (c.nameStation station).noteStatus m.seq := by
    simp [Chip.hearStatus, hst, hr]
  rw [he]
  refine ⟨by rw [Chip.noteStatus_eq, hl, hr], ?_⟩
  rw [Chip.noteStatus_eq]
  refine Chip.HearsStatus.then_role ?_ _
  rw [hn]
  exact c.hearsStatus_refresh _

/-- Every other status but CALIBRATING of the named station: that of the named one is compared with the mirror (R113). -/
theorem Chip.hearStatus_notes (station : Nat) (m : StatusMsg) (c : Chip)
    (h : ¬(m.state = .active ∧ ∀ n, c.role.named = some n → station ≤ n))
    (hc : ¬(m.state = .calibrating ∧ c.role.named = some station)) :
    c.hearStatus station m = if c.role.named = some station then c.noteStatus m.seq else c := by
  unfold Chip.hearStatus
  cases hst : m.state with
  | active =>
    have hn : ¬∀ n, c.role.named = some n → station ≤ n := fun hn => h ⟨hst, hn⟩
    simp only [(c.nameStation_eq station).2 hn]
  | calibrating =>
    have hne : ¬c.role.named = some station := fun hn => hc ⟨hst, hn⟩
    simp only [if_neg hne]
  | listen => rfl
  | standby => rfl
  | repeating => rfl
  | mute => rfl

/-- Settles O32: the peer table, then the naming or the comparison. -/
theorem weigherStatusIsHeard : Obligations.WeigherStatusIsHeard := by
  unfold Obligations.WeigherStatusIsHeard
  intro s src dst data hears hlen
  refine ⟨fun hno => ?_, fun st hst hact hcal => ?_⟩
  · refine gives_family _ s 0x20 src dst data .weigherStatus _ rfl hears rfl rfl rfl ?_
    simp only [Chip.consumeInRun, readStatus_long data hlen, RoleState.ofCode_none _ hno]
    exact s.chip.onlyHeard_untaken
  · refine gives_weigherStatus s src dst data st _ hears hlen hst ?_
    obtain ⟨c1, h1⟩ : ∃ c1, c1 = (s.chip.mapLink Link.runEnded).mapRole fun r =>
      { r with peers := hearPeer src.toNat st s.chip.tick r.peers } := ⟨_, rfl⟩
    have hhear : (s.chip.mapLink Link.runEnded).weigherStatus src ⟨st, byteAt data 5⟩ =
        c1.hearStatus src.toNat ⟨st, byteAt data 5⟩ := by
      have hne : ¬c1.role.state = .active := by rw [h1]; exact hact
      rw [h1] at hne ⊢
      exact if_neg hne
    rw [hhear]
    have hnamed : c1.role.named = s.chip.role.named := by rw [h1]; rfl
    have hpeers : c1.role.peers = hearPeer src.toNat st s.chip.tick s.chip.role.peers := by rw [h1]; rfl
    have hlink1 : c1.link = s.chip.link.runEnded := by rw [h1]; rfl
    obtain ⟨p1, p2, p3⟩ := hearPeer_facts src.toNat st s.chip.tick s.chip.role.peers
    rw [← hpeers] at p1 p2 p3
    have honly1 : s.chip.onlyChanges c1 [.link, .role] := by
      rw [h1]
      exact ((s.chip.onlyChanges_mapLink _).mono (by simp)).trans ((Chip.onlyChanges_role _ _).mono (by simp))
    have hquiet : c1.alarm = s.chip.alarm ∧ c1.panel = s.chip.panel := by rw [h1]; exact ⟨rfl, rfl⟩
    by_cases hnames : st = .active ∧ ∀ n, s.chip.role.named = some n → src.toNat ≤ n
    · obtain ⟨hrole, hd⟩ := c1.hearStatus_names src.toNat ⟨st, byteAt data 5⟩ hnames.1 (hnamed ▸ hnames.2)
      have hp : (c1.hearStatus src.toNat ⟨st, byteAt data 5⟩).settleLink.role.peers = c1.role.peers :=
        (congrArg RoleArbiter.peers hrole :)
      rw [hp]
      refine ⟨p1, p2, p3, fun _ => hrole.trans ?_, fun hn => absurd hnames hn, fun hn => absurd hnames hn,
        fun hn => absurd hnames hn,
        ((honly1.mono (by simp)).trans (hd.only.mono (by simp))).settleLink (by simp), fun b hb => ?_, ?_,
        Chip.onlyHeard_settleLink (hd.link.trans hlink1)⟩
      · rw [h1]
        rfl
      · exact (hd.alarm b hb).trans (by rw [hquiet.1])
      · exact Chip.onlyBuzzer_trans _ c1 _ (Chip.onlyBuzzer_of_eq hquiet.2) hd.buz
    · have hnote := c1.hearStatus_notes src.toNat ⟨st, byteAt data 5⟩ (hnamed ▸ hnames) (hnamed ▸ hcal)
      rw [hnote]
      have honly : ∀ r : RoleArbiter, s.chip.onlyChanges ({ c1 with role := r } : Chip).settleLink [.link, .role] := by
        intro r
        exact (honly1.trans ((c1.onlyChanges_role r).mono (by simp))).settleLink (by simp)
      by_cases hsrc : c1.role.named = some src.toNat
      · rw [if_pos hsrc, Chip.noteStatus_eq]
        refine ⟨p1, p2, p3, fun h => absurd h hnames, fun _ _ => ?_, fun _ hn => absurd (hnamed ▸ hsrc) hn,
          fun _ => honly _, (honly _).mono (by simp), fun b _ => ?_, Chip.onlyBuzzer_of_eq hquiet.2,
          Chip.onlyHeard_settleLink hlink1⟩
        · rw [h1]
          rfl
        · exact congrArg (AlarmUnit.get · b) hquiet.1
      · rw [if_neg hsrc]
        refine ⟨p1, p2, p3, fun h => absurd h hnames, fun _ hn => absurd (hnamed ▸ hn) hsrc, fun _ _ => ?_,
          fun _ => honly c1.role, (honly c1.role).mono (by simp), fun b _ => ?_, Chip.onlyBuzzer_of_eq hquiet.2,
          Chip.onlyHeard_settleLink hlink1⟩
        · rw [h1]
          rfl
        · exact congrArg (AlarmUnit.get · b) hquiet.1

end Sys2Proof.Machine

/-! SUPPORT and PROOFS. The yielding to a lower station, the loss of the named station, the end of LISTEN (R107, R108,
R110-R112, R117). -/

namespace Sys2Proof.Machine

set_option Elab.async false

/-! ## Yielding (R110) -/

/-- In a part that is not ACTIVE the slot of TRUCK STATUS is not written. -/
theorem Chip.raiseSeq_link_quiet (c : Chip) (h : c.role.state ≠ .active) : c.raiseSeq.link = c.link := by
  simp [Chip.raiseSeq, Chip.writeTruckSlot, Chip.isActive, h]

/-- A close YIELDED queues nothing, and in a part that is not ACTIVE it writes no slot. -/
theorem Chip.yieldRecord_link (c : Chip) (h : c.role.state ≠ .active) : c.yieldRecord.link = c.link := by
  have hclose : (c.closeRecord .yielded).link = c.link := by
    unfold Chip.closeRecord
    cases c.load.record with
    | none => rfl
    | some r =>
      simp only [Chip.removeRecord]
      rw [Chip.raiseSeq_link_quiet]
      · split <;> simp [Chip.recordSummary, Chip.setRecord]
      · split <;> simpa [Chip.recordSummary, Chip.setRecord] using h
  unfold Chip.yieldRecord
  split
  · rfl
  · exact hclose

/-- A part that leaves its role for STANDBY, the new role's items as g says. -/
def Chip.toStandby (g : RoleArbiter → RoleArbiter) (c : Chip) : Chip := (c.leaveRole.setRole .standby).mapRole g

theorem Chip.toStandby_onlyChanges (g : RoleArbiter → RoleArbiter) (c : Chip) :
    c.onlyChanges (c.toStandby g) [.link, .trk, .load, .role] := by
  intro b hb
  cases b <;> simp_all [Chip.sameAt, Chip.toStandby]

/-- The role left, with the state, the pairs and the marks that every exit leaves. -/
theorem Chip.toStandby_facts (g : RoleArbiter → RoleArbiter) (c : Chip) :
    (c.toStandby g).role =
        g { c.role with state := .standby, pairing := [], behind := false, noWeigher := false }
      ∧ (c.toStandby g).load = { c.load with refreshTimer := none, pollTimer := none }
      ∧ (c.toStandby g).link = (if c.role.state = .active then c.link.emptyT else c.link) := by
  obtain ⟨hr, hl, hk⟩ := c.leaveRole_facts
  exact ⟨by simp [Chip.toStandby, Chip.setRole, hr], by simp [Chip.toStandby, hl], by simp [Chip.toStandby, hk]⟩

/-- Blocks that stand between two parts that differ in link and role. -/
theorem Chip.onlyChanges.blocks {c d : Chip} {bs : List Block} (h : c.onlyChanges d bs)
    (hs : bs ⊆ [.link, .trk, .load, .role]) :
    d.sup = c.sup ∧ d.tick = c.tick ∧ d.inp = c.inp ∧ d.pins = c.pins ∧ d.eng = c.eng ∧ d.cal = c.cal
      ∧ d.store = c.store := by
  have h' := h.mono hs
  exact ⟨h' .sup (by simp), h' .tick (by simp), h' .inp (by simp), h' .pins (by simp), h' .eng (by simp),
    h' .cal (by simp), h' .store (by simp)⟩

/-- A change of link and arbiter alone. -/
theorem Chip.onlyChanges_linkRole (c : Chip) (l : Link) (r : RoleArbiter) :
    c.onlyChanges { c with link := l, role := r } [.link, .role] := by
  intro b hb
  cases b <;> simp_all [Chip.sameAt]

/-- The arbiter's items of a part that yields to a station. -/
def RoleArbiter.yields (station : Nat) (now : Tick) (r : RoleArbiter) : RoleArbiter :=
  { r with named := some station, watch := some now }

/-- Settles O33: the yielding is an entry to STANDBY, its own status a write of the slot. -/
theorem lowerActiveStationTakesOver : Obligations.LowerActiveStationTakesOver := by
  unfold Obligations.LowerActiveStationTakesOver
  intro s src dst data st hears hlen hst hact
  obtain ⟨-, hrun, -⟩ := id hears
  refine gives_weigherStatus s src dst data st _ hears hlen hst ?_
  obtain ⟨ps, hps⟩ : ∃ ps, ps = hearPeer src.toNat st s.chip.tick s.chip.role.peers := ⟨_, rfl⟩
  obtain ⟨c1, h1⟩ : ∃ c1 : Chip, c1 = { s.chip with
      link := s.chip.link.runEnded, role := { s.chip.role with peers := ps } } := ⟨_, rfl⟩
  have hstation : c1.link.station = s.chip.link.station := by rw [h1]; simp
  have hhear : (s.chip.mapLink Link.runEnded).weigherStatus src ⟨st, byteAt data 5⟩ =
      if st = .active then
        if src.toNat < c1.link.station then c1.yieldTo src.toNat (byteAt data 5) else c1.writeStatus
      else c1 := by
    rw [h1, hps]
    exact if_pos hact
  rw [hhear, hstation]
  refine ⟨fun ha hlow => ?_, fun ha hhigh => ?_, fun hn => ?_⟩
  · rw [if_pos ha, if_pos hlow]
    obtain ⟨c0, h0⟩ : ∃ c0, c0 = c1.toStandby (RoleArbiter.yields src.toNat c1.tick) := ⟨_, rfl⟩
    obtain ⟨hrole, hload, hlink⟩ := c1.toStandby_facts (RoleArbiter.yields src.toNat c1.tick)
    have hblocks := (c1.toStandby_onlyChanges (RoleArbiter.yields src.toNat c1.tick)).blocks (by simp)
    have he : c1.yieldTo src.toNat (byteAt data 5) = (c0.yieldRecord.compareMirror (byteAt data 5)).writeStatus := by
      rw [h0]
      rfl
    rw [← h0] at hrole hload hlink hblocks
    rw [he]
    rw [h1] at hrole hload hlink hblocks
    obtain ⟨hstand, hr⟩ := Chip.standby_takes s.chip c0 hrun (by rw [hrole]; rfl) (by rw [hrole]; rfl) (by rw [hload])
      hblocks (Chip.compareMirror (byteAt data 5)) (fun x => ⟨_, _, rfl⟩)
    have hy : c0.yieldRecord.role = { c0.role with mirrored := true } := c0.yieldRecord_facts.1
    have hquiet : c0.role.state ≠ .active := by rw [hrole]; simp [RoleArbiter.yields]
    have hw := Chip.writeStatus_sends (c0.yieldRecord.compareMirror (byteAt data 5))
      (by simp [Chip.compareMirror, Chip.inRun, hblocks.1, hrun])
      (by simp [Chip.compareMirror, hy, hrole, RoleArbiter.yields, RoleState.sends])
    have hslot : (c0.yieldRecord.compareMirror (byteAt data 5)).link.tslot = none
        ∧ (c0.yieldRecord.compareMirror (byteAt data 5)).link.queue = s.chip.link.queue := by
      simp only [Chip.compareMirror, Chip.mapRole_link, c0.yieldRecord_link hquiet, hlink, if_pos hact]
      exact ⟨rfl, by simp⟩
    refine ⟨hstand, ?_, ?_, ?_, ?_, ?_, ?_⟩
    · rw [hr]
      simp [Chip.compareMirror, hy, hrole, RoleArbiter.yields]
    · rw [hr]
      simp [Chip.compareMirror, hy, hrole, RoleArbiter.yields]
    · rw [hr]
      rfl
    · rw [hr, hw]
      rfl
    · rw [hw]
      exact (Link.settle_tslot _ _ _ rfl).trans hslot.1
    · rw [hw]
      simpa using hslot.2
  · have hin : c1.inRun = true := by rw [h1]; simp [Chip.inRun, hrun]
    have hs1 : c1.role.state.sends = true := by rw [h1]; simp [hact, RoleState.sends]
    rw [if_pos ha, if_neg (by omega), Chip.writeStatus_sends c1 hin hs1, ← Chip.maySend_of_sends (c := c1)
      (by rw [h1]; exact hrun) hs1, h1]
    exact ⟨rfl, rfl, (s.chip.onlyChanges_linkRole _ _).settleLink (by simp)⟩
  · rw [if_neg hn, h1]
    exact ⟨rfl, Chip.onlyHeard_settleLink rfl, (s.chip.onlyChanges_linkRole _ _).settleLink (by simp)⟩

/-! ## The end of LISTEN (R108) -/

/-- Settles O35: an entry to ACTIVE, or to STANDBY with a station named. -/
theorem listenExpirySettlesTheRole : Obligations.ListenExpirySettlesTheRole := by
  unfold Obligations.ListenExpirySettlesTheRole
  rintro s ⟨hup, hrun⟩ hlis hdue
  have hexp : s.chip.listenTimerExpiry =
      (if s.chip.role.named.isSome then s.chip.enterStandby else s.chip.enterActive).settleLink :=
    if_pos (due_of_ranOut _ _ _ hdue)
  refine ⟨fun hn => ?_, fun n hn => ?_⟩ <;> refine gives_whenUp _ s Chip.listenTimerExpiry _ rfl hup ?_ <;> rw [hexp]
  · simp only [hn]
    exact Chip.enterActive_takes s.chip s.chip hrun rfl rfl rfl rfl
  · simp only [hn]
    obtain ⟨c0, h0⟩ : ∃ c0, c0 = s.chip.toStandby fun r => { r with listen := none } := ⟨_, rfl⟩
    obtain ⟨hrole, hload, -⟩ := s.chip.toStandby_facts fun r => { r with listen := none }
    have hblocks := (s.chip.toStandby_onlyChanges fun r => { r with listen := none }).blocks (by simp)
    rw [← h0] at hrole hload hblocks
    have he : s.chip.enterStandby = c0.yieldRecord.writeStatus := by
      rw [h0]
      rfl
    obtain ⟨hstand, hr⟩ := Chip.standby_takes s.chip c0 hrun (by rw [hrole]) (by rw [hrole]) hload hblocks id
      (fun x => ⟨x.role.namedSeq, x.role.behind, rfl⟩)
    have hy : c0.yieldRecord.role = { c0.role with mirrored := true } := c0.yieldRecord_facts.1
    simp only [id_eq] at hstand hr
    rw [hy, hrole] at hr
    simp only [Option.isSome_some, if_true, he]
    exact ⟨hstand, by rw [hr]; exact hn, by rw [hr], by rw [hr]⟩

/-! ## The loss of the named station (R107, R112, R117) -/

/-- A part that a status has been heard in: link, peers, comparison with the mirror. -/
def Chip.afterStatus (l : Link) (ps : List Peer) (q : Option (BitVec 8)) (b : Bool) (c : Chip) : Chip :=
  { c with link := l, role := { c.role with peers := ps, namedSeq := q, behind := b } }

section Lost

variable (c : Chip) (l : Link) (ps : List Peer) (q : Option (BitVec 8)) (b : Bool)

/-- With no station to fall back on a STANDBY part takes over. -/
theorem Chip.watchExpired_standby (hrun : c.sup.power = .run) (h : fallbackPeer c.tick ps = none)
    (hs : c.role.state = .standby) : c.tookActive (c.afterStatus l ps q b).watchExpired.settleLink := by
  have he : (c.afterStatus l ps q b).watchExpired =
      ((c.afterStatus l ps q b).mapRole fun r => { r with named := none, namedSeq := none, watch := none }).enterActive := by
    simp only [Chip.watchExpired, Chip.afterStatus, h, Chip.mapRole_role, hs]
  rw [he]
  exact Chip.enterActive_takes c _ hrun rfl rfl rfl rfl

/-- With none a REPEATER raises NO WEIGHER. -/
theorem Chip.watchExpired_repeating (h : fallbackPeer c.tick ps = none) (hs : c.role.state = .repeating) :
    (c.afterStatus l ps q b).watchExpired = (({ c with
      link := l, role := { c.role with
        peers := ps, named := none, watch := none, namedSeq := none, noWeigher := true, behind := b } } : Chip).refresh
      .noWeigher) := by
  simp only [Chip.watchExpired, Chip.afterStatus, h, Chip.mapRole_role, hs]
  rfl

/-- With none the others wait. -/
theorem Chip.watchExpired_waits (h : fallbackPeer c.tick ps = none) (h1 : c.role.state ≠ .standby)
    (h2 : c.role.state ≠ .repeating) :
    (c.afterStatus l ps q b).watchExpired = { c with
      link := l, role := { c.role with peers := ps, named := none, watch := none, namedSeq := none, behind := b } } := by
  cases hs : c.role.state <;> simp_all [Chip.watchExpired, Chip.afterStatus, Chip.mapRole]

/-- With one to fall back on the part names it. -/
theorem Chip.watchExpired_named (p : Peer) (h : fallbackPeer c.tick ps = some p) :
    (c.afterStatus l ps q b).watchExpired = { c with
      link := l, role := { c.role with
        peers := ps, named := some p.station, watch := some p.at_, namedSeq := none, behind := b } } := by
  simp only [Chip.watchExpired, Chip.afterStatus, h]
  rfl

end Lost

/-- The loss of the named station as the role states take it, MIRROR BEHIND as it is left. -/
def Chip.losesStation (c : Chip) (behind : Bool) (d : Chip) : Prop :=
  (c.role.state = .standby → c.tookActive d)
    ∧ (c.role.state = .repeating →
        d.role = { c.role with
          peers := d.role.peers, named := none, watch := none, namedSeq := none, noWeigher := true, behind := behind }
        ∧ d.alarm.noWeigher.cond = true ∧ c.onlyChanges d [.link, .role, .alarm, .panel]
        ∧ c.onlyAlarm .noWeigher d ∧ c.onlyBuzzer d)
    ∧ (c.role.state ≠ .standby → c.role.state ≠ .repeating →
        d.role = { c.role with peers := d.role.peers, named := none, watch := none, namedSeq := none }
        ∧ c.onlyChanges d [.link, .role])

theorem Chip.watchExpired_loses (c : Chip) (l : Link) (ps : List Peer) (q : Option (BitVec 8)) (b : Bool)
    (hrun : c.sup.power = .run) (h : fallbackPeer c.tick ps = none)
    (hb : c.role.state ≠ .standby → c.role.state ≠ .repeating → b = c.role.behind) :
    c.losesStation b (c.afterStatus l ps q b).watchExpired.settleLink := by
  refine ⟨fun hs => c.watchExpired_standby l ps q b hrun h hs, fun hs => ?_, fun h1 h2 => ?_⟩
  · rw [c.watchExpired_repeating l ps q b h hs]
    obtain ⟨c1, h1⟩ : ∃ c1 : Chip, c1 = { c with
      link := l, role := { c.role with
        peers := ps, named := none, watch := none, namedSeq := none, noWeigher := true, behind := b } } := ⟨_, rfl⟩
    rw [← h1]
    have hin : c1.inRun = true := by rw [h1]; simp [Chip.inRun, hrun]
    have honly : c.onlyChanges c1 [.link, .role] := by
      rw [h1]
      exact c.onlyChanges_linkRole _ _
    have hrole : (c1.refresh .noWeigher).settleLink.role = c1.role := by simp [Chip.settleLink]
    refine ⟨?_, ?_, ?_, fun a ha => ?_, ?_⟩
    · rw [hrole, h1]
    · have hc := Chip.refresh_cond .noWeigher c1 hin
      rw [show c1.cond .noWeigher = true by rw [h1]; rfl] at hc
      exact hc
    · exact Chip.onlyChanges.settleLink ((honly.mono (by simp)).trans ((Chip.refresh_onlyChanges _ _).mono (by simp)))
        (by simp)
    · exact (Chip.refresh_others .noWeigher a c1 ha).trans (by rw [h1])
    · exact Chip.onlyBuzzer_trans _ c1 _ (by rw [h1]; rfl) (Chip.refresh_panel .noWeigher c1)
  · rw [c.watchExpired_waits l ps q b h h1 h2, hb h1 h2]
    exact ⟨rfl, (c.onlyChanges_linkRole _ _).settleLink (by simp)⟩

/-- A peer of the table after a status is the one heard, or one of another station that stood in it. -/
theorem hearPeer_mem (station : Nat) (st : RoleState) (now : Tick) (ps : List Peer) (p : Peer)
    (h : p ∈ hearPeer station st now ps) : p = ⟨station, st, now⟩ ∨ p ∈ ps ∧ p.station ≠ station := by
  obtain ⟨h1, h2, h3⟩ := hearPeer_facts station st now ps
  by_cases hex : ∃ q ∈ ps, q.station = station
  · rw [h1 hex] at h
    obtain ⟨q, hq, rfl⟩ := List.mem_map.mp h
    by_cases hs : q.station = station
    · exact .inl (if_pos hs)
    · rw [if_neg hs]
      exact .inr ⟨hq, hs⟩
  · have hno : ∀ q ∈ ps, q.station ≠ station := fun q hq hs => hex ⟨q, hq, hs⟩
    by_cases hl : ps.length < 8
    · rw [h2 hno hl] at h
      rcases List.mem_append.mp h with h | h
      · exact .inr ⟨h, hno p h⟩
      · exact .inl (List.mem_singleton.mp h)
    · obtain ⟨old, -, -, he⟩ := h3 hno (by omega)
      rw [he] at h
      obtain ⟨q, hq, rfl⟩ := List.mem_map.mp h
      by_cases hs : q.station = old.station
      · exact .inl (if_pos hs)
      · rw [if_neg hs]
        exact .inr ⟨hq, hno q hq⟩

/-- The peer table stands through an entry to ACTIVE. -/
theorem Chip.enterActive_peers (c : Chip) : c.enterActive.role.peers = c.role.peers := by
  have hstatus (x : Chip) : x.writeStatus.role.peers = x.role.peers := by
    unfold Chip.writeStatus
    split <;> rfl
  simp [Chip.enterActive, hstatus, Chip.adoptRecord_role, Chip.clearCrossCheck, Chip.setRole, c.leaveRole_facts.1]

theorem Chip.watchExpired_peers (c : Chip) : c.watchExpired.role.peers = c.role.peers := by
  unfold Chip.watchExpired
  cases fallbackPeer c.tick c.role.peers with
  | some p => rfl
  | none => cases hs : c.role.state <;> simp [hs, Chip.enterActive_peers]

/-- CALIBRATING from the named station is compared, then taken as the expiry (R107, R113). -/
theorem Chip.weigherStatus_calibrating (src : Byte) (seq : BitVec 8) (c : Chip) (hact : c.role.state ≠ .active)
    (hn : c.role.named = some src.toNat) :
    (c.mapLink Link.runEnded).weigherStatus src ⟨.calibrating, seq⟩ =
      (c.afterStatus c.link.runEnded (hearPeer src.toNat .calibrating c.tick c.role.peers) (some seq)
        (if c.role.state = .standby ∨ c.role.state = .repeating then seq != c.load.seq else c.role.behind)).watchExpired := by
  obtain ⟨c1, h1⟩ : ∃ c1, c1 = (c.mapLink Link.runEnded).mapRole fun r =>
      { r with peers := hearPeer src.toNat .calibrating c.tick r.peers } := ⟨_, rfl⟩
  have he : (c.mapLink Link.runEnded).weigherStatus src ⟨.calibrating, seq⟩ = (c1.noteStatus seq).watchExpired := by
    rw [h1]
    exact (if_neg hact).trans (if_pos hn)
  rw [he, Chip.noteStatus_eq, h1]
  rfl

/-- Settles O34: the fallback by its specification, else the loss. -/
theorem watchExpiryLosesTheStation : Obligations.WatchExpiryLosesTheStation := by
  unfold Obligations.WatchExpiryLosesTheStation
  rintro s ⟨hup, hrun⟩ hact recent lost
  have hexp (h : ranOut 1000 s.chip.role.watch s.chip.tick) :
      s.chip.watchTimerExpiry = s.chip.watchExpired.settleLink := if_pos (due_of_ranOut _ _ _ h)
  have hself : s.chip = s.chip.afterStatus s.chip.link s.chip.role.peers s.chip.role.namedSeq s.chip.role.behind := rfl
  refine ⟨fun hdue => ⟨fun ⟨r, hr, hrec⟩ => ?_, fun hno => ?_⟩, ?_⟩
  · refine gives_whenUp _ s Chip.watchTimerExpiry _ rfl hup ?_
    obtain ⟨hsome, hnone⟩ := fallbackPeer_spec s.chip.tick s.chip.role.peers
    cases hf : fallbackPeer s.chip.tick s.chip.role.peers with
    | none => exact absurd hrec (hnone hf r hr)
    | some p =>
      obtain ⟨hmem, hst, hage, hmin⟩ := hsome p hf
      have he := s.chip.watchExpired_named s.chip.link s.chip.role.peers s.chip.role.namedSeq s.chip.role.behind p hf
      rw [← hself] at he
      rw [hexp hdue, he]
      exact ⟨p, hmem, ⟨hst, hage⟩, hmin, rfl, rfl, (s.chip.onlyChanges_linkRole _ _).settleLink (by simp)⟩
  · refine gives_whenUp _ s Chip.watchTimerExpiry _ rfl hup ?_
    obtain ⟨hsome, -⟩ := fallbackPeer_spec s.chip.tick s.chip.role.peers
    have hf : fallbackPeer s.chip.tick s.chip.role.peers = none := by
      cases hf : fallbackPeer s.chip.tick s.chip.role.peers with
      | none => rfl
      | some p =>
        obtain ⟨hmem, hst, hage, -⟩ := hsome p hf
        exact absurd ⟨hst, hage⟩ (hno p hmem)
    have hl := s.chip.watchExpired_loses s.chip.link s.chip.role.peers s.chip.role.namedSeq s.chip.role.behind hrun hf
      fun _ _ => rfl
    rw [← hself] at hl
    rw [hexp hdue]
    exact ⟨hl, s.chip.watchExpired_peers⟩
  · intro src dst data hears hlen hcal hnamed others
    obtain ⟨b, hb⟩ : ∃ b, b = if s.chip.role.state = .standby ∨ s.chip.role.state = .repeating then
        byteAt data 5 != s.chip.load.seq else s.chip.role.behind := ⟨_, rfl⟩
    obtain ⟨ps, hps⟩ : ∃ ps, ps = hearPeer src.toNat .calibrating s.chip.tick s.chip.role.peers := ⟨_, rfl⟩
    have hear := s.chip.weigherStatus_calibrating src (byteAt data 5) hact hnamed
    rw [← hb, ← hps] at hear
    obtain ⟨hsome, hnone⟩ := fallbackPeer_spec s.chip.tick ps
    have hother (p : Peer) (hp : p ∈ ps) (hrec : recent p) : others p := by
      rw [hps] at hp
      rcases hearPeer_mem _ _ _ _ _ hp with rfl | ⟨hm, hs⟩
      · exact absurd hrec.1 (by simp)
      · exact ⟨hm, hs, hrec⟩
    refine ⟨fun hno => ?_, fun hex ⟨r, hr⟩ => ?_⟩ <;>
      refine gives_weigherStatus s src dst data .calibrating _ hears hlen hcal ?_ <;> rw [hear]
    · have hf : fallbackPeer s.chip.tick ps = none := by
        cases hf : fallbackPeer s.chip.tick ps with
        | none => rfl
        | some p =>
          obtain ⟨hmem, hst, hage, -⟩ := hsome p hf
          exact absurd (hother p hmem ⟨hst, hage⟩) (hno p)
      have hl := s.chip.watchExpired_loses s.chip.link.runEnded ps (some (byteAt data 5)) b hrun hf
        fun h1 h2 => hb.trans (if_neg fun h => h.elim h1 h2)
      by_cases hm : s.chip.role.state = .standby ∨ s.chip.role.state = .repeating
      · rw [if_pos hm] at hb
        rw [← hb]
        exact hl
      · exact ⟨fun h => absurd (.inl h) hm, fun h => absurd (.inr h) hm, hl.2.2⟩
    · have hmap := (hearPeer_facts src.toNat .calibrating s.chip.tick s.chip.role.peers).1 hex
      rw [← hps] at hmap
      have hstays (q : Peer) (hq : others q) : q ∈ ps := by
        rw [hmap]
        exact List.mem_map.mpr ⟨q, hq.1, if_neg hq.2.1⟩
      cases hf : fallbackPeer s.chip.tick ps with
      | none => exact absurd hr.2.2 (hnone hf r (hstays r hr))
      | some p =>
        obtain ⟨hmem, hst, hage, hmin⟩ := hsome p hf
        rw [s.chip.watchExpired_named s.chip.link.runEnded ps (some (byteAt data 5)) b p hf]
        refine ⟨p, hother p hmem ⟨hst, hage⟩, fun q hq => hmin q (hstays q hq) hq.2.2, ?_,
          Chip.onlyHeard_settleLink rfl, (s.chip.onlyChanges_linkRole _ _).settleLink (by simp)⟩
        rw [← hmap, ← hb]
        rfl

end Sys2Proof.Machine

/-! SUPPORT. What the receiver drops, what it counts, and what it answers in DOZE (R150, R153, R154, R182). -/

namespace Sys2Proof.Machine

set_option Elab.async false

/-! ## Telegrams that no consumer takes (R153) -/

/-- Every telegram command is the reception of its telegram, as an effect. -/
theorem gives_telegram (i : Instr) (s : State) (src dst : Byte) (data : List Byte) (P : Chip → Prop)
    (h : telegramOf i = some (src, dst, data)) (hw : i.wf = true) (hr : s.chip.receives)
    (hP : P ((s.chip.mapLink Link.runEnded).takeWhole ⟨codeOf i, src, dst, data⟩).settleLink) : Gives i s P := by
  obtain ⟨he, hf⟩ := exec_telegram s i src dst data h hw
  refine gives_act i s _ P he ?_
  rwa [Chip.receive_whole _ _ _ _ _ hr hf]

/-- A telegram of another station whose kind, where the filter accepts it, no consumer takes moves nothing. -/
theorem Chip.takeWhole_untaken (c : Chip) (t : WholeTelegram)
    (hs : ¬(c.link.station ≠ 0 ∧ t.src.toNat = c.link.station ∧ c.inRun = true))
    (hk : ∀ k, c.filter t = some k → c.consume k t.src t.dst t.data = c) : c.takeWhole t = c := by
  rw [Chip.takeWhole, if_neg hs]
  cases hf : c.filter t with
  | none => rfl
  | some k => exact hk k hf

/-- The filter passes no other destination, no other source, and the kind of the telegram's code alone (Table 9-3). -/
theorem Chip.filter_some {c : Chip} {t : WholeTelegram} {k : Kind} (h : c.filter t = some k) :
    (t.dst = 0 ∨ t.dst.toNat = c.link.station) ∧ 1 ≤ t.src.toNat ∧ t.src.toNat ≤ 31 ∧ Kind.ofCode t.kind = some k := by
  unfold Chip.filter at h
  split at h
  · cases h
  next hd =>
    split at h
    · cases h
    next hsrc =>
      refine ⟨?_, by omega, by omega, ?_⟩
      · by_cases h0 : t.dst = 0
        · exact Or.inl h0
        · exact Or.inr (Classical.byContradiction fun hn => hd ⟨h0, hn⟩)
      · cases hk : Kind.ofCode t.kind with
        | none => simp [hk] at h
        | some k' =>
          simp only [hk] at h
          split at h
          · cases h
          · split at h
            · cases h
            · exact h

/-! ## Data shorter than the layout (R182) -/

/-- The kind of a telegram command that passes tests 3 to 5 of the filter. -/
theorem Chip.passesKind_kind {c : Chip} {i : Instr} {src dst : Byte} {data : List Byte}
    (h : telegramOf i = some (src, dst, data)) (hp : c.passesKind i) :
    ∃ k, Kind.ofCode (codeOf i) = some k ∧ c.cfg.hears k src.toNat = true ∧ (k.isService = true → dst ≠ 0) := by
  cases i <;> simp only [telegramOf, Option.some.injEq, Prod.mk.injEq, reduceCtorEq] at h <;>
    obtain ⟨rfl, rfl, rfl⟩ := h
  case unknownKindTelegram => exact absurd hp id
  all_goals
    refine ⟨_, rfl, ?_, ?_⟩
    · simp_all [Chip.passesKind, Cfg.hears, Kind.channels, Cfg.source]
      try omega
    · simp_all [Chip.passesKind, Kind.isService]

theorem takeData_short {α : Type} {len : Nat} {d : List Byte} (read : List Byte → Option α) (h : d.length < len) :
    takeData len d read = .short := if_pos h

/-- A source of an angle channel names its angle. -/
theorem Cfg.angleSrc_of {c : Cfg} {n : Nat} (h : n = c.srcPrimary ∨ n = c.srcSecondary) :
    ∃ a, c.angleSrc n = some a := by
  unfold Cfg.angleSrc
  split
  · exact ⟨_, rfl⟩
  · next hne => exact ⟨_, if_pos ((h.resolve_left fun e => hne e.symm).symm)⟩

/-- The layout of the part that a COUNTER REPORT names (Table 12-2). -/
theorem reportLength_eq (data : List Byte) (src dst : Byte) :
    layoutOf (.counterReport src dst data) = reportLength (nat8 data 0) := by
  have h1 := byteAt_eq_iff data 0 1 (by omega)
  have h2 := byteAt_eq_iff data 0 2 (by omega)
  simp only [reportLength, layoutOf, ← h1, ← h2]
  rfl

/-- Data shorter than the layout of its kind is counted LENGTH by every consumer that reads it. -/
theorem Chip.consumeInRun_short (c : Chip) {i : Instr} {src dst : Byte} {data : List Byte} {k : Kind}
    (h : telegramOf i = some (src, dst, data)) (hp : c.passesKind i) (hl : data.length < layoutOf i)
    (hk : Kind.ofCode (codeOf i) = some k) : c.consumeInRun k src dst data = c.countShort := by
  cases i <;> simp only [telegramOf, Option.some.injEq, Prod.mk.injEq, reduceCtorEq] at h <;>
    obtain ⟨rfl, rfl, rfl⟩ := h
  case boomAngle src dst data =>
    obtain rfl : Kind.boomAngle = k := Option.some.inj hk
    obtain ⟨a, ha⟩ := Cfg.angleSrc_of hp
    simp only [Chip.consumeInRun, Chip.takeAngle, ha]
    exact congrArg (c.take · _) (takeData_short _ hl)
  case counterReport src dst data =>
    obtain rfl : Kind.counterReport = k := Option.some.inj hk
    exact congrArg (c.take · _) (takeData_short _ (reportLength_eq data src dst ▸ hl))
  case unknownKindTelegram => exact absurd hp id
  case counterRequest => exact absurd hl (Nat.not_lt_zero _)
  case diagReport => exact absurd hl (Nat.not_lt_zero _)
  case configStatus => exact absurd hl (Nat.not_lt_zero _)
  all_goals
    obtain rfl := Option.some.inj hk
    exact congrArg (c.take · _) (takeData_short _ hl)

/-- The length counter of a link that only settles with the receiver idle. -/
theorem Chip.countShort_settled (c : Chip) :
    (c.mapLink Link.runEnded).countShort.settleLink.link
      = { c.link.runEnded with length := min 65535 (c.link.length + 1) }.settle c.maySend := by
  have hl : c.link.runEnded.length = c.link.length := by
    unfold Link.runEnded Link.busTaken
    split <;> rfl
  have hc : c.link.runEnded.count .length = { c.link.runEnded with length := min 65535 (c.link.length + 1) } := by
    rw [← hl]
    rfl
  rw [← hc]
  rfl

/-- A part that is off, or sends, does not listen. -/
theorem Chip.receive_deaf (code src dst : Byte) (data : List Byte) (c : Chip)
    (h : c.link.rx = .off ∨ c.link.access = .send) : Chip.whenUp (Chip.receive code src dst data) c = c := by
  have hl : c.listening = false := by rcases h with h | h <;> simp [Chip.listening, h]
  have hr : Chip.receive code src dst data c = c := by simp [Chip.receive, hl]
  unfold Chip.whenUp
  split
  · exact hr
  all_goals rfl

/-- Settles O38: by what drops the telegram. -/
theorem unwantedTelegramsMoveNothing : Obligations.UnwantedTelegramsMoveNothing := by
  unfold Obligations.UnwantedTelegramsMoveNothing
  intro s i src dst data htg hwf
  refine ⟨fun hr hsrc hdrop => ?_, fun hears hp hl => ?_, fun kind hears hk => ?_, fun hup hskip hns hnd => ?_,
    fun hoff => ?_⟩
  · refine gives_telegram i s src dst data _ htg hwf hr ?_
    rw [Chip.takeWhole_untaken]
    · exact s.chip.onlyHeard_untaken
    · rintro ⟨h0, heq, -⟩
      rcases hsrc with h | h
      · exact h (by simpa using heq)
      · exact h0 (by simpa using h)
    · intro k hf
      obtain ⟨hd, h1, h31, hkind⟩ := Chip.filter_some hf
      have hdst : ¬(dst ≠ 0 ∧ dst.toNat ≠ s.chip.link.station) := by
        rintro ⟨h0, hn⟩
        exact hd.elim h0 fun h => hn (by simpa using h)
      rcases hdrop with h | h | h | h | rfl | rfl
      · exact absurd h hdst
      · simp [h] at h1
      · dsimp only at h31
        omega
      · rw [Chip.filter_rejects s.chip i src dst data htg hwf h] at hf
        cases hf
      · obtain rfl : Kind.diagReport = k := Option.some.inj hkind
        unfold Chip.consume
        split <;> rfl
      · obtain rfl : Kind.configStatus = k := Option.some.inj hkind
        unfold Chip.consume
        split <;> rfl
  · obtain ⟨k, hk, hh, hd⟩ := Chip.passesKind_kind htg hp
    obtain ⟨he, -⟩ := exec_telegram s i src dst data htg hwf
    refine gives_act i s _ _ he ?_
    rw [Chip.receive_consumes _ src dst data s.chip k hears hk hh hd,
      Chip.consumeInRun_short (s.chip.mapLink Link.runEnded) htg hp hl hk]
    exact ⟨s.chip.countShort_settled, Chip.onlyChanges_heard ((s.chip.mapLink _).onlyChanges_mapLink _) (by simp)⟩
  · refine gives_act _ s _ _ rfl ?_
    have he : Chip.receiveUnknown kind src dst data = Chip.receive kind src dst data := by
      funext c
      simp [Chip.receiveUnknown, hk]
    rw [he, Chip.receive_hears _ _ _ _ _ hears]
    have hf : (s.chip.mapLink Link.runEnded).filter ⟨kind, src, dst, data⟩ = none := by
      cases hf : (s.chip.mapLink Link.runEnded).filter ⟨kind, src, dst, data⟩ with
      | none => rfl
      | some k =>
        obtain ⟨-, -, -, h⟩ := Chip.filter_some hf
        cases h.symm.trans hk
    rw [hf]
    exact s.chip.onlyHeard_untaken
  · obtain ⟨he, hf⟩ := exec_telegram s i src dst data htg hwf
    refine gives_act i s _ _ he ?_
    rw [Chip.receive_skips _ _ _ _ _ hup hskip hnd hns hf]
    exact s.chip.onlyHeard_untaken
  · obtain ⟨he, -⟩ := exec_telegram s i src dst data htg hwf
    rw [he, State.act, Chip.receive_deaf _ _ _ _ _ hoff]

/-! ## DOZE and PEEK (R154) -/

/-- Outside RUN no telegram meets the test for station conflict (R152). -/
theorem Chip.not_conflict {c : Chip} (h : c.sup.power ≠ .run) (src : Byte) :
    ¬((c.mapLink Link.runEnded).link.station ≠ 0 ∧ src.toNat = (c.mapLink Link.runEnded).link.station
      ∧ (c.mapLink Link.runEnded).inRun = true) := by
  rintro ⟨-, -, hr⟩
  exact h (by simpa [Chip.inRun] using hr)

/-- In DOZE the own counters are offered in answer to a request addressed to this station. -/
theorem Chip.counterRequest_dozes (c : Chip) (src dst : Byte) (h : c.sup.power = .doze) (hd : dst ≠ 0)
    (hst : c.role.state = .active ∨ c.role.state = .standby ∨ c.role.state = .calibrating)
    (hq : c.link.queue.length ≤ 5) :
    (c.counterRequest src dst).link.queue = c.link.queue ++ c.ownCounters src := by
  have hans : c.counterAnswer src = c.ownCounters src := by
    rw [← c.ownReports_eq]
    rcases hst with h | h | h <;> simp [Chip.counterAnswer, h]
  simp only [Chip.counterRequest, h, if_neg hd, hans]
  refine Chip.offerAll_queue _ c (fun t ht => ?_) (by simpa [Chip.ownCounters] using hq)
  have hk : t.kind = .counterReport := by
    simp only [Chip.ownCounters, List.mem_cons, List.not_mem_nil, or_false] at ht
    rcases ht with rfl | rfl | rfl <;> rfl
  simp [Chip.takesOffer, h, hk]

/-- The command of a telegram of kind COUNTER REQUEST. -/
theorem counterRequest_of_code {i : Instr} {src dst : Byte} {data : List Byte}
    (h : telegramOf i = some (src, dst, data)) (hw : i.wf = true)
    (hk : Kind.ofCode (codeOf i) = some .counterRequest) : i = .counterRequest src dst data := by
  cases i <;> simp only [telegramOf, Option.some.injEq, Prod.mk.injEq, reduceCtorEq] at h <;>
    obtain ⟨rfl, rfl, rfl⟩ := h
  case counterRequest => rfl
  case unknownKindTelegram =>
    simp only [Instr.wf, Bool.and_eq_true, Bool.not_eq_true'] at hw
    cases (Kind.ofCode_unknown _ hw.2).symm.trans hk
  all_goals exact absurd hk (by simp [codeOf, Kind.ofCode, Kind.all, Kind.code])

/-- Settles O39: by the power state. -/
theorem dozeAnswersCounterRequests : Obligations.DozeAnswersCounterRequests := by
  unfold Obligations.DozeAnswersCounterRequests
  intro s i src dst data htg hwf hr
  refine ⟨fun hpow => ?_, fun hpow hi hd0 hdst h1 h31 hst hq => ?_⟩
  · refine gives_telegram i s src dst data _ htg hwf hr ?_
    rw [Chip.takeWhole_untaken]
    · exact s.chip.onlyHeard_untaken
    · refine Chip.not_conflict ?_ src
      rcases hpow with h | ⟨h, -⟩ <;> simp [h]
    · intro k hf
      obtain ⟨-, -, -, hkind⟩ := Chip.filter_some hf
      rcases hpow with hp | ⟨hp, hnot⟩
      · simp [Chip.consume, Chip.counterRequest, hp]
      · by_cases hk : k = .counterRequest
        · subst hk
          simp [Chip.consume, Chip.counterRequest, hp,
            hnot.resolve_left fun h => h (counterRequest_of_code htg hwf hkind)]
        · simp [Chip.consume, hp, hk]
  · subst hi
    refine gives_telegram _ s src dst data _ htg hwf hr ?_
    have hf : (s.chip.mapLink Link.runEnded).filter ⟨0x24, src, dst, data⟩ = some .counterRequest := by
      have hd : ¬(dst ≠ 0 ∧ dst.toNat ≠ (s.chip.mapLink Link.runEnded).link.station) := by
        rintro ⟨-, hn⟩
        exact hn (by simpa using hdst)
      have hs : ¬(src.toNat < 1 ∨ 31 < src.toNat) := by omega
      have hk : Kind.ofCode 0x24 = some .counterRequest := rfl
      simp only [Chip.filter, if_neg hd, if_neg hs, hk]
      rfl
    have htake : (s.chip.mapLink Link.runEnded).takeWhole ⟨0x24, src, dst, data⟩
        = (s.chip.mapLink Link.runEnded).counterRequest src dst := by
      rw [Chip.takeWhole, if_neg (Chip.not_conflict (by simp [hpow]) src), hf]
      simp [Chip.consume, hpow]
    show _ ∧ s.chip.onlyChanges ((s.chip.mapLink Link.runEnded).takeWhole ⟨0x24, src, dst, data⟩).settleLink _
    rw [show codeOf _ = 0x24 from rfl, htake]
    have hcq := (s.chip.mapLink Link.runEnded).counterRequest_dozes src dst hpow hd0 hst (by simpa using hq)
    refine ⟨?_, Chip.onlyChanges_heard (Chip.counterRequest_onlyChanges _ src dst) (by simp)⟩
    have hs : ∀ x : Chip, x.settleLink.link.queue = x.link.queue := by simp
    exact (hs _).trans (hcq.trans (congrArg (· ++ s.chip.ownCounters src) (by simp)))

end Sys2Proof.Machine

/-! SUPPORT. Runs that fail a receive test, and the settle gap that ends them (R150, R160, Table 9-2). -/

namespace Sys2Proof.Machine

set_option Elab.async false

theorem Link.busTaken_count (e : RxError) (l : Link) : (l.count e).busTaken = l.busTaken.count e := by
  have ha : (l.count e).access = l.access := by cases e <;> rfl
  unfold Link.busTaken
  rw [ha]
  split <;> cases e <;> rfl

theorem Link.runEnded_count (e : RxError) (l : Link) : (l.count e).runEnded = l.runEnded.count e := by
  unfold Link.runEnded
  rw [Link.busTaken_count]
  cases e <;> rfl

/-- What a failed run leaves (Table 9-2): counted where the receiver takes runs; FORM leaves SKIP, the others end it. -/
theorem Link.runFailed_form (l : Link) (h : l.skips = false) :
    l.runFailed .form = { l.busTaken.count .form with rx := .skip, gapDone := false } := by
  rw [← Link.busTaken_count]
  simp [Link.runFailed, h]

theorem Link.runFailed_form_skips (l : Link) (h : l.skips = true) :
    l.runFailed .form = { l.busTaken with rx := .skip, gapDone := false } := by
  simp [Link.runFailed, h]

theorem Link.runFailed_ends (l : Link) (e : RxError) (he : e ≠ .form) :
    l.runFailed e = if l.skips = true then l.runEnded else l.runEnded.count e := by
  rw [← Link.runEnded_count]
  cases e with
  | form => exact absurd rfl he
  | length | check => cases hs : l.skips <;> simp [Link.runFailed, hs]

/-- The part settles on a link and changes nothing else. -/
theorem gives_settled (i : Instr) (s : State) (f : Chip → Chip) (g : Link → Link) (hi : effect i = Chip.whenUp f)
    (hup : s.chip.sup.life = .up) (hf : f s.chip = (s.chip.mapLink g).settleLink) :
    Gives i s fun d => d.link = (g s.chip.link).settle s.chip.maySend ∧ s.chip.onlyChanges d [.link] := by
  refine gives_whenUp i s f _ hi hup ?_
  rw [hf]
  exact ⟨rfl, (s.chip.onlyChanges_mapLink g).settleLink (by simp)⟩

/-- A run that fails a test while the part listens (R150). -/
theorem Chip.receiveFailure_failed (run : List RxChar) (e : RxError) (c : Chip) (h : receiveTests run = .failed e)
    (hup : c.sup.life = .up) (hns : c.link.access ≠ .send) (ho : c.link.rx ≠ .off) :
    c.receiveFailure run = (c.mapLink (Link.runFailed e)).settleLink := by
  have hl : c.listening = true := by simp [Chip.listening, hup, hns, ho]
  simp [Chip.receiveFailure, hl, h]

/-- Settles O40: by the state of the receiver. -/
theorem failedRunsAreCounted : Obligations.FailedRunsAreCounted := by
  unfold Obligations.FailedRunsAreCounted
  intro s hup hns l counted leaves
  have hcount (e : RxError) (l : Link) : l.count e = counted e l := by cases e <;> rfl
  refine ⟨fun run e hf ho hk => ⟨?_, fun he => ?_⟩, fun run e hf hk hd => ⟨?_, fun he => ?_⟩, fun run ho => ?_,
    fun hr => ?_, fun ho => ?_, fun run e hr hf => ?_, fun run t i hr hw htg hcode hwf => ?_⟩
  · rintro rfl
    have h := gives_settled (.receiveFailure run) s _ (Link.runFailed .form) rfl hup
      (Chip.receiveFailure_failed run _ _ hf hup hns ho)
    rwa [Link.runFailed_form _ (Link.takes l hk), hcount] at h
  · have h := gives_settled (.receiveFailure run) s _ (Link.runFailed e) rfl hup
      (Chip.receiveFailure_failed run _ _ hf hup hns ho)
    rwa [Link.runFailed_ends _ e he, if_neg (by simp [Link.takes s.chip.link hk]), hcount] at h
  · rintro rfl
    have h := gives_settled (.receiveFailure run) s _ (Link.runFailed .form) rfl hup
      (Chip.receiveFailure_failed run _ _ hf hup hns fun h => by cases h.symm.trans hk)
    rwa [Link.runFailed_form_skips _ (Link.skips_of l hk hd), Link.busTaken, if_neg hd] at h
  · have h := gives_settled (.receiveFailure run) s _ (Link.runFailed e) rfl hup
      (Chip.receiveFailure_failed run _ _ hf hup hns fun h => by cases h.symm.trans hk)
    rwa [Link.runFailed_ends _ e he, if_pos (Link.skips_of l hk hd)] at h
  · show State.act _ s = _
    rw [State.act, Chip.whenUp_up _ _ hup]
    have hl : s.chip.listening = false := by simp [Chip.listening, show s.chip.link.rx = .off from ho]
    simp [Chip.receiveFailure, hl]
  · refine gives_settled .settleGapComplete s Chip.settleGapComplete (fun l => { l with rx := .idle, gapDone := true })
      rfl hup ?_
    rcases hr with h | h <;> simp only [Chip.settleGapComplete, if_neg hns, show s.chip.link.rx = _ from h]
  · refine gives_settled .settleGapComplete s Chip.settleGapComplete (fun l => { l with gapDone := true }) rfl hup ?_
    simp only [Chip.settleGapComplete, if_neg hns, show s.chip.link.rx = _ from ho]
  · have h := gives_settled .settleGapComplete s Chip.settleGapComplete (fun l => l.runEnded.count e) rfl hup
      (by simp only [Chip.settleGapComplete, if_neg hns, show s.chip.link.rx = _ from hr, Chip.frameEnded, hf])
    rwa [hcount] at h
  · obtain ⟨he, hfits⟩ := exec_telegram s i _ _ _ htg hwf
    have hrec : s.chip.receives := ⟨hup, by simp [show s.chip.link.rx = _ from hr], by simp [show s.chip.link.rx = _ from hr], hns⟩
    have hgap : exec .settleGapComplete s = s.act (Chip.whenUp Chip.settleGapComplete) := rfl
    rw [he, hgap, State.act, State.act, Chip.receive_whole _ _ _ _ _ hrec hfits, Chip.whenUp_up _ _ hup, hcode]
    simp only [Chip.settleGapComplete, if_neg hns, show s.chip.link.rx = _ from hr, Chip.frameEnded, hw]

end Sys2Proof.Machine

/-! SUPPORT. Sending, readback, retries and QUIET (R157-R161, Table 9-6). -/

namespace Sys2Proof.Machine

set_option Elab.async false

/-! ## The phases of a transmission -/

/-- A link in GAP before the settle gap follows permission alone. -/
theorem Link.settle_gap (m : Bool) (l : Link) (h : l.access = .gap) (hg : l.gapDone = false) :
    l.settle m = { l with access := if m then .gap else .off } := by
  cases m <;> simp [Link.settle, h, hg]

theorem Link.settle_quiet (m : Bool) (l : Link) (h : l.access = .quiet) : l.settle m = l := by
  simp [Link.settle, h]

/-- Settles O41: by the phase. -/
theorem transmissionPhases : Obligations.TransmissionPhases := by
  unfold Obligations.TransmissionPhases
  refine fun s hup => ⟨fun ha hm => ?_, fun t ha ht => ?_, fun ha => ?_⟩
  · have h := gives_settled .dominantDuringDelay s Chip.dominantDuringDelay Link.dominant rfl hup rfl
    rw [Link.dominant, if_pos ha, Link.settle_gap _ _ rfl rfl, hm] at h
    exact h
  · refine gives_whenUp _ s Chip.accessDelayEnd _ rfl hup ⟨?_, s.chip.onlyChanges_mapLink _⟩
    show s.chip.link.delayEnd = _
    simp only [Link.delayEnd, if_pos ha, ht]
    rfl
  · have h := gives_settled .telegramSent s Chip.telegramSent Link.sent rfl hup (by rw [Chip.telegramSent, if_pos ha])
    rw [Link.settle_gap _ s.chip.link.sent rfl rfl] at h
    exact h

/-! ## A failed attempt (R160, R161) -/

/-- The link at a differing bit, before the attempt is judged. -/
def Link.aborted (bit : Nat) (l : Link) : Link :=
  { l.takeOver bit with
    lastAbort := if bit / 10 < 5 then .collision else .bitError
    access := .gap, gapDone := false, driven := [] }

theorem Link.mismatch_eq (bit : Nat) (now : Tick) (l : Link) :
    l.mismatch bit now = (l.aborted bit).attemptFailed now := rfl

theorem Link.aborted_kept (bit : Nat) (l : Link) :
    (l.aborted bit).access = .gap ∧ (l.aborted bit).gapDone = false ∧ (l.aborted bit).queue = l.queue
      ∧ (l.aborted bit).txFail = l.txFail ∧ (l.aborted bit).discards = l.discards
      ∧ (l.aborted bit).quietEntries = l.quietEntries ∧ (l.aborted bit).inHand = l.inHand
      ∧ (l.aborted bit).headInHand = l.headInHand := by
  simp [Link.aborted, Link.headInHand]

theorem Link.attemptFailed_abandoned {l : Link} {h : InHand} (now : Tick) (hh : l.inHand = some h)
    (ha : h.abandon = true) : l.attemptFailed now = { l with inHand := none } := by
  simp [Link.attemptFailed, hh, ha]

theorem Link.attemptFailed_retried {l : Link} {h : InHand} (now : Tick) (hh : l.inHand = some h)
    (ha : h.abandon = false) (hn : h.attempts < 2) :
    l.attemptFailed now = { l with inHand := some { h with attempts := h.attempts + 1 } } := by
  simp [Link.attemptFailed, hh, ha, Nat.not_le_of_lt hn]

theorem Link.attemptFailed_discarded {l : Link} {h : InHand} (now : Tick) (hh : l.inHand = some h)
    (ha : h.abandon = false) (hn : 2 ≤ h.attempts) : l.attemptFailed now = l.discard now := by
  simp [Link.attemptFailed, hh, ha, hn]

/-- A discard (R161): the telegram leaves, and the sixteenth in a row enters QUIET. -/
theorem Link.discard_facts (now : Tick) (l : Link) :
    (l.discard now).inHand = none ∧ (l.discard now).txFail = min 65535 (l.txFail + 1)
      ∧ (l.discard now).discards = min 16 (l.discards + 1)
      ∧ (l.discard now).queue = (if l.headInHand then l.queue.drop 1 else l.queue)
      ∧ (l.discards + 1 < 16 → (l.discard now).access = l.access)
      ∧ (16 ≤ l.discards + 1 → (l.discard now).access = .quiet ∧ (l.discard now).quietTimer = some now
          ∧ (l.discard now).quietEntries = min 65535 (l.quietEntries + 1)) := by
  by_cases hq : 16 ≤ l.discards + 1
  · simp [Link.discard, Link.leaveHand, hq, Nat.not_lt_of_le hq, bump, satAdd]
  · have h16 : min 16 (l.discards + 1) = l.discards + 1 := by omega
    simp [Link.discard, Link.leaveHand, h16, hq, bump, satAdd]

/-- The attempt of a telegram that is not to be abandoned fails: it is retried, or the third discards it. -/
theorem Link.mismatch_attempts (bit : Nat) (now : Tick) (l : Link) (m : Bool) (h : InHand) (hh : l.inHand = some h)
    (ha : h.abandon = false) :
    let d := (l.mismatch bit now).settle m
    (h.attempts < 2 →
        d.inHand = some { h with attempts := h.attempts + 1 } ∧ d.access = (if m then .gap else .off)
          ∧ d.queue = l.queue ∧ d.txFail = l.txFail ∧ d.discards = l.discards)
      ∧ (2 ≤ h.attempts →
          d.inHand = none ∧ d.txFail = min 65535 (l.txFail + 1) ∧ d.discards = min 16 (l.discards + 1)
            ∧ d.queue = (if l.headInHand then l.queue.drop 1 else l.queue)
            ∧ (l.discards + 1 < 16 → d.access = (if m then .gap else .off))
            ∧ (16 ≤ l.discards + 1 → d.access = .quiet ∧ d.quietTimer = some now
                ∧ d.quietEntries = min 65535 (l.quietEntries + 1))) := by
  obtain ⟨hacc, hgap, hqu, htx, hdis, hqe, hin, hhd⟩ := l.aborted_kept bit
  intro d
  refine ⟨fun hn => ?_, fun hn => ?_⟩
  · have hd : d = { l.aborted bit with
        inHand := some { h with attempts := h.attempts + 1 }, access := if m then .gap else .off } := by
      show ((l.aborted bit).attemptFailed now).settle m = _
      rw [Link.attemptFailed_retried now (hin.trans hh) ha hn]
      exact Link.settle_gap m _ hacc hgap
    rw [hd]
    exact ⟨rfl, rfl, hqu, htx, hdis⟩
  · have hd : d = ((l.aborted bit).discard now).settle m := by
      rw [← Link.attemptFailed_discarded now (hin.trans hh) ha hn]
      rfl
    obtain ⟨f1, f2, f3, f4, f5, f6⟩ := (l.aborted bit).discard_facts now
    have hgd : ((l.aborted bit).discard now).gapDone = false := by simp [hgap]
    rw [hd]
    rw [htx] at f2
    rw [hdis] at f3 f5 f6
    rw [hhd, hqu] at f4
    rw [hqe] at f6
    refine ⟨?_, by simpa using f2, by simpa using f3, by simpa using f4, fun h16 => ?_, fun h16 => ?_⟩
    · rcases Nat.lt_or_ge (l.discards + 1) 16 with h16 | h16
      · rw [Link.settle_gap m _ ((f5 h16).trans hacc) hgd]
        exact f1
      · rwa [Link.settle_quiet m _ (f6 h16).1]
    · rw [Link.settle_gap m _ ((f5 h16).trans hacc) hgd]
    · rw [Link.settle_quiet m _ (f6 h16).1]
      exact f6 h16

/-- A copy to be abandoned is not retried, and no counter moves (R157). -/
theorem Link.mismatch_abandons (bit : Nat) (now : Tick) (l : Link) (m : Bool) (h : InHand) (hh : l.inHand = some h)
    (ha : h.abandon = true) :
    let d := (l.mismatch bit now).settle m
    d.inHand = none ∧ d.queue = l.queue ∧ d.txFail = l.txFail ∧ d.discards = l.discards
      ∧ d.access = (if m then .gap else .off) := by
  obtain ⟨hacc, hgap, hqu, htx, hdis, -, hin, -⟩ := l.aborted_kept bit
  intro d
  have hd : d = { l.aborted bit with inHand := none, access := if m then .gap else .off } := by
    show ((l.aborted bit).attemptFailed now).settle m = _
    rw [Link.attemptFailed_abandoned now (hin.trans hh) ha]
    exact Link.settle_gap m _ hacc hgap
  rw [hd]
  exact ⟨rfl, hqu, htx, hdis, rfl⟩

/-! ## The receiver after a failed attempt (R160) -/

/-- What readback leaves of the receiver, which no later part of the event moves. -/
theorem Link.mismatch_receiver (bit : Nat) (now : Tick) (l : Link) (m : Bool) :
    let d := (l.mismatch bit now).settle m
    d.rx = (l.takeOver bit).rx ∧ d.form = (l.takeOver bit).form ∧ d.driven = [] ∧ d.gapDone = false
      ∧ d.lastAbort = if bit / 10 < 5 then .collision else .bitError := by
  intro d
  simp [d, Link.mismatch_eq, Link.aborted]

/-- The bits of the character in which the part's own level differed. -/
theorem readBack_bits (sent : Byte) (b : Nat) (h9 : b ≠ 9) (h0 : b ≠ 0) (hb : b < 10) :
    ∃ x, readBack sent b = [⟨x, true⟩] ∧ ∀ j < 8, x.getLsbD j =
      if j + 1 < b then sent.getLsbD j else if j + 1 = b then !sent.getLsbD j else true := by
  refine ⟨_, by rw [readBack, if_neg h0, if_neg h9], fun j hj => ?_⟩
  have hff : (0xFF#8 : Byte) = BitVec.allOnes 8 := by decide
  simp only [hff, BitVec.getLsbD_or, BitVec.getLsbD_xor, BitVec.getLsbD_shiftLeft, BitVec.getLsbD_one,
    BitVec.getLsbD_allOnes, hj, decide_true, Bool.true_and]
  rcases Nat.lt_trichotomy (j + 1) b with h | rfl | h
  · have h1 : j < b - 1 := by omega
    have h2 : j < b - 1 + 1 := by omega
    simp [h, h1, h2]
  · simp
  · have h1 : ¬j < b - 1 := by omega
    have h2 : ¬j < b - 1 + 1 := by omega
    have h3 : ¬j + 1 < b := by omega
    have h4 : j + 1 ≠ b := by omega
    have h5 : j - (b - 1 + 1) < 8 := by omega
    simp [h1, h2, h3, h4, h5]

theorem Link.takeOver_off (bit : Nat) (l : Link) (h : l.rx = .off) : l.takeOver bit = l := by
  simp [Link.takeOver, h]

theorem Link.takeOver_bitError (bit : Nat) (l : Link) (h : l.rx ≠ .off) (hb : 5 ≤ bit / 10) :
    l.takeOver bit = { l with rx := .skip } := by
  simp [Link.takeOver, h, Nat.not_lt_of_le hb]

theorem Link.takeOver_stop (bit : Nat) (l : Link) (h : l.rx ≠ .off) (hb : bit / 10 < 5) (h9 : bit % 10 = 9) :
    l.takeOver bit = { l with rx := .skip, form := min 65535 (l.form + 1) } := by
  simp only [Link.takeOver, if_neg h, if_pos hb, if_pos h9]
  rfl

theorem Link.takeOver_collision (bit : Nat) (l : Link) (h : l.rx ≠ .off) (hb : bit / 10 < 5) (h9 : bit % 10 ≠ 9) :
    l.takeOver bit =
      { l with rx := .frame ((l.driven.take (bit / 10)).map (fun b => ⟨b, true⟩)
          ++ readBack (l.driven.getD (bit / 10) 0) (bit % 10)) } := by
  simp only [Link.takeOver, if_neg h, if_pos hb, if_neg h9]

theorem Link.takeOver_form (bit : Nat) (l : Link) :
    (l.takeOver bit).form =
      if (bit / 10 < 5 ∧ l.rx ≠ .off) ∧ bit % 10 = 9 then min 65535 (l.form + 1) else l.form := by
  by_cases h : l.rx = .off
  · simp [Link.takeOver_off bit l h, h]
  · by_cases hb : bit / 10 < 5
    · by_cases h9 : bit % 10 = 9
      · simp [Link.takeOver_stop bit l h hb h9, h, hb, h9]
      · simp [Link.takeOver_collision bit l h hb h9, h9]
    · simp [Link.takeOver_bitError bit l h (Nat.le_of_not_lt hb), hb]

/-! ## The choice at the settle gap (R157, R158) -/

/-- An emptying request reaches a slot's copy in hand, and the other slot's not. -/
theorem Link.emptied_copy (l : Link) (h : InHand) (hh : l.inHand = some h) :
    (∀ t, h.origin = .wslot t →
        l.emptyW = { l with
            wslot := none, inHand := if l.access = .send then some { h with abandon := true } else none }
          ∧ l.emptyT = { l with tslot := none })
      ∧ (∀ t, h.origin = .tslot t →
        l.emptyT = { l with
            tslot := none, inHand := if l.access = .send then some { h with abandon := true } else none }
          ∧ l.emptyW = { l with wslot := none }) := by
  constructor <;> intro t ho <;> by_cases hs : l.access = .send <;>
    simp [Link.emptyW, Link.emptyT, Link.abandonCopy, hh, ho, Origin.isW, Origin.isT, hs]

/-- An access opportunity counts the delay of the telegram chosen. -/
theorem Link.opportunity_of {l x : Link} {t : OutTg} (hc : l.choose = x) (ht : x.handTelegram = some t) :
    l.opportunity = { x with access := .delay, delay := t.kind.accessClass * 32 + x.station } := by
  unfold Link.opportunity
  simp only [hc, ht]
  rfl

theorem Link.choose_kept {l : Link} {h : InHand} (hh : l.inHand = some h) (hk : l.keepsHand h = true) :
    l.choose = l := by
  have hf : l.inHand.filter l.keepsHand = some h := by rw [hh, Option.filter_some, if_pos hk]
  rw [Link.choose, hf]
  show { l with inHand := some h } = l
  rw [← hh]

/-- A copy whose slot has been written since gives way to the choice by place. -/
theorem Link.choose_placed {l : Link} {h : InHand} (hh : l.inHand = some h) (hk : l.keepsHand h = false) :
    (∀ t rest, l.queue = t :: rest → l.choose = { l with inHand := some ⟨.queueHead, 0, false⟩ })
      ∧ (∀ w, l.queue = [] → l.wslot = some w →
          l.choose = { l with inHand := some ⟨.wslot w, 0, false⟩, wslot := none })
      ∧ (∀ t, l.queue = [] → l.wslot = none → l.tslot = some t →
          l.choose = { l with inHand := some ⟨.tslot t, 0, false⟩, tslot := none }) := by
  have hf : l.inHand.filter l.keepsHand = none := by rw [hh, Option.filter_some, hk]; rfl
  refine ⟨fun t rest hq => ?_, fun w hq hw => ?_, fun t hq hw ht => ?_⟩
  · simp [Link.choose, hf, hq]
  · simp [Link.choose, hf, hq, hw]
  · simp [Link.choose, hf, hq, hw, ht]

/-- The link with the settle gap complete (R150). -/
def Link.gapEnded (l : Link) : Link := { l with rx := .idle, gapDone := true }

/-- Settles O42: the attempt, the receiver, the emptying requests, the next choice, the end of QUIET. -/
theorem failedAttemptsAreRetried : Obligations.FailedAttemptsAreRetried := by
  unfold Obligations.FailedAttemptsAreRetried
  intro s hup
  have hgives (bit : Nat) (ha : s.chip.link.access = .send) (hb : bit / 10 < s.chip.link.driven.length) :=
    gives_settled (.readbackMismatch bit) s (Chip.readbackMismatch bit) (Link.mismatch bit s.chip.tick) rfl hup
      (by rw [Chip.readbackMismatch, if_pos ⟨ha, hb⟩])
  refine ⟨fun bit h ha hb hh hab => ?_, fun bit ha hb => ?_, fun l h hh => l.emptied_copy h hh,
    fun h ha hrx hm hh => ?_, fun ha ht => ?_⟩
  · obtain ⟨t, he, hpend, hl, hc⟩ := hgives bit ha hb
    refine ⟨t, he, hpend, ?_⟩
    obtain ⟨hretry, hdisc⟩ := Link.mismatch_attempts bit s.chip.tick s.chip.link s.chip.maySend h hh hab
    obtain ⟨h1, -, h3, h4, h5⟩ := Link.mismatch_receiver bit s.chip.tick s.chip.link s.chip.maySend
    rw [hl]
    refine ⟨h5, h3, h4, fun h5b ho => ?_, hretry, hdisc, hc⟩
    rw [h1, Link.takeOver_bitError bit _ ho h5b]
  · obtain ⟨t, he, hpend, hl, -⟩ := hgives bit ha hb
    refine ⟨t, he, hpend, ?_⟩
    obtain ⟨h1, h2, -, -, -⟩ := Link.mismatch_receiver bit s.chip.tick s.chip.link s.chip.maySend
    intro whole sent collided
    rw [hl]
    refine ⟨fun ho => ?_, fun hc h9 => ?_, fun hc h0 => ?_, fun hc h9 h0 => ?_, h2.trans (Link.takeOver_form _ _),
      fun h hh hab => Link.mismatch_abandons bit s.chip.tick s.chip.link s.chip.maySend h hh hab⟩
    · rw [h1, Link.takeOver_off bit _ ho, ho]
    · obtain ⟨h5, ho⟩ := hc
      rw [h1, Link.takeOver_stop bit _ ho h5 h9]
    · obtain ⟨h5, ho⟩ := hc
      rw [h1, Link.takeOver_collision bit _ ho h5 (by omega), h0]
      simp [readBack, whole]
    · obtain ⟨h5, ho⟩ := hc
      obtain ⟨x, hx, hbits⟩ := readBack_bits sent (bit % 10) h9 h0 (Nat.mod_lt _ (by omega))
      refine ⟨x, ?_, hbits⟩
      rw [h1, Link.takeOver_collision bit _ ho h5 h9, hx]
  · obtain ⟨t, he, hpend, hl, hc⟩ := gives_settled .settleGapComplete s Chip.settleGapComplete Link.gapEnded rfl hup
      (by rcases hrx with h | h <;> simp [Chip.settleGapComplete, ha, h] <;> rfl)
    refine ⟨t, he, hpend, ?_⟩
    have hset : s.chip.link.gapEnded.settle s.chip.maySend = s.chip.link.gapEnded.opportunity := by
      simp [Link.settle, Link.gapEnded, ha, hm]
    rw [hset] at hl
    have hh' : s.chip.link.gapEnded.inHand = some h := hh
    have hkept (o : OutTg) (hk : s.chip.link.gapEnded.keepsHand h = true)
        (ho : s.chip.link.gapEnded.handTelegram = some o) :
        t.chip.link = { s.chip.link.gapEnded with
          access := .delay, delay := o.kind.accessClass * 32 + s.chip.link.station } :=
      hl.trans (Link.opportunity_of (Link.choose_kept hh' hk) ho)
    have hplaced {x : Link} (o : OutTg) (hx : s.chip.link.gapEnded.choose = x) (ho : x.handTelegram = some o) :
        t.chip.link = { x with access := .delay, delay := o.kind.accessClass * 32 + x.station } :=
      hl.trans (Link.opportunity_of hx ho)
    dsimp -zeta only
    intro l counts kept head newW newT
    refine ⟨fun o rest ho hq => ?_, fun o ho hw => ?_, fun o ho hw => ?_, fun old new ho hw => ?_,
      fun old new ho ht => ?_, ?_, ?_, ?_, hc⟩
    · have e := hkept o (by simp [Link.keepsHand, ho])
        (by simp [Link.handTelegram, hh', ho, show s.chip.link.gapEnded.queue = o :: rest from hq])
      dsimp only [kept, counts]
      rw [e]
      exact ⟨hh, rfl, rfl, rfl, rfl⟩
    · have e := hkept o (by simp [Link.keepsHand, ho, show s.chip.link.gapEnded.wslot = none from hw]) (by simp [Link.handTelegram, hh', ho])
      dsimp only [kept, counts]
      rw [e]
      exact ⟨hh, rfl, rfl, rfl, rfl⟩
    · have e := hkept o (by simp [Link.keepsHand, ho, show s.chip.link.gapEnded.tslot = none from hw]) (by simp [Link.handTelegram, hh', ho])
      dsimp only [kept, counts]
      rw [e]
      exact ⟨hh, rfl, rfl, rfl, rfl⟩
    · have hk : s.chip.link.gapEnded.keepsHand h = false := by
        simp [Link.keepsHand, ho, show s.chip.link.gapEnded.wslot = some new from hw]
      obtain ⟨hq, hws, -⟩ := Link.choose_placed hh' hk
      refine ⟨fun o rest hqu => ?_, fun hqu => ?_⟩
      · have e := hplaced o (hq o rest hqu) (congrArg List.head? hqu)
        dsimp only [head, counts]
        rw [e]
        exact ⟨rfl, rfl, rfl, rfl, rfl⟩
      · have e := hplaced new (hws new hqu hw) rfl
        dsimp only [newW, counts]
        rw [e]
        exact ⟨rfl, rfl, rfl, rfl, rfl⟩
    · have hk : s.chip.link.gapEnded.keepsHand h = false := by
        simp [Link.keepsHand, ho, show s.chip.link.gapEnded.tslot = some new from ht]
      obtain ⟨hq, hws, hts⟩ := Link.choose_placed hh' hk
      refine ⟨fun o rest hqu => ?_, fun w hqu hw => ?_, fun hqu hw => ?_⟩
      · have e := hplaced o (hq o rest hqu) (congrArg List.head? hqu)
        dsimp only [head, counts]
        rw [e]
        exact ⟨rfl, rfl, rfl, rfl, rfl⟩
      · have e := hplaced w (hws w hqu hw) rfl
        dsimp only [newW, counts]
        rw [e]
        exact ⟨rfl, rfl, rfl, rfl, rfl⟩
      · have e := hplaced new (hts new hqu hw ht) rfl
        dsimp only [newT, counts]
        rw [e]
        exact ⟨rfl, hw, rfl, rfl, rfl⟩
    all_goals rw [hl]; simp [Link.gapEnded, l]
  · refine gives_settled .quietTimerExpiry s Chip.quietTimerExpiry
      (fun l => { l with discards := 0, quietTimer := none, access := .gap }) rfl hup ?_
    simp [Chip.quietTimerExpiry, Link.quietEnd, due_of_ranOut _ _ _ ht, Chip.mapLink]

end Sys2Proof.Machine

/-! SUPPORT. One alarm's record through a condition's rise and fall, and what sounds (R123, R124, R126, R129). -/

namespace Sys2Proof.Machine

set_option Elab.async false

theorem Chip.takeCond_onlyChanges (a : Alarm) (v : Bool) (c : Chip) :
    c.onlyChanges (c.takeCond a v) [.alarm, .panel] := by
  intro b hb
  cases b <;> simp_all [Chip.sameAt]

theorem Chip.setAlarms_onlyChanges (u : AlarmUnit) (c : Chip) : c.onlyChanges (c.setAlarms u) [.alarm, .panel] := by
  intro b hb
  cases b <;> simp_all [Chip.sameAt]

/-- Records that move no demand are set without a word to the buzzer. -/
theorem Chip.setAlarms_quiet (u : AlarmUnit) (c : Chip) (h : u.demand = c.alarm.demand) :
    c.setAlarms u = { c with alarm := u } := by
  cases hd : c.alarm.demand <;> simp [Chip.setAlarms, h, hd]

/-- The demand follows the record of an alarm by what it shows, and no record outside the four. -/
theorem AlarmUnit.demand_put (u : AlarmUnit) (a : Alarm) (r : AlarmRec) (h : r.shown = (u.get a).shown) :
    (u.put a r).demand = u.demand := by
  cases a <;> simp_all [AlarmUnit.demand, AlarmUnit.put, AlarmUnit.get]

theorem AlarmUnit.demand_put_shown (u : AlarmUnit) (a : Alarm) (r : AlarmRec) (h : r.shown = true)
    (ha : oneShotOf a = none) : (u.put a r).demand = true := by
  cases a <;> simp_all [AlarmUnit.demand, AlarmUnit.put, oneShotOf]

theorem AlarmUnit.demand_put_other (u : AlarmUnit) (a : Alarm) (r : AlarmRec) {p : Pattern}
    (ha : oneShotOf a = some p) : (u.put a r).demand = u.demand := by
  cases a <;> simp_all [AlarmUnit.demand, AlarmUnit.put, oneShotOf]

/-- A rise of a condition that is taken. -/
theorem Chip.takeCond_rise (a : Alarm) (c : Chip) (h : c.inRun = true) (hc : (c.alarm.get a).cond = false) :
    c.takeCond a true = (c.setAlarms (c.alarm.put a ((c.alarm.get a).rise c.tick))).oneShot a := by
  simp [Chip.takeCond, h, hc]

/-- A masked alarm rises without a sound. -/
theorem Chip.takeCond_masked (a : Alarm) (c : Chip) (h : c.inRun = true) (hc : (c.alarm.get a).cond = false)
    (hm : (c.alarm.get a).mask = true) : (c.takeCond a true).panel = c.panel := by
  have hshown : ((c.alarm.get a).rise c.tick).shown = (c.alarm.get a).shown := by
    simp [AlarmRec.shown, AlarmRec.rise, hm]
  rw [Chip.takeCond_rise a c h hc, Chip.setAlarms_quiet _ _ (c.alarm.demand_put a _ hshown), Chip.oneShot]
  cases oneShotOf a with
  | none => rfl
  | some p => simp [AlarmRec.rise, hm]

/-- An alarm request takes the slot. -/
theorem Chip.alarmRequest_slot (p : Pattern) (c : Chip) : (c.mapBuz (Buzzer.alarmRequest p)).panel.buz.slot = some p := by
  simp [Chip.mapBuz, Chip.mapPanel, Buzzer.alarmRequest, Buzzer.begin]

/-- An unmasked alarm sounds where no demand stands: the four demand alarms TRILL, the others their one-shot. -/
theorem Chip.takeCond_sounds (a : Alarm) (c : Chip) (h : c.inRun = true) (hc : (c.alarm.get a).cond = false)
    (hm : (c.alarm.get a).mask = false) (hd : c.alarm.demand = false) :
    (c.takeCond a true).panel.buz.slot = some ((oneShotOf a).getD .trill) := by
  have hshown : ((c.alarm.get a).rise c.tick).shown = true := by simp [AlarmRec.shown, AlarmRec.rise, hm]
  rw [Chip.takeCond_rise a c h hc]
  cases ho : oneShotOf a with
  | none =>
    have hdem := c.alarm.demand_put_shown a _ hshown ho
    simp only [Chip.oneShot, ho, Chip.setAlarms, hd, hdem]
    exact Chip.alarmRequest_slot _ _
  | some p =>
    have hdem := c.alarm.demand_put_other a ((c.alarm.get a).rise c.tick) ho
    have hmask : ((c.alarm.get a).rise c.tick).mask = false := hm
    rw [Chip.setAlarms_quiet _ _ hdem]
    simp only [Chip.oneShot, ho, AlarmUnit.get_put_self, hmask, hdem, hd]
    exact Chip.alarmRequest_slot _ _

/-- An acknowledgement of a latched record, its mask timer stopped (R123, R124). -/
theorem AlarmRec.acknowledge_latched (r : AlarmRec) (h : r.latch = true) :
    { r.acknowledge with maskTimer := none }
      = if r.mode = .held ∧ r.cond = true then { r with ack := true, maskTimer := none }
        else { r with latch := false, ack := false, maskTimer := none } := by
  cases hm : r.mode <;> cases hc : r.cond <;> simp [AlarmRec.acknowledge, AlarmRec.clearLatch, h, hm, hc]

/-- Settles O44: by the change of the condition, and the mask timer's expiry. -/
theorem alarmRecordsFollowTheirTables : Obligations.AlarmRecordsFollowTheirTables := by
  unfold Obligations.AlarmRecordsFollowTheirTables
  rintro s a ⟨hup, hrun⟩
  have hin : s.chip.inRun = true := by simp [Chip.inRun, hrun]
  intro c r sound
  refine ⟨fun hc => ⟨?_, fun hm => ?_, fun hm hd => ?_⟩, fun hc => ?_, fun v => ⟨fun b hb => ?_, ?_, ?_⟩, fun ht hl => ?_⟩
  · rw [Chip.takeCond_self a true c hin, if_neg (by simp [show (c.alarm.get a).cond = false from hc]), if_pos rfl]
    cases hm : r.mask <;> cases hl : r.latch <;> simp [AlarmRec.rise, AlarmRec.riseTimer, r, hm, hl]
  · exact Chip.takeCond_masked a c hin hc hm
  · rw [Chip.takeCond_sounds a c hin hc hm hd]
    cases a <;> rfl
  · rw [Chip.takeCond_self a false c hin, if_neg (by simp [show (c.alarm.get a).cond = true from hc])]
    cases hm : r.mode <;> cases hl : r.latch <;> cases ha : r.ack <;>
      simp [AlarmRec.fall, AlarmRec.clearLatch, r, hm, hl, ha]
  · exact Chip.takeCond_others a b v c hb
  · exact Chip.takeCond_panel a v c
  · exact Chip.takeCond_onlyChanges a v c
  · refine gives_whenUp _ s (Chip.maskTimerExpiry a) _ rfl hup ?_
    rw [Chip.maskTimerExpiry, if_pos (due_of_ranOut _ _ _ ht)]
    refine ⟨?_, fun b hb => ?_, Chip.setAlarms_panel _ _, Chip.setAlarms_onlyChanges _ _⟩
    · rw [Chip.setAlarms_alarm, AlarmUnit.get_put_self]
      exact r.acknowledge_latched hl
    · rw [Chip.setAlarms_alarm]
      exact AlarmUnit.get_put_ne _ _ _ _ hb

end Sys2Proof.Machine

/-! SUPPORT. A step of SETUP and of CAL-SELECT, and the repeats of a held key (R134, R140, R143). -/

namespace Sys2Proof.Machine

set_option Elab.async false

/-! ## A step of SETUP (R140) -/

/-- The lights choose the night level while the drive channel is FRESH (R144). -/
theorem Chip.nightChosen_iff (c : Chip) : c.nightChosen = true ↔
    c.inp.drive.freshness = .fresh ∧ ∃ v, c.inp.held.drive = some v ∧ v.lights = true := by
  unfold Chip.nightChosen
  cases c.inp.held.drive <;> simp

theorem Chip.onlyChanges_mapPanel (c : Chip) (f : Panel → Panel) : c.onlyChanges (c.mapPanel f) [.panel] := by
  intro b hb
  cases b <;> simp_all [Chip.sameAt]

/-- The shadow that a changed setting leaves (Table 8-8). -/
def Chip.shadowAfter (c : Chip) (n : Nat) : Nat :=
  if n = 1 ∧ c.nightChosen = false then c.panel.settings.day
  else if n = 2 ∧ c.nightChosen = true then c.panel.settings.night
  else c.panel.shadow

/-- What a changed setting may reach: the shadow, the buzzer, CAL INVALID. -/
structure Chip.SettingReach (n : Nat) (c d : Chip) : Prop where
  panel : d.panel = { c.panel with shadow := d.panel.shadow, buz := d.panel.buz }
  shadow : d.panel.shadow = c.shadowAfter n
  only : c.onlyChanges d [.alarm, .panel]
  alarm : c.onlyAlarm .calInvalid d
  kept : n ≠ 5 → d.alarm = c.alarm

theorem Chip.SettingReach.refl {n : Nat} {c : Chip} (h : c.shadowAfter n = c.panel.shadow) : c.SettingReach n c :=
  ⟨rfl, h.symm, c.onlyChanges_refl _, fun _ _ => rfl, fun _ => rfl⟩

theorem Chip.SettingReach.writeShadow {n : Nat} {c : Chip} (hr : c.sup.power = .run)
    (h : c.chosenLevel = c.shadowAfter n) : c.SettingReach n c.writeShadow := by
  have he : c.writeShadow = c.mapPanel fun p => { p with shadow := c.chosenLevel } := by simp [Chip.writeShadow, hr]
  rw [he]
  exact ⟨rfl, h, (c.onlyChanges_mapPanel _).mono (by simp), fun _ _ => rfl, fun _ => rfl⟩

theorem Chip.settingChanged_reach (n : Nat) (c : Chip) (h : c.sup.power = .run) :
    c.SettingReach n (c.settingChanged n) := by
  have hin : c.inRun = true := by simp [Chip.inRun, h]
  unfold Chip.settingChanged
  split
  next =>
    cases hn : c.nightChosen with
    | true => exact .refl (by simp [Chip.shadowAfter, hn])
    | false => exact .writeShadow h (by simp [Chip.chosenLevel, Chip.shadowAfter, hn])
  next =>
    cases hn : c.nightChosen with
    | true => exact .writeShadow h (by simp [Chip.chosenLevel, Chip.shadowAfter, hin, hn])
    | false => exact .refl (by simp [Chip.shadowAfter, hn])
  next =>
    have he : c.beepEvent .beep = c.mapBuz (Buzzer.eventRequest .beep) := by simp [Chip.beepEvent, h]
    rw [he]
    exact ⟨rfl, rfl, (c.onlyChanges_mapPanel _).mono (by simp), fun _ _ => rfl, fun _ => rfl⟩
  next =>
    have hp := Chip.refresh_panel .calInvalid c
    refine ⟨?_, ?_, Chip.refresh_onlyChanges _ _, fun b hb => Chip.refresh_others _ _ _ hb, fun h => absurd rfl h⟩
    · rw [hp]
    · rw [hp]
      rfl
  next h1 h2 _ _ => exact .refl (by rw [Chip.shadowAfter, if_neg fun h => h1 h.1, if_neg fun h => h2 h.1])

/-- One step of a setting, held at its limits. -/
theorem Settings.step_facts (set : Settings) (n : Nat) (up : Bool) :
    let moved (hi v : Nat) := if up then min hi (v + 1) else v - 1
    (n = 1 → set.step n up = { set with day := moved 63 set.day })
      ∧ (n = 2 → set.step n up = { set with night := moved 63 set.night })
      ∧ (n = 3 → set.step n up = { set with volume := moved 15 set.volume })
      ∧ (n = 4 → set.step n up = { set with
          trim := max (-50) (min 50 (if up then set.trim + 1 else set.trim - 1)) })
      ∧ (n = 5 → (set.step n up).curveSet.val = moved 3 set.curveSet.val
          ∧ set.step n up = { set with curveSet := (set.step n up).curveSet }) := by
  refine ⟨?_, ?_, ?_, ?_, ?_⟩ <;> rintro rfl
  · rfl
  · rfl
  · rfl
  · simp only [Settings.step, clampInt, Int.min_comm]
  · refine ⟨?_, rfl⟩
    have h4 : stepNat 3 up set.curveSet.val < 4 := by
      have := set.curveSet.isLt
      unfold stepNat
      split <;> omega
    simp only [Settings.step, Fin.ofNat, Nat.mod_eq_of_lt h4]
    rfl

/-- A step of SETUP, by whether it leaves the range. -/
theorem Chip.setupStep_stepped (c : Chip) (up : Bool) (h : c.sup.power = .run) :
    c.setupStepped (c.setupStep up) up ∧ c.onlyChanges (c.setupStep up) [.alarm, .panel]
      ∧ (c.setupStep up).panel.setupItem = c.panel.setupItem := by
  obtain ⟨h1, h2, h3, h4, h5⟩ := c.panel.settings.step_facts c.panel.setupItem up
  by_cases heq : c.panel.settings.step c.panel.setupItem up = c.panel.settings
  · rw [heq] at h1 h2 h3 h4 h5
    have hc : c.setupStep up = c := by simp only [Chip.setupStep, heq, if_true]
    rw [hc]
    exact ⟨⟨h1, h2, h3, h4, h5, fun hn => absurd rfl hn, fun _ => ⟨rfl, rfl, rfl⟩, fun hn => absurd rfl hn,
      fun hn => absurd rfl hn, fun _ => rfl, c.onlyChanges_refl _, fun _ _ => rfl, fun _ => rfl⟩,
      c.onlyChanges_refl _, rfl⟩
  · rw [Chip.setupStep, if_neg heq]
    obtain ⟨x, hx⟩ : ∃ x, x = c.mapPanel fun p =>
      { p with settings := c.panel.settings.step c.panel.setupItem up }.restartBlink c.tick := ⟨_, rfl⟩
    have hxp : x.panel = { c.panel with
        settings := c.panel.settings.step c.panel.setupItem up, blinkBlank := false, blinkTimer := some c.tick } := by
      rw [hx]
      rfl
    have hxa : x.alarm = c.alarm := by rw [hx]; rfl
    have hlights : x.nightChosen = c.nightChosen := by rw [hx]; rfl
    have hxc : c.onlyChanges x [.alarm, .panel] := by
      rw [hx]
      exact (c.onlyChanges_mapPanel _).mono (by simp)
    obtain ⟨hp, hs, ho, ha, hk⟩ := x.settingChanged_reach c.panel.setupItem (by rw [hx]; exact h)
    rw [← hx]
    rw [hxp] at hp
    obtain ⟨d, hd⟩ : ∃ d, d = x.settingChanged c.panel.setupItem := ⟨_, rfl⟩
    rw [← hd] at hp hs ho ha hk ⊢
    have hset : d.panel.settings = c.panel.settings.step c.panel.setupItem up := by rw [hp]
    have hnight := c.nightChosen_iff
    simp only [Chip.shadowAfter, hlights, hxp] at hs
    unfold Chip.setupStepped
    rw [hset]
    refine ⟨⟨h1, h2, h3, h4, h5, fun _ => ?_, fun hn => absurd hn heq, fun _ hn hl => ?_, fun _ hn hl => ?_, fun hn => ?_,
      (hxc.trans ho).mono (by simp), fun b hb => ?_, fun hn => ?_⟩, hxc.trans ho, ?_⟩
    · rw [hp]
      exact ⟨rfl, rfl⟩
    · rw [← hnight] at hl
      rw [hs, if_pos ⟨hn, by simpa using hl⟩]
    · rw [← hnight] at hl
      rw [hs, if_neg (by simp [hl]), if_pos ⟨hn, hl⟩]
    · rw [← hnight] at hn
      rw [hs]
      rcases hn with ⟨n1, n2⟩ | ⟨n1, hl⟩ | ⟨n2, hl⟩
      · rw [if_neg fun h => n1 h.1, if_neg fun h => n2 h.1]
      · simp [n1, hl]
      · simp [n2, hl]
    · rw [ha b hb, hxa]
    · rw [hk hn, hxa]
    · rw [hp]

/-! ## Repeats of a held key (R134) -/

/-- A step of SETUP asks for nothing of the decoder. -/
theorem Chip.setupStepped_of_decoder {c d : Chip} {up : Bool} {dec : Decoder}
    (h : (c.mapPanel fun p => { p with decoder := dec }).setupStepped d up) : c.setupStepped d up := by
  obtain ⟨h1, h2, h3, h4, h5, h6, h7, h8, h9, h10, h11, h12, h13⟩ := h
  exact ⟨h1, h2, h3, h4, h5, h6, h7, h8, h9, h10, ((c.onlyChanges_mapPanel _).mono (by simp)).trans h11, h12, h13⟩

/-- A repeat step that is due goes to its field. -/
theorem Chip.repeatStep_due (c : Chip) (h : Hold) (f : EditField) (hr : c.inRun = true)
    (hd : c.panel.decoder = .held h) (hf : h.field = some f)
    (ht : h.lastRepeat = none ∧ 600 ≤ age c.tick h.since ∨ ∃ t, h.lastRepeat = some t ∧ 150 ≤ age c.tick t) :
    c.repeatStep = (c.mapPanel fun p => { p with decoder := .held { h with lastRepeat := some c.tick } }).repeatOn f
      (decide (h.key = .up)) := by
  have hdue : h.repeatDue c.tick = true := by
    unfold Hold.repeatDue
    rcases ht with ⟨hl, hn⟩ | ⟨t, hl, hn⟩ <;> simp [hl, hn]
  have hkey : (h.key == Key.up) = decide (h.key = .up) := rfl
  simp only [Chip.repeatStep, hd, hf, hr, hdue, Bool.and_self, if_true, hkey]

/-- Settles O50: by the field. -/
theorem repeatStepsTheSetting : Obligations.RepeatStepsTheSetting := by
  unfold Obligations.RepeatStepsTheSetting
  rintro s h ⟨hup, hrun⟩ hd ht kept
  have hin : s.chip.inRun = true := by simp [Chip.inRun, hrun]
  obtain ⟨x, hx⟩ : ∃ x, x = s.chip.mapPanel fun p =>
    { p with decoder := .held { h with lastRepeat := some s.chip.tick } } := ⟨_, rfl⟩
  have hxc : s.chip.onlyChanges x [.panel] := by
    rw [hx]
    exact s.chip.onlyChanges_mapPanel _
  refine ⟨fun hf hp => ?_, fun hf hsel => ?_⟩
  · refine gives_whenUp _ s Chip.repeatStep _ rfl hup ?_
    rw [s.chip.repeatStep_due h _ hin hd hf ht, ← hx]
    have hon : x.repeatOn .setup (decide (h.key = .up)) = x.setupStep (decide (h.key = .up)) := by
      rw [Chip.repeatOn, if_pos (by rw [hx]; exact hp)]
    obtain ⟨hs, ho, hi⟩ := x.setupStep_stepped (decide (h.key = .up)) (by rw [hx]; exact hrun)
    rw [hon]
    refine ⟨⟨?_, ?_, ?_, ?_⟩, ?_, (hxc.mono (by simp)).trans ho⟩
    · simp [hx]
    · simp [hx]
    · simp [hx]
    · rw [hi, hx]
      rfl
    · rw [hx] at hs ⊢
      exact Chip.setupStepped_of_decoder hs
  · have hsel' : x.cal.state = .select := by rw [hx]; exact hsel
    obtain ⟨hs, ho, hdec, hkeys, hpage, hitem⟩ := x.calStep_stepped (decide (h.key = .up)) hsel'
    have hon (f : EditField) (hf : f ≠ .setup) :
        x.repeatOn f (decide (h.key = .up)) = x.calStep (decide (h.key = .up)) := by
      cases f <;> simp_all [Chip.repeatOn]
    obtain ⟨f, hfield, hns⟩ : ∃ f, h.field = some f ∧ f ≠ .setup := by
      rcases hf with ⟨hf, -⟩ | ⟨hf, -⟩ <;> exact ⟨_, hf, by decide⟩
    refine gives_whenUp _ s Chip.repeatStep _ rfl hup ?_
    rw [s.chip.repeatStep_due h f hin hd hfield ht, ← hx, hon f hns]
    refine ⟨⟨by rw [hdec, hx]; rfl, by rw [hkeys, hx]; rfl, by rw [hpage, hx]; rfl, by rw [hitem, hx]; rfl⟩, ?_,
      (hxc.mono (by simp)).trans ho⟩
    rw [hx] at hs ⊢
    exact hs

end Sys2Proof.Machine

/-! SUPPORT. A telegram's characters pass the receive tests (R149-R151). -/

namespace Sys2Proof.Machine

set_option Elab.async false

/-- The length and check tests accept the bytes of a telegram's frame. -/
theorem testRun_frameChars (t : WholeTelegram) (h : t.data.length ≤ 12) : testRun (frameChars t) = .whole t := by
  have hlen : (BitVec.ofNat 8 t.data.length).toNat = t.data.length := by
    rw [BitVec.toNat_ofNat]
    omega
  obtain ⟨crc, hcrc⟩ : ∃ crc, crc = crcChars (t.kind :: t.src :: t.dst :: BitVec.ofNat 8 t.data.length :: t.data) :=
    ⟨_, rfl⟩
  have hc : crc.length = 2 := by rw [hcrc]; rfl
  have hf : ¬(12 < (BitVec.ofNat 8 t.data.length).toNat
      ∨ (t.data ++ crc).length ≠ (BitVec.ofNat 8 t.data.length).toNat + 2) := by
    rw [List.length_append, hc, hlen]
    omega
  have he : frameChars t =
      leadChar :: t.kind :: t.src :: t.dst :: BitVec.ofNat 8 t.data.length :: (t.data ++ crc) := by
    rw [hcrc]
    rfl
  rw [he, testRun, if_neg hf, hlen]
  simp only [List.take_left', List.drop_left', hcrc, if_true]

/-- Settles O60: the stop bits and the lead character, then the length and the check. -/
theorem framesReadBack : Obligations.FramesReadBack := by
  unfold Obligations.FramesReadBack
  refine ⟨fun t ht => ?_, by decide +kernel, fun k => by cases k <;> rfl⟩
  have hmap : ((frameChars t).map fun b => (⟨b, true⟩ : RxChar)).map RxChar.data = frameChars t := by
    simp [Function.comp_def]
  have hrun : receiveTests ((frameChars t).map fun b => ⟨b, true⟩)
      = testRun (((frameChars t).map fun b => (⟨b, true⟩ : RxChar)).map RxChar.data) := by
    simp [receiveTests, frameChars, crcChars]
  rw [hrun, hmap, testRun_frameChars t ht]

end Sys2Proof.Machine

/-! SUPPORT. What the operations on a part's own record can move, once for all of them (R67-R80, R111). -/

namespace Sys2Proof.Machine

set_option Elab.async false

/-- What an operation on the own record may move: the record and its figures, the note, the origin, OVERLOAD, the
selections and the buzzer, and of an ACTIVE part the link. -/
structure Chip.RecordMoves (c d : Chip) : Prop where
  only : c.onlyChanges d [.link, .trk, .load, .role, .alarm, .panel]
  alarm : c.onlyAlarm .overload d
  trk : d.trk = c.trk ∨ d.trk = { c.trk with note := none }
  role : d.role = { c.role with mirrored := d.role.mirrored }
  panel : d.panel = { c.panel with
    truckSel := d.panel.truckSel, histSel := d.panel.histSel, histSecond := d.panel.histSecond
    histTimer := d.panel.histTimer, buz := d.panel.buz }
  quiet : c.role.state ≠ .active → d.link = c.link

namespace Chip.RecordMoves

theorem refl (c : Chip) : c.RecordMoves c :=
  ⟨c.onlyChanges_refl _, fun _ _ => rfl, .inl rfl, rfl, rfl, fun _ => rfl⟩

theorem state {c d : Chip} (h : c.RecordMoves d) : d.role.state = c.role.state := by
  rw [h.role]

theorem trans {c d e : Chip} (h : c.RecordMoves d) (h' : d.RecordMoves e) : c.RecordMoves e where
  only := h.only.trans h'.only
  alarm b hb := (h'.alarm b hb).trans (h.alarm b hb)
  trk := by
    rcases h.trk with h1 | h1 <;> rcases h'.trk with h2 | h2 <;> rw [h2, h1] <;> simp
  role := by
    have h1 := h.role
    have h2 := h'.role
    rw [h1] at h2
    exact h2
  panel := by
    have h1 := h.panel
    have h2 := h'.panel
    rw [h1] at h2
    exact h2
  quiet hn := (h'.quiet (by rwa [h.state])).trans (h.quiet hn)

/-- An operation that changes the load register alone. -/
theorem of_mapLoad (c : Chip) (f : LoadRegister → LoadRegister) : c.RecordMoves (c.mapLoad f) where
  only b hb := by cases b <;> simp_all [Chip.sameAt]
  alarm _ _ := rfl
  trk := .inl rfl
  role := rfl
  panel := rfl
  quiet _ := rfl

theorem refresh (c : Chip) : c.RecordMoves (c.refresh .overload) where
  only := (Chip.refresh_onlyChanges _ _).mono (by simp)
  alarm b hb := Chip.refresh_others _ _ _ hb
  trk := .inl (by simp)
  role := by simp
  panel := by rw [Chip.refresh_panel .overload c]
  quiet _ := by simp

theorem setRecord (c : Chip) (r : Option TruckRec) : c.RecordMoves (c.setRecord r) where
  only b hb := by cases b <;> simp_all [Chip.sameAt]
  alarm _ _ := by simp
  trk := .inl (by simp)
  role := by simp
  panel := by
    unfold Chip.setRecord Chip.mapPanel Panel.keepSel
    dsimp only
    (repeat' split) <;> rfl
  quiet _ := by simp

theorem mirrored (c : Chip) (v : Bool) : c.RecordMoves (c.mapRole fun r => { r with mirrored := v }) where
  only b hb := by cases b <;> simp_all [Chip.sameAt]
  alarm _ _ := rfl
  trk := .inl rfl
  role := rfl
  panel := rfl
  quiet _ := rfl

theorem beepEvent (c : Chip) (p : Pattern) : c.RecordMoves (c.beepEvent p) where
  only b hb := by cases b <;> simp_all [Chip.sameAt]
  alarm _ _ := by simp
  trk := .inl (by simp)
  role := by simp
  panel := by
    unfold Chip.beepEvent
    split <;> rfl
  quiet _ := by simp

theorem raiseSeq (c : Chip) : c.RecordMoves c.raiseSeq where
  only b hb := by cases b <;> simp_all [Chip.sameAt]
  alarm _ _ := by simp
  trk := .inl (by simp)
  role := by simp
  panel := by simp
  quiet h := Chip.raiseSeq_link_quiet c h

theorem discardNote (c : Chip) : c.RecordMoves c.discardNote where
  only b hb := by cases b <;> simp_all [Chip.sameAt]
  alarm _ _ := rfl
  trk := .inr rfl
  role := rfl
  panel := rfl
  quiet _ := rfl

theorem writeOwn (c : Chip) (r : TruckRec) : c.RecordMoves (c.writeOwn r) :=
  (setRecord c (some r)).trans (mirrored _ false)

theorem evaluateRecord (c : Chip) : c.RecordMoves c.evaluateRecord := by
  unfold Chip.evaluateRecord
  split
  · exact refresh c
  · split
    · exact refresh c
    · refine .trans ?_ (refresh _)
      split
      · exact (setRecord c _).trans (beepEvent _ _)
      · exact setRecord c _

theorem reevaluate (c : Chip) : c.RecordMoves c.reevaluate := by
  unfold Chip.reevaluate
  dsimp only
  split
  · exact evaluateRecord c
  · exact (evaluateRecord c).trans (raiseSeq _)

theorem openRecord (c : Chip) (id : Nat) (target : Option Nat) : c.RecordMoves (c.openRecord id target) :=
  ((writeOwn c _).trans (evaluateRecord _)).trans (raiseSeq _)

theorem offer (c : Chip) (t : OutTg) (h : c.role.state = .active) : c.RecordMoves (c.offer t) where
  only b hb := by cases b <;> simp_all [Chip.sameAt]
  alarm _ _ := by simp
  trk := .inl (by simp)
  role := by simp
  panel := by simp
  quiet hn := absurd h hn

theorem appendSummary (c : Chip) (s : Summary) : c.RecordMoves (c.appendSummary s) where
  only b hb := by cases b <;> simp_all [Chip.sameAt]
  alarm _ _ := by simp
  trk := .inl (by simp)
  role := by simp
  panel := by
    unfold Chip.appendSummary Chip.mapPanel Panel.historyAppended Panel.selectHistory
    dsimp only
    (repeat' split) <;> rfl
  quiet _ := by simp

theorem recordSummary (c : Chip) (r : TruckRec) (reason : CloseReason) : c.RecordMoves (c.recordSummary r reason) := by
  have hsum := appendSummary c (r.summary reason)
  have hcount : c.RecordMoves (c.appendSummary (r.summary reason)).countTruck := hsum.trans (of_mapLoad _ _)
  unfold Chip.recordSummary
  dsimp only
  split
  · exact hsum
  · split
    · next ha =>
      refine hcount.trans (offer _ _ ?_)
      simp only [Chip.isActive, Bool.and_eq_true, beq_iff_eq] at ha
      exact ha.2
    · exact hcount

theorem removeRecord (c : Chip) : c.RecordMoves c.removeRecord :=
  (((setRecord c none).trans (refresh _)).trans (discardNote _)).trans (raiseSeq _)

theorem closeRecord (c : Chip) (reason : CloseReason) : c.RecordMoves (c.closeRecord reason) := by
  unfold Chip.closeRecord
  split
  · exact refl c
  · refine .trans ?_ (removeRecord _)
    split
    · exact refl c
    · exact recordSummary c _ _

theorem adoptRecord (c : Chip) : c.RecordMoves c.adoptRecord := by
  obtain ⟨a, ha⟩ : ∃ a, a = if c.role.mirrored then c.load.record.map TruckRec.adopt else c.load.record := ⟨_, rfl⟩
  have h (r : Option TruckRec) := ((setRecord c r).trans (mirrored _ false)).trans (evaluateRecord _)
  unfold Chip.adoptRecord
  rw [← ha]
  dsimp only
  split
  · exact h _
  · exact (h _).trans (raiseSeq _)

theorem retarget (c : Chip) (target : Option Nat) : c.RecordMoves (c.retarget target) := by
  unfold Chip.retarget
  split
  · exact refl c
  · split
    · exact refl c
    · exact ((writeOwn c _).trans (evaluateRecord _)).trans (raiseSeq _)

theorem setRefused (c : Chip) (r : Option Nat) : c.RecordMoves (c.setRefused r) := of_mapLoad c _

theorem tagPresent (c : Chip) (id : Nat) (target : Option Nat) : c.RecordMoves (c.tagPresent id target) := by
  obtain ⟨x, hx⟩ : ∃ x, x = if c.load.refused = some id then c else c.setRefused none := ⟨_, rfl⟩
  have hc : c.RecordMoves x := by
    rw [hx]
    split
    · exact refl c
    · exact setRefused c none
  unfold Chip.tagPresent
  dsimp only
  rw [← hx]
  split
  · split
    · exact hc
    · exact hc.trans (openRecord _ _ _)
  · split
    · exact hc.trans (retarget _ _)
    · split
      · exact hc
      · exact (hc.trans (closeRecord _ _)).trans (openRecord _ _ _)

theorem tagGone (c : Chip) : c.RecordMoves c.tagGone := by
  unfold Chip.tagGone
  refine .trans ?_ (setRefused _ none)
  split
  · split
    · exact refl c
    · exact closeRecord c _
  · exact refl c

theorem takeTag (c : Chip) : c.RecordMoves c.takeTag := by
  unfold Chip.takeTag
  split
  · split
    · exact refl c
    · split
      · exact tagPresent c _ _
      · exact tagGone c
  · exact refl c

theorem takeHeldTag (c : Chip) : c.RecordMoves c.takeHeldTag := by
  unfold Chip.takeHeldTag
  split
  · exact takeTag c
  · exact refl c

end Chip.RecordMoves

end Sys2Proof.Machine

/-! SUPPORT. The entry to MUTE (R116). -/

namespace Sys2Proof.Machine

set_option Elab.async false

/-- A part without permission to send settles with its queue and slots as they stand. -/
theorem Link.settle_forbidden (l : Link) (h : l.access ≠ .send) :
    ((l.settle false).access = .off ∨ (l.settle false).access = .quiet) ∧ (l.settle false).wslot = l.wslot
      ∧ (l.settle false).tslot = l.tslot := by
  cases ha : l.access <;> simp_all [Link.settle]

/-- The entry to MUTE up to the record (R116). -/
def Chip.muted (c : Chip) : Chip :=
  let c := c.leaveRole.setRole .mute
  let c := (c.mapRole fun r => { r with conflict := true, listen := none, status := none }).mapLink
    fun l => l.emptyW.emptyQueue
  ((c.refresh .stationConflict).refresh .noWeigher).clearCrossCheck

theorem Chip.enterMute_eq (c : Chip) :
    c.enterMute = if c.muted.isWeigher then c.muted.adoptRecord.takeHeldTag else c.muted := rfl

/-- What an alarm's source may move of the part. -/
theorem Chip.muted_blocks (c : Chip) :
    c.muted.role = { c.role with
        state := .mute, conflict := true, listen := none, status := none, pairing := [], mismatches := 0
        crossCheck := false, noWeigher := false, behind := false }
      ∧ c.muted.load = { c.load with refreshTimer := none, pollTimer := none }
      ∧ c.muted.trk = { c.trk with note := none }
      ∧ c.muted.link = ((if c.role.state = .active then c.link.emptyT else c.link).emptyW).emptyQueue := by
  obtain ⟨hrole, hload, hlink⟩ := c.leaveRole_facts
  refine ⟨?_, ?_, ?_, ?_⟩ <;> simp [Chip.muted, Chip.clearCrossCheck, Chip.setRole, Chip.discardNote, hrole, hload, hlink]

theorem Chip.muted_onlyChanges (c : Chip) : c.onlyChanges c.muted [.link, .trk, .load, .role, .alarm, .panel] := by
  intro b hb
  cases b <;> simp_all [Chip.sameAt, Chip.muted, Chip.clearCrossCheck, Chip.setRole, Chip.discardNote]

/-- The links that a station conflict empties. -/
theorem Chip.muted_link (c : Chip) (h : c.link.access ≠ .send) :
    c.muted.link.queue = [] ∧ c.muted.link.wslot = none ∧ (c.role.state = .active → c.muted.link.tslot = none)
      ∧ c.muted.link.access ≠ .send := by
  obtain ⟨-, -, -, hl⟩ := c.muted_blocks
  have hacc (l : Link) (f : Origin → Bool) : (l.abandonCopy f).access = l.access := by
    unfold Link.abandonCopy
    (repeat' split) <;> rfl
  have htslot (l : Link) : l.emptyW.emptyQueue.tslot = l.tslot := by
    unfold Link.emptyQueue Link.emptyW Link.abandonCopy
    (repeat' split) <;> rfl
  rw [hl]
  refine ⟨rfl, rfl, fun ha => ?_, ?_⟩
  · rw [htslot, if_pos ha]
    rfl
  · show (Link.abandonCopy _ _).access ≠ .send
    rw [hacc]
    split
    · show (Link.abandonCopy _ _).access ≠ .send
      rwa [hacc]
    · exact h

/-- STATION CONFLICT holds after the entry, and latches where it rises. -/
theorem Chip.muted_alarm (c : Chip) (h : c.inRun = true) :
    c.muted.alarm.stationConflict.cond = true
      ∧ (c.alarm.stationConflict.cond = false →
          c.muted.alarm.stationConflict.latch = true ∧ c.muted.alarm.stationConflict.ack = false) := by
  obtain ⟨x, hx⟩ : ∃ x, x = ((c.leaveRole.setRole .mute).mapRole fun r =>
    { r with conflict := true, listen := none, status := none }).mapLink fun l => l.emptyW.emptyQueue := ⟨_, rfl⟩
  have hm : c.muted = ((x.refresh .stationConflict).refresh .noWeigher).clearCrossCheck := by rw [hx]; rfl
  have hxr : x.inRun = true := by rw [← h, hx]; simp [Chip.inRun, Chip.setRole, Chip.discardNote]
  have hxc : x.cond .stationConflict = true := by rw [hx]; rfl
  have hxa : x.alarm = c.alarm := by rw [hx]; simp [Chip.setRole, Chip.discardNote]
  have hrec : c.muted.alarm.get .stationConflict = (x.refresh .stationConflict).alarm.get .stationConflict := by
    rw [hm]
    unfold Chip.clearCrossCheck
    rw [Chip.refresh_others _ _ _ (by decide)]
    exact Chip.refresh_others _ _ _ (by decide)
  have hself := Chip.takeCond_self .stationConflict (x.cond .stationConflict) x hxr
  rw [hxc, hxa] at hself
  have hfin : c.muted.alarm.get .stationConflict
      = if (c.alarm.get .stationConflict).cond = true then c.alarm.get .stationConflict
        else (c.alarm.get .stationConflict).rise x.tick := by
    rw [hrec]
    unfold Chip.refresh
    rw [hxc]
    simpa using hself
  have hget (u : AlarmUnit) : u.stationConflict = u.get .stationConflict := rfl
  simp only [hget, hfin]
  cases hc : (c.alarm.get .stationConflict).cond <;> simp [hc, AlarmRec.rise]

/-- What follows the entry in the record: a WEIGHER's becomes its own (R116). -/
theorem Chip.enterMute_moves (c : Chip) : c.muted.RecordMoves c.enterMute := by
  rw [Chip.enterMute_eq]
  split
  · exact (Chip.RecordMoves.adoptRecord _).trans (Chip.RecordMoves.takeHeldTag _)
  · exact .refl _

theorem Chip.isWeigher_iff (c : Chip) : c.isWeigher = true ↔ c.cfg.role = .weigher := by
  unfold Chip.isWeigher
  exact beq_iff_eq

theorem Chip.muted_cfg (c : Chip) : c.muted.cfg = c.cfg := by
  have h := c.muted_onlyChanges .store (by simp)
  exact congrArg ParamStore.cfg h

/-- The origin after the entry: a WEIGHER's record is its own. -/
theorem Chip.enterMute_mirrored (c : Chip) :
    c.enterMute.role.mirrored = if c.cfg.role = .weigher then false else c.role.mirrored := by
  obtain ⟨hrole, -, -, -⟩ := c.muted_blocks
  have hw : c.muted.isWeigher = true ↔ c.cfg.role = .weigher := by rw [Chip.isWeigher_iff, Chip.muted_cfg]
  rw [Chip.enterMute_eq]
  by_cases h : c.cfg.role = .weigher
  · have ha : c.muted.adoptRecord.role.mirrored = false := by rw [Chip.adoptRecord_role]
    rw [if_pos (hw.2 h), if_pos h, Chip.takeHeldTag_role _ ha, ha]
  · rw [if_neg (mt hw.1 h), if_neg h, hrole]

/-- The record of a WEIGHER as the entry takes it. -/
theorem Chip.enterMute_takes (c d : Chip) (hw : c.cfg.role = .weigher) (hl : d.load = c.enterMute.load)
    (hm : d.role.mirrored = false) : c.tookRecord d := by
  obtain ⟨hrole, hload, -, -⟩ := c.muted_blocks
  have hwm : c.muted.isWeigher = true := by rw [Chip.isWeigher_iff, Chip.muted_cfg]; exact hw
  refine Chip.takesRecord c c.muted d ?_ (c.muted_onlyChanges .inp (by simp)) (c.muted_onlyChanges .store (by simp))
    (by rw [hrole]) ⟨none, none, hload⟩ ⟨d.load.refreshTimer, d.load.pollTimer, ?_⟩ hm
  · simp [Chip.ownsRecord, hrole, hwm]
  · rw [hl, Chip.enterMute_eq, if_pos hwm]

/-- Tags and adoption leave the timers of the load register. -/
theorem Chip.enterMute_refreshTimer (c : Chip) : c.enterMute.load.refreshTimer = none := by
  obtain ⟨-, hload, -, -⟩ := c.muted_blocks
  have hadopt : c.muted.adoptRecord.load.refreshTimer = none := by
    have h := Chip.adoptRecord_load c.muted
    dsimp only at h
    rw [h, hload]
  rw [Chip.enterMute_eq]
  split
  · unfold Chip.takeHeldTag
    split
    · obtain ⟨-, -, -, -, -, h, -⟩ := c.muted.adoptRecord.takeTag_rest
      rw [h, hadopt]
    · exact hadopt
  · rw [hload]

/-- A part in MUTE has no permission to send. -/
theorem Chip.maySend_mute {c : Chip} (h : c.sup.power = .run) (hm : c.role.state = .mute) : c.maySend = false := by
  simp [Chip.maySend, h, hm]

/-- The record's taking speaks of no link before it. -/
theorem Chip.tookRecord_mapLink {c d : Chip} {f : Link → Link} (h : (c.mapLink f).tookRecord d) : c.tookRecord d := h

/-- The entry to MUTE as the event leaves it (R116). -/
structure Chip.EntersMute (c d : Chip) : Prop where
  role : d.role = { c.role with
    state := .mute, conflict := true, listen := none, status := none, pairing := [], mismatches := 0
    crossCheck := false, noWeigher := false, behind := false
    mirrored := if c.cfg.role = .weigher then false else c.role.mirrored }
  queue : d.link.queue = []
  wslot : d.link.wslot = none
  tslot : c.role.state = .active → d.link.tslot = none
  access : d.link.access = .off ∨ d.link.access = .quiet
  refresh : d.load.refreshTimer = none
  took : c.cfg.role = .weigher → c.tookRecord d
  load : c.cfg.role = .repeater → d.load = { c.load with refreshTimer := none, pollTimer := none }
  note : d.trk.note = none
  cond : d.alarm.stationConflict.cond = true
  rises : c.alarm.stationConflict.cond = false →
    d.alarm.stationConflict.latch = true ∧ d.alarm.stationConflict.ack = false
  only : c.onlyChanges d [.link, .trk, .load, .role, .alarm, .panel]

theorem Chip.enterMute_enters (c : Chip) (hr : c.sup.power = .run) (hacc : c.link.access ≠ .send) :
    c.EntersMute c.enterMute.settleLink := by
  have hin : c.inRun = true := by simp [Chip.inRun, hr]
  obtain ⟨mrole, mload, mtrk, -⟩ := c.muted_blocks
  obtain ⟨mqueue, mwslot, mtslot, macc⟩ := c.muted_link hacc
  obtain ⟨mcond, mlatch⟩ := c.muted_alarm hin
  have moves := c.enterMute_moves
  have hmir := c.enterMute_mirrored
  have htimer := c.enterMute_refreshTimer
  have hpow : c.enterMute.sup.power = .run := by rw [c.enterMute_frame.2.1, hr]
  have htook (d : Chip) := c.enterMute_takes d
  have hrep (h : c.cfg.role = .repeater) : c.enterMute = c.muted := by
    rw [Chip.enterMute_eq, if_neg]
    rw [Chip.isWeigher_iff, Chip.muted_cfg, h]
    decide
  obtain ⟨e, he⟩ : ∃ e, e = c.enterMute := ⟨_, rfl⟩
  rw [← he] at moves hmir htimer hpow hrep htook ⊢
  have hlink : e.link = c.muted.link := moves.quiet (by simp [mrole])
  have hsend : e.maySend = false := Chip.maySend_mute hpow (by rw [moves.state, mrole])
  obtain ⟨soff, swslot, stslot⟩ := Link.settle_forbidden c.muted.link macc
  have hsl : e.settleLink.link = c.muted.link.settle false := by rw [Chip.settleLink_link, hsend, hlink]
  have halarm : e.alarm.stationConflict = c.muted.alarm.stationConflict := moves.alarm .stationConflict (by decide)
  exact {
    role := by
      show e.role = _
      rw [moves.role, hmir, mrole]
    queue := by rw [hsl]; simpa using mqueue
    wslot := by rw [hsl, swslot, mwslot]
    tslot := fun ha => by rw [hsl, stslot, mtslot ha]
    access := by rw [hsl]; exact soff
    refresh := htimer
    took := fun hw => htook _ hw rfl (by show e.role.mirrored = false; rw [hmir, if_pos hw])
    load := fun h => by
      show e.load = _
      rw [hrep h, mload]
    note := by
      show e.trk.note = none
      rcases moves.trk with h | h <;> rw [h, mtrk]
    cond := (congrArg AlarmRec.cond halarm).trans mcond
    rises := fun hf => by
      show e.alarm.stationConflict.latch = true ∧ e.alarm.stationConflict.ack = false
      rw [halarm]
      exact mlatch hf
    only := (c.muted_onlyChanges.trans moves.only).settleLink (by simp) }

/-- Settles O37: the entry to MUTE, and a further conflict there. -/
theorem stationConflictMutes : Obligations.StationConflictMutes := by
  unfold Obligations.StationConflictMutes
  intro s i src dst data htg hwf hr hrun hst hsrc
  obtain ⟨c, hc⟩ : ∃ c, c = s.chip.mapLink Link.runEnded := ⟨_, rfl⟩
  have hin : c.inRun = true := by rw [hc]; simp [Chip.inRun, hrun]
  have htake : c.takeWhole ⟨codeOf i, src, dst, data⟩ = c.conflictReport := by
    rw [Chip.takeWhole, if_pos]
    rw [hc]
    refine ⟨by simpa using hst, by simpa using hsrc, ?_⟩
    simp [Chip.inRun, hrun]
  refine ⟨fun hm => gives_telegram i s src dst data _ htg hwf hr ?_, fun hm => gives_telegram i s src dst data _ htg hwf hr ?_⟩
  · have hcm : c.role.state ≠ .mute := by rw [hc]; exact hm
    rw [← hc, htake, Chip.conflictReport, if_neg hcm]
    have hacc : c.link.access ≠ .send := by
      obtain ⟨-, -, -, hns⟩ := hr
      rw [hc]
      show (Link.busTaken _).access ≠ .send
      unfold Link.busTaken
      split <;> simp_all
    have he := c.enterMute_enters (by rw [hc]; exact hrun) hacc
    obtain ⟨d, hd⟩ : ∃ d, d = c.enterMute.settleLink := ⟨_, rfl⟩
    rw [← hd] at he ⊢
    have htook (hw : s.chip.cfg.role = .weigher) : s.chip.tookRecord d :=
      Chip.tookRecord_mapLink (f := Link.runEnded) (hc ▸ he.took (by rw [hc]; exact hw))
    have honly : s.chip.onlyChanges c [.link] := by rw [hc]; exact s.chip.onlyChanges_mapLink _
    obtain ⟨role, queue, wslot, tslot, access, refresh, -, load, note, cond, rises, only⟩ := he
    rw [hc] at role tslot load rises
    exact ⟨role, queue, wslot, tslot, access, refresh, htook, load, note, cond, rises, (honly.mono (by simp)).trans only⟩
  · have hcm : c.role.state = .mute := by rw [hc]; exact hm
    rw [← hc, htake, Chip.conflictReport, if_pos hcm, hc]
    exact s.chip.onlyHeard_untaken

end Sys2Proof.Machine

/-! SUPPORT. What the operations of a start may move of the link and the load register (R148, R163, R167, R168, R180). -/

namespace Sys2Proof.Machine

set_option Elab.async false

/-- The slots may be written, the queue stays empty, and the counters stand. -/
structure Link.SlotsOnly (l l' : Link) : Prop where
  station : l'.station = l.station ∧ l'.rateFast = l.rateFast ∧ l'.rx = l.rx
  queue : l.queue = [] → l'.queue = []
  counters : l'.check = l.check ∧ l'.form = l.form ∧ l'.length = l.length ∧ l'.txFail = l.txFail ∧ l'.qDrop = l.qDrop
    ∧ l'.quietEntries = l.quietEntries ∧ l'.lastAbort = l.lastAbort

namespace Link.SlotsOnly

theorem refl (l : Link) : l.SlotsOnly l := ⟨⟨rfl, rfl, rfl⟩, id, rfl, rfl, rfl, rfl, rfl, rfl, rfl⟩

theorem trans {l m n : Link} (h : l.SlotsOnly m) (h' : m.SlotsOnly n) : l.SlotsOnly n := by
  obtain ⟨⟨a1, a2, a3⟩, aq, b1, b2, b3, b4, b5, b6, b7⟩ := h
  obtain ⟨⟨c1, c2, c3⟩, cq, d1, d2, d3, d4, d5, d6, d7⟩ := h'
  exact ⟨⟨c1.trans a1, c2.trans a2, c3.trans a3⟩, fun hq => cq (aq hq), d1.trans b1, d2.trans b2, d3.trans b3,
    d4.trans b4, d5.trans b5, d6.trans b6, d7.trans b7⟩

theorem writeW (l : Link) (t : OutTg) : l.SlotsOnly (l.writeW t) :=
  ⟨⟨rfl, rfl, rfl⟩, id, rfl, rfl, rfl, rfl, rfl, rfl, rfl⟩

theorem writeT (l : Link) (t : OutTg) : l.SlotsOnly (l.writeT t) :=
  ⟨⟨rfl, rfl, rfl⟩, id, rfl, rfl, rfl, rfl, rfl, rfl, rfl⟩

theorem abandonCopy (l : Link) (f : Origin → Bool) : l.SlotsOnly (l.abandonCopy f) := by
  unfold Link.abandonCopy
  (repeat' split) <;> exact ⟨⟨rfl, rfl, rfl⟩, id, rfl, rfl, rfl, rfl, rfl, rfl, rfl⟩

theorem emptyW (l : Link) : l.SlotsOnly l.emptyW :=
  (abandonCopy l Origin.isW).trans ⟨⟨rfl, rfl, rfl⟩, id, rfl, rfl, rfl, rfl, rfl, rfl, rfl⟩

theorem emptyT (l : Link) : l.SlotsOnly l.emptyT :=
  (abandonCopy l Origin.isT).trans ⟨⟨rfl, rfl, rfl⟩, id, rfl, rfl, rfl, rfl, rfl, rfl, rfl⟩

theorem emptyQueue (l : Link) : l.SlotsOnly l.emptyQueue :=
  ⟨⟨rfl, rfl, rfl⟩, fun _ => rfl, rfl, rfl, rfl, rfl, rfl, rfl, rfl⟩

theorem settle (l : Link) (m : Bool) : l.SlotsOnly (l.settle m) := by
  refine ⟨?_, ?_, ?_⟩ <;> simp

end Link.SlotsOnly

/-- The load register keeps its counters and history, and of an open record the passes. -/
structure LoadRegister.Restarted (l l' : LoadRegister) : Prop where
  rest : l' = { l with
    record := l'.record, seq := l'.seq, refreshTimer := l'.refreshTimer, pollTimer := l'.pollTimer }
  passes : l'.record.map TruckRec.passes = l.record.map TruckRec.passes

namespace LoadRegister.Restarted

theorem refl (l : LoadRegister) : l.Restarted l := ⟨rfl, rfl⟩

theorem trans {l m n : LoadRegister} (h : l.Restarted m) (h' : m.Restarted n) : l.Restarted n where
  rest := by
    have h1 := h.rest
    have h2 := h'.rest
    rw [h1] at h2
    exact h2
  passes := h'.passes.trans h.passes

end LoadRegister.Restarted

/-- An operation of a start. -/
structure Chip.StartMoves (c d : Chip) : Prop where
  link : c.link.SlotsOnly d.link
  load : c.load.Restarted d.load

namespace Chip.StartMoves

theorem refl (c : Chip) : c.StartMoves c := ⟨.refl _, .refl _⟩

theorem trans {c d e : Chip} (h : c.StartMoves d) (h' : d.StartMoves e) : c.StartMoves e :=
  ⟨h.link.trans h'.link, h.load.trans h'.load⟩

/-- An operation that touches neither. -/
theorem of_eq {c d : Chip} (hl : d.link = c.link) (h : d.load = c.load) : c.StartMoves d := by
  refine ⟨?_, ?_⟩
  · rw [hl]
    exact .refl _
  · rw [h]
    exact .refl _

theorem refresh (c : Chip) (a : Alarm) : c.StartMoves (c.refresh a) := of_eq (by simp) (by simp)

theorem clearCrossCheck (c : Chip) : c.StartMoves c.clearCrossCheck :=
  of_eq (by simp [Chip.clearCrossCheck]) (by simp [Chip.clearCrossCheck])

theorem setRole (c : Chip) (r : RoleState) : c.StartMoves (c.setRole r) := of_eq rfl rfl

theorem mapRole (c : Chip) (f : RoleArbiter → RoleArbiter) : c.StartMoves (c.mapRole f) := of_eq rfl rfl

theorem mapLink (c : Chip) (f : Link → Link) (h : c.link.SlotsOnly (f c.link)) : c.StartMoves (c.mapLink f) :=
  ⟨h, .refl _⟩

/-- The timers of the load register are no part of what a start keeps. -/
theorem mapLoad (c : Chip) (f : LoadRegister → LoadRegister) (h : c.load.Restarted (f c.load)) :
    c.StartMoves (c.mapLoad f) := ⟨.refl _, h⟩

theorem settleLink (c : Chip) : c.StartMoves c.settleLink := mapLink c _ (.settle _ _)

theorem writeTruckSlot (c : Chip) : c.StartMoves c.writeTruckSlot := by
  unfold Chip.writeTruckSlot
  split
  · exact mapLink c _ (.writeT _ _)
  · exact refl c

theorem raiseSeq (c : Chip) : c.StartMoves c.raiseSeq :=
  (mapLoad c _ ⟨rfl, rfl⟩).trans (writeTruckSlot _)

theorem writeStatus (c : Chip) : c.StartMoves c.writeStatus := by
  unfold Chip.writeStatus
  split
  · exact (mapRole c _).trans (mapLink _ _ (.writeW _ _))
  · exact refl c

theorem leaveRole (c : Chip) : c.StartMoves c.leaveRole := by
  obtain ⟨-, hload, hlink⟩ := c.leaveRole_facts
  refine ⟨?_, ?_⟩
  · rw [hlink]
    split
    · exact .emptyT _
    · exact .refl _
  · rw [hload]
    exact ⟨rfl, rfl⟩

/-- Figures that agree have the passes agree. -/
theorem passes_of_figures {r r' : Option TruckRec} (h : r'.map TruckRec.figures = r.map TruckRec.figures) :
    r'.map TruckRec.passes = r.map TruckRec.passes := by
  have hf : TruckRec.passes = (fun f => f.2.2.1) ∘ TruckRec.figures := rfl
  rw [hf, ← Option.map_map, ← Option.map_map, h]

theorem evaluateRecord (c : Chip) : c.StartMoves c.evaluateRecord := by
  obtain ⟨hload, hfig⟩ := c.evaluateRecord_load
  refine ⟨?_, ?_, passes_of_figures hfig⟩
  · rw [c.evaluateRecord_frame.2.2.2.1]
    exact .refl _
  · rw [hload]

theorem reevaluate (c : Chip) : c.StartMoves c.reevaluate := by
  unfold Chip.reevaluate
  dsimp only
  split
  · exact evaluateRecord c
  · exact (evaluateRecord c).trans (raiseSeq _)

theorem adoptRecord (c : Chip) : c.StartMoves c.adoptRecord := by
  obtain ⟨a, ha⟩ : ∃ a, a = if c.role.mirrored then c.load.record.map TruckRec.adopt else c.load.record := ⟨_, rfl⟩
  have hp : a.map TruckRec.passes = c.load.record.map TruckRec.passes := by
    rw [ha]
    split
    · rw [Option.map_map]
      rfl
    · rfl
  have h0 : c.StartMoves (c.setRecord a) := ⟨.refl _, rfl, hp⟩
  have h := (h0.trans (mapRole _ fun r => { r with mirrored := false })).trans (evaluateRecord _)
  unfold Chip.adoptRecord
  rw [← ha]
  dsimp only
  split
  · exact h
  · exact h.trans (raiseSeq _)

/-- A tag channel that is not FRESH holds no tag to take (R73). -/
theorem takeHeldTag (c : Chip) (h : c.inp.tag.freshness ≠ .fresh) : c.StartMoves c.takeHeldTag := by
  rw [Chip.takeHeldTag, if_neg h]
  exact refl c

/-- A repeater that has named none asks none. -/
theorem poll (c : Chip) (h : c.role.named = none) : c.StartMoves c.poll := by
  unfold Chip.poll
  rw [h]
  exact mapLoad c _ ⟨rfl, rfl⟩

theorem enterMute (c : Chip) (h : c.inp.tag.freshness ≠ .fresh) : c.StartMoves c.enterMute := by
  have hm : c.StartMoves c.muted :=
    (((((leaveRole c).trans (setRole _ _)).trans (mapRole _ _)).trans
      (mapLink _ _ ((Link.SlotsOnly.emptyW _).trans (.emptyQueue _)))).trans
        ((refresh _ _).trans (refresh _ _))).trans (clearCrossCheck _)
  have hinp : c.muted.adoptRecord.inp = c.inp := by
    rw [Chip.adoptRecord_frame c.muted |>.2.2.2.2.2.2.2.1]
    exact c.muted_onlyChanges .inp (by simp)
  rw [Chip.enterMute_eq]
  split
  · exact (hm.trans (adoptRecord _)).trans (takeHeldTag _ (by rw [hinp]; exact h))
  · exact hm

theorem enterListen (c : Chip) : c.StartMoves c.enterListen :=
  (((leaveRole c).trans (setRole _ _)).trans (mapRole _ _)).trans ((mapLink _ _ (.emptyW _)).trans (refresh _ _))

theorem enterRepeat (c : Chip) : c.StartMoves c.enterRepeat := by
  have h := ((((leaveRole c).trans (setRole _ .repeating)).trans (mapRole _ fun r =>
    { r with named := none, namedSeq := none, watch := some c.tick, listen := none })).trans
      (refresh _ .noWeigher)).trans (writeStatus _)
  unfold Chip.enterRepeat
  dsimp only
  split
  · refine h.trans (poll _ ?_)
    simp
  · exact h

theorem settleRole (c : Chip) (h : c.inp.tag.freshness ≠ .fresh) : c.StartMoves c.settleRole := by
  unfold Chip.settleRole
  split
  · exact enterMute c h
  · split
    · exact enterListen c
    · exact enterRepeat c

theorem finishStart (c : Chip) : c.StartMoves c.finishStart := by
  have hs (x : Chip) : x.StartMoves x.writeShadow := of_eq (by simp) (by simp)
  have ha (x : Chip) : x.StartMoves x.alarmStart := of_eq (by simp) (by simp)
  exact ((((reevaluate c).trans (hs _)).trans (ha _)).trans (writeStatus _)).trans (settleLink _)

end Chip.StartMoves

end Sys2Proof.Machine

/-! SUPPORT. COLD and LINE starts, and the reset line (R108, R167, R168, R176). -/

namespace Sys2Proof.Machine

set_option Elab.async false

/-! ## The role settles (R108) -/

theorem Chip.finishStart_role (c : Chip) : c.finishStart.role = { c.role with status := c.finishStart.role.status } := by
  obtain ⟨x, hx⟩ : ∃ x, x = c.reevaluate.writeShadow.alarmStart := ⟨_, rfl⟩
  have hr : x.role = c.role := by rw [hx]; simp
  have hset (y : Chip) : y.settleLink.role = y.role := rfl
  have he : c.finishStart.role = x.writeStatus.role := by rw [Chip.finishStart, ← hx, hset]
  have hw : x.writeStatus.role = { x.role with status := x.writeStatus.role.status } := by
    unfold Chip.writeStatus
    split <;> rfl
  rw [he, hw, hr]

theorem Chip.enterListen_role (c : Chip) : c.enterListen.role = { c.role with
    state := .listen, named := none, namedSeq := none, watch := none, listen := some c.tick, status := none
    pairing := [], behind := false, noWeigher := false } := by
  obtain ⟨hrole, -, -⟩ := c.leaveRole_facts
  simp [Chip.enterListen, Chip.setRole, Chip.discardNote, hrole]

theorem Chip.enterRepeat_role (c : Chip) : c.enterRepeat.role = { c.role with
    state := .repeating, named := none, namedSeq := none, watch := some c.tick, listen := none
    status := c.enterRepeat.role.status, pairing := [], behind := false, noWeigher := false } := by
  obtain ⟨hrole, -, -⟩ := c.leaveRole_facts
  have hpoll (x : Chip) : x.poll.role = x.role := by
    unfold Chip.poll
    cases x.role.named <;> simp
  obtain ⟨x, hx⟩ : ∃ x, x = ((c.leaveRole.setRole .repeating).mapRole fun r =>
    { r with named := none, namedSeq := none, watch := some c.tick, listen := none }).refresh .noWeigher := ⟨_, rfl⟩
  have hxr : x.role = { c.role with
      state := .repeating, named := none, namedSeq := none, watch := some c.tick, listen := none
      pairing := [], behind := false, noWeigher := false } := by
    rw [hx]
    simp [Chip.setRole, Chip.discardNote, hrole]
  have hw : x.writeStatus.role = { x.role with status := x.writeStatus.role.status } := by
    unfold Chip.writeStatus
    split <;> rfl
  have he : c.enterRepeat.role = x.writeStatus.role := by
    unfold Chip.enterRepeat
    dsimp only
    rw [← hx]
    split
    · exact hpoll _
    · rfl
  rw [he, hw, hxr]

theorem Chip.enterMute_role (c : Chip) : c.enterMute.role = { c.role with
    state := .mute, conflict := true, listen := none, status := none, pairing := [], mismatches := 0
    crossCheck := false, noWeigher := false, behind := false, mirrored := c.enterMute.role.mirrored } := by
  obtain ⟨mrole, -, -, -⟩ := c.muted_blocks
  have h := c.enterMute_moves.role
  rw [mrole] at h
  exact h

theorem Chip.isWeigher_eq_false (c : Chip) : c.isWeigher = false ↔ c.cfg.role = .repeater := by
  rw [← Bool.not_eq_true, Chip.isWeigher_iff]
  cases c.cfg.role <;> simp

/-- The role that a COLD or LINE start settles. -/
theorem Chip.settleRole_settled (c : Chip) (s : Straps) (hst : c.link.station = s.stn.toNat)
    (hp : c.role.peers = []) (hn : c.role.named = none) (hc : c.role.conflict = false) :
    c.settleRole.finishStart.settledRole s := by
  have hf := c.settleRole.finishStart_role
  have htick : c.settleRole.finishStart.tick = c.tick := by
    rw [Chip.finishStart_frame _ |>.2.2.1, Chip.settleRole_frame _ |>.2.2.1]
  have hcfg : c.settleRole.finishStart.cfg = c.cfg := by
    unfold Chip.cfg
    simp
  obtain ⟨d, hd⟩ : ∃ d, d = c.settleRole.finishStart := ⟨_, rfl⟩
  rw [← hd] at hf htick hcfg ⊢
  have hzero : s.stn = 0 ↔ c.link.station = 0 := by
    rw [hst]
    exact ⟨fun h => by rw [h]; rfl, fun h => BitVec.eq_of_toNat_eq h⟩
  unfold Chip.settledRole
  rw [hf, hcfg, htick]
  unfold Chip.settleRole
  by_cases h0 : c.link.station = 0
  · rw [if_pos h0, c.enterMute_role]
    simp [hzero.2 h0, hp, hn]
  · rw [if_neg h0]
    by_cases hw : c.isWeigher = true
    · have hwr := c.isWeigher_iff.1 hw
      rw [if_pos hw, c.enterListen_role]
      simpa [hp, hwr, hc] using mt hzero.1 h0
    · have hwr := c.isWeigher_eq_false.1 (by simpa using hw)
      rw [if_neg hw, c.enterRepeat_role]
      simpa [hp, hwr, hc] using mt hzero.1 h0

/-! ## COLD and LINE starts (R148, R167, R168) -/

/-- The values that a COLD or LINE start gives the blocks before the role settles. -/
structure Chip.StartValues (c : Chip) (s : Straps) : Prop where
  life : c.sup.life = .up
  power : c.sup.power = .run
  sup : c.sup.peekTimer = none ∧ c.sup.offAfterStart = !c.sup.ignition
  link : c.link = Link.start s
  inp : c.inp = InputTable.start c.tick
  eng : c.eng = Engine.start
  cal : c.cal = CalUnit.start
  trk : c.trk.cycle = .idle ∧ c.trk.ctx = none
  page : c.panel.page = .run
  load : c.load.refused = none ∧ c.load.mirrorCounts = none
  role : c.role.peers = [] ∧ c.role.named = none ∧ c.role.conflict = false
  window : c.store.window = some c.tick ∧ c.store.work = c.store.cfg
  codes : c.store.wrongCodes = 0 ∧ c.store.lockout = false
  owed : c.store.owed = [] ∧ c.store.owedNext = [] ∧ c.store.replaced = false

/-- What the end of a start leaves of the other blocks. -/
theorem Chip.settleRole_finish (c : Chip) (h : c.inp.tag.freshness ≠ .fresh) :
    let d := c.settleRole.finishStart
    d.sup = c.sup ∧ d.tick = c.tick ∧ d.pins = c.pins ∧ d.inp = c.inp ∧ d.eng = c.eng ∧ d.cal = c.cal
      ∧ d.trk.cycle = c.trk.cycle ∧ d.trk.ctx = c.trk.ctx ∧ d.trk.voids = c.trk.voids ∧ d.panel.page = c.panel.page
      ∧ d.panel.settings = c.panel.settings ∧ d.store = c.store ∧ d.role.resumeRole = c.role.resumeRole
      ∧ c.StartMoves d := by
  intro d
  refine ⟨?_, ?_, ?_, ?_, ?_, ?_, ?_, ?_, ?_, ?_, ?_, ?_, ?_, (Chip.StartMoves.settleRole c h).trans (.finishStart _)⟩ <;>
    simp [d]

theorem Chip.StartValues.tag {c : Chip} {s : Straps} (h : c.StartValues s) : c.inp.tag.freshness ≠ .fresh := by
  rw [h.inp]
  simp [InputTable.start, ChanRec.start]

/-- A start from those values. -/
theorem Chip.StartValues.started {c : Chip} {s : Straps} (h : c.StartValues s) :
    c.settleRole.finishStart.startedAfresh s ∧ c.settleRole.finishStart.settledRole s := by
  obtain ⟨hp, hn, hc⟩ := h.role
  refine ⟨?_, c.settleRole_settled s (by rw [h.link]; rfl) hp hn hc⟩
  obtain ⟨esup, etick, -, einp, eeng, ecal, ecyc, ectx, -, epage, -, estore, -, moves⟩ := c.settleRole_finish h.tag
  obtain ⟨d, hd⟩ : ∃ d, d = c.settleRole.finishStart := ⟨_, rfl⟩
  rw [← hd] at esup etick einp eeng ecal ecyc ectx epage estore moves ⊢
  obtain ⟨⟨⟨lst, lrate, lrx⟩, lq, l1, l2, l3, l4, l5, l6, l7⟩, lrest, -⟩ := moves
  obtain ⟨sp, so⟩ := h.sup
  obtain ⟨tc, tx⟩ := h.trk
  obtain ⟨lr, lm⟩ := h.load
  obtain ⟨ww, wk⟩ := h.window
  obtain ⟨kc, kl⟩ := h.codes
  obtain ⟨o1, o2, o3⟩ := h.owed
  rw [h.link] at lst lrate lrx lq l1 l2 l3 l4 l5 l6 l7
  unfold Chip.startedAfresh
  rw [esup, etick, einp, eeng, ecal, ecyc, ectx, epage, estore, lrest]
  exact ⟨h.life, h.power, sp, so, lst, lrate, lrx, lq rfl, l1, l2, l3, l4, l5, l6, l7, h.inp, by rw [h.eng]; rfl, h.cal, tc,
    tx, h.page, lr, lm, ww, wk, kc, kl, o1, o2, o3⟩

end Sys2Proof.Machine

/-! SUPPORT. The LINE start and the reset line (R168, R176). -/

namespace Sys2Proof.Machine

set_option Elab.async false

/-- The array once a write in progress has completed (R165). -/
def ParamStore.arrayDone (p : ParamStore) : StoreArray :=
  match p.writing with
  | none => p.array
  | some (w, _) => p.array.put w

theorem ParamStore.finishWrite_eq (p : ParamStore) :
    p.finishWrite = { p with array := p.arrayDone, writing := none } := by
  unfold ParamStore.finishWrite ParamStore.arrayDone
  cases hw : p.writing with
  | none =>
    dsimp only
    rw [← hw]
  | some w => rfl

/-- The store after a LINE start (R168). -/
theorem ParamStore.line_facts (now : Tick) (p : ParamStore) :
    let q := p.line now
    q.array = p.arrayDone ∧ q.cfg = p.arrayDone.config.getD Cfg.fallback ∧ q.work = q.cfg
      ∧ q.configDefault = p.arrayDone.config.isNone ∧ q.window = some now ∧ q.wrongCodes = 0 ∧ q.lockout = false
      ∧ q.owed = [] ∧ q.owedNext = [] ∧ q.replaced = false ∧ q.retainLost = p.retainLost ∧ q.reqCurve = none
      ∧ q.reqConfig = none := by
  intro q
  have hq : q = (({ p with array := p.arrayDone, writing := none, reqCurve := none, reqConfig := none } :
      ParamStore).load now).kick now := by
    show p.line now = _
    rw [ParamStore.line, ParamStore.finishWrite_eq]
  rw [hq]
  unfold ParamStore.kick
  cases p.reqRetain <;> simp [ParamStore.load]

/-- The blocks at their LINE values before the role settles. -/
def Chip.lineValues (s : Straps) (c : Chip) : Chip :=
  let c := c.mapSup fun p =>
    { p with life := .up, power := .run, startKind := .line, peekTimer := none, offAfterStart := !p.ignition }
  let c := { c with
    link := Link.start s
    inp := InputTable.start c.tick
    eng := Engine.start
    trk := c.trk.line
    load := c.load.line
    role := c.role.line
    cal := CalUnit.start
    panel := c.panel.line c.pins.keys c.tick
    store := c.store.line c.tick }
  { c with alarm := AlarmUnit.start c.cfg }

theorem Chip.lineStart_eq (s : Straps) (c : Chip) : c.lineStart s = (c.lineValues s).settleRole.finishStart := rfl

theorem Chip.lineValues_start (s : Straps) (c : Chip) : (c.lineValues s).StartValues s := by
  obtain ⟨-, -, hwork, -, hwin, hcodes, hlock, ho, hn, hr, -⟩ := c.store.line_facts c.tick
  exact { life := rfl, power := rfl, sup := ⟨rfl, rfl⟩, link := rfl, inp := rfl, eng := rfl, cal := rfl, trk := ⟨rfl, rfl⟩
          page := rfl, load := ⟨rfl, rfl⟩, role := ⟨rfl, rfl, rfl⟩, window := ⟨hwin, hwork⟩, codes := ⟨hcodes, hlock⟩
          owed := ⟨ho, hn, hr⟩ }

theorem Tracker.line_voids (t : Tracker) : t.line.voids =
    if t.cycle = .lift ∨ t.cycle = .weigh ∨ t.cycle = .carry then
      { t.voids with restart := min 65535 (t.voids.restart + 1) }
    else t.voids := by
  cases h : t.cycle <;> simp [Tracker.line, Tracker.inFlight, h, Voids.raise, bump, satAdd]

/-- A LINE start. -/
theorem Chip.lineStart_started (s : Straps) (c : Chip) : c.lineStarted (c.lineStart s) s := by
  have hv := c.lineValues_start s
  obtain ⟨hstart, hrole⟩ := hv.started
  obtain ⟨esup, etick, -, -, -, -, -, -, evoids, -, esettings, estore, -, moves⟩ := (c.lineValues s).settleRole_finish hv.tag
  rw [Chip.lineStart_eq]
  obtain ⟨d, hd⟩ : ∃ d, d = (c.lineValues s).settleRole.finishStart := ⟨_, rfl⟩
  rw [← hd] at hstart hrole esup etick evoids esettings estore moves ⊢
  obtain ⟨-, lrest, lpasses⟩ := moves
  obtain ⟨harray, hcfg, -, hdef, -, -, -, -, -, -, hlost, hcurve, hconfig⟩ := c.store.line_facts c.tick
  have hst : d.store = c.store.line c.tick := estore
  unfold Chip.lineStarted
  intro array
  have hdone : array = c.store.arrayDone := by
    cases hw : c.store.writing with
    | none => simp [array, hw, ParamStore.arrayDone]
    | some w =>
      obtain ⟨w, t⟩ := w
      cases w <;> simp [array, hw, ParamStore.arrayDone, StoreArray.put]
  rw [hdone]
  refine ⟨hstart, hrole, by rw [esup]; rfl, by rw [esup]; rfl, by rw [esup]; rfl, etick, esettings, by rw [lrest]; rfl,
    by rw [lrest]; rfl, by rw [lrest]; rfl, by rw [lrest]; rfl, lpasses, ?_, ?_, fun x hx => ?_, fun hx => ?_, ?_, ?_, ?_⟩
  · exact evoids.trans c.trk.line_voids
  · rw [hst, harray]
  · rw [hst, hcfg, hdef, hx]
    exact ⟨rfl, rfl⟩
  · rw [hst, hcfg, hdef, hx]
    exact ⟨rfl, rfl⟩
  · rw [hst, hlost]
  · rw [hst, hcurve]
  · rw [hst, hconfig]

theorem Chip.lineStart_status (s : Straps) (c : Chip) : (c.lineStart s).sup.status = c.sup.status := by
  rw [Chip.lineStart_eq]
  simp [Chip.lineValues]

/-- Of the pins and the status a LINE start's outcome says nothing. -/
theorem Chip.lineStarted_of {c d : Chip} {pins : Pins} {st : SupplyStatus} {s : Straps}
    (h : { c with pins := pins, sup := { c.sup with status := st } }.lineStarted d s) : c.lineStarted d s := h

/-- A held part, or one with a LINE start pending, takes no event that whenUp guards. -/
theorem Chip.whenUp_down (f : Chip → Chip) (c : Chip) (h : c.sup.life ≠ .up) : Chip.whenUp f c = c := by
  unfold Chip.whenUp
  split
  · next hup => exact absurd hup h
  all_goals rfl

theorem act_id (s : State) (f : Chip → Chip) (h : f s.chip = s.chip) : s.act f = .next s := by
  rw [State.act, h]

/-- Settles O58: assertion, the commands that do not reach the part, and the two releases. -/
theorem resetLineHoldsThePart : Obligations.ResetLineHoldsThePart := by
  unfold Obligations.ResetLineHoldsThePart
  refine fun s => ⟨fun hup => ?_, fun i hup hi => ?_, fun straps hh hs => ?_, fun straps hh hs => ?_,
    fun volts straps hp hs hv => ?_⟩
  · refine gives_act _ s Chip.resetAssert _ rfl ?_
    simp only [Chip.resetAssert, hup]
    rfl
  · have hdown (f : Chip → Chip) : s.act (Chip.whenUp f) = .next s := act_id s _ (Chip.whenUp_down f _ hup)
    cases i
    case keyLineChange => exact absurd trivial hi
    case storeWriteComplete => exact absurd trivial hi
    case supplyFallsLow => exact absurd trivial hi
    case supplyRisesOk => exact absurd trivial hi
    case ignLineChange => exact absurd trivial hi
    case ignitionChange => exact absurd trivial hi
    case regulatorFail => exact absurd trivial hi
    case coldStart => exact absurd trivial hi
    case resetAssert => exact absurd trivial hi
    case resetRelease => exact absurd trivial hi
    all_goals exact hdown _
  · refine gives_act _ s (Chip.resetRelease straps) _ rfl ?_
    have he : s.chip.resetRelease straps
        = Chip.lineStart straps { s.chip with pins := { s.chip.pins.setStraps straps with reset := false } } := by
      simp only [Chip.resetRelease, hh, hs]
    rw [he]
    exact ⟨Chip.lineStarted_of (st := s.chip.sup.status) (Chip.lineStart_started _ _), (Chip.lineStart_status _ _).trans hs⟩
  · refine gives_act _ s (Chip.resetRelease straps) _ rfl ?_
    have he : s.chip.resetRelease straps
        = Chip.mapSup (fun p => { p with life := .linePending })
            { s.chip with pins := { s.chip.pins.setStraps straps with reset := false } } := by
      simp only [Chip.resetRelease, hh, hs]
    rw [he]
    rfl
  · refine gives_act _ s (Chip.supplyRisesOk volts straps) _ rfl ?_
    have he : s.chip.supplyRisesOk volts straps
        = Chip.lineStart straps (Chip.mapSup (fun p => { p with status := .ok })
            { s.chip with pins := { s.chip.pins.setStraps straps with vsense := volts } }) := by
      rw [Chip.supplyRisesOk, if_pos ⟨hv, hs, by simp [hp]⟩]
      simp only [Chip.mapSup, hp]
    rw [he]
    exact ⟨Chip.lineStarted_of (st := .ok) (Chip.lineStart_started _ _), Chip.lineStart_status _ _⟩

end Sys2Proof.Machine

/-! SUPPORT. The loss of the regulator and the COLD start (R165, R167, R174). -/

namespace Sys2Proof.Machine

set_option Elab.async false

theorem Chip.coldValues_start (volts : Nat) (s : Straps) (pins : Pins) (a : StoreArray) :
    (Chip.coldValues volts s pins a).StartValues s where
  life := rfl
  power := rfl
  sup := ⟨rfl, rfl⟩
  link := rfl
  inp := rfl
  eng := rfl
  cal := rfl
  trk := ⟨rfl, rfl⟩
  page := rfl
  load := ⟨rfl, rfl⟩
  role := ⟨rfl, rfl, rfl⟩
  window := ⟨rfl, rfl⟩
  codes := ⟨rfl, rfl⟩
  owed := ⟨rfl, rfl, rfl⟩

/-- A set read from the array is valid where its record is good and its marker set (R164). -/
theorem coldCurves_valid (a : StoreArray) (i : Fin 4) :
    ((ParamStore.cold a 0).curves[i]).valid = true
      ↔ (a.curves[i]).good = true ∧ ((a.curves[i]).set).valid = true := by
  simp [ParamStore.cold, ParamStore.load, CurveRegion.copy]

/-- What a write cut off leaves of the array (R165). -/
theorem StoreArray.cut_curve (i : Fin 4) (x : CurveSet) (pages : Nat) (a : StoreArray) :
    ((a.cut (.curve i x) pages).curves[i]).good = false
      ∧ (∀ j : Fin 4, j ≠ i → (a.cut (.curve i x) pages).curves[j] = a.curves[j])
      ∧ (a.cut (.curve i x) pages).config = a.config ∧ (a.cut (.curve i x) pages).retained = a.retained := by
  refine ⟨by simp [StoreArray.cut], fun j hj => ?_, rfl, rfl⟩
  have hij : i.val ≠ j.val := fun h => hj (Fin.ext h.symm)
  simp [StoreArray.cut, Vector.getElem_set_ne _ _ hij]

/-- Settles O59: the regulator's failure, and the start that reads the array. -/
theorem coldStartReadsTheStore : Obligations.ColdStartReadsTheStore := by
  unfold Obligations.ColdStartReadsTheStore
  intro s volts array
  refine ⟨fun hv hoff => ?_, fun straps hv hoff hreset => ?_⟩
  · refine gives_act _ s (Chip.regulatorFail volts) _ rfl ?_
    rw [Chip.regulatorFail, if_pos ⟨hv, hoff⟩]
    obtain ⟨a, ha⟩ : ∃ a, a = s.chip.store.arrayAtFail s.chip.tick := ⟨_, rfl⟩
    have harr : (Chip.unpowered { s.chip.pins with vsense := volts } a).store.array = a := rfl
    rw [← ha]
    refine ⟨rfl, rfl, fun hw => ?_, fun c t hw => ?_, fun r t hw => ?_, fun i x t hw => ?_⟩
    · rw [harr, ha, ParamStore.arrayAtFail, hw]
    · rw [harr, ha, ParamStore.arrayAtFail, hw]
      rfl
    · rw [harr, ha, ParamStore.arrayAtFail, hw]
      rfl
    · rw [harr, ha, ParamStore.arrayAtFail, hw]
      exact StoreArray.cut_curve i x _ _
  · refine gives_act _ s (Chip.coldStart volts straps) _ rfl ?_
    obtain ⟨c, hc⟩ : ∃ c, c = Chip.coldValues volts straps s.chip.pins array := ⟨_, rfl⟩
    have he : s.chip.coldStart volts straps = c.settleRole.finishStart := by
      simp only [Chip.coldStart, hoff, if_pos hv, hreset, hc, array]
      rfl
    have hvals : c.StartValues straps := by
      rw [hc]
      exact Chip.coldValues_start ..
    obtain ⟨hstart, hrole⟩ := hvals.started
    obtain ⟨esup, etick, -, -, -, -, -, -, evoids, -, esettings, estore, eresume, moves⟩ := c.settleRole_finish hvals.tag
    rw [he]
    obtain ⟨d, hd⟩ : ∃ d, d = c.settleRole.finishStart := ⟨_, rfl⟩
    rw [← hd] at hstart hrole esup etick evoids esettings estore eresume moves ⊢
    obtain ⟨-, lrest, lpasses⟩ := moves
    rw [hc] at esup etick evoids esettings estore eresume lrest lpasses
    have hst : d.store = ParamStore.cold array 0 := estore
    refine ⟨hstart, hrole, by rw [esup]; rfl, etick, by rw [esup]; rfl, by rw [esup]; rfl, by rw [esup]; rfl, evoids,
      by rw [hst]; rfl, fun x hx => ?_, fun hx => ?_, fun i => ?_, fun r hr => ?_, fun hr => ?_⟩
    · rw [hst]
      simp [ParamStore.cold, ParamStore.load, hx]
    · rw [hst]
      simp [ParamStore.cold, ParamStore.load, hx, Cfg.fallback]
    · rw [hst]
      exact coldCurves_valid array i
    · have hl : (Chip.coldValues volts straps s.chip.pins array).load = LoadRegister.cold r := by
        simp [Chip.coldValues, hr]
      rw [hl] at lrest lpasses
      refine ⟨?_, by rw [lrest]; rfl, by rw [lrest]; rfl, by rw [lrest]; rfl, by rw [lrest]; rfl, by rw [lrest]; rfl, ?_, ?_,
        lpasses⟩
      · rw [hst]
        simp [ParamStore.cold, ParamStore.load, hr]
      · rw [esettings]
        simp [Chip.coldValues, Panel.cold, hr]
      · rw [eresume]
        simp [Chip.coldValues, RoleArbiter.cold, hr]
    · have hl : (Chip.coldValues volts straps s.chip.pins array).load
          = LoadRegister.cold (Retained.lost (ParamStore.cold array 0).cfg.defaultSet) := by
        simp [Chip.coldValues, hr]
      rw [hl] at lrest lpasses
      have hnone : d.load.record = none := by simpa [LoadRegister.cold, Retained.lost] using lpasses
      refine ⟨?_, by rw [lrest]; rfl, by rw [lrest]; rfl, by rw [lrest]; rfl, by rw [lrest]; rfl, by rw [lrest]; rfl, hnone,
        ?_, ?_⟩
      · rw [hst]
        simp [ParamStore.cold, ParamStore.load, hr]
      · rw [eresume]
        simp [Chip.coldValues, RoleArbiter.cold, hr, Retained.lost]
      · rw [esettings, hst]
        simp [Chip.coldValues, Panel.cold, hr, Retained.lost, Settings.lost]

end Sys2Proof.Machine

/-! SUPPORT. The RESUME start (R180). -/

namespace Sys2Proof.Machine

set_option Elab.async false

/-! ## The resume role is taken (R109) -/

/-- What the resume role's entry leaves of the arbiter. -/
structure Chip.TakesResumeRole (c d : Chip) : Prop where
  state : d.role.state = c.role.resumeRole
  peers : d.role.peers = [] ∧ d.role.named = none ∧ d.role.pairing = []
  listen : d.role.state = .listen → d.role.listen = some c.tick
  watch : d.role.state = .standby ∨ d.role.state = .repeating → d.role.watch = some c.tick
  trk : d.trk = { c.trk with note := none }
  moves : c.StartMoves d

theorem Chip.writeStatus_role (c : Chip) : c.writeStatus.role = { c.role with status := c.writeStatus.role.status } := by
  unfold Chip.writeStatus
  split <;> rfl

/-- Entry to ACTIVE, where the tag channel holds nothing to take (R111). -/
theorem Chip.enterActive_started (c : Chip) (h : c.inp.tag.freshness ≠ .fresh) :
    c.enterActive.role.state = .active ∧ c.enterActive.role.peers = c.role.peers ∧ c.enterActive.role.named = none
      ∧ c.enterActive.role.pairing = [] ∧ c.enterActive.trk = { c.trk with note := none }
      ∧ c.StartMoves c.enterActive := by
  obtain ⟨hrole, -, -⟩ := c.leaveRole_facts
  obtain ⟨x, hx⟩ : ∃ x, x = ((c.leaveRole.setRole .active).mapRole fun r =>
    { r with named := none, namedSeq := none, watch := none, listen := none }).clearCrossCheck := ⟨_, rfl⟩
  have hxm : c.StartMoves x := by
    rw [hx]
    exact (((Chip.StartMoves.leaveRole c).trans (.setRole _ _)).trans (.mapRole _ _)).trans (.clearCrossCheck _)
  have hxr : x.role = { c.role with
      state := .active, named := none, namedSeq := none, watch := none, listen := none, pairing := [], behind := false
      noWeigher := false, mismatches := 0, crossCheck := false } := by
    rw [hx]
    simp [Chip.clearCrossCheck, Chip.setRole, Chip.discardNote, hrole]
  have hxt : x.trk = { c.trk with note := none } := by
    rw [hx]
    simp [Chip.clearCrossCheck, Chip.setRole, Chip.discardNote]
  have hxi : x.adoptRecord.inp.tag.freshness ≠ .fresh := by
    have hi : x.adoptRecord.inp = c.inp := by
      rw [hx]
      simp [Chip.clearCrossCheck, Chip.setRole, Chip.discardNote]
    rw [hi]
    exact h
  have htag : x.adoptRecord.takeHeldTag = x.adoptRecord := by rw [Chip.takeHeldTag, if_neg hxi]
  have he : c.enterActive = ((x.adoptRecord.writeStatus).mapLoad fun l =>
      { l with refreshTimer := some x.adoptRecord.writeStatus.tick }).writeTruckSlot := by
    unfold Chip.enterActive
    dsimp only
    rw [← hx, htag]
  have hmoves : c.StartMoves c.enterActive := by
    rw [he]
    exact (((hxm.trans (.adoptRecord _)).trans (.writeStatus _)).trans (.mapLoad _ _ ⟨rfl, rfl⟩)).trans (.writeTruckSlot _)
  have hr : c.enterActive.role = x.adoptRecord.writeStatus.role := by
    rw [he]
    simp
  refine ⟨?_, ?_, ?_, ?_, ?_, hmoves⟩
  · rw [hr, Chip.writeStatus_role, Chip.adoptRecord_role, hxr]
  · rw [hr, Chip.writeStatus_role, Chip.adoptRecord_role, hxr]
  · rw [hr, Chip.writeStatus_role, Chip.adoptRecord_role, hxr]
  · rw [hr, Chip.writeStatus_role, Chip.adoptRecord_role, hxr]
  · rw [he]
    simp [hxt]

/-- An entry that moves the arbiter's timers, the status and the conflict alone. -/
theorem Chip.TakesResumeRole.of_timers {c d : Chip}
    (hr : d.role = { RoleArbiter.resume c.role with
      watch := d.role.watch, listen := d.role.listen, status := d.role.status, conflict := d.role.conflict })
    (ht : d.trk = { c.trk with note := none }) (hm : c.StartMoves d)
    (hl : c.role.resumeRole = .listen → d.role.listen = some c.tick)
    (hw : c.role.resumeRole = .standby ∨ c.role.resumeRole = .repeating → d.role.watch = some c.tick) :
    c.TakesResumeRole d := by
  have hs : d.role.state = c.role.resumeRole := by rw [hr]; rfl
  exact { state := hs, peers := by rw [hr]; exact ⟨rfl, rfl, rfl⟩, listen := fun h => hl (hs ▸ h), watch := fun h => hw (hs ▸ h)
          trk := ht, moves := hm }

theorem Chip.resumeRole_takes (c : Chip) (h : c.inp.tag.freshness ≠ .fresh) : c.TakesResumeRole c.resumeRole := by
  obtain ⟨x, hx⟩ : ∃ x, x = (c.mapRole RoleArbiter.resume).discardNote := ⟨_, rfl⟩
  have hxm : c.StartMoves x := by
    rw [hx]
    exact Chip.StartMoves.of_eq rfl rfl
  have hxr : x.role = RoleArbiter.resume c.role := by rw [hx]; rfl
  have hxt : x.trk = { c.trk with note := none } := by rw [hx]; rfl
  have hxi : x.inp = c.inp := by rw [hx]; rfl
  have hxk : x.tick = c.tick := by rw [hx]; rfl
  have hstate : x.role.state = c.role.resumeRole := by rw [hxr]; rfl
  have he : c.resumeRole = match x.role.state with
      | .active => x.enterActive
      | .standby => (x.mapRole fun r => { r with watch := some x.tick }).writeStatus
      | .listen => x.mapRole fun r => { r with listen := some x.tick }
      | .calibrating => x.writeStatus
      | .repeating =>
        if ((x.mapRole fun r => { r with watch := some x.tick }).writeStatus).polls then
          ((x.mapRole fun r => { r with watch := some x.tick }).writeStatus).poll
        else (x.mapRole fun r => { r with watch := some x.tick }).writeStatus
      | .mute => x.mapRole fun r => { r with conflict := true } := by
    rw [hx]
    rfl
  obtain ⟨y, hy⟩ : ∃ y, y = (x.mapRole fun r => { r with watch := some x.tick }).writeStatus := ⟨_, rfl⟩
  have hym : x.StartMoves y := by
    rw [hy]
    exact (Chip.StartMoves.mapRole x _).trans (.writeStatus _)
  have hyr : y.role = { x.role with watch := some x.tick, status := y.role.status } := by
    rw [hy, Chip.writeStatus_role]
    rfl
  have hyt : y.trk = x.trk := by rw [hy]; simp
  rw [← hy] at he
  cases hs : x.role.state
  all_goals rw [hs] at he; dsimp only at he
  case active =>
    obtain ⟨a1, a2, a3, a4, a5, a6⟩ := x.enterActive_started (by rw [hxi]; exact h)
    exact {
      state := by rw [he, a1, ← hstate, hs]
      peers := by
        rw [he]
        exact ⟨by rw [a2, hxr]; rfl, a3, a4⟩
      listen := by simp [he, a1]
      watch := by simp [he, a1]
      trk := by simp [he, a5, hxt]
      moves := by rw [he]; exact hxm.trans a6 }
  case listen =>
    rw [he]
    refine .of_timers (by rw [← hxr]; rfl) hxt (hxm.trans (.mapRole _ _)) (fun _ => ?_) (fun h => ?_)
    · rw [← hxk]
      rfl
    · rw [← hstate, hs] at h
      simp at h
  case standby =>
    rw [he]
    refine .of_timers ?_ (hyt.trans hxt) (hxm.trans hym) (fun h => ?_) (fun _ => ?_)
    · rw [hyr, hxr]
    · rw [← hstate, hs] at h
      cases h
    · rw [hyr, hxk]
  case calibrating =>
    rw [he]
    refine .of_timers ?_ ?_ (hxm.trans (.writeStatus _)) (fun h => ?_) (fun h => ?_)
    · rw [Chip.writeStatus_role, hxr]
    · rw [← hxt]
      simp
    · rw [← hstate, hs] at h
      cases h
    · rw [← hstate, hs] at h
      simp at h
  case repeating =>
    have hpoll : y.StartMoves y.poll := .poll y (by rw [hyr, hxr]; rfl)
    have hpr : y.poll.role = y.role ∧ y.poll.trk = y.trk := by
      unfold Chip.poll
      cases y.role.named <;> simp
    obtain ⟨z, hz⟩ : ∃ z, z = c.resumeRole := ⟨_, rfl⟩
    have hzf : z.role = y.role ∧ z.trk = y.trk ∧ y.StartMoves z := by
      rw [hz, he]
      split
      · exact ⟨hpr.1, hpr.2, hpoll⟩
      · exact ⟨rfl, rfl, .refl _⟩
    obtain ⟨zr, zt, zm⟩ := hzf
    rw [← hz]
    refine .of_timers ?_ (zt.trans (hyt.trans hxt)) ((hxm.trans hym).trans zm) (fun h => ?_) (fun _ => ?_)
    · rw [zr, hyr, hxr]
    · rw [← hstate, hs] at h
      cases h
    · rw [zr, hyr, hxk]
  case mute =>
    rw [he]
    refine .of_timers (by rw [← hxr]; rfl) hxt (hxm.trans (.mapRole _ _)) (fun h => ?_) (fun h => ?_)
    · rw [← hstate, hs] at h
      cases h
    · rw [← hstate, hs] at h
      simp at h

end Sys2Proof.Machine

/-! SUPPORT. The power states that are left: RESUME, HOLD to DOZE, PEEK to DOZE (R122, R175, R178-R180). -/

namespace Sys2Proof.Machine

set_option Elab.async false

/-! ## The RESUME start (R180) -/

/-- The blocks at their RESUME values before the role is taken. -/
def Chip.resumeValues (c : Chip) : Chip :=
  let c := c.mapSup fun s => { s with power := .run, startKind := .resume, peekTimer := none }
  let c := c.mapStore fun p => { p with wrongCodes := 0, lockout := false }
  let c := ((c.mapLink Link.resume).mapInp (InputTable.resume c.tick)).mapEng fun _ => Engine.start
  let c := (c.mapLoad LoadRegister.resume).mapPanel (Panel.resume c.pins.keys c.tick)
  c.mapCal CalUnit.resume

theorem Chip.resumeStart_eq (c : Chip) : c.resumeStart = c.resumeValues.resumeTracker.resumeRole.finishStart := rfl

/-- No channel is FRESH at a RESUME start. -/
theorem ChanRec.resume_stale (now : Tick) (r : ChanRec) : (r.resume now).freshness ≠ .fresh := by
  unfold ChanRec.resume
  dsimp only
  split <;> decide

/-- The tracker at a RESUME start: POWER is gone, and with no other reason it stands in IDLE (R29, R48). -/
theorem Chip.resumeTracker_eq (c : Chip) (h : c.inp.pressure.freshness ≠ .fresh) :
    c.resumeTracker = c.mapTrk fun t =>
      if t.suspCal then { t with suspPower := false, prevAngle := none, note := none }
      else { ({ t with suspPower := false, prevAngle := none, note := none } : Tracker).endPass with
        cycle := .idle, racked := false } := by
  unfold Chip.resumeTracker Chip.unsuspend
  cases hc : c.trk.suspCal with
  | true => simp [Chip.mapTrk, hc]
  | false =>
    have hs := Chip.enterIdle_stays (c.mapTrk fun t => { t with suspPower := false, prevAngle := none, note := none })
      fun v hf _ => absurd hf h
    simp only [Chip.mapTrk, hc, Bool.false_or, if_false, Bool.false_eq_true] at hs ⊢
    exact hs

/-- The shadow at the end of a start: the day level, with the drive channel not FRESH (R144). -/
theorem Chip.finishStart_shadow (c : Chip) (hr : c.sup.power = .run) (hd : c.inp.drive.freshness ≠ .fresh) :
    c.finishStart.panel.shadow = c.panel.settings.day := by
  have hbuz (x : Chip) (l : List Alarm) : (l.foldl (fun c a => c.refresh a) x).panel.shadow = x.panel.shadow := by
    induction l generalizing x with
    | nil => rfl
    | cons a l ih =>
      rw [List.foldl_cons, ih, Chip.refresh_panel a x]
  have halarm (x : Chip) : x.alarmStart.panel.shadow = x.panel.shadow := by
    unfold Chip.alarmStart Chip.refreshAlarms
    rw [hbuz]
    rfl
  obtain ⟨x, hx⟩ : ∃ x, x = c.reevaluate := ⟨_, rfl⟩
  have hxp : x.sup.power = .run := by rw [hx]; simpa using hr
  have hxs : x.panel.settings = c.panel.settings := by rw [hx]; simp
  have hxd : x.nightChosen = false := by
    have hi : x.inp = c.inp := by rw [hx]; simp
    simp [Chip.nightChosen, hi, hd]
  have hset (y : Chip) : y.settleLink.panel = y.panel := rfl
  have hw : x.writeShadow.panel.shadow = c.panel.settings.day := by
    simp [Chip.writeShadow, hxp, Chip.chosenLevel, hxd, hxs]
  rw [Chip.finishStart, ← hx, hset, (Chip.writeStatus_frame _).2.2.2.2.2.2.2.2.2.2.2.2.2.2.2.2.2.2.1, halarm, hw]

/-- The input table after a RESUME start: every heard channel STALE, the values held (R65). -/
theorem InputTable.resume_chan (now : Tick) (t : InputTable) (i : ChanId) :
    (t.resume now).chan i = (t.chan i).resume now := by
  cases i <;> rfl

/-- A RESUME start. -/
theorem Chip.resumeStart_resumed (c : Chip) : c.resumed c.resumeStart := by
  obtain ⟨v, hv⟩ : ∃ v, v = c.resumeValues.resumeTracker := ⟨_, rfl⟩
  have hstale (i : ChanId) : (c.resumeValues.inp.chan i).freshness ≠ .fresh := by
    show ((c.inp.resume c.tick).chan i).freshness ≠ .fresh
    rw [InputTable.resume_chan]
    exact ChanRec.resume_stale _ _
  have hve := c.resumeValues.resumeTracker_eq (hstale .pressure)
  rw [← hv] at hve
  have vinp : v.inp = c.inp.resume c.tick := by rw [hve]; rfl
  have vrole : v.role = c.role := by rw [hve]; rfl
  have vtick : v.tick = c.tick := by rw [hve]; rfl
  have vsup : v.sup = { c.sup with power := .run, startKind := .resume, peekTimer := none } := by rw [hve]; rfl
  have vlink : v.link = c.link.resume := by rw [hve]; rfl
  have vload : v.load = c.load.resume := by rw [hve]; rfl
  have vpanel : v.panel = c.panel.resume c.pins.keys c.tick := by rw [hve]; rfl
  have veng : v.eng = Engine.start := by rw [hve]; rfl
  have vstore : v.store = { c.store with wrongCodes := 0, lockout := false } := by rw [hve]; rfl
  have vtrk : v.trk = if c.trk.suspCal then { c.trk with suspPower := false, prevAngle := none, note := none }
      else { ({ c.trk with suspPower := false, prevAngle := none, note := none } : Tracker).endPass with
        cycle := .idle, racked := false } := by
    rw [hve]
    rfl
  have hstaleV (i : ChanId) : (v.inp.chan i).freshness ≠ .fresh := by
    rw [vinp]
    exact hstale i
  have htakes := v.resumeRole_takes (hstaleV .tag)
  have hmoves := htakes.moves.trans (.finishStart _)
  have hframe := v.resumeRole.finishStart_frame
  have hrole := v.resumeRole.finishStart_role
  have hshadow := v.resumeRole.finishStart_shadow (by rw [(v.resumeRole_frame).2.1, vsup])
    (by rw [(v.resumeRole_frame).2.2.2.2.2.2.2.1]; exact hstaleV .drive)
  have hstart : c.resumeStart = v.resumeRole.finishStart := by rw [hv]; rfl
  have hd : c.resumeStart.sup = v.sup ∧ c.resumeStart.tick = v.tick ∧ c.resumeStart.inp = v.inp
      ∧ c.resumeStart.eng = v.eng ∧ c.resumeStart.trk = v.resumeRole.trk ∧ c.resumeStart.store = v.store
      ∧ c.resumeStart.panel.page = v.panel.page ∧ c.resumeStart.panel.settings = v.panel.settings
      ∧ v.resumeRole.panel.settings = v.panel.settings := by
    rw [hstart]
    simp
  obtain ⟨dsup, dtick, dinp, deng, dtrk, dstore, dpage, dset, rset⟩ := hd
  rw [← hstart] at hrole hshadow hmoves
  obtain ⟨d, hdd⟩ : ∃ d, d = c.resumeStart := ⟨_, rfl⟩
  rw [← hdd] at dsup dtick dinp deng dtrk dstore dpage dset hrole hshadow hmoves ⊢
  obtain ⟨state, ⟨peers, named, pairing⟩, listen, watch, trk, -⟩ := htakes
  obtain ⟨⟨⟨lst, lrate, lrx⟩, lq, l1, l2, l3, l4, l5, l6, l7⟩, lrest, lpasses⟩ := hmoves
  rw [vlink] at lst lrate lrx lq l1 l2 l3 l4 l5 l6 l7
  rw [vload] at lrest lpasses
  rw [vtick] at listen watch
  rw [vrole] at state
  rw [trk] at dtrk
  have drs : d.role.state = v.resumeRole.role.state := by rw [hrole]
  unfold Chip.resumed
  refine ⟨by rw [dsup, vsup], by rw [dsup, vsup], by rw [dsup, vsup], by rw [dtick, vtick], by rw [drs, state],
    by rw [hrole]; exact peers, by rw [hrole]; exact named, by rw [hrole]; exact pairing, fun h => ?_, fun h => ?_, ?_, ?_, ?_,
    ?_, by rw [dtrk], fun i => ?_, by rw [dinp, vinp]; rfl, by rw [dinp, vinp]; rfl, by rw [dpage, vpanel]; rfl,
    by rw [dset, vpanel]; rfl, by rw [hshadow, rset, vpanel]; rfl, lq rfl, lrx, lst, l1, l2, l4, by rw [lrest]; rfl,
    by rw [lrest]; rfl, by rw [lrest]; rfl, by rw [lrest]; rfl, lpasses, by rw [deng, veng]; rfl, by rw [dstore, vstore]⟩
  · rw [hrole]
    exact listen (drs ▸ h)
  · rw [hrole]
    exact watch (drs ▸ h)
  · rw [dtrk, vtrk]
    split <;> rfl
  · rw [dtrk, vtrk]
    split <;> rfl
  · rw [dtrk, vtrk]
    cases hc : c.trk.suspCal <;> rfl
  · rw [dtrk, vtrk]
    split <;> rfl
  · rw [dinp, vinp, InputTable.resume_chan]
    exact ⟨rfl, rfl⟩

/-- Of the pins and of the supply's ignition and status a RESUME start's outcome says nothing. -/
theorem Chip.resumed_of {c d : Chip} {pins : Pins} {sup : Supply} (h : { c with pins := pins, sup := sup }.resumed d) :
    c.resumed d := h

/-! ## HOLD to DOZE and PEEK to DOZE (R163, R177-R179) -/

/-- A part that dozes with nothing in its queue, slots or hand. -/
theorem Chip.holdToDoze_facts (c : Chip) :
    c.holdToDoze.sup = { c.sup with power := .doze } ∧ c.holdToDoze.store = c.store ∧ c.holdToDoze.role = c.role
      ∧ c.holdToDoze.link.rx = (if c.cfg.busWake = true then .skip else .off) ∧ c.holdToDoze.link.queue = []
      ∧ c.onlyChanges c.holdToDoze [.sup, .link, .panel] := by
  refine ⟨rfl, rfl, rfl, ?_, ?_, fun b hb => ?_⟩
  · simp [Chip.holdToDoze, Chip.dozeKeys, Link.doze, dozeRx, Chip.setPower]
  · simp [Chip.holdToDoze, Chip.dozeKeys, Link.doze, Link.clear]
  · cases b <;> simp_all [Chip.sameAt]

/-- The watch on the keys moves the debounced keys and the decoder alone (R132, R147). -/
theorem Panel.dozeKeys_kept (p : Panel) (watched wasWatched : Bool) (lines : PerKey Bool) :
    (p.dozeKeys watched wasWatched lines).keptPage = p.keptPage
      ∧ (p.dozeKeys watched wasWatched lines).settings = p.settings
      ∧ (p.dozeKeys watched wasWatched lines).bklLevel = p.bklLevel
      ∧ (p.dozeKeys watched wasWatched lines).buz = p.buz := by
  cases watched <;> cases wasWatched <;> exact ⟨rfl, rfl, rfl, rfl⟩

/-- PEEK to DOZE (R179). -/
theorem Chip.peekToDoze_facts (c : Chip) :
    c.peekToDoze.sup = { c.sup with power := .doze, peekTimer := none }
      ∧ c.peekToDoze.panel.keptPage = c.panel.keptPage ∧ c.peekToDoze.panel.settings = c.panel.settings
      ∧ c.peekToDoze.panel.bklLevel = 0 ∧ c.peekToDoze.panel.buz = Buzzer.silent
      ∧ c.peekToDoze.link.queue = c.link.queue ∧ c.peekToDoze.maySend = true
      ∧ c.onlyChanges c.peekToDoze [.sup, .link, .panel] := by
  have hpanel : c.peekToDoze.panel = c.panel.darken.dozeKeys c.cfg.keyWake true c.pins.keys := rfl
  obtain ⟨hkept, hset, hbkl, hbuz⟩ := c.panel.darken.dozeKeys_kept c.cfg.keyWake true c.pins.keys
  refine ⟨rfl, by rw [hpanel, hkept]; rfl, by rw [hpanel, hset]; rfl, by rw [hpanel, hbkl]; rfl, by rw [hpanel, hbuz]; rfl,
    ?_, rfl, fun b hb => ?_⟩
  · have hq : c.link.redoze.queue = c.link.queue := by
      unfold Link.redoze
      split <;> rfl
    rw [← hq]
    simp [Chip.peekToDoze, Chip.dozeKeys, Chip.setPower]
  · cases b <;> simp_all [Chip.sameAt]

/-- Settles O57: by the power state that is left. -/
theorem lowPowerIsLeft : Obligations.LowPowerIsLeft := by
  unfold Obligations.LowPowerIsLeft
  intro s hup
  obtain ⟨risen, hrisen⟩ : ∃ risen : Nat → Straps → Chip, risen = fun volts straps =>
      { s.chip with
        pins := { s.chip.pins.setStraps straps with vsense := volts }, sup := { s.chip.sup with status := .ok } } := ⟨_, rfl⟩
  have hrises (volts : Nat) (straps : Straps) (hv : 180 < volts) (hs : s.chip.sup.status = .low) :
      s.chip.supplyRisesOk volts straps = (risen volts straps).wentOk := by
    rw [Chip.supplyRisesOk, if_pos ⟨hv, hs, by simp [hup]⟩, hrisen]
    simp only [Chip.mapSup, hup]
  have honly (volts : Nat) (straps : Straps) : s.chip.onlyChanges (risen volts straps) [.pins, .sup] := by
    rw [hrisen]
    intro b hb
    cases b <;> simp_all [Chip.sameAt]
  refine ⟨fun volts straps hv hs hp => ?_, fun volts straps hv hs => ?_, fun hp hi ht => ?_, fun hp ht => ?_,
    fun hp ht => ?_⟩
  · refine gives_act _ s (Chip.supplyRisesOk volts straps) _ rfl ?_
    rw [hrises volts straps hv hs]
    have honly := honly volts straps
    obtain ⟨x, hx⟩ : ∃ x, x = risen volts straps := ⟨_, rfl⟩
    rw [← hx] at honly ⊢
    rw [hrisen] at hx
    have hxp : x.sup.power = .hold := by rw [hx]; exact hp
    have hxi : x.sup.ignition = s.chip.sup.ignition := by rw [hx]
    cases hi : s.chip.sup.ignition with
    | true =>
      have he : x.wentOk = x.resumeStart := by simp only [Chip.wentOk, hxp, hxi, hi, if_true]
      rw [he]
      have hst : x.resumeStart.sup.status = x.sup.status ∧ x.resumeStart.pins = x.pins :=
        ⟨(x.resumeStart_frame).2.2.1, (x.resumeStart_frame).1⟩
      refine ⟨by rw [hst.1, hx], by rw [hst.2, hx], fun _ => ?_, fun h => by cases h⟩
      have h := x.resumeStart_resumed
      rw [hx] at h ⊢
      exact Chip.resumed_of h
    | false =>
      have he : x.wentOk = x.holdToDoze := by simp [Chip.wentOk, hxp, hxi, hi]
      obtain ⟨fsup, fstore, frole, frx, fq, fonly⟩ := x.holdToDoze_facts
      rw [he]
      refine ⟨by rw [fsup, hx], ?_, (fun h => by cases h), fun _ => ⟨by rw [fsup], by rw [fstore, hx], by rw [frole, hx], ?_, fq,
        (honly.mono (by simp)).trans (fonly.mono (by simp))⟩⟩
      · rw [(x.holdToDoze_frame).1, hx]
      · rw [frx, hx]
        rfl
  · intro pins
    refine ⟨fun hp => ?_, fun hp => ?_⟩
    · refine gives_act _ s (Chip.supplyRisesOk volts straps) _ rfl ?_
      rw [hrises volts straps hv hs]
      have honly := honly volts straps
      obtain ⟨x, hx⟩ : ∃ x, x = risen volts straps := ⟨_, rfl⟩
      rw [← hx] at honly ⊢
      rw [hrisen] at hx
      have hxp : x.sup.power = .run := by rw [hx]; exact hp
      have he : x.wentOk = x.refresh .lowSupply := by simp only [Chip.wentOk, hxp]
      have hin : x.inRun = true := by simp [Chip.inRun, hxp]
      have hcond : x.cond .lowSupply = false := by rw [hx]; rfl
      have hxa : x.alarm = s.chip.alarm := by rw [hx]
      have hxpan : x.panel = s.chip.panel := by rw [hx]
      rw [he]
      refine ⟨?_, ?_, (Chip.refresh_cond _ _ hin).trans hcond, fun b hb => ?_, ?_,
        (honly.mono (by simp)).trans ((Chip.refresh_onlyChanges _ _).mono (by simp))⟩
      · rw [(x.refresh_frame .lowSupply).1, hx]
        rfl
      · rw [(x.refresh_frame .lowSupply).2.1, hx]
      · rw [Chip.refresh_others _ _ _ hb, hxa]
      · have := Chip.refresh_panel .lowSupply x
        unfold Chip.onlyBuzzer at this ⊢
        rwa [hxpan] at this
    · refine gives_act _ s (Chip.supplyRisesOk volts straps) _ rfl ?_
      rw [hrises volts straps hv hs]
      have he : (risen volts straps).wentOk = risen volts straps := by
        rw [hrisen]
        rcases hp with h | h <;> simp only [Chip.wentOk, h]
      rw [he, hrisen]
      rfl
  · refine gives_act _ s Chip.ignitionChange _ rfl ?_
    obtain ⟨x, hx⟩ : ∃ x, x = s.chip.mapSup fun p =>
      { p with ignition := s.chip.pins.ign, ignTimer := none, offAfterStart := p.offAfterStart && !s.chip.pins.ign } :=
        ⟨_, rfl⟩
    have he : s.chip.ignitionChange = x.resumeStart := by
      rw [Chip.ignitionChange, if_pos (due_of_ranOut _ _ _ ht)]
      dsimp only
      rw [← hx]
      have hl : x.sup.life = .up := by rw [hx]; exact hup
      have hxp : x.sup.power = s.chip.sup.power := by rw [hx]; rfl
      have hxi : x.sup.ignition = true := by rw [hx]; exact hi
      simp only [hl, Chip.ignitionChanged, hxp, hxi]
      rcases hp with h | h <;> simp only [h]
    rw [he]
    refine ⟨?_, ?_, ?_⟩
    · have h := x.resumeStart_resumed
      rw [hx] at h ⊢
      exact Chip.resumed_of (pins := s.chip.pins) h
    · rw [(x.resumeStart_frame).2.2.2.1, hx]
      exact hi
    · rw [(x.resumeStart_frame).1, hx]
      rfl
  · refine gives_act _ s Chip.ignitionChange _ rfl ?_
    have he : s.chip.ignitionChange = s.chip.mapSup fun p =>
        { p with ignition := s.chip.pins.ign, ignTimer := none, offAfterStart := p.offAfterStart && !s.chip.pins.ign } := by
      rw [Chip.ignitionChange, if_pos (due_of_ranOut _ _ _ ht)]
      simp only [Chip.mapSup, hup, Chip.ignitionChanged, hp]
    rw [he]
    refine ⟨rfl, fun b hb => ?_⟩
    cases b <;> simp_all [Chip.sameAt]
  · refine gives_whenUp _ s Chip.peekTimerExpiry _ rfl hup ?_
    rw [Chip.peekTimerExpiry, if_pos ⟨hp, due_of_ranOut _ _ _ ht⟩]
    obtain ⟨fsup, fpage, -, fbkl, fbuz, fq, -, fonly⟩ := s.chip.peekToDoze_facts
    exact ⟨fsup, fpage, fbkl, fbuz, fq, fonly⟩

end Sys2Proof.Machine

/-! SUPPORT. RUN is left for HOLD or DOZE (R174, R175, R177). -/

namespace Sys2Proof.Machine

set_option Elab.async false

/-- The link at an entry to HOLD or DOZE: empty, with its counters, in GAP where it may send (R163). -/
structure Link.Emptied (l l' : Link) (rx : Rx) (access : Access) : Prop where
  empty : l'.queue = [] ∧ l'.wslot = none ∧ l'.tslot = none ∧ l'.inHand = none
  rx : l'.rx = rx
  access : l'.access = access
  counters : l'.check = l.check ∧ l'.qDrop = l.qDrop

theorem Link.emptied_hold (l : Link) : l.Emptied l.hold .off .off := ⟨⟨rfl, rfl, rfl, rfl⟩, rfl, rfl, rfl, rfl⟩

/-- With nothing to send an access opportunity leaves GAP (R158). -/
theorem Link.emptied_doze (l : Link) (busWake : Bool) :
    l.Emptied ((l.doze busWake).settle true) (if busWake then .skip else .off) .gap := by
  obtain ⟨x, hx⟩ : ∃ x, x = l.doze busWake := ⟨_, rfl⟩
  have hxe : x.queue = [] ∧ x.wslot = none ∧ x.tslot = none ∧ x.inHand = none ∧ x.access = .off
      ∧ x.rx = (if busWake then .skip else .off) ∧ x.check = l.check ∧ x.qDrop = l.qDrop := by
    rw [hx]
    exact ⟨rfl, rfl, rfl, rfl, rfl, rfl, rfl, rfl⟩
  rw [← hx]
  obtain ⟨hq, hw, ht, hh, ha, hrx, hck, hqd⟩ := hxe
  have hchoose : x.choose = x := by
    clear hx
    cases x
    simp_all [Link.choose]
  have hs : x.settle true = if x.gapDone then { x with access := .gap, delay := 0 } else { x with access := .gap } := by
    cases hg : x.gapDone <;> simp [Link.settle, ha, hg, Link.opportunity, hchoose, Link.handTelegram, hh]
  rw [hs]
  split <;> exact ⟨⟨hq, hw, ht, hh⟩, hrx, rfl, hck, hqd⟩

/-- The save at an entry to HOLD or DOZE carries the items as the blocks were left (R169, R177). -/
theorem Chip.leftRun_intro (c z d : Chip) (p : Power) (hp : p = .hold ∨ p = .doze)
    (hz : ∃ f g, z = (((c.setPower p).leaveRun.mapLink f).mapPanel g)
      ∧ (∀ q : Panel, (g q).keptPage = q.keptPage ∧ (g q).settings = q.settings ∧ (g q).bklLevel = q.bklLevel
          ∧ (g q).buz = q.buz))
    (hd : ∃ m, d = (z.askRetain z.role.resumeRole).mapLink m)
    (hl : c.link.Emptied d.link (if p = .doze ∧ c.cfg.busWake = true then .skip else .off)
      (if p = .doze then .gap else .off)) :
    c.leftRun d p := by
  obtain ⟨f, g, hz, hg⟩ := hz
  obtain ⟨m, hd⟩ := hd
  obtain ⟨y, hy⟩ : ∃ y, y = (c.setPower p).leaveRun := ⟨_, rfl⟩
  have facts := c.leaveRun_facts p hp
  dsimp only at facts
  rw [← hy] at facts hz
  obtain ⟨fpow, fsup, fleft, fcal, fbkl, fbuz, fset, fcyc, fpower, fctx, fvoid, falarm, fchan, fheld, fload, flink, fstore,
    ftick, fpins⟩ := facts
  obtain ⟨gkept, gset, gbkl, gbuz⟩ := hg y.panel
  have zrole : z.role = y.role := by rw [hz]; rfl
  have zpanel : z.panel = g y.panel := by rw [hz]; rfl
  have zload : z.load = y.load := by rw [hz]; rfl
  have zstore : z.store = y.store := by rw [hz]; rfl
  have ztick : z.tick = y.tick := by rw [hz]; rfl
  have hstore : d.store = (z.askRetain z.role.resumeRole).store := by rw [hd]; rfl
  rw [Chip.askRetain_store] at hstore
  have hkeep : d.sup = y.sup ∧ d.role = y.role ∧ d.cal = y.cal ∧ d.trk = y.trk ∧ d.alarm = y.alarm ∧ d.inp = y.inp
      ∧ d.load = y.load ∧ d.tick = y.tick ∧ d.pins = y.pins ∧ d.panel = g y.panel := by
    rw [hd, hz]
    exact ⟨rfl, rfl, rfl, rfl, rfl, rfl, rfl, rfl, rfl, rfl⟩
  obtain ⟨dsup, drole, dcal, dtrk, dalarm, dinp, dload, dtick, dpins, dpanel⟩ := hkeep
  obtain ⟨⟨lq, lw, lt, lh⟩, lrx, lacc, lck, lqd⟩ := hl
  have hsaved : z.retained z.role.resumeRole =
      ⟨c.load.shift, c.load.life, c.load.record, c.load.seq, c.load.nextManual, c.load.history, c.load.nextHist,
        c.panel.settings, d.role.resumeRole, d.panel.keptPage⟩ := by
    simp only [Chip.retained, zload, fload, zpanel, gset, fset, drole, zrole, dpanel]
  rw [hsaved, zstore, ztick, fstore, ftick] at hstore
  unfold Chip.leftRun
  refine ⟨by rw [dsup, fpow], by rw [dsup, fsup], by rw [dsup, fsup], fun h => ?_, fun h => ?_, by rw [dpanel, gbkl, fbkl],
    by rw [dpanel, gbuz, fbuz], by rw [dpanel, gset, fset], by rw [dtrk, fcyc], by rw [dtrk, fpower],
    fun h => by rw [dtrk]; exact fctx h, by rw [dtrk]; exact fvoid, fun a => by rw [dalarm]; exact falarm a,
    fun i => by rw [dinp]; exact fchan i, by rw [dinp, fheld], by rw [dload, fload], lq, lw, lt, lh, lrx, lacc, lck, lqd,
    fun hw => ?_, fun hw => ?_, by rw [dtick, ftick], by rw [dpins, fpins]⟩
  · obtain ⟨h1, h2, h3⟩ := fleft h
    exact ⟨by rw [drole, h1], by rw [dpanel, gkept, h2], by rw [dcal, h3]⟩
  · obtain ⟨h1, h2, h3⟩ := fcal h
    exact ⟨by rw [dcal, h1], by rw [dpanel, gkept, h2], by rw [drole, h3]⟩
  · rw [hstore, if_pos hw]
  · rw [hstore, if_neg (by simp [hw])]

/-- What the blocks do at the entry but for the link leaves the link (R177). -/
theorem Chip.leaveRun_link (c : Chip) (p : Power) (hp : p = .hold ∨ p = .doze) :
    (c.setPower p).leaveRun.link = c.link := by
  obtain ⟨-, -, -, -, -, -, -, -, -, -, -, -, -, -, -, h, -⟩ := c.leaveRun_facts p hp
  exact h

theorem Chip.enterHold_left (c : Chip) : c.leftRun c.enterHold .hold := by
  refine c.leftRun_intro (((c.setPower .hold).leaveRun.mapLink Link.hold).mapPanel fun p =>
      { p.unwatch with decoder := .awaitRelease }) c.enterHold .hold (.inl rfl)
    ⟨_, _, rfl, fun _ => ⟨rfl, rfl, rfl, rfl⟩⟩ ⟨id, rfl⟩ ?_
  have h : c.enterHold.link = c.link.hold := congrArg Link.hold (c.leaveRun_link .hold (.inl rfl))
  rw [h]
  exact c.link.emptied_hold

theorem Chip.enterDoze_left (c : Chip) : c.leftRun c.enterDoze .doze := by
  obtain ⟨y, hy⟩ : ∃ y, y = (c.setPower .doze).leaveRun := ⟨_, rfl⟩
  have hye : c.enterDoze = (((y.mapLink (Link.doze c.cfg.busWake)).dozeKeys true).askRetain y.role.resumeRole).settleLink := by
    rw [hy]
    rfl
  have hylink : y.link = c.link := by rw [hy]; exact c.leaveRun_link .doze (.inr rfl)
  obtain ⟨ypow, -⟩ := c.leaveRun_facts .doze (.inr rfl)
  rw [← hy] at ypow
  refine c.leftRun_intro ((y.mapLink (Link.doze c.cfg.busWake)).dozeKeys true) c.enterDoze .doze (.inr rfl)
    ⟨Link.doze c.cfg.busWake, Panel.dozeKeys y.cfg.keyWake true y.pins.keys, by rw [hy]; rfl,
      fun q => q.dozeKeys_kept _ _ _⟩ ⟨_, hye⟩ ?_
  have hsend : (((y.mapLink (Link.doze c.cfg.busWake)).dozeKeys true).askRetain y.role.resumeRole).maySend = true := by
    show y.maySend = true
    simp [Chip.maySend, ypow]
  have hl : c.enterDoze.link = (c.link.doze c.cfg.busWake).settle true := by
    rw [hye, Chip.settleLink_link, hsend, ← hylink]
    rfl
  rw [hl]
  simpa using c.link.emptied_doze c.cfg.busWake

theorem Chip.enterDoze_sup (c : Chip) : c.enterDoze.sup = { c.sup with power := .doze, offAfterStart := false } := by
  obtain ⟨-, h, -⟩ := c.leaveRun_facts .doze (.inr rfl)
  exact h

/-- Of the pins but the keys, and of the supply but the start kind, the outcome says nothing. -/
theorem Chip.leftRun_of {c d : Chip} {pins : Pins} {sup : Supply} {p : Power} (hk : pins.keys = c.pins.keys)
    (hs : sup.startKind = c.sup.startKind) (h : { c with pins := pins, sup := sup }.leftRun d p) : c.leftRun d p := by
  unfold Chip.leftRun at h ⊢
  simp only [hk, hs] at h
  exact h

/-- Settles O56: by the event. -/
theorem runIsLeftForHoldOrDoze : Obligations.RunIsLeftForHoldOrDoze := by
  unfold Obligations.RunIsLeftForHoldOrDoze
  intro s hup
  refine ⟨fun volts hv hs => ?_, fun high hi => ?_, fun hp hi ht => ?_, fun hp ho => ?_⟩
  · obtain ⟨x, hx⟩ : ∃ x, x = { s.chip with
      pins := { s.chip.pins with vsense := volts }, sup := { s.chip.sup with status := .low } } := ⟨_, rfl⟩
    have hfall : s.chip.supplyFallsLow volts = x.wentLow := by
      rw [Chip.supplyFallsLow, if_pos ⟨hv, hs, by simp [hup]⟩, hx]
      simp only [Chip.mapSup, hup]
    have hxp : x.sup.power = s.chip.sup.power := by rw [hx]
    refine ⟨fun hp => ?_, fun hp => ?_, fun hp => ?_⟩
    · refine gives_act _ s (Chip.supplyFallsLow volts) _ rfl ?_
      have he : x.wentLow = x.enterHold := by simp only [Chip.wentLow, hxp, hp]
      have hleft := x.enterHold_left
      have hframe : x.enterHold.sup.status = x.sup.status ∧ x.enterHold.sup.ignition = x.sup.ignition
          ∧ x.enterHold.pins = x.pins := by simp
      have hdec : x.enterHold.panel.decoder = .awaitRelease := rfl
      rw [hfall, he]
      obtain ⟨f1, f2, f3⟩ := hframe
      refine ⟨?_, by rw [f1, hx], by rw [f2, hx], by rw [f3, hx], hdec⟩
      rw [hx] at hleft ⊢
      exact Chip.leftRun_of rfl rfl hleft
    · refine gives_act _ s (Chip.supplyFallsLow volts) _ rfl ?_
      have he : x.wentLow = x := by rcases hp with h | h <;> simp only [Chip.wentLow, hxp, h]
      rw [hfall, he, hx]
    · refine gives_act _ s (Chip.supplyFallsLow volts) _ rfl ?_
      have he : x.wentLow = x.peekToDoze := by simp only [Chip.wentLow, hxp, hp]
      obtain ⟨fsup, fpage, fset, fbkl, fbuz, fq, fsend, fonly⟩ := x.peekToDoze_facts
      have hpins : x.peekToDoze.pins = x.pins := (x.peekToDoze_frame).1
      have honly : s.chip.onlyChanges x [.pins, .sup] := by
        rw [hx]
        intro b hb
        cases b <;> simp_all [Chip.sameAt]
      rw [hfall, he]
      exact ⟨by rw [hpins, hx], by rw [fsup, hx], by rw [fpage, hx], by rw [fset, hx], fbkl, fbuz, by rw [fq, hx], fsend,
        (honly.mono (by simp)).trans (fonly.mono (by simp))⟩
  · refine gives_act _ s (Chip.ignLineChange high) _ rfl ?_
    have he : s.chip.ignLineChange high = Chip.mapSup
        (fun p => { p with ignTimer := if high = p.ignition then none else some s.chip.tick })
          { s.chip with pins := { s.chip.pins with ign := high } } := by
      simp only [Chip.ignLineChange, if_neg hi, hup]
    rw [he]
    rfl
  · refine gives_act _ s Chip.ignitionChange _ rfl ?_
    obtain ⟨x, hx⟩ : ∃ x, x = s.chip.mapSup fun p =>
      { p with ignition := s.chip.pins.ign, ignTimer := none, offAfterStart := p.offAfterStart && !s.chip.pins.ign } :=
        ⟨_, rfl⟩
    have he : s.chip.ignitionChange = x.enterDoze := by
      rw [Chip.ignitionChange, if_pos (due_of_ranOut _ _ _ ht)]
      dsimp only
      rw [← hx]
      have hl : x.sup.life = .up := by rw [hx]; exact hup
      have hxp : x.sup.power = .run := by rw [hx]; exact hp
      have hxi : x.sup.ignition = false := by rw [hx]; exact hi
      simp only [hl, Chip.ignitionChanged, hxp, hxi]
    have hleft := x.enterDoze_left
    have hsup := x.enterDoze_sup
    have hpins : x.enterDoze.pins = x.pins := (x.enterDoze_frame).1
    rw [he]
    refine ⟨?_, by rw [hsup, hx]; exact hi, by rw [hsup, hx]; rfl, by rw [hsup, hx]; rfl, by rw [hpins, hx]; rfl⟩
    rw [hx] at hleft ⊢
    exact Chip.leftRun_of (pins := s.chip.pins) rfl rfl hleft
  · refine gives_whenUp _ s Chip.ignitionOffAfterStart _ rfl hup ?_
    rw [Chip.ignitionOffAfterStart, if_pos ⟨ho, hp⟩]
    have hframe : s.chip.enterDoze.sup.status = s.chip.sup.status ∧ s.chip.enterDoze.sup.ignition = s.chip.sup.ignition
        ∧ s.chip.enterDoze.pins = s.chip.pins := by simp
    obtain ⟨f1, f2, f3⟩ := hframe
    exact ⟨s.chip.enterDoze_left, f2, f1, f3⟩

end Sys2Proof.Machine

/-! SUPPORT. The configuration items: what writing one makes of the configuration (Table 10-3, R171), and CONFIG WRITE
(O53). -/

namespace Sys2Proof.Machine

set_option Elab.async false

/-- The values of all the items of a configuration, by number. -/
def Cfg.items (c : Cfg) : List Int := (List.range 45).map c.itemValue

/-- From c to w no item but one may have changed. -/
def Cfg.ItemOnly (c w : Cfg) (item : Nat) : Prop := w.items = c.items.set item (w.itemValue item)

theorem Cfg.itemValue_eq_zero (c : Cfg) {j : Nat} (h : 45 ≤ j) : c.itemValue j = 0 := by
  unfold Cfg.itemValue
  split <;> omega

theorem Cfg.itemValue_eq_items (c : Cfg) (j : Nat) : c.itemValue j = c.items.getD j 0 := by
  by_cases h : j < 45
  · simp [Cfg.items, List.getD, h]
  · simp [Cfg.items, List.getD, h, c.itemValue_eq_zero (Nat.le_of_not_lt h)]

theorem Cfg.ItemOnly.other {c w : Cfg} {item : Nat} (h : c.ItemOnly w item) (j : Nat) (hj : j ≠ item) :
    w.itemValue j = c.itemValue j := by
  rw [w.itemValue_eq_items, c.itemValue_eq_items, show w.items = _ from h]
  simp [List.getD, List.getElem?_set_ne (Ne.symm hj)]

/-- What the result of writing a value to an item says: there is no such item; the item does not take the value; or the item
has the value and every other item is as it was. -/
def ItemResult.Answers (c : Cfg) (item : Nat) (v : Int) : ItemResult → Prop
  | .noItem => itemRange item = none
  | .outside => (itemRange item).isSome = true ∧ ¬itemTakes item v
  | .written w => itemTakes item v ∧ w.itemValue item = v ∧ c.ItemOnly w item

theorem itemTakes.isSome {item : Nat} {v : Int} (h : itemTakes item v) : (itemRange item).isSome = true := by
  obtain ⟨lo, hi, hr, -⟩ := h
  simp [hr]

/-! The three answers are told apart by the range and the value. -/

theorem ItemResult.Answers.eq_noItem {c : Cfg} {item : Nat} {v : Int} {r : ItemResult} (h : r.Answers c item v)
    (hr : itemRange item = none) : r = .noItem := by
  cases r with
  | noItem => rfl
  | outside =>
    have hs := h.1
    simp [hr] at hs
  | written w => have hs := h.1.isSome; simp [hr] at hs

theorem ItemResult.Answers.eq_outside {c : Cfg} {item : Nat} {v : Int} {r : ItemResult} (h : r.Answers c item v)
    (hr : (itemRange item).isSome = true) (hv : ¬itemTakes item v) : r = .outside := by
  cases r with
  | noItem => simp [show itemRange item = none from h] at hr
  | outside => rfl
  | written w => exact absurd h.1 hv

theorem ItemResult.Answers.exists_written {c : Cfg} {item : Nat} {v : Int} {r : ItemResult} (h : r.Answers c item v)
    (hv : itemTakes item v) : ∃ w, r = .written w ∧ w.itemValue item = v ∧ ∀ j, j ≠ item →
      w.itemValue j = c.itemValue j := by
  cases r with
  | noItem => simpa [show itemRange item = none from h] using hv.isSome
  | outside => exact absurd hv h.2
  | written w =>
    obtain ⟨-, hvalue, honly⟩ := h
    exact ⟨w, rfl, hvalue, honly.other⟩

theorem itemTakes_iff {item : Nat} {lo hi v : Int} (hr : itemRange item = some (lo, hi)) (h33 : item ≠ 33) :
    itemTakes item v ↔ lo ≤ v ∧ v ≤ hi := by
  constructor
  · rintro ⟨lo', hi', hr', hlo, hhi, -⟩
    obtain ⟨rfl, rfl⟩ : lo = lo' ∧ hi = hi' := by simpa [hr] using hr'
    exact ⟨hlo, hhi⟩
  · rintro ⟨hlo, hhi⟩
    exact ⟨lo, hi, hr, hlo, hhi, fun h => absurd h h33⟩

theorem intItem_answers {c : Cfg} {item : Nat} {lo hi v : Int} {f : Int → Cfg} (hr : itemRange item = some (lo, hi))
    (h33 : item ≠ 33) (hf : (f v).itemValue item = v) (ho : c.ItemOnly (f v) item) :
    (intItem lo hi v f).Answers c item v := by
  have htakes := itemTakes_iff (v := v) hr h33
  unfold intItem
  split
  · rename_i h; exact ⟨htakes.mpr h, hf, ho⟩
  · rename_i h; exact ⟨by simp [hr], fun ht => h (htakes.mp ht)⟩

theorem natItem_answers {c : Cfg} {item lo hi : Nat} {v : Int} {f : Nat → Cfg}
    (hr : itemRange item = some ((lo : Int), (hi : Int))) (h33 : item ≠ 33)
    (hf : v.toNat ≤ hi → (f v.toNat).itemValue item = v.toNat) (ho : c.ItemOnly (f v.toNat) item) :
    (natItem lo hi v f).Answers c item v := by
  have htakes := itemTakes_iff (v := v) hr h33
  unfold natItem
  split
  · rename_i h; exact ⟨htakes.mpr h, by rw [hf (by omega)]; omega, ho⟩
  · rename_i h; exact ⟨by simp [hr], fun ht => h (htakes.mp ht)⟩

theorem boolItem_answers {c : Cfg} {item : Nat} {v : Int} {f : Bool → Cfg} (hr : itemRange item = some (0, 1))
    (h33 : item ≠ 33) (hf : ∀ b, (f b).itemValue item = boolItemValue b) (ho : ∀ b, c.ItemOnly (f b) item) :
    (boolItem v f).Answers c item v := by
  have htakes := itemTakes_iff (v := v) hr h33
  unfold boolItem
  split
  · rename_i h; exact ⟨htakes.mpr (by omega), by rw [hf, h]; rfl, ho _⟩
  · split
    · rename_i h; exact ⟨htakes.mpr (by omega), by rw [hf, h]; rfl, ho _⟩
    · exact ⟨by simp [hr], fun ht => by have := htakes.mp ht; omega⟩

theorem itemTakes_target_iff (v : Int) : itemTakes 33 v ↔ v = 0 ∨ (100 ≤ v ∧ v ≤ 50000) := by
  constructor
  · rintro ⟨lo, hi, hr, hlo, hhi, h33⟩
    obtain ⟨rfl, rfl⟩ : 0 = lo ∧ 50000 = hi := by simpa [itemRange] using hr
    have := h33 rfl
    omega
  · intro h
    exact ⟨0, 50000, rfl, by omega, by omega, fun _ => by omega⟩

/-- The value that a CONFIG WRITE carries: signed, but unsigned for item 44 (R171). -/
def writtenValue (item raw : Nat) : Int :=
  if item ≠ 44 ∧ 2147483648 ≤ raw then raw - 4294967296 else raw

theorem writtenValue_signed {item : Nat} (raw : Nat) (h : item ≠ 44) : writtenValue item raw = toSigned 32 raw := by
  unfold writtenValue toSigned
  split <;> split <;> omega

theorem itemValue_latch (b : Bool) : boolItemValue (LatchMode.ofBit b == .held) = boolItemValue b := by
  cases b <;> rfl

/-- The items up to the speed limit: role, sources, cylinders, angles, reaches and limits (Table 10-3). -/
theorem Cfg.writeItem_answers_machine (c : Cfg) (item raw : Nat) (h : item ≤ 18) :
    (c.writeItem item raw).Answers c item (toSigned 32 raw) := by
  unfold Cfg.writeItem
  dsimp only
  generalize toSigned 32 raw = v
  split
  case h_1 => exact boolItem_answers rfl (by decide) (fun b => by cases b <;> rfl) fun b => rfl
  case h_12 | h_13 | h_14 | h_15 => exact intItem_answers rfl (by decide) rfl rfl
  case h_2 | h_3 | h_4 | h_5 | h_6 | h_7 | h_8 | h_9 | h_10 | h_11 | h_16 | h_17 | h_18 =>
    exact natItem_answers rfl (by decide) (fun _ => rfl) rfl
  case h_45 => unfold ItemResult.Answers itemRange; split <;> simp_all
  all_goals omega

/-- The items of the load and of the latch modes, masks and wakes (Table 10-3). -/
theorem Cfg.writeItem_answers_load (c : Cfg) (item raw : Nat) (h : 18 < item) (h44 : item ≠ 44) :
    (c.writeItem item raw).Answers c item (toSigned 32 raw) := by
  unfold Cfg.writeItem
  dsimp only
  generalize toSigned 32 raw = v
  split
  case h_23 | h_25 | h_26 | h_27 => exact intItem_answers rfl (by decide) rfl rfl
  case h_19 | h_20 | h_41 | h_42 | h_43 => exact boolItem_answers rfl (by decide) (fun _ => rfl) fun _ => rfl
  case h_36 | h_37 | h_38 | h_39 => exact boolItem_answers rfl (by decide) itemValue_latch fun _ => rfl
  case h_33 =>
    have htakes := itemTakes_target_iff v
    split
    · rename_i h; exact ⟨htakes.mpr (.inl h), h.symm, rfl⟩
    · unfold natItem
      split
      · exact ⟨htakes.mpr (by omega), by simp only [Cfg.itemValue]; omega, rfl⟩
      · exact ⟨rfl, fun ht => by have := htakes.mp ht; omega⟩
  case h_34 =>
    exact natItem_answers rfl (by decide) (fun h => by simp only [Cfg.itemValue, Fin.ofNat]; omega) rfl
  case h_40 =>
    exact natItem_answers rfl (by decide) (fun h => by simp only [Cfg.itemValue, BitVec.toNat_ofNat]; omega) rfl
  case h_21 | h_22 | h_24 | h_28 | h_29 | h_30 | h_31 | h_32 | h_35 =>
    exact natItem_answers rfl (by decide) (fun _ => rfl) rfl
  case h_44 => exact absurd rfl h44
  case h_45 => unfold ItemResult.Answers itemRange; split <;> simp_all
  all_goals omega

theorem Cfg.writeItem_answers (c : Cfg) (item raw : Nat) (hraw : raw < 4294967296) :
    (c.writeItem item raw).Answers c item (writtenValue item raw) := by
  by_cases h44 : item = 44
  · subst h44
    have hv : writtenValue 44 raw = raw := by simp [writtenValue]
    rw [hv]
    refine ⟨(itemTakes_iff rfl (by decide)).mpr (by omega), ?_, rfl⟩
    simp only [Cfg.itemValue, BitVec.toNat_ofNat]
    omega
  · rw [writtenValue_signed raw h44]
    rcases Nat.lt_or_ge 18 item with h | h
    · exact c.writeItem_answers_load item raw h h44
    · exact c.writeItem_answers_machine item raw h

/-! ## The answer and CONFIG WRITE -/

theorem nat32_lt (d : List Byte) (i : Nat) : nat32 d i < 4294967296 := by
  have h (j : Nat) : nat8 d j < 256 := (byteAt d j).isLt
  have h0 := h i
  have h1 := h (i + 1)
  have h2 := h (i + 2)
  have h3 := h (i + 3)
  unfold nat32 nat24 nat16
  omega

/-- A CONFIG STATUS offered in RUN joins the queue, but of a MUTE part (R155, R156). -/
theorem Chip.offer_config (c : Chip) (src : Byte) (item : Nat) (a : ConfigCode) (h : c.inRun = true) :
    c.offer (sendConfigStatus src item a)
      = { c with link := if c.role.state = .mute then c.link else c.link.joined (sendConfigStatus src item a) } := by
  have hp : c.sup.power = .run := by simpa [Chip.inRun] using h
  by_cases hm : c.role.state = .mute
  · rw [Chip.offer_discarded _ _ (by simp [Chip.takesOffer, hm, hp]), if_pos hm]
  · rw [Chip.offer, if_pos (Chip.takesOffer_of_not_mute _ hp hm), if_neg hm]
    simp only [Chip.mapLink, Link.enqueue_joined]

/-- A telegram answered by a CONFIG STATUS, the store before it written or not: the chip after the event. -/
theorem Chip.configAnswered_offer (c : Chip) (f : ParamStore → ParamStore) (src : Byte) (item : Nat) (a : ConfigCode)
    (h : c.inRun = true) :
    let d := (((c.mapLink Link.runEnded).mapStore f).offer (sendConfigStatus src item a)).settleLink
    c.configAnswered d src (BitVec.ofNat 8 item) (BitVec.ofNat 8 a.num) ∧ d.store = f c.store
      ∧ c.onlyChanges d [.link, .store] := by
  have hrun : ((c.mapLink Link.runEnded).mapStore f).inRun = true := h
  intro d
  have hd : d = { c with
      link := (if c.role.state = .mute then c.link.runEnded
        else c.link.runEnded.joined (sendConfigStatus src item a)).settle c.maySend
      store := f c.store } := by
    simp only [d, Chip.offer_config _ _ _ _ hrun]
    exact rfl
  rw [hd]
  refine ⟨?_, rfl, fun b hb => ?_⟩
  · exact rfl
  · cases b <;> simp_all [Chip.sameAt]

theorem ParamStore.countWrong_eq (p : ParamStore) : p.countWrong = p.codeRefused := by
  have hcount : satAdd 3 p.wrongCodes 1 = min 3 (p.wrongCodes + 1) := rfl
  have hthird : (3 ≤ min 3 (p.wrongCodes + 1)) = (3 ≤ p.wrongCodes + 1) :=
    propext (Nat.le_min.trans (and_iff_right (Nat.le_refl 3)))
  simp only [ParamStore.countWrong, ParamStore.codeRefused, hcount, hthird]

theorem ParamStore.checkAccess_ignored {p : ParamStore} (code : BitVec 32) (hl : p.lockout = true) :
    p.checkAccess code = .ignored := by
  simp [ParamStore.checkAccess, hl]

theorem ParamStore.checkAccess_closed {p : ParamStore} (code : BitVec 32) (hl : p.lockout = false)
    (hw : p.window = none) : p.checkAccess code = .closed := by
  simp [ParamStore.checkAccess, hl, hw]

theorem ParamStore.checkAccess_wrongCode {p : ParamStore} {code : BitVec 32} (hl : p.lockout = false)
    (hw : p.window.isSome = true) (hc : ¬code = p.cfg.unlock) : p.checkAccess code = .wrongCode := by
  simp [ParamStore.checkAccess, hl, Option.isSome_iff_ne_none.mp hw, hc]

theorem ParamStore.checkAccess_admitted {p : ParamStore} {code : BitVec 32} (hl : p.lockout = false)
    (hw : p.window.isSome = true) (hc : code = p.cfg.unlock) : p.checkAccess code = .admitted := by
  simp [ParamStore.checkAccess, hl, Option.isSome_iff_ne_none.mp hw, hc]

theorem Chip.configWrite_onlyChanges (c : Chip) (src : Byte) (m : WriteMsg) :
    c.onlyChanges (c.configWrite src m) [.link, .store] := by
  intro b hb
  cases b <;> simp_all [Chip.sameAt]

/-- Settles O53: by the rows of Table 10-4. -/
theorem configWriteIsChecked : Obligations.ConfigWriteIsChecked := by
  unfold Obligations.ConfigWriteIsChecked
  intro s src dst data hears hdst hlen
  refine gives_heard _ s 0x30 src dst data .configWrite _ rfl hears rfl (Cfg.hears_family _ _ _ rfl) (fun _ => hdst) ?_
  have htake : (s.chip.mapLink Link.runEnded).consumeInRun .configWrite src dst data
      = (s.chip.mapLink Link.runEnded).configWrite src ⟨nat8 data 0, nat32 data 1, BitVec.ofNat 32 (nat32 data 5)⟩ := by
    simp only [Chip.consumeInRun, Chip.take, readConfigWrite, takeData_long _ hlen]
  have honly := Chip.onlyChanges_heard (bs' := [.link, .store])
    ((s.chip.mapLink Link.runEnded).configWrite_onlyChanges src
      ⟨nat8 data 0, nat32 data 1, BitVec.ofNat 32 (nat32 data 5)⟩) (by simp)
  rw [htake]
  have hitem := s.chip.store.work.writeItem_answers (nat8 data 0) (nat32 data 1) (nat32_lt data 1)
  have hbyte : BitVec.ofNat 8 (nat8 data 0) = byteAt data 0 := BitVec.ofNat_toNat ..
  have answers (f : ParamStore → ParamStore) (a : ConfigCode) :=
    s.chip.configAnswered_offer f src (nat8 data 0) a hears.inRun
  rw [hbyte] at answers
  have hstore : (s.chip.mapLink Link.runEnded).store = s.chip.store := rfl
  refine ⟨fun hl => ?_, fun hl hw => ?_, fun hl hw hc => ?_, fun hl hw hc hi => ?_, fun hl hw hc hi hv => ?_,
    fun hl hw hc hv => ?_, honly⟩
  · simp only [Chip.configWrite, hstore, ParamStore.checkAccess_ignored _ hl]
    exact ⟨s.chip.onlyHeard_untaken.1, rfl⟩
  · simp only [Chip.configWrite, hstore, ParamStore.checkAccess_closed _ hl hw]
    obtain ⟨ha, hs, -⟩ := answers id .closed
    exact ⟨ha, hs⟩
  · simp only [Chip.configWrite, hstore, ParamStore.checkAccess_wrongCode hl hw hc]
    obtain ⟨ha, hs, -⟩ := answers ParamStore.countWrong .code
    exact ⟨ha, hs.trans s.chip.store.countWrong_eq⟩
  all_goals simp only [Chip.configWrite, hstore, ParamStore.checkAccess_admitted hl hw hc]
  all_goals generalize s.chip.store.work.writeItem (nat8 data 0) (nat32 data 1) = r at hitem ⊢
  · obtain rfl := hitem.eq_noItem hi
    obtain ⟨ha, hs, -⟩ := answers id .item
    exact ⟨ha, hs⟩
  · obtain rfl := hitem.eq_outside hi hv
    obtain ⟨ha, hs, -⟩ := answers id .range
    exact ⟨ha, hs⟩
  · obtain ⟨w, rfl, hvalue, hother⟩ := hitem.exists_written hv
    obtain ⟨ha, hs, -⟩ := answers (fun p => { p with work := w }) .ok
    refine ⟨ha, ?_, ?_, fun j hj => ?_⟩
    all_goals dsimp only; rw [hs]
    · exact hvalue
    · exact hother j hj

end Sys2Proof.Machine

/-! SUPPORT. The parameter store's writes in turn (R165, R172): CONFIG COMMIT and the completion of a write (O54). -/

namespace Sys2Proof.Machine

set_option Elab.async false

/-! ## CONFIG COMMIT -/

theorem Chip.configCommit_onlyChanges (c : Chip) (src : Byte) (code : BitVec 32) :
    c.onlyChanges (c.configCommit src code) [.link, .store] := by
  intro b hb
  cases b <;> simp_all [Chip.sameAt]

theorem ParamStore.kick_writing {p : ParamStore} (now : Tick) (h : p.writing.isSome = true) : p.kick now = p := by
  obtain ⟨w, hw⟩ := Option.isSome_iff_exists.mp h
  simp only [ParamStore.kick, hw]

theorem ParamStore.kick_config {p : ParamStore} {x : Cfg} (now : Tick) (hw : p.writing = none)
    (hr : p.reqRetain = none) (hc : p.reqCurve = none) (hx : p.reqConfig = some x) :
    p.kick now = { p with
      writing := some (.config x, now), reqConfig := none, owed := p.owed ++ p.owedNext, owedNext := []
      replaced := false } := by
  simp only [ParamStore.kick, hw, hr, hc, hx]

theorem ParamStore.kick_curve {p : ParamStore} {i : Fin 4} {x : CurveSet} (now : Tick) (hw : p.writing = none)
    (hr : p.reqRetain = none) (hc : p.reqCurve = some (i, x)) :
    p.kick now = { p with writing := some (.curve i x, now), reqCurve := none } := by
  simp only [ParamStore.kick, hw, hr, hc]

theorem ParamStore.kick_retain {p : ParamStore} {r : Retained} (now : Tick) (hw : p.writing = none)
    (hr : p.reqRetain = some r) : p.kick now = { p with writing := some (.retain r, now), reqRetain := none } := by
  simp only [ParamStore.kick, hw, hr]

theorem ParamStore.kick_none {p : ParamStore} (now : Tick) (hw : p.writing = none) (hr : p.reqRetain = none)
    (hc : p.reqCurve = none) (hx : p.reqConfig = none) : p.kick now = p := by
  simp only [ParamStore.kick, hw, hr, hc, hx]

/-- The owed answers move only with the start of a CONFIG write (R172). -/
theorem ParamStore.kick_owed {p : ParamStore} (now : Tick) (hw : p.writing = none)
    (h : p.reqRetain.isSome = true ∨ p.reqCurve.isSome = true ∨ p.reqConfig = none) :
    (p.kick now).owedNext = p.owedNext ∧ (p.kick now).owed = p.owed ∧ (p.kick now).replaced = p.replaced := by
  unfold ParamStore.kick
  simp only [hw]
  split <;> simp_all

/-! ## The completion -/

/-- The store that the completion of a write leaves before the next request is started: a CONFIG write has answered its
requesters, a CURVE write has given the set its working copy (R165, R172). -/
def ParamStore.handed (w : WriteReq) (p : ParamStore) : ParamStore :=
  match w with
  | .config _ => p.clearAnswered
  | .curve i x => { p with curves := p.curves.set i x }
  | .retain _ => p

theorem Chip.curveWritten_store (i : Fin 4) (x : CurveSet) (c : Chip) :
    (c.curveWritten i x).store = { c.store with curves := c.store.curves.set i x } := by
  unfold Chip.curveWritten
  dsimp only
  (repeat' split) <;> simp

theorem Chip.handCompletion_store (w : WriteReq) (c : Chip) : (c.handCompletion w).store = c.store.handed w := by
  cases w with
  | config x => simp [Chip.handCompletion, ParamStore.handed, Chip.answerCommits]
  | curve i x => exact c.curveWritten_store i x
  | retain x => rfl

/-- Outside RUN the completion of a CURVE write moves no alarm. -/
theorem Chip.curveWritten_dark (i : Fin 4) (x : CurveSet) (c : Chip) (h : c.inRun = false) :
    c.curveWritten i x =
      if c.cal.state = .writing then (c.mapStore fun p => { p with curves := p.curves.set i x }).leaveCal
      else c.mapStore fun p => { p with curves := p.curves.set i x } := by
  obtain ⟨y, hy⟩ : ∃ y, y = c.mapStore fun p => { p with curves := p.curves.set i x } := ⟨_, rfl⟩
  have hrun : y.inRun = false := by rw [hy]; exact h
  have hcal : y.cal = c.cal := by rw [hy]; rfl
  unfold Chip.curveWritten
  dsimp only
  rw [← hy]
  simp only [hrun, hcal, Bool.false_eq_true, if_false]
  split
  · have hl : y.leaveCal.inRun = false := by simpa [Chip.inRun] using hrun
    exact Chip.takeCond_suspended _ _ _ hl
  · exact Chip.takeCond_suspended _ _ _ hrun

/-- Outside RUN, with the tracker suspended for POWER, leaving calibration moves the unit, the CAL reason, the resume role
and the kept page alone (R101, R102). -/
theorem Chip.leaveCal_dark (c : Chip) (h : c.inRun = false) (hp : c.trk.suspPower = true) :
    c.leaveCal = { c with
      cal := { c.cal with state := .out, liftOpen := false }
      role := { c.role with resumeRole := if c.role.resumeRole = .mute then .mute else .listen }
      trk := { c.trk with suspCal := false }
      panel := { c.panel with keptPage := .run } } := by
  obtain ⟨y, hy⟩ : ∃ y, y = c.mapCal fun u => { u with state := .out, liftOpen := false } := ⟨_, rfl⟩
  have hrun : y.inRun = false := by rw [hy]; exact h
  have hrole : y.role = c.role := by rw [hy]; rfl
  have hl : y.takeListen = { y with
      role := { c.role with resumeRole := if c.role.resumeRole = .mute then .mute else .listen } } := by
    by_cases hm : c.role.resumeRole = .mute
    · have he : c.role = { c.role with resumeRole := .mute } := by rw [← hm]
      simp only [Chip.takeListen, hrun, hrole, hm, Bool.false_eq_true, if_false, if_true]
      rw [← he, ← hrole]
    · simp only [Chip.takeListen, hrun, hrole, hm, Bool.false_eq_true, if_false, Chip.mapRole]
  have hs : y.trk.suspPower = true := by rw [hy]; exact hp
  unfold Chip.leaveCal
  dsimp only
  rw [← hy, hl]
  simp only [Chip.removeCal, Chip.unsuspend, Chip.mapTrk, hs, Bool.or_true, if_true, Chip.mapPanel]
  have hrun' : ∀ r t, Chip.inRun { y with role := r, trk := t } = false := fun _ _ => hrun
  simp only [hrun', Bool.false_eq_true, if_false]
  simp only [hy, Chip.mapCal, hp]

theorem Chip.leaveCal_dark_onlyChanges (c : Chip) (h : c.inRun = false) (hp : c.trk.suspPower = true) :
    c.onlyChanges c.leaveCal [.trk, .role, .cal, .panel] := by
  rw [c.leaveCal_dark h hp]
  intro b hb
  cases b <;> simp_all [Chip.sameAt]

/-- The chip at the completion, the array written. -/
def Chip.arrayWritten (w : WriteReq) (c : Chip) : Chip :=
  c.mapStore fun p => { p with array := p.array.put w, writing := none }

theorem Chip.storeWriteComplete_due {c : Chip} {w : WriteReq} {since : Tick} (hw : c.store.writing = some (w, since))
    (hdue : w.time ≤ age c.tick since) :
    c.storeWriteComplete =
      if c.sup.life = .up then
        (((c.arrayWritten w).handCompletion w).mapStore (ParamStore.kick c.tick)).settleLink
      else c.arrayWritten w := by
  have hd : c.store.writeDue c.tick = true := by simp [ParamStore.writeDue, hw, hdue]
  have hf : c.mapStore ParamStore.finishWrite = c.arrayWritten w := by
    simp only [Chip.arrayWritten, Chip.mapStore, ParamStore.finishWrite, hw]
  have hl : (c.arrayWritten w).sup.life = c.sup.life := rfl
  have ht : (c.arrayWritten w).tick = c.tick := rfl
  unfold Chip.storeWriteComplete
  simp only [hw, hd, hf, hl, ht, if_true]
  cases c.sup.life <;> rfl

theorem Chip.answerCommits_onlyChanges (c : Chip) : c.onlyChanges c.answerCommits [.link, .store] := by
  intro b hb
  cases b <;> simp_all [Chip.sameAt]

/-- A CONFIG write's completion puts its answers at the newest end (R172). -/
theorem Chip.answerCommits_queue (c : Chip) (hrun : c.sup.power = .run) (hm : c.role.state ≠ .mute)
    (hl : c.link.queue.length + c.store.answered.length ≤ 8) :
    c.answerCommits.link.queue = c.link.queue ++ c.store.answered.map fun src => ⟨.configStatus, src, [0, 0]⟩ :=
  Chip.offerAll_queue _ c (fun _ _ => Chip.takesOffer_of_not_mute _ hrun hm) (by simpa using hl)

theorem Chip.curveWritten_run (i : Fin 4) (x : CurveSet) (c : Chip) (h : c.inRun = true) :
    (c.cal.state = .writing → (c.curveWritten i x).cal.state = .done)
      ∧ c.onlyChanges (c.curveWritten i x) [.cal, .alarm, .panel, .store] := by
  obtain ⟨y, hy⟩ : ∃ y, y = c.mapStore fun p => { p with curves := p.curves.set i x } := ⟨_, rfl⟩
  have hrun : y.inRun = true := by rw [hy]; exact h
  have hcal : y.cal = c.cal := by rw [hy]; rfl
  have hstep : c.onlyChanges y [.store] := by
    rw [hy]
    intro b hb
    cases b <;> simp_all [Chip.sameAt]
  unfold Chip.curveWritten
  dsimp only
  rw [← hy]
  simp only [hrun, hcal, if_true]
  split
  · have hdone : y.onlyChanges (y.mapCal fun u => { u with state := .done }) [.cal] := by
      intro b hb
      cases b <;> simp_all [Chip.sameAt]
    refine ⟨fun _ => by simp [Chip.mapCal], ?_⟩
    exact (hstep.mono (by simp)).trans
      ((hdone.mono (by simp)).trans ((Chip.refresh_onlyChanges _ _).mono (by simp)))
  · rename_i hn
    exact ⟨fun hc => absurd hc hn, (hstep.mono (by simp)).trans ((Chip.refresh_onlyChanges _ _).mono (by simp))⟩

/-- The store at a completion has every field but the array, the sets and the owed answers as it was. -/
theorem ParamStore.handed_facts (w : WriteReq) (p : ParamStore) :
    let q := ({ p with array := p.array.put w, writing := none } : ParamStore).handed w
    q.writing = none ∧ q.reqRetain = p.reqRetain ∧ q.reqCurve = p.reqCurve ∧ q.reqConfig = p.reqConfig
      ∧ q.replaced = p.replaced ∧ q.array = p.array.put w ∧ q.cfg = p.cfg ∧ q.work = p.work
      ∧ q.window = p.window := by
  cases w <;> exact ⟨rfl, rfl, rfl, rfl, rfl, rfl, rfl, rfl, rfl⟩

theorem Chip.onlyChanges_mapStore (c : Chip) (f : ParamStore → ParamStore) : c.onlyChanges (c.mapStore f) [.store] := by
  intro b hb
  cases b <;> simp_all [Chip.sameAt]

/-- The array before a completion and the next request after it move the store alone. -/
theorem Chip.onlyChanges_completion {c x : Chip} {w : WriteReq} {bs bs' : List Block} (f : ParamStore → ParamStore)
    (h : (c.arrayWritten w).onlyChanges x bs) (hs : .link :: .store :: bs ⊆ bs') :
    c.onlyChanges (x.mapStore f).settleLink bs' := by
  have hstore : .store ∈ bs' := hs (by simp)
  refine Chip.onlyChanges.settleLink ?_ (hs (by simp))
  exact ((c.onlyChanges_mapStore _).mono (by simpa using hstore)).trans
    ((h.mono fun b hb => hs (by simp [hb])).trans ((x.onlyChanges_mapStore f).mono (by simpa using hstore)))

theorem Chip.curveWritten_dark_facts (i : Fin 4) (x : CurveSet) (c : Chip) (h : c.inRun = false)
    (hc : c.cal.state = .writing) (hp : c.trk.suspPower = true) :
    let d := c.curveWritten i x
    d.cal = { c.cal with state := .out, liftOpen := false }
      ∧ d.role = { c.role with resumeRole := if c.role.resumeRole = .mute then .mute else .listen }
      ∧ d.trk = { c.trk with suspCal := false } ∧ d.panel = { c.panel with keptPage := .run }
      ∧ c.onlyChanges d [.trk, .role, .cal, .panel, .store] := by
  obtain ⟨z, hz⟩ : ∃ z, z = c.mapStore fun p => { p with curves := p.curves.set i x } := ⟨_, rfl⟩
  have hzrun : z.inRun = false := by rw [hz]; exact h
  have hzp : z.trk.suspPower = true := by rw [hz]; exact hp
  have hfrom : c.onlyChanges z [.store] := by rw [hz]; exact Chip.onlyChanges_mapStore _ _
  have honly := (hfrom.mono (bs' := [.trk, .role, .cal, .panel, .store]) (by simp)).trans
    ((z.leaveCal_dark_onlyChanges hzrun hzp).mono (by simp))
  intro d
  have hd : d = z.leaveCal := by rw [hz]; exact (Chip.curveWritten_dark i x c h).trans (if_pos hc)
  rw [hd]
  refine ⟨?_, ?_, ?_, ?_, honly⟩
  all_goals rw [z.leaveCal_dark hzrun hzp, hz]; rfl

/-- What the completion of a CURVE write does to calibration, in RUN and outside it (R99, R102). -/
theorem Chip.curve_completes (c : Chip) (i : Fin 4) (y : CurveSet) (f : ParamStore → ParamStore) :
    let d := (((c.arrayWritten (.curve i y)).curveWritten i y).mapStore f).settleLink
    (c.sup.power = .run → c.cal.state = .writing → d.cal.state = .done)
      ∧ (c.sup.power = .run → c.onlyChanges d [.link, .cal, .alarm, .panel, .store])
      ∧ (c.sup.power ≠ .run → c.cal.state ≠ .writing → c.onlyChanges d [.link, .store])
      ∧ (c.sup.power ≠ .run → c.cal.state = .writing → c.trk.suspPower = true →
          d.cal = { c.cal with state := .out, liftOpen := false }
            ∧ d.role = { c.role with resumeRole := if c.role.resumeRole = .mute then .mute else .listen }
            ∧ d.trk = { c.trk with suspCal := false } ∧ d.panel = { c.panel with keptPage := .run }
            ∧ c.onlyChanges d [.link, .trk, .role, .cal, .panel, .store]) := by
  obtain ⟨a, ha⟩ : ∃ a, a = c.arrayWritten (.curve i y) := ⟨_, rfl⟩
  have hcal : a.cal = c.cal := by rw [ha]; rfl
  have hrun : a.inRun = c.inRun := by rw [ha]; rfl
  have lit (h : c.sup.power = .run) : a.inRun = true := by rw [hrun]; simpa [Chip.inRun] using h
  have unlit (h : c.sup.power ≠ .run) : a.inRun = false := by rw [hrun]; simpa [Chip.inRun] using h
  have moves {x : Chip} {bs bs' : List Block} (h : a.onlyChanges x bs) (hs : .link :: .store :: bs ⊆ bs') :
      c.onlyChanges (x.mapStore f).settleLink bs' := Chip.onlyChanges_completion f (ha ▸ h) hs
  rw [← ha]
  refine ⟨fun h hw => ?_, fun h => ?_, fun h hw => ?_, fun h hw hp => ?_⟩
  · exact (Chip.curveWritten_run i y a (lit h)).1 (by rw [hcal]; exact hw)
  · exact moves (Chip.curveWritten_run i y a (lit h)).2 (by simp)
  · rw [(Chip.curveWritten_dark i y a (unlit h)).trans (if_neg (by rw [hcal]; exact hw))]
    exact moves (a.onlyChanges_mapStore _) (by simp)
  · have hap : a.trk.suspPower = true := by rw [ha]; exact hp
    obtain ⟨h1, h2, h3, h4, h5⟩ := Chip.curveWritten_dark_facts i y a (unlit h) (by rw [hcal]; exact hw) hap
    refine ⟨h1.trans (by rw [hcal]), h2.trans (by rw [ha]; rfl), h3.trans (by rw [ha]; rfl), h4.trans (by rw [ha]; rfl),
      moves h5 (by simp)⟩

/-- Settles O54: by the rows of Table 10-4, and by the request that the write carried. -/
theorem storeWritesInTurn : Obligations.StoreWritesInTurn := by
  unfold Obligations.StoreWritesInTurn
  intro s p now
  refine ⟨fun src dst data hears hdst hlen => ?_, fun w since hw hdue => ?_⟩
  · refine gives_heard _ s 0x31 src dst data .configCommit _ rfl hears rfl (Cfg.hears_family _ _ _ rfl) (fun _ => hdst) ?_
    have htake : (s.chip.mapLink Link.runEnded).consumeInRun .configCommit src dst data
        = (s.chip.mapLink Link.runEnded).configCommit src (BitVec.ofNat 32 (nat32 data 0)) := by
      simp only [Chip.consumeInRun, Chip.take, readConfigCommit, takeData_long _ hlen]
    have honly := Chip.onlyChanges_heard (bs' := [.link, .store])
      ((s.chip.mapLink Link.runEnded).configCommit_onlyChanges src (BitVec.ofNat 32 (nat32 data 0))) (by simp)
    rw [htake]
    have answers (f : ParamStore → ParamStore) (a : ConfigCode) := s.chip.configAnswered_offer f src 0 a hears.inRun
    have hstore : (s.chip.mapLink Link.runEnded).store = p := rfl
    refine ⟨fun hl => ?_, fun hl hw => ?_, fun hl hw hc => ?_, fun hl hw hc => ?_, honly⟩
    · simp only [Chip.configCommit, hstore, ParamStore.checkAccess_ignored _ hl]
      exact ⟨s.chip.onlyHeard_untaken.1, rfl⟩
    · simp only [Chip.configCommit, hstore, ParamStore.checkAccess_closed _ hl hw]
      obtain ⟨ha, hs, -⟩ := answers id .closed
      exact ⟨ha, hs⟩
    · simp only [Chip.configCommit, hstore, ParamStore.checkAccess_wrongCode hl hw hc]
      obtain ⟨ha, hs, -⟩ := answers ParamStore.countWrong .code
      exact ⟨ha, hs.trans p.countWrong_eq⟩
    · simp only [Chip.configCommit, hstore, ParamStore.checkAccess_admitted hl hw hc]
      refine ⟨Chip.onlyHeard_settleLink rfl, fun hwr => ?_, fun hwr hr hcv => ?_⟩
      · exact ParamStore.kick_writing now hwr
      · exact ParamStore.kick_config now hwr hr hcv rfl
  · intro array left waits answered
    have htime : w.time ≤ age s.chip.tick since := by cases w <;> exact hdue
    have harray : array = p.array.put w := by cases w <;> rfl
    have hdone := Chip.storeWriteComplete_due hw htime
    obtain ⟨q, hq⟩ : ∃ q, q = ({ p with array := p.array.put w, writing := none } : ParamStore).handed w := ⟨_, rfl⟩
    obtain ⟨qw, qr, qc, qx, qrep, qa, qcfg, qwork, qwin⟩ := hq ▸ p.handed_facts w
    have hleft : q.owed = left := by cases w <;> rw [hq] <;> rfl
    have hwaits : q.owedNext = waits := by cases w <;> rw [hq] <;> rfl
    obtain ⟨x, hx⟩ : ∃ x, x = (s.chip.arrayWritten w).handCompletion w := ⟨_, rfl⟩
    have hxq : x.store = q := by rw [hx, hq]; exact Chip.handCompletion_store _ _
    refine ⟨fun hup => ?_, fun hup => ?_⟩
    · refine gives_act _ s Chip.storeWriteComplete _ rfl ?_
      have hd : (x.mapStore (ParamStore.kick s.chip.tick)).settleLink.store = q.kick now := by rw [← hxq]; rfl
      obtain ⟨kcfg, kwork, kcurves, -, -, kwin, karr⟩ := ParamStore.kick_frame now q
      rw [hdone, if_pos hup, ← hx]
      simp only [hd]
      refine ⟨by rw [karr, qa, harray], fun r hr => ?_, fun i y hr hc => ?_, fun y hr hc hy => ?_, fun h => ?_,
        fun hr hc hy => ?_, by rw [kcfg, qcfg], by rw [kwork, qwork], by rw [kwin, qwin], ?_, ?_, ?_⟩
      · rw [ParamStore.kick_retain now qw (qr.trans hr)]
        exact ⟨rfl, rfl, qc, qx⟩
      · rw [ParamStore.kick_curve now qw (qr.trans hr) (qc.trans hc)]
        exact ⟨rfl, rfl, qx⟩
      · rw [ParamStore.kick_config now qw (qr.trans hr) (qc.trans hc) (qx.trans hy)]
        exact ⟨rfl, rfl, rfl, by rw [← hleft, ← hwaits], rfl⟩
      · rw [← hleft, ← hwaits, ← qrep]
        exact ParamStore.kick_owed now qw (by rw [qr, qc, qx]; exact h)
      · rw [ParamStore.kick_none now qw (qr.trans hr) (qc.trans hc) (qx.trans hy)]
        exact qw
      · rintro y rfl
        rw [hx]
        refine ⟨fun hrun hm hl => ?_, Chip.onlyChanges_completion _ (Chip.answerCommits_onlyChanges _) (by simp)⟩
        have hset : ∀ z : Chip, z.settleLink.link.queue = z.link.queue := by simp
        rw [hset]
        exact Chip.answerCommits_queue (s.chip.arrayWritten (.config y)) hrun hm hl
      · rintro i y rfl
        have hcurves : (q.kick now).curves = p.curves.set i y := by rw [kcurves, hq]; rfl
        rw [hx]
        exact ⟨hcurves, s.chip.curve_completes i y _⟩
      · rintro y rfl
        rw [hx]
        exact Chip.onlyChanges_completion _ (Chip.onlyChanges_refl _ []) (by simp)
    · refine gives_act _ s Chip.storeWriteComplete _ rfl ?_
      rw [hdone, if_neg hup, harray]
      rfl

end Sys2Proof.Machine

/-! SUPPORT. A press and the "CAL–BUSY" message: what the routing of a press in RUN leaves of the panel (R136, R142). -/

namespace Sys2Proof.Machine

set_option Elab.async false

theorem Chip.onlyBuzzer.message {c d : Chip} (h : c.onlyBuzzer d) : d.panel.message = c.panel.message := by
  rw [show d.panel = _ from h]

theorem Chip.RecordMoves.message {c d : Chip} (h : c.RecordMoves d) : d.panel.message = c.panel.message := by
  rw [h.panel]

@[simp] theorem Chip.refresh_message (a : Alarm) (c : Chip) : (c.refresh a).panel.message = c.panel.message :=
  (Chip.refresh_panel a c).message

theorem Chip.setAlarms_message (u : AlarmUnit) (c : Chip) : (c.setAlarms u).panel.message = c.panel.message := by
  unfold Chip.setAlarms
  dsimp only
  (repeat' split) <;> simp

@[simp] theorem Chip.acknowledge_message (a : Alarm) (c : Chip) :
    (c.acknowledge a).panel.message = c.panel.message := Chip.setAlarms_message ..

@[simp] theorem Chip.beepEvent_message (p : Pattern) (c : Chip) : (c.beepEvent p).panel.message = c.panel.message := by
  unfold Chip.beepEvent
  (repeat' split) <;> simp

@[simp] theorem Chip.takeCond_message (a : Alarm) (v : Bool) (c : Chip) :
    (c.takeCond a v).panel.message = c.panel.message := (Chip.takeCond_panel a v c).message

theorem Chip.RecordMoves.joinRecord (p : PassRec) (c : Chip) : c.RecordMoves (c.joinRecord p).2 := by
  have hopen : c.RecordMoves (if c.load.record.isNone then c.openRecord 0 none else c) := by
    split
    · exact .openRecord c 0 none
    · exact .refl c
  unfold Chip.joinRecord
  dsimp only
  generalize (if c.load.record.isNone then c.openRecord 0 none else c) = x at hopen ⊢
  split
  · exact hopen
  · rename_i r hr
    have hwrite := hopen.trans (Chip.RecordMoves.writeOwn x (r.join p))
    generalize x.writeOwn (r.join p) = y at hwrite ⊢
    have hoffer : c.RecordMoves (if y.isActive then y.offer (sendPass (r.numbered p)) else y) := by
      split
      · rename_i ha
        obtain ⟨-, hactive⟩ : y.inRun = true ∧ y.role.state = .active := by simpa [Chip.isActive] using ha
        exact hwrite.trans (.offer y _ hactive)
      · exact hwrite
    exact (hoffer.trans (.evaluateRecord _)).trans (.raiseSeq _)

@[simp] theorem Chip.deliverPass_message (p : PassRec) (c : Chip) :
    (c.deliverPass p).2.panel.message = c.panel.message := by
  unfold Chip.deliverPass
  split
  · exact (Chip.RecordMoves.joinRecord p c).message
  · unfold Chip.shadowCommitted
    dsimp only
    (repeat' split) <;> simp

@[simp] theorem Chip.enterDump_message (c : Chip) : c.enterDump.panel.message = c.panel.message := by
  unfold Chip.enterDump Chip.commitPass Chip.pulsePassOver
  dsimp only
  (repeat' split) <;> simp [Chip.setCycle]

@[simp] theorem Chip.enterIdle_message (c : Chip) : c.enterIdle.panel.message = c.panel.message := by
  have hlift (x : Chip) : x.enterLift.panel.message = x.panel.message := by
    unfold Chip.enterLift
    dsimp only
    split <;> simp
  have hfill (x : Chip) : x.enterFill.panel.message = x.panel.message := by
    unfold Chip.enterFill
    dsimp only
    split <;> simp [hlift]
  unfold Chip.enterIdle
  dsimp only
  (repeat' split) <;> simp [hfill]

@[simp] theorem Chip.takeListen_message (c : Chip) : c.takeListen.panel.message = c.panel.message := by
  unfold Chip.takeListen Chip.enterListen
  dsimp only
  (repeat' split) <;> simp [Chip.setRole]

@[simp] theorem Chip.unsuspend_message (c : Chip) : c.unsuspend.panel.message = c.panel.message := by
  unfold Chip.unsuspend
  split <;> simp

@[simp] theorem Chip.leaveCal_message (c : Chip) : c.leaveCal.panel.message = c.panel.message := by
  unfold Chip.leaveCal Chip.removeCal
  dsimp only
  generalize hx : Chip.unsuspend _ = x
  have h : x.panel.message = c.panel.message := by rw [← hx]; simp
  rw [Chip.mapPanel_panel]
  split <;> exact h

@[simp] theorem Chip.calPress_message (k : Key) (c : Chip) : (c.calPress k).panel.message = c.panel.message := by
  cases k with
  | mode => simp only [Chip.calPress, Chip.calMode]; split <;> simp
  | up | down | enter => simp [Chip.calPress]

@[simp] theorem Chip.routeCal_message (k : Key) (c : Chip) : (c.routeCal k).panel.message = c.panel.message := by
  have hstep (up : Bool) : (c.calStep up).panel.message = c.panel.message := by
    unfold Chip.calStep
    dsimp only
    split <;> simp [Panel.restartBlink]
  cases k <;> simp [Chip.routeCal, hstep]

theorem Chip.RecordMoves.nextManualTruck (c : Chip) : c.RecordMoves c.nextManualTruck := by
  unfold Chip.nextManualTruck
  split
  · exact ((Chip.RecordMoves.closeRecord c _).trans (Chip.RecordMoves.openRecord _ _ _)).trans
      (Chip.RecordMoves.of_mapLoad _ _)
  · exact .refl c

@[simp] theorem Chip.setupStep_message (up : Bool) (c : Chip) : (c.setupStep up).panel.message = c.panel.message := by
  unfold Chip.setupStep Chip.settingChanged Chip.writeShadow Chip.beepEvent
  dsimp only
  (repeat' split) <;> simp [Panel.restartBlink]

@[simp] theorem Panel.selectHistory_message (p : Panel) (sel : Option (BitVec 32)) (now : Tick) :
    (p.selectHistory sel now).message = p.message := by
  unfold Panel.selectHistory
  split <;> rfl

@[simp] theorem Chip.pageStep_message (c : Chip) : c.pageStep.panel.message = c.panel.message := by
  unfold Chip.pageStep Chip.enterPage Chip.enterHistory
  dsimp only
  (repeat' split) <;> simp

@[simp] theorem Chip.routePage_message (k : Key) (c : Chip) : (c.routePage k).panel.message = c.panel.message := by
  have hud (up : Bool) : (c.routeUpDown up).panel.message = c.panel.message := by
    unfold Chip.routeUpDown
    split <;> simp [Chip.truckSelect, Chip.countSelect, Chip.historySelect, Chip.diagSelect]
  cases k with
  | mode => simp [Chip.routePage]
  | up | down => simp [Chip.routePage, hud]
  | enter =>
    unfold Chip.routePage Chip.routeEnter
    dsimp only
    split <;> simp [(Chip.RecordMoves.nextManualTruck c).message, Chip.historyNewest, Chip.setupNext]

theorem Chip.pressInRun_message (k : Key) (c : Chip) : (c.pressInRun k).panel.message = c.panel.message := by
  unfold Chip.pressInRun Chip.routePress
  (repeat' split) <;> simp

/-! ## Debounce (R132, R133) -/

/-- The keys are watched: the part runs, in RUN, in PEEK, or in DOZE with key wake (R132, R147). -/
def Chip.keysWatched (c : Chip) : Prop :=
  c.sup.life = .up ∧ (c.sup.power = .run ∨ c.sup.power = .peek ∨ c.sup.power = .doze ∧ c.cfg.keyWake = true)

theorem Chip.keysWatched_iff (c : Chip) : c.keysWatched ↔ c.sup.life = .up ∧ c.watchesKeys = true := by
  unfold Chip.keysWatched Chip.watchesKeys
  cases c.sup.power <;> simp

theorem allUp_iff (k : PerKey KeyDeb) :
    allUp k = true ↔ k.mode.down = false ∧ k.up.down = false ∧ k.down.down = false ∧ k.enter.down = false := by
  simp [allUp, and_assoc]

/-- The chip with a key at its line level, its timer stopped (R132). -/
def Chip.keyAtLine (k : Key) (c : Chip) : Chip :=
  c.mapPanel fun p => { p with keys := p.keys.set k ⟨c.pins.keys.get k, none⟩ }

theorem Chip.keyDebounce_due {c : Chip} {k : Key} (hw : c.keysWatched)
    (hto : ranOut 20 (c.panel.keys.get k).timer c.tick) :
    Chip.whenUp (Chip.keyDebounceExpiry k) c =
      (if c.pins.keys.get k = true then (c.keyAtLine k).keyDown k else (c.keyAtLine k).keyUp k).settleLink := by
  obtain ⟨hup, hwatch⟩ := c.keysWatched_iff.mp hw
  rw [Chip.whenUp_up _ _ hup, Chip.keyDebounceExpiry, hwatch, due_of_ranOut _ _ _ hto]
  rfl

theorem Chip.keyDebounce_unwatched {c : Chip} (k : Key) (hw : ¬c.keysWatched) :
    Chip.whenUp (Chip.keyDebounceExpiry k) c = c := by
  by_cases hup : c.sup.life = .up
  · have hwatch : c.watchesKeys = false := by
      cases h : c.watchesKeys with
      | false => rfl
      | true => exact absurd (c.keysWatched_iff.mpr ⟨hup, h⟩) hw
    rw [Chip.whenUp_up _ _ hup, Chip.keyDebounceExpiry, hwatch]
    rfl
  · exact Chip.whenUp_down _ _ hup

/-- The chip with a press registered: the key held, the message ended (R133, R142). -/
def Chip.keyHeld (k : Key) (c : Chip) : Chip :=
  (c.keyAtLine k).mapPanel fun p => { p with decoder := .held ((c.keyAtLine k).holdOf k), message := none }

theorem Chip.keyDown_ready {c : Chip} (k : Key) (hr : c.panel.decoder = .ready) :
    (c.keyAtLine k).keyDown k =
      match c.sup.power with
      | .run => (c.keyHeld k).pressInRun k
      | .doze => (c.keyHeld k).pressInDoze
      | .peek => (c.keyHeld k).pressInPeek k
      | .hold => c.keyHeld k := by
  have hdec : (c.keyAtLine k).panel.decoder = .ready := hr
  have hheld : ((c.keyAtLine k).mapPanel fun p => { p with decoder := p.decoder.press ((c.keyAtLine k).holdOf k) }).mapPanel
      (fun p => { p with message := none }) = c.keyHeld k := by
    simp only [Chip.keyHeld, Chip.mapPanel, hdec, Decoder.press]
  unfold Chip.keyDown
  dsimp only
  rw [if_pos hdec, Chip.registered, hheld]
  exact rfl

/-! ## PEEK (R147, R179) -/

/-- What a press in PEEK makes of the panel, with the summaries' sequence numbers (R139, R147). -/
def Panel.peekPress (k : Key) (seqs : List (BitVec 32)) (now : Tick) (p : Panel) : Panel :=
  match k, p.peekHistory with
  | .mode, true => { p with peekHistory := false, countItem := 1 }
  | .mode, false => { p with peekHistory := true, histSel := seqs.getLast?, histSecond := false, histTimer := some now }
  | .up, false => { p with countItem := wrapStep 7 true p.countItem }
  | .down, false => { p with countItem := wrapStep 7 false p.countItem }
  | .up, true => p.selectHistory (historyStep seqs true p.histSel) now
  | .down, true => p.selectHistory (historyStep seqs false p.histSel) now
  | .enter, true => p.selectHistory seqs.getLast? now
  | .enter, false => p

theorem Chip.pressInPeek_eq (k : Key) (c : Chip) :
    c.pressInPeek k = { c with
      sup := { c.sup with peekTimer := some c.tick }
      panel := c.panel.peekPress k (c.load.history.map Summary.seq) c.tick } := by
  have hnewest : (c.load.history.map Summary.seq).getLast? = c.load.history.getLast?.map Summary.seq :=
    List.getLast?_map
  unfold Chip.pressInPeek Panel.peekPress
  simp only [hnewest]
  cases k <;> cases hp : c.panel.peekHistory <;>
    simp only [Chip.peekMode, Chip.enterHistory, Chip.countSelect, Chip.historySelect, Chip.historyNewest,
      Chip.mapSup, Chip.mapPanel, Chip.newestSummary, hp] <;> rfl

/-- The outcome of a press in PEEK, key by key and page by page. -/
theorem Panel.peekPress_facts (k : Key) (seqs : List (BitVec 32)) (now : Tick) (p : Panel) :
    let q := p.peekPress k seqs now
    q = { p with
        peekHistory := q.peekHistory, countItem := q.countItem, histSel := q.histSel, histSecond := q.histSecond
        histTimer := q.histTimer }
      ∧ q.peekHistory = (if k = .mode then !p.peekHistory else p.peekHistory)
      ∧ (p.peekHistory = true ∧ k ≠ .mode ∨ k = .enter → q.countItem = p.countItem)
      ∧ (p.peekHistory = true → k = .mode → q.countItem = 1)
      ∧ (p.peekHistory = false → k = .up → q.countItem = if 7 ≤ p.countItem then 1 else p.countItem + 1)
      ∧ (p.peekHistory = false → k = .down → q.countItem = if p.countItem ≤ 1 then 7 else p.countItem - 1)
      ∧ (p.peekHistory = false → k = .mode → q.histSel = seqs.getLast? ∧ q.histSecond = false ∧ q.histTimer = some now)
      ∧ (p.peekHistory = false ∧ k ≠ .mode ∨ p.peekHistory = true ∧ k = .mode →
          q.histSel = p.histSel ∧ q.histSecond = p.histSecond ∧ q.histTimer = p.histTimer)
      ∧ (p.peekHistory = true → decide (k = .up ∨ k = .down) = true → p.histSel = none → q.histSel = seqs.getLast?)
      ∧ (p.peekHistory = true → k = .down → olderIn seqs p.histSel q.histSel)
      ∧ (p.peekHistory = true → k = .up → newerIn seqs some p.histSel q.histSel)
      ∧ (p.peekHistory = true → k = .enter → q.histSel = seqs.getLast?) := by
  have hselect (sel : Option (BitVec 32)) := p.selectHistory_facts sel now
  have hsel (sel : Option (BitVec 32)) : (p.selectHistory sel now).histSel = sel := by
    have h := (hselect sel).1
    rw [h]
  have hpage (sel : Option (BitVec 32)) : (p.selectHistory sel now).peekHistory = p.peekHistory
      ∧ (p.selectHistory sel now).countItem = p.countItem := by
    have h := (hselect sel).1
    rw [h]
    exact ⟨rfl, rfl⟩
  have hnone (up : Bool) (h : p.histSel = none) : historyStep seqs up p.histSel = seqs.getLast? := by rw [h]; rfl
  intro q
  cases k <;> cases hp : p.peekHistory <;>
    simp only [q, Panel.peekPress, hp, wrapStep, hsel, (hpage _).1, (hpage _).2] <;> simp
  case up.true => exact ⟨by simpa only [hp, hsel] using (hselect _).1, hnone true, historyStep_newer seqs _⟩
  case down.true => exact ⟨by simpa only [hp, hsel] using (hselect _).1, hnone false, historyStep_older seqs _⟩
  case enter.true => simpa only [hp, hsel] using (hselect _).1
  case enter.false => rw [← hp]

theorem Chip.enterPeek_eq (c : Chip) (h : allUp c.panel.keys = false) :
    c.enterPeek = { c with
      sup := { c.sup with power := .peek, peekTimer := some c.tick }
      link := c.link.settle false
      panel := { c.panel with
        decoder := .awaitRelease, peekHistory := false, countItem := 1, buz := Buzzer.silent
        shadow := c.panel.settings.day } } := by
  simp only [Chip.enterPeek, Chip.setPower, Chip.mapSup, Chip.mapPanel, Chip.writeShadow, Chip.chosenLevel, Chip.inRun,
    Panel.peek, Panel.await, awaitRelease, h]
  rfl

theorem Chip.enterPeek_onlyChanges (c : Chip) : c.onlyChanges c.enterPeek [.sup, .link, .panel] := by
  intro b hb
  cases b <;> simp_all [Chip.sameAt]

theorem Chip.keyWake_of_doze {c : Chip} (h : c.keysWatched) (hd : c.sup.power = .doze) : c.cfg.keyWake = true := by
  obtain ⟨-, hp⟩ := h
  simpa [hd] using hp

theorem Chip.onlyChanges_keyHeld (k : Key) (c : Chip) : c.onlyChanges (c.keyHeld k) [.panel] := by
  intro b hb
  cases b <;> simp_all [Chip.sameAt, Chip.keyHeld, Chip.keyAtLine]

/-- A press registered in PEEK (R147). -/
theorem Chip.keyHeld_pressInPeek (k : Key) (c : Chip) :
    let d := ((c.keyHeld k).pressInPeek k).settleLink
    d.sup = { c.sup with peekTimer := some c.tick }
      ∧ d.panel = (c.keyHeld k).panel.peekPress k (c.load.history.map Summary.seq) c.tick
      ∧ c.onlyChanges d [.sup, .link, .panel] := by
  have hmoved : (c.keyHeld k).onlyChanges ((c.keyHeld k).pressInPeek k) [.sup, .panel] := by
    rw [Chip.pressInPeek_eq]
    intro b hb
    cases b <;> simp_all [Chip.sameAt]
  intro d
  refine ⟨?_, ?_, Chip.onlyChanges.settleLink (((c.onlyChanges_keyHeld k).mono (by simp)).trans (hmoved.mono (by simp)))
    (by simp)⟩
  all_goals
    simp only [d, Chip.pressInPeek_eq]
    rfl

theorem Chip.keyLineChange_onlyChanges (k : Key) (low : Bool) (c : Chip) :
    c.onlyChanges (c.keyLineChange k low) [.pins, .panel] := by
  intro b hb
  cases b <;> simp_all [Chip.sameAt]

/-- A changed key line: the pin, and of a watched line the debounce timer (R132). -/
theorem Chip.keyLineChange_facts (k : Key) (low : Bool) (c : Chip) (h : c.pins.keys.get k ≠ low) :
    (c.keyLineChange k low).pins = { c.pins with keys := c.pins.keys.set k low }
      ∧ (c.keysWatched → (c.keyLineChange k low).panel = { c.panel with
          keys := c.panel.keys.set k { c.panel.keys.get k with
            timer := if (c.panel.keys.get k).down = low then none else some c.tick } })
      ∧ (¬c.keysWatched → (c.keyLineChange k low).panel = c.panel) := by
  rw [c.keysWatched_iff]
  unfold Chip.keyLineChange
  simp only [if_neg h]
  by_cases hlive : (c.sup.life == .up && c.watchesKeys) = true
  · have hw : c.sup.life = .up ∧ c.watchesKeys = true := by simpa using hlive
    rw [if_pos hlive]
    exact ⟨rfl, fun _ => rfl, fun hn => absurd hw hn⟩
  · have hw : ¬(c.sup.life = .up ∧ c.watchesKeys = true) := by simpa using hlive
    rw [if_neg hlive]
    exact ⟨rfl, fun h => absurd h hw, fun _ => rfl⟩

/-- A key change that the decoder takes without a press registered moves the panel alone (R133). -/
theorem Chip.onlyChanges_settledPanel (f : Panel → Panel) (c : Chip) :
    c.onlyChanges (c.mapPanel f).settleLink [.link, .panel] :=
  Chip.onlyChanges.settleLink ((c.onlyChanges_mapPanel f).mono (by simp)) (by simp)

theorem Chip.keyUp_keyAtLine (k : Key) (c : Chip) :
    (c.keyAtLine k).keyUp k = c.mapPanel fun p => { p with
      keys := p.keys.set k ⟨c.pins.keys.get k, none⟩
      decoder := p.decoder.release k (allUp (p.keys.set k ⟨c.pins.keys.get k, none⟩)) } := rfl

theorem Chip.keyDown_unready {c : Chip} (k : Key) (hr : c.panel.decoder ≠ .ready) :
    (c.keyAtLine k).keyDown k = c.mapPanel fun p => { p with
      keys := p.keys.set k ⟨c.pins.keys.get k, none⟩
      decoder := p.decoder.press ((c.keyAtLine k).holdOf k) } := by
  have hdec : (c.keyAtLine k).panel.decoder ≠ .ready := hr
  unfold Chip.keyDown
  rw [if_neg hdec]
  rfl

theorem Chip.keyHeld_panel {c : Chip} {k : Key} (h : c.pins.keys.get k = true) :
    (c.keyHeld k).panel = { c.panel with
      keys := c.panel.keys.set k ⟨true, none⟩, decoder := .held ((c.keyAtLine k).holdOf k), message := none } := by
  simp only [Chip.keyHeld, Chip.keyAtLine, Chip.mapPanel, h]

/-- With a key down not every key is up. -/
theorem allUp_set_down (keys : PerKey KeyDeb) (k : Key) : allUp (keys.set k ⟨true, none⟩) = false := by
  cases k <;> simp [allUp, PerKey.set]

/-- Settles O47: by the decoder's state and the power state. -/
theorem keysAreDebounced : Obligations.KeysAreDebounced := by
  unfold Obligations.KeysAreDebounced
  intro s k c p watched
  refine ⟨fun low hlow => ?_, fun hw => ?_, fun hw hto => ?_⟩
  · refine gives_act _ s (Chip.keyLineChange k low) _ rfl ?_
    obtain ⟨hpins, hwatch, hdark⟩ := s.chip.keyLineChange_facts k low hlow
    exact ⟨hpins, hwatch, hdark, s.chip.keyLineChange_onlyChanges k low⟩
  · refine gives_effect _ s _ ?_
    exact Chip.keyDebounce_unwatched k hw
  · intro low keys up
    have hdue := Chip.keyDebounce_due hw hto
    refine ⟨fun hlow => ?_, fun hlow hr => ?_, fun hlow hr hrun => ?_, fun hlow hr hdoze hok => ?_,
      fun hlow hr hdoze hlo => ?_, fun hlow hr hpeek => ?_⟩
    all_goals
      refine gives_effect _ s _ ?_
      dsimp only [effect]
      rw [hdue]
    · have hl : ¬s.chip.pins.keys.get k = true := by rw [show s.chip.pins.keys.get k = false from hlow]; simp
      rw [if_neg hl, Chip.keyUp_keyAtLine]
      refine ⟨?_, Chip.onlyChanges_settledPanel _ _⟩
      have hup : allUp keys = true ↔ up := allUp_iff keys
      have hdec : p.decoder.release k (allUp keys) = match p.decoder with
          | .awaitRelease => if up then .ready else .awaitRelease
          | .ready => .ready
          | .held h => if h.key = k then .ready else .held h
          | .chord => if up then .ready else .chord := by
        cases p.decoder <;> simp only [Decoder.release, hup]
      exact congrArg (fun x => { p with keys := keys, decoder := x }) hdec
    · rw [if_pos hlow, Chip.keyDown_unready k hr]
      refine ⟨?_, Chip.onlyChanges_settledPanel _ _⟩
      have hdec (h : Hold) : p.decoder.press h = match p.decoder with
          | .awaitRelease => .awaitRelease
          | .ready | .held _ | .chord => .chord := by
        cases hd : p.decoder with
        | ready => exact absurd hd hr
        | awaitRelease | held _ | chord => rfl
      exact congrArg (fun x => { p with keys := keys, decoder := x }) (hdec _)
    · have hrun' : s.chip.sup.power = .run := hrun
      have hmessage : ((s.chip.keyHeld k).pressInRun k).panel.message = none := Chip.pressInRun_message k _
      have hframe := Chip.pressInRun_frame k (s.chip.keyHeld k)
      obtain ⟨hpins, -, -, hinp, heng, -, -, hkeys, hdec⟩ := hframe
      have hset (x : Chip) : x.settleLink.panel = x.panel ∧ x.settleLink.pins = x.pins ∧ x.settleLink.inp = x.inp
          ∧ x.settleLink.eng = x.eng := ⟨rfl, rfl, rfl, rfl⟩
      rw [if_pos hlow, Chip.keyDown_ready k hr, hrun']
      dsimp only
      generalize (s.chip.keyHeld k).pressInRun k = x at hmessage hpins hinp heng hkeys hdec ⊢
      obtain ⟨h1, h2, h3, h4⟩ := hset x
      rw [h1, h2, h3, h4]
      exact ⟨⟨_, hdec, rfl, rfl, rfl⟩, hkeys, hmessage, hpins, hinp, heng⟩
    · have hdoze' : s.chip.sup.power = .doze := hdoze
      rw [if_pos hlow, Chip.keyDown_ready k hr, hdoze']
      have hwake : s.chip.cfg.keyWake = true := Chip.keyWake_of_doze hw hdoze
      have hup : allUp (s.chip.keyHeld k).panel.keys = false := by
        rw [Chip.keyHeld_panel hlow]
        exact allUp_set_down _ _
      have honly := (s.chip.keyHeld k).enterPeek_onlyChanges
      have hpeek : (s.chip.keyHeld k).pressInDoze = (s.chip.keyHeld k).enterPeek := by
        have hok' : (s.chip.keyHeld k).sup.status = .ok := hok
        have hwake' : (s.chip.keyHeld k).cfg.keyWake = true := hwake
        simp only [Chip.pressInDoze, hok', hwake']
        rfl
      dsimp only
      rw [hpeek]
      refine and_assoc.mp (and_assoc.mp ⟨?_, ?_⟩)
      · rw [Chip.enterPeek_eq _ hup]
        exact ⟨⟨rfl, rfl⟩, rfl⟩
      · exact Chip.onlyChanges.settleLink (((s.chip.onlyChanges_keyHeld k).mono (by simp)).trans honly) (by simp)
    · have hdoze' : s.chip.sup.power = .doze := hdoze
      rw [if_pos hlow, Chip.keyDown_ready k hr, hdoze']
      have hstay : (s.chip.keyHeld k).pressInDoze = s.chip.keyHeld k := by
        have hlo' : (s.chip.keyHeld k).sup.status = .low := hlo
        simp only [Chip.pressInDoze, hlo']
        split
        · rename_i h
          simp at h
        · rfl
      dsimp only
      rw [hstay]
      exact ⟨⟨_, rfl, rfl, rfl⟩, Chip.onlyChanges.settleLink ((s.chip.onlyChanges_keyHeld k).mono (by simp)) (by simp)⟩
    · have hpeek' : s.chip.sup.power = .peek := hpeek
      rw [if_pos hlow, Chip.keyDown_ready k hr, hpeek']
      dsimp only
      obtain ⟨hsup, hpanel, honly⟩ := s.chip.keyHeld_pressInPeek k
      have hfacts := (s.chip.keyHeld k).panel.peekPress_facts k (s.chip.load.history.map Summary.seq) s.chip.tick
      rw [← hpanel] at hfacts
      generalize ((s.chip.keyHeld k).pressInPeek k).settleLink = d at hsup honly hfacts ⊢
      obtain ⟨hshape, hpage, hkeep, hcount, hup, hdown, hmode, hstay, hfirst, holder, hnewer, hnewest⟩ := hfacts
      exact ⟨hsup.trans (by rw [← hpeek']), ⟨_, hshape, rfl, rfl⟩, hpage, hkeep, hcount, hup, hdown, hmode, hstay, hfirst, holder, hnewer, hnewest,
        honly⟩

end Sys2Proof.Machine

/-! SUPPORT. A press that registers in RUN: what each routing does to the part (R136-R141), and its record on to the next
manual truck (R76), for O48. -/

namespace Sys2Proof.Machine

set_option Elab.async false

/-! ## The hold of a press -/

theorem Chip.holdOf_enter {c : Chip} (hb : c.banner = none) (hc : c.cal.state = .out) :
    c.holdOf .enter = ⟨.enter, c.tick, true, true, none, none⟩ := by
  simp [Chip.holdOf, Chip.repeatField, hb, hc]

theorem Chip.holdOf_step {c : Chip} {k : Key} (hk : k = .up ∨ k = .down) (hc : c.cal.state = .out) (hrun : c.inRun = true) :
    c.holdOf k = ⟨k, c.tick, false, true, if c.panel.page = .setup then some .setup else none, none⟩ := by
  rcases hk with rfl | rfl <;> simp [Chip.holdOf, Chip.repeatField, hc, hrun]

/-! ## The routing -/

theorem Chip.pressInRun_page {c : Chip} {k : Key} (hk : k = .enter → c.banner = none) (hc : c.cal.state = .out) :
    c.pressInRun k = c.routePage k := by
  unfold Chip.pressInRun Chip.routePress
  rw [if_pos hc]
  split
  · rename_i hb
    rw [hk rfl] at hb
    exact absurd hb (by simp)
  · rfl

theorem Chip.pressInRun_step {c : Chip} {k : Key} (hk : k = .up ∨ k = .down) (hc : c.cal.state = .out) :
    c.pressInRun k = c.routeUpDown (decide (k = .up)) := by
  rw [Chip.pressInRun_page (by rcases hk with rfl | rfl <;> simp) hc]
  rcases hk with rfl | rfl <;> rfl

theorem Chip.banner_none {c : Chip}
    (h : ∀ a, ¬((c.alarm.get a).latch = true ∧ (c.alarm.get a).ack = false ∧ (c.alarm.get a).mask = false)) :
    c.banner = none := by
  cases hb : c.banner with
  | none => rfl
  | some a =>
    obtain ⟨-, _, _, -, hshows, -⟩ := (c.banner_shown a).mp hb
    exact absurd hshows (h a)

theorem wrapStep_key {k : Key} (hk : k = .up ∨ k = .down) (hi n : Nat) :
    wrapStep hi (decide (k = .up)) n
      = if k = .up then (if hi ≤ n then 1 else n + 1) else if n ≤ 1 then hi else n - 1 := by
  rcases hk with rfl | rfl <;> rfl

/-! ## The next manual truck (R76) -/

theorem Chip.ownsRecord_iff (c : Chip) : c.ownsRecord = true ↔ c.owns := by
  unfold Chip.ownsRecord Chip.owns
  cases h : c.role.state <;> simp [Chip.isWeigher_iff]

theorem Chip.nextManualTruck_eq {c : Chip} (ho : c.owns) (ht : c.cfg.srcTag = 0) :
    c.nextManualTruck = ((c.closeRecord .operator).openRecord c.load.nextManual (absentIfZero c.cfg.defaultTarget)).mapLoad
      fun l => { l with nextManual := nextId c.load.nextManual } := by
  unfold Chip.nextManualTruck
  rw [if_pos (by simp [Chip.tagMode, c.ownsRecord_iff.mpr ho, ht])]

theorem Chip.nextManualTruck_id {c : Chip} (h : c.cfg.srcTag ≠ 0 ∨ ¬c.owns) : c.nextManualTruck = c := by
  unfold Chip.nextManualTruck
  refine if_neg ?_
  have ho := c.ownsRecord_iff
  rcases h with h | h
  · simp [Chip.tagMode, h]
  · simp [ho, h]

/-- The record on to the next manual truck: it closes OPERATOR where one stands, and the next id opens (R76, R79). -/
theorem Chip.nextManualTruck_facts (c : Chip) (hrun : c.inRun = true) (ho : c.owns) (ht : c.cfg.srcTag = 0) :
    let d := c.nextManualTruck
    d.load.record.map TruckRec.figures = some (c.load.nextManual, absentIfZero c.cfg.defaultTarget, [], 0, 0, 0)
      ∧ d.role = { c.role with mirrored := false } ∧ d.load.nextManual = nextId c.load.nextManual
      ∧ (c.load.record = none → d.load.history = c.load.history ∧ d.load.shift = c.load.shift
          ∧ d.load.seq = c.load.seq + 1 ∧ d.link = d.sends c.link [])
      ∧ (∀ r, c.load.record = some r → d.load.seq = c.load.seq + 2
          ∧ d.link = d.sends c.link (closedTelegrams r .operator)
          ∧ (r.count = 0 → d.load.history = c.load.history ∧ d.load.shift = c.load.shift)
          ∧ (r.count ≠ 0 → d.load.history = c.ringWith r .operator
              ∧ d.load.shift = { c.load.shift with trucks := min 65535 (c.load.shift.trucks + 1) }))
      ∧ d.load.life = c.load.life := by
  obtain ⟨x, hx⟩ : ∃ x, x = c.closeRecord .operator := ⟨_, rfl⟩
  obtain ⟨y, hy⟩ : ∃ y, y = x.openRecord c.load.nextManual (absentIfZero c.cfg.defaultTarget) := ⟨_, rfl⟩
  have hd : c.nextManualTruck = y.mapLoad fun l => { l with nextManual := nextId c.load.nextManual } := by
    rw [Chip.nextManualTruck_eq ho ht, ← hx, ← hy]
  obtain ⟨hload, hfig⟩ := Chip.openRecord_load c.load.nextManual (absentIfZero c.cfg.defaultTarget) x
  rw [← hy] at hload hfig
  have hxrun : x.inRun = true := by rw [hx]; simpa [Chip.inRun] using hrun
  have hylink : y.link = y.sends x.link [] := by
    rw [hy]
    exact Chip.openRecord_link _ _ x hxrun
  have hclose := Chip.RecordMoves.closeRecord c .operator
  rw [← hx] at hclose
  have hrole : y.role = { c.role with mirrored := false } := by
    rw [hy, Chip.openRecord_role, hclose.role]
  have hyx : y.role.state = x.role.state := by rw [hrole, hclose.role]
  have hlife : x.load.life = c.load.life := by rw [hx]; simp
  have hsame (l : Link) (ts : List OutTg) :
      (y.mapLoad fun l => { l with nextManual := nextId c.load.nextManual }).sends l ts = y.sends l ts :=
    Chip.sends_congr _ _ _ _ rfl rfl rfl
  rw [hd]
  dsimp only [Chip.mapLoad_load, Chip.mapLoad_role, Chip.mapLoad_link]
  rw [hrole]
  simp only [hsame]
  refine ⟨hfig, trivial, trivial, fun hn => ?_, fun r hr => ?_, ?_⟩
  · have hxc : x = c := by simp [hx, Chip.closeRecord, hn]
    rw [hxc] at hload hylink
    exact ⟨by rw [hload], by rw [hload], by rw [hload], hylink⟩
  · have hcload := Chip.closeRecord_load .operator c r hr
    have hclink := Chip.closeRecord_link .operator c r hr hrun (by simp)
    rw [← hx] at hcload hclink
    rw [hload, hylink, hclink, Chip.sends_sends y x _ _ hyx.symm, hcload]
    refine ⟨by simp only; rw [BitVec.add_assoc]; rfl, rfl, fun h0 => ?_, fun h0 => ?_⟩
    · exact ⟨if_pos h0, if_pos (.inl h0)⟩
    · exact ⟨if_neg h0, if_neg (by simp [h0])⟩
  · rw [hload]
    exact hlife

/-! ## The page step (R137, R86) -/

/-- A poll asks the named station, and starts its timer (R86). -/
theorem Chip.poll_facts (c : Chip) (hrun : c.sup.power = .run) (hm : c.role.state ≠ .mute) :
    c.poll.panel = c.panel ∧ c.poll.load = { c.load with pollTimer := some c.tick }
      ∧ c.poll.link = match c.role.named with
        | none => c.link
        | some n => c.link.joined ⟨.counterRequest, BitVec.ofNat 8 n, []⟩ := by
  refine ⟨by simp, ?_, ?_⟩
  all_goals
    unfold Chip.poll
    cases hn : c.role.named with
    | none => rfl
    | some n => simp [Chip.offer, Chip.takesOffer_of_not_mute _ hrun hm, Link.enqueue_joined, sendCounterRequest]

/-- An entry to a page but COUNT: the panel alone, and on leaving COUNT the poll timer. -/
theorem Chip.pageStep_facts (c : Chip) (hrun : c.inRun = true) :
    let d := c.pageStep
    d.panel.page = c.panel.page.next
      ∧ (d.panel.page = .truck → d.panel.truckSel = none) ∧ (d.panel.page = .count → d.panel.countItem = 1)
      ∧ (d.panel.page = .history → d.panel.histSel = (c.load.history.map Summary.seq).getLast?
          ∧ d.panel.histSecond = false ∧ d.panel.histTimer = some c.tick)
      ∧ (d.panel.page = .setup → d.panel.setupItem = 1) ∧ d.panel.diagItem = c.panel.diagItem
      ∧ d.panel.settings = c.panel.settings
      ∧ (d.panel.page ≠ .count ∨ c.role.state ≠ .repeating → d.link = c.link
          ∧ d.load = { c.load with pollTimer := if c.panel.page = .count then none else c.load.pollTimer })
      ∧ (d.panel.page = .count → c.role.state = .repeating →
          d.load = { c.load with pollTimer := some c.tick }
            ∧ d.link = match c.role.named with
                | none => c.link
                | some n => c.link.joined ⟨.counterRequest, BitVec.ofNat 8 n, []⟩) := by
  have hnewest : (c.load.history.map Summary.seq).getLast? = c.load.history.getLast?.map Summary.seq :=
    List.getLast?_map
  intro d
  cases hp : c.panel.page with
  | truck =>
    obtain ⟨x, hx⟩ : ∃ x, x = c.mapPanel fun p => { p with page := .count, countItem := 1 } := ⟨_, rfl⟩
    have hxp : x.panel = { c.panel with page := .count, countItem := 1 } := by rw [hx]; rfl
    have hd : d = if x.polls then x.poll else x := by
      simp only [d, Chip.pageStep, Chip.enterPage, Page.next, hp]
      rw [hx]
      rfl
    have hpolls : x.polls = true ↔ c.role.state = .repeating := by
      have hxr : x.inRun = true := by rw [hx]; exact hrun
      have hxs : x.role.state = c.role.state := by rw [hx]; rfl
      simp [Chip.polls, hxr, hxs, hxp]
    by_cases hrep : c.role.state = .repeating
    · obtain ⟨hpanel, hload, hlink⟩ := x.poll_facts (by rw [hx]; simpa [Chip.inRun] using hrun)
        (by rw [hx]; exact fun h => by simp [hrep] at h)
      rw [hd, if_pos (hpolls.mpr hrep), hpanel, hload, hlink, hxp]
      simp [hx, hrep, Page.next]
    · rw [hd, if_neg (fun h => hrep (hpolls.mp h)), hxp]
      simp [hx, hrep, Page.next]
  | run | count | history | setup | diag | cal =>
    simp [d, Chip.pageStep, Chip.enterPage, Chip.enterHistory, Chip.newestSummary, Chip.stopPoll, Page.next, hp, hnewest]

theorem Chip.pageStep_onlyChanges (c : Chip) : c.onlyChanges c.pageStep [.link, .load, .panel] := by
  intro b hb
  cases b <;> simp_all [Chip.sameAt]

/-- What an operation sends is what the event sends, the access state following (R158). -/
theorem Chip.sent_of_sends {y : Chip} {l : Link} {ts : List OutTg} (hy : y.link = y.sends l ts) :
    y.settleLink.link = y.settleLink.sent l ts := by
  rw [Chip.sent, Chip.settleLink_link, Chip.settleLink_maySend, hy]
  exact rfl

/-! ## The press -/

/-- An acknowledgement of a latched record: held with its condition true it stands acknowledged, else it clears (R126). -/
theorem AlarmRec.acknowledge_shown (r : AlarmRec) (h : r.latch = true) :
    r.acknowledge = if r.mode = .held ∧ r.cond = true then { r with ack := true }
      else { r with latch := false, ack := false, maskTimer := none } := by
  cases hm : r.mode <;> cases hc : r.cond <;> simp [AlarmRec.acknowledge, AlarmRec.clearLatch, h, hm, hc]

/-- The chip with a press registered as a given hold. -/
def Chip.pressedAs (k : Key) (h : Hold) (c : Chip) : Chip :=
  { c with panel := { c.panel with keys := c.panel.keys.set k ⟨true, none⟩, decoder := .held h, message := none } }

theorem Chip.pressedAs_onlyChanges (k : Key) (h : Hold) (c : Chip) : c.onlyChanges (c.pressedAs k h) [.panel] := by
  intro b hb
  cases b <;> simp_all [Chip.sameAt, Chip.pressedAs]

theorem gives_press {s : State} {k : Key} {P : Chip → Prop} (hrun : s.chip.running) (hr : s.chip.panel.decoder = .ready)
    (hl : s.chip.pins.keys.get k = true) (hto : ranOut 20 (s.chip.panel.keys.get k).timer s.chip.tick)
    (hP : P (((s.chip.pressedAs k (s.chip.holdOf k)).pressInRun k).settleLink)) : Gives (.keyDebounceExpiry k) s P := by
  obtain ⟨x, hx, he⟩ := Chip.press_path s k hrun hr hl hto
  refine gives_effect _ s P ?_
  rw [show effect (.keyDebounceExpiry k) s.chip = _ from he, hx]
  exact hP

/-- UP and DOWN with calibration OUT, on a given page. -/
theorem gives_step {s : State} {k : Key} {P : Chip → Prop} (hrun : s.chip.running) (hr : s.chip.panel.decoder = .ready)
    (hl : s.chip.pins.keys.get k = true) (hto : ranOut 20 (s.chip.panel.keys.get k).timer s.chip.tick)
    (hs : (k = .up ∨ k = .down) ∧ s.chip.cal.state = .out) {page : Page} (hpage : s.chip.panel.page = page)
    {field : Option EditField} (hf : (if page = .setup then some .setup else none) = field) (op : Chip → Chip)
    (hop : ∀ x : Chip, x.panel.page = page → x.routeUpDown (decide (k = .up)) = op x)
    (hP : P (op (s.chip.pressedAs k ⟨k, s.chip.tick, false, true, field, none⟩)).settleLink) :
    Gives (.keyDebounceExpiry k) s P := by
  obtain ⟨hk, hcal⟩ := hs
  refine gives_press hrun hr hl hto ?_
  rw [Chip.holdOf_step hk hcal (by simpa [Chip.inRun] using hrun.2), Chip.pressInRun_step hk (by exact hcal), hpage, hf,
    hop _ (by exact hpage)]
  exact hP

/-- ENTER with no alarm on the banner and calibration OUT. -/
theorem gives_enter {s : State} {P : Chip → Prop} (hrun : s.chip.running) (hr : s.chip.panel.decoder = .ready)
    (hl : s.chip.pins.keys.get .enter = true) (hto : ranOut 20 (s.chip.panel.keys.get .enter).timer s.chip.tick)
    (hb : s.chip.banner = none) (hcal : s.chip.cal.state = .out)
    (hP : P ((s.chip.pressedAs .enter ⟨.enter, s.chip.tick, true, true, none, none⟩).routeEnter).settleLink) :
    Gives (.keyDebounceExpiry .enter) s P := by
  refine gives_press hrun hr hl hto ?_
  rw [Chip.holdOf_enter hb hcal, Chip.pressInRun_page (fun _ => by exact hb) (by exact hcal)]
  exact hP

theorem Chip.pressed_onlyChanges {c x : Chip} {k : Key} {h : Hold} {bs bs' : List Block}
    (hx : (c.pressedAs k h).onlyChanges x bs) (hs : .link :: .panel :: bs ⊆ bs') : c.onlyChanges x.settleLink bs' :=
  Chip.onlyChanges.settleLink
    (((c.pressedAs_onlyChanges k h).mono (by simpa using hs (by simp))).trans (hx.mono fun b hb => hs (by simp [hb])))
    (hs (by simp))

theorem Chip.setupStepped_of_press {c d : Chip} {up : Bool} {k : Key} {h : Hold}
    (hs : (c.pressedAs k h).setupStepped d up) : c.setupStepped d.settleLink up := by
  obtain ⟨h1, h2, h3, h4, h5, h6, h7, h8, h9, h10, h11, h12, h13⟩ := hs
  exact ⟨h1, h2, h3, h4, h5, h6, h7, h8, h9, h10, Chip.pressed_onlyChanges h11 (by simp), h12, h13⟩

/-- Settles O48: by the key and the page. -/
theorem pressesAreRouted : Obligations.PressesAreRouted := by
  unfold Obligations.PressesAreRouted
  intro s k hrun hr hl hto c p seqs wraps owns shows passes steps held pressed
  have hin : s.chip.inRun = true := by simpa [Chip.inRun] using hrun.2
  have only {x : Chip} {h : Hold} {bs bs' : List Block} (hx : (c.pressedAs k h).onlyChanges x bs)
      (hs : .link :: .panel :: bs ⊆ bs') : c.onlyChanges x.settleLink bs' := Chip.pressed_onlyChanges hx hs
  refine ⟨fun a before after hk hall hshows hbefore => ?_, fun hk hcal => ?_, fun hpass hpage htag howns => ?_,
    fun hpass hpage => ?_, fun hpass hpage => ?_, fun hpass hpage => ?_, fun hstep hpage => ?_, fun hstep hpage => ?_,
    fun hstep hpage => ?_, fun hstep hpage => ?_, fun hstep hpage => ?_, fun hstep hpage => ?_⟩
  · subst hk
    refine gives_press hrun hr hl hto ?_
    have hb : s.chip.banner = some a := (s.chip.banner_shown a).mpr ⟨hrun.2, before, after, hall, hshows, hbefore⟩
    obtain ⟨x, hx⟩ : ∃ x, x = s.chip.pressedAs .enter (s.chip.holdOf .enter) := ⟨_, rfl⟩
    have hack : x.pressInRun .enter = x.setAlarms (x.alarm.put a (x.alarm.get a).acknowledge) := by
      have hxb : x.banner = some a := by rw [hx]; exact hb
      simp only [Chip.pressInRun, hxb]
      exact rfl
    have hxalarm : x.alarm = c.alarm := by rw [hx]; rfl
    have hlong : (s.chip.holdOf .enter).long = false := by simp [Chip.holdOf, hb]
    have honly : c.onlyChanges (x.setAlarms (x.alarm.put a (x.alarm.get a).acknowledge)).settleLink [.link, .alarm, .panel] := by
      rw [hx]
      exact only (Chip.setAlarms_onlyChanges _ _) (by simp)
    have hpanel : x.onlyBuzzer (x.setAlarms (x.alarm.put a (x.alarm.get a).acknowledge)) := Chip.setAlarms_panel _ _
    have hset (y : Chip) : y.settleLink.alarm = y.alarm ∧ y.settleLink.panel = y.panel := ⟨rfl, rfl⟩
    have hxp : x.panel = { c.panel with
        keys := c.panel.keys.set .enter ⟨true, none⟩, decoder := .held (s.chip.holdOf .enter), message := none } := by
      rw [hx]; rfl
    rw [← hx, hack]
    refine ⟨?_, fun b hb => ?_, ?_, ?_, ⟨s.chip.holdOf .enter, ?_, hlong⟩, honly⟩
    · rw [(hset _).1, Chip.setAlarms_alarm, AlarmUnit.get_put_self, hxalarm]
      exact (c.alarm.get a).acknowledge_shown hshows.1
    · rw [(hset _).1, Chip.setAlarms_alarm, AlarmUnit.get_put_ne _ _ _ _ hb, hxalarm]
    · rw [(hset _).2, hpanel, hxp]
    · rw [(hset _).2, hpanel, hxp]
    · rw [(hset _).2, hpanel, hxp]
  · subst hk
    refine gives_press hrun hr hl hto ?_
    obtain ⟨x, hx⟩ : ∃ x, x = s.chip.pressedAs .mode (s.chip.holdOf .mode) := ⟨_, rfl⟩
    have hstep : x.pressInRun .mode = x.pageStep := Chip.pressInRun_page (by simp) (by rw [hx]; exact hcal)
    obtain ⟨hpg, htruck, hcount, hhist, hsetup, hdiag, hset, hquiet, hpoll⟩ := x.pageStep_facts (by rw [hx]; exact hin)
    have honly : c.onlyChanges x.pageStep.settleLink [.link, .load, .panel] := by
      rw [hx]
      exact only (Chip.pageStep_onlyChanges _) (by simp)
    have hdec : x.pageStep.panel.decoder = .held (s.chip.holdOf .mode) := by
      have hkept : x.pageStep.panel.decoder = x.panel.decoder := by simp
      rw [hkept, hx]
      rfl
    have hxp : x.panel.page = p.page ∧ x.panel.diagItem = p.diagItem ∧ x.panel.settings = p.settings := by
      rw [hx]; exact ⟨rfl, rfl, rfl⟩
    obtain ⟨hpage, hitem, hsettings⟩ := hxp
    have hnext : p.page.next = match p.page with
        | .run => .truck
        | .truck => .count
        | .count => .history
        | .history => .setup
        | .setup => .diag
        | .diag | .cal => .run := by cases p.page <;> rfl
    have hload : x.load = c.load := by rw [hx]; rfl
    have hlink : x.link = c.link := by rw [hx]; rfl
    have hrole : x.role = c.role := by rw [hx]; rfl
    have htick : x.tick = c.tick := by rw [hx]; rfl
    have hsame (y : Chip) : y.settleLink.panel = y.panel ∧ y.settleLink.load = y.load
        ∧ y.settleLink.link = y.link.settle y.settleLink.maySend := ⟨rfl, rfl, rfl⟩
    rw [← hx, hstep]
    rw [hpage] at hpg hquiet
    rw [hload, htick] at hhist hpoll
    rw [hload, hlink, hrole] at hquiet
    rw [hlink, hrole] at hpoll
    rw [hitem] at hdiag
    rw [hsettings] at hset
    generalize x.pageStep = y at hpg htruck hcount hhist hsetup hdiag hset hquiet hpoll honly hdec ⊢
    obtain ⟨e1, e2, e3⟩ := hsame y
    rw [e1, e2, e3]
    refine ⟨hpg.trans hnext, htruck, hcount, hhist, hsetup, hdiag, hset, ⟨_, hdec, rfl⟩, fun h => ?_, fun h1 h2 => ?_, honly⟩
    · obtain ⟨h3, h4⟩ := hquiet h
      rw [h3]
      exact ⟨rfl, h4⟩
    · obtain ⟨h3, h4⟩ := hpoll h1 h2
      rw [h4]
      exact ⟨h3, rfl⟩
  · obtain ⟨rfl, hquiet, hcal⟩ := hpass
    refine gives_enter hrun hr hl hto (Chip.banner_none hquiet) hcal ?_
    obtain ⟨x, hx⟩ : ∃ x, x = c.pressedAs .enter ⟨.enter, c.tick, true, true, none, none⟩ := ⟨_, rfl⟩
    have hnext : x.routeEnter = x.nextManualTruck := by
      unfold Chip.routeEnter
      rw [show x.panel.page = .truck by rw [hx]; exact hpage]
    have hxload : x.load = c.load := by rw [hx]; rfl
    have hxrole : x.role = c.role := by rw [hx]; rfl
    have hxlink : x.link = c.link := by rw [hx]; rfl
    have hxcfg : x.cfg = c.cfg := by rw [hx]; rfl
    obtain ⟨hfig, hrole, hmanual, hnone, hsome, hlife⟩ := x.nextManualTruck_facts (by rw [hx]; exact hin)
      (by rw [hx]; exact howns) (by rw [hx]; exact htag)
    have honly : c.onlyChanges x.nextManualTruck.settleLink [.link, .trk, .load, .role, .alarm, .panel] :=
      by rw [hx]; exact only (Chip.RecordMoves.nextManualTruck _).only (by simp)
    have hring (r : TruckRec) : x.ringWith r .operator = c.ringWith r .operator := by rw [hx]; rfl
    have hset (y : Chip) : y.settleLink.load = y.load ∧ y.settleLink.role = y.role := ⟨rfl, rfl⟩
    rw [show s.chip.pressedAs .enter _ = x from hx.symm, hnext]
    rw [hxload] at hfig hmanual hnone hsome hlife
    rw [hxcfg] at hfig
    rw [hxrole] at hrole
    rw [hxlink] at hnone hsome
    generalize x.nextManualTruck = y at hfig hrole hmanual hnone hsome hlife honly ⊢
    rw [(hset y).1, (hset y).2]
    refine ⟨hfig, hrole, hmanual, fun hn => ?_, fun r hr => ?_, hlife, honly⟩
    · obtain ⟨h1, h2, h3, h4⟩ := hnone hn
      exact ⟨h1, h2, h3, Chip.sent_of_sends h4⟩
    · obtain ⟨h1, h2, h3, h4⟩ := hsome r hr
      refine ⟨h1, Chip.sent_of_sends h2, h3, fun h0 => ?_⟩
      obtain ⟨h5, h6⟩ := h4 h0
      exact ⟨h5.trans (hring r), h6⟩
  · obtain ⟨rfl, hquiet, hcal⟩ := hpass
    refine gives_enter hrun hr hl hto (Chip.banner_none hquiet) hcal ?_
    obtain ⟨x, hx⟩ : ∃ x, x = c.pressedAs .enter ⟨.enter, c.tick, true, true, none, none⟩ := ⟨_, rfl⟩
    have hxpage : x.panel.page = p.page := by rw [hx]; rfl
    have hstays : x.routeEnter = x := by
      unfold Chip.routeEnter
      rw [hxpage]
      rcases hpage with ⟨hp, hno⟩ | hp | hp | hp <;> simp only [hp]
      exact Chip.nextManualTruck_id (by rw [hx]; exact hno)
    rw [show s.chip.pressedAs .enter _ = x from hx.symm, hstays, hx]
    exact ⟨rfl, only (Chip.onlyChanges_refl _ []) (by simp)⟩
  · obtain ⟨rfl, hquiet, hcal⟩ := hpass
    refine gives_enter hrun hr hl hto (Chip.banner_none hquiet) hcal ?_
    obtain ⟨x, hx⟩ : ∃ x, x = c.pressedAs .enter ⟨.enter, c.tick, true, true, none, none⟩ := ⟨_, rfl⟩
    have hnewest : seqs.getLast? = c.newestSummary := List.getLast?_map
    have hop : x.routeEnter = x.mapPanel (Panel.selectHistory seqs.getLast? c.tick) := by
      unfold Chip.routeEnter
      rw [show x.panel.page = .history by rw [hx]; exact hpage, hnewest, hx]
      exact rfl
    obtain ⟨hshape, hmove, hstay⟩ := (pressed true).selectHistory_facts seqs.getLast? c.tick
    have hpanel : (x.mapPanel (Panel.selectHistory seqs.getLast? c.tick)).settleLink.panel
        = (pressed true).selectHistory seqs.getLast? c.tick := by rw [hx]; rfl
    have honly : c.onlyChanges (x.mapPanel (Panel.selectHistory seqs.getLast? c.tick)).settleLink [.link, .panel] :=
      by rw [hx]; exact only (Chip.onlyChanges_mapPanel _ _) (by simp)
    rw [show s.chip.pressedAs .enter _ = x from hx.symm, hop]
    generalize (x.mapPanel (Panel.selectHistory seqs.getLast? c.tick)).settleLink = d at hpanel honly ⊢
    rw [← hpanel] at hshape hmove hstay
    exact ⟨hshape, hmove, hstay, honly⟩
  · obtain ⟨rfl, hquiet, hcal⟩ := hpass
    refine gives_enter hrun hr hl hto (Chip.banner_none hquiet) hcal ?_
    obtain ⟨x, hx⟩ : ∃ x, x = c.pressedAs .enter ⟨.enter, c.tick, true, true, none, none⟩ := ⟨_, rfl⟩
    have hnext : x.routeEnter = x.setupNext := by
      unfold Chip.routeEnter
      rw [show x.panel.page = .setup by rw [hx]; exact hpage]
    rw [show s.chip.pressedAs .enter _ = x from hx.symm, hnext, hx]
    exact ⟨rfl, only (Chip.onlyChanges_mapPanel _ _) (by simp)⟩
  all_goals
    have hk := hstep.1
    have hmoved (f : Panel → Panel) (h : Hold) :=
      only ((c.pressedAs k h).onlyChanges_mapPanel f) (bs' := [.link, .panel]) (by simp)
  · refine gives_step hrun hr hl hto hstep hpage rfl id (fun x h => by simp only [Chip.routeUpDown, h, id]) ?_
    exact ⟨rfl, only (Chip.onlyChanges_refl _ []) (by simp)⟩
  · refine gives_step hrun hr hl hto hstep hpage (field := none) rfl _ (fun x h => by simp only [Chip.routeUpDown, h]; rfl) ?_
    intro listed
    have hlisted : listed = s.chip.passNumbers := by
      simp only [listed, Chip.passNumbers]
      cases s.chip.load.record <;> rfl
    clear_value listed
    subst hlisted
    refine ⟨rfl, fun h => ?_, fun h => ?_, hmoved _ _⟩
    · subst h
      exact olderPass_older s.chip.passNumbers p.truckSel
    · subst h
      refine ⟨newerPass_newer s.chip.passNumbers p.truckSel, fun hn => ?_⟩
      have hnewer : newerPass s.chip.passNumbers p.truckSel = none := by rw [hn]; rfl
      exact hnewer
  · refine gives_step hrun hr hl hto hstep hpage (field := none) rfl _ (fun x h => by simp only [Chip.routeUpDown, h]; rfl) ?_
    exact ⟨congrArg (fun n => { pressed false with countItem := n }) (wrapStep_key hk 7 p.countItem), hmoved _ _⟩
  · refine gives_step hrun hr hl hto hstep hpage (field := none) rfl _ (fun x h => by simp only [Chip.routeUpDown, h]; rfl) ?_
    obtain ⟨next, hnext⟩ : ∃ next, next = historyStep seqs (decide (k = .up)) p.histSel := ⟨_, rfl⟩
    obtain ⟨hshape, hmove, hstay⟩ := (pressed false).selectHistory_facts next c.tick
    have hsel : ((pressed false).selectHistory next c.tick).histSel = next := by rw [hshape]
    have hpanel : (Chip.historySelect (decide (k = .up))
        (s.chip.pressedAs k ⟨k, s.chip.tick, false, true, none, none⟩)).settleLink.panel
          = (pressed false).selectHistory next c.tick := by rw [hnext]; rfl
    have hlast : c.onlyChanges (Chip.historySelect (decide (k = .up))
        (s.chip.pressedAs k ⟨k, s.chip.tick, false, true, none, none⟩)).settleLink [.link, .panel] := hmoved _ _
    generalize (Chip.historySelect (decide (k = .up))
        (s.chip.pressedAs k ⟨k, s.chip.tick, false, true, none, none⟩)).settleLink = d at hpanel hlast ⊢
    rw [← hpanel] at hshape hmove hstay hsel
    refine ⟨by rw [hsel]; exact hshape, fun hn => ?_, fun h => ?_, fun h => ?_, hmove, hstay, hlast⟩
    · rw [hsel, hnext, hn]
      rfl
    · subst h
      rw [hsel, hnext]
      exact historyStep_older seqs p.histSel
    · subst h
      rw [hsel, hnext]
      exact historyStep_newer seqs p.histSel
  · refine gives_step hrun hr hl hto hstep hpage (field := some .setup) rfl _
      (fun x h => by simp only [Chip.routeUpDown, h]; rfl) ?_
    obtain ⟨x, hx⟩ : ∃ x, x = c.pressedAs k ⟨k, c.tick, false, true, some .setup, none⟩ := ⟨_, rfl⟩
    obtain ⟨hset, -, hitem⟩ := x.setupStep_stepped (decide (k = .up)) (by rw [hx]; exact hrun.2)
    obtain ⟨-, -, -, -, -, -, -, -, -, -, hpg, hkeys, hdec, -⟩ := Chip.setupStep_frame (decide (k = .up)) x
    have hmessage := x.setupStep_message (decide (k = .up))
    have hpanel (y : Chip) : y.settleLink.panel = y.panel := rfl
    rw [show s.chip.pressedAs k _ = x from hx.symm, hpanel, hdec, hkeys, hmessage, hpg, hitem]
    rw [hx] at hset ⊢
    exact ⟨Chip.setupStepped_of_press hset, rfl, rfl, rfl, hpage, rfl⟩
  · refine gives_step hrun hr hl hto hstep hpage (field := none) rfl _ (fun x h => by simp only [Chip.routeUpDown, h]; rfl) ?_
    exact ⟨congrArg (fun n => { pressed false with diagItem := n }) (wrapStep_key hk 52 p.diagItem), hmoved _ _⟩

end Sys2Proof.Machine

/-! SUPPORT. What a long press does (R135): the entry to calibration (R89, R90), the shift reset (R82), the close by the
operator (R77), for O49. -/

namespace Sys2Proof.Machine

set_option Elab.async false

/-! ## The entry to calibration (R90) -/

/-- A calibration may be entered, as the rules put it (R89). -/
def Chip.entersCal (c : Chip) : Prop :=
  c.cal.state = .out ∧ c.trk.cycle = .idle ∧ c.cfg.role = .weigher
    ∧ (c.role.state = .active ∨ c.role.state = .standby) ∧ c.store.window = none

theorem Chip.mayCalibrate_iff (c : Chip) (hrun : c.inRun = true) : c.mayCalibrate = true ↔ c.entersCal := by
  simp [Chip.mayCalibrate, Chip.entersCal, hrun, Chip.isWeigher_iff, and_assoc]

/-- The CAL reason in IDLE: no pass is in flight, so none is voided (R48). -/
theorem Chip.suspendCal_idle (c : Chip) (h : c.trk.cycle = .idle) :
    c.suspendCal = { c with trk := { c.trk.without with cycle := .suspended, racked := false, suspCal := true } } := by
  simp only [Chip.suspendCal, Chip.suspendPass, Tracker.inFlight, h]
  rfl

/-- The chip that has left its role state for CALIBRATING, its status not yet written (R120). -/
def Chip.calibrating (c : Chip) : Chip :=
  { c with
    trk := { c.trk.without with cycle := .suspended, racked := false, suspCal := true, note := none }
    role := { c.role with state := .calibrating, pairing := [], behind := false, noWeigher := false, listen := none }
    load := { c.load with refreshTimer := none, pollTimer := none }
    link := if c.role.state = .active then c.link.emptyT else c.link }

theorem Chip.takeCalibrating_eq (c : Chip) (hrun : c.inRun = true) (h : c.entersCal) :
    c.suspendCal.takeCalibrating = { c.calibrating with
      role := { c.calibrating.role with status := some c.tick }
      link := { c.calibrating.link with wslot := some ⟨.weigherStatus, 0, c.calibrating.statusData⟩ } } := by
  obtain ⟨-, hidle, -, hrole, -⟩ := h
  have hm : c.suspendCal.role.state ≠ .mute := by
    rw [c.suspendCal_idle hidle]
    rcases hrole with h | h <;> simp [h]
  have hleft : ((c.suspendCal.leaveRole.setRole .calibrating).mapRole fun r => { r with listen := none })
      = c.calibrating := by
    rw [c.suspendCal_idle hidle]
    unfold Chip.leaveRole Chip.calibrating
    split <;> rfl
  rw [Chip.takeCalibrating, if_neg hm, hleft]
  exact Chip.writeStatus_sends c.calibrating hrun rfl

theorem Chip.enterCal_eq (c : Chip) (hrun : c.inRun = true) (h : c.entersCal) :
    c.enterCal = { c.calibrating with
      role := { c.calibrating.role with status := some c.tick }
      link := { c.calibrating.link with wslot := some ⟨.weigherStatus, 0, c.calibrating.statusData⟩ }
      cal := c.cal.enter c.panel.settings.curveSet c.store.curves[c.panel.settings.curveSet] c.inp.held.primary
      panel := { c.panel with page := .cal } } := by
  unfold Chip.enterCal
  simp only [c.takeCalibrating_eq hrun h]
  exact rfl

/-- The entry to calibration, with the access state following (R90, R120). -/
theorem Chip.enterCal_facts (c : Chip) (hrun : c.inRun = true) (h : c.entersCal) :
    let d := c.enterCal.settleLink
    d.cal.state = .select ∧ d.cal.target = c.panel.settings.curveSet
      ∧ d.cal.mass = (if (c.store.curves[c.panel.settings.curveSet]).valid then
          (c.store.curves[c.panel.settings.curveSet]).mref else 1000)
      ∧ d.cal.onMass = false ∧ d.cal.geom = none ∧ d.cal.accepted = 0 ∧ d.cal.failure = none
      ∧ d.cal.prevAngle = c.inp.held.primary ∧ d.panel = { c.panel with page := .cal }
      ∧ d.role = { c.role with
          state := .calibrating, pairing := [], behind := false, noWeigher := false, listen := none
          status := some c.tick }
      ∧ d.statusWritten ∧ d.link.queue = c.link.queue
      ∧ (c.role.state = .active → d.link.tslot = none)
      ∧ d.load = { c.load with refreshTimer := none, pollTimer := none }
      ∧ d.trk = { c.trk.without with cycle := .suspended, racked := false, suspCal := true, note := none }
      ∧ c.onlyChanges d [.link, .trk, .load, .role, .cal, .panel] := by
  obtain ⟨x, hx⟩ : ∃ x, x = c.enterCal := ⟨_, rfl⟩
  have hwslot : x.link.wslot = some ⟨.weigherStatus, 0, x.statusData⟩ := by
    rw [hx, c.enterCal_eq hrun h]
    rfl
  have hqueue : x.link.queue = c.link.queue := by
    rw [hx, c.enterCal_eq hrun h]
    unfold Chip.calibrating
    dsimp only
    split <;> simp
  have htslot (ha : c.role.state = .active) : x.link.tslot = none := by
    rw [hx, c.enterCal_eq hrun h]
    unfold Chip.calibrating
    simp [ha, Link.emptyT]
  have honly : c.onlyChanges x [.link, .trk, .load, .role, .cal, .panel] := by
    rw [hx, c.enterCal_eq hrun h]
    intro b hb
    cases b <;> simp_all [Chip.sameAt, Chip.calibrating]
  have hset (y : Chip) : y.settleLink.cal = y.cal ∧ y.settleLink.panel = y.panel ∧ y.settleLink.role = y.role
      ∧ y.settleLink.load = y.load ∧ y.settleLink.trk = y.trk ∧ y.settleLink.statusData = y.statusData :=
    ⟨rfl, rfl, rfl, rfl, rfl, rfl⟩
  obtain ⟨s1, s2, s3, s4, s5, s6⟩ := hset x
  intro d
  have hd : d = x.settleLink := by rw [hx]
  rw [hd, s1, s2, s3, s4, s5]
  have hfields : x.cal = c.cal.enter c.panel.settings.curveSet c.store.curves[c.panel.settings.curveSet]
        c.inp.held.primary ∧ x.panel = { c.panel with page := .cal }
      ∧ x.role = { c.role with
          state := .calibrating, pairing := [], behind := false, noWeigher := false, listen := none
          status := some c.tick }
      ∧ x.load = { c.load with refreshTimer := none, pollTimer := none }
      ∧ x.trk = { c.trk.without with cycle := .suspended, racked := false, suspCal := true, note := none } := by
    rw [hx, c.enterCal_eq hrun h]
    exact ⟨rfl, rfl, rfl, rfl, rfl⟩
  obtain ⟨hcal, hpanel, hrole, hload, htrk⟩ := hfields
  rw [hcal]
  refine ⟨rfl, rfl, rfl, rfl, rfl, rfl, rfl, rfl, hpanel, hrole, ?_, ?_, fun ha => ?_, hload, htrk,
    Chip.onlyChanges.settleLink honly (by simp)⟩
  · rw [Chip.statusWritten, s6, Chip.settleLink_link]
    exact Link.settle_wslot _ _ _ hwslot
  · rw [Chip.settleLink_link, ← hqueue]
    simp
  · rw [Chip.settleLink_link, Link.settle_tslot _ _ _ hwslot]
    exact htslot ha

/-! ## The operator's close (R77) -/

theorem Chip.closeRecord_onlyChanges (reason : CloseReason) (c : Chip) :
    c.onlyChanges (c.closeRecord reason) [.link, .trk, .load, .alarm, .panel] := by
  intro b hb
  cases b <;> simp_all [Chip.sameAt]

theorem Chip.operatorClose_id {c : Chip} (h : c.load.record = none ∨ ¬c.owns) : c.operatorClose = c := by
  unfold Chip.operatorClose
  split
  · rename_i ho
    rcases h with h | h
    · simp only [h]
    · exact absurd (c.ownsRecord_iff.mp ho) h
  · rfl

/-- The operator closes an own record; in tag mode its id is refused (R77, R79). -/
theorem Chip.operatorClose_facts (c : Chip) (r : TruckRec) (hrun : c.inRun = true) (hr : c.load.record = some r)
    (ho : c.owns) :
    let d := c.operatorClose
    d.load.record = none ∧ d.load.seq = c.load.seq + 1
      ∧ d.link = d.sends c.link (closedTelegrams r .operator) ∧ d.trk.note = none
      ∧ d.load.refused = (if c.cfg.srcTag ≠ 0 ∧ r.id ≠ 0 then some r.id else c.load.refused)
      ∧ (r.count = 0 → d.load.history = c.load.history ∧ d.load.shift = c.load.shift)
      ∧ (r.count ≠ 0 → d.load.history = c.ringWith r .operator
          ∧ d.load.shift = { c.load.shift with trucks := min 65535 (c.load.shift.trucks + 1) })
      ∧ d.panel.decoder = c.panel.decoder
      ∧ c.onlyChanges d [.link, .trk, .load, .alarm, .panel] := by
  obtain ⟨x, hx⟩ : ∃ x, x = c.closeRecord .operator := ⟨_, rfl⟩
  have hload := Chip.closeRecord_load .operator c r hr
  have hlink := Chip.closeRecord_link .operator c r hr hrun (by simp)
  have htrk := Chip.closeRecord_trk .operator c r hr
  have honly := Chip.closeRecord_onlyChanges .operator c
  have hdec : (c.closeRecord .operator).panel.decoder = c.panel.decoder := by simp
  have hcfg : x.cfg = c.cfg := by rw [hx]; simp [Chip.cfg]
  rw [← hx] at hload hlink htrk honly hdec
  have htag : (x.tagMode && r.id != 0) = true ↔ c.cfg.srcTag ≠ 0 ∧ r.id ≠ 0 := by simp [Chip.tagMode, hcfg]
  intro d
  have hd : d = if c.cfg.srcTag ≠ 0 ∧ r.id ≠ 0 then x.setRefused (some r.id) else x := by
    simp only [d, Chip.operatorClose, c.ownsRecord_iff.mpr ho, hr, if_true, ← hx, ← htag]
  have hrefused (f : Option Nat) (l : Link) (ts : List OutTg) : (x.setRefused f).sends l ts = x.sends l ts :=
    Chip.sends_congr _ _ _ _ rfl rfl rfl
  have hmoved (f : Option Nat) : c.onlyChanges (x.setRefused f) [.link, .trk, .load, .alarm, .panel] := by
    refine honly.trans ?_
    intro b hb
    cases b <;> simp_all [Chip.sameAt, Chip.setRefused]
  have hring : r.count ≠ 0 → x.load.history = c.ringWith r .operator := fun h0 => by
    rw [hload]
    exact if_neg h0
  have hshift0 : r.count = 0 → x.load.history = c.load.history ∧ x.load.shift = c.load.shift := fun h0 => by
    rw [hload]
    exact ⟨if_pos h0, if_pos (.inl h0)⟩
  have hshift : r.count ≠ 0 → x.load.shift = { c.load.shift with trucks := min 65535 (c.load.shift.trucks + 1) } :=
    fun h0 => by
      rw [hload]
      exact if_neg (by simp [h0])
  have hrec : x.load.record = none ∧ x.load.seq = c.load.seq + 1 ∧ x.load.refused = c.load.refused ∧ x.trk.note = none := by
    rw [hload, htrk]
    exact ⟨rfl, rfl, rfl, rfl⟩
  obtain ⟨h1, h2, h3, h4⟩ := hrec
  rw [hd]
  split
  · exact ⟨h1, h2, hlink.trans (hrefused _ _ _).symm, h4, rfl, hshift0, fun h0 => ⟨hring h0, hshift h0⟩, hdec, hmoved _⟩
  · exact ⟨h1, h2, hlink, h4, h3, hshift0, fun h0 => ⟨hring h0, hshift h0⟩, hdec, honly⟩

/-! ## The long press -/

/-- The chip with its long press taken: the hold has none to come (R135). -/
def Chip.longTaken (h : Hold) (c : Chip) : Chip :=
  { c with panel := { c.panel with decoder := .held { h with long := false } } }

theorem Chip.longTaken_onlyChanges (h : Hold) (c : Chip) : c.onlyChanges (c.longTaken h) [.panel] := by
  intro b hb
  cases b <;> simp_all [Chip.sameAt, Chip.longTaken]

theorem gives_longPress {s : State} {h : Hold} {P : Chip → Prop} (hrun : s.chip.running)
    (hd : s.chip.panel.decoder = .held h) (hl : h.long = true) (ht : 3000 ≤ age s.chip.tick h.since)
    (hP : P (((s.chip.longTaken h).routeLong h).settleLink)) : Gives .longPress s P := by
  obtain ⟨hup, hpow⟩ := hrun
  refine gives_whenUp _ s Chip.longPress P rfl hup ?_
  have hin : s.chip.inRun = true := by simpa [Chip.inRun] using hpow
  have he : s.chip.longPress = ((s.chip.longTaken h).routeLong h).settleLink := by
    simp only [Chip.longPress, hd, hin, hl, ht, decide_true, Bool.and_self, if_true]
    exact rfl
  rw [he]
  exact hP

theorem Chip.longTaken_moves {c x : Chip} {h : Hold} {bs bs' : List Block} (hx : (c.longTaken h).onlyChanges x bs)
    (hs : .link :: .panel :: bs ⊆ bs') : c.onlyChanges x.settleLink bs' :=
  Chip.onlyChanges.settleLink
    (((c.longTaken_onlyChanges h).mono (by simpa using hs (by simp))).trans (hx.mono fun b hb => hs (by simp [hb])))
    (hs (by simp))

theorem Chip.routeLong_enter {h : Hold} {c : Chip} (hk : h.key = .enter) (hc : c.cal.state = .out) :
    c.routeLong h = match c.panel.page with
      | .truck => c.operatorClose
      | .count => c.shiftReset
      | .run | .history | .setup | .diag | .cal => c := by
  simp only [Chip.routeLong, hk]
  exact if_pos hc

theorem Chip.routeLong_busy {h : Hold} {c : Chip} (hk : h.key = .enter) (hc : c.cal.state ≠ .out) : c.routeLong h = c := by
  simp only [Chip.routeLong, hk, if_neg hc]

theorem Chip.shiftReset_weigher {c : Chip} (hrun : c.inRun = true) (hw : c.cfg.role = .weigher)
    (hr : c.role.state ≠ .calibrating) :
    c.shiftReset = (c.mapLoad fun l => { l with shift := ShiftCounters.zero }).askRetain c.role.state := by
  unfold Chip.shiftReset
  exact if_pos (by simp [hrun, c.isWeigher_iff.mpr hw, hr])

theorem Chip.shiftReset_repeater {c : Chip} (hw : c.cfg.role = .repeater) : c.shiftReset = c := by
  unfold Chip.shiftReset
  exact if_neg (by simp [c.isWeigher_eq_false.mpr hw])

theorem Chip.onlyChanges_askRetain (f : LoadRegister → LoadRegister) (r : RoleState) (c : Chip) :
    c.onlyChanges ((c.mapLoad f).askRetain r) [.load, .store] := by
  intro b hb
  cases b <;> simp_all [Chip.sameAt, Chip.askRetain]

/-- Settles O49: by the key, the page and the state of calibration. -/
theorem longPressesAreDelivered : Obligations.LongPressesAreDelivered := by
  unfold Obligations.LongPressesAreDelivered
  intro s h hrun hd hl ht c enters
  have hin : s.chip.inRun = true := by simpa [Chip.inRun] using hrun.2
  refine gives_longPress hrun hd hl ht ?_
  obtain ⟨x, hx⟩ : ∃ x, x = c.longTaken h := ⟨_, rfl⟩
  have hxc : x = { c with panel := { c.panel with decoder := .held { h with long := false } } } := hx
  rw [show s.chip.longTaken h = x from hx.symm]
  have moves {y : Chip} {bs bs' : List Block} (hy : x.onlyChanges y bs) (hs : .link :: .panel :: bs ⊆ bs') :
      c.onlyChanges y.settleLink bs' := Chip.longTaken_moves (hx ▸ hy) hs
  refine ⟨?_, fun hk hcal hpage hw hr => ?_, fun hk hpage hrep => ?_, fun r hk hcal hpage hr ho => ?_, fun hk hc he => ?_,
    fun hk hc he => ?_, fun hcase => ?_⟩
  · have hdec : (x.routeLong h).panel.decoder = x.panel.decoder := by simp
    exact hdec.trans (by rw [hxc])
  · have hroute : x.routeLong h = x.shiftReset := by
      rw [Chip.routeLong_enter hk (by rw [hx]; exact hcal), show x.panel.page = .count by rw [hx]; exact hpage]
    have hreset : x.shiftReset = (x.mapLoad fun l => { l with shift := ShiftCounters.zero }).askRetain c.role.state := by
      rw [hx]
      exact Chip.shiftReset_weigher hin hw hr
    have hstore := Chip.askRetain_store (x.mapLoad fun l => { l with shift := ShiftCounters.zero }) c.role.state
    rw [hroute, hreset]
    refine ⟨by rw [hxc]; rfl, fun hwr => ?_, fun hwr => ?_, moves (Chip.onlyChanges_askRetain _ _ _) (by simp)⟩
    · refine hstore.trans ?_
      rw [hxc]
      exact if_pos hwr
    · refine hstore.trans ?_
      rw [hxc]
      exact if_neg (by simpa using hwr)
  · have hroute : x.routeLong h = x := by
      by_cases hcal : x.cal.state = .out
      · rw [Chip.routeLong_enter hk hcal, show x.panel.page = .count by rw [hx]; exact hpage]
        exact Chip.shiftReset_repeater (by rw [hx]; exact hrep)
      · exact Chip.routeLong_busy hk hcal
    rw [hroute]
    exact moves (Chip.onlyChanges_refl _ []) (by simp)
  · have hroute : x.routeLong h = x.operatorClose := by
      rw [Chip.routeLong_enter hk (by rw [hx]; exact hcal), show x.panel.page = .truck by rw [hx]; exact hpage]
    obtain ⟨h1, h2, h3, h4, h5, h6, h7, -, honly⟩ := x.operatorClose_facts r (by rw [hx]; exact hin) (by rw [hx]; exact hr)
      (by rw [hx]; exact ho)
    have honly' := moves (bs' := [.link, .trk, .load, .alarm, .panel]) honly (by simp)
    rw [hroute]
    have hset (y : Chip) : y.settleLink.load = y.load ∧ y.settleLink.trk = y.trk := ⟨rfl, rfl⟩
    have hsame : x.load = c.load ∧ x.link = c.link ∧ x.cfg = c.cfg ∧ x.ringWith r .operator = c.ringWith r .operator := by
      rw [hx]; exact ⟨rfl, rfl, rfl, rfl⟩
    obtain ⟨eload, elink, ecfg, ering⟩ := hsame
    rw [eload] at h2 h5 h6 h7
    rw [elink] at h3
    rw [ecfg] at h5
    rw [ering] at h7
    generalize x.operatorClose = y at h1 h2 h3 h4 h5 h6 h7 honly' ⊢
    rw [(hset y).1, (hset y).2]
    exact ⟨h1, h2, Chip.sent_of_sends h3, h4, h5, h6, h7, honly'⟩
  · have hent : x.entersCal := by rw [hx]; exact he
    have hxrun : x.inRun = true := by rw [hx]; exact hin
    have hroute : x.routeLong h = x.enterCal := by
      simp only [Chip.routeLong, hk, hc, if_true, Chip.requestCal, (x.mayCalibrate_iff hxrun).mpr hent]
    obtain ⟨f1, f2, f3, f4, f5, f6, f7, f8, f9, f10, f11, f12, f13, f14, f15, honly⟩ := x.enterCal_facts hxrun hent
    have hmoved : c.onlyChanges x [.link, .trk, .load, .role, .cal, .panel] := by
      rw [hx]
      exact (c.longTaken_onlyChanges h).mono (by simp)
    have honly' := hmoved.trans honly
    rw [hroute]
    generalize x.enterCal.settleLink = d at f1 f2 f3 f4 f5 f6 f7 f8 f9 f10 f11 f12 f13 f14 f15 honly' ⊢
    have hpg : d.panel.page = .cal := by rw [f9]
    rw [hxc] at f2 f3 f8 f10 f12 f13 f14 f15
    exact ⟨f1, f2, f3, f4, f5, f6, f7, f8, hpg, f10, f11, f12, f13, f14, f15, honly'⟩
  · have hent : ¬x.entersCal := by rw [hx]; exact he
    have hxrun : x.inRun = true := by rw [hx]; exact hin
    have hroute : x.routeLong h = x.showBusy := by
      simp only [Chip.routeLong, hk, hc, if_true, Chip.requestCal, mt (x.mayCalibrate_iff hxrun).mp hent]
      rfl
    rw [hroute]
    exact ⟨by rw [hx]; rfl, moves (Chip.onlyChanges_mapPanel _ _) (by simp)⟩
  · have hpage : x.panel.page = c.panel.page := by rw [hx]; rfl
    have hroute : x.routeLong h = x := by
      rcases hcase with hk | hk | ⟨hk, hc⟩ | ⟨hk, hc⟩ | ⟨hk, ht, hn⟩ | ⟨hk, hp, hno⟩
      · simp only [Chip.routeLong, hk]
      · simp only [Chip.routeLong, hk]
      · simp [Chip.routeLong, hk, hc]
      · exact Chip.routeLong_busy hk (by rw [hx]; exact hc)
      · by_cases hcal : x.cal.state = .out
        · rw [Chip.routeLong_enter hk hcal, hpage]
          cases hp : c.panel.page with
          | truck => exact absurd hp ht
          | count => exact absurd hp hn
          | run | history | setup | diag | cal => rfl
        · exact Chip.routeLong_busy hk hcal
      · by_cases hcal : x.cal.state = .out
        · rw [Chip.routeLong_enter hk hcal, hpage, hp]
          exact Chip.operatorClose_id (by rw [hx]; exact hno)
        · exact Chip.routeLong_busy hk hcal
    rw [hroute]
    exact ⟨by rw [hx]; rfl, by rw [hx]; rfl, moves (Chip.onlyChanges_refl _ []) (by simp)⟩

end Sys2Proof.Machine

/-! SUPPORT. The truck tag (R63, R73-R75): what a tag makes of the record, the link and the refused identity, for O16. -/

namespace Sys2Proof.Machine

set_option Elab.async false

/-! ## An own record written (R67, R70, R71) -/

/-- A record written as the part's own, evaluated, its sequence raised: it stands with its evaluated flags, its origin is
OWN, and an ACTIVE part has it in the TRUCK STATUS slot. -/
theorem Chip.writeOwn_facts (c : Chip) (r : TruckRec) (hrun : c.inRun = true) :
    let d := (c.writeOwn r).evaluateRecord.raiseSeq
    d.load = { c.load with record := some (r.evaluate c.cfg), seq := c.load.seq + 1 }
      ∧ d.role = { c.role with mirrored := false } ∧ d.link = d.sends c.link [] := by
  have hrec := Chip.writeOwn_evaluated r c
  have hload := (c.writeOwn r).evaluateRecord_load.1
  rw [hrec] at hload
  have hlink : (c.writeOwn r).evaluateRecord.link = c.link := by simp [Chip.writeOwn]
  refine ⟨?_, ?_, ?_⟩
  · rw [Chip.raiseSeq_load, hload]
    rfl
  · simp
  · have h := Chip.raiseSeq_link (c.writeOwn r).evaluateRecord (by simpa [Chip.inRun] using hrun)
    rwa [hlink] at h

theorem Chip.openRecord_facts (c : Chip) (id : Nat) (target : Option Nat) (hrun : c.inRun = true) :
    let d := c.openRecord id target
    d.load = { c.load with record := some ((TruckRec.fresh id target).evaluate c.cfg), seq := c.load.seq + 1 }
      ∧ d.role = { c.role with mirrored := false } ∧ d.link = d.sends c.link [] :=
  c.writeOwn_facts (TruckRec.fresh id target) hrun

/-! ## The tag's cases (Table 4-4) -/

theorem Chip.tagPresent_opens {c : Chip} {id : Nat} (target : Option Nat) (h : c.load.record = none)
    (hr : c.load.refused ≠ some id) : c.tagPresent id target = (c.setRefused none).openRecord id target := by
  have h0 : (c.setRefused none).load.record = none := h
  simp only [Chip.tagPresent, hr, if_false, h0]

/-- The chip with the refused identity kept where it is the tag's. -/
def Chip.refusing (id : Nat) (c : Chip) : Chip := if c.load.refused = some id then c else c.setRefused none

theorem Chip.refusing_eq (id : Nat) (c : Chip) :
    c.refusing id = { c with load := { c.load with
      refused := if c.load.refused = some id then c.load.refused else none } } := by
  unfold Chip.refusing
  split <;> rfl

theorem Chip.tagPresent_names {c : Chip} {r : TruckRec} (target : Option Nat) (h : c.load.record = some r) :
    c.tagPresent r.id target = if r.target = target then c.refusing r.id
      else ((c.refusing r.id).writeOwn { r with target := target }).evaluateRecord.raiseSeq := by
  have h0 : (c.refusing r.id).load.record = some r := by rw [Chip.refusing_eq]; exact h
  have he : c.tagPresent r.id target = (c.refusing r.id).retarget target := by
    unfold Chip.tagPresent
    simp only [Chip.refusing] at h0 ⊢
    rw [h0]
    simp
  rw [he, Chip.retarget, h0]

theorem Chip.tagPresent_refused {c : Chip} {id : Nat} (target : Option Nat) (hr : c.load.refused = some id)
    (h : ∀ r, c.load.record = some r → r.id ≠ id) : c.tagPresent id target = c := by
  unfold Chip.tagPresent
  simp only [hr, if_true]
  split
  · rfl
  · rename_i r hrec
    exact if_neg (h r hrec)

theorem Chip.tagPresent_changes {c : Chip} {id : Nat} {r : TruckRec} (target : Option Nat) (h : c.load.record = some r)
    (hi : r.id ≠ id) (hr : c.load.refused ≠ some id) :
    c.tagPresent id target = ((c.setRefused none).closeRecord .newTruck).openRecord id target := by
  have h0 : (c.setRefused none).load.record = some r := h
  simp only [Chip.tagPresent, hr, if_false, h0, hi]

theorem Chip.tagGone_closes {c : Chip} {r : TruckRec} (h : c.load.record = some r) (hi : r.id ≠ 0) :
    c.tagGone = (c.closeRecord .departed).setRefused none := by
  simp only [Chip.tagGone, h, hi, if_false]

theorem Chip.tagGone_stays {c : Chip} (h : ∀ r, c.load.record = some r → r.id = 0) : c.tagGone = c.setRefused none := by
  unfold Chip.tagGone
  split
  · rename_i r hr
    simp only [h r hr, if_true]
  · rfl

/-! ## What each case leaves -/

/-- The record shown by a part after a tag that opens or changes it: its own, with its evaluated flags. -/
def Chip.showsRecord (c d : Chip) (id : Nat) (target : Option Nat) (ps : List PassRec) (figures : Nat × Nat × Nat)
    (f : RecFlags) : Prop :=
  d.role.mirrored = false ∧ ∃ r', d.load.record = some r' ∧ c.flagged f r'
    ∧ (r'.id, r'.target, r'.passes, r'.count, r'.unweighed, r'.total) = (id, target, ps, figures)

theorem Chip.openRecord_shows (c x : Chip) (id : Nat) (target : Option Nat) (hrun : x.inRun = true) (hc : x.cfg = c.cfg) :
    c.showsRecord (x.openRecord id target) id target [] (0, 0, 0) RecFlags.none := by
  obtain ⟨hload, hrole, -⟩ := x.openRecord_facts id target hrun
  refine ⟨by rw [hrole], _, by rw [hload], ?_, rfl⟩
  rw [hc]
  exact c.flagged_evaluate (TruckRec.fresh id target)

/-- Ring and shift stand (R79, R80). -/
def Chip.ringKept (c d : Chip) : Prop :=
  d.load.history = c.load.history ∧ d.load.nextHist = c.load.nextHist ∧ d.load.shift = c.load.shift

theorem Chip.tagPresent_opens_facts {c : Chip} {id : Nat} (target : Option Nat) (hrun : c.inRun = true)
    (h : c.load.record = none) (hr : c.load.refused ≠ some id) :
    let d := c.tagPresent id target
    c.showsRecord d id target [] (0, 0, 0) RecFlags.none
      ∧ d.load.seq = c.load.seq + 1 ∧ d.load.refused = none ∧ c.ringKept d ∧ d.link = d.sends c.link [] := by
  rw [Chip.tagPresent_opens target h hr]
  obtain ⟨hload, -, hlink⟩ := (c.setRefused none).openRecord_facts id target hrun
  refine ⟨Chip.openRecord_shows c _ id target hrun rfl, by rw [hload]; rfl, by rw [hload]; rfl, ?_, hlink⟩
  unfold Chip.ringKept
  rw [hload]
  exact ⟨rfl, rfl, rfl⟩

theorem Chip.tagPresent_names_facts {c : Chip} {r : TruckRec} (target : Option Nat) (hrun : c.inRun = true)
    (h : c.load.record = some r) :
    let d := c.tagPresent r.id target
    d.load.refused = (if c.load.refused = some r.id then c.load.refused else none)
      ∧ (r.target = target → d.load.record = some r ∧ d.load.seq = c.load.seq ∧ c.ringKept d ∧ d.link = c.link)
      ∧ (r.target ≠ target → c.showsRecord d r.id target r.passes (r.count, r.unweighed, r.total) r.flags
          ∧ d.load.seq = c.load.seq + 1 ∧ c.ringKept d ∧ d.link = d.sends c.link []) := by
  have hrefusing := c.refusing_eq r.id
  rw [Chip.tagPresent_names target h]
  by_cases ht : r.target = target
  · rw [if_pos ht]
    refine ⟨by rw [hrefusing], fun _ => ?_, fun hn => absurd ht hn⟩
    unfold Chip.ringKept
    rw [hrefusing]
    exact ⟨h, rfl, ⟨rfl, rfl, rfl⟩, rfl⟩
  · rw [if_neg ht]
    have hin : (c.refusing r.id).inRun = true := by rw [hrefusing]; exact hrun
    have hcfg : (c.refusing r.id).cfg = c.cfg := by rw [hrefusing]; rfl
    obtain ⟨hload, hrole, hlink⟩ := (c.refusing r.id).writeOwn_facts { r with target := target } hin
    have hl : (c.refusing r.id).link = c.link := by rw [hrefusing]
    rw [hl] at hlink
    rw [hcfg] at hload
    refine ⟨by rw [hload, hrefusing], fun hn => absurd hn ht, fun _ => ⟨⟨by rw [hrole], _, by rw [hload], ?_, rfl⟩, ?_, ?_, hlink⟩⟩
    · exact c.flagged_evaluate { r with target := target }
    · rw [hload, hrefusing]
    · unfold Chip.ringKept
      rw [hload, hrefusing]
      exact ⟨rfl, rfl, rfl⟩

/-- What a close by a tag or its loss makes of ring and shift (R79, R80). -/
def Chip.ringClosed (c d : Chip) (r : TruckRec) (reason : CloseReason) : Prop :=
  (r.count = 0 → d.load.history = c.load.history ∧ d.load.nextHist = c.load.nextHist ∧ d.load.shift = c.load.shift)
    ∧ (r.count ≠ 0 → d.load.history = c.ringWith r reason ∧ d.load.nextHist = c.load.nextHist + 1
        ∧ d.load.shift = { c.load.shift with trucks := min 65535 (c.load.shift.trucks + 1) })

theorem Chip.closeRecord_ring {c : Chip} {r : TruckRec} {reason : CloseReason} (h : c.load.record = some r)
    (hy : reason ≠ .yielded) : c.ringClosed (c.closeRecord reason) r reason := by
  have hload := Chip.closeRecord_load reason c r h
  refine ⟨fun h0 => ?_, fun h0 => ?_⟩ <;> rw [hload]
  · exact ⟨if_pos h0, if_pos h0, if_pos (.inl h0)⟩
  · exact ⟨if_neg h0, if_neg h0, if_neg (by simp [h0, hy])⟩

theorem Chip.tagPresent_changes_facts {c : Chip} {id : Nat} {r : TruckRec} (target : Option Nat) (hrun : c.inRun = true)
    (h : c.load.record = some r) (hi : r.id ≠ id) (hr : c.load.refused ≠ some id) :
    let d := c.tagPresent id target
    c.showsRecord d id target [] (0, 0, 0) RecFlags.none ∧ d.load.seq = c.load.seq + 2 ∧ d.load.refused = none
      ∧ c.ringClosed d r .newTruck ∧ d.link = d.sends c.link (closedTelegrams r .newTruck) := by
  rw [Chip.tagPresent_changes target h hi hr]
  have h0 : (c.setRefused none).load.record = some r := h
  have hrun0 : (c.setRefused none).inRun = true := hrun
  obtain ⟨x, hx⟩ : ∃ x, x = (c.setRefused none).closeRecord .newTruck := ⟨_, rfl⟩
  have hload := Chip.closeRecord_load .newTruck _ r h0
  have hlink := Chip.closeRecord_link .newTruck _ r h0 hrun0 (by simp)
  have hring := Chip.closeRecord_ring (reason := .newTruck) h0 (by simp)
  have hxrun : x.inRun = true := by rw [hx]; simpa [Chip.inRun] using hrun0
  have hxcfg : x.cfg = c.cfg := by rw [hx]; simp [Chip.cfg, Chip.setRefused]
  rw [← hx] at hload hlink hring ⊢
  obtain ⟨oload, orole, olink⟩ := x.openRecord_facts id target hxrun
  have hstate : x.role.state = (x.openRecord id target).role.state := by rw [orole]
  refine ⟨Chip.openRecord_shows c x id target hxrun hxcfg, ?_, ?_, ?_, ?_⟩
  · rw [oload, hload]
    simp only [BitVec.add_assoc]
    rfl
  · rw [oload, hload]
    rfl
  · unfold Chip.ringClosed
    rw [oload]
    exact hring
  · rw [olink, hlink, Chip.sends_sends _ x _ _ hstate]
    rfl

theorem Chip.tagGone_facts {c : Chip} {r : TruckRec} (hrun : c.inRun = true) (h : c.load.record = some r) (hi : r.id ≠ 0) :
    let d := c.tagGone
    d.load.record = none ∧ d.load.seq = c.load.seq + 1 ∧ d.load.refused = none ∧ c.ringClosed d r .departed
      ∧ d.link = d.sends c.link (closedTelegrams r .departed) := by
  rw [Chip.tagGone_closes h hi]
  obtain ⟨x, hx⟩ : ∃ x, x = c.closeRecord .departed := ⟨_, rfl⟩
  have hload := Chip.closeRecord_load .departed _ r h
  have hlink := Chip.closeRecord_link .departed _ r h hrun (by simp)
  have hring := Chip.closeRecord_ring (reason := .departed) h (by simp)
  rw [← hx] at hload hlink hring ⊢
  refine ⟨?_, ?_, rfl, hring, hlink⟩
  · show x.load.record = none
    rw [hload]
  · show x.load.seq = _
    rw [hload]

/-! ## The arrival (R53, R63) -/

theorem targetTaken_eq (n : Nat) :
    (absentIfZero n).map (clampNat 100 50000) = if n = 0 then none else some (clampNat 100 50000 n) := by
  unfold absentIfZero
  split <;> rfl

theorem targetClamped_iff (n : Nat) :
    ((absentIfZero n).map (clampNat 100 50000) != absentIfZero n)
      = decide ((if n = 0 then none else some (clampNat 100 50000 n)) ≠ none
          ∧ (if n = 0 then none else some (clampNat 100 50000 n)) ≠ some n) := by
  unfold absentIfZero
  by_cases h : n = 0
  · simp [h]
  · simp [h, bne, Bool.beq_eq_decide_eq]

/-- What a tag makes of the load register outside the record, its sequence and the closed records' ring (R74). -/
theorem LoadRegister.eq_of_still {l l' : LoadRegister} (h : l'.still = l.still) :
    l' = { l with
      record := l'.record, seq := l'.seq, refused := l'.refused, history := l'.history, nextHist := l'.nextHist
      shift := l'.shift } := by
  cases l
  cases l'
  simp only [LoadRegister.still, Prod.mk.injEq] at h
  simp [h]

/-- The tag message of a data field. -/
def tagMsgOf (data : List Byte) : TagMsg := ⟨(byteAt data 0).getLsbD 0, nat16 data 1, absentIfZero (nat16 data 3)⟩

/-- An unusable tag marks the channel and leaves the value held (R53, R63). -/
theorem InputTable.arriveTag_facts (t : InputTable) (data : List Byte) (now : Tick) :
    let present := (byteAt data 0).getLsbD 0 = true
    let id := nat16 data 1
    let target := if nat16 data 3 = 0 then none else some (clampNat 100 50000 (nat16 data 3))
    let unusable := present ∧ (id = 0 ∨ id = 65535)
    let tag : Option TagVal := if unusable then t.held.tag else some ⟨decide present, id, target⟩
    let t' := t.arriveTag (tagMsgOf data) now
    t'.held.tag = tag ∧ t' = { t with
      tag := { t.tag with
        freshness := .fresh
        latestTick := some now
        latestStatus := some .ok
        overRange := ⟨false, decide unusable, decide (target ≠ none ∧ target ≠ some (nat16 data 3))⟩
        staleTimer := some now
        loss := .stopped }
      held := { t.held with tag := tag } } := by
  intro present id target unusable tag
  have hmark : (tagMsgOf data).unusable = decide unusable := by
    simp [TagMsg.unusable, tagMsgOf, unusable, present, id, Bool.decide_and, Bool.decide_or, Bool.beq_eq_decide_eq]
  have htarget : ((tagMsgOf data).target).map (clampNat 100 50000) = target := targetTaken_eq (nat16 data 3)
  have hclamped := targetClamped_iff (nat16 data 3)
  have hheld : (t.arriveTag (tagMsgOf data) now).held = { t.held with tag := tag } := by
    simp only [InputTable.arriveTag, hmark, htarget, decide_eq_true_eq, tag]
    split
    · rfl
    · simp [tagMsgOf, present, id]
  have hrec : (t.arriveTag (tagMsgOf data) now).tag = { t.tag with
        freshness := .fresh
        latestTick := some now
        latestStatus := some .ok
        overRange := ⟨false, decide unusable, decide (target ≠ none ∧ target ≠ some (nat16 data 3))⟩
        staleTimer := some now
        loss := .stopped } := by
    rw [← hmark, ← hclamped]
    rfl
  intro t'
  refine ⟨congrArg HeldValues.tag hheld, ?_⟩
  rw [← hheld, ← hrec]
  rfl

/-- The tag's effect on a part in tag mode that owns its record, and on one that does not. -/
theorem Chip.takeTag_owned {c : Chip} (ht : c.cfg.srcTag ≠ 0) (ho : c.owns) :
    c.takeTag = match c.inp.held.tag with
      | none => c
      | some t => if t.present then c.tagPresent t.id t.target else c.tagGone := by
  unfold Chip.takeTag
  exact if_pos (by simp [Chip.tagMode, ht, c.ownsRecord_iff.mpr ho])

theorem Chip.takeTag_unowned {c : Chip} (ho : ¬c.owns ∨ c.inp.held.tag = none) : c.takeTag = c := by
  unfold Chip.takeTag
  split
  · rename_i h
    obtain ⟨-, hown⟩ : c.tagMode = true ∧ c.ownsRecord = true := by simpa using h
    rcases ho with ho | ho
    · exact absurd (c.ownsRecord_iff.mp hown) ho
    · rw [ho]
  · rfl

theorem gives_truckTag (s : State) (src dst : Byte) (data : List Byte) (P : Chip → Prop)
    (hears : s.chip.Hears src dst data) (hsrc : src.toNat = s.chip.cfg.srcTag) (hlen : 5 ≤ data.length)
    (hP : P (((s.chip.mapLink Link.runEnded).mapInp (InputTable.arriveTag (tagMsgOf data) s.chip.tick)).takeTag).settleLink) :
    Gives (.truckTag src dst data) s P := by
  have hcfg : s.chip.cfg.hears .truckTag src.toNat = true := by simp [Cfg.hears, Kind.channels, Cfg.source, hsrc]
  refine gives_heard _ s 0x10 src dst data .truckTag _ rfl hears rfl hcfg (fun h => absurd h (by decide)) ?_
  have htake : (s.chip.mapLink Link.runEnded).consumeInRun .truckTag src dst data
      = ((s.chip.mapLink Link.runEnded).mapInp (InputTable.arriveTag (tagMsgOf data) s.chip.tick)).takeTag := by
    simp only [Chip.consumeInRun, Chip.take, readTag, takeData_long _ hlen]
    rfl
  rw [htake]
  exact hP

theorem Chip.onlyChanges_mapLoad (f : LoadRegister → LoadRegister) (c : Chip) : c.onlyChanges (c.mapLoad f) [.load] := by
  intro b hb
  cases b <;> simp_all [Chip.sameAt]

theorem Chip.onlyChanges_arrival (f : Link → Link) (g : InputTable → InputTable) (c : Chip) :
    c.onlyChanges ((c.mapLink f).mapInp g) [.link, .inp] := by
  intro b hb
  cases b <;> simp_all [Chip.sameAt]

/-- Settles O16: by the record that stands and the tag that is taken. -/
theorem tagMovesTheRecord : Obligations.TagMovesTheRecord := by
  unfold Obligations.TagMovesTheRecord
  intro s src dst data hears hsrc hlen
  refine gives_truckTag s src dst data _ hears hsrc hlen ?_
  obtain ⟨y, hy⟩ : ∃ y, y = (s.chip.mapLink Link.runEnded).mapInp (InputTable.arriveTag (tagMsgOf data) s.chip.tick) :=
    ⟨_, rfl⟩
  obtain ⟨T, hT⟩ : ∃ T, T = y.takeTag := ⟨_, rfl⟩
  rw [← hy, ← hT]
  intro present id target unusable tag c kept closed shows sends
  have hmode : s.chip.cfg.srcTag ≠ 0 := by
    obtain ⟨-, -, -, -, -, -, hlow, -⟩ := hears
    omega
  have hyc : y = { c with link := c.link.runEnded, inp := c.inp.arriveTag (tagMsgOf data) c.tick } := hy
  have hyrun : y.inRun = true := by rw [hyc]; exact hears.inRun
  have hyload : y.load = c.load := by rw [hyc]
  have hyrole : y.role = c.role := by rw [hyc]
  have hylink : y.link = c.link.runEnded := by rw [hyc]
  have hyowns : y.owns ↔ c.owns := by rw [hyc]; exact Iff.rfl
  have hymode : y.cfg.srcTag ≠ 0 := by rw [hyc]; exact hmode
  obtain ⟨hytag, hyinp⟩ : y.inp.held.tag = tag ∧ y.inp = { c.inp with
      tag := { c.inp.tag with
        freshness := .fresh
        latestTick := some c.tick
        latestStatus := some .ok
        overRange := ⟨false, decide unusable, decide (target ≠ none ∧ target ≠ some (nat16 data 3))⟩
        staleTimer := some c.tick
        loss := .stopped }
      held := { c.inp.held with tag := tag } } := by
    rw [hyc]
    exact c.inp.arriveTag_facts data c.tick
  have hmoved : c.onlyChanges y [.link, .inp] := by
    rw [hy]
    exact Chip.onlyChanges_arrival _ _ _
  have hmoves : y.RecordMoves y.takeTag := .takeTag y
  have hset (x : Chip) : x.settleLink.load = x.load ∧ x.settleLink.role = x.role ∧ x.settleLink.inp = x.inp
      ∧ x.settleLink.link = x.link.settle x.settleLink.maySend := ⟨rfl, rfl, rfl, rfl⟩
  have hstays (h : T = y) : c.onlyChanges T.settleLink [.link, .inp] ∧ c.onlyHeard T.settleLink := by
    rw [h]
    exact ⟨Chip.onlyChanges.settleLink hmoved (by simp), Chip.onlyHeard_settleLink hylink⟩
  have present_eq (t : TagVal) (ho : c.owns) (ht : tag = some t) (hp : t.present = true) :
      T = y.tagPresent t.id t.target := by
    rw [hT, Chip.takeTag_owned hymode (hyowns.mpr ho), hytag, ht]
    simp only [hp, if_true]
  have gone_eq (t : TagVal) (ho : c.owns) (ht : tag = some t) (hp : t.present = false) : T = y.tagGone := by
    rw [hT, Chip.takeTag_owned hymode (hyowns.mpr ho), hytag, ht]
    simp [hp]
  rw [← hT] at hmoves
  have hstill : T.load.still = c.load.still := by rw [hT, Chip.takeTag_still, hyload]
  have hshows (id : Nat) (g : Option Nat) (ps : List PassRec) (fig : Nat × Nat × Nat) (f : RecFlags)
      (h : y.showsRecord T id g ps fig f) : c.showsRecord T id g ps fig f := by
    rw [hyc] at h
    exact h
  have hring (r : TruckRec) (reason : CloseReason) (h : y.ringClosed T r reason) : c.ringClosed T r reason := by
    rw [hyc] at h
    exact h
  have hkept (h : y.ringKept T) : kept := by
    rw [hyc] at h
    exact h
  have hsent (ts : List OutTg) (h : T.link = T.sends y.link ts) : sends ts := by
    rw [hylink] at h
    exact Chip.sent_of_sends h
  refine ⟨?_, ?_, ?_, LoadRegister.eq_of_still hstill, fun h => ?_, fun t ho ht hp hr hf => ?_, fun t r ho ht hp hr hi => ?_,
    fun t ho ht hp hf hr => ?_, fun t r ho ht hp hr hi hf => ?_, fun t r ho ht hp hr hi => ?_, fun t ho ht hp hr => ?_⟩
  · have hsame : T.inp = y.inp := hmoves.only .inp (by simp)
    exact hsame.trans hyinp
  · exact Chip.onlyChanges.settleLink ((hmoved.mono (by simp)).trans (hmoves.only.mono (by simp))) (by simp)
  · have h := hmoves.role
    rw [hyrole] at h
    exact h
  · have hno : ¬y.owns ∨ y.inp.held.tag = none := by rw [hyowns, hytag]; exact h
    exact hstays (hT.trans (Chip.takeTag_unowned hno))
  · have he := present_eq t ho ht hp
    rw [← hyload] at hr hf
    obtain ⟨h1, h2, h3, h4, h5⟩ := Chip.tagPresent_opens_facts (id := t.id) t.target hyrun hr hf
    rw [← he] at h1 h2 h3 h4 h5
    rw [hyload] at h2
    exact ⟨hshows _ _ _ _ _ h1, h2, h3, hkept h4, hsent _ h5⟩
  · have he := present_eq t ho ht hp
    rw [← hyload] at hr
    obtain ⟨h1, h2, h3⟩ := Chip.tagPresent_names_facts t.target hyrun hr
    rw [hi, ← he] at h1 h2 h3
    rw [hyload] at h1 h2 h3
    refine ⟨h1, fun hg => ?_, fun hg => ?_⟩
    · obtain ⟨hrec, hseq, hk, hlink⟩ := h2 hg
      exact ⟨hrec, hseq, hkept hk, Chip.onlyHeard_settleLink (hlink.trans hylink)⟩
    · obtain ⟨hs, hseq, hk, hlink⟩ := h3 hg
      exact ⟨hshows _ _ _ _ _ hs, hseq, hkept hk, hsent _ hlink⟩
  · have he : T = y := (present_eq t ho ht hp).trans
      (Chip.tagPresent_refused t.target (by rw [hyload]; exact hf) (by rw [hyload]; exact hr))
    obtain ⟨h1, h2⟩ := hstays he
    exact ⟨(congrArg Chip.load he).trans hyload, h1, h2⟩
  · have he := present_eq t ho ht hp
    rw [← hyload] at hr hf
    obtain ⟨h1, h2, h3, h4, h5⟩ := Chip.tagPresent_changes_facts t.target hyrun hr hi hf
    rw [← he] at h1 h2 h3 h4 h5
    rw [hyload] at h2
    exact ⟨hshows _ _ _ _ _ h1, h2, h3, hring _ _ h4, hsent _ h5⟩
  · have he := gone_eq t ho ht hp
    rw [← hyload] at hr
    obtain ⟨h1, h2, h3, h4, h5⟩ := Chip.tagGone_facts hyrun hr hi
    rw [← he] at h1 h2 h3 h4 h5
    rw [hyload] at h2
    exact ⟨h1, h2, h3, hring _ _ h4, hsent _ h5⟩
  · have he : T = y.setRefused none := (gone_eq t ho ht hp).trans (Chip.tagGone_stays (by rw [hyload]; exact hr))
    have hload : T.load = { c.load with refused := none } := by rw [he, ← hyload]; rfl
    have hlink : T.link = c.link.runEnded := by rw [he, ← hylink]; rfl
    have honly : y.onlyChanges T [.load] := by
      rw [he]
      exact Chip.onlyChanges_mapLoad _ _
    exact ⟨hload, Chip.onlyChanges.settleLink ((hmoved.mono (by simp)).trans (honly.mono (by simp))) (by simp),
      Chip.onlyHeard_settleLink hlink⟩

end Sys2Proof.Machine

/-! SUPPORT. Arrivals of tilt, incline and drive (R53, R55), and what ends an arrival that the tracker takes nowhere
(R40, R62), for O15. -/

namespace Sys2Proof.Machine

set_option Elab.async false

/-! ## The end of an arrival -/

/-- An arrival that has moved neither alarms nor panel nor, but for its end, the link: the input-loss timers follow their
channels, INPUT FAULT follows its condition, the link settles. -/
structure Chip.ArrivalEnds (c x d : Chip) (bs : List Block) : Prop where
  inp : d.inp = x.inp
  trk : d.trk = d.lossTimed x.trk
  load : d.load = x.load
  role : d.role = x.role
  cal : d.cal = x.cal
  eng : d.eng = x.eng
  only : c.onlyChanges d (.link :: .trk :: .alarm :: .panel :: bs)
  buz : c.onlyBuzzer d
  alarm : c.onlyAlarm .inputFault d
  heard : c.onlyHeard d

theorem Chip.onlyChanges_mapTrk (f : Tracker → Tracker) (c : Chip) : c.onlyChanges (c.mapTrk f) [.trk] := by
  intro b hb
  cases b <;> simp_all [Chip.sameAt]

theorem Chip.afterArrival_ends {c x : Chip} {bs : List Block} (hlink : x.link = c.link.runEnded) (hpanel : x.panel = c.panel)
    (halarm : x.alarm = c.alarm) (honly : c.onlyChanges x (.link :: bs)) :
    c.ArrivalEnds x x.afterArrival.settleLink bs := by
  obtain ⟨y, hy⟩ : ∃ y, y = x.syncLoss := ⟨_, rfl⟩
  have hyx : x.onlyChanges y [.trk] := by rw [hy]; exact Chip.onlyChanges_mapTrk _ _
  have hyl : y.link = c.link.runEnded := by rw [hy]; simpa using hlink
  have hyt : y.trk = x.lossTimed x.trk := by rw [hy]; exact x.syncLoss_trk
  have hyp : y.panel = c.panel := by rw [hy]; simpa using hpanel
  have hya : y.alarm = c.alarm := by rw [hy]; simpa using halarm
  have hyi : y.inp = x.inp := by rw [hy]; simp
  have hyk : y.tick = x.tick := by rw [hy]; simp
  have hyb : y.load = x.load ∧ y.role = x.role ∧ y.cal = x.cal ∧ y.eng = x.eng := by rw [hy]; simp
  obtain ⟨hload, hrole, hcal, heng⟩ := hyb
  have hends := Ends.refresh y
  have hd : x.afterArrival.settleLink = (y.refresh .inputFault).settleLink := by rw [hy]; rfl
  rw [hd]
  refine ⟨hends.inp.trans hyi, ?_, ?_, ?_, hends.cal.trans hcal, hends.eng.trans heng, ?_, ?_, ?_, ?_⟩
  · refine hends.trk.trans (hyt.trans ?_)
    unfold Chip.lossTimed
    rw [hends.inp, hends.tick, hyi, hyk]
  · exact (show _ = y.load by simp).trans hload
  · exact (show _ = y.role by simp).trans hrole
  · refine Chip.onlyChanges.settleLink ?_ (by simp)
    refine (honly.mono ?_).trans ((hyx.mono (by simp)).trans ((Chip.refresh_onlyChanges _ _).mono (by simp)))
    intro b hb
    simp only [List.mem_cons] at hb ⊢
    rcases hb with h | h <;> simp [h]
  · have h := hends.buzOnly
    unfold Chip.onlyBuzzer at h ⊢
    rw [← hyp]
    exact h
  · intro b hb
    exact (Chip.refresh_others .inputFault b y hb).trans (by rw [hya])
  · exact Chip.onlyHeard_settleLink ((show _ = y.link by simp).trans hyl)

/-! ## Marks (Table 3-3) -/

theorem overInt_eq (lo hi x : Int) : overInt lo hi x = decide (x < lo ∨ hi < x) := by
  unfold overInt
  simp [Bool.decide_or]

theorem angleStatus_eq (n : Nat) : angleStatus n = if n = 0 then .ok else .fault := rfl

theorem directionOf_getD (n : Nat) :
    (directionOf n).getD .n = (if n = 1 then .f else if n = 2 then .r else .n) ∧ (directionOf n).isNone = decide (2 < n) := by
  match n with
  | 0 | 1 | 2 => exact ⟨rfl, rfl⟩
  | n + 3 =>
    have h1 : n + 3 ≠ 1 := by omega
    have h2 : n + 3 ≠ 2 := by omega
    have h3 : 2 < n + 3 := by omega
    rw [if_neg h1, if_neg h2, decide_eq_true h3]
    exact ⟨rfl, rfl⟩

/-! ## BUCKET TILT, CHASSIS INCLINE, DRIVE STATE -/

theorem InputTable.arriveTilt_eq (data : List Byte) (now : Tick) (t : InputTable) :
    t.arriveTilt ⟨int16 data 0, angleStatus (nat8 data 2)⟩ now = { t with
      tilt := { t.tilt with
        freshness := if nat8 data 2 = 0 then .fresh else .fault
        latestTick := some now
        latestStatus := some (if nat8 data 2 = 0 then .ok else .fault)
        overRange := ⟨decide (int16 data 0 < -6000 ∨ 6000 < int16 data 0), false, false⟩
        staleTimer := some now
        loss :=
          if nat8 data 2 = 0 then .stopped
          else if t.tilt.freshness = .fresh then .running now
          else t.tilt.loss }
      held := if nat8 data 2 = 0 then { t.held with tilt := some (clampInt (-6000) 6000 (int16 data 0)) } else t.held } := by
  unfold InputTable.arriveTilt
  rw [angleStatus_eq, overInt_eq]
  by_cases h : nat8 data 2 = 0 <;> simp [h, ChanRec.arrive, ChanRec.lossAfter]

theorem Chip.trackTilt_still {c : Chip} (st : ArrStatus)
    (h : c.trk.cycle = .idle ∨ c.trk.cycle = .suspended ∨ st ≠ .ok) : c.trackTilt st = c := by
  unfold Chip.trackTilt
  split
  · rcases h with h | h | h
    · simp only [h]
    · simp only [h]
    · exact absurd rfl h
  · rfl

theorem gives_tilt {s : State} {src dst : Byte} {data : List Byte} {P : Chip → Prop} (hears : s.chip.Hears src dst data)
    (hsrc : src.toNat = s.chip.cfg.srcTilt) (hlen : 3 ≤ data.length)
    (hP : P ((((s.chip.mapLink Link.runEnded).mapInp
        (InputTable.arriveTilt ⟨int16 data 0, angleStatus (nat8 data 2)⟩ s.chip.tick)).trackTilt
          (angleStatus (nat8 data 2))).afterArrival.settleLink)) : Gives (.bucketTilt src dst data) s P := by
  refine gives_act _ s (Chip.whenUp (Chip.receive 0x0A src dst data)) P rfl ?_
  rw [Chip.tilt_path s src dst data hears hsrc hlen]
  exact hP

/-- The refresh of INPUT FAULT that ends an arrival (R62). -/
theorem Chip.faultRefresh_ends {c x : Chip} {bs bs' : List Block} (hlink : x.link = c.link.runEnded)
    (halarm : x.alarm = c.alarm) (honly : c.onlyChanges x bs) (hs : .link :: .alarm :: .panel :: bs ⊆ bs') :
    let d := (x.refresh .inputFault).settleLink
    d.inp = x.inp ∧ x.onlyBuzzer d ∧ c.onlyAlarm .inputFault d ∧ c.onlyHeard d ∧ c.onlyChanges d bs' := by
  have hends := Ends.refresh x
  refine ⟨hends.inp, hends.buzOnly, fun b hb => ?_, ?_, ?_⟩
  · exact (Chip.refresh_others .inputFault b x hb).trans (by rw [halarm])
  · exact Chip.onlyHeard_settleLink ((show _ = x.link by simp).trans hlink)
  · refine Chip.onlyChanges.settleLink ?_ (hs (by simp))
    refine (honly.mono fun b hb => hs (by simp [hb])).trans ((Chip.refresh_onlyChanges _ _).mono ?_)
    intro b hb
    have hb' : b = .alarm ∨ b = .panel := by simpa using hb
    rcases hb' with rfl | rfl
    · exact hs (by simp)
    · exact hs (by simp)

theorem gives_incline {s : State} {src dst : Byte} {data : List Byte} {P : Chip → Prop} (hears : s.chip.Hears src dst data)
    (hsrc : src.toNat = s.chip.cfg.srcIncline) (hlen : 4 ≤ data.length)
    (hP : P ((((s.chip.mapLink Link.runEnded).mapInp
        (InputTable.arriveIncline ⟨int16 data 0, int16 data 2⟩ s.chip.tick)).refresh .inputFault).settleLink)) :
    Gives (.chassisIncline src dst data) s P := by
  have hcfg : s.chip.cfg.hears .chassisIncline src.toNat = true := by simp [Cfg.hears, Kind.channels, Cfg.source, hsrc]
  refine gives_heard _ s 0x0B src dst data .chassisIncline _ rfl hears rfl hcfg (fun h => absurd h (by decide)) ?_
  have htake : (s.chip.mapLink Link.runEnded).consumeInRun .chassisIncline src dst data
      = ((s.chip.mapLink Link.runEnded).mapInp
          (InputTable.arriveIncline ⟨int16 data 0, int16 data 2⟩ s.chip.tick)).refresh .inputFault := by
    simp only [Chip.consumeInRun, Chip.take, readIncline, takeData_long _ hlen]
    rfl
  rw [htake]
  exact hP

/-- The drive message of a data field. -/
def driveMsgOf (data : List Byte) : DriveMsg :=
  ⟨directionOf (nat8 data 0), nat8 data 1, nat16 data 2, (byteAt data 4).getLsbD 0, (byteAt data 4).getLsbD 1⟩

theorem InputTable.arriveDrive_eq (data : List Byte) (now : Tick) (t : InputTable) :
    t.arriveDrive (driveMsgOf data) now = { t with
      drive := { t.drive with
        freshness := .fresh
        latestTick := some now
        latestStatus := some .ok
        overRange := ⟨decide (2 < nat8 data 0), decide (4 < nat8 data 1), decide (500 < nat16 data 2)⟩
        staleTimer := some now
        loss := .stopped }
      held := { t.held with
        drive := some
          { dir := if nat8 data 0 = 1 then .f else if nat8 data 0 = 2 then .r else .n
            gear := min (nat8 data 1) 4
            speed := min (nat16 data 2) 500
            lights := (byteAt data 4).getLsbD 0
            park := (byteAt data 4).getLsbD 1 } } } := by
  obtain ⟨hdir, hover⟩ := directionOf_getD (nat8 data 0)
  simp only [InputTable.arriveDrive, driveMsgOf, hdir, hover]
  rfl

theorem gives_drive {s : State} {src dst : Byte} {data : List Byte} {P : Chip → Prop} (hears : s.chip.Hears src dst data)
    (hsrc : src.toNat = s.chip.cfg.srcDrive) (hlen : 5 ≤ data.length)
    (hP : P (((((s.chip.mapLink Link.runEnded).mapInp
        (InputTable.arriveDrive (driveMsgOf data) s.chip.tick)).writeShadow).refresh .inputFault).settleLink)) :
    Gives (.driveState src dst data) s P := by
  have hcfg : s.chip.cfg.hears .driveState src.toNat = true := by simp [Cfg.hears, Kind.channels, Cfg.source, hsrc]
  refine gives_heard _ s 0x0C src dst data .driveState _ rfl hears rfl hcfg (fun h => absurd h (by decide)) ?_
  have htake : (s.chip.mapLink Link.runEnded).consumeInRun .driveState src dst data
      = (((s.chip.mapLink Link.runEnded).mapInp
          (InputTable.arriveDrive (driveMsgOf data) s.chip.tick)).writeShadow).refresh .inputFault := by
    simp only [Chip.consumeInRun, Chip.take, readDrive, takeData_long _ hlen]
    rfl
  rw [htake]
  exact hP

theorem Chip.writeShadow_run {c : Chip} (h : c.sup.power = .run) :
    c.writeShadow = { c with panel := { c.panel with
      shadow := if c.nightChosen then c.panel.settings.night else c.panel.settings.day } } := by
  simp only [Chip.writeShadow, h, Chip.chosenLevel, Chip.inRun, beq_self_eq_true, Bool.true_and]
  rfl

/-- Settles O15: channel by channel. -/
theorem tiltInclineAndDriveAreRecorded : Obligations.TiltInclineAndDriveAreRecorded := by
  unfold Obligations.TiltInclineAndDriveAreRecorded
  intro s src dst data hears
  refine ⟨fun hsrc hlen => gives_tilt hears hsrc hlen ?_, fun hsrc hlen => gives_incline hears hsrc hlen ?_,
    fun hsrc hlen => gives_drive hears hsrc hlen ?_⟩
  · obtain ⟨x, hx⟩ : ∃ x, x = (s.chip.mapLink Link.runEnded).mapInp
      (InputTable.arriveTilt ⟨int16 data 0, angleStatus (nat8 data 2)⟩ s.chip.tick) := ⟨_, rfl⟩
    have hinp : x.inp = s.chip.inp.arriveTilt ⟨int16 data 0, angleStatus (nat8 data 2)⟩ s.chip.tick := by rw [hx]; rfl
    have hmoved : s.chip.onlyChanges x [.link, .inp] := by rw [hx]; exact Chip.onlyChanges_arrival _ _ _
    rw [← hx]
    refine ⟨?_, ?_, fun h => ?_⟩
    · have hd : ((x.trackTilt (angleStatus (nat8 data 2))).afterArrival.settleLink).inp = x.inp := by
        simp [Chip.afterArrival]
      rw [hd, hinp, InputTable.arriveTilt_eq]
    · refine (hmoved.mono (by simp)).trans ?_
      intro b hb
      cases b <;> simp_all [Chip.sameAt, Chip.afterArrival]
    · have hstatus : x.trk.cycle = .idle ∨ x.trk.cycle = .suspended ∨ angleStatus (nat8 data 2) ≠ .ok := by
        rw [hx]
        refine h.imp id (Or.imp id fun hf => ?_)
        rw [angleStatus_eq, if_neg hf]
        decide
      have hends := Chip.afterArrival_ends (c := s.chip) (x := x) (bs := [.inp]) (by rw [hx]; rfl) (by rw [hx]; rfl)
        (by rw [hx]; rfl) hmoved
      have htrk : x.trk = s.chip.trk := by rw [hx]; rfl
      rw [Chip.trackTilt_still _ hstatus]
      exact ⟨by rw [← htrk]; exact hends.trk, hends.only.mono (by simp), hends.buz, hends.alarm, hends.heard⟩
  · obtain ⟨x, hx⟩ : ∃ x, x = (s.chip.mapLink Link.runEnded).mapInp
      (InputTable.arriveIncline ⟨int16 data 0, int16 data 2⟩ s.chip.tick) := ⟨_, rfl⟩
    have hmoved : s.chip.onlyChanges x [.link, .inp] := by rw [hx]; exact Chip.onlyChanges_arrival _ _ _
    have hpanel : x.panel = s.chip.panel := by rw [hx]; rfl
    obtain ⟨hinp, hbuz, halarm, hheard, honly⟩ := Chip.faultRefresh_ends (c := s.chip) (x := x)
      (bs' := [.link, .inp, .alarm, .panel]) (by rw [hx]; rfl) (by rw [hx]; rfl) hmoved (by simp)
    rw [← hx]
    refine ⟨hinp.trans ?_, honly, ?_, halarm, hheard⟩
    · rw [hx]
      simp only [Chip.mapInp, InputTable.arriveIncline, overInt_eq, ChanRec.arrive, ChanRec.lossAfter, if_true]
      rfl
    · unfold Chip.onlyBuzzer at hbuz ⊢
      rw [← hpanel]
      exact hbuz
  · obtain ⟨y, hy⟩ : ∃ y, y = (s.chip.mapLink Link.runEnded).mapInp
      (InputTable.arriveDrive (driveMsgOf data) s.chip.tick) := ⟨_, rfl⟩
    have hlights : y.nightChosen = (byteAt data 4).getLsbD 0 := by rw [hy]; rfl
    have hshadow := Chip.writeShadow_run (c := y) (by rw [hy]; simpa [Chip.inRun] using hears.inRun)
    rw [hlights] at hshadow
    obtain ⟨x, hx⟩ : ∃ x, x = y.writeShadow := ⟨_, rfl⟩
    have hmoved : s.chip.onlyChanges x [.link, .inp, .panel] := by
      have h1 : s.chip.onlyChanges y [.link, .inp] := by rw [hy]; exact Chip.onlyChanges_arrival _ _ _
      refine (h1.mono (by simp)).trans ?_
      intro b hb
      cases b <;> simp_all [Chip.sameAt]
    obtain ⟨hinp, hbuz, halarm, hheard, honly⟩ := Chip.faultRefresh_ends (c := s.chip) (x := x)
      (bs' := [.link, .inp, .alarm, .panel]) (by rw [hx, hshadow, hy]; rfl) (by rw [hx, hshadow, hy]; rfl) hmoved (by simp)
    rw [← hy, ← hx]
    refine ⟨hinp.trans ?_, ?_, honly, halarm, hheard⟩
    · rw [hx, hshadow, hy]
      exact s.chip.inp.arriveDrive_eq data s.chip.tick
    · unfold Chip.onlyBuzzer at hbuz
      rw [hbuz, hx, hshadow, hy]
      rfl

end Sys2Proof.Machine

/-! SUPPORT. A pressure arrival as it is recorded (R53, R57), for O13. -/

namespace Sys2Proof.Machine

set_option Elab.async false

theorem takeSeq_gap (seq : Byte) (r : ChanRec) :
    r.takeSeq seq = { r with prevSeq := some seq, gap := min 65535 (r.gap + missed r.prevSeq seq) } := by
  unfold ChanRec.takeSeq missed
  rfl

theorem InputTable.arrivePressure_eq (data : List Byte) (now : Tick) (t : InputTable) :
    t.arrivePressure (pressureMsgOf data) now = { t with
      pressure :=
        { freshness := if pressureStatus (nat8 data 5) = .ok then .fresh else .fault
          latestTick := some now
          latestStatus := some (pressureStatus (nat8 data 5))
          overRange := ⟨decide (40000 < nat16 data 1), decide (40000 < nat16 data 3), false⟩
          prevSeq := some (byteAt data 0)
          gap := min 65535 (t.pressure.gap + missed t.pressure.prevSeq (byteAt data 0))
          staleTimer := some now
          loss :=
            if pressureStatus (nat8 data 5) = .ok then .stopped
            else if t.pressure.freshness = .fresh then .running now
            else t.pressure.loss }
      held :=
        if pressureStatus (nat8 data 5) = .ok then
          { t.held with pressure := some ⟨min (nat16 data 1) 40000, min (nat16 data 3) 40000⟩ }
        else t.held } := by
  simp only [InputTable.arrivePressure, pressureMsgOf, takeSeq_gap, ChanRec.arrive, ChanRec.lossAfter, overNat]
  by_cases h : pressureStatus (nat8 data 5) = .ok
  · simp only [h, if_pos]
    rfl
  · simp only [h, if_neg, not_false_eq_true]
    rfl

theorem Engine.sample_shut (cfg : Cfg) (t : InputTable) (now : Tick) (e : Engine) (h : e.isOpen = false) :
    e.sample cfg t now = e := by
  simp only [Engine.sample, h]

theorem CalUnit.sample_noLift (cfg : Cfg) (t : InputTable) (now : Tick) (u : CalUnit) (h : u.liftOpen = false) :
    u.sample cfg t now = u := by
  simp only [CalUnit.sample, h]

/-- The part as the tracker takes a pressure. -/
structure PressureTaken (s : State) (data : List Byte) (x : Chip) : Prop where
  inp : x.inp = s.chip.inp.arrivePressure (pressureMsgOf data) s.chip.tick
  only : s.chip.onlyChanges x [.link, .inp, .eng, .cal]
  link : x.link = s.chip.link.runEnded
  eng : s.chip.eng.isOpen = false → x.eng = s.chip.eng
  cal : s.chip.cal.liftOpen = false → x.cal = s.chip.cal

theorem Chip.pressure_arrived {s : State} {src dst : Byte} {data : List Byte} (hears : s.chip.Hears src dst data)
    (hsrc : src.toNat = s.chip.cfg.srcPressure) (hlen : 6 ≤ data.length) :
    ∃ x : Chip, Chip.whenUp (Chip.receive 0x08 src dst data) s.chip
        = (x.trackPressure (pressureStatus (nat8 data 5))).afterArrival.settleLink ∧ PressureTaken s data x := by
  rw [Chip.pressure_path s src dst data hears hsrc hlen]
  refine ⟨_, rfl, rfl, ?_, rfl, fun h => ?_, fun h => ?_⟩
  · intro b hb
    cases b <;> simp_all [Chip.sameAt]
  · exact Engine.sample_shut _ _ _ _ h
  · exact CalUnit.sample_noLift _ _ _ _ h

/-- Settles O13: by what the tracker makes of the pressure. -/
theorem pressureIsRecorded : Obligations.PressureIsRecorded := by
  unfold Obligations.PressureIsRecorded
  intro s src dst data hears hsrc hlen
  refine gives_act _ s (Chip.whenUp (Chip.receive 0x08 src dst data)) _ rfl ?_
  obtain ⟨x, hx, hinp, honly, hlink, heng, hcal⟩ := Chip.pressure_arrived hears hsrc hlen
  have hpanel : x.panel = s.chip.panel := honly .panel (by simp)
  have halarm : x.alarm = s.chip.alarm := honly .alarm (by simp)
  have htrk : x.trk = s.chip.trk := honly .trk (by simp)
  have hstore : x.store = s.chip.store := honly .store (by simp)
  have htick : x.tick = s.chip.tick := honly .tick (by simp)
  obtain ⟨y, hy⟩ : ∃ y, y = x.trackPressure (pressureStatus (nat8 data 5)) := ⟨_, rfl⟩
  have hframe : y.afterArrival.settleLink.inp = x.inp ∧ y.afterArrival.settleLink.cal = x.cal
      ∧ y.afterArrival.settleLink.eng = x.eng ∧ y.afterArrival.settleLink.store = x.store := by
    rw [hy]
    simp [Chip.afterArrival]
  obtain ⟨finp, fcal, feng, fstore⟩ := hframe
  have hgen : x.onlyChanges y.afterArrival.settleLink [.link, .trk, .load, .role, .alarm, .panel] := by
    rw [hy]
    intro b hb
    cases b <;> simp_all [Chip.sameAt, Chip.afterArrival]
  rw [hx, ← hy]
  refine ⟨?_, (honly.mono (by simp)).trans (hgen.mono (by simp)), fun h => ?_, fun h => ?_, fun h => ?_⟩
  · rw [finp, hinp, InputTable.arrivePressure_eq]
  · have hdig : y.afterArrival.settleLink.inDig ↔ x.inDig := by
      unfold Chip.inDig Chip.cfg
      rw [finp, fstore]
    have hquiet : y = x.mapTrk fun t =>
        { t with
          fillTimer :=
            if t.cycle = .fill then x.fillAfter (pressureStatus (nat8 data 5) == .ok) (min (nat16 data 1) 40000)
            else t.fillTimer } := by
      rw [hy]
      refine Chip.trackPressure_quiet _ ⟨min (nat16 data 1) 40000, min (nat16 data 3) 40000⟩ x (fun hok => ?_) ?_
      · rw [hinp, InputTable.arrivePressure_eq]
        simp only [hok, if_pos, and_self]
      · rw [htrk, ← hdig]
        exact h
    have hfill (b : Bool) (ph : Nat) : x.fillAfter b ph = s.chip.fillAfter b ph := by
      unfold Chip.fillAfter Chip.cfg
      rw [htrk, hstore, htick]
    have hytrk : x.onlyChanges y [.trk] := by
      rw [hquiet]
      exact Chip.onlyChanges_mapTrk _ _
    have hylink : y.link = x.link := hytrk .link (by simp)
    have hypanel : y.panel = x.panel := hytrk .panel (by simp)
    have hyalarm : y.alarm = x.alarm := hytrk .alarm (by simp)
    have hyload : y.load = x.load := hytrk .load (by simp)
    have hyrole : y.role = x.role := hytrk .role (by simp)
    have hends := Chip.afterArrival_ends (c := s.chip) (x := y) (bs := [.inp, .eng, .trk, .cal])
      (hylink.trans hlink) (hypanel.trans hpanel) (hyalarm.trans halarm)
      ((honly.mono (by simp)).trans (hytrk.mono (by simp)))
    have hload : x.load = s.chip.load := honly .load (by simp)
    have hrole : x.role = s.chip.role := honly .role (by simp)
    refine ⟨hends.load.trans (hyload.trans hload), hends.role.trans (hyrole.trans hrole), ?_, hends.buz, hends.alarm, hends.heard⟩
    rw [hends.trk, hquiet]
    simp only [Chip.mapTrk, htrk, hfill]
  · rw [fcal, hcal h]
  · rw [feng, heng h]

end Sys2Proof.Machine

/-! SUPPORT. A pressure that opens a pass (R30), for O17. -/

namespace Sys2Proof.Machine

set_option Elab.async false

theorem lossAfter_of_not (s : Cycle) (f : Freshness) (t : Option Tick) (now : Tick) (h : s ≠ .weigh) (h' : s ≠ .carry) :
    lossAfter s f t now = none := by
  simp [lossAfter, h, h']

theorem Chip.trackPressure_digs {x : Chip} {v : PressureVal} (hheld : x.inp.held.pressure = some v)
    (hcyc : x.trk.cycle = .idle) (hdigs : x.digs v.ph = true) : x.trackPressure .ok = x.enterFill := by
  simp [Chip.trackPressure, hheld, hcyc, hdigs]

theorem Chip.enterFill_onlyChanges (x : Chip) :
    x.onlyChanges x.enterFill.afterArrival.settleLink [.link, .trk, .load, .role, .alarm, .panel] := by
  intro b hb
  cases b <;> simp_all [Chip.sameAt]

/-- The tracker with a pass that has just opened in one cycle state. -/
def Chip.passOpened (x : Chip) (cycle : Cycle) : Chip :=
  { x with trk := { x.trk with cycle := cycle, ctx := some (normalPass x.tick), fillTimer := none } }

/-- The end of an arrival that opened a pass. -/
theorem PressureTaken.opens {s : State} {data : List Byte} {x : Chip} (hx : PressureTaken s data x) {cycle : Cycle}
    (hw : cycle ≠ .weigh) (hc : cycle ≠ .carry) :
    s.chip.ArrivalEnds (x.passOpened cycle) (x.passOpened cycle).afterArrival.settleLink [.inp, .eng, .trk, .cal]
      ∧ (x.passOpened cycle).afterArrival.settleLink.trk
        = { s.chip.trk with
            cycle := cycle, ctx := some (normalPass s.chip.tick), fillTimer := none, lossPressure := none
            lossAngle := none } := by
  have hpanel : x.panel = s.chip.panel := hx.only .panel (by simp)
  have halarm : x.alarm = s.chip.alarm := hx.only .alarm (by simp)
  have htrk : x.trk = s.chip.trk := hx.only .trk (by simp)
  have htick : x.tick = s.chip.tick := hx.only .tick (by simp)
  have hopened : x.onlyChanges (x.passOpened cycle) [.trk] :=
    Chip.onlyChanges_mapTrk (fun t => { t with cycle := cycle, ctx := some (normalPass x.tick), fillTimer := none }) x
  have hends := Chip.afterArrival_ends (c := s.chip) (x := x.passOpened cycle) (bs := [.inp, .eng, .trk, .cal])
    hx.link hpanel halarm ((hx.only.mono (by simp)).trans (hopened.mono (by simp)))
  refine ⟨hends, hends.trk.trans ?_⟩
  simp only [Chip.lossTimed, Chip.passOpened, lossAfter_of_not _ _ _ _ hw hc, htrk, htick]

/-- Settles O17: by the entry to FILL. -/
theorem digOpensAPass : Obligations.DigOpensAPass := by
  unfold Obligations.DigOpensAPass
  intro s src dst data theta hears hsrc hlen hstatus hrole hidle hdig hfresh hangle hbelow
  refine gives_act _ s (Chip.whenUp (Chip.receive 0x08 src dst data)) _ rfl ?_
  obtain ⟨x, hx, htaken⟩ := Chip.pressure_arrived hears hsrc hlen
  have hok : pressureStatus (nat8 data 5) = .ok := by simp [pressureStatus, hstatus]
  have htrk : x.trk = s.chip.trk := htaken.only .trk (by simp)
  have hstore : x.store = s.chip.store := htaken.only .store (by simp)
  have hcfg : x.cfg = s.chip.cfg := by unfold Chip.cfg; rw [hstore]
  have htick : x.tick = s.chip.tick := htaken.only .tick (by simp)
  have hinp := htaken.inp
  rw [InputTable.arrivePressure_eq, hok] at hinp
  have hprimary : x.inp.primary = s.chip.inp.primary := by rw [hinp]
  have hheld : x.inp.held = { s.chip.inp.held with
      pressure := some ⟨min (nat16 data 1) 40000, min (nat16 data 3) 40000⟩ } := by rw [hinp]; rfl
  have htilt : x.inp.tilt = s.chip.inp.tilt := by rw [hinp]
  have hracked : x.isRacked ↔ s.chip.isRacked := by unfold Chip.isRacked; rw [htilt, hheld, hcfg]
  have hdumped : x.isDumped ↔ s.chip.isDumped := by unfold Chip.isDumped; rw [htilt, hheld, hcfg]
  have hfill : x.trackPressure .ok = x.enterFill := by
    refine Chip.trackPressure_digs (by rw [hheld]) (by rw [htrk, hidle]) ((Chip.digs_iff x _).mpr ?_)
    rw [hcfg, hprimary, hheld]
    exact ⟨hrole, hdig, hfresh, theta, hangle, hbelow⟩
  obtain ⟨hflat, hrack, hdump⟩ := x.enterFill_facts
  rw [hx, hok, hfill]
  refine ⟨fun hnot => ?_, fun hr hd => ?_, ?_, ?_⟩
  · by_cases hr : s.chip.isRacked
    · have he : x.enterFill = x.passOpened .lift := hrack (hracked.mpr hr) (fun h => hnot ⟨hr, hdumped.mp h⟩)
      obtain ⟨hends, htrk'⟩ := htaken.opens (cycle := .lift) (by decide) (by decide)
      rw [he, htrk']
      exact ⟨rfl, rfl, rfl, rfl, fun h => absurd hr h, fun _ => rfl, hends.buz, hends.only.mono (by simp)⟩
    · have he : x.enterFill = x.passOpened .fill := hflat (mt hracked.mp hr)
      obtain ⟨hends, htrk'⟩ := htaken.opens (cycle := .fill) (by decide) (by decide)
      rw [he, htrk']
      exact ⟨rfl, rfl, rfl, rfl, fun _ => rfl, fun h => absurd h hr, hends.buz, hends.only.mono (by simp)⟩
  · have he : x.enterFill = (x.passOpened .lift).enterDump := hdump (hracked.mpr hr) (hdumped.mpr hd)
    have hcloses : Closes (x.passOpened .lift).enterDump (x.enterFill.afterArrival.settleLink) := by
      rw [he, Chip.afterArrival, Chip.enterDump_syncLoss]
      exact Closes.refresh _
    obtain ⟨hcommitted, hsounds, -, -⟩ := Chip.enterDump_commits s.chip (x.passOpened .lift) _ _ rfl hears.inRun
      (htaken.only .load (by simp)) (htaken.only .role (by simp)) (htaken.only .panel (by simp))
      (htaken.only .alarm (by simp)) htick (htaken.only .sup (by simp)) hstore hcloses
    rw [← htaken.link, ← htick]
    exact ⟨hcommitted, hsounds⟩
  · have hv : x.enterFill.afterArrival.settleLink.trk.voids = x.trk.voids := by simp
    rw [hv, htrk]
  · exact (htaken.only.mono (by simp)).trans (x.enterFill_onlyChanges.mono (by simp))

end Sys2Proof.Machine

/-! SUPPORT. The timers that end a pass (R31, R37, R40), for O25. -/

namespace Sys2Proof.Machine

set_option Elab.async false

/-- A void that ends the pass: the tracker before the entry that follows it. -/
theorem Chip.voidPass_facts (r : VoidReason) (c : Chip) :
    c.voidPass r = { c with
      eng := if c.trk.cycle = .weigh then { c.eng with isOpen := false } else c.eng
      trk := { c.trk.without with voids := c.trk.voids.raise r } } := by
  unfold Chip.voidPass Chip.shutIfWeigh
  split <;> rfl

/-- A timer of the pass that returns the tracker to IDLE from a part that differs in tracker and engine. -/
theorem Chip.idles_timer {c : Chip} {t : Tracker} {bs : List Block} (e : Engine) (k : Tracker)
    (hk : k.without = t.without) (hv : k.voids = t.voids) (hbs : c.onlyChanges { c with eng := e, trk := k } bs)
    (hl : .link ∈ bs) (ht : .trk ∈ bs) : c.idles ({ c with eng := e, trk := k } : Chip).enterIdle.settleLink t c.link bs :=
  Chip.idles_of c { c with eng := e, trk := k } _ t c.link bs hk hv rfl rfl rfl rfl rfl rfl rfl rfl
    (fun b hb => hbs b hb) hl ht (Ends.settle _) (.inl ⟨rfl, rfl⟩)

/-- Settles O25: by the entry to IDLE that each timer makes. -/
theorem passTimersEndThePass : Obligations.PassTimersEndThePass := by
  unfold Obligations.PassTimersEndThePass
  intro s hup
  refine ⟨fun hcyc hdue => ?_, fun hcyc hdue => ?_, fun side hcyc hdue => ?_⟩
  · refine gives_whenUp _ s Chip.fillEmptyExpiry _ rfl hup ?_
    rw [Chip.fillEmptyExpiry, due_of_ranOut _ _ _ hdue, if_pos rfl]
    exact Chip.idles_timer s.chip.eng s.chip.trk rfl rfl (Chip.onlyChanges_refl _ _) (by simp) (by simp)
  · refine gives_whenUp _ s Chip.carryExpiry _ rfl hup ?_
    rw [Chip.carryExpiry, due_of_ranOut _ _ _ hdue, if_pos rfl, Chip.voidPass_facts, if_neg (by rw [hcyc]; decide)]
    exact Chip.idles_timer s.chip.eng _ rfl rfl (Chip.onlyChanges_mapTrk (fun _ => _) _ |>.mono (by simp)) (by simp)
      (by simp)
  · refine gives_whenUp _ s (Chip.inputLossExpiry side) _ rfl hup ?_
    have hend : s.chip.inputLossExpiry side = (s.chip.voidPass .inputLoss).enterIdle.settleLink := by
      unfold Chip.inputLossExpiry
      cases side <;> exact if_pos (due_of_ranOut _ _ _ hdue)
    rw [hend, Chip.voidPass_facts]
    refine ⟨Chip.idles_timer _ _ rfl rfl ?_ (by simp) (by simp), by simp⟩
    intro b hb
    cases b <;> simp_all [Chip.sameAt]

end Sys2Proof.Machine

/-! SUPPORT. Angles that end a window without a result or take the tracker to IDLE (R34, R37, R38), for O22. -/

namespace Sys2Proof.Machine

set_option Elab.async false

theorem crossesUp_eq_false {prev : Option Int} {theta x : Int} (h : theta < x) : crossesUp prev theta x = false := by
  unfold crossesUp
  cases prev with
  | none => rfl
  | some p => simp; omega

theorem PassCtx.unweigh_eq (x : PassCtx) : x.unweigh = x.weighedNot := rfl

/-- The context of a pass whose window is abandoned (R34). -/
theorem PassCtx.abandon_facts (x : PassCtx) (h : x.reweigh ≤ 2) :
    (x.reweigh < 2 → x.abandon = { x with reweigh := x.reweigh + 1 })
      ∧ (x.reweigh = 2 → x.abandon = { x with reweigh := 3 }.weighedNot) := by
  unfold PassCtx.abandon satAdd
  refine ⟨fun hx => ?_, fun hx => ?_⟩
  · have hmin : min 3 (x.reweigh + 1) = x.reweigh + 1 := by omega
    simp only [hmin]
    exact if_neg (by omega)
  · simp only [hx]
    exact if_pos (by decide)

/-- Committed at once, the abandoned pass of a candidate is UNWEIGHED whatever its count. -/
theorem PassCtx.abandon_committed (x : PassCtx) (h : x.reweigh ≤ 2) (hc : x.stage = .candidate) :
    (if x.abandon.stage = .candidate then x.abandon.weighedNot else x.abandon)
      = { x with reweigh := x.reweigh + 1 }.weighedNot := by
  obtain ⟨hlow, hhigh⟩ := x.abandon_facts h
  by_cases hx : x.reweigh < 2
  · rw [hlow hx]
    exact if_pos hc
  · have hx : x.reweigh = 2 := by omega
    rw [hhigh hx, hx]
    exact if_neg (by simp [PassCtx.weighedNot])

/-- A return to IDLE that a primary angle makes. -/
theorem AngleTaken.idles {s : State} {theta : Int} {c1 : Chip} (a : AngleTaken s theta c1) {t k : Tracker}
    (hk : k.without = t.without) (hv : k.voids = t.voids) :
    s.chip.idles ((({ c1 with trk := k } : Chip).enterIdle.syncLoss).refresh .inputFault).settleLink t
      s.chip.link.runEnded [.link, .inp, .trk, .cal, .alarm, .panel] := by
  rw [Chip.enterIdle_syncLoss]
  refine Chip.idles_of s.chip { c1 with trk := k } _ t _ _ hk hv a.load a.role a.panel a.alarm a.tick a.sup a.store
    a.link (fun b hb => ?_) (by simp) (by simp) (Ends.refresh _) (.inr ⟨by simp, by simp⟩)
  cases b <;> simp [Chip.sameAt] at hb ⊢
  · exact a.pins
  · exact a.sup
  · exact a.tick
  · exact a.eng
  · exact a.load
  · exact a.role
  · exact a.store

theorem Chip.angleInWeigh_below {c : Chip} {prev : Option Int} {theta : Int} {g : Latched} (hl : c.eng.latched = some g)
    (hs : theta < g.geom.thetaS) (hse : g.geom.thetaS < g.geom.thetaE) :
    c.angleInWeigh prev theta = c.abandonWindow := by
  have hw : c.latchedWindow = (g.geom.thetaS, g.geom.thetaE) := by simp [Chip.latchedWindow, hl]
  unfold Chip.angleInWeigh
  rw [hw, crossesUp_eq_false (by omega), if_neg (by simp), if_pos hs]

/-- A usable primary angle of a WEIGHER, seen from the tracker's transition. -/
theorem gives_angle {s : State} {src dst : Byte} {data : List Byte} {P : Chip → Prop} (hears : s.chip.Hears src dst data)
    (hsrc : src.toNat = s.chip.cfg.srcPrimary) (hlen : 4 ≤ data.length) (hstatus : nat8 data 3 = 0)
    (hrole : s.chip.cfg.role = .weigher) (hcyc : s.chip.trk.cycle ≠ .suspended)
    (h : ∀ c1, AngleTaken s (clampInt (-4500) 6000 (int16 data 1)) c1 →
      P (((c1.angleTransition s.chip.trk.prevAngle (clampInt (-4500) 6000 (int16 data 1))).syncLoss).refresh
        .inputFault).settleLink) : Gives (.boomAngle src dst data) s P := by
  refine gives_act _ s (Chip.whenUp (Chip.receive 0x09 src dst data)) _ rfl ?_
  obtain ⟨c1, hc1, a⟩ := Chip.angle_arrived s src dst data hears hsrc hlen hstatus hrole hcyc
  rw [hc1]
  exact h c1 a

/-- A window abandoned at the angle theta (R34). -/
theorem AngleTaken.abandons {s : State} {theta : Int} {c1 : Chip} (a : AngleTaken s theta c1) {x : PassCtx} {g : Latched}
    (hcyc : s.chip.trk.cycle = .weigh) (hctx : s.chip.trk.ctx = some x) (hl : s.chip.eng.latched = some g)
    (hs : theta < g.geom.thetaS) (hse : g.geom.thetaS < g.geom.thetaE) :
    c1.angleTransition s.chip.trk.prevAngle theta = ({ c1 with
      eng := s.chip.eng.shut, trk := { s.chip.trk with prevAngle := some theta, ctx := some x.abandon } } : Chip).enterLift := by
  have hcyc1 : c1.trk.cycle = .weigh := by rw [a.trk]; exact hcyc
  unfold Chip.angleTransition
  rw [hcyc1]
  show c1.angleInWeigh _ _ = _
  rw [Chip.angleInWeigh_below (by rw [a.eng, hl]) hs hse]
  unfold Chip.abandonWindow Chip.mapEng Chip.mapTrk Tracker.mapCtx
  rw [a.trk, a.eng, hctx]
  rfl

/-- Settles O22: by the entries to LIFT and to IDLE. -/
theorem fallingBelowAbandonsTheWindow : Obligations.FallingBelowAbandonsTheWindow := by
  unfold Obligations.FallingBelowAbandonsTheWindow
  intro s src dst data hears hsrc hlen hstatus hrole theta l now
  have ⟨_, hrun, _⟩ := hears
  refine ⟨fun x g hcyc hctx hre hlatch hbelow hwin => ?_, fun hcyc hdig => ?_, fun hcyc hdig => ?_⟩
  · refine gives_angle hears hsrc hlen hstatus hrole (by rw [hcyc]; decide) fun c1 a => ?_
    obtain ⟨t, ht⟩ : ∃ t : Tracker, t = { s.chip.trk with prevAngle := some theta, ctx := some x.abandon } := ⟨_, rfl⟩
    obtain ⟨hlift, hdump⟩ := Chip.enterLift_eq { c1 with eng := s.chip.eng.shut, trk := t } _ rfl
    have hvt : t.voids = s.chip.trk.voids := by rw [ht]
    have hct : t.ctx = some x.abandon := by rw [ht]
    rw [a.abandons hcyc hctx hlatch hbelow hwin, ← ht]
    by_cases hd : s.chip.isDumped
    · rw [hdump (a.dumped.mpr hd), Chip.enterDump_syncLoss]
      obtain ⟨hcommitted, hsounds, hvoids, -, heng, honly⟩ := a.dumps hrun _ _ x.abandon hct _ (Ends.refresh _)
      refine ⟨heng, hvoids.trans hvt, fun h => absurd hd h, fun _ hcand => ?_, honly⟩
      rw [x.abandon_committed hre hcand] at hcommitted hsounds
      exact ⟨hcommitted, hsounds⟩
    · rw [hlift (mt a.dumped.mp hd)]
      have hsync := a.sync s.chip.eng.shut { t with cycle := .lift, fillTimer := none }
      obtain ⟨htrk, heng, -, -, hbuz, -, honly⟩ := a.quiet _ _ _ (Ends.refresh _)
      rw [← hsync] at htrk heng hbuz honly
      obtain ⟨hlow, hhigh⟩ := x.abandon_facts hre
      refine ⟨heng, ?_, fun _ => ⟨?_, ?_, ?_, fun h => ?_, fun h => ?_, hbuz, honly⟩, fun h => absurd h hd,
        honly.mono (by simp)⟩
      · exact (congrArg Tracker.voids htrk).trans hvt
      · exact congrArg Tracker.cycle htrk
      · exact congrArg Tracker.lossPressure htrk
      · exact congrArg Tracker.lossAngle htrk
      · exact (congrArg Tracker.ctx htrk).trans (hct.trans (congrArg some (hlow h)))
      · exact (congrArg Tracker.ctx htrk).trans (hct.trans (congrArg some (hhigh h)))
  · refine gives_angle hears hsrc hlen hstatus hrole (by rw [hcyc]; decide) fun c1 a => ?_
    have hstep : c1.angleTransition s.chip.trk.prevAngle theta = (c1.voidPass .returned).enterIdle := by
      unfold Chip.angleTransition
      rw [a.trk]
      simp only [hcyc, a.cfg]
      exact if_pos hdig
    rw [hstep, Chip.voidPass_facts, a.trk, if_neg (by simp [hcyc])]
    exact a.idles rfl rfl
  · refine gives_angle hears hsrc hlen hstatus hrole (by rw [hcyc]; decide) fun c1 a => ?_
    have hstep : c1.angleTransition s.chip.trk.prevAngle theta = c1.enterIdle := by
      unfold Chip.angleTransition Chip.angleInReturn
      rw [a.trk]
      simp only [hcyc, a.cfg]
      exact if_pos hdig
    rw [hstep]
    exact a.idles (k := c1.trk) (by rw [a.trk]) (by rw [a.trk])

end Sys2Proof.Machine

/-! SUPPORT. A window opened at a crossing of θs, and one closed by the same angle (R2, R28, R32, R39), for O18 and O21. -/

namespace Sys2Proof.Machine

set_option Elab.async false

theorem crossesUp_eq_true {p theta x : Int} (h : p < x) (h' : x ≤ theta) : crossesUp (some p) theta x = true := by
  simp [crossesUp, h, h']

theorem crossesUp_some_iff {p theta x : Int} : crossesUp (some p) theta x = true ↔ p < x ∧ x ≤ theta := by
  simp [crossesUp]

/-- The engine as the part's settings open a window. -/
def Chip.openedEngine (c : Chip) : Engine :=
  Engine.openWindow c.cfg c.panel.settings.curveSet c.store.curves[c.panel.settings.curveSet]

theorem Chip.openedEngine_congr {c d : Chip} (hp : c.panel = d.panel) (hs : c.store = d.store) :
    c.openedEngine = d.openedEngine := by
  simp only [Chip.openedEngine, Chip.cfg, hp, hs]

/-- The tracker in WEIGH with the pass x. -/
def Tracker.weighing (t : Tracker) (x : PassCtx) : Tracker := { t with ctx := some x, cycle := .weigh, racked := false }

/-- The pass x with the index of the active curve set. -/
def Chip.indexed (c : Chip) (x : PassCtx) : PassCtx := { x with idx := some c.panel.settings.curveSet }

theorem Chip.enterWeigh_ctx {c : Chip} {x : PassCtx} (hx : c.trk.ctx = some x) :
    (¬c.isDumped → c.enterWeigh = { c with eng := c.openedEngine, trk := c.trk.weighing (c.indexed x) })
      ∧ (c.isDumped → c.enterWeigh = ({ c with
          eng := c.openedEngine.shut, trk := c.trk.weighing (c.indexed x).weighedNot } : Chip).enterDump) := by
  obtain ⟨hstay, hdump⟩ := c.enterWeigh_facts
  rw [hx] at hstay hdump
  exact ⟨hstay, hdump⟩

/-- A crossing of θs in a part with the pass x: the window it opens, shut again by a tilt at the dump angle, closed by a
crossing of a θe not below θs (R28). -/
theorem Chip.openAndCross_facts {c : Chip} {x : PassCtx} (hx : c.trk.ctx = some x) (prev : Option Int) (theta : Int) :
    let opened : Chip := { c with eng := c.openedEngine, trk := c.trk.weighing (c.indexed x) }
    let both := c.cfg.thetaS ≤ c.cfg.thetaE ∧ crossesUp prev theta c.cfg.thetaE = true
    (c.isDumped → c.openAndCross prev theta = ({ c with
        eng := c.openedEngine.shut, trk := c.trk.weighing (c.indexed x).weighedNot } : Chip).enterDump)
      ∧ (¬c.isDumped → ¬both → c.openAndCross prev theta = opened)
      ∧ (¬c.isDumped → both → c.openAndCross prev theta = opened.closeWindow) := by
  intro opened both
  obtain ⟨hstay, hdump⟩ := Chip.enterWeigh_ctx hx
  have hw : opened.latchedWindow = (c.cfg.thetaS, c.cfg.thetaE) := rfl
  have hcyc : opened.trk.cycle = .weigh := rfl
  unfold Chip.openAndCross
  refine ⟨fun hd => ?_, fun hd hb => ?_, fun hd hb => ?_⟩
  · rw [hdump hd]
    obtain ⟨hdumped, -⟩ := Chip.enterDump_trk
      { c with eng := c.openedEngine.shut, trk := c.trk.weighing (c.indexed x).weighedNot }
    simp [hdumped]
  · rw [hstay hd]
    refine if_neg ?_
    show ¬(opened.trk.cycle = .weigh && decide (opened.latchedWindow.1 ≤ opened.latchedWindow.2)
      && crossesUp prev theta opened.latchedWindow.2) = true
    rw [hw, hcyc]
    simpa using fun h => by simpa using fun h' => hb ⟨h, h'⟩
  · rw [hstay hd]
    refine if_pos ?_
    show (opened.trk.cycle = .weigh && decide (opened.latchedWindow.1 ≤ opened.latchedWindow.2)
      && crossesUp prev theta opened.latchedWindow.2) = true
    rw [hw, hcyc]
    simpa using hb

/-- A crossing of θs at an angle as the tracker takes it. -/
theorem AngleTaken.opens {s : State} {theta : Int} {c1 : Chip} (a : AngleTaken s theta c1) (hrun : s.chip.sup.power = .run)
    {x : PassCtx} {t : Tracker} (hx : t.ctx = some x) (prev : Option Int)
    (hnot : ¬(s.chip.cfg.thetaS ≤ s.chip.cfg.thetaE ∧ crossesUp prev theta s.chip.cfg.thetaE = true)) :
    let d := (((({ c1 with trk := t } : Chip).openAndCross prev theta).syncLoss).refresh .inputFault).settleLink
    let y := (s.chip.indexed x).weighedNot
    (¬s.chip.isDumped → s.chip.windowOpened d x
        ∧ d.trk.lossPressure = lossAfter .weigh s.chip.inp.pressure.freshness t.lossPressure s.chip.tick
        ∧ d.trk.lossAngle = none ∧ s.chip.onlyBuzzer d
        ∧ s.chip.onlyChanges d [.link, .inp, .eng, .trk, .cal, .alarm, .panel]
        ∧ d.trk.prevAngle = t.prevAngle ∧ d.trk.voids = t.voids ∧ d.trk.carryTimer = t.carryTimer ∧ d.load = s.chip.load
        ∧ d.role = s.chip.role ∧ d.trk.note = t.note)
      ∧ (s.chip.isDumped → s.chip.committed d y s.chip.link.runEnded ∧ s.chip.commitSounds d y
        ∧ d.eng.isOpen = false ∧ d.eng.last = none ∧ d.trk.prevAngle = t.prevAngle ∧ d.trk.voids = t.voids
        ∧ s.chip.onlyChanges d [.link, .inp, .eng, .trk, .load, .role, .cal, .alarm, .panel]) := by
  intro d y
  have hcfg : ({ c1 with trk := t } : Chip).cfg = s.chip.cfg := a.cfg
  obtain ⟨hdump, hopen, -⟩ := Chip.openAndCross_facts (c := { c1 with trk := t }) hx prev theta
  have hidx : ({ c1 with trk := t } : Chip).indexed x = s.chip.indexed x := by
    show ({ x with idx := some c1.panel.settings.curveSet } : PassCtx) = _
    rw [a.panel]
    rfl
  have heng : ({ c1 with trk := t } : Chip).openedEngine = s.chip.openedEngine :=
    Chip.openedEngine_congr a.panel a.store
  rw [hcfg, hidx, heng] at hopen
  rw [hidx, heng] at hdump
  refine ⟨fun hd => ?_, fun hd => ?_⟩
  · have hd' : d = ((({ c1 with eng := s.chip.openedEngine, trk := t.weighing (s.chip.indexed x) } : Chip).syncLoss).refresh
        .inputFault).settleLink := by
      show (((({ c1 with trk := t } : Chip).openAndCross prev theta).syncLoss).refresh .inputFault).settleLink = _
      rw [hopen (mt a.dumped.mp hd) hnot]
    rw [a.sync] at hd'
    obtain ⟨htrk, heng', hload, hrole, hbuz, -, honly⟩ := a.quiet _ _ _ (Ends.refresh _)
    rw [← hd'] at htrk heng' hload hrole hbuz honly
    refine ⟨Chip.windowOpened_of s.chip d x ?_ ?_ ?_ heng', ?_, ?_, hbuz, honly, ?_, ?_, ?_, hload, hrole, ?_⟩ <;> rw [htrk] <;> rfl
  · have hd' : d = ((({ c1 with
        eng := s.chip.openedEngine.shut, trk := t.weighing (s.chip.indexed x).weighedNot } : Chip).enterDump).refresh
        .inputFault).settleLink := by
      show (((({ c1 with trk := t } : Chip).openAndCross prev theta).syncLoss).refresh .inputFault).settleLink = _
      rw [hdump (a.dumped.mpr hd)]
      show (Chip.refresh _ (Chip.enterDump { c1 with
        eng := s.chip.openedEngine.shut, trk := t.weighing (s.chip.indexed x).weighedNot }).syncLoss).settleLink = _
      rw [Chip.enterDump_syncLoss]
    have hends : Ends ({ c1 with
        eng := s.chip.openedEngine.shut, trk := t.weighing (s.chip.indexed x).weighedNot } : Chip).enterDump d := by
      rw [hd']
      exact Ends.refresh _
    obtain ⟨hcommitted, hsounds, hvoids, hprev, heng', honly⟩ := a.dumps hrun _ (t.weighing (s.chip.indexed x).weighedNot)
      (s.chip.indexed x).weighedNot rfl d hends
    exact ⟨hcommitted, hsounds, by rw [heng']; rfl, by rw [heng']; rfl, hprev, hvoids, honly⟩

/-- θs is crossed in LIFT by a pass that is not UNWEIGHED, and no θe below it with it. -/
theorem Chip.angleInLift_opens {c : Chip} {prev : Option Int} {theta : Int} (hu : c.trk.isUnweighed = false)
    (hs : crossesUp prev theta c.cfg.thetaS = true)
    (he : ¬(crossesUp prev theta c.cfg.thetaE = true ∧ c.cfg.thetaE < c.cfg.thetaS)) :
    c.angleInLift prev theta = c.openAndCross prev theta := by
  unfold Chip.angleInLift
  refine if_pos ?_
  simp only [hu, hs, Bool.not_false, Bool.true_and, Bool.not_eq_true']
  exact Bool.eq_false_iff.mpr fun h => he (by simpa using h)

/-- θs is crossed in RETURN with the racked note set: a new REMAINDER (R39). -/
theorem Chip.angleInReturn_opens {c : Chip} {prev : Option Int} {theta : Int} (hdig : c.cfg.digAngle ≤ theta)
    (hr : c.trk.racked = true) (hs : crossesUp prev theta c.cfg.thetaS = true) :
    c.angleInReturn prev theta
      = (c.mapTrk fun t => { t with ctx := some { normalPass c.tick with kind := .remainder } }).openAndCross prev theta := by
  unfold Chip.angleInReturn
  rw [if_neg (Int.not_lt.mpr hdig), if_pos (by rw [hr, hs]; rfl)]
  rfl

theorem Tracker.isUnweighed_eq_false {t : Tracker} {x : PassCtx} (hx : t.ctx = some x) (h : x.stage ≠ .unweighed) :
    t.isUnweighed = false := by
  simp [Tracker.isUnweighed, hx, h]

/-- Settles O18: by the entry to WEIGH. -/
theorem crossingOpensTheWindow : Obligations.CrossingOpensTheWindow := by
  unfold Obligations.CrossingOpensTheWindow
  intro s src dst data p hears hsrc hlen hstatus hrole hprev hbelow hreach hside theta remainder opened
  have ⟨_, hrun, _⟩ := hears
  have hcross : crossesUp s.chip.trk.prevAngle theta s.chip.cfg.thetaS = true := by
    rw [hprev]
    exact crossesUp_eq_true hbelow hreach
  have hnot : ¬(s.chip.cfg.thetaS ≤ s.chip.cfg.thetaE
      ∧ crossesUp s.chip.trk.prevAngle theta s.chip.cfg.thetaE = true) := by
    rw [hprev, crossesUp_some_iff]
    rintro ⟨h, -, h'⟩
    rcases hside with hs | hs
    · exact absurd h' (Int.not_le.mpr hs)
    · exact absurd h (Int.not_le.mpr hs)
  have hopens (c1 : Chip) (a : AngleTaken s theta c1) (x : PassCtx) :
      opened x (((({ c1 with trk := { s.chip.trk with prevAngle := some theta, ctx := some x } } : Chip).openAndCross
        s.chip.trk.prevAngle theta).syncLoss).refresh .inputFault).settleLink := by
    obtain ⟨hopen, hdump⟩ := a.opens hrun (t := { s.chip.trk with prevAngle := some theta, ctx := some x }) rfl
      s.chip.trk.prevAngle hnot
    by_cases hd : s.chip.isDumped
    · obtain ⟨hcommitted, hsounds, hshut, hlast, hangle, hvoids, honly⟩ := hdump hd
      exact ⟨fun h => absurd hd h, fun _ => ⟨hcommitted, hsounds, hshut, hlast⟩, hangle, hvoids, honly⟩
    · obtain ⟨hwin, hpres, hang, hbuz, honly, hangle, hvoids, -⟩ := hopen hd
      exact ⟨fun _ => ⟨hwin, hpres, hang, hbuz, honly⟩, fun h => absurd h hd, hangle, hvoids, honly.mono (by simp)⟩
  refine ⟨fun x hcyc hctx hstage hfirst => ?_, fun hcyc hracked hdig => ?_⟩
  · refine gives_angle hears hsrc hlen hstatus hrole (by rw [hcyc]; decide) fun c1 a => ?_
    have hctx1 : c1.trk.ctx = some x := by rw [a.trk]; exact hctx
    have hcyc1 : c1.trk.cycle = .lift := by rw [a.trk]; exact hcyc
    have hstep : c1.angleTransition s.chip.trk.prevAngle theta
        = ({ c1 with trk := { s.chip.trk with prevAngle := some theta, ctx := some x } } : Chip).openAndCross
          s.chip.trk.prevAngle theta := by
      unfold Chip.angleTransition
      rw [hcyc1]
      refine (Chip.angleInLift_opens (Tracker.isUnweighed_eq_false hctx1 hstage) (by rw [a.cfg]; exact hcross) ?_).trans ?_
      · rw [a.cfg, hprev, crossesUp_some_iff]
        rintro ⟨⟨h, h'⟩, -⟩
        exact absurd (hfirst h) (Int.not_lt.mpr h')
      · rw [← hctx, ← a.trk]
    rw [hstep]
    exact hopens c1 a x
  · refine gives_angle hears hsrc hlen hstatus hrole (by rw [hcyc]; decide) fun c1 a => ?_
    have hcyc1 : c1.trk.cycle = .ret := by rw [a.trk]; exact hcyc
    have hstep : c1.angleTransition s.chip.trk.prevAngle theta
        = ({ c1 with trk := { s.chip.trk with prevAngle := some theta, ctx := some remainder } } : Chip).openAndCross
          s.chip.trk.prevAngle theta := by
      unfold Chip.angleTransition
      rw [hcyc1]
      refine (Chip.angleInReturn_opens (by rw [a.cfg]; exact hdig) (by rw [a.trk]; exact hracked)
        (by rw [a.cfg]; exact hcross)).trans ?_
      rw [Chip.mapTrk, a.trk, a.tick]
    rw [hstep]
    exact hopens c1 a remainder

end Sys2Proof.Machine

/-! SUPPORT. The entry to CARRY at an angle, the window closed with its result, and the amendment of the noted pass
(R20-R25, R32, R33, R44, R45), for O21. -/

namespace Sys2Proof.Machine

set_option Elab.async false

/-! ## The entry to CARRY -/

/-- The primary angle an arrival has left is not below the dig angle. -/
theorem AngleTaken.not_lowered {s : State} {theta : Int} {c1 : Chip} (a : AngleTaken s theta c1)
    (hdig : s.chip.cfg.digAngle ≤ theta) :
    ¬freshAnd c1.inp.primary c1.inp.held.primary (fun x => x < c1.cfg.digAngle) := by
  rintro ⟨-, x, hx, hlt⟩
  rw [a.angle, Option.some.injEq] at hx
  rw [a.cfg, ← hx] at hlt
  exact absurd hlt (Int.not_lt.mpr hdig)

/-- The tracker just in CARRY. -/
def Chip.carrying (c : Chip) (t : Tracker) : Tracker := { t with cycle := .carry, carryTimer := some c.tick }

/-- An angle's transition that ends in CARRY without a remainder to judge. -/
theorem AngleTaken.enterCarry {s : State} {theta : Int} {c1 : Chip} (a : AngleTaken s theta c1)
    (hrun : s.chip.sup.power = .run) (hdig : s.chip.cfg.digAngle ≤ theta) (e : Engine) {t : Tracker} {y : PassCtx}
    (hy : t.ctx = some y) (hjudge : ¬(y.kind = .remainder ∧ y.payload.isSome = true)) (hstage : y.stage ≠ .candidate) :
    let d := (((({ c1 with eng := e, trk := t } : Chip).enterCarry).syncLoss).refresh .inputFault).settleLink
    (¬s.chip.isDumped → d.trk = { s.chip.carrying t with
          lossPressure := lossAfter .carry s.chip.inp.pressure.freshness t.lossPressure s.chip.tick, lossAngle := none }
        ∧ d.eng = e ∧ d.load = s.chip.load ∧ d.role = s.chip.role ∧ s.chip.onlyBuzzer d ∧ s.chip.onlyHeard d
        ∧ s.chip.onlyChanges d [.link, .inp, .eng, .trk, .cal, .alarm, .panel])
      ∧ (s.chip.isDumped → s.chip.committed d y s.chip.link.runEnded ∧ s.chip.commitSounds d y ∧ d.trk.voids = t.voids
        ∧ d.eng = e ∧ s.chip.onlyChanges d [.link, .inp, .eng, .trk, .load, .role, .cal, .alarm, .panel]) := by
  intro d
  obtain ⟨hplain, -, -⟩ := Chip.enterCarry_facts { c1 with eng := e, trk := t } y hy (a.not_lowered hdig)
  obtain ⟨hstay, hdump⟩ := hplain hjudge
  have hcarry : ({ c1 with eng := e, trk := t } : Chip).carrying t = s.chip.carrying t := by
    show ({ t with cycle := .carry, carryTimer := some c1.tick } : Tracker) = _
    rw [a.tick]
    rfl
  refine ⟨fun hd => ?_, fun hd => ?_⟩
  · have hd' : d = ((({ c1 with eng := e, trk := s.chip.carrying t } : Chip).syncLoss).refresh .inputFault).settleLink := by
      show (((({ c1 with eng := e, trk := t } : Chip).enterCarry).syncLoss).refresh .inputFault).settleLink = _
      rw [hstay (mt a.dumped.mp hd), ← hcarry]
      rfl
    rw [a.sync] at hd'
    obtain ⟨htrk, heng, hload, hrole, hbuz, hheard, honly⟩ := a.quiet _ _ _ (Ends.refresh _)
    rw [← hd'] at htrk heng hload hrole hbuz hheard honly
    exact ⟨htrk, heng, hload, hrole, hbuz, hheard, honly⟩
  · have hends : Ends ({ c1 with eng := e, trk := s.chip.carrying t } : Chip).enterDump d := by
      show Ends _ (((({ c1 with eng := e, trk := t } : Chip).enterCarry).syncLoss).refresh .inputFault).settleLink
      rw [hdump (a.dumped.mpr hd), Chip.enterDump_syncLoss, ← hcarry]
      exact Ends.refresh _
    obtain ⟨hcommitted, hsounds, hvoids, -, heng, honly⟩ := a.dumps hrun e (s.chip.carrying t) y hy d hends
    rw [if_neg hstage] at hcommitted hsounds
    exact ⟨hcommitted, hsounds, hvoids, heng, honly⟩

/-- What a command that takes the pass y to CARRY leaves: the pass there, or committed at the dump angle. -/
def Chip.carriesTo (c d : Chip) (y : PassCtx) : Prop :=
  (¬c.isDumped → d.trk.cycle = .carry ∧ d.trk.ctx = some y ∧ d.trk.carryTimer = some c.tick
      ∧ d.trk.lossPressure = lossAfter .carry c.inp.pressure.freshness c.trk.lossPressure c.tick
      ∧ d.trk.lossAngle = none ∧ d.trk.note = c.trk.note ∧ d.load = c.load ∧ d.role = c.role
      ∧ c.onlyBuzzer d ∧ c.onlyHeard d)
    ∧ (c.isDumped → c.committed d y c.link.runEnded ∧ c.commitSounds d y)
    ∧ d.trk.voids = c.trk.voids
    ∧ c.onlyChanges d [.link, .inp, .eng, .trk, .load, .role, .cal, .alarm, .panel]

theorem AngleTaken.carries {s : State} {theta : Int} {c1 : Chip} (a : AngleTaken s theta c1)
    (hrun : s.chip.sup.power = .run) (hdig : s.chip.cfg.digAngle ≤ theta) (e : Engine) {t : Tracker} {y : PassCtx}
    (hy : t.ctx = some y) (hjudge : ¬(y.kind = .remainder ∧ y.payload.isSome = true)) (hstage : y.stage ≠ .candidate)
    (hloss : t.lossPressure = s.chip.trk.lossPressure) (hnote : t.note = s.chip.trk.note)
    (hvoids : t.voids = s.chip.trk.voids) :
    let d := (((({ c1 with eng := e, trk := t } : Chip).enterCarry).syncLoss).refresh .inputFault).settleLink
    s.chip.carriesTo d y ∧ d.eng = e := by
  intro d
  obtain ⟨hstay, hdump⟩ := a.enterCarry hrun hdig e hy hjudge hstage
  by_cases hd : s.chip.isDumped
  · obtain ⟨hcommitted, hsounds, hv, heng, honly⟩ := hdump hd
    exact ⟨⟨fun h => absurd hd h, fun _ => ⟨hcommitted, hsounds⟩, hv.trans hvoids, honly⟩, heng⟩
  · obtain ⟨htrk, heng, hload, hrole, hbuz, hheard, honly⟩ := hstay hd
    have htrk : d.trk = _ := htrk
    refine ⟨⟨fun _ => ?_, fun h => absurd h hd, ?_, honly.mono (by simp)⟩, heng⟩
    · rw [htrk]
      exact ⟨rfl, hy, rfl, by rw [hloss], rfl, hnote, hload, hrole, hbuz, hheard⟩
    · rw [htrk]
      exact hvoids

/-! ## The window closed -/

theorem Chip.closeWindow_eq {c : Chip} {x : PassCtx} {w : WindowResult} {e : Engine} (hx : c.trk.ctx = some x)
    (hclose : c.eng.close c.cfg c.panel.settings.trim = (w, e)) :
    c.closeWindow
      = ({ c with eng := e, trk := { c.trk with ctx := some (x.takeResult w) } } : Chip).enterCarry := by
  unfold Chip.closeWindow
  rw [hclose]
  simp only [Chip.mapTrk, Tracker.mapCtx, hx, Option.map_some]

theorem Engine.close_open {e : Engine} {l : Latched} (ho : e.isOpen = true) (hl : e.latched = some l) (cfg : Cfg)
    (trim : Int) :
    e.close cfg trim = (e.result cfg trim l, { e with isOpen := false, last := some (e.result cfg trim l) }) := by
  simp only [Engine.close, ho, hl]

theorem PassCtx.takeResult_rejected (x : PassCtx) (i : Fin 4) :
    x.takeResult (WindowResult.rejected 0 i) = { x with idx := some i }.weighedNot := rfl

/-- A window opened and closed by one angle: REJECT with 0 bins. -/
theorem AngleTaken.opensAndCloses {s : State} {theta : Int} {c1 : Chip} (a : AngleTaken s theta c1)
    (hrun : s.chip.sup.power = .run) (hdig : s.chip.cfg.digAngle ≤ theta) (hbins : 1 ≤ s.chip.cfg.minBins)
    {x : PassCtx} {t : Tracker} (hx : t.ctx = some x) (prev : Option Int)
    (hboth : s.chip.cfg.thetaS ≤ s.chip.cfg.thetaE ∧ crossesUp prev theta s.chip.cfg.thetaE = true) :
    let d := (((({ c1 with trk := t } : Chip).openAndCross prev theta).syncLoss).refresh .inputFault).settleLink
    let y := (s.chip.indexed x).weighedNot
    (¬s.chip.isDumped → d.trk = { s.chip.carrying { t with ctx := some y, racked := false } with
          lossPressure := lossAfter .carry s.chip.inp.pressure.freshness t.lossPressure s.chip.tick, lossAngle := none }
        ∧ d.eng = { s.chip.openedEngine with
            isOpen := false, last := some (WindowResult.rejected 0 s.chip.panel.settings.curveSet) }
        ∧ d.load = s.chip.load ∧ d.role = s.chip.role ∧ s.chip.onlyBuzzer d ∧ s.chip.onlyHeard d
        ∧ s.chip.onlyChanges d [.link, .inp, .eng, .trk, .cal, .alarm, .panel])
      ∧ (s.chip.isDumped → s.chip.committed d y s.chip.link.runEnded ∧ s.chip.commitSounds d y ∧ d.trk.voids = t.voids
        ∧ d.eng.isOpen = false ∧ s.chip.onlyChanges d [.link, .inp, .eng, .trk, .load, .role, .cal, .alarm, .panel]) := by
  intro d y
  have hcfg : ({ c1 with trk := t } : Chip).cfg = s.chip.cfg := a.cfg
  obtain ⟨hdump, -, hclose⟩ := Chip.openAndCross_facts (c := { c1 with trk := t }) hx prev theta
  have hidx : ({ c1 with trk := t } : Chip).indexed x = s.chip.indexed x := by
    show ({ x with idx := some c1.panel.settings.curveSet } : PassCtx) = _
    rw [a.panel]
    rfl
  have heng : ({ c1 with trk := t } : Chip).openedEngine = s.chip.openedEngine := Chip.openedEngine_congr a.panel a.store
  rw [hcfg, hidx, heng] at hclose
  rw [hidx, heng] at hdump
  refine ⟨fun hd => ?_, fun hd => ?_⟩
  · obtain ⟨c2, hc2⟩ : ∃ c2 : Chip, c2 = { c1 with
        eng := s.chip.openedEngine, trk := t.weighing (s.chip.indexed x) } := ⟨_, rfl⟩
    have hshut : c2.closeWindow = ({ c1 with
        eng := { s.chip.openedEngine with
          isOpen := false, last := some (WindowResult.rejected 0 s.chip.panel.settings.curveSet) }
        trk := { t with cycle := .weigh, ctx := some y, racked := false } } : Chip).enterCarry := by
      have hctx2 : c2.trk.ctx = some (s.chip.indexed x) := by rw [hc2]; rfl
      have hclosed : c2.eng.close c2.cfg c2.panel.settings.trim
          = (WindowResult.rejected 0 s.chip.panel.settings.curveSet, { s.chip.openedEngine with
            isOpen := false, last := some (WindowResult.rejected 0 s.chip.panel.settings.curveSet) }) := by
        have hcfg2 : c2.cfg = s.chip.cfg := by rw [hc2]; exact a.cfg
        have hpanel2 : c2.panel = s.chip.panel := by rw [hc2]; exact a.panel
        have heng2 : c2.eng = s.chip.openedEngine := by rw [hc2]
        rw [hcfg2, hpanel2, heng2]
        exact Engine.openWindow_close _ _ _ _ hbins
      have htrk2 : c2.trk = t.weighing (s.chip.indexed x) := by rw [hc2]
      rw [Chip.closeWindow_eq hctx2 hclosed, htrk2, PassCtx.takeResult_rejected, hc2]
      rfl
    have hd' : d = (((({ c1 with
        eng := { s.chip.openedEngine with
          isOpen := false, last := some (WindowResult.rejected 0 s.chip.panel.settings.curveSet) }
        trk := { t with cycle := .weigh, ctx := some y, racked := false } } : Chip).enterCarry).syncLoss).refresh
        .inputFault).settleLink := by
      show (((({ c1 with trk := t } : Chip).openAndCross prev theta).syncLoss).refresh .inputFault).settleLink = _
      rw [hclose (mt a.dumped.mp hd) hboth, ← hshut, hc2]
    obtain ⟨hstay, -⟩ := a.enterCarry hrun hdig { s.chip.openedEngine with
      isOpen := false, last := some (WindowResult.rejected 0 s.chip.panel.settings.curveSet) }
      (t := { t with cycle := .weigh, ctx := some y, racked := false }) (y := y) rfl (by simp [y, PassCtx.weighedNot])
      (by simp [y, PassCtx.weighedNot])
    rw [← hd'] at hstay
    exact hstay hd
  · have hends : Ends ({ c1 with
        eng := s.chip.openedEngine.shut, trk := t.weighing y } : Chip).enterDump d := by
      show Ends _ (((({ c1 with trk := t } : Chip).openAndCross prev theta).syncLoss).refresh .inputFault).settleLink
      rw [hdump (a.dumped.mpr hd)]
      show Ends _ (((Chip.enterDump { c1 with
        eng := s.chip.openedEngine.shut, trk := t.weighing (s.chip.indexed x).weighedNot }).syncLoss).refresh _).settleLink
      rw [Chip.enterDump_syncLoss]
      exact Ends.refresh _
    obtain ⟨hcommitted, hsounds, hvoids, -, heng', honly⟩ := a.dumps hrun _ (t.weighing y) y rfl d hends
    exact ⟨hcommitted, hsounds, hvoids, by rw [heng']; rfl, honly⟩

end Sys2Proof.Machine

/-! SUPPORT. The amendment of the noted pass by a remainder (R45), for O21. -/

namespace Sys2Proof.Machine

set_option Elab.async false

/-- The pass that an amendment by r leaves. -/
theorem PassRec.amend_eq (p : PassRec) {prev : Nat} (hp : p.payload = some prev) (r rated : Nat) :
    p.amend (min prev r) rated
      = { p with payload := some (prev - r), fill := some (fillOf (prev - r) rated), amended := true } := by
  have hsub : prev - min prev r = prev - r := by omega
  simp only [PassRec.amend, hp, Option.map_some, hsub]

/-- Nothing noted that a remainder could amend. -/
theorem Chip.amend_still_of {c : Chip} (r : Nat)
    (h : ∀ n, c.trk.note = some n → n.pass.payload = none ∨ n.amended = true) : c.amend r = c := by
  unfold Chip.amend
  cases hn : c.trk.note with
  | none => rfl
  | some n =>
    cases hp : n.pass.payload with
    | none => simp only [hp]
    | some v =>
      have ha : n.amended = true := (h n hn).resolve_left (by simp [hp])
      simp only [hp, ha]

/-- An amendment of the noted pass (R45). -/
theorem Chip.amend_facts {c : Chip} {n : Note} {prev : Nat} (r : Nat) (hrun : c.inRun = true)
    (hn : c.trk.note = some n) (hp : n.pass.payload = some prev) (ha : n.amended = false) :
    let q := n.pass.amend (min prev r) c.cfg.rated
    let d := c.amend r
    d.trk = { c.trk with
        ctx := c.trk.ctx.map fun x => { x with amendMade := true }
        note := some { n with pass := q, amended := true } }
      ∧ d.load.shift = { c.load.shift with tonnage := c.load.shift.tonnage - min prev r }
      ∧ d.load.life = { c.load.life with tonnage := c.load.life.tonnage - min prev r }
      ∧ d.load.history = c.load.history
      ∧ (n.isRecord = false → d.load.record = c.load.record ∧ d.load.seq = c.load.seq ∧ d.role = c.role ∧ d.link = c.link)
      ∧ (n.isRecord = true → ∀ k, c.load.record = some k →
          d.load.record = some ((k.amend q (min prev r)).evaluate c.cfg) ∧ d.load.seq = c.load.seq + 1
            ∧ d.role = { c.role with mirrored := false } ∧ d.link = d.sends c.link [passTelegram q])
      ∧ d.role = { c.role with mirrored := d.role.mirrored } := by
  intro q d
  obtain ⟨x, hx⟩ : ∃ x, x = c.mapLoad (LoadRegister.lowerTonnage (min prev r)) := ⟨_, rfl⟩
  have hxrun : x.inRun = true := by rw [hx]; exact hrun
  obtain ⟨y, hy⟩ : ∃ y, y = if n.isRecord then x.amendRecord q (min prev r) else x := ⟨_, rfl⟩
  have hd : d = y.mapTrk fun t =>
      { t.mapCtx (fun x => { x with amendMade := true }) with note := some { n with pass := q, amended := true } } := by
    rw [hy, hx]
    show c.amend r = _
    unfold Chip.amend
    simp only [hn, hp, ha]
    rfl
  have htrk : y.trk = c.trk := by rw [hy, hx]; split <;> simp
  have hload : y.load.shift = x.load.shift ∧ y.load.life = x.load.life ∧ y.load.history = x.load.history := by
    rw [hy]
    split <;> simp
  obtain ⟨hshift, hlife, hhist⟩ := hload
  have hdtrk : d.trk = { c.trk with
      ctx := c.trk.ctx.map fun x => { x with amendMade := true }
      note := some { n with pass := q, amended := true } } := by
    rw [hd, ← htrk]
    rfl
  have hdload : d.load = y.load := by rw [hd]; rfl
  have hdrole : d.role = y.role := by rw [hd]; rfl
  have hdlink : d.link = y.link := by rw [hd]; rfl
  have hxrest : x.load.record = c.load.record ∧ x.load.seq = c.load.seq ∧ x.role = c.role ∧ x.link = c.link
      ∧ x.cfg = c.cfg := by
    rw [hx]
    exact ⟨rfl, rfl, rfl, rfl, rfl⟩
  obtain ⟨hxrec, hxseq, hxrole, hxlink, hxcfg⟩ := hxrest
  have hxload : x.load = c.load.lowerTonnage (min prev r) := by rw [hx]; rfl
  refine ⟨hdtrk, ?_, ?_, ?_, fun hr => ?_, fun hr k hk => ?_, ?_⟩
  · rw [hdload, hshift, hxload]
    rfl
  · rw [hdload, hlife, hxload]
    rfl
  · rw [hdload, hhist, hxload]
    rfl
  · have hyx : y = x := by rw [hy, hr]; rfl
    rw [hdload, hdrole, hdlink, hyx]
    exact ⟨hxrec, hxseq, hxrole, hxlink⟩
  · have hyx : y = x.amendRecord q (min prev r) := by rw [hy, hr]; rfl
    have hk : x.load.record = some k := hxrec.trans hk
    obtain ⟨hrec, hlink⟩ := Chip.amendRecord_link q (min prev r) x k hk hxrun
    obtain ⟨hseq, -⟩ := Chip.amendRecord_load q (min prev r) x k hk
    have hrole := Chip.amendRecord_role q (min prev r) x k hk
    rw [← hyx] at hrec hlink hseq hrole
    refine ⟨by rw [hdload, hrec, hxcfg], by rw [hdload, hseq, hxseq], by rw [hdrole, hrole, hxrole], ?_⟩
    rw [hdlink, hlink, hxlink]
    exact Chip.sends_congr _ _ _ _ (by rw [hdrole]) (by rw [hdload]) (by rw [hdload])
  · rw [hdrole, hy]
    split
    · cases hk : x.load.record with
      | none => simp only [Chip.amendRecord, hk, hxrole]
      | some k => rw [Chip.amendRecord_role _ _ _ k hk, hxrole]
    · rw [hxrole]

end Sys2Proof.Machine

/-! SUPPORT. A window closed at θe (R20-R25, R33, R44, R45), for O21. -/

namespace Sys2Proof.Machine

set_option Elab.async false

theorem gradeOf_ne_reject (rough : Nat) : gradeOf rough ≠ .reject := by
  unfold gradeOf
  split
  · decide
  · split <;> decide

/-- The result of a window as the pass takes it, by whether it has the bins. -/
theorem Engine.result_facts (cfg : Cfg) (trim : Int) (l : Latched) (e : Engine) (x : PassCtx) :
    let w := e.result cfg trim l
    (e.populated.length < cfg.minBins → w.payload = none ∧ (x.takeResult w).stage = .unweighed)
      ∧ (¬e.populated.length < cfg.minBins → (x.takeResult w).stage = .weighed
        ∧ w.payload = some (clampInt 0 9999 (rawPayload l.set.mref e.populated + trim)).toNat) := by
  unfold Engine.result
  refine ⟨fun h => ?_, fun h => ?_⟩
  · rw [if_pos h]
    exact ⟨rfl, rfl⟩
  · rw [if_neg h]
    exact ⟨if_neg (gradeOf_ne_reject _), rfl⟩

/-- The engine with its window closed by the result w. -/
def Engine.closedBy (e : Engine) (w : WindowResult) : Engine := { e with isOpen := false, last := some w }

/-- The blocks that an angle of the tracker can change. -/
theorem AngleTaken.onlyChanges {s : State} {theta : Int} {c1 : Chip} (a : AngleTaken s theta c1) (prev : Option Int) :
    s.chip.onlyChanges ((((c1.angleTransition prev theta).syncLoss).refresh .inputFault).settleLink)
      [.link, .inp, .eng, .trk, .load, .role, .cal, .alarm, .panel] := by
  intro b hb
  cases b <;> simp [Chip.sameAt] at hb ⊢
  · exact a.pins
  · exact a.sup
  · exact a.tick
  · exact a.store

/-- A crossing of the latched θe in WEIGH: the window closed into CARRY; where that ends in RETURN, a θs not below that θe
is tested there (R28, R33). -/
theorem AngleTaken.closes {s : State} {theta : Int} {c1 : Chip} (a : AngleTaken s theta c1) {x : PassCtx} {l : Latched}
    (hcyc : s.chip.trk.cycle = .weigh) (hctx : s.chip.trk.ctx = some x) (ho : s.chip.eng.isOpen = true)
    (hl : s.chip.eng.latched = some l) {prev : Option Int} (hcross : crossesUp prev theta l.geom.thetaE = true) :
    let w := s.chip.eng.result s.chip.cfg s.chip.panel.settings.trim l
    let k : Chip := { c1 with
      eng := s.chip.eng.closedBy w
      trk := { s.chip.trk with prevAngle := some theta, ctx := some (x.takeResult w) } }
    c1.angleTransition prev theta =
      if k.enterCarry.trk.cycle = .ret ∧ l.geom.thetaE ≤ s.chip.cfg.thetaS then k.enterCarry.angleInReturn prev theta
      else k.enterCarry := by
  intro w k
  have hcyc1 : c1.trk.cycle = .weigh := by rw [a.trk]; exact hcyc
  have hwin : c1.latchedWindow.2 = l.geom.thetaE := by simp [Chip.latchedWindow, a.eng, hl]
  have hclosed : c1.eng.close c1.cfg c1.panel.settings.trim = (w, s.chip.eng.closedBy w) := by
    rw [a.eng, a.cfg, a.panel]
    exact Engine.close_open ho hl _ _
  have hclose : c1.closeWindow = k.enterCarry := by
    rw [Chip.closeWindow_eq (by rw [a.trk]; exact hctx) hclosed, a.trk]
  have hcfg : k.enterCarry.cfg = s.chip.cfg := by
    rw [← a.cfg]
    unfold Chip.cfg
    simp [k]
  unfold Chip.angleTransition
  rw [hcyc1]
  show c1.angleInWeigh prev theta = _
  unfold Chip.angleInWeigh
  rw [hwin, hcross, if_pos rfl, hclose]
  simp only [hcfg, Bool.and_eq_true, decide_eq_true_eq]

/-- The tracker after a void EMPTY in CARRY. -/
def Tracker.emptied (t : Tracker) (racked : Bool) : Tracker :=
  { t.without with cycle := .ret, racked := racked, voids := t.voids.raise .empty }

/-- The entry to CARRY at an angle, by what the pass is. -/
theorem AngleTaken.enterCarry_cases {s : State} {theta : Int} {c1 : Chip} (a : AngleTaken s theta c1)
    (hdig : s.chip.cfg.digAngle ≤ theta) (e : Engine) {t : Tracker} {y : PassCtx} (hy : t.ctx = some y) :
    let k : Chip := { c1 with eng := e, trk := t }
    let carry : Chip := { c1 with eng := e, trk := s.chip.carrying t }
    (¬(y.kind = .remainder ∧ y.payload.isSome = true) → k.enterCarry.trk.cycle ≠ .ret)
      ∧ (∀ r, y.kind = .remainder → y.payload = some r → r < s.chip.cfg.residual →
          ∃ b, (b = true ↔ s.chip.isRacked ∧ ¬s.chip.isDumped)
            ∧ k.enterCarry = { c1 with eng := e, trk := t.emptied b })
      ∧ (∀ r, y.kind = .remainder → y.payload = some r → ¬r < s.chip.cfg.residual →
          (¬s.chip.isDumped → k.enterCarry = carry.amend r) ∧ (s.chip.isDumped → k.enterCarry = (carry.amend r).enterDump)) := by
  intro k carry
  have hcarry : carry = { k with trk := { k.trk with cycle := .carry, carryTimer := some k.tick } } := by
    show ({ c1 with eng := e, trk := { t with cycle := .carry, carryTimer := some s.chip.tick } } : Chip) = _
    rw [← a.tick]
  have hdumped : k.isDumped ↔ s.chip.isDumped := a.dumped
  have hracked : carry.isRacked ↔ s.chip.isRacked := a.racked
  have hcfg : k.cfg = s.chip.cfg := a.cfg
  obtain ⟨hplain, hempty, hamend⟩ := Chip.enterCarry_facts k y hy (a.not_lowered hdig)
  rw [← hcarry, hcfg] at hempty hamend
  rw [← hcarry] at hplain
  rw [hdumped] at hplain hamend
  refine ⟨fun h => ?_, fun r hk hr hlt => ?_, hamend⟩
  · obtain ⟨hstay, hdump⟩ := hplain h
    by_cases hd : s.chip.isDumped
    · rw [hdump hd, carry.enterDump_trk.1]
      decide
    · rw [hstay hd]
      exact (by decide : Cycle.carry ≠ .ret)
  · obtain ⟨b, hret, hb⟩ := carry.emptied_facts rfl (a.not_lowered hdig) theta a.angle (by rw [show carry.cfg = s.chip.cfg from a.cfg]; exact hdig)
    refine ⟨b, hb.trans (and_congr hracked (not_congr a.dumped)), ?_⟩
    rw [hempty r hk hr hlt, hret]
    rfl

/-- The end of an arrival that amends the noted pass in CARRY. -/
theorem AngleTaken.amends {s : State} {theta : Int} {c1 : Chip} (a : AngleTaken s theta c1) (hrun : s.chip.sup.power = .run)
    (e : Engine) {t : Tracker} (hcyc : t.cycle = .carry) (r : Nat) :
    let d := (((({ c1 with eng := e, trk := t } : Chip).amend r).syncLoss).refresh .inputFault).settleLink
    (d.eng = e ∧ d.trk.voids = t.voids ∧ d.role = { s.chip.role with mirrored := d.role.mirrored }
        ∧ d.trk.cycle = .carry ∧ d.trk.carryTimer = t.carryTimer ∧ d.trk.lossAngle = none
        ∧ d.trk.lossPressure = lossAfter .carry s.chip.inp.pressure.freshness t.lossPressure s.chip.tick)
      ∧ ((∀ n, t.note = some n → n.pass.payload = none ∨ n.amended = true) →
          d.trk.ctx = t.ctx ∧ d.load = s.chip.load ∧ d.trk.note = t.note)
      ∧ (∀ n prev, t.note = some n → n.pass.payload = some prev → n.amended = false →
          let q := n.pass.amend (min prev r) s.chip.cfg.rated
          d.trk.ctx = t.ctx.map (fun x => { x with amendMade := true })
            ∧ d.trk.note = some { n with pass := q, amended := true }
            ∧ d.load.shift = { s.chip.load.shift with tonnage := s.chip.load.shift.tonnage - min prev r }
            ∧ d.load.life = { s.chip.load.life with tonnage := s.chip.load.life.tonnage - min prev r }
            ∧ d.load.history = s.chip.load.history
            ∧ (n.isRecord = false → d.load.record = s.chip.load.record ∧ d.load.seq = s.chip.load.seq
                ∧ d.role = s.chip.role ∧ s.chip.onlyHeard d)
            ∧ (n.isRecord = true → ∀ k, s.chip.load.record = some k →
                d.load.record = some ((k.amend q (min prev r)).evaluate s.chip.cfg)
                  ∧ d.link = d.sent s.chip.link.runEnded [passTelegram q]
                  ∧ d.load.seq = s.chip.load.seq + 1 ∧ d.role.mirrored = false)) := by
  obtain ⟨k, hk⟩ : ∃ k : Chip, k = { c1 with eng := e, trk := t } := ⟨_, rfl⟩
  have hkrest : k.trk = t ∧ k.load = s.chip.load ∧ k.role = s.chip.role ∧ k.link = s.chip.link.runEnded ∧ k.cfg = s.chip.cfg
      ∧ k.sup = s.chip.sup ∧ k.eng = e ∧ k.tick = s.chip.tick ∧ k.inp = c1.inp := by
    rw [hk]
    exact ⟨rfl, a.load, a.role, a.link, a.cfg, a.sup, rfl, a.tick, rfl⟩
  obtain ⟨hktrk, hkload, hkrole, hklink, hkcfg, hksup, hkeng, hktick, hkinp⟩ := hkrest
  have hkrun : k.inRun = true := by simp [Chip.inRun, hksup, hrun]
  obtain ⟨z, hz⟩ : ∃ z, z = k.amend r := ⟨_, rfl⟩
  have hends := Ends.refresh z.syncLoss
  rw [← hk, ← hz]
  intro d
  have hzrest : z.eng = k.eng ∧ z.tick = k.tick ∧ z.inp = k.inp ∧ z.trk.cycle = k.trk.cycle ∧ z.trk.voids = k.trk.voids := by
    rw [hz]
    simp
  obtain ⟨hzeng, hztick, hzinp, hzcyc, hzvoids⟩ := hzrest
  have hdtrk : d.trk = z.lossTimed z.trk := hends.trk.trans z.syncLoss_trk
  have hdload : d.load = z.load := hends.load
  have hdrole : d.role = z.role := hends.role
  have hdlink : d.link = z.link.settle d.maySend := hends.link
  have hnone : (∀ n, t.note = some n → n.pass.payload = none ∨ n.amended = true) → z = k := fun h => by
    rw [hz]
    exact Chip.amend_still_of r (by rw [hktrk]; exact h)
  have hsome (n : Note) (prev : Nat) (hn : t.note = some n) (hp : n.pass.payload = some prev) (ha : n.amended = false) :=
    Chip.amend_facts r hkrun (by rw [hktrk]; exact hn) hp ha
  rw [← hz, hktrk, hkload, hkrole, hklink, hkcfg] at hsome
  have htimer : z.trk.carryTimer = t.carryTimer ∧ z.trk.lossPressure = t.lossPressure
      ∧ z.role = { s.chip.role with mirrored := z.role.mirrored } := by
    by_cases h : ∀ n, t.note = some n → n.pass.payload = none ∨ n.amended = true
    · rw [hnone h, hktrk, hkrole]
      exact ⟨rfl, rfl, rfl⟩
    · obtain ⟨n, himp⟩ := Classical.not_forall.mp h
      obtain ⟨hn, hor⟩ := Classical.not_imp.mp himp
      obtain ⟨hp, ha⟩ := not_or.mp hor
      obtain ⟨prev, hp⟩ := Option.ne_none_iff_exists'.mp hp
      obtain ⟨htrk, -, -, -, -, -, hrole⟩ := hsome n prev hn hp (by simpa using ha)
      rw [htrk]
      exact ⟨rfl, rfl, hrole⟩
  obtain ⟨hztimer, hzloss, hzrole⟩ := htimer
  refine ⟨⟨hends.eng.trans (by simp [hzeng, hkeng]), ?_, ?_, ?_, ?_, ?_, ?_⟩, fun h => ?_, fun n prev hn hp ha => ?_⟩
  · rw [hdtrk]
    exact hzvoids.trans (by rw [hktrk])
  · rw [hdrole]
    exact hzrole
  · rw [hdtrk]
    exact hzcyc.trans (by rw [hktrk, hcyc])
  · rw [hdtrk]
    exact hztimer
  · rw [hdtrk]
    simp [Chip.lossTimed, lossAfter, hzinp, hkinp, a.fresh]
  · rw [hdtrk]
    simp only [Chip.lossTimed, hzinp, hkinp, a.pressure, hztick, hktick, hzcyc, hktrk, hcyc, hzloss]
  · rw [hdtrk, hdload, hnone h, hkload]
    exact ⟨by rw [← hktrk]; rfl, rfl, by rw [← hktrk]; rfl⟩
  · obtain ⟨htrk, hshift, hlife, hhist, hno, hrec, -⟩ := hsome n prev hn hp ha
    intro q
    rw [hdtrk, hdload, hdrole]
    refine ⟨by rw [htrk]; rfl, by rw [htrk]; rfl, hshift, hlife, hhist, fun hr => ?_, fun hr k' hk' => ?_⟩
    · obtain ⟨h1, h2, h3, h4⟩ := hno hr
      exact ⟨h1, h2, h3, by rw [Chip.onlyHeard, hdlink, h4]⟩
    · obtain ⟨h1, h2, h3, h4⟩ := hrec hr k' hk'
      refine ⟨h1, ?_, h2, by rw [h3]⟩
      rw [hdlink, h4, Chip.sent, Chip.sends_congr d z _ _ (by rw [hdrole]) (by rw [hdload]) (by rw [hdload])]

end Sys2Proof.Machine

/-! SUPPORT. The crossings of θe in LIFT and RETURN, and those that weigh a pass (R20-R25, R28, R32, R33, R39, R44, R45), for
O21. -/

namespace Sys2Proof.Machine

set_option Elab.async false

/-- θe is crossed in LIFT, and θs not with it or after it. -/
theorem Chip.angleInLift_carries {c : Chip} {prev : Option Int} {theta : Int}
    (he : crossesUp prev theta c.cfg.thetaE = true)
    (hs : c.trk.isUnweighed = true ∨ crossesUp prev theta c.cfg.thetaS = false ∨ c.cfg.thetaE < c.cfg.thetaS) :
    c.angleInLift prev theta = c.carryUnweighed := by
  unfold Chip.angleInLift
  rw [he]
  refine (if_neg ?_).trans (if_pos rfl)
  rcases hs with h | h | h <;> simp [h]

theorem Chip.carryUnweighed_eq {c : Chip} {x : PassCtx} (hx : c.trk.ctx = some x) (h : x.stage ≠ .weighed) :
    c.carryUnweighed = ({ c with trk := { c.trk with ctx := some x.weighedNot } } : Chip).enterCarry := by
  unfold Chip.carryUnweighed Chip.mapTrk Tracker.mapCtx
  rw [hx, Option.map_some, if_neg h]
  rfl

/-- The input-loss timers run in CARRY as in WEIGH (R40). -/
theorem lossAfter_carry (f : Freshness) (t : Option Tick) (now : Tick) :
    lossAfter .carry f t now = lossAfter .weigh f t now := by
  simp [lossAfter]

theorem Engine.result_idx (cfg : Cfg) (trim : Int) (l : Latched) (e : Engine) : (e.result cfg trim l).idx = l.idx := by
  unfold Engine.result
  dsimp only
  split <;> rfl

/-- θs and θe crossed by one angle: the pass in CARRY, or committed at the dump angle, its window REJECT. -/
theorem AngleTaken.closesAtOnce {s : State} {theta : Int} {c1 : Chip} (a : AngleTaken s theta c1)
    (hrun : s.chip.sup.power = .run) (hdig : s.chip.cfg.digAngle ≤ theta) (hbins : 1 ≤ s.chip.cfg.minBins) {p : Int}
    (hlow : p < s.chip.cfg.thetaS) (hse : s.chip.cfg.thetaS ≤ s.chip.cfg.thetaE) (hhigh : s.chip.cfg.thetaE ≤ theta)
    (x : PassCtx) :
    let d := (((({ c1 with trk := { s.chip.trk with prevAngle := some theta, ctx := some x } } : Chip).openAndCross
      (some p) theta).syncLoss).refresh .inputFault).settleLink
    s.chip.carriesTo d (s.chip.indexed x).weighedNot ∧ d.eng.isOpen = false
      ∧ (¬s.chip.isDumped → d.eng.last = some (WindowResult.rejected 0 s.chip.panel.settings.curveSet)) := by
  intro d
  obtain ⟨hstay, hdump⟩ := a.opensAndCloses hrun hdig hbins
    (t := { s.chip.trk with prevAngle := some theta, ctx := some x }) rfl (some p)
    ⟨hse, crossesUp_eq_true (Int.lt_of_lt_of_le hlow hse) hhigh⟩
  by_cases hd : s.chip.isDumped
  · obtain ⟨hcommitted, hsounds, hvoids, hshut, honly⟩ := hdump hd
    exact ⟨⟨fun h => absurd hd h, fun _ => ⟨hcommitted, hsounds⟩, hvoids, honly⟩, hshut, fun h => absurd hd h⟩
  · obtain ⟨htrk, heng, hload, hrole, hbuz, hheard, honly⟩ := hstay hd
    have htrk : d.trk = _ := htrk
    have heng : d.eng = _ := heng
    refine ⟨⟨fun _ => ?_, fun h => absurd h hd, ?_, honly.mono (by simp)⟩, by rw [heng], fun _ => by rw [heng]⟩
    · rw [htrk]
      exact ⟨rfl, rfl, rfl, rfl, rfl, rfl, hload, hrole, hbuz, hheard⟩
    · rw [htrk]
      rfl

/-- A void EMPTY at an angle: the tracker in RETURN, or the next REMAINDER's window where the same angle crosses a θs that
is not below the latched θe (R28, R39). -/
theorem AngleTaken.empties {s : State} {theta : Int} {c1 : Chip} (a : AngleTaken s theta c1)
    (hdig : s.chip.cfg.digAngle ≤ theta) {b : Bool} {e : Engine} {t : Tracker} {prev : Option Int} {k : Chip} {g : Int}
    (hk : k = { c1 with eng := e, trk := t.emptied b }) :
    let again := b = true ∧ g ≤ s.chip.cfg.thetaS ∧ crossesUp prev theta s.chip.cfg.thetaS = true
    let step := if k.trk.cycle = .ret ∧ g ≤ s.chip.cfg.thetaS then k.angleInReturn prev theta else k
    (¬again → step = k)
      ∧ (again → step = ({ c1 with trk := { t.emptied b with
          ctx := some { normalPass s.chip.tick with kind := .remainder } } } : Chip).openAndCross prev theta) := by
  intro again step
  have hcyc : k.trk.cycle = .ret := by rw [hk]; rfl
  have hcfg : k.cfg = s.chip.cfg := by rw [hk]; exact a.cfg
  have hracked : k.trk.racked = b := by rw [hk]; rfl
  refine ⟨fun h => ?_, fun h => ?_⟩
  · show (if _ then _ else _) = k
    by_cases hg : g ≤ s.chip.cfg.thetaS
    · rw [if_pos ⟨hcyc, hg⟩]
      unfold Chip.angleInReturn
      rw [hcfg, hracked, if_neg (Int.not_lt.mpr hdig)]
      refine if_neg fun hx => ?_
      obtain ⟨hb, hcross⟩ := Bool.and_eq_true_iff.mp hx
      exact h ⟨hb, hg, hcross⟩
    · exact if_neg fun hx => hg hx.2
  · obtain ⟨hb, hg, hcross⟩ := h
    have hstep : step = k.angleInReturn prev theta := if_pos ⟨hcyc, hg⟩
    rw [hstep, Chip.angleInReturn_opens (by rw [hcfg]; exact hdig) (by rw [hracked, hb]) (by rw [hcfg]; exact hcross), hk,
      Chip.mapTrk, a.tick]
    rfl

/-- The tracker in RETURN after a void EMPTY, at the end of the arrival. -/
theorem AngleTaken.emptied_ends {s : State} {theta : Int} {c1 : Chip} (a : AngleTaken s theta c1) (e : Engine) (t : Tracker)
    (b : Bool) :
    let d := ((({ c1 with eng := e, trk := t.emptied b } : Chip).syncLoss).refresh .inputFault).settleLink
    d.trk = t.emptied b ∧ d.eng = e ∧ d.load = s.chip.load ∧ d.role = s.chip.role := by
  intro d
  have hd : d = ((({ c1 with eng := e, trk := t.emptied b } : Chip).syncLoss).refresh .inputFault).settleLink := rfl
  rw [a.sync] at hd
  obtain ⟨htrk, heng, hload, hrole, -⟩ := a.quiet _ _ _ (Ends.refresh _)
  rw [← hd] at htrk heng hload hrole
  refine ⟨htrk.trans ?_, heng, hload, hrole⟩
  rw [lossAfter_of_not _ _ _ _ (by simp [Tracker.emptied]) (by simp [Tracker.emptied])]
  rfl

/-- Settles O21: by the close of a window into CARRY, the judgement of a remainder there, and the crossings of LIFT and
RETURN. -/
theorem crossingWeighsThePass : Obligations.CrossingWeighsThePass := by
  unfold Obligations.CrossingWeighsThePass
  intro s src dst data p hears hsrc hlen hstatus hrole hprev hdig theta remainder carries
  have ⟨_, hrun, _⟩ := hears
  refine ⟨fun x l hcyc hctx ho hl hlow hhigh => ?_, fun x hcyc hctx hstage hlow hhigh hside => ?_,
    fun x hcyc hctx hstage hlow hse hhigh hbins => ?_, fun hcyc hracked hlow hse hhigh hbins => ?_⟩
  · refine gives_angle hears hsrc hlen hstatus hrole (by rw [hcyc]; decide) fun c1 a => ?_
    obtain ⟨w, hw⟩ : ∃ w, w = s.chip.eng.result s.chip.cfg s.chip.panel.settings.trim l := ⟨_, rfl⟩
    obtain ⟨t, ht⟩ : ∃ t : Tracker, t = { s.chip.trk with prevAngle := some theta, ctx := some (x.takeResult w) } := ⟨_, rfl⟩
    have htctx : t.ctx = some (x.takeResult w) := by rw [ht]
    have htrest : t.voids = s.chip.trk.voids ∧ t.note = s.chip.trk.note ∧ t.lossPressure = s.chip.trk.lossPressure := by
      rw [ht]
      exact ⟨rfl, rfl, rfl⟩
    obtain ⟨htvoids, htnote, htloss⟩ := htrest
    obtain ⟨hfew, hmany⟩ := Engine.result_facts s.chip.cfg s.chip.panel.settings.trim l s.chip.eng x
    have a : AngleTaken s theta c1 := a
    obtain ⟨k, hk⟩ : ∃ k : Chip, k = ({ c1 with eng := s.chip.eng.closedBy w, trk := t } : Chip).enterCarry := ⟨_, rfl⟩
    have hstep : c1.angleTransition s.chip.trk.prevAngle theta =
        if k.trk.cycle = .ret ∧ l.geom.thetaE ≤ s.chip.cfg.thetaS then k.angleInReturn s.chip.trk.prevAngle theta else k := by
      rw [hk, ht, hw]
      exact a.closes hcyc hctx ho hl (by rw [hprev]; exact crossesUp_eq_true hlow hhigh)
    have honly := a.onlyChanges s.chip.trk.prevAngle
    obtain ⟨hplain, hempty, hamend⟩ := a.enterCarry_cases hdig (s.chip.eng.closedBy w) htctx
    rw [← hw] at hfew hmany
    rw [← hk] at hplain hempty hamend
    obtain ⟨d, hd⟩ : ∃ d, d = (((c1.angleTransition s.chip.trk.prevAngle theta).syncLoss).refresh .inputFault).settleLink :=
      ⟨_, rfl⟩
    rw [← hd] at honly
    rw [← hd]
    intro bins meanD meanS raw payload fill rough reject result carried judged emptied stays racked again both judges
    have hresult : result = w := hw.symm
    have hcarried : carried = x.takeResult w := by
      have hstage : (if reject then .unweighed else .weighed) = (x.takeResult w).stage := by
        by_cases hr : reject
        · rw [if_pos hr, (hfew hr).2]
        · rw [if_neg hr, (hmany hr).1]
      have hidx : l.idx = w.idx := by
        rw [hw]
        exact (Engine.result_idx _ _ _ _).symm
      show ({ x with
        stage := if reject then .unweighed else .weighed, idx := some l.idx, grade := some result.grade
        bins := result.bins, payload := result.payload, fill := result.fill, negative := result.negative
        overFlag := result.overFlag } : PassCtx) = _
      rw [hstage, hidx, hresult]
      rfl
    have hpay (h : ¬reject) : w.payload = some payload := (hmany h).2
    by_cases hj : judged
    · obtain ⟨hkind, hkept⟩ := hj
      have hj : judged := ⟨hkind, hkept⟩
      by_cases he : payload < s.chip.cfg.residual
      · have hemptied : emptied := ⟨hj, he⟩
        obtain ⟨b, hb, hret⟩ := hempty payload hkind (hpay hkept) he
        obtain ⟨hnot, hyes⟩ := a.empties hdig (g := l.geom.thetaE) (prev := s.chip.trk.prevAngle) hret
        have hcross : crossesUp s.chip.trk.prevAngle theta s.chip.cfg.thetaS = true
            ↔ p < s.chip.cfg.thetaS ∧ s.chip.cfg.thetaS ≤ theta := by
          rw [hprev]
          exact crossesUp_some_iff
        rw [← hstep, hcross, hb] at hnot hyes
        by_cases hag : again
        · have ⟨_, hrack, hse, hps, hst⟩ := hag
          rw [hyes ⟨hrack, hse, hps, hst⟩] at hd
          obtain ⟨-, hnd⟩ := hrack
          by_cases hbo : both
          · have ⟨hboth, hreach⟩ := hbo
            by_cases hmin : 1 ≤ s.chip.cfg.minBins
            · obtain ⟨hstay, -⟩ := a.opensAndCloses hrun hdig hmin (x := remainder)
                (t := { t.emptied b with ctx := some remainder }) rfl s.chip.trk.prevAngle
                ⟨hboth, by rw [hprev]; exact crossesUp_eq_true (Int.lt_of_lt_of_le hps hboth) hreach⟩
              rw [← hd] at hstay
              obtain ⟨htrk, heng, hload, hrole, -⟩ := hstay hnd
              refine ⟨fun h => absurd hag h, fun _ _ => ⟨hload, hrole, ?_, ?_⟩, fun _ h => absurd hag h, fun _ _ => ?_,
                fun _ h => absurd hbo h, fun _ _ _ => ?_, fun h => absurd hemptied h, fun h => absurd hj h,
                fun h => absurd hemptied h.2.1, fun h => absurd hemptied h.2.1, fun _ _ h => absurd hemptied h.2.1,
                fun _ h => absurd hemptied h, fun h => absurd hemptied h.2.1, honly⟩
              · rw [htrk]
                exact htnote
              · rw [htrk]
                exact congrArg (Voids.raise .empty) htvoids
              · rw [htrk]
                exact ⟨lossAfter_carry _ _ _, rfl⟩
              · rw [htrk, heng]
                exact ⟨rfl, rfl, rfl, rfl, rfl⟩
            · exact ⟨fun h => absurd hag h, fun _ h => absurd (h ⟨hag, hbo⟩) hmin, fun _ h => absurd hag h,
                fun _ h => absurd (h ⟨hag, hbo⟩) hmin, fun _ h => absurd hbo h, fun _ _ h => absurd h hmin,
                fun h => absurd hemptied h, fun h => absurd hj h, fun h => absurd hemptied h.2.1,
                fun h => absurd hemptied h.2.1, fun _ _ h => absurd hemptied h.2.1, fun _ h => absurd hemptied h,
                fun h => absurd hemptied h.2.1, honly⟩
          · obtain ⟨hopen, -⟩ := a.opens hrun (x := remainder) (t := { t.emptied b with ctx := some remainder }) rfl
              s.chip.trk.prevAngle (by rw [hprev, crossesUp_some_iff]; exact fun ⟨h, _, h'⟩ => hbo ⟨h, h'⟩)
            rw [← hd] at hopen
            obtain ⟨hwin, hpres, hang, -, -, -, hvoids, htimer, hload, hrole, hnote⟩ := hopen hnd
            exact ⟨fun h => absurd hag h,
              fun _ _ => ⟨hload, hrole, hnote.trans htnote, hvoids.trans (congrArg (Voids.raise .empty) htvoids)⟩,
              fun _ h => absurd hag h, fun _ _ => ⟨hpres, hang⟩, fun _ _ => ⟨hwin, htimer⟩, fun _ h => absurd h hbo,
              fun h => absurd hemptied h, fun h => absurd hj h, fun h => absurd hemptied h.2.1,
              fun h => absurd hemptied h.2.1, fun _ _ h => absurd hemptied h.2.1, fun _ h => absurd hemptied h,
              fun h => absurd hemptied h.2.1, honly⟩
        · rw [hnot fun ⟨hrack, hse, hps, hst⟩ => hag ⟨hemptied, hrack, hse, hps, hst⟩, hret] at hd
          obtain ⟨htrk, heng, hload, hrole⟩ := a.emptied_ends (s.chip.eng.closedBy w) t b
          rw [← hd] at htrk heng hload hrole
          refine ⟨fun _ => heng.trans (by rw [hresult]; rfl), fun _ _ => ⟨hload, hrole, ?_, ?_⟩, fun _ _ => ?_,
            fun h => absurd h hag, fun h => absurd h hag, fun h => absurd h hag, fun h => absurd hemptied h,
            fun h => absurd hj h, fun h => absurd hemptied h.2.1, fun h => absurd hemptied h.2.1,
            fun _ _ h => absurd hemptied h.2.1, fun _ h => absurd hemptied h, fun h => absurd hemptied h.2.1, honly⟩
          · rw [htrk]
            exact htnote
          · rw [htrk]
            exact congrArg (Voids.raise .empty) htvoids
          · rw [htrk]
            exact ⟨rfl, rfl, rfl, rfl, rfl, hb⟩
      · have hkeeps : ¬emptied := fun h => he h.2
        obtain ⟨hstay, hdump⟩ := hamend payload hkind (hpay hkept) he
        obtain ⟨z, hz⟩ : ∃ z, z = ({ c1 with
          eng := s.chip.eng.closedBy w, trk := s.chip.carrying t } : Chip).amend payload := ⟨_, rfl⟩
        have hzrest : z.trk.cycle = .carry ∧ z.trk.voids = s.chip.trk.voids ∧ z.eng = s.chip.eng.closedBy w := by
          rw [hz]
          simp [Chip.carrying, htvoids]
        obtain ⟨hzcyc, hzvoids, hzeng⟩ := hzrest
        rw [← hz] at hstay hdump
        by_cases hdm : s.chip.isDumped
        · obtain ⟨hcycle, hnone, -⟩ := z.enterDump_trk
          have hends := Ends.refresh z.enterDump
          have hnret : ¬(k.trk.cycle = .ret ∧ l.geom.thetaE ≤ s.chip.cfg.thetaS) := by
            rw [hdump hdm, hcycle]
            exact fun h => absurd h.1 (by decide)
          rw [hstep, if_neg hnret, hdump hdm, Chip.enterDump_syncLoss] at hd
          rw [← hd] at hends
          refine ⟨fun _ => ?_, fun h => absurd h hkeeps, fun h => absurd h hkeeps, fun h => absurd h.1 hkeeps,
            fun h => absurd h.1 hkeeps, fun h => absurd h.1 hkeeps, fun _ => ?_, fun h => absurd hj h,
            fun h => absurd hdm h.2.2, fun h => absurd hdm h.2.2, fun _ _ h => absurd hdm h.2.2, fun _ _ _ => ?_,
            fun h => absurd hdm h.2.2, honly⟩
          · rw [hends.eng, hresult]
            exact (show z.enterDump.eng = z.eng by simp).trans hzeng
          · rw [hends.trk]
            simpa using hzvoids
          · rw [hends.trk]
            exact ⟨hcycle, hnone⟩
        · have hnret : ¬(k.trk.cycle = .ret ∧ l.geom.thetaE ≤ s.chip.cfg.thetaS) := by
            rw [hstay hdm, hzcyc]
            exact fun h => absurd h.1 (by decide)
          obtain ⟨⟨heng, hvoids, hrole, hcycle, htimer, hang, hpres⟩, hnone, hsome⟩ :=
            a.amends hrun (s.chip.eng.closedBy w) (t := s.chip.carrying t) rfl payload
          rw [hstep, if_neg hnret, hstay hdm, hz] at hd
          rw [← hd] at heng hvoids hrole hcycle htimer hang hpres hnone hsome
          have hnote : (s.chip.carrying t).note = s.chip.trk.note := htnote
          have hctx' : (s.chip.carrying t).ctx = some carried := by rw [hcarried]; exact htctx
          have hloss : (s.chip.carrying t).lossPressure = s.chip.trk.lossPressure := htloss
          rw [hnote, hctx'] at hnone
          rw [hnote, hctx'] at hsome
          rw [hloss] at hpres
          refine ⟨fun _ => heng.trans (by rw [hresult]; rfl), fun h => absurd h hkeeps, fun h => absurd h hkeeps,
            fun h => absurd h.1 hkeeps, fun h => absurd h.1 hkeeps, fun h => absurd h.1 hkeeps,
            fun _ => hvoids.trans htvoids, fun h => absurd hj h, fun _ => ⟨hcycle, htimer, hang, hpres⟩,
            fun _ h => hnone h, fun n prev _ hn hp ha => ?_, fun _ _ h => absurd h hdm, fun _ => hrole, honly⟩
          obtain ⟨hctx, hnoted, hshift, hlife, hhist, hno, hrec⟩ := hsome n prev hn hp ha
          rw [PassRec.amend_eq n.pass hp] at hnoted hrec
          refine ⟨hctx, hnoted, hshift, hlife, hhist, hno, fun r hr hopen => ?_⟩
          obtain ⟨hrecord, hlink, hseq, hmirror⟩ := hrec hr r hopen
          exact ⟨⟨_, hrecord, s.chip.flagged_evaluate _, rfl⟩, hlink, hseq, hmirror⟩
    · have hne : ¬((x.takeResult w).kind = .remainder ∧ (x.takeResult w).payload.isSome = true) := by
        rintro ⟨hk, hp⟩
        refine hj ⟨hk, fun hr => ?_⟩
        have hnone : (x.takeResult w).payload = none := (hfew hr).1
        rw [hnone] at hp
        exact absurd hp (by decide)
      have hstage : (x.takeResult w).stage ≠ .candidate := by
        by_cases hr : reject
        · rw [(hfew hr).2]
          decide
        · rw [(hmany hr).1]
          decide
      rw [hstep, if_neg fun h => hplain hne h.1, hk] at hd
      obtain ⟨hcar, heng⟩ := a.carries hrun hdig (s.chip.eng.closedBy w) htctx hne hstage htloss htnote htvoids
      rw [← hd] at hcar heng
      rw [hresult, hcarried]
      exact ⟨fun _ => heng, fun h => absurd h.1 hj, fun h => absurd h.1 hj, fun h => absurd h.1.1 hj,
        fun h => absurd h.1.1 hj, fun h => absurd h.1.1 hj, fun _ => hcar.2.2.1, fun _ => hcar, fun h => absurd h.1 hj,
        fun h => absurd h.1 hj, fun _ _ h => absurd h.1 hj, fun h => absurd h hj, fun h => absurd h.1 hj, honly⟩
  · refine gives_angle hears hsrc hlen hstatus hrole (by rw [hcyc]; decide) fun c1 a => ?_
    have hcyc1 : c1.trk.cycle = .lift := by rw [a.trk]; exact hcyc
    have hctx1 : c1.trk.ctx = some x := by rw [a.trk]; exact hctx
    have hstep : c1.angleTransition s.chip.trk.prevAngle theta = ({ c1 with
        eng := s.chip.eng
        trk := { s.chip.trk with prevAngle := some theta, ctx := some x.weighedNot } } : Chip).enterCarry := by
      unfold Chip.angleTransition
      rw [hcyc1, hprev]
      refine (Chip.angleInLift_carries ?_ ?_).trans ?_
      · rw [a.cfg]
        exact crossesUp_eq_true hlow hhigh
      · rw [a.cfg]
        rcases hside with h | h | h | h
        · exact .inl (by simp [Tracker.isUnweighed, hctx1, h])
        · exact .inr (.inl (by simp [crossesUp]; omega))
        · exact .inr (.inl (crossesUp_eq_false h))
        · exact .inr (.inr h)
      · rw [Chip.carryUnweighed_eq hctx1 hstage, a.trk, ← a.eng]
    rw [hstep]
    exact a.carries hrun hdig s.chip.eng (t := { s.chip.trk with prevAngle := some theta, ctx := some x.weighedNot })
      (y := x.weighedNot) rfl (by simp [PassCtx.weighedNot]) (by simp [PassCtx.weighedNot]) rfl rfl rfl
  · refine gives_angle hears hsrc hlen hstatus hrole (by rw [hcyc]; decide) fun c1 a => ?_
    have hcyc1 : c1.trk.cycle = .lift := by rw [a.trk]; exact hcyc
    have hctx1 : c1.trk.ctx = some x := by rw [a.trk]; exact hctx
    have hstep : c1.angleTransition s.chip.trk.prevAngle theta = ({ c1 with
        trk := { s.chip.trk with prevAngle := some theta, ctx := some x } } : Chip).openAndCross (some p) theta := by
      unfold Chip.angleTransition
      rw [hcyc1, hprev]
      refine (Chip.angleInLift_opens (Tracker.isUnweighed_eq_false hctx1 hstage) ?_ ?_).trans ?_
      · rw [a.cfg]
        exact crossesUp_eq_true hlow (Int.le_trans hse hhigh)
      · rw [a.cfg]
        exact fun h => absurd h.2 (Int.not_lt.mpr hse)
      · rw [← hctx, ← a.trk]
    rw [hstep]
    exact a.closesAtOnce hrun hdig hbins hlow hse hhigh x
  · refine gives_angle hears hsrc hlen hstatus hrole (by rw [hcyc]; decide) fun c1 a => ?_
    have hcyc1 : c1.trk.cycle = .ret := by rw [a.trk]; exact hcyc
    have hstep : c1.angleTransition s.chip.trk.prevAngle theta = ({ c1 with
        trk := { s.chip.trk with prevAngle := some theta, ctx := some remainder } } : Chip).openAndCross (some p) theta := by
      unfold Chip.angleTransition
      rw [hcyc1, hprev]
      refine (Chip.angleInReturn_opens (by rw [a.cfg]; exact hdig) (by rw [a.trk]; exact hracked) ?_).trans ?_
      · rw [a.cfg]
        exact crossesUp_eq_true hlow (Int.le_trans hse hhigh)
      · rw [Chip.mapTrk, a.trk, a.tick]
    rw [hstep]
    exact a.closesAtOnce hrun hdig hbins hlow hse hhigh remainder

end Sys2Proof.Machine

/-! SUPPORT. The stale, loss and rate timers of the inputs (R54, R61, R62), for O24. -/

namespace Sys2Proof.Machine

set_option Elab.async false

/-! ## The end of the event -/

theorem Panel.historyAppended_shadow (ring : List Summary) (now : Tick) (p : Panel) :
    (p.historyAppended ring now).shadow = p.shadow := by
  unfold Panel.historyAppended Panel.selectHistory
  repeat' split
  all_goals rfl

theorem Panel.keepSel_shadow (old new : Option TruckRec) (p : Panel) : (p.keepSel old new).shadow = p.shadow := by
  unfold Panel.keepSel
  repeat' split
  all_goals rfl

theorem Chip.recordSummary_shadow (r : TruckRec) (reason : CloseReason) (c : Chip) :
    (c.recordSummary r reason).panel.shadow = c.panel.shadow := by
  have happend : (c.appendSummary (r.summary reason)).panel.shadow = c.panel.shadow :=
    Panel.historyAppended_shadow _ _ _
  unfold Chip.recordSummary
  dsimp only
  repeat' split
  · exact happend
  · rw [(Chip.offer_quiet _ _).2]
    exact happend
  · exact happend

/-- A close of the record leaves the level of the backlight. -/
theorem Chip.closeRecord_shadow (reason : CloseReason) (c : Chip) :
    (c.closeRecord reason).panel.shadow = c.panel.shadow := by
  unfold Chip.closeRecord
  cases c.load.record with
  | none => rfl
  | some r =>
    obtain ⟨x, hx⟩ : ∃ x, x = if r.count = 0 then c else c.recordSummary r reason := ⟨_, rfl⟩
    have hshadow : x.panel.shadow = c.panel.shadow := by
      rw [hx]
      split
      · rfl
      · exact Chip.recordSummary_shadow _ _ _
    show (Chip.removeRecord (if r.count = 0 then c else c.recordSummary r reason)).panel.shadow = _
    rw [← hx]
    have hbuz : ((x.setRecord none).refresh .overload).panel
        = { (x.setRecord none).panel with buz := ((x.setRecord none).refresh .overload).panel.buz } :=
      (x.setRecord none).refresh_panel .overload
    have hset : (x.setRecord none).panel.shadow = x.panel.shadow := Panel.keepSel_shadow _ _ _
    have hraise : x.removeRecord.panel = ((x.setRecord none).refresh .overload).panel := by
      unfold Chip.removeRecord Chip.raiseSeq Chip.writeTruckSlot
      split <;> rfl
    rw [hraise, hbuz, ← hshadow, ← hset]

/-- What the end of an input event leaves of the part. -/
theorem Chip.afterArrival_facts (x : Chip) :
    let d := x.afterArrival.settleLink
    d.inp = x.inp ∧ d.trk = d.lossTimed x.trk ∧ d.load = x.load ∧ d.link = x.link.settle d.maySend
      ∧ d.panel.shadow = x.panel.shadow ∧ d.role = x.role ∧ x.onlyChanges d [.link, .trk, .alarm, .panel] := by
  intro d
  have hends := Ends.refresh x.syncLoss
  have hbuz : d.panel = { x.syncLoss.panel with buz := d.panel.buz } := hends.buzOnly
  refine ⟨hends.inp, ?_, hends.load, hends.link, by rw [hbuz]; rfl, hends.role, ?_⟩
  · have htrk : d.trk = x.syncLoss.trk := hends.trk
    have hinp : d.inp = x.inp := hends.inp
    have htick : d.tick = x.tick := hends.tick
    rw [htrk, Chip.syncLoss_trk, Chip.lossTimed, Chip.lossTimed, hinp, htick]
  · refine Chip.onlyChanges.settleLink ?_ (by simp)
    exact ((Chip.onlyChanges_mapTrk _ x).mono (by simp)).trans ((x.syncLoss.refresh_onlyChanges .inputFault).mono (by simp))

/-! ## The channel that goes STALE -/

/-- The table after a channel has gone STALE. -/
theorem InputTable.staleExpiry_facts (limit : Nat) (i : ChanId) (now : Tick) (t : InputTable) :
    let u := t.staleExpiry limit i now
    u.chan i = (t.chan i).goStale now ∧ (∀ j, j ≠ i → u.chan j = t.chan j) ∧ u.held = t.held ∧ u.rateTimer = t.rateTimer := by
  intro u
  unfold u InputTable.staleExpiry
  dsimp only
  split
  · refine ⟨by simp, fun j hj => ?_, by simp, by simp⟩
    rw [InputTable.derive_chan, InputTable.chan_setChan_ne _ _ _ _ hj]
  · exact ⟨by simp, fun j hj => InputTable.chan_setChan_ne _ _ _ _ hj, by simp, by simp⟩

theorem InputTable.staleExpiry_plain (limit : Nat) {i : ChanId} (now : Tick) (t : InputTable) (hp : i ≠ .primary)
    (hs : i ≠ .secondary) : t.staleExpiry limit i now = t.setChan i ((t.chan i).goStale now) := by
  have h : isAngle i = false := by cases i <;> simp_all [isAngle]
  simp only [InputTable.staleExpiry, h]
  rfl

theorem InputTable.staleExpiry_angle (limit : Nat) {i : ChanId} (now : Tick) (t : InputTable)
    (h : i = .primary ∨ i = .secondary) :
    t.staleExpiry limit i now = (t.setChan i ((t.chan i).goStale now)).derive limit := by
  rcases h with h | h <;> rw [h] <;> rfl

/-- Selection, DISAGREE and boom rate after a channel has gone STALE (R58, R59, R61). -/
theorem InputTable.staleExpiry_derived (limit : Nat) (i : ChanId) (now : Tick) (t : InputTable) :
    let u := t.staleExpiry limit i now
    (i ≠ .primary → i ≠ .secondary → u.sel = t.sel ∧ u.disagree = t.disagree)
      ∧ (i = .primary ∨ i = .secondary → u.disagree = false
          ∧ (u.primary.freshness = .fresh → u.sel = some .primary)
          ∧ (u.primary.freshness ≠ .fresh → u.secondary.freshness = .fresh → u.sel = some .secondary)
          ∧ (u.primary.freshness ≠ .fresh → u.secondary.freshness ≠ .fresh →
              (t.sel.isSome = true → u.sel = t.sel)
              ∧ (t.sel = none → u.sel =
                  if t.held.primary.isSome = true then some .primary
                  else if t.held.secondary.isSome = true then some .secondary
                  else none)))
      ∧ (u.sel = t.sel → u.omega = t.omega ∧ u.rateMem = t.rateMem)
      ∧ (u.sel ≠ t.sel → u.omega = none ∧ u.rateMem = none) := by
  intro u
  by_cases ha : i = .primary ∨ i = .secondary
  · obtain ⟨v, hv⟩ : ∃ v, v = t.setChan i ((t.chan i).goStale now) := ⟨_, rfl⟩
    have hu : u = v.derive limit := by rw [hv]; exact t.staleExpiry_angle limit now ha
    have hrest : v.held = t.held ∧ v.sel = t.sel ∧ v.omega = t.omega ∧ v.rateMem = t.rateMem := by rw [hv]; simp
    obtain ⟨hheld, hsel, homega, hmem⟩ := hrest
    have hchan : u.primary.freshness = v.primary.freshness ∧ u.secondary.freshness = v.secondary.freshness := by
      rw [hu]
      simp
    obtain ⟨hprimary, hsecondary⟩ := hchan
    have husel : u.sel = v.selection := by rw [hu, InputTable.derive_sel]
    have hstale : ¬(v.primary.freshness = .fresh ∧ v.secondary.freshness = .fresh) := by
      rw [hv]
      rcases ha with h | h <;> rw [h] <;> simp [InputTable.setChan, ChanRec.goStale]
    have hrate := v.derive_rate limit
    rw [← hu, ← husel, hsel, hmem, homega] at hrate
    obtain ⟨hrmem, hromega⟩ := hrate
    refine ⟨fun hp hs => absurd ha (not_or.mpr ⟨hp, hs⟩), fun _ => ⟨?_, fun h => ?_, fun h h' => ?_, fun h h' => ?_⟩,
      fun h => ?_, fun h => ?_⟩
    · rw [hu, ← Bool.not_eq_true, InputTable.derive_disagree]
      exact fun ⟨h, h', _⟩ => hstale ⟨h, h'⟩
    · rw [husel, InputTable.selection, if_pos (hprimary ▸ h)]
    · rw [husel, InputTable.selection, if_neg (hprimary ▸ h), if_pos (hsecondary ▸ h')]
    · rw [husel, InputTable.selection, if_neg (hprimary ▸ h), if_neg (hsecondary ▸ h'), hsel, hheld]
      refine ⟨fun hs => ?_, fun hs => by rw [hs]⟩
      obtain ⟨a, hs⟩ := Option.isSome_iff_exists.mp hs
      rw [hs]
    · rw [hrmem, hromega, if_pos h, if_pos h]
      exact ⟨rfl, rfl⟩
    · rw [hrmem, hromega, if_neg h, if_neg h]
      exact ⟨rfl, rfl⟩
  · obtain ⟨hp, hs⟩ := not_or.mp ha
    have hu : u = t.setChan i ((t.chan i).goStale now) := t.staleExpiry_plain limit now hp hs
    have hrest : u.sel = t.sel ∧ u.disagree = t.disagree ∧ u.omega = t.omega ∧ u.rateMem = t.rateMem := by rw [hu]; simp
    obtain ⟨hsel, hdis, homega, hmem⟩ := hrest
    exact ⟨fun _ _ => ⟨hsel, hdis⟩, fun h => absurd h ha, fun _ => ⟨homega, hmem⟩, fun h => absurd hsel h⟩

/-! ## What goes with it -/

/-- What the part does beside its table when a channel goes STALE. -/
def Chip.wentStale (i : ChanId) (y : Chip) : Chip :=
  match i with
  | .tag => y.tagStale
  | .drive => y.writeShadow
  | .pressure | .primary | .secondary | .tilt | .incline => y

theorem Chip.staleExpiry_due {c : Chip} {i : ChanId} (hrun : c.inRun = true)
    (hdue : ranOut (staleLimit i + 1) (c.inp.chan i).staleTimer c.tick)
    (hf : (c.inp.chan i).freshness = .fresh ∨ (c.inp.chan i).freshness = .fault) :
    c.staleExpiry i
      = ((c.mapInp (InputTable.staleExpiry c.cfg.disagreeLimit i c.tick)).wentStale i).afterArrival.settleLink := by
  have hage : staleAge i = staleLimit i + 1 := by cases i <;> rfl
  have hstale : c.inp.staleDue i c.tick = true := by
    unfold InputTable.staleDue
    rw [hage, due_of_ranOut _ _ _ hdue]
    rcases hf with h | h <;> rw [h] <;> rfl
  unfold Chip.staleExpiry
  rw [hrun, hstale]
  cases i <;> rfl

theorem Chip.tagStale_eq (c : Chip) :
    (c.cfg.srcTag ≠ 0 ∧ c.owns → c.tagStale = c.tagGone) ∧ (¬(c.cfg.srcTag ≠ 0 ∧ c.owns) → c.tagStale = c) := by
  have h : (c.tagMode && c.ownsRecord) = true ↔ c.cfg.srcTag ≠ 0 ∧ c.owns := by
    rw [Bool.and_eq_true, Chip.ownsRecord_iff, Chip.tagMode, bne_iff_ne]
  exact ⟨fun h' => if_pos (h.mpr h'), fun h' => if_neg (mt h.mp h')⟩

theorem Chip.tagGone_shadow (c : Chip) : c.tagGone.panel.shadow = c.panel.shadow := by
  by_cases h : ∀ r, c.load.record = some r → r.id = 0
  · rw [Chip.tagGone_stays h]
    rfl
  · obtain ⟨r, himp⟩ := Classical.not_forall.mp h
    obtain ⟨hr, hi⟩ := Classical.not_imp.mp himp
    rw [Chip.tagGone_closes hr hi]
    exact c.closeRecord_shadow .departed

theorem Chip.wentStale_facts {y : Chip} {i : ChanId} (hrun : y.sup.power = .run)
    (hstale : i = .drive → y.inp.drive.freshness = .stale) :
    let x := y.wentStale i
    y.onlyChanges x [.link, .trk, .load, .alarm, .panel]
      ∧ x.panel.shadow = (if i = .drive then y.panel.settings.day else y.panel.shadow)
      ∧ (i ≠ .tag ∨ ¬(y.cfg.srcTag ≠ 0 ∧ y.owns) → x.load = y.load ∧ x.link = y.link ∧ x.trk = y.trk) := by
  intro x
  by_cases ht : i = .tag
  · have hx : x = y.tagStale := by unfold x; rw [ht]; rfl
    obtain ⟨hgone, hstay⟩ := y.tagStale_eq
    rw [hx, if_neg (by rw [ht]; decide)]
    by_cases ho : y.cfg.srcTag ≠ 0 ∧ y.owns
    · rw [hgone ho]
      refine ⟨?_, y.tagGone_shadow, fun h => absurd (h.resolve_left fun h => h ht) (Classical.not_not.mpr ho)⟩
      intro b hb
      cases b <;> simp_all [Chip.sameAt]
    · rw [hstay ho]
      exact ⟨(Chip.onlyChanges_refl _ _), rfl, fun _ => ⟨rfl, rfl, rfl⟩⟩
  · by_cases hd : i = .drive
    · have hx : x = { y with panel := { y.panel with shadow := y.panel.settings.day } } := by
        unfold x
        rw [hd]
        show y.writeShadow = _
        rw [Chip.writeShadow_run hrun, Chip.nightChosen, hstale hd]
        rfl
      rw [hx, if_pos hd]
      refine ⟨?_, rfl, fun _ => ⟨rfl, rfl, rfl⟩⟩
      intro b hb
      cases b <;> simp_all [Chip.sameAt]
    · have hx : x = y := by unfold x; cases i <;> simp_all [Chip.wentStale]
      rw [hx, if_neg hd]
      exact ⟨Chip.onlyChanges_refl _ _, rfl, fun _ => ⟨rfl, rfl, rfl⟩⟩

/-- Settles O24: by what the expiry of each timer leaves of its channel. -/
theorem inputTimersExpire : Obligations.InputTimersExpire := by
  unfold Obligations.InputTimersExpire
  intro s i hrunning owns
  have ⟨hup, hpow⟩ := hrunning
  have hrun : s.chip.inRun = true := by simp [Chip.inRun, hpow]
  refine ⟨fun hdue hf => ?_, fun since hloss hage => ?_, fun hdue => ?_⟩
  · refine gives_whenUp _ s (Chip.staleExpiry i) _ rfl hup ?_
    obtain ⟨y, hy⟩ : ∃ y, y = s.chip.mapInp (InputTable.staleExpiry s.chip.cfg.disagreeLimit i s.chip.tick) := ⟨_, rfl⟩
    have hyinp : y.inp = s.chip.inp.staleExpiry s.chip.cfg.disagreeLimit i s.chip.tick := by rw [hy]; rfl
    have hyrest : y.load = s.chip.load ∧ y.link = s.chip.link ∧ y.trk = s.chip.trk ∧ y.panel = s.chip.panel
        ∧ y.role = s.chip.role ∧ y.cfg = s.chip.cfg ∧ y.sup = s.chip.sup := by
      rw [hy]
      exact ⟨rfl, rfl, rfl, rfl, rfl, rfl, rfl⟩
    obtain ⟨hyload, hylink, hytrk, hypanel, hyrole, hycfg, hysup⟩ := hyrest
    have hyonly : s.chip.onlyChanges y [.inp] := by
      rw [hy]
      intro b hb
      cases b <;> simp_all [Chip.sameAt]
    obtain ⟨hchan, hothers, hheld, hratetimer⟩ := s.chip.inp.staleExpiry_facts s.chip.cfg.disagreeLimit i s.chip.tick
    obtain ⟨hplain, hangle, hkept, hdropped⟩ :=
      s.chip.inp.staleExpiry_derived s.chip.cfg.disagreeLimit i s.chip.tick
    rw [← hyinp] at hchan hothers hheld hratetimer hplain hangle hkept hdropped
    have hyowns : (y.cfg.srcTag ≠ 0 ∧ y.owns) ↔ owns := by
      unfold Chip.owns
      rw [hycfg, hyrole]
      exact Iff.rfl
    have hyrun : y.inRun = true := by simp [Chip.inRun, hysup, hpow]
    obtain ⟨hxonly, hxshadow, hxquiet⟩ := Chip.wentStale_facts (y := y) (i := i) (by rw [hysup, hpow])
      (fun hi => by rw [hi] at hchan; exact (congrArg ChanRec.freshness hchan).trans rfl)
    rw [Chip.staleExpiry_due hrun hdue hf, ← hy]
    obtain ⟨x, hx⟩ : ∃ x, x = y.wentStale i := ⟨_, rfl⟩
    rw [← hx] at hxonly hxshadow hxquiet ⊢
    obtain ⟨hdinp, hdtrk, hdload, hdlink, hdshadow, hdrole, hdonly⟩ := x.afterArrival_facts
    have hinp : x.afterArrival.settleLink.inp = y.inp := hdinp.trans (hxonly .inp (by simp))
    obtain ⟨d, hd⟩ : ∃ d, d = x.afterArrival.settleLink := ⟨_, rfl⟩
    rw [← hd] at hdtrk hdload hdlink hdshadow hdrole hdonly hinp ⊢
    rw [hinp, hdload, hdtrk, hdlink, hdshadow, hxshadow, hypanel]
    refine ⟨hchan, hothers, hheld, hratetimer, hplain, hangle, hkept, hdropped, rfl, fun hi ho r hr hid => ?_,
      fun hi ho hr => ?_, fun h => ?_, ?_⟩
    · have hxgone : x = y.tagGone := by
        rw [hx, hi]
        exact y.tagStale_eq.1 (hyowns.mpr ho)
      have hyr : y.load.record = some r := by rw [hyload]; exact hr
      have hclose : x = (y.closeRecord .departed).setRefused none := hxgone.trans (Chip.tagGone_closes hyr hid)
      obtain ⟨-, -, -, -, hlink⟩ := Chip.tagGone_facts hyrun hyr hid
      have hload := Chip.closeRecord_load .departed y r hyr
      have htrk := Chip.closeRecord_trk .departed y r hyr
      rw [← hxgone] at hlink
      rw [hyload] at hload
      rw [hytrk] at htrk
      refine ⟨?_, ?_, ?_⟩
      · rw [hlink, hylink, Chip.sent, Chip.sends_congr d x _ _ (by rw [hdrole]) (by rw [hdload]) (by rw [hdload])]
      · have hxtrk : x.trk = (y.closeRecord .departed).trk := by rw [hclose]; rfl
        rw [hxtrk, htrk]
      · have hxload : x.load = { (y.closeRecord .departed).load with refused := none } := by rw [hclose]; rfl
        rw [hxload, hload]
        simp only [reduceCtorEq, or_false]
        rfl
    · have hxgone : x = y.setRefused none := by
        rw [hx, hi]
        exact (y.tagStale_eq.1 (hyowns.mpr ho)).trans (Chip.tagGone_stays (by rw [hyload]; exact hr))
      rw [hxgone]
      exact ⟨by rw [← hyload]; rfl, by rw [← hylink]; rfl, by rw [← hytrk]; rfl⟩
    · obtain ⟨hload, hlink, htrk⟩ := hxquiet (h.imp_right (mt hyowns.mp))
      rw [hload, hlink, htrk, hyload, hylink, hytrk]
      exact ⟨rfl, rfl, rfl⟩
    · exact (hyonly.mono (by simp)).trans ((hxonly.mono (by simp)).trans (hdonly.mono (by simp)))
  · refine gives_whenUp _ s (Chip.lossTimerExpiry i) _ rfl hup ?_
    obtain ⟨x, hx⟩ : ∃ x, x = s.chip.mapInp (InputTable.lossTimerExpiry i s.chip.tick) := ⟨_, rfl⟩
    have hexp : (s.chip.inp.chan i).lossExpiry s.chip.tick = { s.chip.inp.chan i with loss := .ranOut } := by
      simp only [ChanRec.lossExpiry, hloss, if_pos hage]
    have hxinp : x.inp = s.chip.inp.setChan i { s.chip.inp.chan i with loss := .ranOut } := by
      rw [hx, ← hexp]
      rfl
    have hxrun : x.inRun = true := by rw [hx]; exact hrun
    have hinp : (x.refresh .inputFault).inp = x.inp := by simp
    have hxonly : s.chip.onlyChanges x [.inp] := by
      rw [hx]
      intro b hb
      cases b <;> simp_all [Chip.sameAt]
    have hstep : s.chip.lossTimerExpiry i = x.refresh .inputFault := by
      rw [hx]
      rfl
    rw [hstep]
    refine ⟨?_, fun j hj => ?_, ?_, ?_, fun b hb => ?_, ?_, ?_⟩
    · rw [hinp, hxinp, InputTable.chan_setChan]
    · rw [hinp, hxinp, InputTable.chan_setChan_ne _ _ _ _ hj]
    · rw [hinp, hxinp]
      simp
    · have hcond := x.refresh_cond .inputFault hxrun
      exact hcond.trans (x.refresh_cond_eq .inputFault .inputFault).symm
    · rw [Chip.refresh_others _ _ _ hb, hx]
      rfl
    · have h := x.refresh_panel .inputFault
      unfold Chip.onlyBuzzer at h ⊢
      rw [h, hx]
      rfl
    · exact (hxonly.mono (by simp)).trans ((x.refresh_onlyChanges .inputFault).mono (by simp))
  · refine gives_whenUp _ s Chip.rateTimerExpiry _ rfl hup ?_
    unfold Chip.rateTimerExpiry Chip.mapInp InputTable.rateTimerExpiry
    rw [due_of_ranOut _ _ _ hdue, if_pos rfl]
    rfl

end Sys2Proof.Machine

/-! SUPPORT. A usable tilt by cycle state (R31, R32, R35, R36, R38), for O23. -/

namespace Sys2Proof.Machine

set_option Elab.async false

/-- A usable tilt, seen from the tracker's transition. -/
theorem gives_tiltTaken {s : State} {src dst : Byte} {data : List Byte} {P : Chip → Prop}
    (hears : s.chip.Hears src dst data) (hsrc : src.toNat = s.chip.cfg.srcTilt) (hlen : 3 ≤ data.length)
    (hstatus : nat8 data 2 = 0)
    (h : ∀ c1, TiltTaken s (clampInt (-6000) 6000 (int16 data 0)) c1 →
      P (((c1.trackTilt .ok).syncLoss).refresh .inputFault).settleLink) : Gives (.bucketTilt src dst data) s P := by
  refine gives_act _ s (Chip.whenUp (Chip.receive 0x0A src dst data)) _ rfl ?_
  obtain ⟨c1, hc1, a⟩ := Chip.tilt_arrived s src dst data hears hsrc hlen hstatus
  rw [hc1]
  exact h c1 a

/-- A tracker that leaves its loss timers to a state in which they do not run. -/
theorem Chip.syncLoss_stops (c : Chip) {t : Tracker} (hw : t.cycle ≠ .weigh) (hc : t.cycle ≠ .carry) :
    ({ c with trk := t } : Chip).syncLoss = { c with trk := { t with lossPressure := none, lossAngle := none } } := by
  rw [Chip.syncLoss_timed, Chip.lossTimed, lossAfter_of_not _ _ _ _ hw hc, lossAfter_of_not _ _ _ _ hw hc]

theorem Chip.lossTimed_congr {c d : Chip} (hi : d.inp = c.inp) (ht : d.tick = c.tick) (t : Tracker) :
    d.lossTimed t = c.lossTimed t := by
  simp only [Chip.lossTimed, hi, ht]

/-- An entry to IDLE reads neither cycle state nor racked note. -/
theorem Chip.idles_congr {c d : Chip} {t k : Tracker} {l : Link} {bs : List Block}
    (ht : ({ t.without with cycle := .idle, racked := false } : Tracker)
      = { k.without with cycle := .idle, racked := false }) (hv : t.voids = k.voids) (h : c.idles d k l bs) :
    c.idles d t l bs := by
  have hopened (s : Cycle) :
      ({ t.without with cycle := s, racked := false, ctx := some (normalPass d.tick) } : Tracker)
        = { k.without with cycle := s, racked := false, ctx := some (normalPass d.tick) } :=
    congrArg (fun x : Tracker => { x with cycle := s, ctx := some (normalPass d.tick) }) ht
  unfold Chip.idles Chip.entersIdle at h ⊢
  simp only [ht, hopened, hv]
  exact h

/-- A block that stands need not be named among those that can change. -/
theorem Chip.onlyChanges.of_sameAt {c d : Chip} {b : Block} {bs bs' : List Block} (h : c.onlyChanges d bs)
    (hb : c.sameAt d b) (hs : ∀ x ∈ bs, x = b ∨ x ∈ bs') : c.onlyChanges d bs' := by
  intro x hx
  by_cases hm : x ∈ bs
  · rcases hs x hm with rfl | h'
    · exact hb
    · exact absurd h' hx
  · exact h x hm

namespace TiltTaken

variable {s : State} {tilt : Int} {c1 : Chip}

theorem racked (a : TiltTaken s tilt c1) : c1.isRacked ↔ s.chip.cfg.rackAngle ≤ tilt := by
  unfold Chip.isRacked freshAnd
  rw [a.fresh, a.held, a.cfg]
  simp

theorem track_fill (a : TiltTaken s tilt c1) (h : s.chip.trk.cycle = .fill) :
    c1.trackTilt .ok = if s.chip.cfg.rackAngle ≤ tilt then c1.enterLift else c1 := by
  simp only [Chip.trackTilt, a.held, a.trk, h, a.cfg]

theorem track_flies (a : TiltTaken s tilt c1) (h : s.chip.trk.cycle = .lift ∨ s.chip.trk.cycle = .carry) :
    c1.trackTilt .ok = if tilt ≤ s.chip.cfg.dumpAngle then c1.enterDump else c1 := by
  rcases h with h | h <;> simp only [Chip.trackTilt, a.held, a.trk, h, a.cfg]

theorem track_weigh (a : TiltTaken s tilt c1) (h : s.chip.trk.cycle = .weigh) :
    c1.trackTilt .ok = if tilt ≤ s.chip.cfg.dumpAngle then
      ((c1.mapEng Engine.shut).mapTrk (Tracker.mapCtx PassCtx.unweigh)).enterDump else c1 := by
  simp only [Chip.trackTilt, a.held, a.trk, h, a.cfg]

theorem track_dump (a : TiltTaken s tilt c1) (h : s.chip.trk.cycle = .dump) :
    c1.trackTilt .ok = if s.chip.cfg.dumpAngle + 200 ≤ tilt then c1.enterReturn else c1 := by
  simp only [Chip.trackTilt, a.held, a.trk, h, a.cfg]

theorem track_ret (a : TiltTaken s tilt c1) (h : s.chip.trk.cycle = .ret) : c1.trackTilt .ok = c1.testRacked tilt := by
  simp only [Chip.trackTilt, a.held, a.trk, h]

/-- The part with the tracker as it stood. -/
theorem eta (a : TiltTaken s tilt c1) : c1 = { c1 with trk := s.chip.trk } := by
  rw [← a.trk]

/-- The part with engine and tracker as they stood. -/
theorem eta_eng (a : TiltTaken s tilt c1) : c1 = { c1 with eng := s.chip.eng, trk := s.chip.trk } := by
  rw [← a.trk, ← a.eng]

/-- A transition of the tracker alone, to a state in which no loss timer runs. -/
theorem moves (a : TiltTaken s tilt c1) {t : Tracker} (hw : t.cycle ≠ .weigh) (hc : t.cycle ≠ .carry) :
    let d := ((({ c1 with trk := t } : Chip).syncLoss).refresh .inputFault).settleLink
    d.trk = { t with lossPressure := none, lossAngle := none } ∧ s.chip.onlyHeard d
      ∧ s.chip.onlyChanges d [.link, .inp, .trk, .alarm, .panel] ∧ s.chip.onlyBuzzer d := by
  rw [Chip.syncLoss_stops c1 hw hc]
  exact a.quiet _ _ (Ends.refresh _)

/-- A transition to DUMP. -/
theorem commits (a : TiltTaken s tilt c1) (hrun : s.chip.sup.power = .run) (e : Engine) {t : Tracker} {x : PassCtx}
    (hx : t.ctx = some x) (hv : t.voids = s.chip.trk.voids) :
    let d := (((({ c1 with eng := e, trk := t } : Chip).enterDump).syncLoss).refresh .inputFault).settleLink
    let y := if x.stage = .candidate then x.weighedNot else x
    s.chip.committed d y s.chip.link.runEnded ∧ s.chip.commitSounds d y ∧ d.trk.voids = s.chip.trk.voids ∧ d.eng = e
      ∧ s.chip.onlyChanges d [.link, .inp, .eng, .trk, .load, .role, .alarm, .panel] := by
  rw [Chip.enterDump_syncLoss, ← hv]
  exact a.dumps hrun e t x hx _ (Ends.refresh _)

/-- The racked note that a tilt above the dump angle leaves in RETURN (R38). -/
theorem rackedAfter_eq (a : TiltTaken s tilt c1) (t : Tracker) :
    ({ c1 with trk := t } : Chip).rackedAfter tilt
      = if tilt ≤ s.chip.cfg.dumpAngle then false
        else if s.chip.cfg.rackAngle ≤ tilt ∧ ∃ x, s.chip.inp.held.primary = some x ∧ s.chip.cfg.digAngle ≤ x then true
        else t.racked := by
  have hcfg : ({ c1 with trk := t } : Chip).cfg = s.chip.cfg := a.cfg
  have hlift : atLeast c1.inp.held.primary s.chip.cfg.digAngle = true
      ↔ ∃ x, s.chip.inp.held.primary = some x ∧ s.chip.cfg.digAngle ≤ x := by
    rw [a.heldPrimary]
    unfold atLeast
    cases s.chip.inp.held.primary <;> simp
  unfold Chip.rackedAfter
  rw [hcfg]
  simp only [Bool.and_eq_true, decide_eq_true_eq, hlift]

/-- The entry to RETURN at a tilt (R38): on to IDLE where the boom is down. -/
theorem returns (a : TiltTaken s tilt c1) :
    let lowered := freshAnd s.chip.inp.primary s.chip.inp.held.primary fun x => x < s.chip.cfg.digAngle
    let t : Tracker := { s.chip.trk.without with cycle := .ret, racked := false }
    let r : Chip := { c1 with trk := { t with racked := ({ c1 with trk := t } : Chip).rackedAfter tilt } }
    (¬lowered → c1.enterReturn = r) ∧ (lowered → c1.enterReturn = r.enterIdle) := by
  intro lowered t r
  have hret : c1.enterReturn = if below r.freshAngle r.cfg.digAngle then r.enterIdle else r := by
    have hfresh : ({ c1 with trk := t } : Chip).freshTilt = some tilt := by
      unfold Chip.freshTilt
      rw [if_pos a.fresh]
      exact a.held
    have hend : (c1.mapTrk fun t => { t.endPass with cycle := .ret, racked := false }) = { c1 with trk := t } := by
      unfold Chip.mapTrk
      rw [a.trk]
      rfl
    unfold Chip.enterReturn
    rw [hend]
    simp only [hfresh]
    rfl
  have hlow : below r.freshAngle r.cfg.digAngle = true ↔ lowered := by
    rw [Chip.below_angle]
    show freshAnd c1.inp.primary c1.inp.held.primary (fun x => x < c1.cfg.digAngle) ↔ _
    rw [a.primary, a.heldPrimary, a.cfg]
  rw [hret]
  exact ⟨fun h => if_neg (mt hlow.mp h), fun h => if_pos (hlow.mpr h)⟩

/-- A return to IDLE that a tilt makes. -/
theorem idles (a : TiltTaken s tilt c1) {t k : Tracker} (hk : k.without = t.without) (hv : k.voids = t.voids) :
    s.chip.idles ((({ c1 with trk := k } : Chip).enterIdle.syncLoss).refresh .inputFault).settleLink t
      s.chip.link.runEnded [.link, .inp, .trk, .alarm, .panel] := by
  rw [Chip.enterIdle_syncLoss]
  refine Chip.idles_of s.chip { c1 with trk := k } _ t _ _ hk hv a.load a.role a.panel a.alarm a.tick a.sup a.store
    a.link (fun b hb => ?_) (by simp) (by simp) (Ends.refresh _) (.inr ⟨by simp, by simp⟩)
  cases b <;> simp [Chip.sameAt] at hb ⊢
  · exact a.pins
  · exact a.sup
  · exact a.tick
  · exact a.eng
  · exact a.load
  · exact a.role
  · exact a.cal
  · exact a.store

end TiltTaken

/-- Settles O23: by cycle state. -/
theorem dumpCommitsThePass : Obligations.DumpCommitsThePass := by
  unfold Obligations.DumpCommitsThePass
  intro s src dst data hears hsrc hlen hstatus tilt quiet lifted lowered flies moves
  have ⟨_, hrun, _⟩ := hears
  have hmoves (t : Tracker) (hw : t.cycle ≠ .weigh) (hc : t.cycle ≠ .carry)
      (h : ∀ c1, TiltTaken s tilt c1 → c1.trackTilt .ok = { c1 with trk := t }) :
      moves { t with lossPressure := none, lossAngle := none } := by
    refine gives_tiltTaken hears hsrc hlen hstatus fun c1 a => ?_
    rw [h c1 a]
    exact a.moves hw hc
  refine ⟨fun x htilt hcyc hctx => ?_, fun htilt hcyc => ?_, fun hcyc hrack htilt => ?_,
    fun x hcyc hrack htilt hctx hcand => ?_, fun hcyc hrack => ?_, fun hcyc htilt => ?_, fun hcyc htilt hnlow => ?_,
    fun hcyc htilt hlow => ?_, fun hcyc => ?_⟩
  · refine gives_tiltTaken hears hsrc hlen hstatus fun c1 a => ?_
    by_cases hw : s.chip.trk.cycle = .weigh
    · have hstep : c1.trackTilt .ok = ({ c1 with
          eng := s.chip.eng.shut, trk := { s.chip.trk with ctx := some x.weighedNot } } : Chip).enterDump := by
        rw [a.track_weigh hw, if_pos htilt, Chip.mapEng, Chip.mapTrk, Tracker.mapCtx, a.trk, a.eng, hctx]
        rfl
      rw [hstep, if_pos (.inl hw), if_pos hw]
      exact a.commits hrun s.chip.eng.shut (t := { s.chip.trk with ctx := some x.weighedNot }) (x := x.weighedNot) rfl rfl
    · have hstep : c1.trackTilt .ok = ({ c1 with eng := s.chip.eng, trk := s.chip.trk } : Chip).enterDump := by
        have hflies : s.chip.trk.cycle = .lift ∨ s.chip.trk.cycle = .carry := hcyc.imp_right fun h => h.resolve_left hw
        rw [a.track_flies hflies, if_pos htilt, ← a.eta_eng]
      have hy : (if s.chip.trk.cycle = .weigh ∨ x.stage = .candidate then x.weighedNot else x)
          = if x.stage = .candidate then x.weighedNot else x := by simp [hw]
      rw [hstep, hy, if_neg hw]
      exact a.commits hrun s.chip.eng hctx rfl
  · refine gives_tiltTaken hears hsrc hlen hstatus fun c1 a => ?_
    have hstep : c1.trackTilt .ok = c1 := by
      have hn : ¬tilt ≤ s.chip.cfg.dumpAngle := Int.not_le.mpr htilt
      rcases hcyc with h | h | h
      · exact (a.track_flies (.inl h)).trans (if_neg hn)
      · exact (a.track_weigh h).trans (if_neg hn)
      · exact (a.track_flies (.inr h)).trans (if_neg hn)
    have hsync : c1.syncLoss = { c1 with trk := c1.lossTimed s.chip.trk } := by rw [← a.trk, ← Chip.syncLoss_timed]
    have hends := Ends.refresh ({ c1 with trk := c1.lossTimed s.chip.trk } : Chip)
    obtain ⟨htrk, hheard, honly, hbuz⟩ := a.quiet _ _ hends
    rw [hstep, hsync]
    exact ⟨htrk.trans (Chip.lossTimed_congr hends.inp hends.tick _).symm, hheard, hbuz, honly⟩
  · refine hmoves { s.chip.trk with cycle := .lift, fillTimer := none } (by simp) (by simp) fun c1 a => ?_
    obtain ⟨hstay, -⟩ := c1.enterLift_eq _ rfl
    rw [a.track_fill hcyc, if_pos hrack, hstay (mt a.dumped.mp (Int.not_le.mpr htilt)), Chip.mapTrk, a.trk]
  · refine gives_tiltTaken hears hsrc hlen hstatus fun c1 a => ?_
    obtain ⟨-, hdump⟩ := c1.enterLift_eq _ rfl
    have hstep : c1.trackTilt .ok = ({ c1 with
        eng := s.chip.eng, trk := { s.chip.trk with cycle := .lift, fillTimer := none } } : Chip).enterDump := by
      rw [a.track_fill hcyc, if_pos hrack, hdump (a.dumped.mpr htilt), Chip.mapTrk, a.trk, ← a.eng]
    obtain ⟨hcommitted, hsounds, hvoids, heng, honly⟩ := a.commits hrun s.chip.eng
      (t := { s.chip.trk with cycle := .lift, fillTimer := none }) hctx rfl
    rw [if_pos hcand] at hcommitted hsounds
    rw [hstep]
    exact ⟨hcommitted, hsounds, hvoids, honly.of_sameAt (b := .eng) heng (by simp)⟩
  · refine hmoves s.chip.trk (by rw [hcyc]; decide) (by rw [hcyc]; decide) fun c1 a => ?_
    rw [a.track_fill hcyc, if_neg (Int.not_le.mpr hrack)]
    exact a.eta
  · refine hmoves s.chip.trk (by rw [hcyc]; decide) (by rw [hcyc]; decide) fun c1 a => ?_
    rw [a.track_dump hcyc, if_neg (Int.not_le.mpr htilt)]
    exact a.eta
  · have hreturns (c1 : Chip) (a : TiltTaken s tilt c1) : c1.trackTilt .ok = { c1 with
        trk := { s.chip.trk.without with
          cycle := .ret, racked := decide (s.chip.cfg.rackAngle ≤ tilt ∧ lifted) } } := by
      obtain ⟨hstay, -⟩ := a.returns
      rw [a.track_dump hcyc, if_pos htilt, hstay hnlow, a.rackedAfter_eq, if_neg (by omega)]
      by_cases h : s.chip.cfg.rackAngle ≤ tilt ∧ lifted
      · rw [if_pos h, decide_eq_true h]
      · rw [if_neg h, decide_eq_false h]
    refine ⟨fun hl => ?_, fun hl => ?_⟩
    · refine hmoves { s.chip.trk.without with cycle := .ret, racked := decide (s.chip.cfg.rackAngle ≤ tilt) } (by simp)
        (by simp) fun c1 a => ?_
      rw [hreturns c1 a]
      simp only [hl, and_true]
    · refine hmoves { s.chip.trk.without with cycle := .ret, racked := false } (by simp) (by simp) fun c1 a => ?_
      rw [hreturns c1 a]
      simp only [hl, and_false, decide_false]
  · refine gives_tiltTaken hears hsrc hlen hstatus fun c1 a => ?_
    obtain ⟨-, hdown⟩ := a.returns
    rw [a.track_dump hcyc, if_pos htilt, hdown hlow]
    have hidles (k : Tracker) := a.idles (t := k) (k := k) rfl rfl
    refine Chip.idles_congr ?_ ?_ (hidles _)
    · rfl
    · rfl
  · have hracked (c1 : Chip) (a : TiltTaken s tilt c1) (b : Bool)
        (hb : (if tilt ≤ s.chip.cfg.dumpAngle then false
          else if s.chip.cfg.rackAngle ≤ tilt ∧ lifted then true else s.chip.trk.racked) = b) :
        c1.trackTilt .ok = { c1 with trk := { s.chip.trk with racked := b } } := by
      rw [a.track_ret hcyc, Chip.testRacked, Chip.mapTrk, ← hb, ← a.rackedAfter_eq s.chip.trk, ← a.eta, a.trk]
    have hret (b : Bool) : ({ s.chip.trk with racked := b } : Tracker).cycle = .ret := hcyc
    refine ⟨fun htilt => ?_, fun htilt hrack hl => ?_, fun htilt hn => ?_⟩
    · refine hmoves { s.chip.trk with racked := false } (by rw [hret]; decide) (by rw [hret]; decide) fun c1 a => ?_
      exact hracked c1 a false (if_pos htilt)
    · refine hmoves { s.chip.trk with racked := true } (by rw [hret]; decide) (by rw [hret]; decide) fun c1 a => ?_
      exact hracked c1 a true ((if_neg (Int.not_le.mpr htilt)).trans (if_pos ⟨hrack, hl⟩))
    · refine hmoves s.chip.trk (by rw [hcyc]; decide) (by rw [hcyc]; decide) fun c1 a => ?_
      refine hracked c1 a s.chip.trk.racked ((if_neg (Int.not_le.mpr htilt)).trans (if_neg fun h => ?_))
      rcases hn with hn | hn
      · exact absurd h.1 (Int.not_le.mpr hn)
      · exact hn h.2

end Sys2Proof.Machine

/-! SUPPORT. A boom angle as it is recorded (R51, R53, R55, R57-R61), for O14. -/

namespace Sys2Proof.Machine

set_option Elab.async false

/-! ## The table -/

/-- The table with an angle's record and held value, nothing derived from them yet. -/
def InputTable.angleTaken (a : AngleSrc) (m : AngleMsg) (now : Tick) (t : InputTable) : InputTable :=
  { t.setChan a.chan (((t.angleRec a).takeSeq m.seq).arrive now m.status ⟨overInt (-4500) 6000 m.angle, false, false⟩) with
    held := if m.status = .ok then t.held.setAngle a (clampInt (-4500) 6000 m.angle) else t.held }

theorem InputTable.arriveAngle_eq (limit : Nat) (a : AngleSrc) (m : AngleMsg) (now : Tick) (t : InputTable) :
    t.arriveAngle limit a m now
      = ((t.angleTaken a m now).derive limit).takeRate a m.status (clampInt (-4500) 6000 m.angle) now := by
  cases a <;> rfl

theorem InputTable.angleTaken_rest (a : AngleSrc) (m : AngleMsg) (now : Tick) (t : InputTable) :
    let v := t.angleTaken a m now
    v.pressure = t.pressure ∧ v.tilt = t.tilt ∧ v.drive = t.drive ∧ v.incline = t.incline ∧ v.tag = t.tag
      ∧ v.sel = t.sel ∧ v.omega = t.omega ∧ v.rateMem = t.rateMem ∧ v.rateTimer = t.rateTimer := by
  cases a <;> exact ⟨rfl, rfl, rfl, rfl, rfl, rfl, rfl, rfl, rfl⟩

/-- The message of a boom angle telegram. -/
def angleMsgOf (data : List Byte) : AngleMsg := ⟨byteAt data 0, int16 data 1, angleStatus (nat8 data 3)⟩

theorem angleMsgOf_ok (data : List Byte) : (angleMsgOf data).status = .ok ↔ nat8 data 3 = 0 := by
  show angleStatus _ = .ok ↔ _
  rw [angleStatus_eq]
  split <;> simp [*]

/-- Record and held value of each source. -/
theorem InputTable.angleTaken_records (a : AngleSrc) (data : List Byte) (now : Tick) (t : InputTable) :
    let ok := nat8 data 3 = 0
    let r := t.angleRec a
    let v := t.angleTaken a (angleMsgOf data) now
    v.angleRec a =
        { freshness := if ok then .fresh else .fault
          latestTick := some now
          latestStatus := some (if ok then .ok else .fault)
          overRange := ⟨decide (int16 data 1 < -4500 ∨ 6000 < int16 data 1), false, false⟩
          prevSeq := some (byteAt data 0)
          gap := min 65535 (r.gap + missed r.prevSeq (byteAt data 0))
          staleTimer := some now
          loss := if ok then .stopped else if r.freshness = .fresh then .running now else r.loss }
      ∧ v.heldAngle a = (if ok then some (clampInt (-4500) 6000 (int16 data 1)) else t.heldAngle a)
      ∧ (∀ b, b ≠ a → v.angleRec b = t.angleRec b ∧ v.heldAngle b = t.heldAngle b) := by
  intro ok r v
  have hst := angleMsgOf_ok data
  have hstatus : (angleMsgOf data).status = if ok then .ok else .fault := angleStatus_eq _
  have hrec : v.angleRec a = ((r.takeSeq (byteAt data 0)).arrive now (angleMsgOf data).status
      ⟨overInt (-4500) 6000 (int16 data 1), false, false⟩) := by cases a <;> rfl
  refine ⟨?_, ?_, ?_⟩
  · rw [hrec, hstatus, overInt_eq, takeSeq_gap]
    unfold ChanRec.arrive ChanRec.lossAfter
    by_cases hok : ok
    · simp only [if_pos hok, if_true]
    · simp only [if_neg hok, reduceCtorEq, if_false]
  · have hheld : v.heldAngle a = if (angleMsgOf data).status = .ok then some (clampInt (-4500) 6000 (int16 data 1))
        else t.heldAngle a := by
      unfold v InputTable.angleTaken
      cases a <;> by_cases h : (angleMsgOf data).status = .ok <;> simp only [if_pos, h] <;> rfl
    rw [hheld]
    simp only [hst]
    rfl
  · intro b hb
    unfold v InputTable.angleTaken
    cases a <;> cases b <;> simp only [ne_eq, not_true_eq_false, reduceCtorEq, not_false_eq_true] at hb ⊢
    all_goals
      refine ⟨rfl, ?_⟩
      split <;> rfl

/-- Selection and DISAGREE after an angle (R58, R59). -/
theorem InputTable.arriveAngle_selects (limit : Nat) (a : AngleSrc) (m : AngleMsg) (now : Tick) (t : InputTable) :
    let u := t.arriveAngle limit a m now
    (u.primary.freshness = .fresh → u.sel = some .primary)
      ∧ (u.primary.freshness ≠ .fresh → u.secondary.freshness = .fresh → u.sel = some .secondary)
      ∧ (u.primary.freshness ≠ .fresh → u.secondary.freshness ≠ .fresh → t.sel.isSome = true → u.sel = t.sel)
      ∧ (u.disagree = true ↔ u.primary.freshness = .fresh ∧ u.secondary.freshness = .fresh
          ∧ ∃ p q, u.held.primary = some p ∧ u.held.secondary = some q ∧ limit < (p - q).natAbs) := by
  intro u
  obtain ⟨v, hv⟩ : ∃ v, v = t.angleTaken a m now := ⟨_, rfl⟩
  have hu : u = (v.derive limit).takeRate a m.status (clampInt (-4500) 6000 m.angle) now := by
    rw [hv]
    exact InputTable.arriveAngle_eq limit a m now t
  have hrest : u.primary = v.primary ∧ u.secondary = v.secondary ∧ u.held = v.held ∧ u.sel = v.selection
      ∧ u.disagree = (v.derive limit).disagree := by
    rw [hu]
    simp
  obtain ⟨hprimary, hsecondary, hheld, hsel, hdis⟩ := hrest
  have hvsel : v.sel = t.sel := by
    rw [hv]
    cases a <;> rfl
  rw [hprimary, hsecondary, hheld, hsel, hdis]
  refine ⟨fun h => if_pos h, fun h h' => (if_neg h).trans (if_pos h'), fun h h' hs => ?_, v.derive_disagree limit⟩
  obtain ⟨b, hb⟩ := Option.isSome_iff_exists.mp hs
  rw [InputTable.selection, if_neg h, if_neg h', hvsel, hb]

/-- The boom rate, its memory and its timer after an angle (R60, R61). -/
theorem InputTable.arriveAngle_rates (limit : Nat) (a : AngleSrc) (m : AngleMsg) (now : Tick) (t : InputTable) :
    let u := t.arriveAngle limit a m now
    let theta := clampInt (-4500) 6000 m.angle
    (m.status = .ok → u.sel = some a →
        u.rateMem = some ⟨a, theta, now⟩
          ∧ (t.sel ≠ some a → u.omega = none)
          ∧ (t.sel = some a → t.rateMem = none → u.omega = none)
          ∧ (t.sel = some a → ∀ k, t.rateMem = some k → u.omega =
              if k.src = a ∧ 1 ≤ age now k.at_ ∧ age now k.at_ ≤ 100 then
                some (((theta - k.angle) * 1000).tdiv (age now k.at_))
              else none))
      ∧ (m.status = .ok → u.sel = some a → u.rateTimer = if u.omega.isSome = true then some now else t.rateTimer)
      ∧ (m.status ≠ .ok → u.sel = some a → u.omega = none ∧ u.rateMem = none ∧ u.rateTimer = t.rateTimer)
      ∧ (u.sel ≠ some a → u.rateTimer = t.rateTimer
          ∧ (u.sel = t.sel → u.omega = t.omega ∧ u.rateMem = t.rateMem)
          ∧ (u.sel ≠ t.sel → u.omega = none ∧ u.rateMem = none)) := by
  intro u theta
  obtain ⟨v, hv⟩ : ∃ v, v = t.angleTaken a m now := ⟨_, rfl⟩
  obtain ⟨w, hw⟩ : ∃ w, w = v.derive limit := ⟨_, rfl⟩
  have hu : u = w.takeRate a m.status theta now := by
    rw [hw, hv]
    exact InputTable.arriveAngle_eq limit a m now t
  obtain ⟨-, -, -, -, -, hvsel, hvomega, hvmem, hvtimer⟩ := t.angleTaken_rest a m now
  rw [← hv] at hvsel hvomega hvmem hvtimer
  have hwsel : w.sel = v.selection := by rw [hw, InputTable.derive_sel]
  have hwtimer : w.rateTimer = t.rateTimer := by
    rw [hw, ← hvtimer]
    simp
  obtain ⟨hwmem, hwomega⟩ := v.derive_rate limit
  rw [← hw, ← hwsel, hvsel, hvmem] at hwmem
  rw [← hw, ← hwsel, hvsel, hvomega] at hwomega
  have husel : u.sel = w.sel := by
    rw [hu]
    simp
  rw [husel]
  refine ⟨fun hok hs => ?_, fun hok hs => ?_, fun hok hs => ?_, fun hs => ?_⟩
  · obtain ⟨hmem, hrate⟩ := (w.takeRate_facts a m.status theta now hs).1 hok
    rw [← hu] at hmem hrate
    rw [hs] at hwmem
    refine ⟨hmem, fun h => ?_, fun h h' => ?_, fun h k hk => ?_⟩
    · rw [hrate, hwmem, if_neg (Ne.symm h)]
      rfl
    · rw [hrate, hwmem, if_pos h.symm, h']
      rfl
    · rw [hrate, hwmem, if_pos h.symm, hk]
      rfl
  · have htimer : u.rateTimer = if u.omega.isSome then some now else w.rateTimer := by
      rw [hu]
      unfold InputTable.takeRate
      rw [if_pos hs, if_pos hok]
    rw [htimer, hwtimer]
  · have hdrop : u = w.dropRate := by
      rw [hu]
      unfold InputTable.takeRate
      rw [if_pos hs, if_neg hok]
    rw [hdrop]
    exact ⟨rfl, rfl, hwtimer⟩
  · have hkeep : u = w := by
      rw [hu]
      exact if_neg hs
    rw [hkeep]
    refine ⟨hwtimer, fun h => ?_, fun h => ?_⟩
    · rw [hwomega, hwmem, if_pos h, if_pos h]
      exact ⟨rfl, rfl⟩
    · rw [hwomega, hwmem, if_neg h, if_neg h]
      exact ⟨rfl, rfl⟩

/-! ## The path -/

theorem Cfg.angleSrc_iff {c : Cfg} {a : AngleSrc} {n : Nat} (h : a = .primary ∧ n = c.srcPrimary
    ∨ a = .secondary ∧ n = c.srcSecondary ∧ n ≠ c.srcPrimary) : c.angleSrc n = some a := by
  unfold Cfg.angleSrc
  rcases h with ⟨ha, hn⟩ | ⟨ha, hn, hne⟩
  · rw [if_pos hn.symm, ha]
  · rw [if_neg hne.symm, if_pos hn.symm, ha]

/-- A BOOM ANGLE that the part hears from a source is an arrival of its channel. -/
theorem Chip.angle_heard {s : State} {src dst : Byte} {data : List Byte} {a : AngleSrc} (hears : s.chip.Hears src dst data)
    (hsrc : a = .primary ∧ src.toNat = s.chip.cfg.srcPrimary
      ∨ a = .secondary ∧ src.toNat = s.chip.cfg.srcSecondary ∧ src.toNat ≠ s.chip.cfg.srcPrimary)
    (hlen : 4 ≤ data.length) :
    Chip.whenUp (Chip.receive 0x09 src dst data) s.chip
      = ((s.chip.mapLink Link.runEnded).angleArrival a (angleMsgOf data)).settleLink := by
  have hcfg : s.chip.cfg.hears .boomAngle src.toNat = true := by
    rcases hsrc with ⟨-, h⟩ | ⟨-, h, -⟩ <;> simp [Cfg.hears, Kind.channels, Cfg.source, h]
  have hsrc' : (s.chip.mapLink Link.runEnded).cfg.angleSrc src.toNat = some a := Cfg.angleSrc_iff hsrc
  have hl' : ¬ data.length < 4 := by omega
  rw [Chip.receive_consumes _ _ _ _ _ .boomAngle hears (by decide) hcfg (fun h => absurd h (by decide))]
  simp only [Chip.consumeInRun, Chip.takeAngle, hsrc', Chip.take, readAngle, takeData, if_neg hl']
  rfl

/-! ## The part -/

/-- The part with an angle recorded. -/
def Chip.angleRecorded (c : Chip) (a : AngleSrc) (m : AngleMsg) : Chip :=
  (c.mapLink Link.runEnded).mapInp (InputTable.arriveAngle c.cfg.disagreeLimit a m c.tick)

theorem Chip.angleRecorded_onlyChanges (c : Chip) (a : AngleSrc) (m : AngleMsg) :
    c.onlyChanges (c.angleRecorded a m) [.link, .inp] := Chip.onlyChanges_arrival _ _ _

theorem Chip.angleArrival_primary (c : Chip) (m : AngleMsg) :
    (c.mapLink Link.runEnded).angleArrival .primary m
      = (((c.angleRecorded .primary m).calAngle m.status).trackAngle m.status).afterArrival := rfl

theorem Chip.angleArrival_secondary (c : Chip) (m : AngleMsg) :
    (c.mapLink Link.runEnded).angleArrival .secondary m = c.angleRecorded .secondary m := rfl

theorem Chip.calAngle_onlyChanges (st : ArrStatus) (c : Chip) : c.onlyChanges (c.calAngle st) [.cal] := by
  intro b hb
  cases b <;> simp_all [Chip.sameAt]

theorem Chip.calAngle_fault {st : ArrStatus} (c : Chip) (h : st ≠ .ok) : c.calAngle st = c := by
  unfold Chip.calAngle
  split
  · rfl
  · exact absurd rfl h
  · rfl

theorem Chip.trackAngle_fault {st : ArrStatus} (c : Chip) (h : st ≠ .ok) : c.trackAngle st = c := by
  unfold Chip.trackAngle
  split
  · exact absurd rfl h
  · rfl

theorem Chip.trackAngle_onlyChanges (st : ArrStatus) (c : Chip) :
    c.onlyChanges (c.trackAngle st).afterArrival.settleLink [.link, .inp, .eng, .trk, .load, .role, .cal, .alarm, .panel] := by
  intro b hb
  cases b <;> simp_all [Chip.sameAt]

theorem Chip.angleIdles_congr {c d : Chip} (hs : d.store = c.store) (ht : d.trk = c.trk) (he : d.eng = c.eng) (theta : Int) :
    d.angleIdles theta ↔ c.angleIdles theta := by
  simp only [Chip.angleIdles, Chip.crosses, Chip.cfg, hs, ht, he]

/-- A primary angle that leaves the cycle state, as the tracker leaves it. -/
theorem Chip.trackAngle_quiet {x : Chip} {st : ArrStatus} {theta : Int} (hheld : st = .ok → x.inp.held.primary = some theta)
    (h : st ≠ .ok ∨ x.angleIdles theta) :
    x.trackAngle st = { x with trk := { x.trk with
      prevAngle := if st = .ok ∧ x.trk.cycle ≠ .suspended then some theta else x.trk.prevAngle } } := by
  by_cases hok : st = .ok
  · rw [hok, x.trackAngle_idles theta (hheld hok) (h.resolve_left fun h => h hok)]
    simp only [true_and]
  · rw [x.trackAngle_fault hok, if_neg fun h => hok h.1]

/-- Settles O14: the table's derivations, and what the tracker makes of a primary angle. -/
theorem angleIsRecorded : Obligations.AngleIsRecorded := by
  unfold Obligations.AngleIsRecorded
  intro s src dst data a hears hsrc hlen
  refine gives_act _ s (Chip.whenUp (Chip.receive 0x09 src dst data)) _ rfl ?_
  obtain ⟨D, hD⟩ : ∃ D, D = ((s.chip.mapLink Link.runEnded).angleArrival a (angleMsgOf data)).settleLink := ⟨_, rfl⟩
  obtain ⟨u, hu⟩ : ∃ u, u = s.chip.inp.arriveAngle s.chip.cfg.disagreeLimit a (angleMsgOf data) s.chip.tick := ⟨_, rfl⟩
  obtain ⟨v, hv⟩ : ∃ v, v = s.chip.inp.angleTaken a (angleMsgOf data) s.chip.tick := ⟨_, rfl⟩
  have hinp : D.inp = u := by
    rw [hD, hu]
    cases a
    · rw [Chip.angleArrival_primary]
      simp [Chip.angleRecorded]
    · rw [Chip.angleArrival_secondary]
      rfl
  have huv : u.primary = v.primary ∧ u.secondary = v.secondary ∧ u.held = v.held ∧ u.pressure = v.pressure ∧ u.tilt = v.tilt
      ∧ u.drive = v.drive ∧ u.incline = v.incline ∧ u.tag = v.tag := by
    rw [hu, hv, InputTable.arriveAngle_eq]
    simp
  obtain ⟨hprimary, hsecondary, hheld, hpressure, htilt, hdrive, hincline, htag⟩ := huv
  have hrec (b : AngleSrc) : u.angleRec b = v.angleRec b := by cases b <;> assumption
  have hval (b : AngleSrc) : u.heldAngle b = v.heldAngle b := by
    unfold InputTable.heldAngle
    rw [hheld]
  obtain ⟨hself, hselfval, hothers⟩ := s.chip.inp.angleTaken_records a data s.chip.tick
  obtain ⟨hfirst, hsecond, hneither, hdis⟩ :=
    s.chip.inp.arriveAngle_selects s.chip.cfg.disagreeLimit a (angleMsgOf data) s.chip.tick
  obtain ⟨hok, htimer, hfault, hunselected⟩ :=
    s.chip.inp.arriveAngle_rates s.chip.cfg.disagreeLimit a (angleMsgOf data) s.chip.tick
  obtain ⟨kpressure, ktilt, kdrive, kincline, ktag, -⟩ := s.chip.inp.angleTaken_rest a (angleMsgOf data) s.chip.tick
  rw [← hv] at hself hselfval hothers kpressure ktilt kdrive kincline ktag
  rw [← hu] at hfirst hsecond hneither hdis hok htimer hfault hunselected
  rw [Chip.angle_heard hears hsrc hlen, ← hD, hinp]
  intro ok theta r
  have hstatus : (angleMsgOf data).status = .ok ↔ ok := angleMsgOf_ok data
  rw [hstatus] at hok htimer
  rw [ne_eq, hstatus] at hfault
  refine ⟨(hrec a).trans hself, (hval a).trans hselfval,
    fun b hb => ⟨(hrec b).trans (hothers b hb).1, (hval b).trans (hothers b hb).2⟩, hfirst, hsecond, hneither, hdis, hok,
    htimer, hfault, hunselected, hpressure.trans kpressure, htilt.trans ktilt, hdrive.trans kdrive, hincline.trans kincline,
    htag.trans ktag, ?_, fun ha => ?_, fun ha hquiet => ?_⟩
  · rw [hD]
    cases a
    · rw [Chip.angleArrival_primary]
      refine ((s.chip.angleRecorded_onlyChanges .primary (angleMsgOf data)).mono (by simp)).trans ?_
      exact ((Chip.calAngle_onlyChanges _ _).mono (by simp)).trans (Chip.trackAngle_onlyChanges _ _)
    · exact Chip.onlyChanges.settleLink ((s.chip.angleRecorded_onlyChanges _ _).mono (by simp)) (by simp)
  · rw [hD, ha, Chip.angleArrival_secondary]
    exact ⟨Chip.onlyChanges.settleLink (s.chip.angleRecorded_onlyChanges _ _) (by simp), Chip.onlyHeard_settleLink rfl⟩
  · rw [ha, Chip.angleArrival_primary] at hD
    rw [ha] at hu hselfval
    obtain ⟨z, hz⟩ : ∃ z, z = s.chip.angleRecorded .primary (angleMsgOf data) := ⟨_, rfl⟩
    obtain ⟨x, hx⟩ : ∃ x, x = z.calAngle (angleMsgOf data).status := ⟨_, rfl⟩
    have hzonly : s.chip.onlyChanges z [.link, .inp] := by
      rw [hz]
      exact Chip.angleRecorded_onlyChanges _ _ _
    have hxz : z.onlyChanges x [.cal] := by
      rw [hx]
      exact Chip.calAngle_onlyChanges _ _
    have hxonly : s.chip.onlyChanges x [.link, .inp, .cal] := (hzonly.mono (by simp)).trans (hxz.mono (by simp))
    have hxinp : x.inp = u := by
      rw [hx, hu, hz]
      simp [Chip.angleRecorded]
    have hxlink : x.link = s.chip.link.runEnded := by
      rw [hx, hz]
      simp [Chip.angleRecorded]
    have hxtrk : x.trk = s.chip.trk := hxonly .trk (by simp)
    have hxidles : x.angleIdles theta ↔ s.chip.angleIdles theta :=
      Chip.angleIdles_congr (hxonly .store (by simp)) hxtrk (hxonly .eng (by simp)) theta
    have hxheld (h : (angleMsgOf data).status = .ok) : x.inp.held.primary = some theta := by
      rw [hxinp]
      exact ((hval .primary).trans hselfval).trans (if_pos (hstatus.mp h))
    have htrack := Chip.trackAngle_quiet hxheld (hquiet.imp (mt hstatus.mp) hxidles.mpr)
    obtain ⟨y, hy⟩ : ∃ y, y = x.trackAngle (angleMsgOf data).status := ⟨_, rfl⟩
    have hyx : x.onlyChanges y [.trk] := by
      rw [hy, htrack]
      exact Chip.onlyChanges_mapTrk (fun _ => _) x
    have hylink : y.link = x.link := hyx .link (by simp)
    have hypanel : y.panel = x.panel := hyx .panel (by simp)
    have hyalarm : y.alarm = x.alarm := hyx .alarm (by simp)
    have hxpanel : x.panel = s.chip.panel := hxonly .panel (by simp)
    have hxalarm : x.alarm = s.chip.alarm := hxonly .alarm (by simp)
    have hends := Chip.afterArrival_ends (c := s.chip) (x := y) (bs := [.inp, .trk, .cal]) (hylink.trans hxlink)
      (hypanel.trans hxpanel) (hyalarm.trans hxalarm) ((hxonly.mono (by simp)).trans (hyx.mono (by simp)))
    rw [← hz, ← hx, ← hy] at hD
    rw [← hD] at hends
    refine ⟨hends.trk.trans ?_, hends.only.mono (by simp), hends.buz, hends.alarm, hends.heard, fun h => ?_⟩
    · rw [hy, htrack, hxtrk]
      simp only [hstatus]
    · have hycal : y.cal = x.cal := hyx .cal (by simp)
      have hzcal : z.cal = s.chip.cal := hzonly .cal (by simp)
      rw [hends.cal, hycal, hx, Chip.calAngle_fault z (mt hstatus.mp h), hzcal]

end Sys2Proof.Machine

/-! SUPPORT. A calibration lift at an angle and at a pressure sample (R93-R95), for O46. -/

namespace Sys2Proof.Machine

set_option Elab.async false

/-! ## The lift at an angle -/

/-- The angle theta opens a lift (R93). -/
def CalUnit.opens (u : CalUnit) (g : Geom) (theta : Int) : Prop :=
  u.accepted < 4 ∧ g.thetaS ≤ theta ∧ ∃ p, u.prevAngle = some p ∧ p < g.thetaS

theorem CalUnit.opens_iff (u : CalUnit) (g : Geom) (theta : Int) :
    (decide (u.accepted < 4) && crossesUp u.prevAngle theta g.thetaS) = true ↔ u.opens g theta := by
  unfold CalUnit.opens crossesUp
  cases u.prevAngle with
  | none => simp
  | some p =>
    simp only [Bool.and_eq_true, decide_eq_true_eq, Option.some.injEq, exists_eq_left']
    exact and_congr_right fun _ => and_comm

section Lift

variable {u : CalUnit} {g : Geom} {theta : Int}

theorem CalUnit.inPhase_of (h : u.state = .empty ∨ u.state = .loaded) : u.inPhase = true := by
  unfold CalUnit.inPhase
  rcases h with h | h <;> rw [h] <;> rfl

theorem CalUnit.angle_phase (hp : u.inPhase = true) (hg : u.geom = some g) :
    u.angle theta = { (if u.liftOpen then u.boundary g theta
      else if u.accepted < 4 && crossesUp u.prevAngle theta g.thetaS then
        { u.clearPoints with liftOpen := true, refused := 0 }.boundary g theta
      else u) with prevAngle := some theta } := by
  simp only [CalUnit.angle, hp, hg]

theorem CalUnit.angle_open (hp : u.inPhase = true) (hg : u.geom = some g) (ho : u.liftOpen = true) :
    u.angle theta = { u.boundary g theta with prevAngle := some theta } := by
  rw [CalUnit.angle_phase hp hg, if_pos ho]

theorem CalUnit.angle_opens (hp : u.inPhase = true) (hg : u.geom = some g) (ho : u.liftOpen = false)
    (h : u.opens g theta) :
    u.angle theta = { ({ u.clearPoints with liftOpen := true, refused := 0 } : CalUnit).boundary g theta with
      prevAngle := some theta } := by
  rw [CalUnit.angle_phase hp hg, if_neg (by simp [ho]), if_pos ((u.opens_iff g theta).mpr h)]

theorem CalUnit.angle_shut (hp : u.inPhase = true) (hg : u.geom = some g) (ho : u.liftOpen = false)
    (h : ¬u.opens g theta) : u.angle theta = { u with prevAngle := some theta } := by
  rw [CalUnit.angle_phase hp hg, if_neg (by simp [ho]), if_neg (mt (u.opens_iff g theta).mp h)]

theorem CalUnit.boundary_inside (h : g.thetaS ≤ theta) (h' : theta ≤ g.thetaE) : u.boundary g theta = u := by
  unfold CalUnit.boundary
  rw [if_neg (Int.not_lt.mpr h'), if_neg (Int.not_lt.mpr h)]

theorem CalUnit.boundary_above (h : g.thetaE < theta) : u.boundary g theta = u.judge := if_pos h

theorem CalUnit.boundary_below (h : theta < g.thetaS) (hse : g.thetaS < g.thetaE) :
    u.boundary g theta = { u.clearPoints with liftOpen := false, outcome := some .abandoned } := by
  unfold CalUnit.boundary
  rw [if_neg (by omega), if_pos h]

/-! ## The lift judged -/

/-- The unit with its lift ended and its points cleared. -/
def CalUnit.lifted (u : CalUnit) : CalUnit :=
  { u with points := Vector.replicate 16 ⟨0, 0⟩, liftOpen := false, lastRefused := some u.refused }

theorem CalUnit.short_iff (u : CalUnit) :
    u.points.toList.any (fun p => p.count < 2) = true ↔ ∃ i : Fin 16, (u.points[i]).count < 2 := by
  rw [List.any_eq_true]
  constructor
  · rintro ⟨p, hp, hlt⟩
    obtain ⟨i, hi, rfl⟩ := Vector.getElem_of_mem (Vector.mem_toList_iff.mp hp)
    exact ⟨⟨i, hi⟩, by simpa using hlt⟩
  · rintro ⟨i, hlt⟩
    exact ⟨u.points[i], Vector.mem_toList_iff.mpr (Vector.getElem_mem i.isLt), by simpa using hlt⟩

theorem CalUnit.judge_short (h : ∃ i : Fin 16, (u.points[i]).count < 2) :
    u.judge = { u.lifted with outcome := some .incomplete } := by
  unfold CalUnit.judge
  dsimp only
  rw [if_pos (u.short_iff.mpr h)]
  rfl

theorem CalUnit.judge_full (h : ∀ i : Fin 16, 2 ≤ (u.points[i]).count) :
    let values := u.points.map fun p => roundDiv p.sum p.count
    (u.accepted = 0 → u.judge = { u.lifted with accepted := 1, outcome := some .settling })
      ∧ (u.accepted ≠ 0 → u.state = .empty → u.judge =
          { u.lifted with
            accepted := u.accepted + 1, outcome := some .kept, keptEmpty := u.keptEmpty ++ [values] })
      ∧ (u.accepted ≠ 0 → u.state = .loaded → u.judge =
          { u.lifted with
            accepted := u.accepted + 1, outcome := some .kept, keptLoaded := u.keptLoaded ++ [values] }) := by
  have hn : ¬u.points.toList.any (fun p => p.count < 2) = true := fun hs => by
    obtain ⟨i, hi⟩ := u.short_iff.mp hs
    exact absurd hi (Nat.not_lt.mpr (h i))
  unfold CalUnit.judge
  dsimp only
  rw [if_neg hn]
  refine ⟨fun ha => ?_, fun ha hs => ?_, fun ha hs => ?_⟩
  · rw [if_pos ha]
    rfl
  · rw [if_neg ha, if_neg (by rw [hs]; decide)]
    rfl
  · rw [if_neg ha, if_pos hs]
    rfl

end Lift

/-! ## The lift at a sample -/

theorem Geom.point_eq (g : Geom) (theta : Int) (i : Fin 16)
    (h : i.val = if 2 * ((theta - g.thetaS) - ((min 14 ((theta - g.thetaS) / g.step).toNat : Nat) : Int) * g.step) < g.step
      then min 14 ((theta - g.thetaS) / g.step).toNat else min 14 ((theta - g.thetaS) / g.step).toNat + 1) :
    g.point theta = i := by
  refine Fin.ext ?_
  rw [h]
  unfold Geom.point Geom.remainder
  show (if 2 * ((theta - g.thetaS) - ((min 14 ((theta - g.thetaS) / g.step).toNat : Nat) : Int) * g.step) < g.step
    then (g.segment theta).castSucc else (g.segment theta).succ).val = _
  split <;> rfl

theorem CalUnit.accumulate_at {u : CalUnit} {g : Geom} {theta : Int} {i : Fin 16} (hi : g.point theta = i)
    (v : PressureVal) :
    ((u.points[i]).count < 255 → u.accumulate g theta v = { u with
        points := u.points.set i ⟨(u.points[i]).sum + g.force v, (u.points[i]).count + 1⟩ })
      ∧ (255 ≤ (u.points[i]).count → u.accumulate g theta v = { u with refused := bump u.refused }) := by
  subst hi
  exact ⟨fun h => if_neg (Nat.not_le.mpr h), fun h => if_pos h⟩

section Sample

variable {cfg : Cfg} {t : InputTable} {now : Tick} {u : CalUnit} {g : Geom} {r : ChanRec} {theta : Int}

theorem CalUnit.sample_open (ho : u.liftOpen = true) (hg : u.geom = some g) (hs : t.selected = some (r, theta)) :
    (theta < g.thetaS ∨ g.thetaE < theta → u.sample cfg t now = u)
      ∧ (g.thetaS ≤ theta → theta ≤ g.thetaE → gate cfg t r now ≠ none →
          u.sample cfg t now = { u with refused := bump u.refused })
      ∧ (∀ v, g.thetaS ≤ theta → theta ≤ g.thetaE → gate cfg t r now = none → t.held.pressure = some v →
          u.sample cfg t now = u.accumulate g theta v) := by
  unfold CalUnit.sample
  rw [ho, hg, hs]
  refine ⟨fun h => if_neg (by omega), fun h h' hgate => ?_, fun v h h' hgate hv => ?_⟩
  · refine (if_pos ⟨h, h'⟩).trans ?_
    cases hx : gate cfg t r now with
    | none => exact absurd hx hgate
    | some f => rfl
  · refine (if_pos ⟨h, h'⟩).trans ?_
    rw [hgate, hv]

end Sample

/-! ## The arrivals -/

theorem Chip.calAngle_taken {c : Chip} {theta : Int} (hs : c.cal.state ≠ .out)
    (hheld : c.inp.held.primary = some theta) : (c.calAngle .ok).cal = c.cal.angle theta := by
  unfold Chip.calAngle
  rw [hheld]
  cases h : c.cal.state with
  | out => exact absurd h hs
  | _ => rfl

/-- A usable primary angle as the calibration unit takes it. -/
theorem gives_calAngle {s : State} {src dst : Byte} {data : List Byte} {P : Chip → Prop} (hears : s.chip.Hears src dst data)
    (hsrc : src.toNat = s.chip.cfg.srcPrimary) (hlen : 4 ≤ data.length) (hstatus : nat8 data 3 = 0)
    (hs : s.chip.cal.state ≠ .out)
    (h : ∀ d : Chip, d.cal = s.chip.cal.angle (clampInt (-4500) 6000 (int16 data 1)) → P d) :
    Gives (.boomAngle src dst data) s P := by
  refine gives_act _ s (Chip.whenUp (Chip.receive 0x09 src dst data)) _ rfl ?_
  have hok : (angleMsgOf data).status = .ok := (angleMsgOf_ok data).mpr hstatus
  rw [Chip.angle_heard hears (.inl ⟨rfl, hsrc⟩) hlen, Chip.angleArrival_primary, hok]
  refine h _ ?_
  obtain ⟨z, hz⟩ : ∃ z, z = s.chip.angleRecorded .primary (angleMsgOf data) := ⟨_, rfl⟩
  have hzcal : z.cal = s.chip.cal := by rw [hz]; rfl
  have hzheld : z.inp.held.primary = some (clampInt (-4500) 6000 (int16 data 1)) := by
    rw [hz]
    simp [Chip.angleRecorded, InputTable.arriveAngle, HeldValues.setAngle, angleMsgOf, angleStatus, hstatus]
  rw [← hz]
  have htrack : ((z.calAngle .ok).trackAngle .ok).afterArrival.settleLink.cal = (z.calAngle .ok).cal := by simp
  rw [htrack, Chip.calAngle_taken (by rw [hzcal]; exact hs) hzheld, hzcal]

/-- A pressure as the calibration unit takes it. -/
theorem gives_calSample {s : State} {src dst : Byte} {data : List Byte} {P : Chip → Prop} (hears : s.chip.Hears src dst data)
    (hsrc : src.toNat = s.chip.cfg.srcPressure) (hlen : 6 ≤ data.length)
    (h : ∀ d : Chip, d.inp = s.chip.inp.arrivePressure (pressureMsgOf data) s.chip.tick →
      d.cal = s.chip.cal.sample s.chip.cfg d.inp s.chip.tick → P d) : Gives (.liftPressure src dst data) s P := by
  refine gives_act _ s (Chip.whenUp (Chip.receive 0x08 src dst data)) P rfl ?_
  rw [Chip.pressure_path s src dst data hears hsrc hlen]
  exact h _ (by simp [Chip.pressureArrival, pressureMsgOf]) (by simp [Chip.pressureArrival, Chip.cfg])

/-- Settles O46: by where the angle and the sample lie. -/
theorem liftsAreTakenAndJudged : Obligations.LiftsAreTakenAndJudged := by
  unfold Obligations.LiftsAreTakenAndJudged
  intro s src dst data g hears hstate hg hse u fresh
  have hphase : u.inPhase = true := CalUnit.inPhase_of hstate
  have hout : s.chip.cal.state ≠ .out := by rcases hstate with h | h <;> rw [h] <;> decide
  refine ⟨fun hsrc hlen hstatus => gives_calAngle hears hsrc hlen hstatus hout fun d hcal => ?_,
    fun r theta hsrc hlen hstatus hph hpr ho hsel => gives_calSample hears hsrc hlen fun d hinp hcal => ?_⟩
  · intro theta opens ended values
    have hcal : d.cal = u.angle theta := hcal
    rw [hcal]
    refine ⟨fun ho hn => CalUnit.angle_shut hphase hg ho hn, fun ho hop htop => ?_, fun ho hop htop => ?_,
      fun ho hbot htop => ?_, fun ho hbot => ?_, fun ho htop hshort => ?_, fun ho htop hfull => ?_⟩
    · obtain ⟨-, hbot, -⟩ := id hop
      rw [CalUnit.angle_opens hphase hg ho hop, CalUnit.boundary_inside hbot htop]
      rfl
    · rw [CalUnit.angle_opens hphase hg ho hop, CalUnit.boundary_above htop, CalUnit.judge_short ⟨0, by simp [CalUnit.clearPoints]⟩]
      rfl
    · rw [CalUnit.angle_open hphase hg ho, CalUnit.boundary_inside hbot htop]
    · rw [CalUnit.angle_open hphase hg ho, CalUnit.boundary_below hbot hse]
      rfl
    · rw [CalUnit.angle_open hphase hg ho, CalUnit.boundary_above htop, CalUnit.judge_short hshort]
      rfl
    · obtain ⟨hfirst, hempty, hloaded⟩ := CalUnit.judge_full hfull
      rw [CalUnit.angle_open hphase hg ho, CalUnit.boundary_above htop]
      refine ⟨fun ha => ?_, fun ha hs => ?_, fun ha hs => ?_⟩
      · rw [hfirst ha]
        rfl
      · rw [hempty ha hs]
        rfl
      · rw [hloaded ha hs]
        rfl
  · intro seg rest f passed
    have hok : (pressureMsgOf data).status = .ok := by simp [pressureMsgOf, hstatus, pressureStatus]
    have hheld : d.inp.held.pressure = some ⟨nat16 data 1, nat16 data 3⟩ := by
      rw [hinp, InputTable.arrivePressure_held _ _ _ hok]
      simp [pressureMsgOf, hph, hpr]
    have hsel' : d.inp.selected = some (r, theta) := by rw [hinp, InputTable.arrivePressure_selected, hsel]
    obtain ⟨houtside, hrefused, hpassed⟩ := CalUnit.sample_open (cfg := s.chip.cfg) (t := d.inp) (now := s.chip.tick) ho hg hsel'
    rw [hcal]
    refine ⟨houtside, hrefused, fun i hbot htop hp hi => ?_⟩
    rw [hpassed _ hbot htop hp hheld]
    exact CalUnit.accumulate_at (Geom.point_eq g theta i hi) _

end Sys2Proof.Machine

/-! SUPPORT. The keys of a calibration in RUN (R91, R92, R96-R101): the fields, the phases, the review of the kept lifts and the
curve request, for O45. -/

namespace Sys2Proof.Machine

set_option Elab.async false

/-! ## The routing to the unit (R136) -/

theorem Chip.holdOf_calSelect {c : Chip} {k : Key} (hk : k = .up ∨ k = .down) (hs : c.cal.state = .select)
    (hrun : c.inRun = true) :
    c.holdOf k = ⟨k, c.tick, false, false, some (if c.cal.onMass then .calMass else .calSet), none⟩ := by
  rcases hk with rfl | rfl <;> simp [Chip.holdOf, Chip.repeatField, hs, hrun]

theorem Chip.pressInRun_cal {c : Chip} {k : Key} (hb : c.banner = none) (hc : c.cal.state ≠ .out) :
    c.pressInRun k = c.routeCal k := by
  unfold Chip.pressInRun Chip.routePress
  rw [if_neg hc, hb]
  cases k <;> rfl

theorem gives_calPress {s : State} {k : Key} {P : Chip → Prop} (hrun : s.chip.running) (hr : s.chip.panel.decoder = .ready)
    (hl : s.chip.pins.keys.get k = true) (hto : ranOut 20 (s.chip.panel.keys.get k).timer s.chip.tick)
    (hb : s.chip.banner = none) (hc : s.chip.cal.state ≠ .out)
    (hP : P (((s.chip.pressedAs k (s.chip.holdOf k)).routeCal k).settleLink)) : Gives (.keyDebounceExpiry k) s P := by
  refine gives_press hrun hr hl hto ?_
  rw [Chip.pressInRun_cal (by exact hb) (by exact hc)]
  exact hP

section Routing

variable {c : Chip}

theorem Chip.routeCal_step {k : Key} (hk : k = .up ∨ k = .down) : c.routeCal k = c.calStep (decide (k = .up)) := by
  rcases hk with rfl | rfl <;> rfl

theorem Chip.routeCal_enter : c.routeCal .enter = c.calEnter := rfl

theorem Chip.routeCal_mode (h : c.cal.state ≠ .writing) (hc : c.cal.state ≠ .out) : c.routeCal .mode = c.leaveCal := by
  unfold Chip.routeCal Chip.calPress Chip.calMode
  cases hs : c.cal.state with
  | writing => exact absurd hs h
  | out => exact absurd hs hc
  | select | empty | loaded | review | done | failed => rfl

theorem Chip.calStep_id {up : Bool} (h : c.cal.state ≠ .select) (h' : c.cal.state ≠ .review) : c.calStep up = c := by
  have hid : c.calUpDown up = c := by
    unfold Chip.calUpDown
    cases hs : c.cal.state with
    | select => exact absurd hs h
    | review => exact absurd hs h'
    | out | empty | loaded | writing | done | failed => rfl
  simp [Chip.calStep, hid]

theorem Chip.calEnter_id (h : c.cal.state = .writing ∨ c.cal.state = .done ∨ c.cal.state = .failed) : c.calEnter = c := by
  unfold Chip.calEnter
  rcases h with h | h | h <;> rw [h]

/-- A key that calibration ignores (R99, Table 5-2). -/
theorem Chip.routeCal_id {k : Key}
    (h : c.cal.state = .writing ∨ k ≠ .mode ∧ (c.cal.state = .done ∨ c.cal.state = .failed)) : c.routeCal k = c := by
  have hnot (st : CalState) (h1 : st ≠ .writing) (h2 : st ≠ .done) (h3 : st ≠ .failed) : c.cal.state ≠ st := by
    rintro rfl
    rcases h with h | ⟨-, h | h⟩
    · exact h1 h
    · exact h2 h
    · exact h3 h
  have hstep (up : Bool) : c.calStep up = c := Chip.calStep_id (hnot _ (by simp) (by simp) (by simp)) (hnot _ (by simp) (by simp) (by simp))
  cases k with
  | up => exact hstep true
  | down => exact hstep false
  | enter => exact Chip.calEnter_id (h.imp_right And.right)
  | mode =>
    have hw : c.cal.state = .writing := by simpa using h
    simp [Chip.routeCal, Chip.calPress, Chip.calMode, hw]

theorem Chip.calEnter_field (hs : c.cal.state = .select) (hm : c.cal.onMass = false) :
    c.calEnter = c.mapCal fun u => { u with onMass := true } := by
  simp only [Chip.calEnter, hs, hm, Bool.false_eq_true, if_false]

theorem Chip.calEnter_select (hs : c.cal.state = .select) (hm : c.cal.onMass = true) :
    c.calEnter = c.mapCal (CalUnit.endSelection c.cfg.geom) := by
  simp only [Chip.calEnter, hs, hm, if_true]

theorem Chip.calEnter_few (hs : c.cal.state = .empty ∨ c.cal.state = .loaded) (h : c.cal.keptCount < 2) :
    c.calEnter = c := by
  unfold Chip.calEnter
  rcases hs with hs | hs <;> simp only [hs] <;> exact if_neg (by omega)

theorem Chip.calEnter_advance (hs : c.cal.state = .empty ∨ c.cal.state = .loaded) (h : 2 ≤ c.cal.keptCount) :
    c.calEnter = c.mapCal (CalUnit.advance c.cfg) := by
  unfold Chip.calEnter
  rcases hs with hs | hs <;> simp only [hs] <;> exact if_pos h

theorem Chip.calEnter_review (hs : c.cal.state = .review) : c.calEnter = c.requestCurve := by
  simp only [Chip.calEnter, hs]

theorem CalUnit.keptCount_empty {u : CalUnit} (h : u.state = .empty) : u.keptCount = u.keptEmpty.length :=
  if_neg (by simp [h])

theorem CalUnit.keptCount_loaded {u : CalUnit} (h : u.state = .loaded) : u.keptCount = u.keptLoaded.length := if_pos h

/-- A key but MODE moves calibration, the panel and the store alone. -/
theorem Chip.routeCal_onlyChanges {k : Key} (hk : k ≠ .mode) : c.onlyChanges (c.routeCal k) [.cal, .panel, .store] := by
  have hstep (up : Bool) : c.onlyChanges (c.calStep up) [.cal, .panel] := by
    intro b hb
    cases b <;> simp_all [Chip.sameAt]
  cases k with
  | mode => exact absurd rfl hk
  | up => exact (hstep true).mono (by simp)
  | down => exact (hstep false).mono (by simp)
  | enter =>
    rw [Chip.routeCal_enter]
    intro b hb
    cases b <;> simp_all [Chip.sameAt]

end Routing

/-! ## The fields of CAL-SELECT and the point browsed (R91, R98) -/

theorem CalUnit.step_target {u : CalUnit} (up : Bool) (h : u.onMass = false) :
    u.step up = { u with target := (u.step up).target }
      ∧ (u.step up).target.val = if up then min 3 (u.target.val + 1) else u.target.val - 1 := by
  have hlt : (if up then min 3 (u.target.val + 1) else u.target.val - 1) < 4 := by
    split <;> omega
  simp only [CalUnit.step, h, Bool.false_eq_true, if_false, true_and]
  exact Nat.mod_eq_of_lt hlt

theorem CalUnit.step_mass {u : CalUnit} (up : Bool) (h : u.onMass = true) :
    u.step up = { u with mass := max 100 (min 5000 (if up then u.mass + 1 else u.mass - 1)) } := by
  simp only [CalUnit.step, h, if_true, clampNat]
  rw [Nat.min_comm]

theorem CalUnit.step_eq_self (u : CalUnit) (up : Bool) :
    (u.step up).target = u.target ∧ (u.step up).mass = u.mass ↔ u.step up = u := by
  refine ⟨fun ⟨ht, hm⟩ => ?_, fun h => by rw [h]; exact ⟨rfl, rfl⟩⟩
  cases ho : u.onMass with
  | false => rw [(CalUnit.step_target up ho).1, ht]
  | true =>
    have he := CalUnit.step_mass up ho
    rw [he] at hm ⊢
    rw [show max 100 (min 5000 (if up then u.mass + 1 else u.mass - 1)) = u.mass from hm]

/-- A step of CAL-SELECT steps the field, and restarts the blink where the field changed (R91, R143). -/
theorem Chip.calStep_facts {c : Chip} (up : Bool) (h : c.cal.state = .select) : c.calStepped (c.calStep up) up := by
  have hmove : c.calUpDown up = c.mapCal (CalUnit.step up) := by
    unfold Chip.calUpDown
    rw [h]
  have hstep : c.calStep up = if c.cal.step up = c.cal then c.mapCal (CalUnit.step up)
      else (c.mapCal (CalUnit.step up)).mapPanel (Panel.restartBlink c.tick) := by
    unfold Chip.calStep
    rw [hmove]
    exact ite_congr (propext (c.cal.step_eq_self up)) (fun _ => rfl) fun _ => rfl
  have hcal : (c.calStep up).cal = c.cal.step up := by
    rw [hstep]
    split <;> rfl
  unfold Chip.calStepped
  rw [hcal]
  refine ⟨fun ho => CalUnit.step_target up ho, fun ho => CalUnit.step_mass up ho, fun hn => ?_, fun he => ?_⟩
  · rw [hstep, if_neg hn]
    exact ⟨rfl, rfl⟩
  · rw [hstep, if_pos he]
    exact ⟨rfl, rfl⟩

theorem Chip.calStep_review {c : Chip} (up : Bool) (h : c.cal.state = .review) :
    (c.calStep up).cal = { c.cal with browse := if up then min 15 (c.cal.browse + 1) else c.cal.browse - 1 } := by
  have hmove : c.calUpDown up
      = c.mapCal fun u => { u with browse := if up then min 15 (u.browse + 1) else u.browse - 1 } := by
    unfold Chip.calUpDown
    rw [h]
  unfold Chip.calStep
  rw [hmove]
  dsimp only
  rw [if_pos ⟨rfl, rfl⟩]
  rfl

/-! ## The end of the selection (R92) -/

theorem Geom.usable_iff (g : Geom) :
    g.usable = true ↔ 300 ≤ g.thetaE - g.thetaS ∧ g.thetaE - g.thetaS ≤ 6000 ∧ (g.thetaE - g.thetaS) % 30 = 0 := by
  simp [Geom.usable, and_assoc]

theorem CalUnit.endSelection_usable {u : CalUnit} {g : Geom} (h : g.usable = true) :
    u.endSelection g = { u with
      geom := some g, accepted := 0, keptEmpty := [], outcome := none, state := .empty, liftOpen := false } := if_pos h

theorem CalUnit.endSelection_unusable {u : CalUnit} {g : Geom} (h : ¬g.usable = true) :
    u.endSelection g = { u with geom := some g, failure := some .geometry, state := .failed } := if_neg h

/-! ## The phases left (R96) and the review (R97, Table 5-6) -/

theorem CalUnit.advance_empty {u : CalUnit} (cfg : Cfg) (h : u.state = .empty) :
    u.advance cfg = { u.clearPoints with
      liftOpen := false, accepted := 0, keptLoaded := [], outcome := none, state := .loaded } := if_pos h

theorem CalUnit.advance_loaded {u : CalUnit} (cfg : Cfg) (h : u.state = .loaded) :
    u.advance cfg = ({ u.clearPoints with liftOpen := false } : CalUnit).review cfg := if_neg (by simp [CalUnit.clearPoints, h])

/-- Tests 1 and 2 of Table 5-6 at every point. -/
def consistentLifts (spread : Int) (ls : List (Vector Int 16)) : Prop := ∀ i, ¬differAt spread ls i

theorem consistentLifts_iff (spread : Int) (ls : List (Vector Int 16)) :
    consistentLifts spread ls ↔ ∀ v ∈ ls, ∀ w ∈ ls, ∀ i : Fin 16, v[i] - w[i] ≤ spread := by
  unfold consistentLifts differAt
  constructor
  · intro h v hv w hw i
    exact Int.not_lt.mp fun hlt => h i ⟨v, hv, w, hw, hlt⟩
  · rintro h i ⟨v, hv, w, hw, hlt⟩
    exact absurd (h v hv w hw i) (Int.not_le.mpr hlt)

/-- The difference of a lift with itself is within the limit. -/
theorem consistentLifts.spread_nonneg {spread : Int} {ls : List (Vector Int 16)} (h : consistentLifts spread ls) (hne : ls ≠ []) :
    0 ≤ spread := by
  obtain ⟨v, hv⟩ := List.exists_mem_of_ne_nil ls hne
  have := (consistentLifts_iff spread ls).mp h v hv v hv 0
  omega

theorem inconsistentAt_nil {spread : Int} (h : 0 ≤ spread) : inconsistentAt spread [] = none := by
  unfold inconsistentAt
  rw [firstPoint_none]
  intro k
  simpa [rangeOf] using h

theorem inconsistentAt_of_consistent {spread : Int} {ls : List (Vector Int 16)} (hs : 0 ≤ spread)
    (h : consistentLifts spread ls) : inconsistentAt spread ls = none := by
  by_cases hne : ls = []
  · rw [hne]
    exact inconsistentAt_nil hs
  · exact (inconsistentAt_none spread ls hne).mpr h

theorem consistent_of_inconsistentAt {spread : Int} {ls : List (Vector Int 16)} (h : inconsistentAt spread ls = none) :
    consistentLifts spread ls := by
  by_cases hne : ls = []
  · rw [hne]
    rintro i ⟨v, hv, -⟩
    exact absurd hv (by simp)
  · exact (inconsistentAt_none spread ls hne).mp h

/-- Every test of Table 5-6 holds. -/
def CalUnit.passesReview (cfg : Cfg) (u : CalUnit) : Prop :=
  consistentLifts cfg.spread u.keptEmpty ∧ consistentLifts cfg.spread u.keptLoaded
    ∧ (∀ i, 100 ≤ meanAt u.keptLoaded i - meanAt u.keptEmpty i) ∧ u.target.val < cfg.protect

/-- The lowest point at which a test fails. -/
def LowestAt (bad : Fin 16 → Prop) (k : Nat) : Prop := ∃ i : Fin 16, i.val = k ∧ bad i ∧ ∀ j : Fin 16, j < i → ¬bad j

section Review

variable {cfg : Cfg} {u : CalUnit}

/-- The point tests of Table 5-6 in their order, by what each answers. -/
theorem reviewFailure_empty {k : Nat} (h : inconsistentAt cfg.spread u.keptEmpty = some k) :
    reviewFailure cfg u = some (.inconsistent false k) := by
  simp only [reviewFailure, h]

theorem reviewFailure_loaded {k : Nat} (he : inconsistentAt cfg.spread u.keptEmpty = none)
    (h : inconsistentAt cfg.spread u.keptLoaded = some k) : reviewFailure cfg u = some (.inconsistent true k) := by
  simp only [reviewFailure, he, h]

/-- The span of a point is short (Table 5-6 test 3). -/
@[reducible] def CalUnit.shortAt (u : CalUnit) (i : Fin 16) : Prop := meanAt u.keptLoaded i - meanAt u.keptEmpty i < 100

theorem reviewFailure_span {k : Nat} (he : inconsistentAt cfg.spread u.keptEmpty = none)
    (hl : inconsistentAt cfg.spread u.keptLoaded = none) (h : firstPoint (fun i => decide (u.shortAt i)) = some k) :
    reviewFailure cfg u = some (.span k) := by
  simp only [CalUnit.shortAt, ← curveOf_get] at h
  simp only [reviewFailure, he, hl, h]

theorem reviewFailure_protect (he : inconsistentAt cfg.spread u.keptEmpty = none)
    (hl : inconsistentAt cfg.spread u.keptLoaded = none) (h : firstPoint (fun i => decide (u.shortAt i)) = none) :
    reviewFailure cfg u = if u.target.val < cfg.protect then none else some .isProtected := by
  simp only [CalUnit.shortAt, ← curveOf_get] at h
  simp only [reviewFailure, he, hl, h]

theorem firstPoint_short_none : firstPoint (fun i => decide (u.shortAt i)) = none
    ↔ ∀ i, 100 ≤ meanAt u.keptLoaded i - meanAt u.keptEmpty i := by
  rw [firstPoint_none]
  exact forall_congr' fun i => decide_eq_false_iff_not.trans Int.not_lt

theorem LowestAt.firstPoint {bad : Fin 16 → Prop} [DecidablePred bad] {k : Nat} (h : LowestAt bad k) :
    firstPoint (fun i => decide (bad i)) = some k := by
  obtain ⟨i, rfl, hi, hj⟩ := h
  exact firstPoint_some _ i (decide_eq_true hi) fun j hlt => decide_eq_false (hj j hlt)

theorem LowestAt.inconsistentAt {spread : Int} {ls : List (Vector Int 16)} {k : Nat} (hne : ls ≠ [])
    (h : LowestAt (differAt spread ls) k) : inconsistentAt spread ls = some k := by
  obtain ⟨i, rfl, hi, hj⟩ := h
  exact inconsistentAt_some spread ls hne i hi hj

/-- The review passes where every test does; a limit below 0 lets no kept lift pass (Table 5-6). -/
theorem reviewFailure_none_iff (hne : u.keptLoaded ≠ []) : reviewFailure cfg u = none ↔ u.passesReview cfg := by
  constructor
  · intro h
    cases he : inconsistentAt cfg.spread u.keptEmpty with
    | some k =>
      rw [reviewFailure_empty he] at h
      exact absurd h (by simp)
    | none =>
      cases hl : inconsistentAt cfg.spread u.keptLoaded with
      | some k =>
        rw [reviewFailure_loaded he hl] at h
        exact absurd h (by simp)
      | none =>
        cases hs : firstPoint fun i => decide (u.shortAt i) with
        | some k =>
          rw [reviewFailure_span he hl hs] at h
          exact absurd h (by simp)
        | none =>
          rw [reviewFailure_protect he hl hs] at h
          refine ⟨consistent_of_inconsistentAt he, consistent_of_inconsistentAt hl, firstPoint_short_none.mp hs, ?_⟩
          exact Classical.byContradiction fun hn => absurd (h.symm.trans (if_neg hn)) (by simp)
  · rintro ⟨he, hl, hs, hp⟩
    have hpos := hl.spread_nonneg hne
    rw [reviewFailure_protect (inconsistentAt_of_consistent hpos he) (inconsistentAt_of_consistent hpos hl)
      (firstPoint_short_none.mpr hs)]
    exact if_pos hp

end Review

end Sys2Proof.Machine

/-! SUPPORT. The keys of a calibration in RUN, the review left and the curve requested: O45. -/

namespace Sys2Proof.Machine

set_option Elab.async false

/-! ## The review of the phases left (R97) -/

section Review

variable {cfg : Cfg} {u : CalUnit}

theorem reviewFailure_congr {w : CalUnit} (he : w.keptEmpty = u.keptEmpty) (hl : w.keptLoaded = u.keptLoaded)
    (ht : w.target = u.target) : reviewFailure cfg w = reviewFailure cfg u := by
  simp only [reviewFailure, he, hl, ht]

theorem CalUnit.advance_review (h : u.state = .loaded) (hf : reviewFailure cfg u = none) :
    u.advance cfg = { u.clearPoints with
      liftOpen := false, curves := some (curveOf u.keptEmpty, curveOf u.keptLoaded), browse := 0, state := .review } := by
  obtain ⟨w, hw⟩ : ∃ w : CalUnit, w = { u.clearPoints with liftOpen := false } := ⟨_, rfl⟩
  have hwf : reviewFailure cfg w = none := by
    rw [← hf]
    exact reviewFailure_congr (by rw [hw]; rfl) (by rw [hw]; rfl) (by rw [hw]; rfl)
  rw [CalUnit.advance_loaded cfg h, ← hw, (CalUnit.review_facts cfg w).2 hwf, hw]
  exact rfl

theorem CalUnit.advance_failed {f : CalFailure} (h : u.state = .loaded) (hf : reviewFailure cfg u = some f) :
    u.advance cfg = { u.clearPoints with liftOpen := false, curves := none, failure := some f, state := .failed } := by
  obtain ⟨w, hw⟩ : ∃ w : CalUnit, w = { u.clearPoints with liftOpen := false } := ⟨_, rfl⟩
  have hwf : reviewFailure cfg w = some f := by
    rw [← hf]
    exact reviewFailure_congr (by rw [hw]; rfl) (by rw [hw]; rfl) (by rw [hw]; rfl)
  rw [CalUnit.advance_loaded cfg h, ← hw, (CalUnit.review_facts cfg w).1 f hwf, hw]

theorem CalUnit.advance_review_iff (h : u.state = .loaded) (hne : u.keptLoaded ≠ []) :
    (u.passesReview cfg → (u.advance cfg).state = .review ∧ (u.advance cfg).browse = 0
        ∧ (u.advance cfg).curves = some (curveOf u.keptEmpty, curveOf u.keptLoaded))
      ∧ (¬u.passesReview cfg → (u.advance cfg).state = .failed ∧ (u.advance cfg).curves = none
        ∧ (u.advance cfg).failure.isSome = true) := by
  refine ⟨fun hp => ?_, fun hp => ?_⟩
  · rw [CalUnit.advance_review h ((reviewFailure_none_iff hne).mpr hp)]
    exact ⟨rfl, rfl, rfl⟩
  · obtain ⟨f, hf⟩ := Option.ne_none_iff_exists'.mp (mt (reviewFailure_none_iff hne).mp hp)
    rw [CalUnit.advance_failed h hf]
    exact ⟨rfl, rfl, rfl⟩

/-- The failure that each test of Table 5-6 leaves, the tests before it passed. -/
theorem reviewFailure_of_lowest (hE : u.keptEmpty ≠ []) (hL : u.keptLoaded ≠ []) :
    (∀ k, LowestAt (differAt cfg.spread u.keptEmpty) k → reviewFailure cfg u = some (.inconsistent false k))
      ∧ (consistentLifts cfg.spread u.keptEmpty →
          (∀ k, LowestAt (differAt cfg.spread u.keptLoaded) k → reviewFailure cfg u = some (.inconsistent true k))
          ∧ (consistentLifts cfg.spread u.keptLoaded →
              (∀ k, LowestAt u.shortAt k → reviewFailure cfg u = some (.span k))
              ∧ ((∀ i, 100 ≤ meanAt u.keptLoaded i - meanAt u.keptEmpty i) → cfg.protect ≤ u.target.val →
                  reviewFailure cfg u = some .isProtected))) := by
  refine ⟨fun k h => reviewFailure_empty (h.inconsistentAt hE), fun he => ?_⟩
  have he' := (inconsistentAt_none cfg.spread u.keptEmpty hE).mpr he
  refine ⟨fun k h => reviewFailure_loaded he' (h.inconsistentAt hL), fun hl => ?_⟩
  have hl' := (inconsistentAt_none cfg.spread u.keptLoaded hL).mpr hl
  refine ⟨fun k h => reviewFailure_span he' hl' h.firstPoint, fun hs hp => ?_⟩
  rw [reviewFailure_protect he' hl' (firstPoint_short_none.mpr hs)]
  exact if_neg (Nat.not_lt.mpr hp)

end Review

/-! ## The curve request (R98) and leaving (R101) -/

/-- A curve request that is not protected: the unit waits, and the store starts the write where none is going on (R98, R165). -/
theorem Chip.requestCurve_facts {c : Chip} {e l : Vector Int 16} (hc : c.cal.curves = some (e, l))
    (hp : c.cal.target.val < c.cfg.protect) :
    let set : CurveSet := ⟨c.cal.mass, e, l, true⟩
    c.requestCurve.cal = { c.cal with state := .writing } ∧ c.requestCurve.store.curves = c.store.curves
      ∧ (c.store.writing.isSome = true →
          c.requestCurve.store = { c.store with reqCurve := some (c.cal.target, set) })
      ∧ (c.store.writing = none → c.store.reqRetain = none →
          c.requestCurve.store = { c.store with writing := some (.curve c.cal.target set, c.tick), reqCurve := none }) := by
  intro set
  have hreq : c.requestCurve = (c.mapStore (ParamStore.askCurve c.cal.target set c.tick)).mapCal
      fun u => { u with state := .writing } := by
    simp only [Chip.requestCurve, hc, hp, if_true]
    exact rfl
  have hstore : c.requestCurve.store = ({ c.store with reqCurve := some (c.cal.target, set) } : ParamStore).kick c.tick := by
    rw [hreq]
    exact if_pos hp
  obtain ⟨-, -, hcurves, -⟩ := ParamStore.kick_frame c.tick { c.store with reqCurve := some (c.cal.target, set) }
  rw [hstore]
  refine ⟨by rw [hreq]; rfl, hcurves, fun hw => ParamStore.kick_writing _ hw, fun hw hr => ?_⟩
  exact ParamStore.kick_curve (p := { c.store with reqCurve := some (c.cal.target, set) }) c.tick hw hr rfl

theorem Chip.suspCal_of_course {c d : Chip} (h : d.trk.course = c.trk.course) : d.trk.suspCal = c.trk.suspCal := by
  simp only [Tracker.course, Prod.mk.injEq] at h
  obtain ⟨-, -, -, -, -, -, hs, -⟩ := h
  exact hs

theorem Chip.enterDump_suspCal (c : Chip) : c.enterDump.trk.suspCal = c.trk.suspCal := by
  unfold Chip.enterDump
  cases c.trk.ctx with
  | none => rfl
  | some x => exact (Chip.suspCal_of_course (Chip.commitPass_course (x.record c.tick) _)).trans rfl

theorem Chip.enterIdle_suspCal (c : Chip) : c.enterIdle.trk.suspCal = c.trk.suspCal := by
  have hlift (x : Chip) : x.enterLift.trk.suspCal = x.trk.suspCal := by
    unfold Chip.enterLift
    dsimp only
    split
    · exact Chip.enterDump_suspCal _
    · rfl
  have hfill (x : Chip) : x.enterFill.trk.suspCal = x.trk.suspCal := by
    unfold Chip.enterFill
    dsimp only
    split
    · exact hlift _
    · rfl
  unfold Chip.enterIdle
  dsimp only
  split
  · split
    · exact hfill _
    · rfl
  · rfl

theorem Chip.removeCal_suspCal (c : Chip) : c.removeCal.trk.suspCal = false := by
  unfold Chip.removeCal Chip.unsuspend
  split
  · rfl
  · rw [Chip.enterIdle_suspCal]
    rfl

/-- Calibration left in RUN (R101, R120). -/
theorem Chip.leaveCal_run {c : Chip} (hrun : c.inRun = true) :
    c.leaveCal.cal = { c.cal with state := .out, liftOpen := false } ∧ c.leaveCal.trk.suspCal = false
      ∧ c.leaveCal.panel.page = .run
      ∧ c.leaveCal.role.state = (if c.role.state = .mute then .mute else .listen) ∧ c.leaveCal.store = c.store := by
  obtain ⟨y, hy⟩ : ∃ y, y = c.mapCal fun u => { u with state := .out, liftOpen := false } := ⟨_, rfl⟩
  have hyrun : y.inRun = true := by rw [hy]; exact hrun
  have hyrole : y.role = c.role := by rw [hy]; rfl
  have hrole : y.takeListen.role.state = if c.role.state = .mute then .mute else .listen := by
    unfold Chip.takeListen
    rw [if_pos hyrun, hyrole]
    split
    · rename_i hm
      rw [hyrole, hm]
    · simp [Chip.enterListen, Chip.setRole]
  obtain ⟨z, hz⟩ : ∃ z, z = y.takeListen.removeCal := ⟨_, rfl⟩
  have hzrun : z.inRun = true := by rw [hz]; simpa [Chip.inRun] using hyrun
  have hleave : c.leaveCal = z.mapPanel fun p => { p with page := .run } := by
    unfold Chip.leaveCal
    dsimp only
    rw [← hy, ← hz]
    simp only [hzrun, if_true]
  have hcal : z.cal = { c.cal with state := .out, liftOpen := false } := by
    have hkept : z.cal = y.cal := by rw [hz]; simp
    rw [hkept, hy]
    exact rfl
  have hstate : z.role.state = y.takeListen.role.state := by rw [hz]; simp
  have hsusp : z.trk.suspCal = false := by rw [hz]; exact Chip.removeCal_suspCal _
  rw [hleave]
  have hstore : z.store = c.store := by
    have hkept : z.store = y.store := by rw [hz]; simp
    rw [hkept, hy]
    exact rfl
  exact ⟨hcal, hsusp, rfl, hstate.trans hrole, hstore⟩

/-- Settles O45: by the key and the state of calibration. -/
theorem calibrationFollowsItsKeys : Obligations.CalibrationFollowsItsKeys := by
  unfold Obligations.CalibrationFollowsItsKeys
  intro s k hrun hr hl hto hquiet hcal
  have hin : s.chip.inRun = true := by simpa [Chip.inRun] using hrun.2
  have hb : s.chip.banner = none := Chip.banner_none fun a ⟨hlatch, hack, hmask⟩ => by
    rcases hquiet a hlatch with h | h
    · exact absurd (hack.symm.trans h) (by simp)
    · exact absurd (hmask.symm.trans h) (by simp)
  refine gives_calPress hrun hr hl hto hb hcal ?_
  intro u c span usable latched mean consistent passes lowest differs fails
  have hcons (ls : List (Vector Int 16)) : consistent ls ↔ consistentLifts c.cfg.spread ls :=
    (consistentLifts_iff c.cfg.spread ls).symm
  have hpasses : passes ↔ u.passesReview c.cfg := and_congr (hcons _) (and_congr (hcons _) Iff.rfl)
  obtain ⟨x, hx⟩ : ∃ x, x = c.pressedAs k (c.holdOf k) := ⟨_, rfl⟩
  have hxcal : x.cal = u := by rw [hx]; rfl
  have hxcfg : x.cfg = c.cfg := by rw [hx]; rfl
  have hxstore : x.store = c.store := by rw [hx]; rfl
  have hxtick : x.tick = c.tick := by rw [hx]; rfl
  have hset (y : Chip) : y.settleLink.cal = y.cal ∧ y.settleLink.store = y.store := ⟨rfl, rfl⟩
  have moves {y : Chip} {bs bs' : List Block} (hy : x.onlyChanges y bs) (hs : .link :: .panel :: bs ⊆ bs') :
      c.onlyChanges y.settleLink bs' := Chip.pressed_onlyChanges (hx ▸ hy) hs
  rw [show s.chip.pressedAs k (s.chip.holdOf k) = x from hx.symm, (hset _).1, (hset _).2]
  refine ⟨fun hk hs hm => ?_, fun hk hs hm hu => ?_, fun hk hs hm hu => ?_, fun hk hs => ?_, fun hk hs hn => ?_,
    fun hk hs hn => ?_, fun e l hk hs hc hp => ?_, fun hk hs => ?_, fun hk hs => ?_, fun hk hs => ?_, fun hk hs => ?_,
    fun h => ?_, fun hk => moves (Chip.routeCal_onlyChanges hk) (by simp)⟩
  · subst hk
    rw [Chip.routeCal_enter, Chip.calEnter_field (by rw [hxcal]; exact hs) (by rw [hxcal]; exact hm), Chip.mapCal_cal, hxcal]
  · subst hk
    have husable : x.cfg.geom.usable = true := by rw [hxcfg]; exact (Geom.usable_iff _).mpr hu
    rw [Chip.routeCal_enter, Chip.calEnter_select (by rw [hxcal]; exact hs) (by rw [hxcal]; exact hm), Chip.mapCal_cal,
      CalUnit.endSelection_usable husable, hxcal, hxcfg]
    exact rfl
  · subst hk
    have husable : ¬x.cfg.geom.usable = true := by rw [hxcfg]; exact mt (Geom.usable_iff _).mp hu
    rw [Chip.routeCal_enter, Chip.calEnter_select (by rw [hxcal]; exact hs) (by rw [hxcal]; exact hm), Chip.mapCal_cal,
      CalUnit.endSelection_unusable husable, hxcal, hxcfg]
    exact rfl
  · subst hk
    rw [Chip.routeCal_enter]
    rcases hs with ⟨hs, hn⟩ | ⟨hs, hn⟩
    · rw [Chip.calEnter_few (by rw [hxcal]; exact .inl hs) (by rw [hxcal, CalUnit.keptCount_empty hs]; exact hn), hxcal]
    · rw [Chip.calEnter_few (by rw [hxcal]; exact .inr hs) (by rw [hxcal, CalUnit.keptCount_loaded hs]; exact hn), hxcal]
  · subst hk
    rw [Chip.routeCal_enter,
      Chip.calEnter_advance (by rw [hxcal]; exact .inl hs) (by rw [hxcal, CalUnit.keptCount_empty hs]; exact hn),
      Chip.mapCal_cal, hxcal, CalUnit.advance_empty _ hs]
    exact rfl
  · subst hk
    have hL : u.keptLoaded ≠ [] := by
      rintro h
      rw [h] at hn
      exact absurd hn (by simp)
    have hadv : (x.routeCal .enter).cal = u.advance c.cfg := by
      rw [Chip.routeCal_enter,
        Chip.calEnter_advance (by rw [hxcal]; exact .inr hs) (by rw [hxcal, CalUnit.keptCount_loaded hs]; exact hn),
        Chip.mapCal_cal, hxcal, hxcfg]
    obtain ⟨hpass, hfail⟩ := CalUnit.advance_review_iff (cfg := c.cfg) hs hL
    rw [hadv]
    refine ⟨fun hp => ?_, fun hp => hfail (mt hpasses.mpr hp), fun f hE hf => ?_⟩
    · obtain ⟨h1, h2, h3⟩ := hpass (hpasses.mp hp)
      exact ⟨h1, h2, _, _, h3, fun i => ⟨curveOf_get _ i, curveOf_get _ i⟩⟩
    · obtain ⟨hempty, hafter⟩ := reviewFailure_of_lowest (cfg := c.cfg) hE hL
      have hfailure : reviewFailure c.cfg u = some f := by
        cases f with
        | geometry => exact hf.elim
        | inconsistent loaded k =>
          cases loaded with
          | false => exact hempty k hf
          | true =>
            obtain ⟨he, hlow⟩ := hf
            exact (hafter ((hcons _).mp he)).1 k hlow
        | span k =>
          obtain ⟨he, hl, hlow⟩ := hf
          exact ((hafter ((hcons _).mp he)).2 ((hcons _).mp hl)).1 k hlow
        | isProtected =>
          obtain ⟨he, hl, hmean, hprot⟩ := hf
          exact ((hafter ((hcons _).mp he)).2 ((hcons _).mp hl)).2 hmean hprot
      rw [CalUnit.advance_failed hs hfailure]
      exact rfl
  · subst hk
    have hreq := Chip.requestCurve_facts (c := x) (e := e) (l := l) (by rw [hxcal]; exact hc)
      (by rw [hxcal, hxcfg]; exact hp)
    rw [hxcal, hxstore, hxtick] at hreq
    rw [Chip.routeCal_enter, Chip.calEnter_review (by rw [hxcal]; exact hs)]
    exact hreq
  · have hxsel : x.cal.state = .select := by rw [hxcal]; exact hs
    have hstepped := Chip.calStep_facts (decide (k = .up)) hxsel
    have hdec : (x.calStep (decide (k = .up))).panel.decoder = x.panel.decoder := by simp
    have hmode : k ≠ .mode := by rcases hk with rfl | rfl <;> simp
    have honly : x.onlyChanges (x.calStep (decide (k = .up))) [.cal, .panel] := by
      intro b hb
      cases b <;> simp_all [Chip.sameAt]
    rw [Chip.routeCal_step hk]
    refine ⟨?_, moves honly (by simp), ?_⟩
    · obtain ⟨h1, h2, h3, h4⟩ := hstepped
      have hblink : x.panel.blinkBlank = c.panel.blinkBlank ∧ x.panel.blinkTimer = c.panel.blinkTimer := by
        rw [hx]
        exact ⟨rfl, rfl⟩
      rw [hxcal] at h1 h2 h3 h4
      rw [hxtick] at h3
      rw [hblink.1, hblink.2] at h4
      exact ⟨h1, h2, h3, h4⟩
    · refine hdec.trans ?_
      rw [hx, ← Chip.holdOf_calSelect hk hs hin]
      exact rfl
  · rw [Chip.routeCal_step hk, Chip.calStep_review _ (by rw [hxcal]; exact hs), hxcal]
    rcases hk with rfl | rfl <;> rfl
  · rw [Chip.routeCal_step hk, Chip.calStep_id, hxcal]
    · rw [hxcal]
      rcases hs with h | h <;> simp [h]
    · rw [hxcal]
      rcases hs with h | h <;> simp [h]
  · subst hk
    have hleft := Chip.leaveCal_run (c := x) (by rw [hx]; exact hin)
    have hxrole : x.role = c.role := by rw [hx]; rfl
    rw [hxcal, hxrole, hxstore] at hleft
    rw [Chip.routeCal_mode (by rw [hxcal]; exact hs) (by rw [hxcal]; exact hcal)]
    exact hleft
  · rw [Chip.routeCal_id (by rw [hxcal]; exact h), hxcal]
    exact ⟨rfl, moves (Chip.onlyChanges_refl _ []) (by simp)⟩

end Sys2Proof.Machine

/-! SUPPORT. The end of the start window (R170): how the working configuration is taken, and what is evaluated again under it
(R40, R67, R71, R125). -/

namespace Sys2Proof.Machine

set_option Elab.async false

/-! ## The configuration taken -/

/-- The chip with the working configuration in force in the store, the input table and the tag mode (R64, R72, R170). -/
def Chip.underWork (c : Chip) : Chip :=
  { c with
    store := { c.store with cfg := c.store.work, window := none }
    inp := c.inp.takeConfig c.store.cfg c.store.work c.tick c.inRun
    load := { c.load with
      refused := if c.store.cfg.srcTag = 0 ↔ c.store.work.srcTag = 0 then c.load.refused else none } }

/-- The record, the input-loss timers, the backlight, the alarms and the wakes follow (R71, R40, R122). -/
def Chip.followsConfig (old : Cfg) (x : Chip) : Chip :=
  let y := x.reevaluate.syncLoss
  ((if y.inRun then y.writeShadow else y).refreshAlarms.wakeChanged old).settleLink

theorem Chip.takeConfig_eq (c : Chip) :
    c.takeConfig = (if c.store.cfg.role = c.store.work.role then c.underWork.reconfigureAlarms
      else c.underWork.reconfigureAlarms.roleChanged).followsConfig c.store.cfg := by
  obtain ⟨x, hx⟩ : ∃ x, x = (c.mapStore fun p => { p with cfg := p.work, window := none }).mapInp
    (InputTable.takeConfig c.store.cfg c.store.work c.tick c.inRun) := ⟨_, rfl⟩
  have hwork : (if (c.store.cfg.srcTag == 0) = (x.cfg.srcTag == 0) then x else x.setRefused none) = c.underWork := by
    have hcfg : x.cfg = c.store.work := by rw [hx]; rfl
    have hiff : ((c.store.cfg.srcTag == 0) = (x.cfg.srcTag == 0)) ↔ (c.store.cfg.srcTag = 0 ↔ c.store.work.srcTag = 0) := by
      rw [hcfg, Bool.eq_iff_iff, beq_iff_eq, beq_iff_eq]
    rw [ite_congr (propext hiff) (fun _ => rfl) fun _ => rfl, hx]
    unfold Chip.underWork
    split <;> rfl
  have hcfg : c.underWork.reconfigureAlarms.cfg = c.store.work := by
    have hstore : c.underWork.reconfigureAlarms.store = c.underWork.store := by simp
    rw [Chip.cfg, hstore]
    rfl
  have htake : c.takeConfig = (if c.cfg.role = c.underWork.reconfigureAlarms.cfg.role then c.underWork.reconfigureAlarms
      else c.underWork.reconfigureAlarms.roleChanged).followsConfig c.cfg := by
    rw [← hwork, hx]
    exact rfl
  rw [htake, hcfg]
  exact rfl

/-! ## What follows -/

/-- The target figures end with the OVERLOAD condition handed over (R71). -/
theorem Chip.evaluateRecord_overload {c : Chip} (h : c.inRun = true) :
    c.evaluateRecord.alarm.get .overload
      = (c.alarm.get .overload).handed (c.evaluateRecord.cond .overload) c.tick := by
  have hands (z : Chip) (hrun : z.inRun = true) (ha : z.alarm = c.alarm) (ht : z.tick = c.tick) :
      (z.refresh .overload).alarm.get .overload
        = (c.alarm.get .overload).handed ((z.refresh .overload).cond .overload) c.tick := by
    rw [Chip.refresh_cond_eq, Chip.refresh_handed _ _ hrun, ha, ht]
  unfold Chip.evaluateRecord
  split
  · exact hands c h rfl rfl
  · split
    · exact hands c h rfl rfl
    · dsimp only
      split
      · exact hands _ (by simpa [Chip.inRun] using h) (by simp) (by simp)
      · exact hands _ (by simpa [Chip.inRun] using h) (by simp) (by simp)

theorem Chip.reevaluate_record (c : Chip) : c.reevaluate.load.record = c.evaluateRecord.load.record := by
  unfold Chip.reevaluate
  dsimp only
  split
  · rfl
  · exact Chip.raiseSeq_record _

theorem Chip.reevaluate_alarm (c : Chip) : c.reevaluate.alarm = c.evaluateRecord.alarm := by
  unfold Chip.reevaluate
  dsimp only
  split
  · rfl
  · exact (Chip.raiseSeq_quiet _).1

theorem Chip.reevaluate_get {c : Chip} (h : c.inRun = true) (a : Alarm) :
    c.reevaluate.alarm.get a
      = if a = .overload then (c.alarm.get .overload).handed (c.reevaluate.cond .overload) c.tick else c.alarm.get a := by
  rw [Chip.reevaluate_alarm]
  split
  · rename_i ha
    have hcond : c.reevaluate.cond .overload = c.evaluateRecord.cond .overload :=
      Chip.cond_congr (by simp) (by simp) (by simp) (by simp) (c.reevaluate_record) (by simp) _
    rw [ha, hcond]
    exact Chip.evaluateRecord_overload h
  · rename_i ha
    exact (Chip.RecordMoves.evaluateRecord c).alarm a ha

/-- A raise of the sequence sends the record, and nothing else is sent (R67, R70). -/
theorem Chip.reevaluate_link {c : Chip} (h : c.inRun = true) :
    c.reevaluate.link = if c.reevaluate.load.record = c.load.record then c.link else c.reevaluate.sends c.link [] := by
  have hlink : c.evaluateRecord.link = c.link := by simp
  rw [Chip.reevaluate_record]
  unfold Chip.reevaluate
  dsimp only
  split
  · exact hlink
  · rw [Chip.raiseSeq_link _ (by simpa [Chip.inRun] using h), hlink]

/-- What follows the configuration and the role x (R40, R67, R71, R122). -/
structure Chip.ConfigFollows (x d : Chip) : Prop where
  store : d.store = x.store
  inp : d.inp = x.inp
  eng : d.eng = x.eng
  role : d.role = x.role
  load : d.load = x.reevaluate.load
  trk : d.trk = d.lossTimed x.trk
  settings : d.panel.settings = x.panel.settings
  page : d.panel.page = x.panel.page
  link : x.inRun = true → d.link = x.reevaluate.link.settle d.maySend
  handed : x.inRun = true → ∀ a, d.alarm.get a = (x.alarm.get a).handed (d.cond a) x.tick
  asleep : x.inRun = false → d.alarm = x.alarm
  only : x.onlyChanges d [.link, .trk, .load, .alarm, .panel]

theorem Chip.wakeChanged_run {x : Chip} (old : Cfg) (h : x.inRun = true) : x.wakeChanged old = x := by
  have hrun : x.sup.power = .run := (Chip.inRun_iff x).mp h
  unfold Chip.wakeChanged
  dsimp only
  rw [if_pos (.inr (by rw [hrun]; decide)), hrun]

theorem Chip.refreshAlarms_asleep {x : Chip} (h : x.inRun = false) : x.refreshAlarms = x := by
  have hall (as : List Alarm) : as.foldl (fun c a => c.refresh a) x = x := by
    induction as with
    | nil => rfl
    | cons a as ih => rw [List.foldl_cons, Chip.refresh, Chip.takeCond_suspended _ _ _ h, ih]
  exact hall _

theorem Chip.reevaluate_asleep {x : Chip} (h : x.inRun = false) : x.reevaluate.alarm = x.alarm := by
  rw [Chip.reevaluate_alarm]
  have hrefresh (z : Chip) (hz : z.inRun = false) (ha : z.alarm = x.alarm) : (z.refresh .overload).alarm = x.alarm := by
    rw [Chip.refresh, Chip.takeCond_suspended _ _ _ hz, ha]
  unfold Chip.evaluateRecord
  split
  · exact hrefresh x h rfl
  · split
    · exact hrefresh x h rfl
    · dsimp only
      split
      · exact hrefresh _ (by simpa [Chip.inRun] using h) (by simp)
      · exact hrefresh _ (by simpa [Chip.inRun] using h) (by simp)

theorem Chip.followsConfig_follows (old : Cfg) (x : Chip) : x.ConfigFollows (x.followsConfig old) := by
  obtain ⟨y, hy⟩ : ∃ y, y = x.reevaluate.syncLoss := ⟨_, rfl⟩
  obtain ⟨z, hz⟩ : ∃ z, z = if y.inRun then y.writeShadow else y := ⟨_, rfl⟩
  obtain ⟨v, hv⟩ : ∃ v, v = z.refreshAlarms.wakeChanged old := ⟨_, rfl⟩
  have hd : x.followsConfig old = v.settleLink := by
    unfold Chip.followsConfig
    dsimp only
    rw [← hy, ← hz, ← hv]
  have hxe : x.onlyChanges x.reevaluate [.link, .load, .alarm, .panel] := by
    intro b hb
    cases b <;> simp_all [Chip.sameAt]
  have hey : x.reevaluate.onlyChanges y [.trk] := by
    rw [hy]
    intro b hb
    cases b <;> simp_all [Chip.sameAt]
  have hyz : y.onlyChanges z [.panel] := by
    rw [hz]
    split
    · intro b hb
      cases b <;> simp_all [Chip.sameAt]
    · exact Chip.onlyChanges_refl _ _
  have hzv : z.onlyChanges v [.link, .alarm, .panel] := by
    rw [hv]
    intro b hb
    cases b <;> simp_all [Chip.sameAt]
  have hvd : v.onlyChanges v.settleLink [.link] := (Chip.onlyChanges_refl v _).settleLink (by simp)
  have hyd : y.onlyChanges v.settleLink [.link, .alarm, .panel] :=
    (hyz.mono (by simp)).trans (hzv.trans (hvd.mono (by simp)))
  have hed : x.reevaluate.onlyChanges v.settleLink [.link, .trk, .alarm, .panel] :=
    (hey.mono (by simp)).trans (hyd.mono (by simp))
  have honly : x.onlyChanges v.settleLink [.link, .trk, .load, .alarm, .panel] :=
    (hxe.mono (by simp)).trans (hed.mono (by simp))
  have hrun : y.inRun = x.inRun := by rw [hy]; simp [Chip.inRun]
  have hzrun : z.inRun = x.inRun := by
    have hsup : z.sup = y.sup := hyz .sup (by simp)
    rw [← hrun, Chip.inRun, Chip.inRun, hsup]
  have hzalarm : z.alarm = x.reevaluate.alarm := by
    have h1 : z.alarm = y.alarm := hyz .alarm (by simp)
    have h2 : y.alarm = x.reevaluate.alarm := hey .alarm (by simp)
    rw [h1, h2]
  have hzpanel : z.panel.settings = x.panel.settings ∧ z.panel.page = x.panel.page := by
    rw [hz, hy]
    split <;> simp
  have hvpanel : v.panel.settings = z.panel.settings ∧ v.panel.page = z.panel.page := by rw [hv]; simp
  rw [hd]
  refine
    { store := honly .store (by simp), inp := honly .inp (by simp), eng := honly .eng (by simp)
      role := honly .role (by simp), load := hed .load (by simp), only := honly
      settings := hvpanel.1.trans hzpanel.1, page := hvpanel.2.trans hzpanel.2
      trk := ?_, link := fun h => ?_, handed := fun h a => ?_, asleep := fun h => ?_ }
  · have htrk : v.settleLink.trk = y.trk := hyd .trk (by simp)
    have hinp : v.settleLink.inp = x.reevaluate.inp := hed .inp (by simp)
    have htick : v.settleLink.tick = x.reevaluate.tick := hed .tick (by simp)
    have hxtrk : x.reevaluate.trk = x.trk := hxe .trk (by simp)
    rw [htrk, hy, Chip.syncLoss_trk, hxtrk, Chip.lossTimed, Chip.lossTimed, hinp, htick]
  · have hstay : v.link = z.link := by
      rw [hv, Chip.wakeChanged_run old (by simpa [Chip.inRun] using hzrun.trans h)]
      simp
    have hzlink : z.link = y.link := hyz .link (by simp)
    have hylink : y.link = x.reevaluate.link := hey .link (by simp)
    rw [Chip.settleLink_link, Chip.settleLink_maySend, hstay, hzlink, hylink]
  · have hzr : z.inRun = true := hzrun.trans h
    have hvalarm : v.alarm = z.refreshAlarms.alarm := by rw [hv]; simp
    have hcond (b : Alarm) : v.settleLink.cond b = z.cond b ∧ z.cond b = x.reevaluate.cond b := by
      have hxz := (hey.mono (bs' := [.trk, .panel]) (by simp)).trans (hyz.mono (by simp))
      have hzd := hzv.trans (hvd.mono (by simp))
      have hload : z.load = x.reevaluate.load := hxz .load (by simp)
      have hload' : v.settleLink.load = z.load := hzd .load (by simp)
      have hset : z.panel.settings = x.reevaluate.panel.settings := hzpanel.1.trans (by simp)
      have hset' : v.settleLink.panel.settings = z.panel.settings := hvpanel.1
      exact ⟨Chip.cond_congr (hzd .sup (by simp)) (hzd .inp (by simp)) (hzd .role (by simp)) (hzd .store (by simp))
          (by rw [hload']) (by rw [hset']) b,
        Chip.cond_congr (hxz .sup (by simp)) (hxz .inp (by simp)) (hxz .role (by simp)) (hxz .store (by simp))
          (by rw [hload]) (by rw [hset]) b⟩
    have htick : z.tick = x.tick := by
      have h1 : z.tick = y.tick := hyz .tick (by simp)
      have h2 : y.tick = x.tick := by rw [hy]; simp
      rw [h1, h2]
    have hget : v.settleLink.alarm.get a = (x.reevaluate.alarm.get a).handed (z.cond a) x.tick := by
      rw [show v.settleLink.alarm = v.alarm from rfl, hvalarm, Chip.refreshAlarms_get z hzr, hzalarm, htick]
    rw [hget, (hcond a).1, Chip.reevaluate_get h]
    split
    · rename_i ha
      rw [ha, (hcond .overload).2, AlarmRec.handed_twice]
    · rfl
  · have hvalarm : v.alarm = z.refreshAlarms.alarm := by rw [hv]; simp
    rw [show v.settleLink.alarm = v.alarm from rfl, hvalarm, Chip.refreshAlarms_asleep (hzrun.trans h), hzalarm,
      Chip.reevaluate_asleep h]

end Sys2Proof.Machine

/-! SUPPORT. The end of the start window (R170): the change of the configured role (R120). -/

namespace Sys2Proof.Machine

set_option Elab.async false

/-! ## The tracker of a part that becomes a REPEATER (R120, R47) -/

theorem Chip.restartTracker_facts (c : Chip) :
    let flying := c.trk.cycle = .lift ∨ c.trk.cycle = .weigh ∨ c.trk.cycle = .carry
    let voids := if flying then { c.trk.voids with restart := min 65535 (c.trk.voids.restart + 1) } else c.trk.voids
    c.restartTracker.eng = (if c.trk.cycle = .weigh then { c.eng with isOpen := false } else c.eng)
      ∧ (c.trk.cycle ≠ .suspended →
          c.restartTracker.trk = { c.trk.without with cycle := .idle, racked := false, voids := voids })
      ∧ (c.trk.cycle = .suspended → c.restartTracker.trk = c.trk) := by
  intro flying voids
  simp only [voids, flying]
  unfold Chip.restartTracker
  dsimp only
  cases hc : c.trk.cycle with
  | lift | weigh | carry =>
    simp [Tracker.inFlight, Chip.voidPass, Chip.shutIfWeigh, Tracker.endPass, Tracker.without, Voids.raise, bump, satAdd,
      Engine.shut, hc]
  | idle | fill | dump | ret | suspended => simp [Tracker.inFlight, Tracker.endPass, Tracker.without, hc]

/-! ## The role entered -/

/-- What a new role leaves of the part c (R86, R117, R120). -/
structure Chip.RoleRestarts (c d : Chip) : Prop where
  load : d.load = { c.load with refreshTimer := d.load.refreshTimer, pollTimer := d.load.pollTimer }
  alarm : ∀ a, d.alarm.get a = c.alarm.get a
    ∨ a = .noWeigher ∧ d.alarm.get a = (c.alarm.get a).handed d.role.noWeigher c.tick
  page : d.panel.settings = c.panel.settings ∧ d.panel.page = c.panel.page
  trk : d.trk = { c.trk with note := none }
  only : c.onlyChanges d [.link, .trk, .load, .role, .alarm, .panel]

/-- The NO WEIGHER condition is clear and handed over in the role entered. -/
theorem Chip.handed_noWeigher {c z d : Chip} (hrun : z.inRun = true) (ha : z.alarm = c.alarm) (ht : z.tick = c.tick)
    (hz : z.role.noWeigher = false) (hd : d.alarm = (z.refresh .noWeigher).alarm) (hr : d.role.noWeigher = false) (a : Alarm) :
    d.alarm.get a = c.alarm.get a ∨ a = .noWeigher ∧ d.alarm.get a = (c.alarm.get a).handed d.role.noWeigher c.tick := by
  rw [hd]
  by_cases h : a = .noWeigher
  · have hcond : z.cond .noWeigher = d.role.noWeigher := hz.trans hr.symm
    rw [h, Chip.refresh_handed _ _ hrun, ha, ht, hcond]
    exact .inr ⟨rfl, rfl⟩
  · rw [Chip.refresh_others _ _ _ h, ha]
    exact .inl rfl

theorem Chip.enterListen_restarts {c : Chip} (h : c.inRun = true) : c.RoleRestarts c.enterListen := by
  obtain ⟨z, hz⟩ : ∃ z, z = ((c.leaveRole.setRole .listen).mapRole fun r =>
    { r with named := none, namedSeq := none, watch := none, listen := some c.tick, status := none }).mapLink Link.emptyW :=
    ⟨_, rfl⟩
  have he : c.enterListen = z.refresh .noWeigher := by rw [hz]; rfl
  obtain ⟨hlrole, hlload, -⟩ := c.leaveRole_facts
  have hzload : z.load = { c.load with refreshTimer := none, pollTimer := none } := by rw [hz]; exact hlload
  have hzrole : z.role.noWeigher = false := by
    rw [hz]
    exact congrArg RoleArbiter.noWeigher hlrole
  have hztrk : z.trk = { c.trk with note := none } := by
    have htrk : c.leaveRole.trk = c.trk := by simp
    rw [hz]
    exact congrArg (fun t : Tracker => { t with note := none }) htrk
  have hzsup : z.sup = c.sup := by rw [hz]; simp
  have hload : c.enterListen.load = z.load := by rw [he]; simp
  refine
    { load := by rw [hload, hzload], page := by simp
      trk := by
        have htrk : c.enterListen.trk = z.trk := by rw [he]; simp
        rw [htrk, hztrk]
      alarm := Chip.handed_noWeigher (by rw [Chip.inRun, hzsup]; exact h) (by rw [hz]; simp) (by rw [hz]; simp) hzrole (by rw [he])
        (by rw [Chip.enterListen_role])
      only := ?_ }
  intro b hb
  cases b <;> simp_all [Chip.sameAt]

theorem Chip.enterRepeat_restarts {c : Chip} (h : c.inRun = true) : c.RoleRestarts c.enterRepeat := by
  obtain ⟨z, hz⟩ : ∃ z, z = (c.leaveRole.setRole .repeating).mapRole fun r =>
    { r with named := none, namedSeq := none, watch := some c.tick, listen := none } := ⟨_, rfl⟩
  obtain ⟨w, hw⟩ : ∃ w, w = (z.refresh .noWeigher).writeStatus := ⟨_, rfl⟩
  have he : c.enterRepeat = if w.polls then w.poll else w := by
    rw [hw, hz]
    rfl
  obtain ⟨hlrole, hlload, -⟩ := c.leaveRole_facts
  have hzload : z.load = { c.load with refreshTimer := none, pollTimer := none } := by rw [hz]; exact hlload
  have hwload : w.load = z.load := by rw [hw]; simp
  have hzrole : z.role.noWeigher = false := by
    rw [hz]
    exact congrArg RoleArbiter.noWeigher hlrole
  have hzsup : z.sup = c.sup := by rw [hz]; simp
  have hwalarm : w.alarm = (z.refresh .noWeigher).alarm := by rw [hw]; simp
  have hfrom : w.onlyChanges c.enterRepeat [.link, .load] := by
    rw [he]
    split
    · exact w.poll_onlyChanges
    · exact Chip.onlyChanges_refl _ _
  have hto : c.onlyChanges w [.link, .trk, .load, .role, .alarm, .panel] := by
    rw [hw, hz]
    intro b hb
    cases b <;> simp_all [Chip.sameAt]
  have halarm : c.enterRepeat.alarm = w.alarm := hfrom .alarm (by simp)
  refine
    { load := ?_, page := by simp, trk := (c.enterRepeat_facts ((Chip.inRun_iff c).mp h)).2.2.2
      alarm := Chip.handed_noWeigher (by rw [Chip.inRun, hzsup]; exact h) (by rw [hz]; simp) (by rw [hz]; simp) hzrole
        (halarm.trans hwalarm) (by rw [Chip.enterRepeat_role])
      only := hto.trans (hfrom.mono (by simp)) }
  rw [he]
  split
  · rw [Chip.poll_load, hwload, hzload]
  · rw [hwload, hzload]

theorem Chip.RoleRestarts.mirror {c d : Chip} (h : c.RoleRestarts d) :
    c.RoleRestarts (d.mapRole fun r => { r with mirrored := true }) where
  load := h.load
  alarm := h.alarm
  page := h.page
  trk := h.trk
  only := h.only.trans fun b hb => by cases b <;> simp_all [Chip.sameAt]

end Sys2Proof.Machine

/-! SUPPORT. The end of the start window (R170): the role changed in and outside RUN, and the input table under the new
configuration (R58, R59, R64, R120). -/

namespace Sys2Proof.Machine

set_option Elab.async false

/-! ## The role changed in RUN (R120) -/

/-- What no change of the configured role moves of the part c, but the timers, NO WEIGHER and the blocks named. -/
structure Chip.RoleSettled (c d : Chip) : Prop where
  load : d.load = { c.load with refreshTimer := d.load.refreshTimer, pollTimer := d.load.pollTimer }
  alarm : ∀ a, d.alarm.get a = c.alarm.get a
    ∨ a = .noWeigher ∧ d.alarm.get a = (c.alarm.get a).handed d.role.noWeigher c.tick
  page : d.panel.settings = c.panel.settings ∧ d.panel.page = c.panel.page
  only : c.onlyChanges d [.link, .eng, .trk, .load, .role, .alarm, .panel]

theorem Chip.RoleSettled.refl (c : Chip) : c.RoleSettled c := ⟨rfl, fun _ => .inl rfl, ⟨rfl, rfl⟩, Chip.onlyChanges_refl _ _⟩

theorem Chip.RoleSettled.mapRole (c : Chip) (f : RoleArbiter → RoleArbiter) : c.RoleSettled (c.mapRole f) where
  load := rfl
  alarm _ := .inl rfl
  page := ⟨rfl, rfl⟩
  only b hb := by cases b <;> simp_all [Chip.sameAt]

/-- What the configured role, taken in RUN, leaves of the part c. -/
structure Chip.RoleChanges (c d : Chip) : Prop extends Chip.RoleSettled c d where
  note : d.trk = { (if c.isWeigher then c else c.restartTracker).trk with
    note := if c.role.state = .mute then c.trk.note else none }
  eng : d.eng = (if c.isWeigher then c else c.restartTracker).eng
  mute : c.role.state = .mute → d.role = c.role
  listens : c.role.state ≠ .mute → c.isWeigher = true →
    d.role.state = .listen ∧ d.role.listen = some c.tick ∧ d.role.named = none
  repeats : c.role.state ≠ .mute → c.isWeigher = false →
    d.role.state = .repeating ∧ d.role.watch = some c.tick ∧ d.role.mirrored = true
      ∧ d.load.pollTimer = (if c.panel.page = .count then some c.tick else none)

theorem Chip.restartTracker_note (c : Chip) : c.restartTracker.trk.note = c.trk.note := by
  obtain ⟨-, hawake, hasleep⟩ := c.restartTracker_facts
  by_cases h : c.trk.cycle = .suspended
  · rw [hasleep h]
  · rw [hawake h]
    rfl

theorem Chip.roleChanged_run {c : Chip} (h : c.inRun = true) : c.RoleChanges c.roleChanged := by
  obtain ⟨y, hy⟩ : ∃ y, y = if c.isWeigher then c else c.restartTracker := ⟨_, rfl⟩
  have honly : c.onlyChanges y [.eng, .trk] := by
    rw [hy]
    split
    · exact Chip.onlyChanges_refl _ _
    · intro b hb
      cases b <;> simp_all [Chip.sameAt]
  have hrole : y.role = c.role := honly .role (by simp)
  have halarm : y.alarm = c.alarm := honly .alarm (by simp)
  have hload : y.load = c.load := honly .load (by simp)
  have hpanel : y.panel = c.panel := honly .panel (by simp)
  have htick : y.tick = c.tick := honly .tick (by simp)
  have hsup : y.sup = c.sup := honly .sup (by simp)
  have hstore : y.store = c.store := honly .store (by simp)
  have hyrun : y.inRun = true := by rw [Chip.inRun, hsup]; exact h
  have hweigher : y.isWeigher = c.isWeigher := by rw [Chip.isWeigher, Chip.isWeigher, hstore]
  have hnote : y.trk.note = c.trk.note := by
    rw [hy]
    split
    · rfl
    · exact c.restartTracker_note
  have hd : c.roleChanged = if y.role.state = .mute then y else if y.isWeigher then y.enterListen
      else y.enterRepeat.mapRole fun r => { r with mirrored := true } := by
    unfold Chip.roleChanged Chip.roleChangedInRun
    rw [if_pos h]
    dsimp only
    rw [← hy]
  by_cases hm : c.role.state = .mute
  · have hdy : c.roleChanged = y := by rw [hd, if_pos (by rw [hrole]; exact hm)]
    rw [hdy]
    refine
      { load := by rw [hload], alarm := fun a => .inl (by rw [halarm]), page := by rw [hpanel]; exact ⟨rfl, rfl⟩
        only := honly.mono (by simp), note := ?_, eng := by rw [hy]
        mute := fun _ => hrole, listens := fun hn => absurd hm hn, repeats := fun hn => absurd hm hn }
    rw [← hy, if_pos hm, ← hnote]
  · have hrestarts : y.RoleRestarts c.roleChanged := by
      rw [hd, if_neg (by rw [hrole]; exact hm)]
      split
      · exact Chip.enterListen_restarts hyrun
      · exact (Chip.enterRepeat_restarts hyrun).mirror
    have heng : c.roleChanged.eng = y.eng := hrestarts.only .eng (by simp)
    refine
      { load := by rw [hrestarts.load, hload], alarm := fun a => by rw [← halarm, ← htick]; exact hrestarts.alarm a
        page := by rw [← hpanel]; exact hrestarts.page
        only := (honly.mono (by simp)).trans (hrestarts.only.mono (by simp))
        note := by rw [hrestarts.trk, ← hy, if_neg hm], eng := by rw [heng, hy]
        mute := fun hc => absurd hc hm, listens := fun _ hw => ?_, repeats := fun _ hw => ?_ }
    · rw [hd, if_neg (by rw [hrole]; exact hm), if_pos (hweigher.trans hw), Chip.enterListen_role, htick]
      exact ⟨rfl, rfl, rfl⟩
    · obtain ⟨hstate, hwatch, hpoll, -⟩ := y.enterRepeat_facts ((Chip.inRun_iff y).mp hyrun)
      rw [hd, if_neg (by rw [hrole]; exact hm), if_neg (by rw [hweigher, hw]; decide)]
      rw [htick] at hwatch hpoll
      rw [hpanel] at hpoll
      exact ⟨hstate, hwatch, rfl, hpoll⟩

/-- Outside RUN the role changed rewrites the resume role alone (R170). -/
theorem Chip.roleChanged_asleep {c : Chip} (h : c.inRun = false) :
    c.roleChanged = c.mapRole (RoleArbiter.roleChangedAsleep c.isWeigher) := by
  unfold Chip.roleChanged
  rw [if_neg (by rw [h]; decide)]

/-! ## The input table -/

theorem ChanId.mem_all (i : ChanId) : i ∈ ChanId.all := by cases i <;> decide

theorem InputTable.takeConfig_facts (old new : Cfg) (now : Tick) (run : Bool) (t : InputTable) :
    let u := t.takeConfig old new now run
    let reset := ∃ a, t.sel = some a ∧ old.source a.chan ≠ new.source a.chan
    (∀ i, old.source i ≠ new.source i → u.chan i = (t.chan i).rechannel now run ∧ u.held.agree HeldValues.none i)
      ∧ (∀ i, old.source i = new.source i → u.chan i = t.chan i ∧ u.held.agree t.held i)
      ∧ (u.primary.freshness = .fresh → u.sel = some .primary)
      ∧ (u.primary.freshness ≠ .fresh → u.secondary.freshness = .fresh → u.sel = some .secondary)
      ∧ (u.primary.freshness ≠ .fresh → u.secondary.freshness ≠ .fresh →
          u.sel = (if t.sel.isSome = true ∧ ¬reset then t.sel
            else if u.held.primary.isSome = true then some .primary
            else if u.held.secondary.isSome = true then some .secondary
            else none))
      ∧ (u.disagree = true ↔
          u.primary.freshness = .fresh ∧ u.secondary.freshness = .fresh
            ∧ ∃ p q, u.held.primary = some p ∧ u.held.secondary = some q ∧ new.disagreeLimit < (p - q).natAbs)
      ∧ (reset ∨ u.sel ≠ t.sel → u.omega = none ∧ u.rateMem = none)
      ∧ (¬reset → u.sel = t.sel → u.omega = t.omega ∧ u.rateMem = t.rateMem) := by
  intro u reset
  obtain ⟨v, hv⟩ : ∃ v, v = ChanId.all.foldl
    (fun t i => if old.source i = new.source i then t else t.rechannel now run i) t := ⟨_, rfl⟩
  have hu : u = v.derive new.disagreeLimit := by rw [hv]; rfl
  obtain ⟨hreset, -, hkept, hleft, hstays, -⟩ := hv ▸ InputTable.rechannel_list old new now run ChanId.all (by decide) t
  obtain ⟨hmem, homega⟩ := v.derive_rate new.disagreeLimit
  have hsel : u.sel = v.selection := by rw [hu]; simp
  have hheld : u.held = v.held := by rw [hu]; simp
  have hchan (i : ChanId) : u.chan i = v.chan i := by rw [hu]; simp
  have hprimary : u.primary = v.primary := hchan .primary
  have hsecondary : u.secondary = v.secondary := hchan .secondary
  have hresets : reset → v.sel = none ∧ v.omega = none ∧ v.rateMem = none := fun ⟨a, ha, hne⟩ =>
    hleft ⟨a, ha, ChanId.mem_all _, hne⟩
  have hstands : ¬reset → v.sel = t.sel ∧ v.omega = t.omega ∧ v.rateMem = t.rateMem := fun hn =>
    hstays fun ⟨a, ha, _, hne⟩ => hn ⟨a, ha, hne⟩
  rw [← hu] at hmem homega
  rw [hprimary, hsecondary, hsel, hheld]
  refine ⟨fun i hi => ?_, fun i hi => ?_, fun hp => ?_, fun hp hq => ?_, fun hp hq => ?_, ?_, fun hr => ?_, fun hn hs => ?_⟩
  · rw [hchan]
    exact hreset i (ChanId.mem_all i) hi
  · rw [hchan]
    exact hkept i (.inr hi)
  · simp only [InputTable.selection, if_pos hp]
  · simp only [InputTable.selection, if_neg hp, if_pos hq]
  · by_cases hr : reset
    · rw [if_neg fun h => h.2 hr]
      simp only [InputTable.selection, if_neg hp, if_neg hq, (hresets hr).1]
    · have hvs := (hstands hr).1
      by_cases hs : t.sel.isSome = true
      · obtain ⟨a, ha⟩ := Option.isSome_iff_exists.mp hs
        rw [if_pos ⟨hs, hr⟩, ha]
        simp only [InputTable.selection, if_neg hp, if_neg hq, hvs.trans ha]
      · rw [if_neg fun h => hs h.1]
        simp only [InputTable.selection, if_neg hp, if_neg hq, hvs.trans (Option.not_isSome_iff_eq_none.mp hs)]
  · rw [hu]
    exact v.derive_disagree new.disagreeLimit
  · rcases hr with hr | hs
    · obtain ⟨-, ho, hm⟩ := hresets hr
      rw [homega, hmem, ho, hm]
      exact ⟨ite_self _, ite_self _⟩
    · by_cases hr : reset
      · obtain ⟨-, ho, hm⟩ := hresets hr
        rw [homega, hmem, ho, hm]
        exact ⟨ite_self _, ite_self _⟩
      · rw [(hstands hr).1.symm] at hs
        rw [homega, hmem, if_neg hs, if_neg hs]
        exact ⟨rfl, rfl⟩
  · obtain ⟨hvs, ho, hm⟩ := hstands hn
    rw [homega, hmem, if_pos (hs.trans hvs.symm), if_pos (hs.trans hvs.symm)]
    exact ⟨ho, hm⟩

theorem ChanRec.rechannel_eq {c : Chip} (r : ChanRec) :
    r.rechannel c.tick c.inRun = { r with
      freshness := .absent, latestTick := none, latestStatus := none, overRange := ⟨false, false, false⟩
      prevSeq := none, staleTimer := none, loss := if c.sup.power = .run then .running c.tick else .stopped } := by
  unfold ChanRec.rechannel
  rw [ite_congr (propext (Chip.inRun_iff c)) (fun _ => rfl) fun _ => rfl]
  exact rfl

end Sys2Proof.Machine

/-! SUPPORT. The end of the start window brings the working configuration into force: O55. -/

namespace Sys2Proof.Machine

set_option Elab.async false

/-- The alarm records under the working configuration, and the blocks that took it (R64, R72, R125, R170). -/
structure Chip.ConfigTaken (c x : Chip) : Prop where
  store : x.store = { c.store with cfg := c.store.work, window := none }
  inp : x.inp = c.inp.takeConfig c.store.cfg c.store.work c.tick c.inRun
  load : x.load = { c.load with
    refused := if c.store.cfg.srcTag = 0 ↔ c.store.work.srcTag = 0 then c.load.refused else none }
  page : x.panel.settings = c.panel.settings ∧ x.panel.page = c.panel.page
  awake : c.inRun = true → ∀ a, x.alarm.get a
    = (c.alarm.get a).reconfigured (c.store.work.alarmMode a) (c.store.work.alarmMask a) c.tick
  asleep : c.inRun = false → ∀ a, x.alarm.get a
    = { c.alarm.get a with mode := c.store.work.alarmMode a, mask := c.store.work.alarmMask a }
  only : c.onlyChanges x [.inp, .load, .alarm, .panel, .store]

theorem Chip.underWork_taken (c : Chip) : c.ConfigTaken c.underWork.reconfigureAlarms where
  store := by
    have h : c.underWork.reconfigureAlarms.store = c.underWork.store := by simp
    exact h
  inp := by
    have h : c.underWork.reconfigureAlarms.inp = c.underWork.inp := by simp
    exact h
  load := by
    have h : c.underWork.reconfigureAlarms.load = c.underWork.load := by simp
    exact h
  page := by
    have h : c.underWork.reconfigureAlarms.panel.settings = c.underWork.panel.settings
        ∧ c.underWork.reconfigureAlarms.panel.page = c.underWork.panel.page := by simp
    exact h
  awake h a := c.underWork.reconfigureAlarms_get h a
  asleep h a := c.underWork.reconfigureAlarms_asleep h a
  only := by
    have hwork : c.onlyChanges c.underWork [.inp, .load, .store] := by
      intro b hb
      cases b <;> simp_all [Chip.sameAt, Chip.underWork]
    have hmodes : c.underWork.onlyChanges c.underWork.reconfigureAlarms [.alarm, .panel] := by
      intro b hb
      cases b <;> simp_all [Chip.sameAt]
    exact (hwork.mono (by simp)).trans (hmodes.mono (by simp))

theorem Chip.evaluateRecord_kept {c : Chip} (h : c.load.record = none ∨ c.role.mirrored = true) :
    c.evaluateRecord.load.record = c.load.record := by
  unfold Chip.evaluateRecord
  rcases h with h | h
  · split
    · simp
    · rename_i r hr
      exact absurd (hr.symm.trans h) (by simp)
  · split
    · simp
    · rw [if_pos h]
      simp

theorem seq_succ_ne (q : BitVec 8) : q + 1 ≠ q := by
  intro h
  have := congrArg BitVec.toNat h
  rw [BitVec.toNat_add] at this
  have hlt := q.isLt
  simp at this
  omega

/-- Settles O55: the blocks that take the configuration, the role, and what follows them. -/
theorem windowEndBringsTheConfiguration : Obligations.WindowEndBringsTheConfiguration := by
  unfold Obligations.WindowEndBringsTheConfiguration
  intro s hup hdue
  refine gives_whenUp _ s Chip.startWindowEnd _ rfl hup ?_
  have he : s.chip.startWindowEnd = s.chip.takeConfig := if_pos (due_of_ranOut _ _ _ hdue)
  rw [he, Chip.takeConfig_eq]
  intro c old new flying note reset
  obtain ⟨x1, hx1⟩ : ∃ x1, x1 = c.underWork.reconfigureAlarms := ⟨_, rfl⟩
  obtain ⟨x, hx⟩ : ∃ x, x = if old.role = new.role then x1 else x1.roleChanged := ⟨_, rfl⟩
  have taken : c.ConfigTaken x1 := hx1 ▸ c.underWork_taken
  have follows := x.followsConfig_follows old
  rw [show (if s.chip.store.cfg.role = s.chip.store.work.role then s.chip.underWork.reconfigureAlarms
    else s.chip.underWork.reconfigureAlarms.roleChanged) = x by rw [hx, hx1]]
  change x.ConfigFollows (x.followsConfig s.chip.store.cfg) at follows
  generalize x.followsConfig s.chip.store.cfg = d at follows ⊢
  have hsup1 : x1.sup = c.sup := taken.only .sup (by simp)
  have hrole1 : x1.role = c.role := taken.only .role (by simp)
  have htrk1 : x1.trk = c.trk := taken.only .trk (by simp)
  have heng1 : x1.eng = c.eng := taken.only .eng (by simp)
  have hlink1 : x1.link = c.link := taken.only .link (by simp)
  have htick1 : x1.tick = c.tick := taken.only .tick (by simp)
  have hrun1 : x1.inRun = c.inRun := by rw [Chip.inRun, Chip.inRun, hsup1]
  have hnew1 : x1.store.cfg = new := by rw [taken.store]
  have awake (h : c.sup.power = .run) : c.inRun = true := (Chip.inRun_iff c).mpr h
  have unlit (h : c.sup.power ≠ .run) : c.inRun = false := by simpa [Chip.inRun] using h
  have same (h : old.role = new.role) : x = x1 := hx.trans (if_pos h)
  have changes (hp : c.sup.power = .run) (h : old.role ≠ new.role) : x1.RoleChanges x := by
    rw [hx, if_neg h]
    exact Chip.roleChanged_run (hrun1.trans (awake hp))
  have sleeps (hp : c.sup.power ≠ .run) (h : old.role ≠ new.role) :
      x = x1.mapRole (RoleArbiter.roleChangedAsleep x1.isWeigher) := by
    rw [hx, if_neg h]
    exact Chip.roleChanged_asleep (hrun1.trans (unlit hp))
  have settled : x1.RoleSettled x := by
    by_cases h : old.role = new.role
    · rw [same h]
      exact .refl x1
    · by_cases hp : c.sup.power = .run
      · exact (changes hp h).toRoleSettled
      · rw [sleeps hp h]
        exact .mapRole _ _
  have hxstore : x.store = x1.store := settled.only .store (by simp)
  have hxinp : x.inp = x1.inp := settled.only .inp (by simp)
  have hxtick : x.tick = c.tick := by
    have h : x.tick = x1.tick := settled.only .tick (by simp)
    rw [h, htick1]
  have hxsup : x.sup = c.sup := by
    have h : x.sup = x1.sup := settled.only .sup (by simp)
    rw [h, hsup1]
  have hxrun : x.inRun = c.inRun := by rw [Chip.inRun, Chip.inRun, hxsup]
  have hdstore : d.store = { c.store with cfg := new, window := none } := follows.store.trans (hxstore.trans taken.store)
  have hdcfg : d.cfg = new := by rw [Chip.cfg, hdstore]
  have hxcfg : x.cfg = new := by rw [Chip.cfg, hxstore, hnew1]
  have hdinp : d.inp = c.inp.takeConfig old new c.tick c.inRun := follows.inp.trans (hxinp.trans taken.inp)
  have hxload : x.load = { c.load with
      refused := if old.srcTag = 0 ↔ new.srcTag = 0 then c.load.refused else none
      refreshTimer := x.load.refreshTimer, pollTimer := x.load.pollTimer } := by
    have h := settled.load
    rw [taken.load] at h
    exact h
  obtain ⟨hreload, hrefig⟩ := x.reevaluate_load
  rw [← follows.load] at hreload hrefig
  have hxrec : x.load.record = c.load.record := by rw [hxload]
  have hxseq : x.load.seq = c.load.seq := by rw [hxload]
  rw [hxrec, hxseq] at hreload
  rw [hxrec] at hrefig
  have hdrec : d.load.record = x.evaluateRecord.load.record := by rw [follows.load, Chip.reevaluate_record]
  have hdseq : d.load.seq = if d.load.record = c.load.record then c.load.seq else c.load.seq + 1 := by
    rw [hreload]
  have honly : c.onlyChanges d [.link, .inp, .eng, .trk, .load, .role, .alarm, .panel, .store] :=
    (taken.only.mono (by simp)).trans ((settled.only.mono (by simp)).trans (follows.only.mono (by simp)))
  obtain ⟨i1, i2, i3, i4, i5, i6, i7, i8⟩ := c.inp.takeConfig_facts old new c.tick c.inRun
  rw [← hdinp] at i1 i2 i3 i4 i5 i6 i7 i8
  have hrecord (r : TruckRec) (hr : c.load.record = some r) (hm : d.role.mirrored = false) :
      d.load.record = some (r.evaluate new) := by
    have hxm : x.role.mirrored = false := by rw [← follows.role]; exact hm
    rw [hdrec, Chip.evaluateRecord_own x hxm, hxrec, hr, hxcfg]
    rfl
  have hkept (h : c.load.record = none ∨ d.role.mirrored = true) : d.load.record = c.load.record := by
    rw [hdrec, Chip.evaluateRecord_kept (by rw [hxrec, ← follows.role]; exact h), hxrec]
  have handed (hp : c.sup.power = .run) (a : Alarm) : d.alarm.get a
      = ((c.alarm.get a).reconfigured (new.alarmMode a) (new.alarmMask a) c.tick).handed (d.cond a) c.tick := by
    rw [follows.handed (hxrun.trans (awake hp)), hxtick, ← taken.awake (awake hp) a]
    rcases settled.alarm a with ha | ⟨hn, ha⟩
    · rw [ha]
    · have hcond : d.cond a = x.role.noWeigher := by rw [hn, ← follows.role]; rfl
      rw [ha, hcond, htick1, AlarmRec.handed_twice]
  have asleep (hp : c.sup.power ≠ .run) (a : Alarm) : d.alarm.get a
      = { c.alarm.get a with mode := new.alarmMode a, mask := new.alarmMask a } := by
    have hx1a : x.alarm = x1.alarm := by
      by_cases h : old.role = new.role
      · rw [same h]
      · rw [sleeps hp h]
        rfl
    rw [follows.asleep (hxrun.trans (unlit hp)), hx1a]
    exact taken.asleep (unlit hp) a
  refine ⟨hdstore, fun i hi => ?_, i2, i3, i4, i5, i6, i7, i8, ?_, fun r hr hm => ?_, fun h => ?_, fun hp h => ?_, fun a => ?_,
    handed, asleep, fun h => ?_, fun hp hm => ?_, fun hp h hm hw => ?_, fun hp h hm hw => ?_, fun hp h hw => ?_,
    fun hp h hw => ?_, fun h => ?_, fun hp h hm => ?_, ?_, ?_, ?_, ?_, ?_, honly⟩
  · obtain ⟨hchan, hagree⟩ := i1 i hi
    exact ⟨hchan.trans (ChanRec.rechannel_eq _), hagree⟩
  · rw [hreload, hxload]
  · refine ⟨_, hrecord r hr hm, ?_, rfl, ?_⟩
    · rw [Chip.flagged_congr x d _ _ (by rw [hdcfg, hxcfg]), ← hxcfg]
      exact x.flagged_evaluate r
    · rw [hdseq, hrecord r hr hm, hr]
      exact ite_congr (propext (by rw [Option.some.injEq])) (fun _ => rfl) fun _ => rfl
  · have hk := hkept h
    exact ⟨hk, by rw [hdseq, if_pos hk]⟩
  · have hlink : x.link = c.link := by rw [same h, hlink1]
    have hsends : x.reevaluate.sends c.link [] = d.sends c.link [] :=
      Chip.sends_congr _ _ _ _ (by rw [follows.role]; simp) (by rw [follows.load]) (by rw [follows.load])
    rw [follows.link (hxrun.trans (awake hp)), Chip.reevaluate_link (hxrun.trans (awake hp)), hxrec, hlink, ← follows.load, hdseq]
    by_cases hr : d.load.record = c.load.record
    · rw [if_pos hr, if_pos hr, if_pos rfl]
    · rw [if_neg hr, if_neg hr, if_neg (seq_succ_ne _), Chip.sent, hsends]
  · by_cases hp : c.sup.power = .run
    · obtain ⟨hm, hk, -⟩ := (c.alarm.get a).reconfigured_mode (new.alarmMode a) (new.alarmMask a) c.tick
      obtain ⟨hm', hk'⟩ := AlarmRec.handed_modes
        ((c.alarm.get a).reconfigured (new.alarmMode a) (new.alarmMask a) c.tick) (d.cond a) c.tick
      rw [handed hp a]
      exact ⟨hm'.trans hm, hk'.trans hk⟩
    · rw [asleep hp a]
      exact ⟨rfl, rfl⟩
  · rw [follows.role, same h, hrole1]
  · rw [follows.role]
    by_cases h : old.role = new.role
    · rw [same h, hrole1]
      exact hm
    · rw [(changes hp h).mute (by rw [hrole1]; exact hm), hrole1]
      exact hm
  · have hl := (changes hp h).listens (by rw [hrole1]; exact hm) (by rw [Chip.isWeigher, hnew1, hw]; rfl)
    rw [htick1] at hl
    rw [follows.role]
    exact hl
  · have hl := (changes hp h).repeats (by rw [hrole1]; exact hm) (by rw [Chip.isWeigher, hnew1, hw]; rfl)
    rw [htick1, taken.page.2] at hl
    have hpoll : d.load.pollTimer = x.load.pollTimer := by rw [hreload]
    rw [follows.role, hpoll]
    exact hl
  · intro voids
    have hrole := changes hp h
    have hnot : x1.isWeigher = false := by rw [Chip.isWeigher, hnew1, hw]; rfl
    obtain ⟨heng, hawake, hasleep⟩ := x1.restartTracker_facts
    have hnote := hrole.note
    have heng' := hrole.eng
    rw [if_neg (by rw [hnot]; decide), hrole1, htrk1] at hnote
    rw [if_neg (by rw [hnot]; decide)] at heng'
    rw [htrk1, heng1] at heng
    rw [htrk1] at hawake hasleep
    refine ⟨by rw [follows.eng, heng', heng], fun hs => ?_, fun hs => ?_⟩
    · rw [follows.trk, hnote, hawake hs]
      simp [Chip.lossTimed, lossAfter, Tracker.without, note, voids, flying]
    · rw [follows.trk, hnote, hasleep hs]
  · have hrole := changes hp h
    have hwei : x1.isWeigher = true := by rw [Chip.isWeigher, hnew1, hw]; rfl
    have hnote := hrole.note
    have heng' := hrole.eng
    rw [if_pos hwei, hrole1, htrk1] at hnote
    rw [if_pos hwei, heng1] at heng'
    rw [follows.trk, hnote, follows.eng, heng']
    exact ⟨rfl, rfl⟩
  · have hkeeps : x.trk = c.trk ∧ x.eng = c.eng := by
      by_cases hr : old.role = new.role
      · rw [same hr]
        exact ⟨htrk1, heng1⟩
      · rw [sleeps (h.resolve_left hr) hr]
        exact ⟨htrk1, heng1⟩
    rw [follows.trk, follows.eng, hkeeps.1, hkeeps.2]
    exact ⟨rfl, rfl⟩
  · have hweigher : x1.isWeigher = true ↔ new.role = .weigher := by rw [Chip.isWeigher, hnew1]; simp
    rw [follows.role, sleeps hp h, Chip.mapRole_role, hrole1]
    refine ⟨?_, by simp⟩
    unfold RoleArbiter.roleChangedAsleep
    rw [if_neg hm]
    by_cases hw : new.role = .weigher
    · rw [if_pos (hweigher.mpr hw), if_pos hw]
    · rw [if_neg (mt hweigher.mp hw), if_neg hw]
  · rw [hreload, hxload]
  · rw [hreload, hxload]
  · rw [hreload, hxload]
  · rw [follows.settings, settled.page.1, taken.page.1]
  · rw [follows.page, settled.page.2, taken.page.2]

end Sys2Proof.Machine
